-- ==== Sys2Proof/Word.lean ====
section
/-! DEFINITION. Word.lean: the words of the Wexhal WX4: bytes, samples, tags and run ids. -/

namespace Sys2Proof

/-- A byte of a frame, a block or a spool page. -/
abbrev Byte := BitVec 8

/-- A sample: a 16-bit two's-complement word of one source (00_scope.md, Terms). -/
abbrev Sample := BitVec 16

/-- A run id, an epoch number or an archive link tag: 16 bits, wrapping. -/
abbrev Word16 := BitVec 16

/-- A sequence number or an index block sequence: 32 bits. -/
abbrev Word32 := BitVec 32

/-- A run counter (R39): an unsigned 64-bit count. -/
abbrev Count64 := BitVec 64

end Sys2Proof
end

