-- ==== Sys2Proof/Syntax.lean ====
section
/-! DEFINITION. Syntax.lean: the commands of the part, one constructor for each row of the table of operations and events. -/

namespace Sys2Proof

/-- The four acquisition channel groups (00_scope.md, Terms). -/
inductive Source where
  | s0 | s1 | s2 | s3
  deriving DecidableEq, Repr

/-- The two archive lanes (00_scope.md, Terms). -/
inductive Lane where
  | l0 | l1
  deriving DecidableEq, Repr

/-- The commands: every row of the table of operations and events is one step of the part. The rows
IDENTIFY to CLEAR_NOTICES and BAD_CODE are the TAKING of the oldest frame of the receive buffer (R172);
that frame holds their tag and operands, so the constructors carry none (log 1). -/
inductive Instr where
  /-- POWER_ON (R177). -/
  | powerOn
  /-- COMMAND_FRAME (R170): the bytes the host clocks in. -/
  | commandFrame (bytes : List Byte)
  /-- CHIP_SELECT_RELEASE (R170). -/
  | chipSelectRelease
  /-- FRAME_LEAVES_QUEUE (R171). -/
  | frameLeavesQueue
  /-- IDENTIFY (R176). -/
  | identify
  /-- RESET PART (R177). -/
  | resetPart
  /-- ARM RUN (R27, R28). -/
  | armRun
  /-- STOP RUN (R31). -/
  | stopRun
  /-- ABORT RUN (R38). -/
  | abortRun
  /-- READ RUN (R41). -/
  | readRun
  /-- MARK (R74). -/
  | mark
  /-- SET SOURCE (R43). -/
  | setSource
  /-- READ SOURCE (R58). -/
  | readSource
  /-- SET SPOOL (R88). -/
  | setSpool
  /-- READ SPOOL (R99). -/
  | readSpool
  /-- READ SPAN (R22). -/
  | readSpan
  /-- READ QUEUE (R23). -/
  | readQueue
  /-- READ PAIR (R132). -/
  | readPair
  /-- SET LANE (R134). -/
  | setLane
  /-- LANE RESET (R152). -/
  | laneReset
  /-- LANE OFFLINE (R153). -/
  | laneOffline
  /-- LANE PAUSE (R147). -/
  | lanePause
  /-- LANE RESUME (R147). -/
  | laneResume
  /-- LANE PARK (R148). -/
  | lanePark
  /-- LANE WAKE (R149). -/
  | laneWake
  /-- READ LANE (R155). -/
  | readLane
  /-- SET CHECKPOINT (R165). -/
  | setCheckpoint
  /-- CHECKPOINT NOW (R160). -/
  | checkpointNow
  /-- READ INDEX (R169). -/
  | readIndex
  /-- SET NOTICES (R174). -/
  | setNotices
  /-- READ NOTICES (R175). -/
  | readNotices
  /-- CLEAR NOTICES (R175). -/
  | clearNotices
  /-- SAMPLE_PACKET (R42, R50): 1 to 64 samples of one source. -/
  | samplePacket (src : Source) (samples : List Sample)
  /-- TRIGGER_TAG (R51): a mask of four bits, bit n for source n. -/
  | triggerTag (mask : BitVec 4)
  /-- EPOCH_MARK (R29). -/
  | epochMark (epoch : Word16)
  /-- HELLO_REPLY (R136, R180): maximum burst code, capacity in blocks, attention-capable. -/
  | helloReply (lane : Lane) (tag : Word16) (maxBurst : Byte) (capacity : BitVec 40) (attention : Bool)
  /-- HELLO_TIMEOUT (R136). -/
  | helloTimeout (lane : Lane)
  /-- ACK of a WRITE (R142). -/
  | ack (lane : Lane) (tag : Word16)
  /-- RETRY of a WRITE (R142). -/
  | retry (lane : Lane) (tag : Word16)
  /-- FAULT of a WRITE (R142). -/
  | moduleFault (lane : Lane) (tag : Word16)
  /-- RESPONSE_TIMEOUT of a WRITE or PARK (R142, R148). -/
  | responseTimeout (lane : Lane)
  /-- PARK_DELAY_EXPIRY (R148). -/
  | parkDelayExpiry (lane : Lane)
  /-- PARKED_REPLY (R148). -/
  | parkedReply (lane : Lane) (tag : Word16)
  /-- AWAKE (R149). -/
  | awake (lane : Lane) (tag : Word16)
  /-- WAKE_TIMEOUT (R149). -/
  | wakeTimeout (lane : Lane)
  /-- ATTENTION (R150). -/
  | attention (lane : Lane)
  /-- ARCHIVE_FRAME_DISCARDED (R180): the bytes of a module's frame that fails its check. -/
  | archiveFrameDiscarded (lane : Lane) (bytes : List Byte)
  /-- CHECKPOINT_LOCK_ON (R166). -/
  | checkpointLockOn
  /-- CHECKPOINT_EXPIRY (R167). -/
  | checkpointExpiry
  /-- STOP_DEADLINE_EXPIRY (R35). -/
  | stopDeadlineExpiry
  /-- BAD_CODE (R172): the oldest received frame's code names no command. -/
  | badCode
  deriving DecidableEq, Repr

end Sys2Proof
end

