-- ==== Sys2Proof/Machine/Bytes.lean ====
section
/-! DEFINITION. Machine/Bytes.lean: byte order (R178) and the CRC-16 (R179) that every frame and block uses. -/

namespace Sys2Proof.Machine

/-- The low `n` bytes of a value, little-endian (R178). -/
def leBytes : Nat → Nat → List Byte
  | 0, _ => []
  | n + 1, v => BitVec.ofNat 8 v :: leBytes n (v / 256)

/-- A signed value in `n` bytes, two's complement, little-endian (R178). -/
def leSigned (n : Nat) (v : Int) : List Byte :=
  leBytes n (v % (2 ^ (8 * n) : Nat)).toNat

/-- The value of little-endian bytes (R178). -/
def fromLE : List Byte → Nat
  | [] => 0
  | b :: rest => b.toNat + 256 * fromLE rest

/-- The value of the `n` bytes at an offset of a layout. -/
def field (p : List Byte) (off n : Nat) : Nat := fromLE ((p.drop off).take n)

/-- The byte at an offset of a layout. -/
def byteAt (p : List Byte) (off : Nat) : Nat := field p off 1

/-- yes 1, no 0 (R179). -/
def yesNo (b : Bool) : List Byte := [if b then 1 else 0]

/-- An optional item: a presence byte, and the item where it is present (R179). -/
def optional {α : Type} (enc : α → List Byte) : Option α → List Byte
  | none => [0]
  | some x => 1 :: enc x

/-- Bytes extended with zeros to a fixed size; bytes a layout does not assign are zero (R178). -/
def padTo (n : Nat) (p : List Byte) : List Byte := (p ++ List.replicate (n - p.length) 0).take n

/-- One bit of the CRC-16: polynomial 0x1021 (R179). -/
def crcShift (c : BitVec 16) : BitVec 16 :=
  if c.msb then (c <<< 1) ^^^ 0x1021 else c <<< 1

/-- One byte of the CRC-16, most significant bit first (R179). -/
def crcByte (c : BitVec 16) (b : Byte) : BitVec 16 :=
  let x := c ^^^ (b.zeroExtend 16 <<< 8)
  crcShift (crcShift (crcShift (crcShift (crcShift (crcShift (crcShift (crcShift x)))))))

/-- CRC-16 with initial value 0xFFFF, no reflection, no final inversion (R179). -/
def crc16 (p : List Byte) : BitVec 16 := p.foldl crcByte 0xFFFF

/-- The CRC as it is sent: low byte first (R179). -/
def crcBytes (p : List Byte) : List Byte := leBytes 2 (crc16 p).toNat

end Sys2Proof.Machine
end

