-- ==== Sys2Proof/Config.lean ====
section
/-! DEFINITION. Config.lean: the fixed sizes and levels of the part, and the two values the spec leaves free. -/

namespace Sys2Proof.Config

/-- Slots of the span table (R1). -/
def slotCount : Nat := 4096

/-- Bytes of an archive block (00_scope.md, Terms). -/
def blockBytes : Nat := 4096

/-- Samples in one archive data block: 2 bytes each (R140). -/
def samplesPerBlock : Nat := 2048

/-- Blocks of the largest span on the archive: 4096 data blocks and a header (R138). -/
def largestSpanBlocks : Nat := 4097

/-- Entries of an index block (R157). -/
def entriesPerBlock : Nat := 63

/-- Command frames the receive buffer holds (R170). -/
def rxFrames : Nat := 4

/-- Greatest payload of a control frame (R170). -/
def maxPayload : Nat := 1024

/-- What the part clocks out while its outgoing queue is empty (R171, R179). -/
def idleByte : BitVec 8 := 0xFF

/-- A notice is queued only while the outgoing queue holds this many frames or fewer (R171). -/
def noticeRoom : Nat := 14

/-- A command is taken only while the outgoing queue holds this many frames or fewer (R171). -/
def replyRoom : Nat := 15

/-- Marks a span's list holds (R4). -/
def maxMarks : Nat := 8

/-- Milliseconds of the bring-up exchange (R136). -/
def helloTime : Nat := 500

/-- Consecutive span write failures that fault a lane (R143). -/
def failureLimit : Nat := 3

/-- The last sample number of a source (R53). -/
def lastSample : Nat := 2 ^ 48 - 1

/-- What a spool byte reads as that nothing has written (DESIGN CHOICE, log 5). -/
def blankByte : BitVec 8 := 0

/-- FREE VALUE (R102, R124, log 3): whether, at the n-th time both lanes hold claims that can be
answered, the claim of L0 is taken first. The spec lets either be taken first. -/
opaque lane0First : Nat → Bool

/-- FREE VALUE (R115, R122, log 31): whether, at the n-th draw, a PAUSE or PARK pending on the leader of a FORMING
pair is applied at the conversion to a single write, as the end of the leader's job (R115), or stays pending while the
single write starts at once (R122). The spec states both, and no file of it says which is followed. -/
opaque conversionEndsJob : Nat → Bool

end Sys2Proof.Config
end

