-- ==== Sys2Proof/Machine/State.lean ====
section
/-! DEFINITION. Machine/State.lean: every piece of state the spec gives the part, as plain data, and the state right after reset. -/

namespace Sys2Proof.Machine

/-! ### Containers for a fixed number of like things -/

/-- Four like things: the boundaries B0 to B3 or the notice classes 0 to 3. -/
structure Four (α : Type) where
  a0 : α
  a1 : α
  a2 : α
  a3 : α
  deriving DecidableEq, Repr

def Four.get {α : Type} (v : Four α) (i : Fin 4) : α :=
  match i with
  | 0 => v.a0
  | 1 => v.a1
  | 2 => v.a2
  | 3 => v.a3

def Four.set {α : Type} (v : Four α) (i : Fin 4) (x : α) : Four α :=
  match i with
  | 0 => { v with a0 := x }
  | 1 => { v with a1 := x }
  | 2 => { v with a2 := x }
  | 3 => { v with a3 := x }

/-- One thing for each source. -/
structure PerSource (α : Type) where
  s0 : α
  s1 : α
  s2 : α
  s3 : α
  deriving DecidableEq, Repr

def PerSource.get {α : Type} (v : PerSource α) : Source → α
  | .s0 => v.s0
  | .s1 => v.s1
  | .s2 => v.s2
  | .s3 => v.s3

def PerSource.set {α : Type} (v : PerSource α) (src : Source) (x : α) : PerSource α :=
  match src with
  | .s0 => { v with s0 := x }
  | .s1 => { v with s1 := x }
  | .s2 => { v with s2 := x }
  | .s3 => { v with s3 := x }

/-- One thing for each lane. -/
structure PerLane (α : Type) where
  l0 : α
  l1 : α
  deriving DecidableEq, Repr

def PerLane.get {α : Type} (v : PerLane α) : Lane → α
  | .l0 => v.l0
  | .l1 => v.l1

def PerLane.set {α : Type} (v : PerLane α) (lane : Lane) (x : α) : PerLane α :=
  match lane with
  | .l0 => { v with l0 := x }
  | .l1 => { v with l1 := x }

/-! ### Control Link Port (R170, R171) -/

/-- A command frame that passed the checks of R170. -/
structure CmdFrame where
  tag : Byte
  code : Byte
  payload : List Byte
  deriving DecidableEq, Repr

/-- The two kinds of frame the part sends (R179). -/
inductive OutKind where
  | reply | notice
  deriving DecidableEq, Repr

/-- A frame of the outgoing queue (R171, R179). `resets` marks the RESET PART reply, at whose last byte
the reset takes place (R177). -/
structure OutFrame where
  kind : OutKind
  tag : Byte
  code : Byte
  payload : List Byte
  resets : Bool
  deriving DecidableEq, Repr

structure LinkPort where
  /-- bytes so far of a frame part-way in; empty outside a frame -/
  rxPart : List Byte
  /-- receive buffer, oldest first, up to 4 -/
  rx : List CmdFrame
  /-- outgoing queue, oldest first, up to 16 -/
  out : List OutFrame
  /-- bytes of the oldest outgoing frame clocked out so far in this transfer -/
  outPos : Nat
  /-- 0 to 65535 -/
  linkErrors : Nat
  deriving DecidableEq, Repr

/-! ### Notice Unit (R173) -/

/-- The seventeen notice flags, in the order of R178. -/
inductive Flag where
  | resetDone | runStarted | runEnded | stopDeadline | spoolLevel | shed | intakeLoss | spanFailed
  | pairDegraded | lane0Change | lane1Change | archiveFull | checkpointDone | checkpointLate
  | indexMissed | summarySaturated | linkError
  deriving DecidableEq, Repr

structure NoticeUnit where
  /-- pending state of each flag, bit n for flag n of R178 -/
  flags : BitVec 17
  /-- class of each flag, in flag order -/
  classOf : Vector (Fin 4) 17
  enable : Four Bool
  owed : Four Bool
  noticeCount : Byte
  deriving DecidableEq, Repr

/-! ### Run Controller (R26, R39) -/

inductive RunState where
  | idle | armed | running | stopping | ending
  deriving DecidableEq, Repr

inductive RunStart where
  | now
  | atEpoch (epoch : Word16)
  deriving DecidableEq, Repr

inductive EndCause where
  | none | complete | sequenceExhausted | indexUnwritten | stoppedBeforeStart | aborted
  deriving DecidableEq, Repr

inductive NextSeq where
  | number (n : Word32)
  | exhausted
  deriving DecidableEq, Repr

/-- The run counters of R39. -/
structure RunCounters where
  issued : Count64
  indexed : Count64
  shed : Count64
  recycled : Count64
  discarded : Count64
  lost : PerSource Count64
  checkpointsWritten : Count64
  checkpointsLate : Count64
  deriving DecidableEq, Repr

structure RunController where
  runState : RunState
  runId : Option Word16
  sourceSet : PerSource Bool
  start : RunStart
  startEpoch : Option Word16
  lastEpoch : Option Word16
  /-- seconds, 1 to 3600 -/
  deadline : Nat
  /-- milliseconds remaining while the timer runs -/
  deadlineTimer : Option Nat
  expired : Bool
  nextSeq : NextSeq
  lastEnd : EndCause
  counters : RunCounters
  deriving DecidableEq, Repr

/-! ### Capture Intake (R43, R45) -/

inductive SourceMode where
  | continuous | triggered
  deriving DecidableEq, Repr

inductive LaneRule where
  | l0 | l1 | either | mirror
  deriving DecidableEq, Repr

inductive MirrorPolicy where
  | strict | degrade
  deriving DecidableEq, Repr

inductive PairMode where
  | wait | cancel
  deriving DecidableEq, Repr

inductive ShedRule where
  | keepAll | oldest | newest
  deriving DecidableEq, Repr

structure SourceSettings where
  enabled : Bool
  mode : SourceMode
  /-- 20 to 23 -/
  spanExp : Nat
  preDepth : Nat
  postDepth : Nat
  laneRule : LaneRule
  mirrorPolicy : MirrorPolicy
  pairMode : PairMode
  /-- 0 (highest) to 7 -/
  level : Nat
  shedRule : ShedRule
  shedBoundary : Fin 4
  resumeBoundary : Fin 4
  /-- 14 to 17 -/
  bucketExp : Nat
  /-- signed, 65536 standing for 1.0 -/
  gain : BitVec 32
  deriving DecidableEq, Repr

inductive IntakeState where
  | idle | taking | refusing | closed
  deriving DecidableEq, Repr

/-- A run of consecutive lost samples (R54). `causes` is a cause set of R178. -/
structure Gap where
  first : Nat
  count : Nat
  causes : Byte
  deriving DecidableEq, Repr

structure IntakeSource where
  settings : SourceSettings
  intake : IntakeState
  newest : Option Nat
  tagPending : Bool
  pendingGap : Option Gap
  /-- the gap that waits at the Index Unit; it is also the source's waiting offer of R156 -/
  offeredGap : Option Gap
  deriving DecidableEq, Repr

/-! ### Trigger Window Unit (R59) -/

structure WindowSource where
  /-- none: NONE; some e: OPEN with window end e -/
  window : Option Nat
  markPending : Bool
  deriving DecidableEq, Repr

/-! ### Summary Engine (R76, R83) -/

/-- A (min, max) pair of raw sample values (R82). -/
structure Extremes where
  low : Int
  high : Int
  deriving DecidableEq, Repr

/-- The bucket now filling (R76). -/
structure OpenBucket where
  range : Extremes
  count : Nat
  deriving DecidableEq, Repr

/-- A running summary (R76). -/
structure Running where
  slot : Nat
  gain : BitVec 32
  bucketExp : Nat
  count : Nat
  range : Extremes
  rawSum : Int
  scaledSum : Int
  energy : Nat
  saturated : Bool
  envelope : List Extremes
  openBucket : Option OpenBucket
  deriving DecidableEq, Repr

/-- A finished summary (R83): the compact part, the envelope, and the bucket that divided it. -/
structure Summary where
  count : Nat
  range : Extremes
  rawSum : Int
  scaledSum : Int
  energy : Nat
  saturated : Bool
  bucketExp : Nat
  envelope : List Extremes
  deriving DecidableEq, Repr

/-! ### Span Table (R2, R16, R19) -/

/-- The states of a listed span; FREE is the state of a slot that lists none (R3). -/
inductive SpanState where
  | filling | held | queued | draining | committed | shed
  deriving DecidableEq, Repr

inductive Retention where
  | plain | keep | history
  deriving DecidableEq, Repr

inductive Outcome where
  | none | done | retryExhausted | moduleFault | timeout | cancelled
  deriving DecidableEq, Repr

inductive ShedCause where
  | pressure | archiveFailure | stopDeadline
  deriving DecidableEq, Repr

structure TriggerMark where
  offset : Nat
  shortfall : Nat
  deriving DecidableEq, Repr

/-- A landed copy: the lane and the absolute block address of its header (R5). -/
structure Copy where
  lane : Lane
  address : Nat
  deriving DecidableEq, Repr

/-- A span record in a state other than FREE (R2, R3). -/
structure Span where
  state : SpanState
  runId : Word16
  seq : Word32
  source : Source
  first : Nat
  count : Nat
  retention : Retention
  marks : List TriggerMark
  markOverflow : Nat
  laneRule : LaneRule
  mirrorPolicy : Option MirrorPolicy
  copies : List Copy
  repairLane : Option Lane
  degraded : Bool
  attempts : Nat
  lastOutcome : Outcome
  shedCause : Option ShedCause
  summary : Option Summary
  deriving DecidableEq, Repr

structure SpanTable where
  /-- the slots not FREE, in slot order -/
  slots : List (Nat × Span)
  /-- the source queues, heads first, by slot -/
  queues : PerSource (List Nat)
  occupancy : Nat
  deriving DecidableEq, Repr

/-! ### Spool Pressure Monitor (R87) -/

inductive Pressure where
  | calm | shedding
  deriving DecidableEq, Repr

structure PressureMonitor where
  boundary : Four Nat
  notify : Four Bool
  limit : Nat
  pressure : PerSource Pressure
  deriving DecidableEq, Repr

/-! ### Drain Scheduler (R100, R114) -/

inductive ClaimKind where
  | full | index
  deriving DecidableEq, Repr

/-- A standing claim and the moment it began to stand (R100). -/
structure Claim where
  kind : ClaimKind
  since : Nat
  deriving DecidableEq, Repr

inductive PairPhase where
  | forming | active
  deriving DecidableEq, Repr

inductive PairOutcome where
  | pending | done | failed | cancelled
  deriving DecidableEq, Repr

/-- The pair context (R114). The follower is the other lane than the leader. -/
structure PairContext where
  slot : Nat
  runId : Word16
  seq : Word32
  leader : Lane
  mode : PairMode
  phase : PairPhase
  outcome : PerLane PairOutcome
  deriving DecidableEq, Repr

structure DrainScheduler where
  claim : PerLane (Option Claim)
  pair : Option PairContext
  deriving DecidableEq, Repr

/-! ### Index Unit (R156, R158) -/

inductive BufferName where
  | a | b
  deriving DecidableEq, Repr

inductive BufferState where
  | empty | filling | closed | writing
  deriving DecidableEq, Repr

/-- The compact part of a summary that a SPAN entry carries (R158). Its count is the span's. -/
structure SpanEntry where
  runId : Word16
  seq : Word32
  source : Source
  first : Nat
  count : Nat
  retention : Retention
  markCount : Nat
  firstMark : Option TriggerMark
  copies : List Copy
  degraded : Bool
  range : Extremes
  rawSum : Int
  scaledSum : Int
  energy : Nat
  saturated : Bool
  deriving DecidableEq, Repr

structure GapEntry where
  runId : Word16
  source : Source
  /-- present for a shed span, absent for an intake gap -/
  seq : Option Word32
  first : Nat
  count : Nat
  causes : Byte
  deriving DecidableEq, Repr

structure RunEndEntry where
  runId : Word16
  cause : EndCause
  counters : RunCounters
  deriving DecidableEq, Repr

/-- An entry of an index block (R158). -/
inductive Entry where
  | span (e : SpanEntry)
  | gap (e : GapEntry)
  | runEnd (e : RunEndEntry)
  deriving DecidableEq, Repr

structure IndexBuffer where
  state : BufferState
  entries : List Entry
  final : Bool
  deriving DecidableEq, Repr

structure PerBuffer where
  a : IndexBuffer
  b : IndexBuffer
  deriving DecidableEq, Repr

def PerBuffer.get (v : PerBuffer) : BufferName → IndexBuffer
  | .a => v.a
  | .b => v.b

def PerBuffer.set (v : PerBuffer) (n : BufferName) (x : IndexBuffer) : PerBuffer :=
  match n with
  | .a => { v with a := x }
  | .b => { v with b := x }

inductive Duty where
  | owed | written | missed | off
  deriving DecidableEq, Repr

/-- The writing record (R156, R161). -/
structure Writing where
  buffer : BufferName
  seq : Word32
  duty : PerLane Duty
  deriving DecidableEq, Repr

structure IndexUnit where
  buffers : PerBuffer
  writing : Option Writing
  /-- waiting span entries, in slot order -/
  waitSpans : List (Nat × Entry)
  waitRunEnd : Option Entry
  blockSeq : Word32
  prev : PerLane (Option Nat)
  periodSetting : Nat
  lockSetting : Nat
  period : Nat
  lockTime : Nat
  /-- milliseconds remaining while the checkpoint timer runs -/
  timer : Option Nat
  lock : Bool
  deriving DecidableEq, Repr

/-! ### Archive Lanes (R133, R134, R140) -/

inductive LaneState where
  | down | bringup | ready | busy | paused | parking | parked | waking | faulted
  deriving DecidableEq, Repr

inductive FaultCause where
  | none | noModule | window | timeout | repeatedFailure | wakeTimeout
  deriving DecidableEq, Repr

inductive PendingAction where
  | none | pause | park
  deriving DecidableEq, Repr

/-- The settings of SET LANE other than the two cursors, which have one home of their own (R134). -/
structure LaneSettings where
  /-- with its k lowest bits zero -/
  base : Nat
  /-- k, 20 to 34 -/
  sizeExp : Nat
  reserve : Nat
  /-- burst size code, 0 to 4: 16 KiB times 2 to this power -/
  burst : Nat
  retryLimit : Nat
  /-- ms -/
  responseTime : Nat
  /-- s, 0 for never -/
  parkDelay : Nat
  /-- ms -/
  wakeTime : Nat
  wakeOnAttention : Bool
  deriving DecidableEq, Repr

structure ModuleReport where
  maxBurst : Nat
  capacity : Nat
  attention : Bool
  deriving DecidableEq, Repr

inductive JobPhase where
  | data | header
  deriving DecidableEq, Repr

/-- A span write job (R140). Before `started` it is the write of a FORMING leader, with nothing
reserved and nothing sent (R115). -/
structure SpanJob where
  slot : Nat
  runId : Word16
  seq : Word32
  started : Bool
  /-- offset of the header block -/
  first : Nat
  /-- blocks reserved -/
  reserved : Nat
  phase : JobPhase
  /-- offset of the next data block to send -/
  next : Nat
  retries : Nat
  /-- the record as copied at the start -/
  record : Option Span
  deriving DecidableEq, Repr

/-- The block the Index Unit prepares for a lane when it takes the index job (R161, R164). -/
structure IndexImage where
  runId : Word16
  seq : Word32
  entries : List Entry
  final : Bool
  prev : Option Nat
  deriving DecidableEq, Repr

/-- An index job (R145). -/
structure IndexJob where
  buffer : BufferName
  address : Nat
  retries : Nat
  image : IndexImage
  deriving DecidableEq, Repr

inductive Job where
  | span (j : SpanJob)
  | index (j : IndexJob)
  deriving DecidableEq, Repr

structure LaneUnit where
  state : LaneState
  fault : FaultCause
  settings : LaneSettings
  report : Option ModuleReport
  effBurst : Nat
  effWake : Bool
  dataCursor : Nat
  /-- -1 to 2^k - 1 -/
  indexCursor : Int
  dataFull : Bool
  indexFull : Bool
  deadSpace : Nat
  failures : Nat
  action : PendingAction
  wakePending : Bool
  job : Option Job
  burstTag : Word16
  attentionSeen : Bool
  /-- milliseconds remaining of the exchange outstanding on the archive link -/
  timer : Option Nat
  deriving DecidableEq, Repr

/-- A frame a lane puts on its archive link (R180). A block is its 4096 bytes. -/
inductive LaneFrame where
  | hello (tag : Word16)
  | write (tag : Word16) (address : Nat) (blocks : List (List Byte))
  | cancel (tag : Word16)
  | park (tag : Word16)
  | wake (tag : Word16)
  deriving DecidableEq, Repr

/-! ### Spool memory (R1) -/

/-- Spool memory as a list of cells in canonical form: addresses strictly rising, and no byte equal to
what an unlisted address reads as. -/
abbrev Memory := List Host.Cell

/-- Addresses strictly above `low`, strictly rising, and no listed byte blank. -/
def Memory.wfFrom (low : Nat) : Memory → Bool
  | [] => true
  | (a, b) :: rest => decide (low ≤ a) && decide (b ≠ Config.blankByte) && wfFrom (a + 1) rest

/-- The canonical form of spool memory. -/
def Memory.wf (m : Memory) : Bool := Memory.wfFrom 0 m

/-! ### The state -/

structure State where
  /-- commands waiting, first in first out -/
  pending : List Instr
  /-- the model's clock: milliseconds counted by idle steps (log 2) -/
  now : Nat
  /-- the model's counter that draws the next free choice: a claim order (log 3), or what a conversion does with a
  pending action (log 31) -/
  choices : Nat
  /-- spool memory -/
  mem : Memory
  /-- the frames each lane has put on its archive link, oldest first (log 6) -/
  wire : PerLane (List LaneFrame)
  /-- the bytes the host has clocked out on the control link, oldest first (log 24) -/
  clocked : List Byte
  clp : LinkPort
  nu : NoticeUnit
  rc : RunController
  ci : PerSource IntakeSource
  twu : PerSource WindowSource
  se : PerSource (Option Running)
  spm : PressureMonitor
  st : SpanTable
  ds : DrainScheduler
  iu : IndexUnit
  al : PerLane LaneUnit
  deriving DecidableEq, Repr

/-- Why the part could stop with a fault: never. Every row of the table has an effect, or none, in
every state; a lane's FAULTED state, LINK_ERROR and the reply statuses are state and replies. So there
is no constructor, and no one raises one (safe: nothing is stopped that the part would do). -/
inductive Fault where
  deriving DecidableEq, Repr

/-- Why the model could refuse a command. -/
inductive Refusal where
  /-- Raised by an arm of `exec` that has no meaning yet. Safe: nothing is claimed of the command. -/
  | notModelled (mnemonic : String)
  deriving DecidableEq, Repr

/-! ### Reset values -/

/-- The defaults of R43. -/
def SourceSettings.default : SourceSettings where
  enabled := false
  mode := .continuous
  spanExp := 23
  preDepth := 0
  postDepth := 2 ^ 20
  laneRule := .either
  mirrorPolicy := .strict
  pairMode := .wait
  level := 4
  shedRule := .keepAll
  shedBoundary := 2
  resumeBoundary := 1
  bucketExp := 14
  gain := 65536

/-- R45, column power-on and RESET PART. -/
def IntakeSource.reset : IntakeSource where
  settings := .default
  intake := .idle
  newest := none
  tagPending := false
  pendingGap := none
  offeredGap := none

/-- R59. -/
def WindowSource.reset : WindowSource where
  window := none
  markPending := false

/-- All counters 0 (R39). -/
def RunCounters.zero : RunCounters where
  issued := 0
  indexed := 0
  shed := 0
  recycled := 0
  discarded := 0
  lost := ⟨0, 0, 0, 0⟩
  checkpointsWritten := 0
  checkpointsLate := 0

/-- R26. -/
def RunController.reset : RunController where
  runState := .idle
  runId := none
  sourceSet := ⟨false, false, false, false⟩
  start := .now
  startEpoch := none
  lastEpoch := none
  deadline := 60
  deadlineTimer := none
  expired := false
  nextSeq := .number 0
  lastEnd := .none
  counters := .zero

/-- R24. -/
def SpanTable.empty : SpanTable where
  slots := []
  queues := ⟨[], [], [], []⟩
  occupancy := 0

/-- R87. -/
def PressureMonitor.reset : PressureMonitor where
  boundary := ⟨1024, 2048, 3072, 3840⟩
  notify := ⟨false, false, false, false⟩
  limit := 3
  pressure := ⟨.calm, .calm, .calm, .calm⟩

/-- R100, R114. -/
def DrainScheduler.reset : DrainScheduler where
  claim := ⟨none, none⟩
  pair := none

def IndexBuffer.empty : IndexBuffer where
  state := .empty
  entries := []
  final := false

/-- R156. -/
def IndexUnit.reset : IndexUnit where
  buffers := ⟨.empty, .empty⟩
  writing := none
  waitSpans := []
  waitRunEnd := none
  blockSeq := 0
  prev := ⟨none, none⟩
  periodSetting := 1000
  lockSetting := 20
  period := 1000
  lockTime := 20
  timer := none
  lock := false

/-- The defaults of R134. -/
def LaneSettings.default : LaneSettings where
  base := 0
  sizeExp := 20
  reserve := 4096
  burst := 2
  retryLimit := 3
  responseTime := 50
  parkDelay := 0
  wakeTime := 2000
  wakeOnAttention := false

/-- R133. -/
def LaneUnit.reset : LaneUnit where
  state := .down
  fault := .none
  settings := .default
  report := none
  effBurst := 2
  effWake := false
  dataCursor := 0
  indexCursor := 1048575
  dataFull := false
  indexFull := false
  deadSpace := 0
  failures := 0
  action := .none
  wakePending := false
  job := none
  burstTag := 0
  attentionSeen := false
  timer := none

/-- The Notice Unit after a reset: the values of R173, RESET_DONE pending, and the count past the
notice that R177 has queued. -/
def NoticeUnit.reset : NoticeUnit where
  flags := 1
  classOf := Vector.replicate 17 0
  enable := ⟨true, false, false, false⟩
  owed := ⟨false, false, false, false⟩
  noticeCount := 1

/-- The link port after a reset: both buffers emptied, then the class 0 notice carrying RESET_DONE (R177). -/
def LinkPort.reset : LinkPort where
  rxPart := []
  rx := []
  out := [{ kind := .notice, tag := 0, code := 0, payload := [1, 0, 0], resets := false }]
  outPos := 0
  linkErrors := 0

/-- The part right after reset (R177): every block at the values its chapter gives, RESET_DONE set and
its notice queued. Memory lists nothing, no command waits, and the model's own fields are empty or 0. -/
def State.reset : State where
  pending := []
  now := 0
  choices := 0
  mem := []
  wire := ⟨[], []⟩
  clocked := []
  clp := .reset
  nu := .reset
  rc := .reset
  ci := ⟨.reset, .reset, .reset, .reset⟩
  twu := ⟨.reset, .reset, .reset, .reset⟩
  se := ⟨none, none, none, none⟩
  spm := .reset
  st := .empty
  ds := .reset
  iu := .reset
  al := ⟨.reset, .reset⟩

end Sys2Proof.Machine
end

