-- ==== Sys2Proof/Machine/Ops.lean ====
section
/-! DEFINITION. Machine/Ops.lean: the named operations over spool memory and over the parts of the state. -/

namespace Sys2Proof

/-! ### Names -/

/-- S0 to S3 in order. -/
def Source.all : List Source := [.s0, .s1, .s2, .s3]

/-- L0, L1 in order. -/
def Lane.all : List Lane := [.l0, .l1]

/-- Source n (R178). -/
def Source.num : Source → Nat
  | .s0 => 0
  | .s1 => 1
  | .s2 => 2
  | .s3 => 3

/-- The source of a source number (R42). -/
def Source.ofNum : Nat → Option Source
  | 0 => some .s0
  | 1 => some .s1
  | 2 => some .s2
  | 3 => some .s3
  | _ => none

/-- L0 0, L1 1 (R178). -/
def Lane.num : Lane → Nat
  | .l0 => 0
  | .l1 => 1

def Lane.ofNum : Nat → Option Lane
  | 0 => some .l0
  | 1 => some .l1
  | _ => none

/-- The other of the two lanes. -/
def Lane.other : Lane → Lane
  | .l0 => .l1
  | .l1 => .l0

end Sys2Proof

namespace Sys2Proof.Machine

/-- Bit n of a mask names source n. -/
def inMask (mask : Nat) (src : Source) : Bool := mask.testBit src.num

/-! ### Spool memory (R1) -/

/-- The spool address of an offset in the page of a slot: page n begins at byte 2^24 n (R1). -/
def spoolAddr (slot offset : Nat) : Nat := (BitVec.ofNat 12 slot ++ BitVec.ofNat 24 offset).toNat

/-- A byte of spool memory; an unlisted one reads as `Config.blankByte` (log 5). -/
def Memory.read : Memory → Nat → Byte
  | [], _ => Config.blankByte
  | (a, b) :: rest, x => if x = a then b else Memory.read rest x

/-- Writing a byte keeps the canonical form. -/
def Memory.write : Memory → Nat → Byte → Memory
  | [], x, v => if v = Config.blankByte then [] else [(x, v)]
  | (a, b) :: rest, x, v =>
    if x < a then
      if v = Config.blankByte then (a, b) :: rest else (x, v) :: (a, b) :: rest
    else if x = a then
      if v = Config.blankByte then rest else (x, v) :: rest
    else (a, b) :: Memory.write rest x v

/-- A sample is stored little-endian at byte offset 2k of its span's page (R1, R15). -/
def Memory.writeSample (m : Memory) (slot k : Nat) (x : Sample) : Memory :=
  (m.write (spoolAddr slot (2 * k)) (x.extractLsb' 0 8)).write
    (spoolAddr slot (2 * k + 1)) (x.extractLsb' 8 8)

/-! ### One setter for each field of the state -/

def State.setNow (s : State) (v : Nat) : State := { s with now := v }
def State.setChoices (s : State) (v : Nat) : State := { s with choices := v }
def State.setMem (s : State) (v : Memory) : State := { s with mem := v }
def State.setWire (s : State) (v : PerLane (List LaneFrame)) : State := { s with wire := v }
def State.setClocked (s : State) (v : List Byte) : State := { s with clocked := v }
def State.setClp (s : State) (v : LinkPort) : State := { s with clp := v }
def State.setNu (s : State) (v : NoticeUnit) : State := { s with nu := v }
def State.setRc (s : State) (v : RunController) : State := { s with rc := v }
def State.setCi (s : State) (v : PerSource IntakeSource) : State := { s with ci := v }
def State.setTwu (s : State) (v : PerSource WindowSource) : State := { s with twu := v }
def State.setSe (s : State) (v : PerSource (Option Running)) : State := { s with se := v }
def State.setSpm (s : State) (v : PressureMonitor) : State := { s with spm := v }
def State.setSt (s : State) (v : SpanTable) : State := { s with st := v }
def State.setDs (s : State) (v : DrainScheduler) : State := { s with ds := v }
def State.setIu (s : State) (v : IndexUnit) : State := { s with iu := v }
def State.setAl (s : State) (v : PerLane LaneUnit) : State := { s with al := v }

/-! ### Reading and changing one source's or one lane's part -/

def State.intake (s : State) (src : Source) : IntakeSource := s.ci.get src

def State.settings (s : State) (src : Source) : SourceSettings := (s.ci.get src).settings

def State.onIntake (s : State) (src : Source) (f : IntakeSource → IntakeSource) : State :=
  s.setCi (s.ci.set src (f (s.ci.get src)))

def State.onWindow (s : State) (src : Source) (f : WindowSource → WindowSource) : State :=
  s.setTwu (s.twu.set src (f (s.twu.get src)))

def State.setSummary (s : State) (src : Source) (v : Option Running) : State :=
  s.setSe (s.se.set src v)

def State.lane (s : State) (lane : Lane) : LaneUnit := s.al.get lane

def State.onLane (s : State) (lane : Lane) (f : LaneUnit → LaneUnit) : State :=
  s.setAl (s.al.set lane (f (s.al.get lane)))

def State.setClaim (s : State) (lane : Lane) (v : Option Claim) : State :=
  s.setDs { s.ds with claim := s.ds.claim.set lane v }

def State.setPair (s : State) (v : Option PairContext) : State :=
  s.setDs { s.ds with pair := v }

def State.onCounters (s : State) (f : RunCounters → RunCounters) : State :=
  s.setRc { s.rc with counters := f s.rc.counters }

/-- Whether a source is taking samples: intake TAKING or REFUSING (R46). -/
def IntakeState.takes : IntakeState → Bool
  | .taking => true
  | .refusing => true
  | .idle => false
  | .closed => false

/-- Apply a change source by source, S0 to S3. -/
def forSources (f : Source → State → State) (s : State) : State :=
  f .s3 (f .s2 (f .s1 (f .s0 s)))

/-- Apply a change lane by lane, L0 then L1. -/
def forLanes (f : Lane → State → State) (s : State) : State := f .l1 (f .l0 s)

/-! ### The archive links (R139) -/

/-- A frame is put on a lane's archive link. -/
def State.send (s : State) (lane : Lane) (f : LaneFrame) : State :=
  s.setWire (s.wire.set lane (s.wire.get lane ++ [f]))

/-- Before a frame that expects a reply the lane advances its burst tag by 1, from 65535 to 0, the
frame carries the new tag, and the timer of the exchange starts (R139). -/
def State.sendAwaiting (s : State) (lane : Lane) (frame : Word16 → LaneFrame) (time : Nat) : State :=
  let tag := (s.lane lane).burstTag + 1
  (s.onLane lane fun a => { a with burstTag := tag, timer := some time }).send lane (frame tag)

/-- A reply is taken only when it carries the lane's current tag while that frame is outstanding and
the lane is in the state that awaits it (R139). -/
def State.awaits (s : State) (lane : Lane) (st : LaneState) (tag : Word16) : Bool :=
  (s.lane lane).state == st && (s.lane lane).timer.isSome && (s.lane lane).burstTag == tag

end Sys2Proof.Machine
end

