-- ==== Sys2Proof/Machine/Flags.lean ====
section
/-! DEFINITION. Machine/Flags.lean: the Notice Unit: setting a flag, queueing a notice, owed notices (R173). -/

namespace Sys2Proof.Machine

/-- The seventeen flags in the order of R178. -/
def Flag.all : List Flag :=
  [.resetDone, .runStarted, .runEnded, .stopDeadline, .spoolLevel, .shed, .intakeLoss, .spanFailed,
   .pairDegraded, .lane0Change, .lane1Change, .archiveFull, .checkpointDone, .checkpointLate,
   .indexMissed, .summarySaturated, .linkError]

/-- The bit of a flag in a flag set (R178). -/
def Flag.idx : Flag → Fin 17
  | .resetDone => 0
  | .runStarted => 1
  | .runEnded => 2
  | .stopDeadline => 3
  | .spoolLevel => 4
  | .shed => 5
  | .intakeLoss => 6
  | .spanFailed => 7
  | .pairDegraded => 8
  | .lane0Change => 9
  | .lane1Change => 10
  | .archiveFull => 11
  | .checkpointDone => 12
  | .checkpointLate => 13
  | .indexMissed => 14
  | .summarySaturated => 15
  | .linkError => 16

/-- The flag set that holds one flag. -/
def Flag.bit (f : Flag) : BitVec 17 := 1#17 <<< f.idx.val

/-- A lane's change flag (R154). -/
def laneChangeFlag : Lane → Flag
  | .l0 => .lane0Change
  | .l1 => .lane1Change

/-- Whether a flag is pending. -/
def NoticeUnit.isPending (n : NoticeUnit) (f : Flag) : Bool := n.flags.getLsbD f.idx.val

/-- The class of a flag. -/
def NoticeUnit.cls (n : NoticeUnit) (f : Flag) : Fin 4 := n.classOf.get f.idx

/-- The flags of a class. -/
def NoticeUnit.members (n : NoticeUnit) (c : Fin 4) : BitVec 17 :=
  Flag.all.foldl (fun m f => if n.cls f = c then m ||| f.bit else m) 0

/-- The set of every flag pending in a class. -/
def NoticeUnit.pendingIn (n : NoticeUnit) (c : Fin 4) : BitVec 17 := n.flags &&& n.members c

/-- A flag set is three bytes (R178). -/
def flagBytes (v : BitVec 17) : List Byte := leBytes 3 v.toNat

/-- The notice frame of a class: its tag is the notice count as it stands before the notice is queued,
its code the class, its payload the flags pending in the class (R173, R179). -/
def NoticeUnit.frame (n : NoticeUnit) (c : Fin 4) : OutFrame where
  kind := .notice
  tag := n.noticeCount
  code := BitVec.ofNat 8 c.val
  payload := flagBytes (n.pendingIn c)
  resets := false

/-- A frame joins the outgoing queue. -/
def State.queueOut (s : State) (f : OutFrame) : State :=
  s.setClp { s.clp with out := s.clp.out ++ [f] }

/-- A notice of a class is queued, and the notice count increases by 1, wrapping (R173). -/
def State.queueNotice (s : State) (c : Fin 4) : State :=
  (s.queueOut (s.nu.frame c)).setNu { s.nu with noticeCount := s.nu.noticeCount + 1 }

def State.setOwed (s : State) (c : Fin 4) (v : Bool) : State :=
  s.setNu { s.nu with owed := s.nu.owed.set c v }

/-- A notice is queued while the outgoing queue holds 14 frames or fewer, and owed to its class when
the queue is fuller (R171, R173). -/
def State.noticeOrOwe (s : State) (c : Fin 4) : State :=
  if s.clp.out.length ≤ Config.noticeRoom then s.queueNotice c else s.setOwed c true

/-- A block sets a flag: already pending, nothing changes; otherwise it becomes pending, and a notice
of its class follows if the class is enabled (R173). -/
def State.setFlag (s : State) (f : Flag) : State :=
  if s.nu.isPending f then s
  else
    let s' := s.setNu { s.nu with flags := s.nu.flags ||| f.bit }
    if s.nu.enable.get (s.nu.cls f) then s'.noticeOrOwe (s.nu.cls f) else s'

/-- An owed class is taken: with no flag pending its mark is cleared and nothing is queued (log 13);
otherwise its notice is queued and the mark cleared while the queue holds 14 frames or fewer (R173). -/
def State.drainOwedClass (s : State) (c : Fin 4) : State :=
  if s.nu.owed.get c then
    if s.nu.pendingIn c = 0 then s.setOwed c false
    else if s.clp.out.length ≤ Config.noticeRoom then (s.setOwed c false).queueNotice c
    else s
  else s

/-- When a frame leaves the outgoing queue the owed classes are taken from 0 to 3 (R173). -/
def State.drainOwed (s : State) : State :=
  (((s.drainOwedClass 0).drainOwedClass 1).drainOwedClass 2).drainOwedClass 3

/-- Whether any class is owed a notice. -/
def NoticeUnit.anyOwed (n : NoticeUnit) : Bool :=
  n.owed.a0 || n.owed.a1 || n.owed.a2 || n.owed.a3

/-- A link error: the count increases by 1 up to 65535, and LINK_ERROR is set (R170). -/
def State.linkError (s : State) : State :=
  (s.setClp { s.clp with linkErrors := min 65535 (s.clp.linkErrors + 1) }).setFlag .linkError

end Sys2Proof.Machine
end

