-- ==== Sys2Proof/Machine/Link.lean ====
section
/-! DEFINITION. Machine/Link.lean: the Control Link Port: frames in, frames out, and the taking of a command (R170 to R172, R177, R179). -/

namespace Sys2Proof.Machine

/-! ### Frames as bytes (R179) -/

def OutKind.code : OutKind → Nat
  | .reply => 2
  | .notice => 3

/-- The bytes of a frame the part clocks out: start byte, length, kind, tag, code, payload and CRC over
kind, tag, code and payload (R179). -/
def OutFrame.bytes (f : OutFrame) : List Byte :=
  let inner := leBytes 1 f.kind.code ++ f.tag :: f.code :: f.payload
  0xA5 :: (leBytes 2 f.payload.length ++ inner ++ crcBytes inner)

/-- The bytes of a command frame (R179). -/
def CmdFrame.bytes (f : CmdFrame) : List Byte :=
  let inner := 0x01 :: f.tag :: f.code :: f.payload
  0xA5 :: (leBytes 2 f.payload.length ++ inner ++ crcBytes inner)

/-- The attention line is asserted while the outgoing queue holds at least one frame (R171). -/
def LinkPort.attention (c : LinkPort) : Bool := !c.out.isEmpty

/-! ### The receiver (R170) -/

def State.setRxPart (s : State) (p : List Byte) : State := s.setClp { s.clp with rxPart := p }

/-- A frame with all its bytes is checked for CRC and then kind, and joins the receive buffer; one that
fails, or finds 4 frames there, is a link error (R170). -/
def State.frameIn (s : State) (p : List Byte) : State :=
  let n := field p 1 2
  let inner := (p.drop 3).take (3 + n)
  if field p (6 + n) 2 = (crc16 inner).toNat ∧ byteAt p 3 = 1 ∧ s.clp.rx.length < Config.rxFrames then
    s.setClp { s.clp with
      rx := s.clp.rx ++
        [{ tag := BitVec.ofNat 8 (byteAt p 4), code := BitVec.ofNat 8 (byteAt p 5),
           payload := (p.drop 6).take n }] }
  else s.linkError

/-- The port after the bytes so far of a frame: a length above 1024 is judged as soon as the length bytes
have arrived, and a whole frame is checked (R170). -/
def State.assemble (s : State) (p : List Byte) : State :=
  if p.length < 3 then s.setRxPart p
  else if Config.maxPayload < field p 1 2 then (s.setRxPart []).linkError
  else if p.length < 8 + field p 1 2 then s.setRxPart p
  else (s.setRxPart []).frameIn p

/-- A byte clocked in: outside a frame every byte but the start byte is skipped (R170). -/
def State.byteIn (s : State) (b : Byte) : State :=
  if s.clp.rxPart = [] ∧ b ≠ 0xA5 then s else s.assemble (s.clp.rxPart ++ [b])

/-- A frame cut off by the release of chip select is a bad length (R170). -/
def State.cutOff (s : State) : State :=
  if s.clp.rxPart = [] then s else (s.setRxPart []).linkError

/-! ### The bytes out (R171) -/

def State.setOutPos (s : State) (n : Nat) : State := s.setClp { s.clp with outPos := n }

/-- Bytes are clocked out. -/
def State.clockOut (s : State) (bytes : List Byte) : State := s.setClocked (s.clocked ++ bytes)

/-- A byte is clocked out beside one clocked in: the idle byte while the outgoing queue is empty, and
otherwise the next byte of the oldest frame, up to its last one, whose clocking out is a row of its own
(R171; log 24). -/
def State.byteOut (s : State) : State :=
  match s.clp.out with
  | [] => s.clockOut [Config.idleByte]
  | f :: _ =>
    if s.clp.outPos + 1 < f.bytes.length then
      (s.clockOut [f.bytes.getD s.clp.outPos 0]).setOutPos (s.clp.outPos + 1)
    else s

/-- In a transfer the host clocks bytes in both directions at once (R170, R171). -/
def State.exchange (s : State) (b : Byte) : State := s.byteOut.byteIn b

/-- Bytes clocked in, in order, each with the byte clocked out beside it. -/
def State.bytesIn (s : State) (bytes : List Byte) : State := bytes.foldl State.exchange s

/-! ### The sender and the reset (R171, R177) -/

/-- The reset of the part: every block takes its reset values, both link buffers are emptied, and
RESET_DONE is set with its notice (R177). Spool pages are not cleared (R24); the queue of commands and
the model's own fields are not the part's. -/
def State.partReset (s : State) : State :=
  { State.reset with
    pending := s.pending, now := s.now, choices := s.choices, mem := s.mem, wire := s.wire,
    clocked := s.clocked }

/-- The rest of the oldest outgoing frame is clocked out and the frame leaves the queue: the reset takes
place if it is the reply of RESET PART, and otherwise the owed notices are taken (R171, R173, R177). -/
def State.frameOut (s : State) : State :=
  match s.clp.out with
  | [] => s
  | f :: rest =>
    let s1 := s.clockOut (f.bytes.drop s.clp.outPos)
    if f.resets then s1.partReset
    else (s1.setClp { s.clp with out := rest, outPos := 0 }).drainOwed

/-! ### Taking a command (R172) -/

/-- The status of a reply (R172). -/
inductive Status where
  | ok | refusedState | badValue | badCode | badLength
  deriving DecidableEq, Repr

/-- R178. -/
def Status.code : Status → Byte
  | .ok => 0
  | .refusedState => 1
  | .badValue => 2
  | .badCode => 3
  | .badLength => 4

/-- Whether the port takes a command: the outgoing queue holds 15 frames or fewer, no notice class is
owed, and no RESET PART has been taken (R171, R172, R177). -/
def State.takesCommand (s : State) : Bool :=
  decide (s.clp.out.length ≤ Config.replyRoom) && !s.nu.anyOwed && !(s.clp.out.any OutFrame.resets)

/-- The reply to a command: kind reply, the command's tag, the status in its code (R172). -/
def replyTo (f : CmdFrame) (st : Status) (payload : List Byte) : OutFrame where
  kind := .reply
  tag := f.tag
  code := st.code
  payload := payload
  resets := false

/-- The oldest frame leaves the receive buffer (R172). -/
def State.popFrame (s : State) : State := s.setClp { s.clp with rx := s.clp.rx.tail }

/-- The owning rule's part of a command: the payload length its layout gives, its checks, its OK payload,
and its effect. The payload is that of the frame, the state the one in which the command is taken; the
effect acts on the state with the reply already queued, ahead of any notice it raises (R172). -/
structure Command where
  code : Byte
  len : Nat
  check : List Byte → State → Status
  payload : List Byte → State → List Byte
  effect : List Byte → State → State

/-- A taken command is answered: the length is checked, then the owning rule's conditions, and the first
check that fails decides a reply without payload and without effect (R172). -/
def Command.answer (c : Command) (f : CmdFrame) (s : State) : State :=
  if f.payload.length ≠ c.len then s.popFrame.queueOut (replyTo f .badLength [])
  else
    match c.check f.payload s with
    | .ok => c.effect f.payload (s.popFrame.queueOut (replyTo f .ok (c.payload f.payload s)))
    | .refusedState => s.popFrame.queueOut (replyTo f .refusedState [])
    | .badValue => s.popFrame.queueOut (replyTo f .badValue [])
    | .badCode => s.popFrame.queueOut (replyTo f .badCode [])
    | .badLength => s.popFrame.queueOut (replyTo f .badLength [])

/-- The taking of a command of the table: it happens when the oldest received frame carries its code and
the port takes commands; otherwise the row is not what the port does, and nothing changes (log 1). -/
def Command.take (c : Command) (s : State) : State :=
  match s.clp.rx with
  | [] => s
  | f :: _ => if s.takesCommand ∧ f.code = c.code then c.answer f s else s

/-- The condition of a command that no state and no field refuses. -/
def alwaysOk (_ : List Byte) (_ : State) : Status := .ok

def noPayload (_ : List Byte) (_ : State) : List Byte := []

def noEffect (_ : List Byte) (s : State) : State := s

/-- BAD_VALUE where a field does not decode. -/
def Status.ofFields {α : Type} : Option α → Status
  | some _ => .ok
  | none => .badValue

/-- The first of two checks that fails decides (R172). -/
def Status.andThen (a b : Status) : Status := if a = .ok then b else a

/-- REFUSED_STATE where a condition on the state does not hold. -/
def Status.ofState (allowed : Bool) : Status := if allowed then .ok else .refusedState

/-- The codes that name a command (R179). -/
def knownCodes : List Byte :=
  [0x01, 0x02, 0x10, 0x11, 0x12, 0x13, 0x18, 0x20, 0x21, 0x28, 0x29, 0x30, 0x31, 0x38, 0x40, 0x41, 0x42,
   0x43, 0x44, 0x45, 0x46, 0x47, 0x50, 0x51, 0x52, 0x60, 0x61, 0x62]

/-- The taking of a frame whose code names no command: BAD_CODE, and nothing else (R172). -/
def State.takeBadCode (s : State) : State :=
  match s.clp.rx with
  | [] => s
  | f :: _ =>
    if s.takesCommand ∧ f.code ∉ knownCodes then s.popFrame.queueOut (replyTo f .badCode []) else s

/-! ### Meanings -/

/-- POWER_ON: the effect of the reset of RESET PART, without a reply (R177). -/
def execPowerOn (s : State) : Host.Outcome State Fault Refusal := .next s.partReset

/-- COMMAND_FRAME: bytes clocked in, while bytes of the outgoing queue are clocked out (R170, R171). -/
def execCommandFrame (bytes : List Byte) (s : State) : Host.Outcome State Fault Refusal :=
  .next (s.bytesIn bytes)

/-- CHIP_SELECT_RELEASE: a frame part-way in is a bad length; one part-way out stays at the head of the
queue, to be sent again from its start byte (R170, R171). -/
def execChipSelectRelease (s : State) : Host.Outcome State Fault Refusal := .next (s.setOutPos 0).cutOff

/-- FRAME_LEAVES_QUEUE (R171). -/
def execFrameLeavesQueue (s : State) : Host.Outcome State Fault Refusal := .next s.frameOut

/-- BAD_CODE (R172). -/
def execBadCode (s : State) : Host.Outcome State Fault Refusal := .next s.takeBadCode

end Sys2Proof.Machine
end

