-- ==== Sys2Proof/Machine/Pressure.lean ====
section
/-! DEFINITION. Machine/Pressure.lean: boundary crossings and pressure states (R90, R91, R92). -/

namespace Sys2Proof.Machine

/-- A boundary of value b is crossed upward when u < b ≤ v and downward when v < b ≤ u (R90). -/
def crossed (u v b : Nat) : Bool :=
  (decide (u < b) && decide (b ≤ v)) || (decide (v < b) && decide (b ≤ u))

/-- Whether a change from u to v crosses a boundary whose notify mark is on (R90). -/
def PressureMonitor.crosses (m : PressureMonitor) (u v : Nat) : Bool :=
  (m.notify.a0 && crossed u v m.boundary.a0) || (m.notify.a1 && crossed u v m.boundary.a1) ||
  (m.notify.a2 && crossed u v m.boundary.a2) || (m.notify.a3 && crossed u v m.boundary.a3)

/-- The table of R91, with its hysteresis between the resume and the shed value. -/
def nextPressure (p : Pressure) (v shedAt resumeAt : Nat) : Pressure :=
  match p with
  | .calm => if shedAt ≤ v then .shedding else .calm
  | .shedding => if v ≤ resumeAt then .calm else .shedding

/-- What a change of pressure state does to the intake of a NEWEST source (R46, R91, R96). -/
def IntakeState.underPressure (i : IntakeState) (p : Pressure) : IntakeState :=
  match p, i with
  | .shedding, .taking => .refusing
  | .calm, .refusing => .taking
  | _, i => i

/-- A source takes a pressure state; a change is told to the intake when its shed rule is NEWEST (R91). -/
def State.setPressure (s : State) (src : Source) (p : Pressure) : State :=
  let s' := s.setSpm { s.spm with pressure := s.spm.pressure.set src p }
  if p = s.spm.pressure.get src then s'
  else
    match (s.settings src).shedRule with
    | .newest => s'.onIntake src fun i => { i with intake := i.intake.underPressure p }
    | .keepAll => s'
    | .oldest => s'

/-- The evaluation of one source against an occupancy: an enabled source by the table of R91, a source
that is not enabled as it stands. -/
def State.evalPressure (v : Nat) (src : Source) (s : State) : State :=
  if (s.settings src).enabled then
    s.setPressure src (nextPressure (s.spm.pressure.get src) v
      (s.spm.boundary.get (s.settings src).shedBoundary)
      (s.spm.boundary.get (s.settings src).resumeBoundary))
  else s

/-- The evaluation of every source, S0 to S3. -/
def State.evalAllPressure (v : Nat) (s : State) : State := forSources (State.evalPressure v) s

/-- The monitor takes a report of an occupancy change: crossings first (R90), then the pressure state of
each source (R91). -/
def State.occupancyChanged (u v : Nat) (s : State) : State :=
  let s' := if s.spm.crosses u v then s.setFlag .spoolLevel else s
  s'.evalAllPressure v

/-- Every source becomes CALM (R87, R92). -/
def State.calmAll (s : State) : State :=
  s.setSpm { s.spm with pressure := ⟨.calm, .calm, .calm, .calm⟩ }

end Sys2Proof.Machine
end

