-- ==== Sys2Proof/Machine/Table.lean ====
section
/-! DEFINITION. Machine/Table.lean: the span table: records, source queues, occupancy, opens, moves and releases (R1 to R25). -/

namespace Sys2Proof.Machine

/-! ### Records by slot -/

/-- The record listed for a slot; none for a FREE slot. -/
def findSlot : List (Nat × Span) → Nat → Option Span
  | [], _ => none
  | (n, sp) :: rest, k => if k = n then some sp else findSlot rest k

/-- A record is set for a slot, keeping slot order. -/
def putSlot : List (Nat × Span) → Nat → Span → List (Nat × Span)
  | [], k, v => [(k, v)]
  | (n, sp) :: rest, k, v =>
    if k < n then (k, v) :: (n, sp) :: rest
    else if k = n then (k, v) :: rest
    else (n, sp) :: putSlot rest k v

/-- A slot becomes FREE: its record is cleared (R20). -/
def dropSlot : List (Nat × Span) → Nat → List (Nat × Span)
  | [], _ => []
  | (n, sp) :: rest, k => if k = n then rest else (n, sp) :: dropSlot rest k

def State.span? (s : State) (slot : Nat) : Option Span := findSlot s.st.slots slot

/-- The lowest-numbered FREE slot (R12), looked for over `fuel` slots from `k` up. -/
def firstFree (slots : List (Nat × Span)) : Nat → Nat → Option Nat
  | 0, _ => none
  | fuel + 1, k => if (findSlot slots k).isNone then some k else firstFree slots fuel (k + 1)

def SpanTable.lowestFree (t : SpanTable) : Option Nat := firstFree t.slots Config.slotCount 0

/-- The number of a span's last sample (R18). -/
def Span.last (sp : Span) : Nat := sp.first + sp.count - 1

/-- Whether a span's range contains a sample number (R18). -/
def Span.holds (sp : Span) (m : Nat) : Bool := decide (sp.first ≤ m) && decide (m < sp.first + sp.count)

/-! ### Sequence order -/

/-- Insertion of a slot and its span into a list in increasing sequence order. -/
def insertBySeq (p : Nat × Span) : List (Nat × Span) → List (Nat × Span)
  | [] => [p]
  | q :: rest => if p.2.seq < q.2.seq then p :: q :: rest else q :: insertBySeq p rest

/-- A list of spans in increasing sequence order (R18). -/
def bySeq (l : List (Nat × Span)) : List (Nat × Span) := l.foldl (fun acc p => insertBySeq p acc) []

/-- A queued slot is inserted after every entry of lower sequence and before every one of higher (R16). -/
def queueInsert (slots : List (Nat × Span)) (slot : Nat) (seq : Word32) : List Nat → List Nat
  | [] => [slot]
  | x :: rest =>
    match findSlot slots x with
    | some sp => if seq < sp.seq then slot :: x :: rest else x :: queueInsert slots slot seq rest
    | none => x :: queueInsert slots slot seq rest

/-- A slot leaves its queue; the other entries keep their order (R17). -/
def queueRemove (slot : Nat) (q : List Nat) : List Nat := q.filter fun x => x != slot

/-! ### The questions of R18 -/

/-- The spans of a source in a state, in sequence order. -/
def SpanTable.inState (t : SpanTable) (src : Source) (st : SpanState) : List (Nat × Span) :=
  bySeq (t.slots.filter fun p => decide (p.2.source = src) && decide (p.2.state = st))

/-- The FILLING span of a source. -/
def SpanTable.filling (t : SpanTable) (src : Source) : Option (Nat × Span) :=
  t.slots.find? fun p => decide (p.2.source = src) && decide (p.2.state = .filling)

/-- The oldest HELD span of a source: the one of lowest sequence. -/
def SpanTable.oldestHeld (t : SpanTable) (src : Source) : Option (Nat × Span) :=
  (t.inState src .held).head?

/-- The oldest QUEUED PLAIN span of a source: the entry of its queue of lowest sequence whose retention
is PLAIN. -/
def SpanTable.oldestPlain (t : SpanTable) (src : Source) : Option (Nat × Span) :=
  (t.inState src .queued).find? fun p => decide (p.2.retention = .plain)

/-- The head of a source's queue, with its record (R17). -/
def SpanTable.head (t : SpanTable) (src : Source) : Option (Nat × Span) :=
  match t.queues.get src with
  | [] => none
  | slot :: _ => (findSlot t.slots slot).map fun sp => (slot, sp)

/-- The span of a source that holds a sample number, in any state other than FREE. -/
def SpanTable.holding (t : SpanTable) (src : Source) (m : Nat) : Option (Nat × Span) :=
  t.slots.find? fun p => decide (p.2.source = src) && p.2.holds m

/-! ### Changes to a record -/

/-- A record is replaced, its state unchanged. -/
def State.setSpan (s : State) (slot : Nat) (sp : Span) : State :=
  s.setSt { s.st with slots := putSlot s.st.slots slot sp }

/-- A record is changed, its state unchanged. -/
def State.onSpan (s : State) (slot : Nat) (f : Span → Span) : State :=
  match s.span? slot with
  | some sp => s.setSpan slot (f sp)
  | none => s

/-- A span enters the state of `new` in its slot: it joins its source's queue at the moment it enters
QUEUED and leaves it at the moment it leaves QUEUED (R16, R17). Between non-FREE states occupancy does
not change (R19). -/
def State.enter (s : State) (slot : Nat) (new : Span) : State :=
  let slots := putSlot s.st.slots slot new
  let q := queueRemove slot (s.st.queues.get new.source)
  let q' := if new.state = .queued then queueInsert slots slot new.seq q else q
  s.setSt { s.st with slots := slots, queues := s.st.queues.set new.source q' }

/-- A request to move a span out of a state names the slot, the run id, the sequence and that state
(R7): the span if the slot holds it in that state, so that the request is applied, and none otherwise. -/
def State.requested (s : State) (slot : Nat) (runId : Word16) (seq : Word32) (st : SpanState) :
    Option Span :=
  match s.span? slot with
  | some sp => if sp.runId = runId ∧ sp.seq = seq ∧ sp.state = st then some sp else none
  | none => none

/-! ### Trigger marks (R4) -/

/-- A mark is inserted after every mark whose offset is less than or equal to its own (R4). -/
def insertMark (m : TriggerMark) : List TriggerMark → List TriggerMark
  | [] => [m]
  | x :: rest => if m.offset < x.offset then m :: x :: rest else x :: insertMark m rest

/-- A mark is added to a span: with 8 marks held, the overflow counts up to 65535 instead (R4). -/
def Span.addMark (sp : Span) (m : TriggerMark) : Span :=
  if sp.marks.length < Config.maxMarks then { sp with marks := insertMark m sp.marks }
  else { sp with markOverflow := min 65535 (sp.markOverflow + 1) }

/-! ### Release (R19, R20) -/

/-- The causes of a release and the run counter each moves (R20). -/
inductive ReleaseCause where
  | indexed | shed | recycled | discarded
  deriving DecidableEq, Repr

def ReleaseCause.count (c : ReleaseCause) (r : RunCounters) : RunCounters :=
  match c with
  | .indexed => { r with indexed := r.indexed + 1 }
  | .shed => { r with shed := r.shed + 1 }
  | .recycled => { r with recycled := r.recycled + 1 }
  | .discarded => { r with discarded := r.discarded + 1 }

/-- A slot is released to FREE: every field of its record is cleared, occupancy falls by 1, the Run
Controller counts the release by its cause, and the change is reported to the monitor (R19, R20). -/
def State.release (s : State) (slot : Nat) (cause : ReleaseCause) : State :=
  match s.span? slot with
  | none => s
  | some sp =>
    let t : SpanTable :=
      { slots := dropSlot s.st.slots slot
        queues := s.st.queues.set sp.source (queueRemove slot (s.st.queues.get sp.source))
        occupancy := s.st.occupancy - 1 }
    ((s.setSt t).onCounters cause.count).occupancyChanged s.st.occupancy (s.st.occupancy - 1)

/-! ### Open (R11 to R14) -/

/-- The table's answer to an open (R11). -/
inductive OpenAnswer where
  | opened (slot : Nat)
  | overrun
  | refused (slot : Nat)
  deriving DecidableEq, Repr

/-- The record of a newly opened span (R14). -/
def openedSpan (runId : Word16) (seq : Word32) (src : Source) (n : Nat) (ret : Retention)
    (set : SourceSettings) : Span where
  state := .filling
  runId := runId
  seq := seq
  source := src
  first := n
  count := 1
  retention := ret
  marks := []
  markOverflow := 0
  laneRule := set.laneRule
  mirrorPolicy := if set.laneRule = .mirror then some set.mirrorPolicy else none
  copies := []
  repairLane := none
  degraded := false
  attempts := 0
  lastOutcome := .none
  shedCause := none
  summary := none

/-- The number after an issued one; after 2^32 - 1 the numbers are exhausted (R13, R37). -/
def nextAfter (n : Word32) : NextSeq := if n = BitVec.allOnes 32 then .exhausted else .number (n + 1)

/-- A sequence number is issued and the span counted as issued (R13). -/
def State.issue (s : State) (n : Word32) : State :=
  s.setRc { s.rc with
    nextSeq := nextAfter n
    counters := { s.rc.counters with issued := s.rc.counters.issued + 1 } }

/-- The span table opens a span of a source at a sample number, carrying its retention (R11, R12): a
source that holds a FILLING span is refused; exhausted numbers end OVERRUN; then the lowest FREE slot is
taken, occupancy rising by 1; failing that the source's oldest HELD span is recycled and its slot taken,
with no report (R97); failing that the open ends OVERRUN. -/
def State.openSpan (s : State) (src : Source) (n : Nat) (ret : Retention) : State × OpenAnswer :=
  match s.st.filling src with
  | some (slot, _) => (s, .refused slot)
  | none =>
    match s.rc.nextSeq with
    | .exhausted => (s, .overrun)
    | .number seq =>
      let new := openedSpan (s.rc.runId.getD 0) seq src n ret (s.settings src)
      match s.st.lowestFree with
      | some slot =>
        let t : SpanTable :=
          { s.st with slots := putSlot s.st.slots slot new, occupancy := s.st.occupancy + 1 }
        (((s.issue seq).setSt t).occupancyChanged s.st.occupancy (s.st.occupancy + 1), .opened slot)
      | none =>
        match s.st.oldestHeld src with
        | some (slot, _) =>
          ((((s.issue seq).onCounters ReleaseCause.recycled.count).setSpan slot new), .opened slot)
        | none => (s, .overrun)

end Sys2Proof.Machine
end

