-- ==== Sys2Proof/Machine/Index.lean ====
section
/-! DEFINITION. Machine/Index.lean: the Index Unit (R156 to R168) with the Run Controller's entry to ENDING and the end of a run (R33, R34), which index admissions bring about. -/

namespace Sys2Proof.Machine

/-! ### Entries (R158) -/

/-- The byte of a cause set that holds one shed cause (R178). -/
def ShedCause.bit : ShedCause → Byte
  | .pressure => 0x01
  | .archiveFailure => 0x02
  | .stopDeadline => 0x04

/-- The cause bit of a sample lost for overrun (R178). -/
def overrunBit : Byte := 0x08

/-- The cause bit of a sample refused (R178). -/
def refusedBit : Byte := 0x10

/-- The SPAN entry of a committed span, its fields copied at the moment of the offer (R158). -/
def Span.spanEntry (sp : Span) : SpanEntry where
  runId := sp.runId
  seq := sp.seq
  source := sp.source
  first := sp.first
  count := sp.count
  retention := sp.retention
  markCount := sp.marks.length
  firstMark := sp.marks.head?
  copies := sp.copies
  degraded := sp.degraded
  range := (sp.summary.map Summary.range).getD ⟨0, 0⟩
  rawSum := (sp.summary.map Summary.rawSum).getD 0
  scaledSum := (sp.summary.map Summary.scaledSum).getD 0
  energy := (sp.summary.map Summary.energy).getD 0
  saturated := (sp.summary.map Summary.saturated).getD false

/-- The GAP entry of a shed span; it names no copy (R158). -/
def Span.gapEntry (sp : Span) : GapEntry where
  runId := sp.runId
  source := sp.source
  seq := some sp.seq
  first := sp.first
  count := sp.count
  causes := (sp.shedCause.map ShedCause.bit).getD 0

/-- The entry a COMMITTED or SHED span offers (R21). -/
def Span.entry (sp : Span) : Entry :=
  match sp.state with
  | .shed => .gap sp.gapEntry
  | _ => .span sp.spanEntry

/-- The GAP entry of an intake gap: no sequence number (R55). -/
def Gap.entry (g : Gap) (src : Source) (runId : Word16) : Entry :=
  .gap { runId := runId, source := src, seq := none, first := g.first, count := g.count, causes := g.causes }

/-! ### Offers and the unit's tasks -/

/-- An offer to the Index Unit. A gap's entry is that of the source's offered gap. -/
inductive Offer where
  | span (slot : Nat) (e : Entry)
  | gap (src : Source)
  | runEnd (e : Entry)
  deriving DecidableEq, Repr

/-- The things the unit does in order within one event. -/
inductive IndexTask where
  /-- an offer is made (R159) -/
  | offer (o : Offer)
  /-- a closed buffer becomes WRITING if it can, and a block that no lane owes is done (R161, R162) -/
  | progress
  /-- the waiting offers are admitted (R163) -/
  | refill
  /-- at the admission of its offered gap a CLOSED source hands over its pending gap (R57) -/
  | handNext (src : Source)
  /-- the Run Controller tests the condition of R33 -/
  | testEnding
  deriving DecidableEq, Repr

/-- The entry of an offer. -/
def State.offerEntry (s : State) : Offer → Option Entry
  | .span _ e => some e
  | .gap src => (s.intake src).offeredGap.map fun g => g.entry src (s.rc.runId.getD 0)
  | .runEnd e => some e

def State.buffer (s : State) (buf : BufferName) : IndexBuffer := s.iu.buffers.get buf

def State.setBuffer (s : State) (buf : BufferName) (v : IndexBuffer) : State :=
  s.setIu { s.iu with buffers := s.iu.buffers.set buf v }

/-- The buffer that can take an entry: the FILLING one; failing that an EMPTY one, A first (R159). -/
def State.target (s : State) : Option BufferName :=
  if (s.buffer .a).state = .filling then some .a
  else if (s.buffer .b).state = .filling then some .b
  else if (s.buffer .a).state = .empty then some .a
  else if (s.buffer .b).state = .empty then some .b
  else none

/-- The buffer after an entry is appended: it closes at its 63rd entry, and at RUN_END with its final
mark set (R157, R159, R168). -/
def IndexBuffer.append (v : IndexBuffer) (e : Entry) (isEnd : Bool) : IndexBuffer :=
  let entries := v.entries ++ [e]
  { state := if isEnd || decide (Config.entriesPerBlock ≤ entries.length) then .closed else .filling
    entries := entries
    final := v.final || isEnd }

def Offer.isRunEnd : Offer → Bool
  | .runEnd _ => true
  | .span _ _ => false
  | .gap _ => false

/-- A waiting span offer takes its place in slot order (R163). -/
def insertWaiting (slot : Nat) (e : Entry) : List (Nat × Entry) → List (Nat × Entry)
  | [] => [(slot, e)]
  | (n, x) :: rest => if slot < n then (slot, e) :: (n, x) :: rest else (n, x) :: insertWaiting slot e rest

/-- An offer that finds no buffer able to take it joins the waiting offers (R159). A source's offered
gap already waits as such. -/
def State.wait (s : State) : Offer → State
  | .span slot e => s.setIu { s.iu with waitSpans := insertWaiting slot e s.iu.waitSpans }
  | .gap _ => s
  | .runEnd e => s.setIu { s.iu with waitRunEnd := some e }

/-- The admission is handed back to the offerer: a span's slot is released and counted by its kind, a
gap becomes absent (R159). -/
def State.handBack (s : State) : Offer → State
  | .span slot e =>
    match e with
    | .gap _ => s.release slot .shed
    | .span _ => s.release slot .indexed
    | .runEnd _ => s.release slot .indexed
  | .gap src => s.onIntake src fun i => { i with offeredGap := none }
  | .runEnd _ => s

/-- What follows an admission: the buffer's closing takes effect, a CLOSED source hands its next gap
over, and the Run Controller tests R33 (R57, R159; order: log 19). -/
def Offer.after : Offer → List IndexTask
  | .span _ _ => [.progress, .testEnding]
  | .gap src => [.progress, .handNext src, .testEnding]
  | .runEnd _ => [.progress]

/-- An offer is admitted if a buffer can take it, and waits otherwise (R159). -/
def State.takeOffer (s : State) (o : Offer) : State × List IndexTask :=
  match s.target with
  | none => (s.wait o, [])
  | some buf =>
    match s.offerEntry o with
    | none => (s, [])
    | some e => ((s.setBuffer buf ((s.buffer buf).append e o.isRunEnd)).handBack o, o.after)

/-! ### Writing and completing a block -/

/-- The duty status a lane's state gives at the moment a buffer becomes WRITING (R161). -/
def LaneState.duty : LaneState → Duty
  | .ready => .owed
  | .busy => .owed
  | .parking => .owed
  | .parked => .owed
  | .waking => .owed
  | .down => .off
  | .bringup => .off
  | .paused => .off
  | .faulted => .off

/-- A buffer becomes WRITING: the writing record takes the current block sequence and each lane's duty
status, and a lane marked OFF misses the block (R161). -/
def State.becomeWriting (s : State) (buf : BufferName) : State :=
  let duty : PerLane Duty := ⟨s.al.l0.state.duty, s.al.l1.state.duty⟩
  let s' := s.setIu { s.iu with
    buffers := s.iu.buffers.set buf { s.buffer buf with state := .writing }
    writing := some { buffer := buf, seq := s.iu.blockSeq, duty := duty } }
  if duty.l0 = .off ∨ duty.l1 = .off then s'.setFlag .indexMissed else s'

/-- The provisional end cause (R34, R37). -/
def RunController.provisional (r : RunController) : EndCause :=
  if r.nextSeq = .exhausted then .sequenceExhausted else .complete

/-- The run returns to IDLE from ENDING: with the provisional end cause if any lane wrote the final
block and INDEX_UNWRITTEN otherwise, the run sources' intakes pass from CLOSED to IDLE, and RUN_ENDED is
set (R34, R46, R87, R168). -/
def State.endRun (s : State) (written : Bool) : State :=
  let s1 := s.setRc { s.rc with
    runState := .idle
    lastEnd := if written then s.rc.provisional else .indexUnwritten }
  let s2 := forSources (fun src s =>
    if (s.intake src).intake = .closed then s.onIntake src fun i => { i with intake := .idle } else s) s1
  s2.calmAll.setFlag .runEnded

/-- Steps 1 to 3 of a block done (R162): the buffer becomes EMPTY and the writing record is removed; the
block sequence increases by 1; CHECKPOINT_DONE is set, a block some lane wrote is counted, and a final
block ends the run. -/
def State.blockDone (s : State) (w : Writing) : State :=
  let written := w.duty.l0 == .written || w.duty.l1 == .written
  let final := (s.buffer w.buffer).final
  let s1 := s.setIu { s.iu with
    buffers := s.iu.buffers.set w.buffer .empty
    writing := none
    blockSeq := s.iu.blockSeq + 1 }
  let s2 := s1.setFlag .checkpointDone
  let s3 := if written then
      s2.onCounters fun c => { c with checkpointsWritten := c.checkpointsWritten + 1 }
    else s2
  if final then s3.endRun written else s3

/-- The buffer that waits in CLOSED; with two, the one without RUN_END was closed first (R168). -/
def State.closedBuffer (s : State) : Option BufferName :=
  if (s.buffer .a).state = .closed ∧ ¬ ((s.buffer .a).final ∧ (s.buffer .b).state = .closed) then some .a
  else if (s.buffer .b).state = .closed then some .b
  else none

/-- A block that no lane owes is done, and then the other buffer and the waiting offers proceed; with
no block being written, a CLOSED buffer becomes WRITING (R161, R162). -/
def State.progressOnce (s : State) : State × List IndexTask :=
  match s.iu.writing with
  | some w =>
    if w.duty.l0 = .owed ∨ w.duty.l1 = .owed then (s, [])
    else (s.blockDone w, [.progress, .refill])
  | none =>
    match s.closedBuffer with
    | some buf => (s.becomeWriting buf, [.progress])
    | none => (s, [])

/-- The next waiting offer: span entries in slot order, then offered gaps S0 to S3, then RUN_END
(R163). -/
def State.nextWaiting (s : State) : Option Offer :=
  match s.iu.waitSpans with
  | (slot, e) :: _ => some (.span slot e)
  | [] =>
    match Source.all.find? fun src => (s.intake src).offeredGap.isSome with
    | some src => some (.gap src)
    | none => s.iu.waitRunEnd.map Offer.runEnd

/-- The first waiting offer is taken out of the waiting offers. -/
def State.unwait (s : State) : Offer → State
  | .span _ _ => s.setIu { s.iu with waitSpans := s.iu.waitSpans.tail }
  | .gap _ => s
  | .runEnd _ => s.setIu { s.iu with waitRunEnd := none }

/-- One waiting offer is admitted if a buffer can take it (R163). -/
def State.refillOnce (s : State) : State × List IndexTask :=
  match s.target, s.nextWaiting with
  | some _, some o => (s.unwait o, [.offer o, .refill])
  | _, _ => (s, [])

/-! ### Gaps -/

/-- The pending gap of a source becomes its offered gap and is offered as a GAP entry (R55, R57). -/
def State.handOver (s : State) (src : Source) : State × List IndexTask :=
  match (s.intake src).pendingGap, (s.intake src).offeredGap with
  | some g, none =>
    (s.onIntake src fun i => { i with pendingGap := none, offeredGap := some g }, [.offer (.gap src)])
  | _, _ => (s, [])

/-! ### ENDING -/

/-- Whether no source holds a pending or an offered gap (R33, R45). -/
def IntakeSource.noGap (i : IntakeSource) : Bool := i.pendingGap.isNone && i.offeredGap.isNone

def State.noGaps (s : State) : Bool :=
  s.ci.s0.noGap && s.ci.s1.noGap && s.ci.s2.noGap && s.ci.s3.noGap

/-- The RUN_END entry: the run id, the provisional cause and the counters as they stand (R34). -/
def RunController.endEntry (r : RunController) : Entry :=
  .runEnd { runId := r.runId.getD 0, cause := r.provisional, counters := r.counters }

/-- Entry to ENDING: the stop deadline timer and the checkpoint timer stop and the lock clears, and the
RUN_END entry is offered (R34). -/
def State.enterEnding (s : State) : State × List IndexTask :=
  ((s.setRc { s.rc with runState := .ending, deadlineTimer := none }).setIu
      { s.iu with timer := none, lock := false },
    [.offer (.runEnd s.rc.endEntry)])

/-- A run in STOPPING enters ENDING when every slot is FREE and no source holds a gap (R33). -/
def State.testEnding (s : State) : State × List IndexTask :=
  if s.rc.runState = .stopping ∧ s.st.slots = [] ∧ s.noGaps then s.enterEnding else (s, [])

/-! ### Running the tasks -/

/-- One task, and the tasks it brings about, which come before the ones behind it. -/
def State.indexTask (s : State) : IndexTask → State × List IndexTask
  | .offer o => s.takeOffer o
  | .progress => s.progressOnce
  | .refill => s.refillOnce
  | .handNext src => if (s.intake src).intake = .closed then s.handOver src else (s, [])
  | .testEnding => s.testEnding

/-- The tasks in order, at most `fuel` of them. -/
def State.runTasks : Nat → List IndexTask → State → State
  | 0, _, s => s
  | _ + 1, [], s => s
  | fuel + 1, t :: ts, s =>
    State.runTasks fuel ((s.indexTask t).2 ++ ts) (s.indexTask t).1

/-- More tasks than an event can bring about: each waiting offer takes at most 8, and the two buffers,
the gaps of four sources and the end of the run a bounded number more. -/
def State.taskFuel (s : State) : Nat := 256 + 8 * s.iu.waitSpans.length

/-- The Index Unit carries out the tasks of one event to their end. -/
def State.index (s : State) (ts : List IndexTask) : State := State.runTasks s.taskFuel ts s

/-- A span that entered COMMITTED or SHED offers its entry (R21). -/
def State.offerSpan (s : State) (slot : Nat) : State :=
  match s.span? slot with
  | some sp => s.index [.offer (.span slot sp.entry)]
  | none => s

/-- A source's pending gap is handed to the Index Unit (R55, R57). -/
def State.handGap (s : State) (src : Source) : State :=
  (s.handOver src).1.index (s.handOver src).2

/-- HELD history is recycled: released with no entry, and the Run Controller tests R33 (R20, R33). -/
def State.recycle (s : State) (slot : Nat) : State :=
  (s.release slot .recycled).index [.testEnding]

/-! ### What a lane reports of its block (R162) -/

def State.setDuty (s : State) (w : Writing) (lane : Lane) (d : Duty) : State :=
  s.setIu { s.iu with writing := some { w with duty := w.duty.set lane d } }

/-- A lane reports the block written at an address; a lane no longer OWED is not listened to (R162). -/
def State.blockWritten (s : State) (lane : Lane) (address : Nat) : State :=
  match s.iu.writing with
  | some w =>
    if w.duty.get lane = .owed then
      let s' := s.setDuty w lane .written
      (s'.setIu { s'.iu with prev := s'.iu.prev.set lane (some address) }).index [.progress]
    else s
  | none => s

/-- A lane misses the block: reported missed, or out of the duty states while OWED; INDEX_MISSED is set
(R145, R162). -/
def State.blockMissed (s : State) (lane : Lane) : State :=
  match s.iu.writing with
  | some w =>
    if w.duty.get lane = .owed then
      ((s.setDuty w lane .missed).setFlag .indexMissed).index [.progress]
    else s
  | none => s

/-- Whether a lane owes the block being written (R103). -/
def State.owes (s : State) (lane : Lane) : Bool :=
  match s.iu.writing with
  | some w => w.duty.get lane == .owed
  | none => false

/-- The FILLING buffer, if there is one, closes (R160, R167). -/
def State.closeFilling (s : State) : State :=
  if (s.buffer .a).state = .filling then
    (s.setBuffer .a { s.buffer .a with state := .closed }).index [.progress]
  else if (s.buffer .b).state = .filling then
    (s.setBuffer .b { s.buffer .b with state := .closed }).index [.progress]
  else s

end Sys2Proof.Machine
end

