-- ==== Sys2Proof/Machine/Summary.lean ====
section
/-! DEFINITION. Machine/Summary.lean: the Summary Engine: running summaries and finished ones (R76 to R86). -/

namespace Sys2Proof.Machine

/-- Greatest energy: 2^64 - 1 (R80). -/
def maxEnergy : Nat := 2 ^ 64 - 1

/-- The scaled term of a sample under a gain: the exact product divided by 65536, rounded toward minus
infinity (R79). -/
def scaledTerm (x : Sample) (gain : BitVec 32) : Int := (x.toInt * gain.toInt) / 65536

/-- Extremes widened to hold a sample value (R78, R82). -/
def Extremes.take (e : Extremes) (x : Int) : Extremes := ⟨min e.low x, max e.high x⟩

/-- A bucket that reaches the bucket size is closed and its pair appended; otherwise it stays open (R82). -/
def Running.placeBucket (r : Running) (bkt : OpenBucket) : Running :=
  if bkt.count = 2 ^ r.bucketExp then
    { r with envelope := r.envelope ++ [bkt.range], openBucket := none }
  else { r with openBucket := some bkt }

/-- The envelope takes a sample into the open bucket, or starts a new one with it (R82). -/
def Running.takeBucket (r : Running) (x : Int) : Running :=
  match r.openBucket with
  | some bkt => r.placeBucket { range := bkt.range.take x, count := bkt.count + 1 }
  | none => r.placeBucket { range := ⟨x, x⟩, count := 1 }

/-- The energy takes a squared term: exact up to 2^64 - 1, and from the first sum beyond it saturated
for the rest of the span (R80). -/
def Running.takeEnergy (r : Running) (t : Int) : Running :=
  if r.saturated then r
  else
    let sum := r.energy + (t * t).toNat
    if sum ≤ maxEnergy then { r with energy := sum }
    else { r with energy := maxEnergy, saturated := true }

/-- A running summary starts from the opening sample, with the source's gain and bucket as they stand
(R77). -/
def startRunning (slot : Nat) (set : SourceSettings) (x : Sample) : Running :=
  let t := scaledTerm x set.gain
  { slot := slot
    gain := set.gain
    bucketExp := set.bucketExp
    count := 1
    range := ⟨x.toInt, x.toInt⟩
    rawSum := x.toInt
    scaledSum := t
    energy := (t * t).toNat
    saturated := false
    envelope := []
    openBucket := some { range := ⟨x.toInt, x.toInt⟩, count := 1 } }

/-- Each appended sample enters the count, the extremes, the sums, the energy and the envelope (R78). -/
def Running.take (r : Running) (x : Sample) : Running :=
  let t := scaledTerm x r.gain
  (({ r with
      count := r.count + 1
      range := r.range.take x.toInt
      rawSum := r.rawSum + x.toInt
      scaledSum := r.scaledSum + t }).takeEnergy t).takeBucket x.toInt

/-- The finished summary: a partly filled open bucket is closed as the last pair (R83). -/
def Running.finish (r : Running) : Summary where
  count := r.count
  range := r.range
  rawSum := r.rawSum
  scaledSum := r.scaledSum
  energy := r.energy
  saturated := r.saturated
  bucketExp := r.bucketExp
  envelope :=
    match r.openBucket with
    | some bkt => r.envelope ++ [bkt.range]
    | none => r.envelope

/-- The Summary Engine starts a source's running summary at an open (R77). -/
def State.summaryStart (s : State) (src : Source) (slot : Nat) (x : Sample) : State :=
  s.setSummary src (some (startRunning slot (s.settings src) x))

/-- The Summary Engine takes an appended sample; at the change of saturated from no to yes it has
SUMMARY_SATURATED set (R78, R81). -/
def State.summaryTake (s : State) (src : Source) (x : Sample) : State :=
  match s.se.get src with
  | none => s
  | some r =>
    let r' := r.take x
    let s' := s.setSummary src (some r')
    if r'.saturated && !r.saturated then s'.setFlag .summarySaturated else s'

end Sys2Proof.Machine
end

