-- ==== Sys2Proof/Machine/Spans.lean ====
section
/-! DEFINITION. Machine/Spans.lean: what becomes of a span: commit, shed, requeue, seal, recycle, and the run's stop (R8, R9, R10, R32, R36, R52, R94). -/

namespace Sys2Proof.Machine

/-! ### Commit, shed and requeue -/

/-- Whether R9 applies a commit: one copy for a lane rule other than MIRROR; for MIRROR two copies, or
one under DEGRADE, or one under STRICT after the stop deadline of the run. -/
def Span.mayCommit (sp : Span) (expired : Bool) : Bool :=
  match sp.laneRule with
  | .mirror =>
    decide (2 ≤ sp.copies.length) ||
    (decide (sp.copies.length = 1) && (decide (sp.mirrorPolicy = some .degrade) || expired))
  | .l0 => decide (1 ≤ sp.copies.length)
  | .l1 => decide (1 ≤ sp.copies.length)
  | .either => decide (1 ≤ sp.copies.length)

/-- The record on entry to COMMITTED: the repair lane is cleared, and a MIRROR span with one copy is
degraded (R5, R9). -/
def Span.committed (sp : Span) : Span :=
  { sp with
    state := .committed
    repairLane := none
    degraded := decide (sp.laneRule = .mirror) && decide (sp.copies.length = 1) }

/-- A commit request (R9): where it applies, the span enters COMMITTED and offers its SPAN entry. -/
def State.commit (s : State) (slot : Nat) : State :=
  match s.span? slot with
  | some sp =>
    if sp.mayCommit s.rc.expired then (s.enter slot sp.committed).offerSpan slot else s
  | none => s

/-- A span enters SHED with its cause: it leaves its queue, keeps its copies, and offers its GAP entry.
A span with retention KEEP is never shed with cause PRESSURE (R8). -/
def State.shedSpan (s : State) (slot : Nat) (cause : ShedCause) : State :=
  match s.span? slot with
  | some sp =>
    if sp.retention = .keep ∧ cause = .pressure then s
    else (s.enter slot { sp with state := .shed, shedCause := some cause }).offerSpan slot
  | none => s

/-- A span returns to QUEUED at its place by sequence (R16); after the stop deadline it is disposed of
instead: a MIRROR span with one copy is committed degraded, a span with none is shed with cause
STOP_DEADLINE (R36). -/
def State.requeue (s : State) (slot : Nat) : State :=
  match s.span? slot with
  | some sp =>
    if s.rc.expired then
      if sp.laneRule = .mirror ∧ sp.copies.length = 1 then s.commit slot
      else s.shedSpan slot .stopDeadline
    else s.enter slot { sp with state := .queued }
  | none => s

/-- A QUEUED span is given up at the stop deadline: a MIRROR span that holds one copy is committed
degraded, every other one is shed with cause STOP_DEADLINE (R35). -/
def State.disposeQueued (s : State) (slot : Nat) : State :=
  match s.span? slot with
  | some sp =>
    if sp.state = .queued then
      if sp.laneRule = .mirror ∧ sp.copies.length = 1 then s.commit slot
      else s.shedSpan slot .stopDeadline
    else s
  | none => s

/-- Changes made slot by slot. -/
def State.eachSlot (f : State → Nat → State) (s : State) (slots : List Nat) : State :=
  slots.foldl f s

/-- The HELD spans of a source are recycled, in sequence order (R69, R71). -/
def State.recycleAll (s : State) (spans : List (Nat × Span)) : State :=
  State.eachSlot State.recycle s (spans.map Prod.fst)

/-! ### Shed rule OLDEST (R94) -/

/-- At a seal of a SHEDDING source with rule OLDEST, taken in RUNNING, one span is given up: its oldest
HELD span is recycled, failing that its oldest QUEUED PLAIN span is shed with cause PRESSURE and SHED is
set (R94, R95). -/
def State.sealPressure (s : State) (src : Source) : State :=
  if s.rc.runState = .running ∧ s.spm.pressure.get src = .shedding ∧
      (s.settings src).shedRule = .oldest then
    match s.st.oldestHeld src with
    | some (slot, _) => s.recycle slot
    | none =>
      match s.st.oldestPlain src with
      | some (slot, _) => (s.shedSpan slot .pressure).setFlag .shed
      | none => s
  else s

/-! ### Seal (R10, R52) -/

/-- The summary is finished and attached and the span moves by its retention: HISTORY to HELD, where a
span of a STOPPING run is recycled at once, PLAIN and KEEP to QUEUED (R10, R71, R83). -/
def State.sealSpan (s : State) (src : Source) (slot : Nat) (sp : Span) : State :=
  let sealed := { sp with summary := (s.se.get src).map Running.finish }
  let s1 := s.setSummary src none
  match sp.retention with
  | .history =>
    let s2 := s1.enter slot { sealed with state := .held }
    if s2.rc.runState = .stopping then s2.recycle slot else s2
  | .plain => s1.enter slot { sealed with state := .queued }
  | .keep => s1.enter slot { sealed with state := .queued }

/-- The first three steps of a seal (R52): summary and state, then the monitor's shed rule. -/
def State.sealFilling (s : State) (src : Source) : State :=
  match s.st.filling src with
  | some (slot, sp) => (s.sealSpan src slot sp).sealPressure src
  | none => s

/-! ### The stop (R32) -/

/-- A source becomes CLOSED, and a tag or MARK pending is dropped (R46, R51, R71, R72). -/
def State.closeIntake (s : State) (src : Source) : State :=
  (s.onIntake src fun i => { i with intake := .closed, tagPending := false }).onWindow src
    fun w => { w with markPending := false }

/-- A source of the run closes at the run's stop (R32). -/
def State.closeSource (src : Source) (s : State) : State :=
  if s.rc.sourceSet.get src then s.closeIntake src else s

/-- For a source of the run. -/
def State.ifRun (f : State → Source → State) (src : Source) (s : State) : State :=
  if s.rc.sourceSet.get src then f s src else s

/-- The run enters STOPPING (R32): the stop deadline timer starts; every run source is CLOSED, its
FILLING span sealed and its pending gap handed over; its HELD spans are recycled; and the condition of
R33 is tested. Sources are taken S0 to S3 (log 8). -/
def State.enterStopping (s : State) : State :=
  let s1 := s.setRc { s.rc with runState := .stopping, deadlineTimer := some (1000 * s.rc.deadline) }
  let s2 := forSources State.closeSource s1
  let s3 := forSources (State.ifRun State.sealFilling) s2
  let s4 := forSources (State.ifRun State.handGap) s3
  let s5 := forSources (State.ifRun fun s src => s.recycleAll (s.st.inState src .held)) s4
  s5.index [.testEnding]

/-- A whole seal (R52): at step 4 the Run Controller stops a RUNNING run whose span of sequence 2^32 - 1
has sealed (R37). -/
def State.seal (s : State) (src : Source) : State :=
  match s.st.filling src with
  | some (_, sp) =>
    let s' := s.sealFilling src
    if sp.seq = BitVec.allOnes 32 ∧ s'.rc.runState = .running then s'.enterStopping else s'
  | none => s

end Sys2Proof.Machine
end

