-- ==== Sys2Proof/Machine/Intake.lean ====
section
/-! DEFINITION. Machine/Intake.lean: the start of a run (R30), the placing of samples (R47 to R57), triggers and windows (R61 to R73), and the ageing of history (R69). -/

namespace Sys2Proof.Machine

/-! ### The start of a run (R30) -/

/-- A run source begins taking samples, with no newest sample number and no gap (R30, R45). -/
def State.startIntake (src : Source) (s : State) : State :=
  if s.rc.sourceSet.get src then
    s.onIntake src fun i =>
      { i with
        intake := .taking
        newest := none
        tagPending := false
        pendingGap := none
        offeredGap := none }
  else s

/-- The Index Unit at the start of a run: the timer runs with the period then in force, the lock is off,
the block sequence is 0 and there is no back-link (R30, R156, R165). -/
def IndexUnit.startRun (u : IndexUnit) : IndexUnit :=
  { u with
    period := u.periodSetting
    lockTime := u.lockSetting
    timer := some u.periodSetting
    lock := false
    blockSeq := 0
    prev := ⟨none, none⟩ }

/-- The run enters RUNNING with a start epoch (R30): the intake of each run source opens, every window
is NONE, every source CALM, the checkpoint timer starts, and RUN_STARTED is set. -/
def State.enterRunning (s : State) (epoch : Option Word16) : State :=
  let s1 := s.setRc { s.rc with runState := .running, startEpoch := epoch }
  let s2 := forSources State.startIntake s1
  let s3 := (s2.setTwu ⟨.reset, .reset, .reset, .reset⟩).calmAll
  (s3.setIu s3.iu.startRun).setFlag .runStarted

/-! ### Triggers (R61 to R66, R73) -/

/-- A HELD span reaching into the pre-window is kept: KEEP, and QUEUED at its place (R62). -/
def State.keepSpan (s : State) (slot : Nat) : State :=
  match s.span? slot with
  | some sp =>
    if sp.state = .held then s.enter slot { sp with state := .queued, retention := .keep } else s
  | none => s

/-- The HELD spans of a source whose last sample number is at least x, in sequence order (R18). -/
def SpanTable.heldFrom (t : SpanTable) (src : Source) (x : Nat) : List (Nat × Span) :=
  (t.inState src .held).filter fun p => decide (x ≤ p.2.last)

/-- The HELD spans of a source whose last sample number is less than x, in sequence order (R18). -/
def SpanTable.heldBefore (t : SpanTable) (src : Source) (x : Nat) : List (Nat × Span) :=
  (t.inState src .held).filter fun p => decide (p.2.last < x)

/-- The sample numbers of a span that lie in the range from lo to hi - 1. -/
def Span.overlap (sp : Span) (lo hi : Nat) : Nat := min (sp.first + sp.count) hi - max sp.first lo

/-- The sample numbers of the range from lo to hi - 1 that spans of a source hold in a state other than
SHED (R64). The spans of a source hold disjoint ranges (R18), so the overlaps add (log 22). -/
def SpanTable.heldIn (t : SpanTable) (src : Source) (lo hi : Nat) : Nat :=
  (t.slots.filter fun p => decide (p.2.source = src) && decide (p.2.state ≠ .shed)).foldl
    (fun acc p => acc + p.2.overlap lo hi) 0

/-- The pre-shortfall of a trigger on sample n (R64). -/
def State.shortfall (s : State) (src : Source) (n : Nat) : Nat :=
  let lo := n - (s.settings src).preDepth
  (n - lo) - s.st.heldIn src lo n

/-- A trigger mark is added to the span that holds sample n (R65). -/
def State.markSpan (s : State) (slot n shortfall : Nat) : State :=
  s.onSpan slot fun sp => sp.addMark { offset := n - sp.first, shortfall := shortfall }

/-- The window opens, or a retrigger moves its end to the later of the two (R66). -/
def WindowSource.extend (w : WindowSource) (windowEnd : Nat) : WindowSource :=
  { w with window := some (max windowEnd (w.window.getD 0)) }

/-- A trigger on sample n of a TRIGGERED source, in the order of R61: keep the history that reaches into
the pre-window, keep the span that took the sample, compute the pre-shortfall, add the mark, and open or
extend the window. -/
def State.triggerWindowed (s : State) (src : Source) (n : Nat) (taken : Option Nat) : State :=
  let kept := s.st.heldFrom src (n - (s.settings src).preDepth)
  let s1 := State.eachSlot State.keepSpan s (kept.map Prod.fst)
  let s2 := match taken with
    | some slot => s1.onSpan slot fun sp => { sp with retention := .keep }
    | none => s1
  let short := s2.shortfall src n
  let s3 := match taken with
    | some slot => s2.markSpan slot n short
    | none => s2
  s3.onWindow src fun w => w.extend (n + (s3.settings src).postDepth)

/-- A trigger on a CONTINUOUS source records a mark with pre-shortfall 0 and does nothing else (R73). -/
def State.triggerPlain (s : State) (n : Nat) (taken : Option Nat) : State :=
  match taken with
  | some slot => s.markSpan slot n 0
  | none => s

/-- Step 2 of R50: a tag pending at the intake or a MARK pending at the unit is applied at sample n,
together as one trigger, and both become no (R61, R75). -/
def State.applyTrigger (s : State) (src : Source) (n : Nat) (taken : Option Nat) : State :=
  if (s.intake src).tagPending || (s.twu.get src).markPending then
    let s1 := (s.onIntake src fun i => { i with tagPending := false }).onWindow src
      fun w => { w with markPending := false }
    match (s.settings src).mode with
    | .triggered => s1.triggerWindowed src n taken
    | .continuous => s1.triggerPlain n taken
  else s

/-! ### The window end (R67) -/

/-- Step 3 of R50: at a sample at or above the window end the window closes, and a span that took the
sample is sealed at it. -/
def State.testWindow (s : State) (src : Source) (n : Nat) (taken : Option Nat) : State :=
  match (s.settings src).mode, (s.twu.get src).window with
  | .triggered, some windowEnd =>
    if windowEnd ≤ n then
      let s1 := s.onWindow src fun w => { w with window := none }
      if taken.isSome then s1.seal src else s1
    else s
  | _, _ => s

/-! ### Placing a sample (R47 to R49, R54) -/

/-- A sample is appended to the FILLING span of its source: written to its place in the page, counted,
and handed to the Summary Engine (R15, R48). -/
def State.append (s : State) (src : Source) (slot : Nat) (sp : Span) (x : Sample) : State :=
  ((s.setMem (s.mem.writeSample slot sp.count x)).setSpan slot { sp with count := sp.count + 1 }).summaryTake
    src x

/-- The pending gap after one more lost sample (R54). -/
def joinGap (g : Option Gap) (n : Nat) (cause : Byte) : Gap :=
  match g with
  | none => { first := n, count := 1, causes := cause }
  | some g => { g with count := g.count + 1, causes := g.causes ||| cause }

/-- A sample is dropped into its source's pending gap: counted lost, and INTAKE_LOSS set when the gap is
created (R54). -/
def State.drop (s : State) (src : Source) (n : Nat) (cause : Byte) : State :=
  let s1 := s.onIntake src fun i => { i with pendingGap := some (joinGap i.pendingGap n cause) }
  let s2 := s1.onCounters fun c => { c with lost := c.lost.set src (c.lost.get src + 1) }
  if (s.intake src).pendingGap.isNone then s2.setFlag .intakeLoss else s2

/-- The retention a new span carries (R48, R60). -/
def State.openRetention (s : State) (src : Source) : Retention :=
  match (s.settings src).mode with
  | .continuous => .plain
  | .triggered => if (s.twu.get src).window.isSome then .keep else .history

/-- A sample that needs an open (R48 step 3): on OPENED it is the span's first sample, stored at offset
0, and the pending gap is handed over; on OVERRUN it is dropped. The answer carries the slot that took
the sample. -/
def State.openFor (s : State) (src : Source) (n : Nat) (x : Sample) : State × Option Nat :=
  match s.openSpan src n (s.openRetention src) with
  | (s1, .opened slot) =>
    (((s1.setMem (s1.mem.writeSample slot 0 x)).summaryStart src slot x).handGap src, some slot)
  | (s1, .overrun) => (s1.drop src n overrunBit, none)
  | (s1, .refused _) => (s1, none)

/-- A sample numbered n is placed: appended to the FILLING span; or, in TAKING, opening a span unless the
source holds both gaps; or dropped (R48, R49, R56). A REFUSING source that holds both gaps drops it with
cause REFUSED (DESIGN CHOICE, log 30). -/
def State.place (s : State) (src : Source) (n : Nat) (x : Sample) : State × Option Nat :=
  match s.st.filling src with
  | some (slot, sp) => (s.append src slot sp x, some slot)
  | none =>
    if (s.intake src).intake = .refusing then (s.drop src n refusedBit, none)
    else if (s.intake src).pendingGap.isSome && (s.intake src).offeredGap.isSome then
      (s.drop src n overrunBit, none)
    else s.openFor src n x

/-- Step 4 of R50: the span that took the sample is sealed when its count equals the span length. -/
def State.testLength (s : State) (src : Source) (taken : Option Nat) : State :=
  match taken, s.st.filling src with
  | some slot, some (slot', sp) =>
    if slot = slot' ∧ sp.count = 2 ^ (s.settings src).spanExp then s.seal src else s
  | _, _ => s

/-- Sample number 2^48 - 1 exhausts the source: its FILLING span is sealed, it becomes CLOSED, a tag or
MARK pending is dropped, and its pending gap is handed over (R53, R57, R72). Where that seal has stopped the
run, or stopped and ended it, the source is CLOSED or IDLE by then, and stays so (R46). -/
def State.testNumbers (s : State) (src : Source) (n : Nat) : State :=
  if n = Config.lastSample then
    let s1 := s.seal src
    if (s1.intake src).intake.takes then (s1.closeIntake src).handGap src else s1
  else s

/-- The number of a source's next sample (R47). -/
def IntakeSource.nextNumber (i : IntakeSource) : Nat :=
  match i.newest with
  | none => 0
  | some n => n + 1

/-- One sample of a packet, through the steps of R50; a source that is not taking ignores it (R46). -/
def State.takeSample (src : Source) (s : State) (x : Sample) : State :=
  if (s.intake src).intake.takes then
    let n := (s.intake src).nextNumber
    let s1 := s.onIntake src fun i => { i with newest := some n }
    let p := s1.place src n x
    (((p.1.applyTrigger src n p.2).testWindow src n p.2).testLength src p.2).testNumbers src n
  else s

/-- At the end of a packet a TRIGGERED source that is still taking ages its history: every HELD span
whose last sample lies more than the pre depth behind the newest is recycled (R69). -/
def State.age (s : State) (src : Source) : State :=
  match (s.settings src).mode, (s.intake src).newest with
  | .triggered, some newest =>
    if (s.intake src).intake.takes && decide ((s.settings src).preDepth ≤ newest) then
      s.recycleAll (s.st.heldBefore src (newest - (s.settings src).preDepth))
    else s
  | _, _ => s

/-- A packet is taken whole: each sample in turn, then the ageing at its end (R50). -/
def State.takePacket (s : State) (src : Source) (xs : List Sample) : State :=
  (xs.foldl (State.takeSample src) s).age src

end Sys2Proof.Machine
end

