-- ==== Sys2Proof/Machine/Blocks.lean ====
section
/-! DEFINITION. Machine/Blocks.lean: the bytes of archive blocks (R181) and of the frames a lane sends (R180). -/

namespace Sys2Proof.Machine

/-! ### Codes (R178) -/

def Retention.code : Retention → Nat
  | .plain => 0
  | .keep => 1
  | .history => 2

def LaneRule.code : LaneRule → Nat
  | .l0 => 0
  | .l1 => 1
  | .either => 2
  | .mirror => 3

def MirrorPolicy.code : MirrorPolicy → Nat
  | .strict => 0
  | .degrade => 1

def EndCause.code : EndCause → Nat
  | .none => 0
  | .complete => 1
  | .sequenceExhausted => 2
  | .indexUnwritten => 3
  | .stoppedBeforeStart => 4
  | .aborted => 5

/-! ### Data blocks (R141) -/

/-- Data block j of a span of a slot and sample count, from its page; where the count ends inside the
block the rest is zero samples, and the page bytes beyond the span are not read (R1, R141). -/
def dataBlock (m : Memory) (slot count j : Nat) : List Byte :=
  (List.range Config.blockBytes).map fun i =>
    let off := Config.blockBytes * j + i
    if off < 2 * count then m.read (spoolAddr slot off) else 0

/-- The data blocks of a span: one for each 2048 samples, rounded up (R140). -/
def dataBlocks (count : Nat) : Nat := (count + Config.samplesPerBlock - 1) / Config.samplesPerBlock

/-! ### The span header block (R181) -/

def markBytes (m : TriggerMark) : List Byte := leBytes 4 m.offset ++ leBytes 4 m.shortfall

def extremesBytes (e : Extremes) : List Byte := leSigned 2 e.low ++ leSigned 2 e.high

/-- A block is padded to 4094 bytes and closed with its CRC, computed over every other byte (R181). -/
def sealBlock (p : List Byte) : List Byte :=
  let body := padTo (Config.blockBytes - 2) p
  body ++ crcBytes body

/-- The span header block of a copy that a lane writes at an address (R141, R181). -/
def headerBlock (sp : Span) (lane : Lane) (address blocks : Nat) : List Byte :=
  let sum : Summary := sp.summary.getD
    { count := 0, range := ⟨0, 0⟩, rawSum := 0, scaledSum := 0, energy := 0, saturated := false,
      bucketExp := 0, envelope := [] }
  let fixed := leBytes 4 0x4E535857 ++ leBytes 2 sp.runId.toNat ++ leBytes 1 sp.source.num ++
    leBytes 1 lane.num ++ leBytes 4 sp.seq.toNat ++ leBytes 6 sp.first ++ leBytes 4 sp.count ++
    leBytes 1 sp.retention.code ++ leBytes 1 sp.laneRule.code ++
    leBytes 1 ((sp.mirrorPolicy.map MirrorPolicy.code).getD 0) ++ leBytes 1 sp.marks.length ++
    leBytes 2 sp.markOverflow ++ leBytes 5 address ++ leBytes 2 blocks ++ leBytes 1 sum.bucketExp ++
    leBytes 2 sum.envelope.length ++ extremesBytes sum.range ++ leSigned 8 sum.rawSum ++
    leSigned 8 sum.scaledSum ++ leBytes 8 sum.energy ++ yesNo sum.saturated
  sealBlock (padTo 72 fixed ++ padTo 64 (sp.marks.flatMap markBytes) ++
    padTo 2048 (sum.envelope.flatMap extremesBytes))

/-! ### The index block (R181) -/

def copyBytes (c : Copy) : List Byte := leBytes 1 c.lane.num ++ leBytes 5 c.address

/-- The byte of a SPAN entry that packs retention, degraded, saturated and the number of copies. -/
def SpanEntry.packed (e : SpanEntry) : Nat :=
  e.retention.code + (if e.degraded then 4 else 0) + (if e.saturated then 8 else 0) +
    16 * e.copies.length

/-- An entry of 64 bytes (R181). The late counter is held at 2^40 - 1. -/
def Entry.bytes : Entry → List Byte
  | .span e =>
    padTo 64 (leBytes 1 1 ++ leBytes 1 e.packed ++ leBytes 1 e.source.num ++ leBytes 1 e.markCount ++
      leBytes 2 e.runId.toNat ++ leBytes 4 e.seq.toNat ++ leBytes 6 e.first ++ leBytes 4 e.count ++
      padTo 8 ((e.firstMark.map markBytes).getD []) ++ padTo 12 (e.copies.flatMap copyBytes) ++
      extremesBytes e.range ++ leSigned 5 e.rawSum ++ leSigned 7 e.scaledSum ++ leBytes 8 e.energy)
  | .gap e =>
    padTo 64 (leBytes 1 2 ++ leBytes 1 e.source.num ++ [e.causes] ++ yesNo e.seq.isSome ++
      leBytes 2 e.runId.toNat ++ leBytes 4 (e.seq.getD 0).toNat ++ leBytes 6 e.first ++
      leBytes 7 e.count)
  | .runEnd e =>
    let c := e.counters
    padTo 64 (leBytes 1 3 ++ leBytes 1 e.cause.code ++ leBytes 2 e.runId.toNat ++
      leBytes 5 c.issued.toNat ++ leBytes 5 c.indexed.toNat ++ leBytes 5 c.shed.toNat ++
      leBytes 5 c.recycled.toNat ++ leBytes 7 c.lost.s0.toNat ++ leBytes 7 c.lost.s1.toNat ++
      leBytes 7 c.lost.s2.toNat ++ leBytes 7 c.lost.s3.toNat ++ leBytes 5 c.checkpointsWritten.toNat ++
      leBytes 5 (min (2 ^ 40 - 1) c.checkpointsLate.toNat))

/-- The header and entries of an index block; the CRC stands at the end of the header and covers every
other byte (R164, R181). -/
def IndexImage.bytes (b : IndexImage) : List Byte :=
  let head := padTo 62 (leBytes 4 0x4E495857 ++ leBytes 2 b.runId.toNat ++
    leBytes 1 b.entries.length ++ yesNo b.final ++ leBytes 4 b.seq.toNat ++ yesNo b.prev.isSome ++
    leBytes 5 (b.prev.getD 0))
  let places := padTo (64 * Config.entriesPerBlock) (b.entries.flatMap Entry.bytes)
  head ++ crcBytes (head ++ places) ++ places

/-! ### Frames on an archive link (R180) -/

/-- A frame of a type, tag and body: start byte, type, tag, body length, body and CRC (R180). -/
def linkFrame (type : Nat) (tag : Word16) (body : List Byte) : List Byte :=
  let inner := leBytes 1 type ++ leBytes 2 tag.toNat ++ leBytes 4 body.length ++ body
  0xA5 :: (inner ++ crcBytes inner)

/-- The bytes of a frame a lane sends (R180). -/
def LaneFrame.bytes : LaneFrame → List Byte
  | .hello tag => linkFrame 0x01 tag []
  | .write tag address blocks =>
    linkFrame 0x02 tag (leBytes 5 address ++ leBytes 2 blocks.length ++ blocks.flatten)
  | .cancel tag => linkFrame 0x03 tag []
  | .park tag => linkFrame 0x04 tag []
  | .wake tag => linkFrame 0x05 tag []

end Sys2Proof.Machine
end

