-- ==== Sys2Proof/Machine/Lanes.lean ====
section
/-! DEFINITION. Machine/Lanes.lean: one archive lane: room, bring-up, bursts, jobs, park, wake and faults (R133 to R154), and the lane's claim (R101). -/

namespace Sys2Proof.Machine

/-! ### Window and room (R137, R138) -/

/-- The free blocks: the index cursor minus the data cursor plus 1 (R137). -/
def LaneUnit.free (a : LaneUnit) : Int := a.indexCursor - a.dataCursor + 1

/-- The absolute block address of an offset (R137). -/
def LaneUnit.address (a : LaneUnit) (off : Nat) : Nat := a.settings.base + off

/-- data-full: free blocks fewer than 4097 plus the index reserve (R138). -/
def LaneUnit.isDataFull (a : LaneUnit) : Bool :=
  decide (a.free < (Config.largestSpanBlocks + a.settings.reserve : Nat))

/-- index-full: free blocks fewer than 1 (R138). -/
def LaneUnit.isIndexFull (a : LaneUnit) : Bool := decide (a.free < 1)

/-- The lane with its two conditions evaluated from its cursors and reserve (R138). -/
def LaneUnit.evaluated (a : LaneUnit) : LaneUnit :=
  { a with dataFull := a.isDataFull, indexFull := a.isIndexFull }

/-- The states in which a change of data-full sets ARCHIVE_FULL (R138). -/
def LaneState.reportsFull : LaneState → Bool
  | .down => false
  | .bringup => false
  | .faulted => false
  | .ready => true
  | .busy => true
  | .paused => true
  | .parking => true
  | .parked => true
  | .waking => true

/-- A lane's cursors change, and its conditions are evaluated: ARCHIVE_FULL is set when data-full changes
from no to yes outside DOWN, BRINGUP and FAULTED (R138). -/
def State.moveCursors (s : State) (lane : Lane) (f : LaneUnit → LaneUnit) : State :=
  let s' := s.onLane lane fun a => (f a).evaluated
  if (s'.lane lane).dataFull && !(s.lane lane).dataFull && (s'.lane lane).state.reportsFull then
    s'.setFlag .archiveFull
  else s'

/-! ### Claims (R101) -/

/-- Whether a lane is named leader or follower of the pair context: every context names both (R101). -/
def State.hasRole (s : State) : Bool := s.ds.pair.isSome

/-- The lane named follower (R114). -/
def PairContext.follower (c : PairContext) : Lane := c.leader.other

/-- Whether a lane is named follower of a pair in phase FORMING. -/
def State.formingFollower (s : State) (lane : Lane) : Bool :=
  match s.ds.pair with
  | some c => c.phase == .forming && c.follower == lane
  | none => false

/-- Whether a lane is named follower. -/
def State.namedFollower (s : State) (lane : Lane) : Bool :=
  match s.ds.pair with
  | some c => c.follower == lane
  | none => false

/-- The kind of claim a lane presents (R101). -/
def LaneUnit.claimKind (a : LaneUnit) : ClaimKind := if a.dataFull then .index else .full

/-- A lane places a claim, which begins to stand now, unless it holds a pair role (R101). -/
def State.placeClaim (s : State) (lane : Lane) : State :=
  if s.hasRole then s
  else s.setClaim lane (some { kind := (s.lane lane).claimKind, since := s.now })

/-- States in which a lane presents a claim (R101). -/
def LaneState.claims : LaneState → Bool
  | .ready => true
  | .parked => true
  | .down => false
  | .bringup => false
  | .busy => false
  | .paused => false
  | .parking => false
  | .waking => false
  | .faulted => false

/-- A lane whose role in the pair context has ended places a claim while it is READY or PARKED (R101). -/
def State.roleEnded (s : State) (lane : Lane) : State :=
  if (s.lane lane).state.claims && (s.ds.claim.get lane).isNone then s.placeClaim lane else s

def State.rolesEnded (s : State) : State := forLanes (fun lane s => s.roleEnded lane) s

/-! ### Entering a state -/

def State.setLaneState (s : State) (lane : Lane) (st : LaneState) : State :=
  s.onLane lane fun a => { a with state := st }

/-- The lane leaves READY or PARKED for the state given, withdrawing its claim (R101). -/
def State.leaveTo (s : State) (lane : Lane) (st : LaneState) : State :=
  (s.setClaim lane none).setLaneState lane st

/-- Entry to PARKING: PARK is sent and the response timer starts. A lane that is named follower of a
forming pair has its wake pending in PARKING (R148, R149; log 10). -/
def State.enterParking (s : State) (lane : Lane) : State :=
  let s1 := s.leaveTo lane .parking
  let s2 := if s.formingFollower lane then s1.onLane lane fun a => { a with wakePending := true } else s1
  s2.sendAwaiting lane .park (s.lane lane).settings.responseTime

/-- Entry to WAKING: wake pending is cleared, WAKE is sent and the wake timer starts (R149). -/
def State.enterWaking (s : State) (lane : Lane) : State :=
  ((s.leaveTo lane .waking).onLane lane fun a => { a with wakePending := false }).sendAwaiting lane .wake
    (s.lane lane).settings.wakeTime

/-- Entry to BRINGUP: HELLO is sent and the timer starts at 500 ms (R136). A lane that owes the block
being written misses it (R162). -/
def State.enterBringup (s : State) (lane : Lane) : State :=
  ((s.leaveTo lane .bringup).sendAwaiting lane .hello Config.helloTime).blockMissed lane

/-- Entry to DOWN from any other state (R153, R154, R162). -/
def State.enterDown (s : State) (lane : Lane) : State :=
  ((s.leaveTo lane .down).setFlag (laneChangeFlag lane)).blockMissed lane

/-- Entry to PAUSED, outside index duty (R147, R162). -/
def State.enterPaused (s : State) (lane : Lane) : State :=
  (s.leaveTo lane .paused).blockMissed lane

/-- Entry to FAULTED: the cause is recorded, the pending action and wake pending are cleared (R151). -/
def State.enterFaulted (s : State) (lane : Lane) (cause : FaultCause) : State :=
  (((s.leaveTo lane .faulted).onLane lane fun a =>
    { a with fault := cause, action := .none, wakePending := false, timer := none }).setFlag
      (laneChangeFlag lane)).blockMissed lane

/-- The state a lane takes at the end of a job when no pair names it (R146). -/
def State.nextLaneState (s : State) (lane : Lane) : State :=
  let s1 := s.onLane lane fun a => { a with action := .none }
  match (s.lane lane).action with
  | .pause => s1.enterPaused lane
  | .park => s1.enterParking lane
  | .none => (s1.setLaneState lane .ready).placeClaim lane

/-! ### Span write jobs (R140, R141) -/

/-- Blocks of a burst of a size code: 16 KiB is 4 blocks (R141). -/
def burstBlocks (code : Nat) : Nat := 4 * 2 ^ code

/-- The blocks of the current burst of a span job: what remains, at most the effective burst; one block
for the header (R141). -/
def SpanJob.burst (j : SpanJob) (effBurst : Nat) : Nat :=
  match j.phase with
  | .data => min (burstBlocks effBurst) (j.first + j.reserved - j.next)
  | .header => 1

/-- The offset of the first block of the current burst. -/
def SpanJob.burstAt (j : SpanJob) : Nat :=
  match j.phase with
  | .data => j.next
  | .header => j.first

def SpanJob.recordCount (j : SpanJob) : Nat := (j.record.map Span.count).getD 0

/-- The contents of the current burst (R141). -/
def SpanJob.contents (j : SpanJob) (m : Memory) (lane : Lane) (a : LaneUnit) : List (List Byte) :=
  match j.phase with
  | .data => (List.range (j.burst a.effBurst)).map fun i =>
      dataBlock m j.slot j.recordCount (j.next - (j.first + 1) + i)
  | .header =>
    match j.record with
    | some sp => [headerBlock sp lane (a.address j.first) (j.reserved - 1)]
    | none => []

def State.setJob (s : State) (lane : Lane) (j : Option Job) : State :=
  s.onLane lane fun a => { a with job := j }

/-- The current burst of a lane's span job goes out as a WRITE (R139, R141). -/
def State.sendBurst (s : State) (lane : Lane) (j : SpanJob) : State :=
  let a := s.lane lane
  s.sendAwaiting lane (fun tag => .write tag (a.address j.burstAt) (j.contents s.mem lane a))
    a.settings.responseTime

/-- The job a lane is handed before its start: nothing reserved and nothing sent (R115, R140). -/
def waitingJob (slot : Nat) (runId : Word16) (seq : Word32) : SpanJob where
  slot := slot
  runId := runId
  seq := seq
  started := false
  first := 0
  reserved := 0
  phase := .data
  next := 0
  retries := 0
  record := none

/-- The start of a span write job: 1 + ceil(c / 2048) blocks are reserved at the data cursor, the record
is copied, and the first data burst is sent (R140, R141). -/
def State.startSpanJob (s : State) (lane : Lane) (slot : Nat) (runId : Word16) (seq : Word32) : State :=
  let rec? := s.span? slot
  let d := (s.lane lane).dataCursor
  let n := 1 + dataBlocks ((rec?.map Span.count).getD 0)
  let j : SpanJob :=
    { waitingJob slot runId seq with
      started := true, first := d, reserved := n, next := d + 1, record := rec? }
  ((s.moveCursors lane fun a =>
      { a with state := .busy, job := some (.span j), dataCursor := d + n }).setClaim lane
    none).sendBurst lane j

/-- A span write job ends and the lane is free at once; the failed ones leave their reservation dead
(R143, R144). -/
def State.dropJob (s : State) (lane : Lane) (dead : Nat) : State :=
  s.onLane lane fun a => { a with job := none, timer := none, deadSpace := a.deadSpace + dead }

/-! ### Index jobs (R145) -/

/-- The block the Index Unit prepares for a lane (R161, R164). -/
def State.imageFor (s : State) (lane : Lane) (w : Writing) : IndexImage where
  runId := s.rc.runId.getD 0
  seq := w.seq
  entries := (s.buffer w.buffer).entries
  final := (s.buffer w.buffer).final
  prev := s.iu.prev.get lane

/-- The index block goes out as a WRITE of one block (R145). -/
def State.sendIndex (s : State) (lane : Lane) (j : IndexJob) : State :=
  s.sendAwaiting lane (fun tag => .write tag j.address [j.image.bytes])
    (s.lane lane).settings.responseTime

/-- The absolute address of a lane's index cursor (R137, R145). -/
def LaneUnit.indexAddress (a : LaneUnit) : Nat := (a.settings.base + a.indexCursor).toNat

/-- A lane takes the index job of the WRITING buffer: the block goes to its index cursor, and is missed
at once when index-full holds, after which the lane is READY again by R146 (R103, R145). -/
def State.takeIndexJob (s : State) (lane : Lane) (w : Writing) : State :=
  let s1 := s.leaveTo lane .busy
  if (s.lane lane).indexFull then (s1.blockMissed lane).nextLaneState lane
  else
    let j : IndexJob :=
      { buffer := w.buffer, address := (s.lane lane).indexAddress, retries := 0,
        image := s.imageFor lane w }
    (s1.setJob lane (some (.index j))).sendIndex lane j

end Sys2Proof.Machine
end

