-- ==== Sys2Proof/Machine/Drain.lean ====
section
/-! DEFINITION. Machine/Drain.lean: the Drain Scheduler: outcomes of writes, the pair protocol, and the answering of claims (R100 to R131). -/

namespace Sys2Proof.Machine

/-! ### What a write's end does to the record (R5, R6) -/

def Span.noteOutcome (sp : Span) (o : Outcome) : Span := { sp with lastOutcome := o }

/-- A landed copy is appended; the repair lane is cleared when its copy is (R5). -/
def Span.addCopy (sp : Span) (c : Copy) : Span :=
  { sp with
    copies := sp.copies ++ [c]
    repairLane := if sp.repairLane = some c.lane then none else sp.repairLane }

def Span.countAttempt (sp : Span) : Span := { sp with attempts := sp.attempts + 1 }

/-- Whether an outcome is a failure that is counted (R6, R113). -/
def Outcome.isFailure : Outcome → Bool
  | .retryExhausted => true
  | .moduleFault => true
  | .timeout => true
  | .none => false
  | .done => false
  | .cancelled => false

/-- The outcome a job's end records in the pair context (R126). -/
def Outcome.inPair : Outcome → PairOutcome
  | .done => .done
  | .cancelled => .cancelled
  | .retryExhausted => .failed
  | .moduleFault => .failed
  | .timeout => .failed
  | .none => .pending

/-- After a counted failure: at the span attempt limit the span is shed with cause ARCHIVE_FAILURE and
SPAN_FAILED is set, and otherwise it returns to QUEUED (R98, R113, R128). -/
def State.failOrRequeue (s : State) (slot : Nat) : State :=
  match s.span? slot with
  | some sp =>
    if s.spm.limit ≤ sp.attempts then (s.shedSpan slot .archiveFailure).setFlag .spanFailed
    else s.requeue slot
  | none => s

/-! ### Single writes (R111 to R113) -/

/-- A single write of a DEGRADE mirrored span that ends DONE with one copy sets PAIR_DEGRADED at its
commit (R111, R130). -/
def Span.degradesAlone (sp : Span) : Bool :=
  decide (sp.laneRule = .mirror) && decide (sp.copies.length = 1) &&
    decide (sp.mirrorPolicy = some .degrade)

/-- The outcome of a single write is applied to the span (R111 to R113). -/
def State.applySingle (s : State) (slot : Nat) (lane : Lane) (o : Outcome) (address : Nat) : State :=
  match o with
  | .done =>
    let s1 := s.onSpan slot fun sp => sp.addCopy { lane := lane, address := address }
    let s2 := s1.commit slot
    match s1.span? slot with
    | some sp => if sp.degradesAlone then s2.setFlag .pairDegraded else s2
    | none => s2
  | .cancelled => s.requeue slot
  | .retryExhausted => (s.onSpan slot Span.countAttempt).failOrRequeue slot
  | .moduleFault => (s.onSpan slot Span.countAttempt).failOrRequeue slot
  | .timeout => (s.onSpan slot Span.countAttempt).failOrRequeue slot
  | .none => s

/-! ### The close of a pair (R127) -/

/-- The lane a repair span owes its second copy to: the one whose write did not end DONE (R5, R127). -/
def PairContext.lacking (c : PairContext) : Lane := if c.outcome.l0 = .done then .l1 else .l0

/-- A pair closes with one lane DONE: with the other FAILED it counts an attempt, and under DEGRADE the
span is committed with one copy, PAIR_DEGRADED set before the stop deadline; otherwise the span becomes a
repair span of the lane without a copy, or is shed at the attempt limit (R127, R128; log 25). -/
def State.closePartial (s : State) (c : PairContext) (failed : Bool) : State :=
  let s1 := if failed then s.onSpan c.slot Span.countAttempt else s
  match s1.span? c.slot with
  | none => s1
  | some sp =>
    if failed ∧ sp.mirrorPolicy = some .degrade then
      let s2 := s1.commit c.slot
      if s1.rc.expired then s2 else s2.setFlag .pairDegraded
    else
      let s2 := s1.setSpan c.slot { sp with repairLane := some c.lacking }
      if failed then s2.failOrRequeue c.slot else s2.requeue c.slot

/-- A pair closes with no lane DONE: at most one attempt is counted (R127). -/
def State.closeBare (s : State) (c : PairContext) (failed : Bool) : State :=
  if failed then (s.onSpan c.slot Span.countAttempt).failOrRequeue c.slot else s.requeue c.slot

/-- The disposal of the span of a closing pair by its two outcomes (R127). -/
def State.closeSpan (s : State) (c : PairContext) : State :=
  let d0 := c.outcome.l0 == .done
  let d1 := c.outcome.l1 == .done
  let failed := c.outcome.l0 == .failed || c.outcome.l1 == .failed
  if d0 && d1 then s.commit c.slot
  else if d0 || d1 then s.closePartial c failed
  else s.closeBare c failed

/-- A pair closes when both outcomes are known: the context is removed, both roles end, and the span
leaves DRAINING (R127). -/
def State.closePair (s : State) (c : PairContext) : State :=
  ((s.setPair none).closeSpan c).rolesEnded

/-- A job's end in an ACTIVE pair: the outcome is recorded once, a landed copy appended, and the pair
closes when it is the second (R126). -/
def State.pairOutcome (s : State) (c : PairContext) (lane : Lane) (o : Outcome) (address : Nat) : State :=
  if c.outcome.get lane = .pending then
    let s1 := if o = .done then
        s.onSpan c.slot fun sp => sp.addCopy { lane := lane, address := address }
      else s
    let c' := { c with outcome := c.outcome.set lane o.inPair }
    let s2 := s1.setPair (some c')
    if c'.outcome.l0 = .pending ∨ c'.outcome.l1 = .pending then s2 else s2.closePair c'
  else s

/-- A FORMING pair dissolves: the context is removed and the span returns to QUEUED with its attempts
unchanged, or is disposed of after the stop deadline (R121, R123). -/
def State.dissolve (s : State) (c : PairContext) : State := (s.setPair none).requeue c.slot

/-- A lane reports the end of a write that has started (R109). The table writes the outcome into the span's
last outcome (R6), and the scheduler applies it to the ACTIVE pair whose span it is, or as a single write. An
outcome whose span is not DRAINING in that slot with that run id and sequence is discarded. -/
def State.reportWrite (s : State) (lane : Lane) (j : SpanJob) (o : Outcome) (address : Nat) : State :=
  match s.requested j.slot j.runId j.seq .draining with
  | none => s
  | some sp =>
    let s1 := s.setSpan j.slot (sp.noteOutcome o)
    match s.ds.pair with
    | some c =>
      if c.phase = .active ∧ c.slot = j.slot ∧ c.runId = j.runId ∧ c.seq = j.seq then
        s1.pairOutcome c lane o address
      else s1.applySingle j.slot lane o address
    | none => s1.applySingle j.slot lane o address

/-- A lane reports the end of a span write job. The end of the leader's write while the pair is FORMING
dissolves the pair, and both roles end (R123; log 11). -/
def State.reportOutcome (s : State) (lane : Lane) (j : SpanJob) (o : Outcome) (address : Nat) : State :=
  match s.ds.pair with
  | some c =>
    if c.phase = .forming ∧ c.leader = lane then
      ((s.onSpan c.slot fun sp => sp.noteOutcome o).dissolve c).rolesEnded
    else s.reportWrite lane j o address
  | none => s.reportWrite lane j o address

/-! ### A follower that joins, or cannot (R117 to R122) -/

/-- The join: the phase becomes ACTIVE and both lanes start their writes (R119). -/
def State.join (s : State) (c : PairContext) : State :=
  let s1 := s.setPair (some { c with phase := .active })
  (s1.startSpanJob c.follower c.slot c.runId c.seq).startSpanJob c.leader c.slot c.runId c.seq

/-- The mirror policy of the span of a pair, from its record (R132). -/
def State.pairPolicy (s : State) (c : PairContext) : MirrorPolicy :=
  ((s.span? c.slot).bind Span.mirrorPolicy).getD .strict

/-- The leader's pair write ends with nothing reserved: the span returns to its queue, and the leader becomes READY
and claims, or enters PAUSED or PARKING where that action was pending (R121). -/
def State.endUnstarted (s : State) (c : PairContext) : State :=
  ((s.dissolve c).setJob c.leader none).nextLaneState c.leader

/-- The leader's pair write becomes a span write job of the leader, which starts at once (R122, R140). -/
def State.startSingly (s : State) (c : PairContext) : State :=
  (s.setPair none).startSpanJob c.leader c.slot c.runId c.seq

/-- The conversion to a single write (R122). Where a PAUSE or PARK is pending on the leader, R115 makes the conversion
the end of the leader's job, at which the action is applied, and R122 has the job go on and start at once: which of the
two comes about is the free value `Config.conversionEndsJob`, and a job that so ends leaves its span as a dissolution
does (DESIGN CHOICE, log 31). -/
def State.convert (s : State) (c : PairContext) : State :=
  if (s.lane c.leader).action = .none then s.startSingly c
  else
    let s1 := s.setChoices (s.choices + 1)
    if Config.conversionEndsJob s.choices then s1.endUnstarted c else s1.startSingly c

/-- The follower of a FORMING pair stops being pairable (R120): under STRICT the pair dissolves (R121), under
DEGRADE it is converted to a single write on the leader (R122); the follower's role ends. -/
def State.followerLost (s : State) (c : PairContext) : State :=
  let s1 := match s.pairPolicy c with
    | .strict => s.endUnstarted c
    | .degrade => s.convert c
  s1.roleEnded c.follower

/-- The follower of a FORMING pair has left for a state in which it is not pairable (R120). -/
def State.checkFollower (s : State) (lane : Lane) : State :=
  match s.ds.pair with
  | some c => if c.phase = .forming ∧ c.follower = lane then s.followerLost c else s
  | none => s

/-- A lane enters READY: a follower of a FORMING pair joins it, or is lost to it when data-full; a lane
in a role places no claim; any other lane claims (R101, R115, R117). -/
def State.enterReady (s : State) (lane : Lane) : State :=
  let s1 := s.setLaneState lane .ready
  match s.ds.pair with
  | some c =>
    if c.phase = .forming ∧ c.follower = lane then
      if (s.lane lane).dataFull then s1.followerLost c else s1.join c
    else s1
  | none => s1.placeClaim lane

/-- The state a lane takes when its job ends without a fault (R146). -/
def State.afterJob (s : State) (lane : Lane) : State :=
  let s1 := s.onLane lane fun a => { a with action := .none }
  match (s.lane lane).action with
  | .pause => (s1.enterPaused lane).checkFollower lane
  | .park => s1.enterParking lane
  | .none => s1.enterReady lane

/-- Entry to FAULTED, BRINGUP or DOWN, and what it means for a pair being formed (R120). -/
def State.faultLane (s : State) (lane : Lane) (cause : FaultCause) : State :=
  (s.enterFaulted lane cause).checkFollower lane

/-! ### The end of a span write job (R141, R143, R144) -/

/-- A span write job ends DONE: its consecutive failures return to 0 and the copy's address is reported
(R141). -/
def State.jobDone (s : State) (lane : Lane) (j : SpanJob) : State :=
  let addr := (s.lane lane).address j.first
  let s1 := (s.dropJob lane 0).onLane lane fun a => { a with failures := 0 }
  (s1.reportOutcome lane j .done addr).afterJob lane

/-- A span write job fails (R143): its reservation becomes dead space, the consecutive failures count up,
the outcome is reported, and the lane faults on a TIMEOUT or at its third failure in a row. -/
def State.jobFailed (s : State) (lane : Lane) (j : SpanJob) (o : Outcome) : State :=
  let s1 := (s.dropJob lane j.reserved).onLane lane fun a => { a with failures := a.failures + 1 }
  let s2 := s1.reportOutcome lane j o 0
  if o = .timeout then s2.faultLane lane .timeout
  else if Config.failureLimit ≤ (s2.lane lane).failures then s2.faultLane lane .repeatedFailure
  else s2.afterJob lane

/-- CANCEL goes out with the tag of the outstanding WRITE, if there is one (R144). -/
def State.sendCancel (s : State) (lane : Lane) : State :=
  if (s.lane lane).timer.isSome then s.send lane (.cancel (s.lane lane).burstTag) else s

/-- A lane's job is cancelled and its outcome reported: CANCELLED for a span write, a missed block for an
index job (R144, R145). The lane's next state is the canceller's to give. -/
def State.cancelJob (s : State) (lane : Lane) : State :=
  match (s.lane lane).job with
  | some (.span j) => ((s.sendCancel lane).dropJob lane j.reserved).reportOutcome lane j .cancelled 0
  | some (.index _) => ((s.sendCancel lane).dropJob lane 0).blockMissed lane
  | none => s

/-- A lane's job is cancelled by ABORT RUN: nothing is reported (R38, R144, R145). -/
def State.abortJob (s : State) (lane : Lane) : State :=
  match (s.lane lane).job with
  | some (.span j) => (s.sendCancel lane).dropJob lane j.reserved
  | some (.index _) => (s.sendCancel lane).dropJob lane 0
  | none => s

/-! ### Forming a pair (R116 to R118) -/

/-- Whether a lane is BUSY with a single write: a started span job (R106). -/
def LaneUnit.writesSpan (a : LaneUnit) : Bool :=
  match a.job with
  | some (.span _) => true
  | some (.index _) => false
  | none => false

/-- The pair request reaches the follower (R117, R118). -/
def State.pairRequest (s : State) (c : PairContext) : State :=
  let f := c.follower
  let s1 := s.setClaim f none
  match (s.lane f).state with
  | .ready => s1.join c
  | .busy =>
    if (s.lane f).writesSpan ∧ c.mode = .cancel then (s1.cancelJob f).afterJob f else s1
  | .parking => s1.onLane f fun a => { a with wakePending := true }
  | .parked => s1.enterWaking f
  | .waking => s1
  | .down => s1
  | .bringup => s1
  | .paused => s1
  | .faulted => s1

/-- The claim of a lane won by a mirrored head with no repair lane forms a pair (R116). -/
def State.formPair (s : State) (lane : Lane) (slot : Nat) (sp : Span) : State :=
  let s1 := s.enter slot { sp with state := .draining }
  let c : PairContext :=
    { slot := slot
      runId := sp.runId
      seq := sp.seq
      leader := lane
      mode := (s.settings sp.source).pairMode
      phase := .forming
      outcome := ⟨.pending, .pending⟩ }
  let s2 := ((s1.setPair (some c)).leaveTo lane .busy).setJob lane
    (some (.span (waitingJob slot sp.runId sp.seq)))
  s2.pairRequest c

/-! ### Eligibility (R105 to R107) -/

/-- Whether a lane may be named follower (R106). -/
def State.pairable (s : State) (lane : Lane) : Bool :=
  match (s.lane lane).state with
  | .ready => !(s.lane lane).dataFull && !s.hasRole
  | .busy => !(s.lane lane).dataFull && !s.hasRole
  | .parking => !(s.lane lane).dataFull && !s.hasRole
  | .parked => !(s.lane lane).dataFull && !s.hasRole
  | .waking => !(s.lane lane).dataFull && !s.hasRole
  | .down => false
  | .bringup => false
  | .paused => false
  | .faulted => false

/-- A repair lane is unavailable when it is DOWN, BRINGUP, PAUSED or FAULTED, or data-full (R107). -/
def State.unavailable (s : State) (lane : Lane) : Bool :=
  match (s.lane lane).state with
  | .down => true
  | .bringup => true
  | .paused => true
  | .faulted => true
  | .ready => (s.lane lane).dataFull
  | .busy => (s.lane lane).dataFull
  | .parking => (s.lane lane).dataFull
  | .parked => (s.lane lane).dataFull
  | .waking => (s.lane lane).dataFull

/-- The forms in which a head can be taken. -/
inductive Take where
  | single | pair
  deriving DecidableEq, Repr

/-- Whether a queue head is eligible for a claiming lane, and the form it is then taken in (R105 to
R107). -/
def State.eligible (s : State) (lane : Lane) (sp : Span) : Option Take :=
  match sp.laneRule with
  | .l0 => if lane = .l0 then some .single else none
  | .l1 => if lane = .l1 then some .single else none
  | .either => some .single
  | .mirror =>
    match sp.repairLane with
    | some r => if r = lane then some .single else none
    | none =>
      if s.pairable lane.other then some .pair
      else if sp.mirrorPolicy = some .degrade then some .single
      else none

/-- Whether a head is a DEGRADE repair span, which holds one copy, whose repair lane, not the claiming one, is
unavailable, so that the claim commits it at consideration (R107) by a commit that R9 applies. -/
def State.commitsAt (s : State) (lane : Lane) (sp : Span) : Bool :=
  match sp.laneRule, sp.repairLane with
  | .mirror, some r =>
    decide (r ≠ lane) && s.unavailable r && decide (sp.mirrorPolicy = some .degrade) &&
      decide (sp.copies ≠ [])
  | _, _ => false

/-- The heads of a source are committed one after the other while R107 says so; `fuel` bounds them by
the queue's length. -/
def State.commitHeads (lane : Lane) (src : Source) : Nat → State → State
  | 0, s => s
  | fuel + 1, s =>
    match s.st.head src with
    | some (slot, sp) =>
      if s.commitsAt lane sp then
        State.commitHeads lane src fuel ((s.commit slot).setFlag .pairDegraded)
      else s
    | none => s

/-- Every source's heads are considered for repair commits, S0 to S3 (R107). -/
def State.commitRepairs (s : State) (lane : Lane) : State :=
  forSources (fun src s => State.commitHeads lane src (s.st.queues.get src).length s) s

/-- Whether some head would be committed at consideration by a claim of the lane. -/
def State.hasRepairCommit (s : State) (lane : Lane) : Bool :=
  Source.all.any fun src =>
    match s.st.head src with
    | some (_, sp) => s.commitsAt lane sp
    | none => false

/-! ### Arbitration (R108) -/

/-- A source that participates in the arbitration of a claim. -/
structure Bid where
  level : Nat
  slot : Nat
  span : Span
  take : Take
  deriving DecidableEq, Repr

/-- The bid of a source: its head, if it is eligible for the lane. -/
def State.bid (s : State) (lane : Lane) (src : Source) : Option Bid :=
  match s.st.head src with
  | some (slot, sp) =>
    (s.eligible lane sp).map fun t =>
      { level := (s.settings src).level, slot := slot, span := sp, take := t }
  | none => none

/-- The lower arbitration level wins; between equal levels the head of lower sequence (R108). -/
def Bid.beats (x y : Bid) : Bool :=
  decide (x.level < y.level) || (decide (x.level = y.level) && decide (x.span.seq < y.span.seq))

def betterBid (x y : Option Bid) : Option Bid :=
  match x, y with
  | some p, some q => if q.beats p then some q else some p
  | some p, none => some p
  | none, q => q

/-- The winner among the sources that participate (R108). -/
def State.winner (s : State) (lane : Lane) : Option Bid :=
  betterBid (betterBid (betterBid (s.bid lane .s0) (s.bid lane .s1)) (s.bid lane .s2)) (s.bid lane .s3)

/-! ### Answering a claim (R103, R104, R108 to R110) -/

/-- The winning head is taken: a PARKED lane is woken instead, and nothing is assigned (R110); a single
write moves the head to DRAINING and starts the lane's job (R109); or a pair is formed (R116). -/
def State.assign (s : State) (lane : Lane) (w : Bid) : State :=
  if (s.lane lane).state = .parked then s.enterWaking lane
  else
    match w.take with
    | .single =>
      (s.enter w.slot { w.span with state := .draining }).startSpanJob lane w.slot w.span.runId w.span.seq
    | .pair => s.formPair lane w.slot w.span

/-- Step 1 of the answer: the index job, ahead of the lock and of any span (R103, R110). -/
def State.answerIndex (s : State) (lane : Lane) (w : Writing) : State :=
  if (s.lane lane).state = .parked then s.enterWaking lane else s.takeIndexJob lane w

/-- Step 3 of the answer, for a FULL claim with the lock off: repair heads are committed at
consideration, and then the index is looked at again, because a commit may have closed a buffer, before
the winning head is taken (R103, R107, R108; log 29). None when nothing is done. -/
def State.answerSpan (s : State) (lane : Lane) : Option State :=
  let commits := s.hasRepairCommit lane
  let s1 := if commits then s.commitRepairs lane else s
  match s1.iu.writing with
  | some w =>
    if commits ∧ w.duty.get lane = .owed then some (s1.answerIndex lane w)
    else
      match s1.winner lane with
      | some b => some (s1.assign lane b)
      | none => if commits then some s1 else none
  | none =>
    match s1.winner lane with
    | some b => some (s1.assign lane b)
    | none => if commits then some s1 else none

/-- The answer to a lane's standing claim, or none when it stays standing: the index job first, for FULL
and INDEX claims alike; then nothing while the checkpoint lock is on; then, for a FULL claim, the queue
heads (R103, R104, R108). -/
def State.answer (s : State) (lane : Lane) : Option State :=
  match s.ds.claim.get lane with
  | none => none
  | some cl =>
    match s.iu.writing with
    | some w =>
      if w.duty.get lane = .owed then some (s.answerIndex lane w)
      else if s.iu.lock then none
      else match cl.kind with
        | .index => none
        | .full => s.answerSpan lane
    | none =>
      if s.iu.lock then none
      else match cl.kind with
        | .index => none
        | .full => s.answerSpan lane

/-- One claim is answered. When both lanes' claims can be, either may be taken first: the free value
`Config.lane0First` decides, drawn afresh each time (R102, R124; log 3). -/
def State.answerOne (s : State) : Option State :=
  match s.answer .l0, s.answer .l1 with
  | none, none => none
  | some t, none => some t
  | none, some t => some t
  | some t0, some t1 =>
    let t := if Config.lane0First s.choices then t0 else t1
    some (t.setChoices (s.choices + 1))

/-- Standing claims are answered one at a time until none finds work (R102). -/
def State.evaluateFor : Nat → State → State
  | 0, s => s
  | fuel + 1, s =>
    match s.answerOne with
    | some t => State.evaluateFor fuel t
    | none => s

/-- More answers than an evaluation can give: each takes a span out of a queue, wakes a lane, or settles
a lane's duty for one block, and a block takes an entry from the waiting offers or from a queue. -/
def State.evaluateFuel (s : State) : Nat :=
  100 + 3 * s.iu.waitSpans.length + 4 * (s.st.queues.s0.length + s.st.queues.s1.length +
    s.st.queues.s2.length + s.st.queues.s3.length)

/-- The scheduler evaluates every standing claim, once the effects of the event are complete (R102;
log 4). -/
def State.evaluate (s : State) : State := State.evaluateFor s.evaluateFuel s

end Sys2Proof.Machine
end

