-- ==== Sys2Proof/Machine/Operands.lean ====
section
/-! DEFINITION. Machine/Operands.lean: the operands of the control commands, read from a payload by the layouts of R179 and held to the ranges their rules give. -/

namespace Sys2Proof.Machine

/-! ### Coded fields (R178); none for a code without a meaning -/

def yesNoOf : Nat → Option Bool
  | 0 => some false
  | 1 => some true
  | _ => none

def SourceMode.ofCode : Nat → Option SourceMode
  | 0 => some .continuous
  | 1 => some .triggered
  | _ => none

def LaneRule.ofCode : Nat → Option LaneRule
  | 0 => some .l0
  | 1 => some .l1
  | 2 => some .either
  | 3 => some .mirror
  | _ => none

def MirrorPolicy.ofCode : Nat → Option MirrorPolicy
  | 0 => some .strict
  | 1 => some .degrade
  | _ => none

def PairMode.ofCode : Nat → Option PairMode
  | 0 => some .wait
  | 1 => some .cancel
  | _ => none

def ShedRule.ofCode : Nat → Option ShedRule
  | 0 => some .keepAll
  | 1 => some .oldest
  | 2 => some .newest
  | _ => none

/-- A boundary index or a notice class, 0 to 3. -/
def fourOf : Nat → Option (Fin 4)
  | 0 => some 0
  | 1 => some 1
  | 2 => some 2
  | 3 => some 3
  | _ => none

/-- A value that must lie in a range. -/
def inRange (low high v : Nat) : Option Nat := if low ≤ v ∧ v ≤ high then some v else none

/-! ### ARM RUN (R27) -/

structure ArmOperands where
  runId : Word16
  start : RunStart
  mask : Nat
  /-- as carried: 0 selects the default -/
  deadline : Nat
  deriving DecidableEq, Repr

def decodeStart (kind epoch : Nat) : Option RunStart :=
  match kind with
  | 0 => some .now
  | 1 => some (.atEpoch (BitVec.ofNat 16 epoch))
  | _ => none

/-- Check 2 of R27: a start kind, a deadline or a mask out of range gives none. -/
def decodeArm (p : List Byte) : Option ArmOperands := do
  let start ← decodeStart (byteAt p 2) (field p 3 2)
  let mask ← inRange 0 15 (byteAt p 5)
  let deadline ← inRange 0 3600 (field p 6 2)
  return { runId := BitVec.ofNat 16 (field p 0 2), start := start, mask := mask, deadline := deadline }

/-- A stop deadline of 0 selects the default of 60 s (R27). -/
def ArmOperands.seconds (a : ArmOperands) : Nat := if a.deadline = 0 then 60 else a.deadline

/-! ### SET SOURCE (R43) -/

/-- Check 2 of R43: a source number or any field out of range gives none. -/
def decodeSource (p : List Byte) : Option (Source × SourceSettings) := do
  let src ← Source.ofNum (byteAt p 0)
  let enabled ← yesNoOf (byteAt p 1)
  let mode ← SourceMode.ofCode (byteAt p 2)
  let spanExp ← inRange 20 23 (byteAt p 3)
  let pre ← inRange 0 (2 ^ 31) (field p 4 4)
  let post ← inRange 1 (2 ^ 31) (field p 8 4)
  let rule ← LaneRule.ofCode (byteAt p 12)
  let policy ← MirrorPolicy.ofCode (byteAt p 13)
  let pairMode ← PairMode.ofCode (byteAt p 14)
  let level ← inRange 0 7 (byteAt p 15)
  let shed ← ShedRule.ofCode (byteAt p 16)
  let shedAt ← fourOf (byteAt p 17)
  let resumeAt ← fourOf (byteAt p 18)
  let bucket ← inRange 14 17 (byteAt p 19)
  return (src,
    { enabled := enabled, mode := mode, spanExp := spanExp, preDepth := pre, postDepth := post,
      laneRule := rule, mirrorPolicy := policy, pairMode := pairMode, level := level, shedRule := shed,
      shedBoundary := shedAt, resumeBoundary := resumeAt, bucketExp := bucket,
      gain := BitVec.ofNat 32 (field p 20 4) })

/-- Whether an enabled source's resume value lies below its shed value under given boundaries; a source
that is not enabled is exempt (R43, R88). -/
def SourceSettings.fits (set : SourceSettings) (b : Four Nat) : Bool :=
  !set.enabled || decide (b.get set.resumeBoundary < b.get set.shedBoundary)

/-! ### SET SPOOL (R88) -/

structure SpoolOperands where
  boundary : Four Nat
  notify : Four Bool
  limit : Nat
  deriving DecidableEq, Repr

/-- Checks 1 and 2 of R88: a value out of range, or boundaries that fall, give none. Bits 4 to 7 of the
notify marks are not assigned and are ignored (log 14). -/
def decodeSpool (p : List Byte) : Option SpoolOperands := do
  let b0 ← inRange 0 4096 (field p 0 2)
  let b1 ← inRange 0 4096 (field p 2 2)
  let b2 ← inRange 0 4096 (field p 4 2)
  let b3 ← inRange 0 4096 (field p 6 2)
  let limit ← inRange 1 7 (byteAt p 9)
  if b0 ≤ b1 ∧ b1 ≤ b2 ∧ b2 ≤ b3 then
    let n := byteAt p 8
    some
      { boundary := ⟨b0, b1, b2, b3⟩
        notify := ⟨n.testBit 0, n.testBit 1, n.testBit 2, n.testBit 3⟩
        limit := limit }
  else none

/-! ### READ SPAN (R22) -/

/-- The two forms in which READ SPAN names a span. -/
inductive SpanName where
  | slot (n : Nat)
  | sequence (runId : Word16) (seq : Word32)
  deriving DecidableEq, Repr

def decodeSpanName (p : List Byte) : Option SpanName :=
  match byteAt p 0 with
  | 0 => if field p 1 2 < Config.slotCount then some (.slot (field p 1 2)) else none
  | 1 => some (.sequence (BitVec.ofNat 16 (field p 1 2)) (BitVec.ofNat 32 (field p 3 4)))
  | _ => none

/-! ### SET LANE (R134) -/

structure LaneOperands where
  settings : LaneSettings
  dataCursor : Nat
  indexCursor : Nat
  deriving DecidableEq, Repr

/-- A window base with its k lowest bits taken as zero (R134). -/
def alignBase (base k : Nat) : Nat := base / 2 ^ k * 2 ^ k

/-- Check 3 of R134: any field out of range, a data cursor above the index cursor plus 1, or a window
that passes 2^40, gives none. -/
def decodeLane (p : List Byte) : Option LaneOperands := do
  let k ← inRange 20 34 (byteAt p 6)
  let dataCursor ← inRange 0 (2 ^ k) (field p 7 5)
  let indexCursor ← inRange 0 (2 ^ k - 1) (field p 12 5)
  let reserve ← inRange 0 (2 ^ 20) (field p 17 4)
  let burst ← inRange 0 4 (byteAt p 21)
  let retry ← inRange 0 15 (byteAt p 22)
  let response ← inRange 1 255 (byteAt p 23)
  let wake ← inRange 100 10000 (field p 25 2)
  let attention ← yesNoOf (byteAt p 27)
  let base := alignBase (field p 1 5) k
  if dataCursor ≤ indexCursor + 1 ∧ base + 2 ^ k ≤ 2 ^ 40 then
    some
      { settings :=
          { base := base, sizeExp := k, reserve := reserve, burst := burst, retryLimit := retry,
            responseTime := response, parkDelay := byteAt p 24, wakeTime := wake,
            wakeOnAttention := attention }
        dataCursor := dataCursor
        indexCursor := indexCursor }
  else none

/-! ### SET CHECKPOINT (R165) -/

structure CheckpointOperands where
  period : Nat
  lockTime : Nat
  deriving DecidableEq, Repr

def decodeCheckpoint (p : List Byte) : Option CheckpointOperands := do
  let period ← inRange 10 60000 (field p 0 2)
  if field p 2 2 < period then some { period := period, lockTime := field p 2 2 } else none

/-! ### SET NOTICES and CLEAR NOTICES (R174, R175) -/

structure NoticeOperands where
  classOf : Vector (Fin 4) 17
  enable : Four Bool
  deriving DecidableEq, Repr

/-- Whether every flag's class byte names a class (R174). -/
def classesFit (p : List Byte) : Bool := Flag.all.all fun f => decide (byteAt p f.idx.val < 4)

/-- The classes in flag order, then the enables, a bit for each class; bits 4 to 7 are ignored (R179). -/
def decodeNotices (p : List Byte) : Option NoticeOperands :=
  if classesFit p then
    let n := byteAt p 17
    some
      { classOf := Vector.ofFn fun i => Fin.ofNat 4 (byteAt p i.val)
        enable := ⟨n.testBit 0, n.testBit 1, n.testBit 2, n.testBit 3⟩ }
  else none

/-- A flag set; a bit beyond the seventeenth flag gives none (R175). -/
def decodeFlags (p : List Byte) : Option (BitVec 17) :=
  if field p 0 3 < 2 ^ 17 then some (BitVec.ofNat 17 (field p 0 3)) else none

/-! ### MARK (R74) -/

/-- A source mask with no bit above S3. -/
def decodeMask (p : List Byte) : Option Nat := inRange 0 15 (byteAt p 0)

end Sys2Proof.Machine
end

