-- ==== Sys2Proof/Machine/Replies.lean ====
section
/-! DEFINITION. Machine/Replies.lean: the payloads of OK replies, item by item in the order the owning rules list them (R179; widths: log 7). -/

namespace Sys2Proof.Machine

/-! ### Codes (R178): states are coded from 0 in the order of their chapter's state table -/

def SourceMode.code : SourceMode → Nat
  | .continuous => 0
  | .triggered => 1

def PairMode.code : PairMode → Nat
  | .wait => 0
  | .cancel => 1

def ShedRule.code : ShedRule → Nat
  | .keepAll => 0
  | .oldest => 1
  | .newest => 2

def RunState.code : RunState → Nat
  | .idle => 0
  | .armed => 1
  | .running => 2
  | .stopping => 3
  | .ending => 4

def IntakeState.code : IntakeState → Nat
  | .idle => 0
  | .taking => 1
  | .refusing => 2
  | .closed => 3

def Pressure.code : Pressure → Nat
  | .calm => 0
  | .shedding => 1

/-- FREE is 0. -/
def SpanState.code : SpanState → Nat
  | .filling => 1
  | .held => 2
  | .queued => 3
  | .draining => 4
  | .committed => 5
  | .shed => 6

def Outcome.code : Outcome → Nat
  | .none => 0
  | .done => 1
  | .retryExhausted => 2
  | .moduleFault => 3
  | .timeout => 4
  | .cancelled => 5

def PairPhase.code : PairPhase → Nat
  | .forming => 0
  | .active => 1

def PairOutcome.code : PairOutcome → Nat
  | .pending => 0
  | .done => 1
  | .failed => 2
  | .cancelled => 3

def LaneState.code : LaneState → Nat
  | .down => 0
  | .bringup => 1
  | .ready => 2
  | .busy => 3
  | .paused => 4
  | .parking => 5
  | .parked => 6
  | .waking => 7
  | .faulted => 8

def FaultCause.code : FaultCause → Nat
  | .none => 0
  | .noModule => 1
  | .window => 2
  | .timeout => 3
  | .repeatedFailure => 4
  | .wakeTimeout => 5

def PendingAction.code : PendingAction → Nat
  | .none => 0
  | .pause => 1
  | .park => 2

def JobPhase.code : JobPhase → Nat
  | .data => 0
  | .header => 1

def BufferState.code : BufferState → Nat
  | .empty => 0
  | .filling => 1
  | .closed => 2
  | .writing => 3

/-- The spec gives the buffers no code: A 0, B 1 (DESIGN CHOICE, log 7). -/
def BufferName.code : BufferName → Nat
  | .a => 0
  | .b => 1

def Duty.code : Duty → Nat
  | .owed => 0
  | .written => 1
  | .missed => 2
  | .off => 3

/-- A set of things with a bit for each. -/
def bitMask (bits : List Bool) : Nat := bits.foldr (fun b m => (if b then 1 else 0) + 2 * m) 0

def PerSource.toList {α : Type} (v : PerSource α) : List α := [v.s0, v.s1, v.s2, v.s3]

def Four.toList {α : Type} (v : Four α) : List α := [v.a0, v.a1, v.a2, v.a3]

/-! ### IDENTIFY (R176, R179) -/

/-- Part code 0x0B34, revision 0x02, 4096 slots of 16 MiB, 4 sources, 2 lanes, payloads up to 1024. -/
def identity : List Byte :=
  leBytes 2 0x0B34 ++ leBytes 1 0x02 ++ leBytes 2 Config.slotCount ++ leBytes 1 16 ++ leBytes 1 4 ++
    leBytes 1 2 ++ leBytes 2 Config.maxPayload

/-! ### READ RUN (R41) -/

def RunStart.bytes : RunStart → List Byte
  | .now => leBytes 1 0 ++ [0]
  | .atEpoch e => leBytes 1 1 ++ 1 :: leBytes 2 e.toNat

/-- Each run counter in 8 bytes, the 64-bit range of R39 (PRESUMED, log 7). -/
def RunCounters.bytes (c : RunCounters) : List Byte :=
  [c.issued, c.indexed, c.shed, c.recycled, c.discarded, c.lost.s0, c.lost.s1, c.lost.s2, c.lost.s3,
    c.checkpointsWritten, c.checkpointsLate].flatMap fun n => leBytes 8 n.toNat

def NextSeq.bytes : NextSeq → List Byte
  | .number n => 1 :: leBytes 4 n.toNat
  | .exhausted => [0]

def readRun (s : State) : List Byte :=
  let r := s.rc
  let set := if r.runId.isSome then some (bitMask r.sourceSet.toList) else none
  leBytes 1 r.runState.code ++ optional (fun n => leBytes 2 n.toNat) r.runId ++
    optional (leBytes 1) set ++ r.start.bytes ++
    optional (fun n => leBytes 2 n.toNat) r.startEpoch ++
    optional (fun n => leBytes 2 n.toNat) r.lastEpoch ++ leBytes 2 r.deadline ++
    optional (leBytes 3) r.deadlineTimer ++ yesNo r.expired ++ r.nextSeq.bytes ++
    leBytes 1 r.lastEnd.code ++ r.counters.bytes

/-! ### SET SOURCE and READ SOURCE (R44, R58) -/

def SourceSettings.bytes (set : SourceSettings) : List Byte :=
  yesNo set.enabled ++ leBytes 1 set.mode.code ++ leBytes 1 set.spanExp ++ leBytes 4 set.preDepth ++
    leBytes 4 set.postDepth ++ leBytes 1 set.laneRule.code ++ leBytes 1 set.mirrorPolicy.code ++
    leBytes 1 set.pairMode.code ++ leBytes 1 set.level ++ leBytes 1 set.shedRule.code ++
    leBytes 1 set.shedBoundary.val ++ leBytes 1 set.resumeBoundary.val ++ leBytes 1 set.bucketExp ++
    leBytes 4 set.gain.toNat

def Gap.bytes (g : Gap) : List Byte := leBytes 6 g.first ++ leBytes 7 g.count ++ [g.causes]

def readSource (s : State) (src : Source) : List Byte :=
  let i := s.ci.get src
  let w := (s.twu.get src).window
  i.settings.bytes ++ leBytes 1 i.intake.code ++ leBytes 1 (s.spm.pressure.get src).code ++
    yesNo w.isSome ++ optional (leBytes 7) w ++ optional (leBytes 6) i.newest ++ yesNo i.tagPending ++
    optional (fun p : Nat × Span => leBytes 2 p.1 ++ leBytes 4 p.2.count) (s.st.filling src) ++
    optional Gap.bytes i.pendingGap ++ optional Gap.bytes i.offeredGap

/-! ### SET SPOOL and READ SPOOL (R89, R99) -/

/-- The values in force, laid out as SET SPOOL carries them. -/
def PressureMonitor.setBytes (m : PressureMonitor) : List Byte :=
  m.boundary.toList.flatMap (leBytes 2) ++ leBytes 1 (bitMask m.notify.toList) ++ leBytes 1 m.limit

/-- The number of slots in a state other than FREE. -/
def SpanTable.countIn (t : SpanTable) (st : SpanState) : Nat :=
  (t.slots.filter fun p => decide (p.2.state = st)).length

/-- The number of slots in each of the seven states, FREE to SHED. -/
def SpanTable.counts (t : SpanTable) : List Nat :=
  (Config.slotCount - t.slots.length) ::
    [SpanState.filling, .held, .queued, .draining, .committed, .shed].map t.countIn

def readSpool (s : State) : List Byte :=
  let m := s.spm
  leBytes 2 m.boundary.a0 ++ yesNo m.notify.a0 ++ leBytes 2 m.boundary.a1 ++ yesNo m.notify.a1 ++
    leBytes 2 m.boundary.a2 ++ yesNo m.notify.a2 ++ leBytes 2 m.boundary.a3 ++ yesNo m.notify.a3 ++
    leBytes 1 m.limit ++ leBytes 2 s.st.occupancy ++ s.st.counts.flatMap (leBytes 2) ++
    m.pressure.toList.flatMap fun p => leBytes 1 p.code

/-! ### READ SPAN and READ QUEUE (R22, R23) -/

/-- The compact part of a summary and the number of its envelope pairs (R22); the count takes the four bytes of
R181's layouts (DESIGN CHOICE, log 7). -/
def Summary.bytes (m : Summary) : List Byte :=
  leBytes 4 m.count ++ extremesBytes m.range ++ leSigned 8 m.rawSum ++ leSigned 7 m.scaledSum ++
    leBytes 8 m.energy ++ yesNo m.saturated ++ leBytes 2 m.envelope.length

/-- Every field present in the record by R3, in the order of R2. The sample count and the marks take the four-byte
fields of R181's layouts, although the count and a mark's offset would fit three (DESIGN CHOICE, log 7). -/
def Span.bytes (sp : Span) : List Byte :=
  leBytes 2 sp.runId.toNat ++ leBytes 4 sp.seq.toNat ++ leBytes 1 sp.source.num ++
    leBytes 6 sp.first ++ leBytes 4 sp.count ++ leBytes 1 sp.retention.code ++
    leBytes 1 sp.marks.length ++ sp.marks.flatMap markBytes ++ leBytes 2 sp.markOverflow ++
    leBytes 1 sp.laneRule.code ++ optional (fun p => leBytes 1 (MirrorPolicy.code p)) sp.mirrorPolicy ++
    leBytes 1 sp.copies.length ++ sp.copies.flatMap copyBytes ++
    optional (fun l => leBytes 1 (Lane.num l)) sp.repairLane ++ yesNo sp.degraded ++
    leBytes 1 sp.attempts ++ leBytes 1 sp.lastOutcome.code ++
    optional (fun c => [ShedCause.bit c]) sp.shedCause ++ optional Summary.bytes sp.summary

/-- A found span: found yes, its slot, its state and its record. -/
def foundBytes (slot : Nat) (sp : Span) : List Byte :=
  yesNo true ++ leBytes 2 slot ++ leBytes 1 sp.state.code ++ sp.bytes

/-- A FREE slot read by number answers its slot number and state alone (R22). -/
def freeBytes (slot : Nat) : List Byte := yesNo true ++ leBytes 2 slot ++ leBytes 1 0

/-- The span of a run id and sequence. -/
def SpanTable.named (t : SpanTable) (runId : Word16) (seq : Word32) : Option (Nat × Span) :=
  t.slots.find? fun p => decide (p.2.runId = runId) && decide (p.2.seq = seq)

def readSpan (s : State) : SpanName → List Byte
  | .slot n =>
    match s.span? n with
    | some sp => foundBytes n sp
    | none => freeBytes n
  | .sequence runId seq =>
    match s.st.named runId seq with
    | some (n, sp) => foundBytes n sp
    | none => yesNo false

/-- An entry of a queue: its slot, its sequence and its repair lane (R23). -/
def queueEntryBytes (s : State) (slot : Nat) : List Byte :=
  let sp := s.span? slot
  leBytes 2 slot ++ leBytes 4 ((sp.map Span.seq).getD 0).toNat ++
    optional (fun l => leBytes 1 (Lane.num l)) (sp.bind Span.repairLane)

/-- The length of a queue, and up to 64 entries from a start position (R23). -/
def readQueue (s : State) (src : Source) (start : Nat) : List Byte :=
  let q := s.st.queues.get src
  let part := (q.drop start).take 64
  leBytes 2 q.length ++ leBytes 1 part.length ++ part.flatMap (queueEntryBytes s)

/-! ### READ PAIR (R132) -/

def PairContext.bytes (s : State) (c : PairContext) : List Byte :=
  leBytes 2 c.slot ++ leBytes 2 c.runId.toNat ++ leBytes 4 c.seq.toNat ++
    leBytes 1 (((s.span? c.slot).map fun sp => sp.source.num).getD 0) ++
    leBytes 1 (s.pairPolicy c).code ++ leBytes 1 c.mode.code ++ leBytes 1 c.phase.code ++
    leBytes 1 c.leader.num ++ leBytes 1 c.follower.num ++ leBytes 1 c.outcome.l0.code ++
    leBytes 1 c.outcome.l1.code ++
    optional (fun st => leBytes 1 (LaneState.code st))
      (if c.phase = .forming then some (s.lane c.follower).state else none)

def readPair (s : State) : List Byte := optional (PairContext.bytes s) s.ds.pair

/-! ### SET LANE and READ LANE (R135, R155) -/

/-- The settings and cursors, laid out as SET LANE carries them, with the base as adjusted (R135). -/
def LaneOperands.bytes (lane : Lane) (o : LaneOperands) : List Byte :=
  leBytes 1 lane.num ++ leBytes 5 o.settings.base ++ leBytes 1 o.settings.sizeExp ++
    leBytes 5 o.dataCursor ++ leBytes 5 o.indexCursor ++ leBytes 4 o.settings.reserve ++
    leBytes 1 o.settings.burst ++ leBytes 1 o.settings.retryLimit ++
    leBytes 1 o.settings.responseTime ++ leBytes 1 o.settings.parkDelay ++
    leBytes 2 o.settings.wakeTime ++ yesNo o.settings.wakeOnAttention

def ModuleReport.bytes (r : ModuleReport) : List Byte :=
  leBytes 1 r.maxBurst ++ leBytes 5 r.capacity ++ yesNo r.attention

/-- The pair role of a lane, from the pair context: none 0, LEADER 1, FOLLOWER 2. -/
def State.roleCode (s : State) (lane : Lane) : Nat :=
  match s.ds.pair with
  | none => 0
  | some c => if c.leader = lane then 1 else 2

def Job.bytes : Job → List Byte
  | .span j =>
    leBytes 1 0 ++ leBytes 2 j.slot ++ leBytes 2 j.runId.toNat ++ leBytes 4 j.seq.toNat ++
      leBytes 5 j.first ++ leBytes 2 j.reserved ++ leBytes 1 j.phase.code ++ leBytes 5 j.next ++
      leBytes 1 j.retries
  | .index j => leBytes 1 1 ++ leBytes 1 j.buffer.code ++ leBytes 5 j.address

/-- The items of R155. The settings item leaves out the window base, the size exponent and the cursors, which
the next item carries (DESIGN CHOICE, log 7). -/
def readLane (s : State) (lane : Lane) : List Byte :=
  let a := s.lane lane
  let set := a.settings
  leBytes 1 a.state.code ++ leBytes 1 a.fault.code ++ yesNo a.dataFull ++ yesNo a.indexFull ++
    leBytes 4 set.reserve ++ leBytes 1 set.burst ++ leBytes 1 set.retryLimit ++
    leBytes 1 set.responseTime ++ leBytes 1 set.parkDelay ++ leBytes 2 set.wakeTime ++
    yesNo set.wakeOnAttention ++ leBytes 1 a.effBurst ++ yesNo a.effWake ++ leBytes 5 set.base ++
    leBytes 1 set.sizeExp ++ leBytes 5 a.dataCursor ++ leSigned 5 a.indexCursor ++
    leSigned 5 a.free ++ leBytes 5 a.deadSpace ++ leBytes 1 a.failures ++ leBytes 1 a.action.code ++
    yesNo a.wakePending ++ optional ModuleReport.bytes a.report ++ yesNo a.attentionSeen ++
    leBytes 1 (s.roleCode lane) ++ optional Job.bytes a.job

/-! ### SET CHECKPOINT and READ INDEX (R165, R169) -/

def CheckpointOperands.bytes (o : CheckpointOperands) : List Byte :=
  leBytes 2 o.period ++ leBytes 2 o.lockTime

def IndexBuffer.bytes (b : IndexBuffer) : List Byte :=
  leBytes 1 b.state.code ++ leBytes 1 b.entries.length ++ yesNo b.final

def Writing.bytes (w : Writing) : List Byte :=
  leBytes 4 w.seq.toNat ++ leBytes 1 w.duty.l0.code ++ leBytes 1 w.duty.l1.code

/-- The number of waiting offers: span entries, offered gaps and RUN_END (R156). -/
def State.waiting (s : State) : Nat :=
  s.iu.waitSpans.length + (Source.all.filter fun src => (s.ci.get src).offeredGap.isSome).length +
    (if s.iu.waitRunEnd.isSome then 1 else 0)

def readIndex (s : State) : List Byte :=
  let u := s.iu
  u.buffers.a.bytes ++ u.buffers.b.bytes ++ optional Writing.bytes u.writing ++
    leBytes 2 s.waiting ++ leBytes 2 u.waitSpans.length ++ leBytes 4 u.blockSeq.toNat ++
    optional (leBytes 5) u.prev.l0 ++ optional (leBytes 5) u.prev.l1 ++ leBytes 2 u.periodSetting ++
    leBytes 2 u.lockSetting ++ leBytes 2 u.period ++ leBytes 2 u.lockTime ++
    optional (leBytes 2) u.timer ++ yesNo u.lock

/-! ### SET NOTICES and READ NOTICES (R174, R175) -/

def NoticeOperands.bytes (o : NoticeOperands) : List Byte :=
  (o.classOf.toList.flatMap fun c => leBytes 1 c.val) ++ leBytes 1 (bitMask o.enable.toList)

/-- The items of R175. Pending state and class stand together for each flag, and enable and owed mark for each
class (DESIGN CHOICE, log 7). -/
def readNotices (s : State) : List Byte :=
  let n := s.nu
  (Flag.all.flatMap fun f => yesNo (n.isPending f) ++ leBytes 1 (n.cls f).val) ++
    yesNo n.enable.a0 ++ yesNo n.owed.a0 ++ yesNo n.enable.a1 ++ yesNo n.owed.a1 ++
    yesNo n.enable.a2 ++ yesNo n.owed.a2 ++ yesNo n.enable.a3 ++ yesNo n.owed.a3 ++
    [n.noticeCount] ++ leBytes 2 s.clp.linkErrors ++ leBytes 1 s.clp.out.length ++
    leBytes 1 s.clp.rx.length

end Sys2Proof.Machine
end

