-- ==== Sys2Proof/Machine/LaneCommands.lean ====
section
/-! DEFINITION. Machine/LaneCommands.lean: the commands of a lane: SET LANE, LANE RESET to LANE WAKE, READ LANE (R134, R135, R147 to R155). -/

namespace Sys2Proof.Machine

/-- The lane a command carries; a number above 1 gives none (R134, R155; log 15). -/
def laneOf (p : List Byte) : Option Lane := Lane.ofNum (byteAt p 0)

/-- The checks of a command of one lane: its number, then its state (log 15). -/
def laneCheck (allowed : LaneState → Bool) (p : List Byte) (s : State) : Status :=
  match laneOf p with
  | none => .badValue
  | some lane => .ofState (allowed (s.lane lane).state)

/-- An effect on the lane a command carries. -/
def onLaneOf (f : Lane → State → State) (p : List Byte) (s : State) : State :=
  match laneOf p with
  | none => s
  | some lane => f lane s

/-! ### SET LANE (R134, R135) -/

def LaneState.settable (st : LaneState) : Bool := st == .down || st == .faulted

/-- The checks of R134 in order: the lane number, the lane state, the fields. -/
def setLaneCheck (p : List Byte) (s : State) : Status :=
  (laneCheck LaneState.settable p s).andThen (.ofFields (decodeLane p))

def setLanePayload (p : List Byte) (_ : State) : List Byte :=
  match laneOf p, decodeLane p with
  | some lane, some o => o.bytes lane
  | _, _ => []

/-- What a SET LANE puts into the lane (R135), with the two conditions evaluated (R138). -/
def LaneUnit.adoptSettings (a : LaneUnit) (o : LaneOperands) : LaneUnit :=
  { a with
    settings := o.settings
    dataCursor := o.dataCursor
    indexCursor := o.indexCursor
    deadSpace := 0
    failures := 0
    fault := .none
    action := .none
    wakePending := false
    report := none }.evaluated

/-- SET LANE's effect: the settings and cursors are replaced, and the lane enters BRINGUP (R135). -/
def State.setLane (s : State) (lane : Lane) (o : LaneOperands) : State :=
  ((s.onLane lane fun a => a.adoptSettings o).enterBringup lane).evaluate

def setLaneEffect (p : List Byte) (s : State) : State :=
  match laneOf p, decodeLane p with
  | some lane, some o => s.setLane lane o
  | _, _ => s

def setLaneCommand : Command where
  code := 0x40
  len := 28
  check := setLaneCheck
  payload := setLanePayload
  effect := setLaneEffect

/-! ### LANE RESET and LANE OFFLINE (R152, R153) -/

/-- Steps 2 and 3 of R152: an outstanding exchange ends, and the pending action, wake pending, the fault
cause and the module report are cleared. -/
def LaneUnit.cleared (a : LaneUnit) : LaneUnit :=
  { a with timer := none, action := .none, wakePending := false, fault := .none, report := none }

/-- LANE RESET: the job is cancelled and reported, the exchange and the fault cleared, the failures set
to 0, and the lane enters BRINGUP; a FORMING pair that named it follower acts by its policy (R120, R123,
R152). -/
def State.laneReset (lane : Lane) (s : State) : State :=
  let s1 := (s.cancelJob lane).onLane lane fun a => { a.cleared with failures := 0 }
  ((s1.enterBringup lane).checkFollower lane).evaluate

/-- LANE OFFLINE: the first three steps of LANE RESET, and the lane enters DOWN; in DOWN nothing
(R153). -/
def State.laneOffline (lane : Lane) (s : State) : State :=
  if (s.lane lane).state = .down then s
  else
    let s1 := (s.cancelJob lane).onLane lane LaneUnit.cleared
    ((s1.enterDown lane).checkFollower lane).evaluate

def laneResetCommand : Command where
  code := 0x41
  len := 1
  check := laneCheck fun st => st != .down
  payload := noPayload
  effect := onLaneOf State.laneReset

def laneOfflineCommand : Command where
  code := 0x42
  len := 1
  check := laneCheck fun _ => true
  payload := noPayload
  effect := onLaneOf State.laneOffline

/-! ### LANE PAUSE and LANE RESUME (R147) -/

/-- LANE PAUSE: a READY lane enters PAUSED and withdraws its claim; a BUSY one has PAUSE pending, in
place of any earlier action. -/
def State.lanePause (lane : Lane) (s : State) : State :=
  if (s.lane lane).state = .ready then (s.enterPaused lane).evaluate
  else s.onLane lane fun a => { a with action := .pause }

def lanePauseCommand : Command where
  code := 0x43
  len := 1
  check := laneCheck fun st => st == .ready || st == .busy
  payload := noPayload
  effect := onLaneOf State.lanePause

/-- LANE RESUME: a PAUSED lane returns to READY and claims. -/
def State.laneResume (lane : Lane) (s : State) : State := (s.enterReady lane).evaluate

def laneResumeCommand : Command where
  code := 0x44
  len := 1
  check := laneCheck fun st => st == .paused
  payload := noPayload
  effect := onLaneOf State.laneResume

/-! ### LANE PARK and LANE WAKE (R148, R149) -/

/-- LANE PARK: a READY lane enters PARKING, a BUSY one has PARK pending, a PARKING or PARKED one stays. -/
def State.lanePark (lane : Lane) (s : State) : State :=
  match (s.lane lane).state with
  | .ready => (s.enterParking lane).evaluate
  | .busy => s.onLane lane fun a => { a with action := .park }
  | .parking => s
  | .parked => s
  | .down => s
  | .bringup => s
  | .paused => s
  | .waking => s
  | .faulted => s

def laneParkCommand : Command where
  code := 0x45
  len := 1
  check := laneCheck fun st => st == .ready || st == .busy || st == .parking || st == .parked
  payload := noPayload
  effect := onLaneOf State.lanePark

/-- LANE WAKE: a PARKED lane enters WAKING, a PARKING one has its wake pending, a WAKING, READY or BUSY
one stays. -/
def State.laneWake (lane : Lane) (s : State) : State :=
  match (s.lane lane).state with
  | .parked => (s.enterWaking lane).evaluate
  | .parking => s.onLane lane fun a => { a with wakePending := true }
  | .waking => s
  | .ready => s
  | .busy => s
  | .down => s
  | .bringup => s
  | .paused => s
  | .faulted => s

def laneWakeCommand : Command where
  code := 0x46
  len := 1
  check := laneCheck fun st =>
    st == .parked || st == .parking || st == .waking || st == .ready || st == .busy
  payload := noPayload
  effect := onLaneOf State.laneWake

/-! ### READ LANE (R155) -/

/-- READ LANE reports attention-seen as it stood, and then clears it. -/
def readLaneCommand : Command where
  code := 0x47
  len := 1
  check := laneCheck fun _ => true
  payload := fun p s =>
    match laneOf p with
    | some lane => readLane s lane
    | none => []
  effect := onLaneOf fun lane s => s.onLane lane fun a => { a with attentionSeen := false }

/-! ### Meanings -/

def execSetLane (s : State) : Host.Outcome State Fault Refusal := .next (setLaneCommand.take s)

def execLaneReset (s : State) : Host.Outcome State Fault Refusal := .next (laneResetCommand.take s)

def execLaneOffline (s : State) : Host.Outcome State Fault Refusal := .next (laneOfflineCommand.take s)

def execLanePause (s : State) : Host.Outcome State Fault Refusal := .next (lanePauseCommand.take s)

def execLaneResume (s : State) : Host.Outcome State Fault Refusal := .next (laneResumeCommand.take s)

def execLanePark (s : State) : Host.Outcome State Fault Refusal := .next (laneParkCommand.take s)

def execLaneWake (s : State) : Host.Outcome State Fault Refusal := .next (laneWakeCommand.take s)

def execReadLane (s : State) : Host.Outcome State Fault Refusal := .next (readLaneCommand.take s)

end Sys2Proof.Machine
end

