-- ==== Sys2Proof/Machine/Modules.lean ====
section
/-! DEFINITION. Machine/Modules.lean: the frames a storage module sends and the timers of a lane: HELLO_REPLY to ARCHIVE_FRAME_DISCARDED (R136 to R151, R180). -/

namespace Sys2Proof.Machine

/-! ### Answers to a WRITE (R142, R145) -/

/-- The span job after the ACK of a data burst: the retries return to 0, and after the last data burst
the phase becomes HEADER (R141, R142). -/
def SpanJob.afterAck (j : SpanJob) (effBurst : Nat) : SpanJob :=
  let next := j.next + j.burst effBurst
  { j with
    next := next
    retries := 0
    phase := if j.first + j.reserved ≤ next then .header else .data }

/-- The ACK of a span job's burst: the next burst, or the end of the job (R142). -/
def State.ackSpan (s : State) (lane : Lane) (j : SpanJob) : State :=
  match j.phase with
  | .header => s.jobDone lane j
  | .data =>
    let j' := j.afterAck (s.lane lane).effBurst
    (s.setJob lane (some (.span j'))).sendBurst lane j'

/-- The ACK of an index block: the index cursor decreases by 1, and the block is reported written with
its address (R145). -/
def State.ackIndex (s : State) (lane : Lane) (j : IndexJob) : State :=
  let s1 := (s.dropJob lane 0).moveCursors lane fun a => { a with indexCursor := a.indexCursor - 1 }
  (s1.blockWritten lane j.address).afterJob lane

/-- An index block that the module did not take: the cursor stays, INDEX_MISSED is set, and the block is
reported missed (R145). -/
def State.indexFailed (s : State) (lane : Lane) : State :=
  ((s.dropJob lane 0).setFlag .indexMissed).blockMissed lane

def State.takeAck (s : State) (lane : Lane) : State :=
  match (s.lane lane).job with
  | some (.span j) => s.ackSpan lane j
  | some (.index j) => s.ackIndex lane j
  | none => s

/-- RETRY: the same blocks again under a new tag while the retries are below the limit, and the end of
the job when they equal it (R142, R145). -/
def State.takeRetry (s : State) (lane : Lane) : State :=
  match (s.lane lane).job with
  | some (.span j) =>
    if j.retries < (s.lane lane).settings.retryLimit then
      let j' := { j with retries := j.retries + 1 }
      (s.setJob lane (some (.span j'))).sendBurst lane j'
    else s.jobFailed lane j .retryExhausted
  | some (.index j) =>
    if j.retries < (s.lane lane).settings.retryLimit then
      let j' := { j with retries := j.retries + 1 }
      (s.setJob lane (some (.index j'))).sendIndex lane j'
    else (s.indexFailed lane).afterJob lane
  | none => s

/-- FAULT: a span job ends MODULE_FAULT, an index block is missed (R142, R145). -/
def State.takeFault (s : State) (lane : Lane) : State :=
  match (s.lane lane).job with
  | some (.span j) => s.jobFailed lane j .moduleFault
  | some (.index _) => (s.indexFailed lane).afterJob lane
  | none => s

/-- The response timer of an outstanding WRITE expires (R142, R145). An index job's missed report is taken first and
the lane's entry to FAULTED after it, where R162 leaves the order open (DESIGN CHOICE, log 32). -/
def State.writeTimeout (s : State) (lane : Lane) : State :=
  match (s.lane lane).job with
  | some (.span j) => s.jobFailed lane j .timeout
  | some (.index _) => (s.indexFailed lane).faultLane lane .timeout
  | none => s

/-! ### Bring-up (R136) -/

/-- A HELLO-REPLY maximum burst code above 4 is taken as 4 (R180). -/
def moduleReport (maxBurst : Byte) (capacity : BitVec 40) (attention : Bool) : ModuleReport where
  maxBurst := min 4 maxBurst.toNat
  capacity := capacity.toNat
  attention := attention

/-- What a module report decides for a lane: the effective burst and wake, and the two conditions
(R136, R138). -/
def LaneUnit.adopt (a : LaneUnit) (r : ModuleReport) : LaneUnit :=
  { a with
    effBurst := min a.settings.burst r.maxBurst
    effWake := a.settings.wakeOnAttention && r.attention }.evaluated

/-- Bring-up ends in READY: the lane's change flag, ARCHIVE_FULL where data-full holds, and a claim
(R136, R138, R154). -/
def State.bringupDone (s : State) (lane : Lane) (r : ModuleReport) : State :=
  let s1 := (s.onLane lane fun a => a.adopt r).setFlag (laneChangeFlag lane)
  let s2 := if (s1.lane lane).dataFull then s1.setFlag .archiveFull else s1
  s2.enterReady lane

/-- The module's report is recorded; a window that passes its capacity faults the lane (R136). -/
def State.takeReport (s : State) (lane : Lane) (r : ModuleReport) : State :=
  let s1 := s.onLane lane fun a => { a with timer := none, report := some r }
  let set := (s.lane lane).settings
  if r.capacity < set.base + 2 ^ set.sizeExp then s1.faultLane lane .window
  else s1.bringupDone lane r

/-! ### Park and wake (R148, R149) -/

/-- Entry to PARKED: a claim, or at once WAKING for a named follower or with wake pending (R148). -/
def State.takeParked (s : State) (lane : Lane) : State :=
  let s1 := ((s.onLane lane fun a => { a with timer := none }).setLaneState lane .parked).setFlag
    (laneChangeFlag lane)
  if s1.namedFollower lane || (s1.lane lane).wakePending then s1.enterWaking lane
  else s1.placeClaim lane

def State.takeAwake (s : State) (lane : Lane) : State :=
  ((s.onLane lane fun a => { a with timer := none }).setFlag (laneChangeFlag lane)).enterReady lane

/-- ATTENTION in any state sets attention-seen; with the effective wake on attention on, a PARKED lane
wakes and a PARKING lane has its wake pending (R150). -/
def State.takeAttention (s : State) (lane : Lane) : State :=
  let s1 := s.onLane lane fun a => { a with attentionSeen := true }
  if (s.lane lane).effWake then
    match (s.lane lane).state with
    | .parked => (s1.enterWaking lane).evaluate
    | .parking => s1.onLane lane fun a => { a with wakePending := true }
    | .down => s1
    | .bringup => s1
    | .ready => s1
    | .busy => s1
    | .paused => s1
    | .waking => s1
    | .faulted => s1
  else s1

/-! ### A module's frame as bytes (R180) -/

/-- The frames a module sends (R180). -/
inductive ModuleFrame where
  | helloReply (tag : Word16) (maxBurst : Byte) (capacity : BitVec 40) (attention : Bool)
  | ack (tag : Word16)
  | retry (tag : Word16)
  | fault (tag : Word16)
  | parkedReply (tag : Word16)
  | awake (tag : Word16)
  | attention
  deriving DecidableEq, Repr

/-- The frame of a type, tag and body; none for a type that is not a module type, or a body of another
length (R180). An attention-capable byte other than 0 is yes (log 16). -/
def moduleFrameOf (type : Nat) (tag : Word16) (body : List Byte) : Option ModuleFrame :=
  match type with
  | 0x81 =>
    if body.length = 7 then
      some (.helloReply tag (BitVec.ofNat 8 (byteAt body 0)) (BitVec.ofNat 40 (field body 1 5))
        (byteAt body 6 != 0))
    else none
  | 0x82 => if body.length = 0 then some (.ack tag) else none
  | 0x83 => if body.length = 0 then some (.retry tag) else none
  | 0x84 => if body.length = 0 then some (.fault tag) else none
  | 0x85 => if body.length = 0 then some (.parkedReply tag) else none
  | 0x86 => if body.length = 0 then some (.awake tag) else none
  | 0x87 => if body.length = 0 then some .attention else none
  | _ => none

/-- The frame that bytes on an archive link are, by the layout of R180: start byte, type, tag, body
length, body and CRC over type, tag, length and body. None for bytes that fail the check. -/
def parseModuleFrame (p : List Byte) : Option ModuleFrame :=
  let m := field p 4 4
  let inner := (p.drop 1).take (7 + m)
  if byteAt p 0 = 0xA5 ∧ p.length = 10 + m ∧ field p (8 + m) 2 = (crc16 inner).toNat then
    moduleFrameOf (byteAt p 1) (BitVec.ofNat 16 (field p 2 2)) ((p.drop 8).take m)
  else none

/-! ### Meanings -/

/-- HELLO_REPLY (R136). -/
def State.onHelloReply (s : State) (lane : Lane) (tag : Word16) (r : ModuleReport) : State :=
  if s.awaits lane .bringup tag then (s.takeReport lane r).evaluate else s

/-- ACK (R142, R145). -/
def State.onAck (s : State) (lane : Lane) (tag : Word16) : State :=
  if s.awaits lane .busy tag then (s.takeAck lane).evaluate else s

/-- RETRY (R142, R145). -/
def State.onRetry (s : State) (lane : Lane) (tag : Word16) : State :=
  if s.awaits lane .busy tag then (s.takeRetry lane).evaluate else s

/-- FAULT (R142, R145). -/
def State.onFault (s : State) (lane : Lane) (tag : Word16) : State :=
  if s.awaits lane .busy tag then (s.takeFault lane).evaluate else s

/-- PARKED-REPLY (R148). -/
def State.onParked (s : State) (lane : Lane) (tag : Word16) : State :=
  if s.awaits lane .parking tag then (s.takeParked lane).evaluate else s

/-- AWAKE (R149). -/
def State.onAwake (s : State) (lane : Lane) (tag : Word16) : State :=
  if s.awaits lane .waking tag then (s.takeAwake lane).evaluate else s

def execHelloReply (lane : Lane) (tag : Word16) (maxBurst : Byte) (capacity : BitVec 40)
    (attention : Bool) (s : State) : Host.Outcome State Fault Refusal :=
  .next (s.onHelloReply lane tag (moduleReport maxBurst capacity attention))

def execAck (lane : Lane) (tag : Word16) (s : State) : Host.Outcome State Fault Refusal :=
  .next (s.onAck lane tag)

def execRetry (lane : Lane) (tag : Word16) (s : State) : Host.Outcome State Fault Refusal :=
  .next (s.onRetry lane tag)

def execModuleFault (lane : Lane) (tag : Word16) (s : State) : Host.Outcome State Fault Refusal :=
  .next (s.onFault lane tag)

def execParkedReply (lane : Lane) (tag : Word16) (s : State) : Host.Outcome State Fault Refusal :=
  .next (s.onParked lane tag)

def execAwake (lane : Lane) (tag : Word16) (s : State) : Host.Outcome State Fault Refusal :=
  .next (s.onAwake lane tag)

def execAttention (lane : Lane) (s : State) : Host.Outcome State Fault Refusal :=
  .next (s.takeAttention lane)

/-- The bring-up timer expires (R136). -/
def execHelloTimeout (lane : Lane) (s : State) : Host.Outcome State Fault Refusal :=
  .next (if (s.lane lane).state = .bringup ∧ (s.lane lane).timer.isSome then
      (s.faultLane lane .noModule).evaluate
    else s)

/-- The response timer of an outstanding WRITE or PARK expires (R142, R145, R148). -/
def execResponseTimeout (lane : Lane) (s : State) : Host.Outcome State Fault Refusal :=
  .next (if (s.lane lane).timer.isSome then
      if (s.lane lane).state = .busy then (s.writeTimeout lane).evaluate
      else if (s.lane lane).state = .parking then (s.faultLane lane .timeout).evaluate
      else s
    else s)

/-- The wake timer expires (R149). -/
def execWakeTimeout (lane : Lane) (s : State) : Host.Outcome State Fault Refusal :=
  .next (if (s.lane lane).state = .waking ∧ (s.lane lane).timer.isSome then
      (s.faultLane lane .wakeTimeout).evaluate
    else s)

/-- A READY lane's claim has stood unanswered for a non-zero park delay (R148). -/
def execParkDelayExpiry (lane : Lane) (s : State) : Host.Outcome State Fault Refusal :=
  .next (if (s.lane lane).state = .ready ∧ (s.lane lane).settings.parkDelay ≠ 0 ∧
        (s.ds.claim.get lane).isSome then
      (s.enterParking lane).evaluate
    else s)

/-- A module's frame whose CRC, type or body length fails is discarded without effect; bytes that pass
the check are not such a frame, and are taken as the frame they are (R180; log 20). -/
def execArchiveFrameDiscarded (lane : Lane) (bytes : List Byte) (s : State) :
    Host.Outcome State Fault Refusal :=
  .next (match parseModuleFrame bytes with
    | none => s
    | some (.helloReply tag b c a) => s.onHelloReply lane tag (moduleReport b c a)
    | some (.ack tag) => s.onAck lane tag
    | some (.retry tag) => s.onRetry lane tag
    | some (.fault tag) => s.onFault lane tag
    | some (.parkedReply tag) => s.onParked lane tag
    | some (.awake tag) => s.onAwake lane tag
    | some .attention => s.takeAttention lane)

end Sys2Proof.Machine
end

