-- ==== Sys2Proof/Machine/Runs.lean ====
section
/-! DEFINITION. Machine/Runs.lean: the run commands and events: ARM RUN to MARK, the sample bus, and the stop deadline (R27 to R42, R50, R51, R74). -/

namespace Sys2Proof.Machine

/-! ### ARM RUN (R27, R28) -/

/-- The sources named in a mask and enabled (R27). -/
def State.armSet (s : State) (mask : Nat) : PerSource Bool :=
  let f := fun src => inMask mask src && (s.settings src).enabled
  ⟨f .s0, f .s1, f .s2, f .s3⟩

def PerSource.anySource (v : PerSource Bool) : Bool := v.s0 || v.s1 || v.s2 || v.s3

/-- Check 3 of R27: the mask names an enabled source. -/
def Status.ofMask (s : State) : Option ArmOperands → Status
  | some a => if (s.armSet a.mask).anySource then .ok else .badValue
  | none => .badValue

/-- The checks of R27 in order. -/
def armCheck (p : List Byte) (s : State) : Status :=
  (Status.ofState (s.rc.runState == .idle)).andThen
    ((Status.ofFields (decodeArm p)).andThen (Status.ofMask s (decodeArm p)))

/-- The run is armed; the last end cause and the last epoch seen stay (R28). -/
def State.arm (s : State) (a : ArmOperands) : State :=
  (s.setRc { s.rc with
    runState := .armed
    runId := some a.runId
    sourceSet := s.armSet a.mask
    start := a.start
    startEpoch := none
    deadline := a.seconds
    expired := false
    nextSeq := .number 0
    counters := .zero }).calmAll

/-- ARM RUN's effect: with start NOW the run enters RUNNING at once, its start epoch the last epoch
seen (R28, R30). -/
def armEffect (p : List Byte) (s : State) : State :=
  match decodeArm p with
  | none => s
  | some a =>
    match a.start with
    | .now => (s.arm a).enterRunning s.rc.lastEpoch
    | .atEpoch _ => s.arm a

def armCommand : Command where
  code := 0x10
  len := 8
  check := armCheck
  payload := noPayload
  effect := armEffect

/-! ### STOP RUN (R31) -/

/-- A run stopped before its start (R31). -/
def State.stopArmed (s : State) : State :=
  (s.setRc { s.rc with runState := .idle, lastEnd := .stoppedBeforeStart }).setFlag .runEnded

def stopEffect (_ : List Byte) (s : State) : State :=
  match s.rc.runState with
  | .idle => s
  | .armed => s.stopArmed
  | .running => s.enterStopping.evaluate
  | .stopping => s
  | .ending => s

def notIdle (_ : List Byte) (s : State) : Status := .ofState (s.rc.runState != .idle)

def stopCommand : Command where
  code := 0x11
  len := 0
  check := notIdle
  payload := noPayload
  effect := stopEffect

/-! ### ABORT RUN (R38, R25, R131) -/

/-- Step 1 for one lane: its job is cancelled and not reported, and a BUSY lane takes its next state by
R146 (R38, R144). -/
def State.abortLane (lane : Lane) (s : State) : State :=
  if (s.lane lane).state = .busy then (s.abortJob lane).nextLaneState lane else s

/-- Step 2: every slot is released as discarded in one step, with a single report of the occupancy
(R25). -/
def State.discardAll (s : State) : State :=
  let n := s.st.slots.length
  let u := s.st.occupancy
  let s1 := (s.setSt .empty).onCounters fun c =>
    { c with discarded := c.discarded + BitVec.ofNat 64 n }
  let s2 := s1.setSe ⟨none, none, none, none⟩
  if u = 0 then s2 else s2.occupancyChanged u 0

/-- Step 3: both buffers are emptied, the writing record and the waiting offers dropped, the timer
stopped and the lock cleared; the block sequence, the back-links and the settings stay (R38, R156). -/
def IndexUnit.abort (u : IndexUnit) : IndexUnit :=
  { u with
    buffers := ⟨.empty, .empty⟩
    writing := none
    waitSpans := []
    waitRunEnd := none
    timer := none
    lock := false }

/-- Step 4 (R45). -/
def IntakeSource.abort (i : IntakeSource) : IntakeSource :=
  { i with intake := .idle, tagPending := false, pendingGap := none, offeredGap := none }

/-- ABORT RUN: the pair context and the index go with the lanes' jobs, before any lane takes its next
state, so that no job end reaches them; then the table, the intake, the windows, the timer and the run
state; a lane whose pair role has ended claims; and the claims are evaluated last (R38; log 12). -/
def State.abortRun (s : State) : State :=
  let s1 := (s.setPair none).setIu s.iu.abort
  let s2 := (forLanes State.abortLane s1).discardAll
  let s3 := s2.setCi ⟨s2.ci.s0.abort, s2.ci.s1.abort, s2.ci.s2.abort, s2.ci.s3.abort⟩
  let s4 := s3.setTwu ⟨.reset, .reset, .reset, .reset⟩
  let s5 := s4.setRc { s4.rc with deadlineTimer := none, runState := .idle, lastEnd := .aborted }
  (s5.calmAll.setFlag .runEnded).rolesEnded.evaluate

def abortCommand : Command where
  code := 0x12
  len := 0
  check := notIdle
  payload := noPayload
  effect := fun _ s => s.abortRun

/-! ### READ RUN and MARK (R41, R74) -/

def readRunCommand : Command where
  code := 0x13
  len := 0
  check := alwaysOk
  payload := fun _ s => readRun s
  effect := noEffect

def markCheck (p : List Byte) (s : State) : Status :=
  (Status.ofState (s.rc.runState == .running)).andThen (.ofFields (decodeMask p))

/-- MARK pending is set on a named source that is taking samples (R74). -/
def State.markSource (mask : Nat) (src : Source) (s : State) : State :=
  if inMask mask src && (s.intake src).intake.takes then
    s.onWindow src fun w => { w with markPending := true }
  else s

def markEffect (p : List Byte) (s : State) : State := forSources (State.markSource (byteAt p 0)) s

def markCommand : Command where
  code := 0x18
  len := 1
  check := markCheck
  payload := noPayload
  effect := markEffect

/-! ### The sample bus (R29, R42, R50, R51) -/

/-- Tag pending is set on a named source that is taking samples (R51). -/
def State.tagSource (mask : Nat) (src : Source) (s : State) : State :=
  if inMask mask src && (s.intake src).intake.takes then
    s.onIntake src fun i => { i with tagPending := true }
  else s

/-- An epoch mark becomes the last epoch seen, and starts a run that is armed for it (R29). -/
def State.takeEpoch (s : State) (e : Word16) : State :=
  let s1 := s.setRc { s.rc with lastEpoch := some e }
  if s.rc.runState = .armed ∧ s.rc.start = .atEpoch e then s1.enterRunning (some e) else s1

/-! ### The stop deadline (R35) -/

/-- The QUEUED slots, in slot order (log 8). -/
def SpanTable.queuedSlots (t : SpanTable) : List Nat :=
  (t.slots.filter fun p => decide (p.2.state = .queued)).map Prod.fst

/-- The stop deadline timer expires in STOPPING (R35). -/
def State.deadlineExpired (s : State) : State :=
  let s1 := (s.setRc { s.rc with deadlineTimer := none, expired := true }).setFlag .stopDeadline
  (State.eachSlot State.disposeQueued s1 s1.st.queuedSlots).evaluate

/-! ### Meanings -/

def execArmRun (s : State) : Host.Outcome State Fault Refusal := .next (armCommand.take s)

def execStopRun (s : State) : Host.Outcome State Fault Refusal := .next (stopCommand.take s)

def execAbortRun (s : State) : Host.Outcome State Fault Refusal := .next (abortCommand.take s)

def execReadRun (s : State) : Host.Outcome State Fault Refusal := .next (readRunCommand.take s)

def execMark (s : State) : Host.Outcome State Fault Refusal := .next (markCommand.take s)

/-- SAMPLE_PACKET: the packet is taken whole, and then the claims are evaluated (R50, R102). -/
def execSamplePacket (src : Source) (samples : List Sample) (s : State) :
    Host.Outcome State Fault Refusal :=
  .next (s.takePacket src samples).evaluate

/-- TRIGGER_TAG (R51). -/
def execTriggerTag (mask : BitVec 4) (s : State) : Host.Outcome State Fault Refusal :=
  .next (forSources (State.tagSource mask.toNat) s)

/-- EPOCH_MARK (R29). -/
def execEpochMark (epoch : Word16) (s : State) : Host.Outcome State Fault Refusal :=
  .next (s.takeEpoch epoch)

/-- STOP_DEADLINE_EXPIRY: the timer runs only in STOPPING; a stopped timer does not expire (R35; log
27). -/
def execStopDeadlineExpiry (s : State) : Host.Outcome State Fault Refusal :=
  .next (if s.rc.runState = .stopping ∧ s.rc.deadlineTimer.isSome then s.deadlineExpired else s)

end Sys2Proof.Machine
end

