-- ==== Sys2Proof/Machine/Settings.lean ====
section
/-! DEFINITION. Machine/Settings.lean: the commands that set and read the sources, the spool, the table, the checkpoint, the index and the notices, and the checkpoint timer's events (R22, R23, R43, R58, R88, R99, R132, R160, R165 to R169, R174 to R177). -/

namespace Sys2Proof.Machine

/-! ### IDENTIFY and RESET PART (R176, R177) -/

def identifyCommand : Command where
  code := 0x01
  len := 0
  check := alwaysOk
  payload := fun _ _ => identity
  effect := noEffect

/-- The newest outgoing frame, the reply to RESET PART, is the one whose leaving resets the part. -/
def markReset : List OutFrame → List OutFrame
  | [] => []
  | [f] => [{ f with resets := true }]
  | f :: rest => f :: markReset rest

/-- RESET PART only replies; from then on the port takes no command, and the reset takes place as the
reply leaves (R177). -/
def resetEffect (_ : List Byte) (s : State) : State :=
  s.setClp { s.clp with out := markReset s.clp.out }

def resetCommand : Command where
  code := 0x02
  len := 0
  check := alwaysOk
  payload := noPayload
  effect := resetEffect

/-! ### SET SOURCE and READ SOURCE (R43, R44, R58, R92) -/

/-- Check 3 of R43. -/
def Status.ofFit (s : State) : Option (Source × SourceSettings) → Status
  | some (_, set) => if set.fits s.spm.boundary then .ok else .badValue
  | none => .badValue

def setSourceCheck (p : List Byte) (s : State) : Status :=
  (Status.ofState (s.rc.runState == .idle)).andThen
    ((Status.ofFields (decodeSource p)).andThen (Status.ofFit s (decodeSource p)))

/-- All the fields as they now stand (R44). -/
def setSourcePayload (p : List Byte) (_ : State) : List Byte :=
  match decodeSource p with
  | some (src, set) => leBytes 1 src.num ++ set.bytes
  | none => []

/-- Every setting of the source is replaced, and the source becomes CALM (R44, R92). -/
def setSourceEffect (p : List Byte) (s : State) : State :=
  match decodeSource p with
  | some (src, set) =>
    (s.onIntake src fun i => { i with settings := set }).setSpm
      { s.spm with pressure := s.spm.pressure.set src .calm }
  | none => s

def setSourceCommand : Command where
  code := 0x20
  len := 24
  check := setSourceCheck
  payload := setSourcePayload
  effect := setSourceEffect

def readSourceCommand : Command where
  code := 0x21
  len := 1
  check := fun p _ => .ofFields (Source.ofNum (byteAt p 0))
  payload := fun p s =>
    match Source.ofNum (byteAt p 0) with
    | some src => readSource s src
    | none => []
  effect := noEffect

/-! ### SET SPOOL and READ SPOOL (R88, R89, R92, R99) -/

/-- Check 3 of R88, against the settings each source holds. -/
def Status.ofSpool (s : State) : Option SpoolOperands → Status
  | some o =>
    if Source.all.all fun src => (s.settings src).fits o.boundary then .ok else .badValue
  | none => .badValue

def setSpoolCheck (p : List Byte) (s : State) : Status :=
  (Status.ofFields (decodeSpool p)).andThen (Status.ofSpool s (decodeSpool p))

def PressureMonitor.adopt (m : PressureMonitor) (o : SpoolOperands) : PressureMonitor :=
  { m with boundary := o.boundary, notify := o.notify, limit := o.limit }

/-- The values now in force (R89). -/
def setSpoolPayload (p : List Byte) (s : State) : List Byte :=
  match decodeSpool p with
  | some o => (s.spm.adopt o).setBytes
  | none => []

/-- The values are replaced together, and every enabled source is evaluated against the occupancy; no
crossing is looked for (R89, R92). -/
def setSpoolEffect (p : List Byte) (s : State) : State :=
  match decodeSpool p with
  | some o => (s.setSpm (s.spm.adopt o)).evalAllPressure s.st.occupancy
  | none => s

def setSpoolCommand : Command where
  code := 0x28
  len := 10
  check := setSpoolCheck
  payload := setSpoolPayload
  effect := setSpoolEffect

def readSpoolCommand : Command where
  code := 0x29
  len := 0
  check := alwaysOk
  payload := fun _ s => readSpool s
  effect := noEffect

/-! ### READ SPAN, READ QUEUE and READ PAIR (R22, R23, R132) -/

def readSpanCommand : Command where
  code := 0x30
  len := 7
  check := fun p _ => .ofFields (decodeSpanName p)
  payload := fun p s =>
    match decodeSpanName p with
    | some n => readSpan s n
    | none => []
  effect := noEffect

def readQueueCommand : Command where
  code := 0x31
  len := 3
  check := fun p _ => .ofFields (Source.ofNum (byteAt p 0))
  payload := fun p s =>
    match Source.ofNum (byteAt p 0) with
    | some src => readQueue s src (field p 1 2)
    | none => []
  effect := noEffect

def readPairCommand : Command where
  code := 0x38
  len := 0
  check := alwaysOk
  payload := fun _ s => readPair s
  effect := noEffect

/-! ### SET CHECKPOINT, CHECKPOINT NOW and READ INDEX (R160, R165, R169) -/

def setCheckpointPayload (p : List Byte) (_ : State) : List Byte :=
  match decodeCheckpoint p with
  | some o => o.bytes
  | none => []

/-- The settings, loaded at the next reload of the timer (R165). -/
def setCheckpointEffect (p : List Byte) (s : State) : State :=
  match decodeCheckpoint p with
  | some o => s.setIu { s.iu with periodSetting := o.period, lockSetting := o.lockTime }
  | none => s

def setCheckpointCommand : Command where
  code := 0x50
  len := 4
  check := fun p _ => .ofFields (decodeCheckpoint p)
  payload := setCheckpointPayload
  effect := setCheckpointEffect

/-- The run states in which CHECKPOINT NOW is taken (R160). -/
def checkpointCheck (_ : List Byte) (s : State) : Status :=
  .ofState (s.rc.runState == .running || s.rc.runState == .stopping)

def checkpointNowCommand : Command where
  code := 0x51
  len := 0
  check := checkpointCheck
  payload := noPayload
  effect := fun _ s => s.closeFilling.evaluate

def readIndexCommand : Command where
  code := 0x52
  len := 0
  check := alwaysOk
  payload := fun _ s => readIndex s
  effect := noEffect

/-! ### SET NOTICES, READ NOTICES and CLEAR NOTICES (R174, R175) -/

/-- Classes and enables replaced together; a disabled class loses its owed mark (R173, R174). -/
def NoticeUnit.adopt (n : NoticeUnit) (o : NoticeOperands) : NoticeUnit :=
  { n with
    classOf := o.classOf
    enable := o.enable
    owed := ⟨n.owed.a0 && o.enable.a0, n.owed.a1 && o.enable.a1, n.owed.a2 && o.enable.a2,
      n.owed.a3 && o.enable.a3⟩ }

/-- Whether a pending flag of a class comes from another class of an earlier arrangement. -/
def NoticeUnit.gains (new old : NoticeUnit) (c : Fin 4) : Bool :=
  Flag.all.any fun f => new.isPending f && decide (new.cls f = c) && decide (old.cls f ≠ c)

/-- After the replacement a class now enabled with a flag pending queues one notice, if it was disabled
before or has gained a pending flag (R174). -/
def State.noticeGained (old : NoticeUnit) (s : State) (c : Fin 4) : State :=
  if s.nu.enable.get c && decide (s.nu.pendingIn c ≠ 0) &&
      (!old.enable.get c || s.nu.gains old c) then s.noticeOrOwe c
  else s

def setNoticesEffect (p : List Byte) (s : State) : State :=
  match decodeNotices p with
  | some o => [0, 1, 2, 3].foldl (State.noticeGained s.nu) (s.setNu (s.nu.adopt o))
  | none => s

def setNoticesPayload (p : List Byte) (_ : State) : List Byte :=
  match decodeNotices p with
  | some o => o.bytes
  | none => []

def setNoticesCommand : Command where
  code := 0x60
  len := 18
  check := fun p _ => .ofFields (decodeNotices p)
  payload := setNoticesPayload
  effect := setNoticesEffect

def readNoticesCommand : Command where
  code := 0x61
  len := 0
  check := alwaysOk
  payload := fun _ s => readNotices s
  effect := noEffect

/-- Each named flag becomes clear (R175). -/
def clearNoticesEffect (p : List Byte) (s : State) : State :=
  match decodeFlags p with
  | some v => s.setNu { s.nu with flags := s.nu.flags &&& ~~~v }
  | none => s

def clearNoticesCommand : Command where
  code := 0x62
  len := 3
  check := fun p _ => .ofFields (decodeFlags p)
  payload := noPayload
  effect := clearNoticesEffect

/-! ### The checkpoint timer (R165 to R167) -/

/-- Whether either buffer is CLOSED or WRITING, so that an expiry is late (R167). -/
def BufferState.taken : BufferState → Bool
  | .empty => false
  | .filling => false
  | .closed => true
  | .writing => true

/-- The timer reloads with the settings, and the lock goes off (R165, R166, R167). -/
def IndexUnit.reload (u : IndexUnit) : IndexUnit :=
  { u with
    period := u.periodSetting
    lockTime := u.lockSetting
    timer := some u.periodSetting
    lock := false }

/-- An expiry is late: it closes nothing, CHECKPOINT_LATE is set and the late expiry counted (R167). -/
def State.lateExpiry (s : State) : State :=
  (s.setFlag .checkpointLate).onCounters fun c => { c with checkpointsLate := c.checkpointsLate + 1 }

/-- The checkpoint timer expires: a block is late, or the FILLING buffer closes, or nothing closes; the
timer reloads in every case, and the claims are evaluated as the lock goes off (R166, R167). -/
def State.checkpointExpired (s : State) : State :=
  let s1 :=
    if (s.buffer .a).state.taken || (s.buffer .b).state.taken then s.lateExpiry else s.closeFilling
  (s1.setIu s1.iu.reload).evaluate

/-! ### Meanings -/

def execIdentify (s : State) : Host.Outcome State Fault Refusal := .next (identifyCommand.take s)

def execResetPart (s : State) : Host.Outcome State Fault Refusal := .next (resetCommand.take s)

def execSetSource (s : State) : Host.Outcome State Fault Refusal := .next (setSourceCommand.take s)

def execReadSource (s : State) : Host.Outcome State Fault Refusal := .next (readSourceCommand.take s)

def execSetSpool (s : State) : Host.Outcome State Fault Refusal := .next (setSpoolCommand.take s)

def execReadSpool (s : State) : Host.Outcome State Fault Refusal := .next (readSpoolCommand.take s)

def execReadSpan (s : State) : Host.Outcome State Fault Refusal := .next (readSpanCommand.take s)

def execReadQueue (s : State) : Host.Outcome State Fault Refusal := .next (readQueueCommand.take s)

def execReadPair (s : State) : Host.Outcome State Fault Refusal := .next (readPairCommand.take s)

def execSetCheckpoint (s : State) : Host.Outcome State Fault Refusal :=
  .next (setCheckpointCommand.take s)

def execCheckpointNow (s : State) : Host.Outcome State Fault Refusal :=
  .next (checkpointNowCommand.take s)

def execReadIndex (s : State) : Host.Outcome State Fault Refusal := .next (readIndexCommand.take s)

def execSetNotices (s : State) : Host.Outcome State Fault Refusal := .next (setNoticesCommand.take s)

def execReadNotices (s : State) : Host.Outcome State Fault Refusal := .next (readNoticesCommand.take s)

def execClearNotices (s : State) : Host.Outcome State Fault Refusal :=
  .next (clearNoticesCommand.take s)

/-- CHECKPOINT_LOCK_ON: the lock comes on while the timer runs, unless the current lock is 0 (R166; log
2, 27). -/
def execCheckpointLockOn (s : State) : Host.Outcome State Fault Refusal :=
  .next (if s.iu.timer.isSome ∧ s.iu.lockTime ≠ 0 then s.setIu { s.iu with lock := true } else s)

/-- CHECKPOINT_EXPIRY: a stopped timer does not expire (R167; log 27). -/
def execCheckpointExpiry (s : State) : Host.Outcome State Fault Refusal :=
  .next (if s.iu.timer.isSome then s.checkpointExpired else s)

end Sys2Proof.Machine
end

