-- ==== Sys2Proof/Machine/Dispatch.lean ====
section
/-! DEFINITION. Machine/Dispatch.lean: one arm for each command, each a call of its meaning. -/

namespace Sys2Proof.Machine

def exec (i : Instr) (s : State) : Host.Outcome State Fault Refusal :=
  match i with
  | .powerOn => Sys2Proof.Machine.execPowerOn s
  | .commandFrame bytes => Sys2Proof.Machine.execCommandFrame bytes s
  | .chipSelectRelease => Sys2Proof.Machine.execChipSelectRelease s
  | .frameLeavesQueue => Sys2Proof.Machine.execFrameLeavesQueue s
  | .identify => Sys2Proof.Machine.execIdentify s
  | .resetPart => Sys2Proof.Machine.execResetPart s
  | .armRun => Sys2Proof.Machine.execArmRun s
  | .stopRun => Sys2Proof.Machine.execStopRun s
  | .abortRun => Sys2Proof.Machine.execAbortRun s
  | .readRun => Sys2Proof.Machine.execReadRun s
  | .mark => Sys2Proof.Machine.execMark s
  | .setSource => Sys2Proof.Machine.execSetSource s
  | .readSource => Sys2Proof.Machine.execReadSource s
  | .setSpool => Sys2Proof.Machine.execSetSpool s
  | .readSpool => Sys2Proof.Machine.execReadSpool s
  | .readSpan => Sys2Proof.Machine.execReadSpan s
  | .readQueue => Sys2Proof.Machine.execReadQueue s
  | .readPair => Sys2Proof.Machine.execReadPair s
  | .setLane => Sys2Proof.Machine.execSetLane s
  | .laneReset => Sys2Proof.Machine.execLaneReset s
  | .laneOffline => Sys2Proof.Machine.execLaneOffline s
  | .lanePause => Sys2Proof.Machine.execLanePause s
  | .laneResume => Sys2Proof.Machine.execLaneResume s
  | .lanePark => Sys2Proof.Machine.execLanePark s
  | .laneWake => Sys2Proof.Machine.execLaneWake s
  | .readLane => Sys2Proof.Machine.execReadLane s
  | .setCheckpoint => Sys2Proof.Machine.execSetCheckpoint s
  | .checkpointNow => Sys2Proof.Machine.execCheckpointNow s
  | .readIndex => Sys2Proof.Machine.execReadIndex s
  | .setNotices => Sys2Proof.Machine.execSetNotices s
  | .readNotices => Sys2Proof.Machine.execReadNotices s
  | .clearNotices => Sys2Proof.Machine.execClearNotices s
  | .samplePacket src samples => Sys2Proof.Machine.execSamplePacket src samples s
  | .triggerTag mask => Sys2Proof.Machine.execTriggerTag mask s
  | .epochMark epoch => Sys2Proof.Machine.execEpochMark epoch s
  | .helloReply lane tag maxBurst capacity attention => Sys2Proof.Machine.execHelloReply lane tag maxBurst capacity attention s
  | .helloTimeout lane => Sys2Proof.Machine.execHelloTimeout lane s
  | .ack lane tag => Sys2Proof.Machine.execAck lane tag s
  | .retry lane tag => Sys2Proof.Machine.execRetry lane tag s
  | .moduleFault lane tag => Sys2Proof.Machine.execModuleFault lane tag s
  | .responseTimeout lane => Sys2Proof.Machine.execResponseTimeout lane s
  | .parkDelayExpiry lane => Sys2Proof.Machine.execParkDelayExpiry lane s
  | .parkedReply lane tag => Sys2Proof.Machine.execParkedReply lane tag s
  | .awake lane tag => Sys2Proof.Machine.execAwake lane tag s
  | .wakeTimeout lane => Sys2Proof.Machine.execWakeTimeout lane s
  | .attention lane => Sys2Proof.Machine.execAttention lane s
  | .archiveFrameDiscarded lane bytes => Sys2Proof.Machine.execArchiveFrameDiscarded lane bytes s
  | .checkpointLockOn => Sys2Proof.Machine.execCheckpointLockOn s
  | .checkpointExpiry => Sys2Proof.Machine.execCheckpointExpiry s
  | .stopDeadlineExpiry => Sys2Proof.Machine.execStopDeadlineExpiry s
  | .badCode => Sys2Proof.Machine.execBadCode s

end Sys2Proof.Machine
end

