-- ==== Sys2Proof/Machine/Time.lean ====
section
/-! DEFINITION. Machine/Time.lean: one millisecond passes: the step of the part on an empty queue (log 2). -/

namespace Sys2Proof.Machine

/-- A timer counts down and stays at 0 until its expiry row is taken (log 2). -/
def countDown (t : Option Nat) : Option Nat := t.map fun n => n - 1

/-- One millisecond passes for every timer that runs: the stop deadline, the checkpoint timer and the
exchange of each lane. -/
def State.tick (s : State) : State :=
  let s1 := (s.setNow (s.now + 1)).setRc { s.rc with deadlineTimer := countDown s.rc.deadlineTimer }
  let s2 := s1.setIu { s.iu with timer := countDown s.iu.timer }
  s2.setAl
    ⟨{ s.al.l0 with timer := countDown s.al.l0.timer }, { s.al.l1 with timer := countDown s.al.l1.timer }⟩

/-- The state in which a command taken from the front of the queue is carried out: the queue's rest. -/
def State.withPending (s : State) (cs : List Instr) : State := { s with pending := cs }

end Sys2Proof.Machine
end

