-- ==== Sys2Proof/Safety.lean ====
section
/-! DEFINITION. Safety.lean: the laws that every step of the part keeps, and the words the statements are made in. -/

namespace Sys2Proof.Machine

/-! ### The span table (R1, R16, R19) -/

/-- Slots listed above `low`, strictly rising, and below the slot count. -/
def slotsFrom (low : Nat) : List (Nat × Span) → Bool
  | [] => true
  | (n, _) :: rest => decide (low ≤ n) && decide (n < Config.slotCount) && slotsFrom (n + 1) rest

/-- The table lists each non-FREE slot once, in slot order, and occupancy is the number of slots not in
state FREE (R19). -/
structure TableOk (t : SpanTable) : Prop where
  slots : slotsFrom 0 t.slots = true
  occupancy : t.occupancy = t.slots.length

/-- A queue lists each QUEUED span of its source once, in sequence order, and nothing else (R16). -/
structure QueueOk (slots : List (Nat × Span)) (src : Source) (q : List Nat) : Prop where
  once : q.Nodup
  listed : ∀ slot, slot ∈ q ↔
    ∃ sp, findSlot slots slot = some sp ∧ sp.source = src ∧ sp.state = .queued
  ordered : q.Pairwise fun m n =>
    ∀ x y, findSlot slots m = some x → findSlot slots n = some y → x.seq ≤ y.seq

/-- The law of R16 for the queue of every source. -/
def QueueLaw (t : SpanTable) : Prop := ∀ src, QueueOk t.slots src (t.queues.get src)

/-! ### The index buffers (R156, R157) -/

/-- A buffer holds at most 63 entries, a FILLING one fewer, an EMPTY one none; at most one buffer is
FILLING; and the WRITING buffer is the one that the writing record names, so that there is at most one
(R156, R157). -/
structure IndexLaw (u : IndexUnit) : Prop where
  entries : ∀ b, (u.buffers.get b).entries.length ≤ 63
  filling : ∀ b, (u.buffers.get b).state = .filling → (u.buffers.get b).entries.length < 63
  empty : ∀ b, (u.buffers.get b).state = .empty → (u.buffers.get b).entries = []
  oneFilling : ∀ b c, (u.buffers.get b).state = .filling → (u.buffers.get c).state = .filling → b = c
  writing : ∀ b, (u.buffers.get b).state = .writing ↔ ∃ w, u.writing = some w ∧ w.buffer = b

/-! ### The run (R33, R40, R46, R168) -/

/-- The law of R40: issued = slots holding spans + indexed + shed + recycled + discarded, as 64-bit
counts. -/
def CountLaw (s : State) : Prop :=
  s.rc.counters.issued =
    BitVec.ofNat 64 s.st.slots.length + s.rc.counters.indexed + s.rc.counters.shed +
      s.rc.counters.recycled + s.rc.counters.discarded

/-- A source takes samples only in RUNNING, and only as a source of the run (R46). -/
def IntakeLaw (s : State) : Prop :=
  ∀ src, (s.intake src).intake.takes = true → s.rc.runState = .running ∧ s.rc.sourceSet.get src = true

/-- The run states in which every slot is FREE (R24, R33). -/
def RunState.slotsFree : RunState → Bool
  | .idle => true
  | .armed => true
  | .ending => true
  | .running => false
  | .stopping => false

/-- In IDLE, ARMED and ENDING every slot is FREE (R24, R33). -/
def FreeLaw (s : State) : Prop := s.rc.runState.slotsFree = true → s.st.slots = []

/-- RUN_END offers admitted to a buffer or waiting. -/
def IndexUnit.runEnds (u : IndexUnit) : Nat :=
  u.buffers.a.final.toNat + u.buffers.b.final.toNat + u.waitRunEnd.isSome.toNat

/-- There is at most one RUN_END, and only in ENDING (R34, R168); `more` counts those about to be
offered. -/
def EndLaw (more : Nat) (s : State) : Prop :=
  s.iu.runEnds + more ≤ 1 ∧ (1 ≤ s.iu.runEnds + more → s.rc.runState = .ending)

/-- The laws of a run, with `more` RUN_END offers about to be made. -/
structure RunLawWith (more : Nat) (s : State) : Prop where
  table : TableOk s.st
  queues : QueueLaw s.st
  index : IndexLaw s.iu
  count : CountLaw s
  intake : IntakeLaw s
  free : FreeLaw s
  ends : EndLaw more s

/-- The laws of a run. -/
abbrev RunLaw (s : State) : Prop := RunLawWith 0 s

/-- While an index buffer can take an entry, no offer waits: no span's entry, no gap's and no RUN_END (R159,
R163). -/
def OfferLaw (s : State) : Prop :=
  s.target ≠ none →
    s.iu.waitSpans = [] ∧ (∀ src, (s.intake src).offeredGap = none) ∧ s.iu.waitRunEnd = none

/-! ### The archive windows (R101, R115, R137, R138) -/

/-- States of a lane that is up and awaits nothing from its module. -/
def LaneState.rests : LaneState → Bool
  | .ready => true
  | .paused => true
  | .parked => true
  | .down => false
  | .bringup => false
  | .busy => false
  | .parking => false
  | .waking => false
  | .faulted => false

/-- A lane and its standing claim: the data cursor is at most the index cursor plus 1 (R137); data-full and
index-full are as the cursors give them (R138); a claim stands only in READY and PARKED, and is FULL only
while the lane is not data-full (R101); nothing is outstanding in READY, PAUSED and PARKED, nor in BUSY
without a job (R139); and an index job is that of a BUSY lane with room for its block (R145). -/
structure LaneFit (a : LaneUnit) (claim : Option Claim) : Prop where
  cursors : (a.dataCursor : Int) ≤ a.indexCursor + 1
  dataFull : a.dataFull = a.isDataFull
  indexFull : a.indexFull = a.isIndexFull
  claim : ∀ c, claim = some c → a.state.claims = true ∧ (c.kind = .full → a.dataFull = false)
  rests : a.state.rests = true → a.timer = none
  busy : a.state = .busy → a.job = none → a.timer = none
  index : ∀ j, a.job = some (.index j) → a.state = .busy ∧ a.indexFull = false

/-- The leader of a FORMING pair: BUSY with a span write that has sent nothing, and not data-full
(R115). -/
structure Waits (a : LaneUnit) : Prop where
  state : a.state = .busy
  timer : a.timer = none
  dataFull : a.dataFull = false
  job : ∃ j, a.job = some (.span j)

/-- The law of the lanes. -/
structure LaneLaw (s : State) : Prop where
  fit : ∀ l, LaneFit (s.lane l) (s.ds.claim.get l)
  forming : ∀ c, s.ds.pair = some c → c.phase = .forming → Waits (s.lane c.leader)

/-- Spans are no longer than their sources' settings allow: span lengths go up to 2^23 samples, no span is
longer, a FILLING span is shorter than the length at which it seals, and a source holds at most one
(R11, R43, R52). -/
structure SpanLaw (s : State) : Prop where
  spanExp : ∀ src, 1 ≤ (s.settings src).spanExp ∧ (s.settings src).spanExp ≤ 23
  count : ∀ p ∈ s.st.slots, p.2.count ≤ 2 ^ 23
  filling : ∀ p ∈ s.st.slots, p.2.state = .filling → p.2.count < 2 ^ (s.settings p.2.source).spanExp
  one : ∀ p ∈ s.st.slots, ∀ q ∈ s.st.slots, p.2.state = .filling → q.2.state = .filling →
    p.2.source = q.2.source → p.1 = q.1

/-- The law of the archive windows, with what keeps it: no reservation passes the index cursor plus 1
(R137). -/
structure WindowLaw (s : State) : Prop where
  lanes : LaneLaw s
  spans : SpanLaw s

/-! ### The control link (R170, R171) -/

/-- The bytes clocked out of the oldest outgoing frame are fewer than it has, and none with an empty queue
(R171). -/
def LinkPort.posOk (c : LinkPort) : Prop :=
  match c.out with
  | [] => c.outPos = 0
  | f :: _ => c.outPos < f.bytes.length

/-- The bounds of the port: a frame part-way in is shorter than the longest frame, the receive buffer
holds up to 4 frames and the outgoing queue up to 16, the link error count stays at 65535, and the frame
part-way out is not yet out. -/
structure LinkOk (c : LinkPort) : Prop where
  part : c.rxPart.length < 8 + Config.maxPayload
  rx : c.rx.length ≤ Config.rxFrames
  out : c.out.length ≤ 16
  errors : c.linkErrors ≤ 65535
  pos : c.posOk

/-! ### Spool memory (R1) -/

/-- Spool memory has its canonical form. -/
def MemOk (s : State) : Prop := Memory.wf s.mem = true

/-! ### The order of a run's states (R28 to R34) -/

/-- The run state moves from RUNNING over STOPPING and ENDING to IDLE, and never back, except that a
command or an epoch mark arms or starts a run. -/
def RunState.forward : RunState → RunState → Bool
  | .running, t => t == .running || t == .stopping || t == .ending || t == .idle
  | .stopping, t => t == .stopping || t == .ending || t == .idle
  | .ending, t => t == .ending || t == .idle
  | .idle, t => t == .idle
  | .armed, t => t == .armed || t == .idle

/-! ### What the effects inside a step leave unchanged -/

/-- What no effect inside a step changes of a lane but SET LANE, a module report, ATTENTION and READ
LANE; the data cursor and the dead space only grow and the index cursor only falls (R137). -/
structure LaneKept (x y : LaneUnit) : Prop where
  settings : y.settings = x.settings
  report : y.report = x.report
  effBurst : y.effBurst = x.effBurst
  effWake : y.effWake = x.effWake
  attentionSeen : y.attentionSeen = x.attentionSeen
  dataCursor : x.dataCursor ≤ y.dataCursor
  indexCursor : y.indexCursor ≤ x.indexCursor
  deadSpace : x.deadSpace ≤ y.deadSpace

/-- The outgoing queue grows by notices only, and only up to 15 frames (R171). -/
def OutGrows (x y : List OutFrame) : Prop :=
  ∃ more, y = x ++ more ∧ (∀ f ∈ more, f.kind = .notice ∧ f.resets = false) ∧
    (more = [] ∨ y.length ≤ 15)

/-- What an effect inside a step holds to: the model's own queue and clock, the receive side of the port,
the settings and what a run was armed with stay; the flags, the outgoing queue and the archive links only
gain; the run only moves forward. -/
structure Held (s t : State) : Prop where
  pending : t.pending = s.pending
  now : t.now = s.now
  wire : ∀ lane, s.wire.get lane <+: t.wire.get lane
  clocked : t.clocked = s.clocked
  rxPart : t.clp.rxPart = s.clp.rxPart
  rx : t.clp.rx = s.clp.rx
  linkErrors : t.clp.linkErrors = s.clp.linkErrors
  outPos : t.clp.outPos = s.clp.outPos
  out : OutGrows s.clp.out t.clp.out
  flags : ∀ f, s.nu.isPending f = true → t.nu.isPending f = true
  classOf : t.nu.classOf = s.nu.classOf
  enable : t.nu.enable = s.nu.enable
  run : s.rc.runState.forward t.rc.runState = true
  runId : t.rc.runId = s.rc.runId
  sourceSet : t.rc.sourceSet = s.rc.sourceSet
  start : t.rc.start = s.rc.start
  startEpoch : t.rc.startEpoch = s.rc.startEpoch
  lastEpoch : t.rc.lastEpoch = s.rc.lastEpoch
  deadline : t.rc.deadline = s.rc.deadline
  expired : t.rc.expired = s.rc.expired
  settings : ∀ src, t.settings src = s.settings src
  boundary : t.spm.boundary = s.spm.boundary
  notify : t.spm.notify = s.spm.notify
  limit : t.spm.limit = s.spm.limit
  periodSetting : t.iu.periodSetting = s.iu.periodSetting
  lockSetting : t.iu.lockSetting = s.iu.lockSetting
  period : t.iu.period = s.iu.period
  lockTime : t.iu.lockTime = s.iu.lockTime
  lanes : ∀ lane, LaneKept (s.lane lane) (t.lane lane)

/-- A record of the same span, with the same samples, which is FILLING only if it was. -/
structure SpanKept (x y : Span) : Prop where
  runId : y.runId = x.runId
  seq : y.seq = x.seq
  source : y.source = x.source
  first : y.first = x.first
  count : y.count = x.count
  filling : y.state = .filling → x.state = .filling

/-- What an effect that takes no sample holds to besides: every byte of spool memory, the newest sample
numbers and the samples lost; and no span is opened and none gains a sample. -/
structure Kept (s t : State) : Prop extends Held s t where
  mem : t.mem = s.mem
  spans : ∀ p ∈ t.st.slots, ∃ x, (p.1, x) ∈ s.st.slots ∧ SpanKept x p.2
  newest : ∀ src, (t.intake src).newest = (s.intake src).newest
  lost : t.rc.counters.lost = s.rc.counters.lost

/-! ### The words of the statements -/

/-- One thing for each source. -/
def PerSource.of {α : Type} (f : Source → α) : PerSource α := ⟨f .s0, f .s1, f .s2, f .s3⟩

/-- The port is to take a frame of a code next: it is the oldest of the receive buffer, the outgoing queue
holds 15 frames or fewer, no notice class is owed, and no RESET PART reply waits to leave (R172, R177). -/
structure Receives (s : State) (code : Byte) (f : CmdFrame) (rest : List CmdFrame) : Prop where
  oldest : s.clp.rx = f :: rest
  code : f.code = code
  room : s.clp.out.length ≤ 15
  owed : ∀ c, s.nu.owed.get c = false
  reset : ∀ g ∈ s.clp.out, g.resets = false

/-- The frame has left the receive buffer and its reply is the newest frame of the outgoing queue (R172). -/
def State.answered (s : State) (f : CmdFrame) (rest : List CmdFrame) (st : Status)
    (payload : List Byte) : State :=
  s.setClp { s.clp with
    rx := rest
    out := s.clp.out ++
      [{ kind := .reply, tag := f.tag, code := st.code, payload := payload, resets := false }] }

/-- A frame part-way in or whole is given up as a link error: counted up to 65535, and LINK_ERROR set
(R170). -/
def State.frameLost (s : State) : State :=
  (s.setClp
    { s.clp with rxPart := [], linkErrors := min 65535 (s.clp.linkErrors + 1) }).setFlag .linkError

/-- Bytes clocked out beside `n` bytes clocked in: for each the idle byte 0xFF while the outgoing queue is
empty, and otherwise the next byte of the oldest frame, short of its last one (R171, R179; log 24). -/
def State.clocksOut (s : State) (n : Nat) : State :=
  match s.clp.out with
  | [] => s.setClocked (s.clocked ++ List.replicate n 0xFF)
  | f :: _ =>
    let part := (f.bytes.drop s.clp.outPos).dropLast.take n
    (s.setClocked (s.clocked ++ part)).setClp { s.clp with outPos := s.clp.outPos + part.length }

/-- The rows that take a command, with its code and the length of its payload (R179). -/
def commandRows : List (Instr × Byte × Nat) :=
  [(.identify, 0x01, 0), (.resetPart, 0x02, 0), (.armRun, 0x10, 8), (.stopRun, 0x11, 0),
   (.abortRun, 0x12, 0), (.readRun, 0x13, 0), (.mark, 0x18, 1), (.setSource, 0x20, 24),
   (.readSource, 0x21, 1), (.setSpool, 0x28, 10), (.readSpool, 0x29, 0), (.readSpan, 0x30, 7),
   (.readQueue, 0x31, 3), (.readPair, 0x38, 0), (.setLane, 0x40, 28), (.laneReset, 0x41, 1),
   (.laneOffline, 0x42, 1), (.lanePause, 0x43, 1), (.laneResume, 0x44, 1), (.lanePark, 0x45, 1),
   (.laneWake, 0x46, 1), (.readLane, 0x47, 1), (.setCheckpoint, 0x50, 4), (.checkpointNow, 0x51, 0),
   (.readIndex, 0x52, 0), (.setNotices, 0x60, 18), (.readNotices, 0x61, 0), (.clearNotices, 0x62, 3)]

/-- A command completes with an effect of which `p` holds, and then the standing claims are evaluated
(R102; log 4). -/
def Settles (c : Instr) (s : State) (p : State → Prop) : Prop :=
  ∃ u, exec c s = .next u.evaluate ∧ p u

/-- The oldest sample of a packet is taken with an effect of which `p` holds, and the rest of the packet is
then taken as a packet of its own would be: so a packet is taken sample by sample. After the last sample
history is aged, once, and the standing claims are evaluated (R50, R69, R102; log 4). -/
def TakesSample (src : Source) (x : Sample) (s : State) (p : State → Prop) : Prop :=
  ∃ v, p v ∧ exec (.samplePacket src [x]) s = .next (v.age src).evaluate ∧
    ∀ xs, exec (.samplePacket src (x :: xs)) s = exec (.samplePacket src xs) v

/-- The Index Unit as an event leaves it: the block being written is still owed by a lane, and no buffer waits
CLOSED while none is WRITING (R161, R162). -/
structure IndexRests (u : IndexUnit) : Prop where
  owed : ∀ w, u.writing = some w → w.duty.l0 = .owed ∨ w.duty.l1 = .owed
  closed : u.writing = none → ∀ b, (u.buffers.get b).state ≠ .closed

/-- The Index Unit after an entry is admitted to a buffer that it does not fill (R159). -/
def IndexUnit.admits (u : IndexUnit) (b : BufferName) (e : Entry) : IndexUnit :=
  let v := u.buffers.get b
  { u with
    buffers := u.buffers.set b { state := .filling, entries := v.entries ++ [e], final := v.final } }

/-- The other index buffer. -/
def BufferName.other : BufferName → BufferName
  | .a => .b
  | .b => .a

/-- The RUN_END entry of a run with the counters given: the run id and the provisional end cause (R34, R37). -/
def State.runEndEntry (s : State) (counters : RunCounters) : Entry :=
  .runEnd
    { runId := s.rc.runId.getD 0
      cause := if s.rc.nextSeq = .exhausted then .sequenceExhausted else .complete
      counters := counters }

/-- The run has entered ENDING with the counters given, and the entries, of which RUN_END is the last, have closed
a buffer: the stop deadline timer and the checkpoint timer have stopped and the lock is off. The buffer waits while
a block is being written, and becomes WRITING otherwise; with no lane on duty its block is done at once, written by
none, and the run is IDLE (R33, R34, R161, R162, R168). -/
structure EntersEnding (s u : State) (counters : RunCounters) (b : BufferName) (entries : List Entry) :
    Prop where
  waits : s.iu.writing.isSome = true →
    u.rc = { s.rc with runState := .ending, deadlineTimer := none, counters := counters } ∧
    u.iu = { s.iu with
      buffers := s.iu.buffers.set b { state := .closed, entries := entries, final := true }
      timer := none, lock := false }
  writes : s.iu.writing = none →
    ((s.lane .l0).state.duty = .owed ∨ (s.lane .l1).state.duty = .owed) →
    u.rc = { s.rc with runState := .ending, deadlineTimer := none, counters := counters } ∧
    u.iu = { s.iu with
      buffers := s.iu.buffers.set b { state := .writing, entries := entries, final := true }
      writing := some
        { buffer := b, seq := s.iu.blockSeq
          duty := ⟨(s.lane .l0).state.duty, (s.lane .l1).state.duty⟩ }
      timer := none, lock := false }
  ends : s.iu.writing = none → s.iu.waitSpans = [] → s.iu.waitRunEnd = none →
    (s.lane .l0).state.duty = .off → (s.lane .l1).state.duty = .off →
    u.rc = { s.rc with
      runState := .idle, lastEnd := .indexUnwritten, deadlineTimer := none, counters := counters } ∧
    u.iu = { s.iu with
      buffers := s.iu.buffers.set b { state := .empty, entries := [], final := false }
      blockSeq := s.iu.blockSeq + 1, timer := none, lock := false } ∧
    u.nu.isPending .runEnded = true ∧ u.nu.isPending .indexMissed = true

/-- Nothing has changed but the lanes, the archive links, the scheduler, and the flags and notices that
were set on the way. -/
structure LanesOnly (s t : State) : Prop where
  same : t = { s with al := t.al, ds := t.ds, wire := t.wire, nu := t.nu, clp := t.clp }
  rxPart : t.clp.rxPart = s.clp.rxPart
  rx : t.clp.rx = s.clp.rx
  linkErrors : t.clp.linkErrors = s.clp.linkErrors
  outPos : t.clp.outPos = s.clp.outPos
  out : OutGrows s.clp.out t.clp.out
  flags : ∀ f, s.nu.isPending f = true → t.nu.isPending f = true
  classOf : t.nu.classOf = s.nu.classOf
  enable : t.nu.enable = s.nu.enable

/-- The claim a lane places now (R101). -/
def State.claimNow (s : State) (a : LaneUnit) : Option Claim := some { kind := a.claimKind, since := s.now }

/-- The job of a BUSY lane has a WRITE outstanding under a tag (R139). -/
structure Writes (s : State) (lane : Lane) (tag : Word16) (job : Job) : Prop where
  state : (s.lane lane).state = .busy
  outstanding : (s.lane lane).timer.isSome = true
  tag : (s.lane lane).burstTag = tag
  job : (s.lane lane).job = some job

/-- The row that ends an outstanding WRITE as failed, and the outcome that it gives: RETRY at the retry limit,
FAULT, or the expiry of the response timer (R142, R145). -/
def State.WriteFails (s : State) (lane : Lane) (tag : Word16) (retries : Nat) (row : Instr)
    (o : Outcome) : Prop :=
  row = .retry lane tag ∧ o = .retryExhausted ∧ (s.lane lane).settings.retryLimit ≤ retries ∨
  row = .moduleFault lane tag ∧ o = .moduleFault ∨ row = .responseTimeout lane ∧ o = .timeout

/-- A job of a lane has ended without a fault, and left the lane as `a`: with no action pending the lane is
READY, and places the claim given, if any; PAUSE puts it in PAUSED, where it owes no block; and PARK in PARKING,
with PARK sent under the next tag and the response timer running (R101, R146, R147, R148, R162). -/
structure JobEnds (s u : State) (lane : Lane) (a : LaneUnit) (claim : Option Claim) : Prop where
  ready : a.action = .none →
    u.lane lane = { a with state := .ready } ∧ u.ds.claim.get lane = claim ∧ u.wire = s.wire
  pause : a.action = .pause →
    u.lane lane = { a with state := .paused, action := .none } ∧ u.ds.claim.get lane = none ∧
      u.owes lane = false ∧ u.wire = s.wire
  park : a.action = .park →
    u.lane lane =
      { a with
        state := .parking, action := .none, burstTag := a.burstTag + 1,
        timer := some a.settings.responseTime } ∧
      u.ds.claim.get lane = none ∧
      u.wire = s.wire.set lane (s.wire.get lane ++ [.park (a.burstTag + 1)])

/-- A lane has entered FAULTED from `a`: its cause is recorded, no action and no wake is pending, nothing is
outstanding, and it holds no claim (R101, R151). -/
structure Faults (s u : State) (lane : Lane) (a : LaneUnit) (cause : FaultCause) : Prop where
  entered : u.lane lane =
    { a with state := .faulted, fault := cause, action := .none, wakePending := false, timer := none }
  claim : u.ds.claim.get lane = none
  flag : u.nu.isPending (laneChangeFlag lane) = true
  wire : u.wire = s.wire

/-- Bytes hold the fields of a layout, each given by its offset, its size and its value: little-endian, signed
ones in two's complement (R178). -/
def Lays (p : List Byte) (layout : List (Nat × Nat × Int)) : Prop :=
  ∀ q ∈ layout, (field p q.1 q.2.1 : Int) = q.2.2 % 2 ^ (8 * q.2.1)

/-- Every byte of a range of offsets is 0. -/
def ZeroFrom (p : List Byte) (low high : Nat) : Prop := ∀ k, low ≤ k → k < high → byteAt p k = 0

/-- The slot and place a sample of a source that is taking is stored at, or none where it is dropped: the
end of the FILLING span, or the start of the span that is opened for it (R15, R48, R49, R56). -/
def State.sampleStore (s : State) (src : Source) : Option (Nat × Nat) :=
  if (s.intake src).intake.takes then
    match s.st.filling src with
    | some (slot, sp) => some (slot, sp.count)
    | none =>
      if (s.intake src).intake = .refusing then none
      else if (s.intake src).pendingGap.isSome && (s.intake src).offeredGap.isSome then none
      else
        match (s.openSpan src (s.intake src).nextNumber (s.openRetention src)).2 with
        | .opened slot => some (slot, 0)
        | .overrun => none
        | .refused _ => none
  else none

/-- Trigger marks in order of offset (R4). -/
def marksInOrder : List TriggerMark → Bool
  | [] => true
  | [_] => true
  | m :: n :: rest => decide (m.offset ≤ n.offset) && marksInOrder (n :: rest)

end Sys2Proof.Machine
end

