-- ==== Sys2Proof/Certificates/Slice0/Obligations.lean ====
section
/-! DEFINITION. Certificates/Slice0/Obligations.lean: the statements about the part. -/

open Sys2Proof Sys2Proof.Machine

/-! ### The queue of commands -/

/-- A step takes the command at the front of the queue and carries it out with the queue's rest. -/
def Obligations.StepTakesTheFrontCommand : Prop :=
  ∀ (c : Instr) (rest : List Instr) (s : State), s.pending = c :: rest →
    step s = exec c (s.withPending rest)

/-- On an empty queue one millisecond passes: every timer that runs counts down, and nothing else changes
(DESIGN CHOICE, log 2). -/
def Obligations.IdleStepLetsAMillisecondPass : Prop :=
  ∀ s : State, s.pending = [] →
    step s = .next
      { s with
        now := s.now + 1
        rc := { s.rc with deadlineTimer := s.rc.deadlineTimer.map fun n => n - 1 }
        iu := { s.iu with timer := s.iu.timer.map fun n => n - 1 }
        al :=
          ⟨{ s.al.l0 with timer := s.al.l0.timer.map fun n => n - 1 },
            { s.al.l1 with timer := s.al.l1.timer.map fun n => n - 1 }⟩ }

/-- The queue is first in, first out, and no command stops the part: a step carries out one command, in every
state, with neither a fault nor a refusal, and leaves the rest of the queue as it stands. -/
def Obligations.EveryCommandCompletesInOrder : Prop :=
  ∀ (c : Instr) (rest : List Instr) (s : State), s.pending = c :: rest →
    ∃ t, step s = .next t ∧ t.pending = rest

/-! ### Laws that every step keeps -/

/-- The laws of a run, the law of the waiting offers, the law of the archive windows, the bounds of the link port
and the canonical form of spool memory (the model's, log 5) hold at reset. -/
def Obligations.LawsHoldAtReset : Prop :=
  RunLaw State.reset ∧ OfferLaw State.reset ∧ WindowLaw State.reset ∧ LinkOk State.reset.clp ∧ MemOk State.reset

/-- Every step keeps the laws of a run: the table lists each slot once and counts occupancy (R19); a source
queue lists each QUEUED span of its source once, in sequence order, and nothing else (R16); an index buffer holds
at most 63 entries, at most one is FILLING and at most one WRITING (R157); issued = slots holding spans + indexed
+ shed + recycled + discarded (R40); only sources of a RUNNING run take samples (R46); every slot is FREE outside
RUNNING and STOPPING (R24); and there is at most one RUN_END, and only in ENDING (R34).
And it keeps the law of the waiting offers: while an index buffer can take an entry, no offer waits (R159, R163). -/
def Obligations.EveryStepKeepsTheRunLaws : Prop :=
  ∀ s t : State, RunLaw s → step s = .next t →
    RunLaw t ∧ (OfferLaw s → OfferLaw t)

/-- Every step keeps the bounds of the link port: at most 4 received frames, at most 16 outgoing ones, a link
error count up to 65535, and a frame part-way out that is not wholly out (R170, R171; the place in it: log 24). -/
def Obligations.EveryStepKeepsThePortBounds : Prop :=
  ∀ s t : State, LinkOk s.clp → step s = .next t → LinkOk t.clp

/-- Every step keeps spool memory in the canonical form that the model holds it in: addresses strictly rising,
and no listed byte equal to what an unlisted one reads as (DESIGN CHOICE, log 5). -/
def Obligations.EveryStepKeepsMemoryCanonical : Prop :=
  ∀ s t : State, MemOk s → step s = .next t → MemOk t

/-- No command but a sample packet changes a byte of spool memory (R1, R15). -/
def Obligations.OnlySamplesWriteMemory : Prop :=
  ∀ (c : Instr) (s t : State), (∀ src xs, c ≠ .samplePacket src xs) → exec c s = .next t →
    ∀ a, t.mem.read a = s.mem.read a

/-! ### Reset (R24, R26, R45, R59, R87, R100, R133, R156, R173, R177) -/

/-- The values that the blocks' tables give for power-on and RESET PART, item by item. The notice count is 1,
past the RESET_DONE notice that the reset has queued. Two clauses are the model's, and no item of a table: no
exchange timer of a lane runs (DEDUCED, log 17), and no byte of an outgoing frame is out (log 24). -/
def Obligations.ResetStateHasTheStatedValues : Prop :=
  let s := State.reset
  (s.st.slots = [] ∧ s.st.queues = ⟨[], [], [], []⟩ ∧ s.st.occupancy = 0) ∧
  (s.rc.runState = .idle ∧ s.rc.runId = none ∧ s.rc.sourceSet = ⟨false, false, false, false⟩ ∧
    s.rc.start = .now ∧ s.rc.startEpoch = none ∧ s.rc.lastEpoch = none ∧ s.rc.deadline = 60 ∧
    s.rc.deadlineTimer = none ∧ s.rc.expired = false ∧ s.rc.nextSeq = .number 0 ∧ s.rc.lastEnd = .none ∧
    s.rc.counters =
      { issued := 0, indexed := 0, shed := 0, recycled := 0, discarded := 0, lost := ⟨0, 0, 0, 0⟩,
        checkpointsWritten := 0, checkpointsLate := 0 }) ∧
  (∀ src,
    s.settings src =
      { enabled := false, mode := .continuous, spanExp := 23, preDepth := 0, postDepth := 2 ^ 20,
        laneRule := .either, mirrorPolicy := .strict, pairMode := .wait, level := 4, shedRule := .keepAll,
        shedBoundary := 2, resumeBoundary := 1, bucketExp := 14, gain := 65536 } ∧
    (s.intake src).intake = .idle ∧ (s.intake src).newest = none ∧ (s.intake src).tagPending = false ∧
    (s.intake src).pendingGap = none ∧ (s.intake src).offeredGap = none ∧
    s.twu.get src = ⟨none, false⟩ ∧ s.se.get src = none ∧ s.spm.pressure.get src = .calm) ∧
  (s.spm.boundary = ⟨1024, 2048, 3072, 3840⟩ ∧ s.spm.notify = ⟨false, false, false, false⟩ ∧
    s.spm.limit = 3) ∧
  (s.ds.claim = ⟨none, none⟩ ∧ s.ds.pair = none) ∧
  ((∀ b, s.buffer b = { state := .empty, entries := [], final := false }) ∧ s.iu.writing = none ∧
    s.iu.waitSpans = [] ∧ s.iu.waitRunEnd = none ∧ s.iu.blockSeq = 0 ∧ s.iu.prev = ⟨none, none⟩ ∧
    s.iu.periodSetting = 1000 ∧ s.iu.lockSetting = 20 ∧ s.iu.period = 1000 ∧ s.iu.lockTime = 20 ∧
    s.iu.timer = none ∧ s.iu.lock = false) ∧
  (∀ l, (s.lane l).state = .down ∧ (s.lane l).fault = .none ∧
    (s.lane l).settings =
      { base := 0, sizeExp := 20, reserve := 4096, burst := 2, retryLimit := 3, responseTime := 50,
        parkDelay := 0, wakeTime := 2000, wakeOnAttention := false } ∧
    (s.lane l).report = none ∧ burstBlocks (s.lane l).effBurst = 16 ∧ (s.lane l).effWake = false ∧
    (s.lane l).dataCursor = 0 ∧ (s.lane l).indexCursor = 2 ^ 20 - 1 ∧ (s.lane l).dataFull = false ∧
    (s.lane l).indexFull = false ∧ (s.lane l).deadSpace = 0 ∧ (s.lane l).failures = 0 ∧
    (s.lane l).action = .none ∧ (s.lane l).wakePending = false ∧ (s.lane l).job = none ∧
    (s.lane l).burstTag = 0 ∧ (s.lane l).attentionSeen = false ∧ (s.lane l).timer = none) ∧
  (s.clp.rxPart = [] ∧ s.clp.rx = [] ∧ s.clp.linkErrors = 0 ∧ s.clp.outPos = 0 ∧
    s.clp.out = [{ kind := .notice, tag := 0, code := 0, payload := [1, 0, 0], resets := false }]) ∧
  ((∀ f, s.nu.isPending f = decide (f = .resetDone)) ∧ (∀ f, s.nu.cls f = 0) ∧
    s.nu.enable = ⟨true, false, false, false⟩ ∧ (∀ c, s.nu.owed.get c = false) ∧ s.nu.noticeCount = 1)

/-- POWER_ON gives every block its reset values in any state, and RESET_DONE is set: its notice of class 0
is the one frame of the outgoing queue, and the attention line is asserted. Spool pages keep their contents;
the bytes and frames already on the links (log 6, 24) and the model's own fields (log 2, 3) stay (R24, R177). -/
def Obligations.PowerOnResetsThePart : Prop :=
  ∀ s : State, ∃ t, exec .powerOn s = .next t ∧
    t = { State.reset with
          pending := s.pending, now := s.now, choices := s.choices, mem := s.mem, wire := s.wire,
          clocked := s.clocked } ∧
    (∀ f, t.nu.isPending f = decide (f = .resetDone)) ∧
    t.clp.out = [{ kind := .notice, tag := 0, code := 0, payload := [1, 0, 0], resets := false }] ∧
    t.nu.noticeCount = 1 ∧ t.clp.attention = true

/-! ### Frames in and out (R170, R171, R173, R177, R179) -/

/-- The bytes of a command frame, clocked in outside a frame, put that frame behind the others in the
receive buffer, and change nothing else but what is clocked out beside them: the idle byte 0xFF while the
outgoing queue is empty, and otherwise the next bytes of its oldest frame, short of the last one (R170, R171,
R179; log 24). -/
def Obligations.GoodFrameJoinsTheReceiveBuffer : Prop :=
  ∀ (s : State) (f : CmdFrame), s.clp.rxPart = [] → f.payload.length ≤ 1024 → s.clp.rx.length < 4 →
    let b := s.clocksOut f.bytes.length
    exec (.commandFrame f.bytes) s = .next (b.setClp { b.clp with rx := s.clp.rx ++ [f] })

/-- A whole frame of up to 1024 payload bytes whose CRC or kind is wrong, or that finds 4 frames in the
receive buffer, is a link error; so is a length above 1024 as soon as its bytes arrive. Outside a frame every
byte but the start byte is skipped and not counted. Beside the bytes clocked in others are clocked out (R170,
R171; log 24). -/
def Obligations.BadFrameIsALinkError : Prop :=
  ∀ (s : State) (p : List Byte), s.clp.rxPart = [] →
    let b := s.clocksOut p.length
    (byteAt p 0 = 0xA5 → p.length = 8 + field p 1 2 → field p 1 2 ≤ 1024 →
      field p (6 + field p 1 2) 2 ≠ (crc16 ((p.drop 3).take (3 + field p 1 2))).toNat ∨ byteAt p 3 ≠ 1 ∨
        4 ≤ s.clp.rx.length →
      exec (.commandFrame p) s = .next b.frameLost) ∧
    (byteAt p 0 = 0xA5 → p.length = 3 → 1024 < field p 1 2 →
      exec (.commandFrame p) s = .next b.frameLost) ∧
    ((∀ c ∈ p, c ≠ 0xA5) → exec (.commandFrame p) s = .next b)

/-- The release of chip select gives up a frame part-way in as a link error; the frames of the outgoing queue
stay where they are, and the one part-way out is to be sent again from its start byte. Nothing else changes
(R170, R171; log 24). -/
def Obligations.ChipSelectReleaseCutsOffAFrame : Prop :=
  ∀ s : State,
    let b := s.setClp { s.clp with outPos := 0 }
    (s.clp.rxPart ≠ [] → exec .chipSelectRelease s = .next b.frameLost) ∧
    (s.clp.rxPart = [] → exec .chipSelectRelease s = .next b) ∧
    s.clp.out <+: b.frameLost.clp.out ∧ b.frameLost.clp.rx = s.clp.rx ∧ b.frameLost.clp.outPos = 0 ∧
    b.frameLost.clocked = s.clocked

/-- The rest of the oldest outgoing frame is clocked out and it leaves the queue, and with no notice owed
nothing else changes; with an empty queue nothing happens. As the RESET PART reply leaves, the part takes its
reset values, just as at power-on (R171, R177; the row is the last byte of a frame: log 24). -/
def Obligations.OldestFrameLeavesTheQueue : Prop :=
  ∀ s : State,
    (∀ (f : OutFrame) (rest : List OutFrame), s.clp.out = f :: rest →
      let b := s.setClocked (s.clocked ++ f.bytes.drop s.clp.outPos)
      (f.resets = false → (∀ c, s.nu.owed.get c = false) →
        exec .frameLeavesQueue s = .next (b.setClp { s.clp with out := rest, outPos := 0 })) ∧
      (f.resets = true → exec .frameLeavesQueue s = exec .powerOn b)) ∧
    (s.clp.out = [] → exec .frameLeavesQueue s = .next s)

/-- A flag that a block sets: pending already, nothing changes; otherwise it becomes pending, and if its
class is enabled a notice of every flag then pending in the class is queued while the queue holds 14 frames
or fewer, and owed to the class when it is fuller. When a frame leaves, the one class owed has its notice
queued behind the other frames, or has its mark cleared without a notice when its flags have all been cleared
(R173; when a frame leaves, its rest is clocked out: log 24). -/
def Obligations.FlagIsNoticedOrOwed : Prop :=
  (∀ (s : State) (f : Flag),
    (s.nu.isPending f = true → s.setFlag f = s) ∧
    (s.nu.isPending f = false →
      ∃ n : NoticeUnit, n = { s.nu with flags := s.nu.flags ||| f.bit } ∧
        (∀ g, n.isPending g = (s.nu.isPending g || decide (g = f))) ∧
        (s.nu.enable.get (s.nu.cls f) = false → s.setFlag f = s.setNu n) ∧
        (s.nu.enable.get (s.nu.cls f) = true → s.clp.out.length ≤ 14 →
          s.setFlag f =
            { s with
              clp := { s.clp with
                out := s.clp.out ++ [{ kind := .notice, tag := s.nu.noticeCount,
                                       code := BitVec.ofNat 8 (s.nu.cls f).val,
                                       payload := leBytes 3 (n.pendingIn (s.nu.cls f)).toNat,
                                       resets := false }] }
              nu := { n with noticeCount := s.nu.noticeCount + 1 } }) ∧
        (s.nu.enable.get (s.nu.cls f) = true → 14 < s.clp.out.length →
          s.setFlag f = s.setNu { n with owed := n.owed.set (s.nu.cls f) true }))) ∧
  (∀ (s : State) (f : OutFrame) (rest : List OutFrame) (c : Fin 4), s.clp.out = f :: rest →
    f.resets = false → rest.length ≤ 14 → (∀ d, s.nu.owed.get d = decide (d = c)) →
    let b := s.setClocked (s.clocked ++ f.bytes.drop s.clp.outPos)
    exec .frameLeavesQueue s = .next
      (if s.nu.pendingIn c = 0 then
        { b with
          clp := { s.clp with out := rest, outPos := 0 }
          nu := { s.nu with owed := ⟨false, false, false, false⟩ } }
      else
        { b with
          clp := { s.clp with
            out := rest ++ [{ kind := .notice, tag := s.nu.noticeCount, code := BitVec.ofNat 8 c.val,
                              payload := leBytes 3 (s.nu.pendingIn c).toNat, resets := false }]
            outPos := 0 }
          nu := { s.nu with
            owed := ⟨false, false, false, false⟩, noticeCount := s.nu.noticeCount + 1 } }))

/-! ### The taking of a command (R172) -/

/-- A command whose payload has another length than its layout gives is answered BAD_LENGTH, and a frame whose
code names no command BAD_CODE: without payload and without effect (R172, R179). -/
def Obligations.BadLengthAndBadCodeAreAnswered : Prop :=
  (∀ row ∈ commandRows, ∀ (s : State) (f : CmdFrame) (rest : List CmdFrame), Receives s row.2.1 f rest →
    f.payload.length ≠ row.2.2 → exec row.1 s = .next (s.answered f rest .badLength [])) ∧
  (∀ (s : State) (code : Byte) (f : CmdFrame) (rest : List CmdFrame), Receives s code f rest →
    (∀ row ∈ commandRows, row.2.1 ≠ code) →
    exec .badCode s = .next (s.answered f rest .badCode []))

/-- A row that takes a command changes nothing while the port has no frame, while the outgoing queue holds
16 frames, while a notice class is owed or a RESET PART reply waits, or while the oldest frame carries
another code (R172; DESIGN CHOICE, log 1). -/
def Obligations.RowNotDueChangesNothing : Prop :=
  ∀ row ∈ commandRows, ∀ s : State,
    (s.clp.rx = [] ∨ 15 < s.clp.out.length ∨ (∃ c, s.nu.owed.get c = true) ∨
      (∃ g ∈ s.clp.out, g.resets = true) ∨ ∃ f rest, s.clp.rx = f :: rest ∧ f.code ≠ row.2.1) →
    exec row.1 s = .next s

/-- A command taken in a run state that its rule forbids is answered REFUSED_STATE without effect: ARM RUN
and SET SOURCE outside IDLE, ABORT RUN in IDLE, MARK outside RUNNING, CHECKPOINT NOW outside
RUNNING and STOPPING (R27, R38, R43, R74, R160). -/
def Obligations.RunStateDecidesTheRefusal : Prop :=
  ∀ (s : State) (f : CmdFrame) (rest : List CmdFrame),
    (Receives s 0x10 f rest → f.payload.length = 8 → s.rc.runState ≠ .idle →
      exec .armRun s = .next (s.answered f rest .refusedState [])) ∧
    (Receives s 0x20 f rest → f.payload.length = 24 → s.rc.runState ≠ .idle →
      exec .setSource s = .next (s.answered f rest .refusedState [])) ∧
    (Receives s 0x12 f rest → f.payload.length = 0 → s.rc.runState = .idle →
      exec .abortRun s = .next (s.answered f rest .refusedState [])) ∧
    (Receives s 0x18 f rest → f.payload.length = 1 → s.rc.runState ≠ .running →
      exec .mark s = .next (s.answered f rest .refusedState [])) ∧
    (Receives s 0x51 f rest → f.payload.length = 0 → s.rc.runState ≠ .running → s.rc.runState ≠ .stopping →
      exec .checkpointNow s = .next (s.answered f rest .refusedState []))

/-- A lane command is answered BAD_VALUE for a lane number above 1, before the lane's state is looked at
(DESIGN CHOICE, log 15), and REFUSED_STATE in a lane state that its rule forbids (R134, R147, R148, R149,
R152). -/
def Obligations.LaneStateDecidesTheRefusal : Prop :=
  ∀ (s : State) (f : CmdFrame) (rest : List CmdFrame),
    (∀ row ∈ commandRows, 0x40 ≤ row.2.1 → row.2.1 ≤ 0x47 → Receives s row.2.1 f rest →
      f.payload.length = row.2.2 → 1 < byteAt f.payload 0 →
      exec row.1 s = .next (s.answered f rest .badValue [])) ∧
    ∀ lane : Lane, byteAt f.payload 0 = lane.num →
      (Receives s 0x40 f rest → f.payload.length = 28 → (s.lane lane).state ≠ .down →
        (s.lane lane).state ≠ .faulted → exec .setLane s = .next (s.answered f rest .refusedState [])) ∧
      (Receives s 0x41 f rest → f.payload.length = 1 → (s.lane lane).state = .down →
        exec .laneReset s = .next (s.answered f rest .refusedState [])) ∧
      (Receives s 0x43 f rest → f.payload.length = 1 → (s.lane lane).state ≠ .ready →
        (s.lane lane).state ≠ .busy → exec .lanePause s = .next (s.answered f rest .refusedState [])) ∧
      (Receives s 0x44 f rest → f.payload.length = 1 → (s.lane lane).state ≠ .paused →
        exec .laneResume s = .next (s.answered f rest .refusedState [])) ∧
      (Receives s 0x45 f rest → f.payload.length = 1 →
        (s.lane lane).state ∈ [.down, .bringup, .paused, .waking, .faulted] →
        exec .lanePark s = .next (s.answered f rest .refusedState [])) ∧
      (Receives s 0x46 f rest → f.payload.length = 1 →
        (s.lane lane).state ∈ [.down, .bringup, .paused, .faulted] →
        exec .laneWake s = .next (s.answered f rest .refusedState []))

/-- The fields of the commands, laid out as R179 gives, are read back at every value the ranges admit: no
field is dropped or displaced (R22, R27, R43, R88, R134, R165, R174, R175, R179). -/
def Obligations.FieldsAreReadAsCarried : Prop :=
  (∀ (src : Source) (set : SourceSettings), 20 ≤ set.spanExp → set.spanExp ≤ 23 → set.preDepth ≤ 2 ^ 31 →
    1 ≤ set.postDepth → set.postDepth ≤ 2 ^ 31 → set.level ≤ 7 → 14 ≤ set.bucketExp → set.bucketExp ≤ 17 →
    decodeSource (leBytes 1 src.num ++ set.bytes) = some (src, set)) ∧
  (∀ (m : PressureMonitor) (o : SpoolOperands), o.boundary.a0 ≤ o.boundary.a1 →
    o.boundary.a1 ≤ o.boundary.a2 → o.boundary.a2 ≤ o.boundary.a3 → o.boundary.a3 ≤ 4096 → 1 ≤ o.limit →
    o.limit ≤ 7 → decodeSpool ((m.adopt o).setBytes) = some o) ∧
  (∀ (lane : Lane) (o : LaneOperands), 20 ≤ o.settings.sizeExp → o.settings.sizeExp ≤ 34 →
    alignBase o.settings.base o.settings.sizeExp = o.settings.base →
    o.settings.base + 2 ^ o.settings.sizeExp ≤ 2 ^ 40 → o.dataCursor ≤ o.indexCursor + 1 →
    o.indexCursor ≤ 2 ^ o.settings.sizeExp - 1 → o.settings.reserve ≤ 2 ^ 20 → o.settings.burst ≤ 4 →
    o.settings.retryLimit ≤ 15 → 1 ≤ o.settings.responseTime → o.settings.responseTime ≤ 255 →
    o.settings.parkDelay ≤ 255 → 100 ≤ o.settings.wakeTime → o.settings.wakeTime ≤ 10000 →
    laneOf (o.bytes lane) = some lane ∧ decodeLane (o.bytes lane) = some o) ∧
  (∀ o : CheckpointOperands, 10 ≤ o.period → o.period ≤ 60000 → o.lockTime < o.period →
    decodeCheckpoint o.bytes = some o) ∧
  (∀ o : NoticeOperands, decodeNotices o.bytes = some o) ∧
  (∀ (runId epoch : Word16) (mask deadline : Nat), mask ≤ 15 → deadline ≤ 3600 →
    let tail := leBytes 2 epoch.toNat ++ leBytes 1 mask ++ leBytes 2 deadline
    decodeArm (leBytes 2 runId.toNat ++ 0 :: tail) =
        some { runId := runId, start := .now, mask := mask, deadline := deadline } ∧
      decodeArm (leBytes 2 runId.toNat ++ 1 :: tail) =
        some { runId := runId, start := .atEpoch epoch, mask := mask, deadline := deadline }) ∧
  (∀ v : BitVec 17, decodeFlags (leBytes 3 v.toNat) = some v) ∧
  (∀ (n : Nat) (seq : Word32), n < 4096 →
    decodeSpanName (0 :: (leBytes 2 n ++ leBytes 4 seq.toNat)) = some (.slot n)) ∧
  (∀ (runId : Word16) (seq : Word32),
    decodeSpanName (1 :: (leBytes 2 runId.toNat ++ leBytes 4 seq.toNat)) = some (.sequence runId seq))

/-! ### Commands that only report (R22, R23, R41, R58, R99, R132, R155, R169, R175, R176) -/

/-- IDENTIFY is answered OK in every run state with the part code 0x0B34, the revision 2, 4096 slots, slots
of 16 MiB, 4 sources, 2 lanes and 1024 payload bytes, and changes nothing else (R176, R179). -/
def Obligations.IdentifyReportsThePart : Prop :=
  ∀ (s : State) (f : CmdFrame) (rest : List CmdFrame), Receives s 0x01 f rest → f.payload.length = 0 →
    exec .identify s = .next (s.answered f rest .ok [0x34, 0x0B, 0x02, 0x00, 0x10, 16, 4, 2, 0x00, 0x04])

/-- The READ commands are answered OK in every run state with the items their rules list, as they stand, and
change nothing else, but that READ LANE, which reports attention-seen as it stood, then sets it to no. A source
number above 3, a slot above 4095 or a form above 1 is answered BAD_VALUE. States and codes are numbered as R178
gives. READ NOTICES reports the fill of the two buffers before its own frame leaves and its reply is queued (R22,
R23, R41, R58, R99, R132, R155, R169, R175, R178, R179; widths, presence bytes, sample counts and mark offsets,
the settings item of READ LANE, the buffers' codes and the arrangement of READ NOTICES: log 7). -/
def Obligations.ReadCommandsReport : Prop :=
  let yes : Bool → Byte := fun b => if b then 1 else 0
  let opt : Option (List Byte) → List Byte := fun o =>
    match o with
    | some p => 1 :: p
    | none => [0]
  let settings : SourceSettings → List Byte := fun set =>
    [yes set.enabled] ++ leBytes 1 set.mode.code ++ leBytes 1 set.spanExp ++ leBytes 4 set.preDepth ++
      leBytes 4 set.postDepth ++ leBytes 1 set.laneRule.code ++ leBytes 1 set.mirrorPolicy.code ++
      leBytes 1 set.pairMode.code ++ leBytes 1 set.level ++ leBytes 1 set.shedRule.code ++
      leBytes 1 set.shedBoundary.val ++ leBytes 1 set.resumeBoundary.val ++ leBytes 1 set.bucketExp ++
      leBytes 4 set.gain.toNat
  let gap : Gap → List Byte := fun g => leBytes 6 g.first ++ leBytes 7 g.count ++ [g.causes]
  let summary : Summary → List Byte := fun m =>
    leBytes 4 m.count ++ leSigned 2 m.range.low ++ leSigned 2 m.range.high ++ leSigned 8 m.rawSum ++
      leSigned 7 m.scaledSum ++ leBytes 8 m.energy ++ [yes m.saturated] ++ leBytes 2 m.envelope.length
  let record : Span → List Byte := fun sp =>
    leBytes 2 sp.runId.toNat ++ leBytes 4 sp.seq.toNat ++ leBytes 1 sp.source.num ++ leBytes 6 sp.first ++
      leBytes 4 sp.count ++ leBytes 1 sp.retention.code ++ leBytes 1 sp.marks.length ++
      (sp.marks.flatMap fun m => leBytes 4 m.offset ++ leBytes 4 m.shortfall) ++ leBytes 2 sp.markOverflow ++
      leBytes 1 sp.laneRule.code ++ opt (sp.mirrorPolicy.map fun p => leBytes 1 p.code) ++
      leBytes 1 sp.copies.length ++
      (sp.copies.flatMap fun c => leBytes 1 c.lane.num ++ leBytes 5 c.address) ++
      opt (sp.repairLane.map fun l => leBytes 1 l.num) ++ [yes sp.degraded] ++ leBytes 1 sp.attempts ++
      leBytes 1 sp.lastOutcome.code ++ opt (sp.shedCause.map fun c => [c.bit]) ++
      opt (sp.summary.map summary)
  let found : Nat → Span → List Byte := fun n sp => 1 :: leBytes 2 n ++ leBytes 1 sp.state.code ++ record sp
  ([SourceMode.continuous, .triggered].map SourceMode.code = [0, 1] ∧
    [PairMode.wait, .cancel].map PairMode.code = [0, 1] ∧
    [MirrorPolicy.strict, .degrade].map MirrorPolicy.code = [0, 1] ∧
    [LaneRule.l0, .l1, .either, .mirror].map LaneRule.code = [0, 1, 2, 3] ∧
    [ShedRule.keepAll, .oldest, .newest].map ShedRule.code = [0, 1, 2] ∧
    [Retention.plain, .keep, .history].map Retention.code = [0, 1, 2] ∧
    [ShedCause.pressure, .archiveFailure, .stopDeadline].map ShedCause.bit = [1, 2, 4] ∧
    [RunState.idle, .armed, .running, .stopping, .ending].map RunState.code = [0, 1, 2, 3, 4] ∧
    [EndCause.none, .complete, .sequenceExhausted, .indexUnwritten, .stoppedBeforeStart,
      .aborted].map EndCause.code = [0, 1, 2, 3, 4, 5] ∧
    [IntakeState.idle, .taking, .refusing, .closed].map IntakeState.code = [0, 1, 2, 3] ∧
    [Pressure.calm, .shedding].map Pressure.code = [0, 1] ∧
    [SpanState.filling, .held, .queued, .draining, .committed, .shed].map SpanState.code =
      [1, 2, 3, 4, 5, 6] ∧
    [Outcome.none, .done, .retryExhausted, .moduleFault, .timeout, .cancelled].map Outcome.code =
      [0, 1, 2, 3, 4, 5] ∧
    [PairPhase.forming, .active].map PairPhase.code = [0, 1] ∧
    [PairOutcome.pending, .done, .failed, .cancelled].map PairOutcome.code = [0, 1, 2, 3] ∧
    [LaneState.down, .bringup, .ready, .busy, .paused, .parking, .parked, .waking,
      .faulted].map LaneState.code = [0, 1, 2, 3, 4, 5, 6, 7, 8] ∧
    [FaultCause.none, .noModule, .window, .timeout, .repeatedFailure, .wakeTimeout].map FaultCause.code =
      [0, 1, 2, 3, 4, 5] ∧
    [PendingAction.none, .pause, .park].map PendingAction.code = [0, 1, 2] ∧
    [JobPhase.data, .header].map JobPhase.code = [0, 1] ∧
    [BufferState.empty, .filling, .closed, .writing].map BufferState.code = [0, 1, 2, 3] ∧
    [Duty.owed, .written, .missed, .off].map Duty.code = [0, 1, 2, 3]) ∧
  (∀ (s : State) (f : CmdFrame) (rest : List CmdFrame),
    (Receives s 0x13 f rest → f.payload.length = 0 →
      let r := s.rc
      let c := r.counters
      let mask := (if r.sourceSet.s0 then 1 else 0) + (if r.sourceSet.s1 then 2 else 0) +
        (if r.sourceSet.s2 then 4 else 0) + (if r.sourceSet.s3 then 8 else 0)
      exec .readRun s = .next (s.answered f rest .ok
        (leBytes 1 r.runState.code ++ opt (r.runId.map fun n => leBytes 2 n.toNat) ++
          opt (r.runId.map fun _ => leBytes 1 mask) ++
          (match r.start with
            | .now => [0, 0]
            | .atEpoch e => 1 :: 1 :: leBytes 2 e.toNat) ++
          opt (r.startEpoch.map fun n => leBytes 2 n.toNat) ++
          opt (r.lastEpoch.map fun n => leBytes 2 n.toNat) ++ leBytes 2 r.deadline ++
          opt (r.deadlineTimer.map (leBytes 3)) ++ [yes r.expired] ++
          (match r.nextSeq with
            | .number n => 1 :: leBytes 4 n.toNat
            | .exhausted => [0]) ++ leBytes 1 r.lastEnd.code ++
          ([c.issued, c.indexed, c.shed, c.recycled, c.discarded, c.lost.s0, c.lost.s1, c.lost.s2,
            c.lost.s3, c.checkpointsWritten, c.checkpointsLate].flatMap fun n => leBytes 8 n.toNat)))) ∧
    (Receives s 0x29 f rest → f.payload.length = 0 →
      let m := s.spm
      let slotsIn : SpanState → Nat := fun st =>
        (s.st.slots.filter fun p => decide (p.2.state = st)).length
      exec .readSpool s = .next (s.answered f rest .ok
        (leBytes 2 m.boundary.a0 ++ [yes m.notify.a0] ++ leBytes 2 m.boundary.a1 ++ [yes m.notify.a1] ++
          leBytes 2 m.boundary.a2 ++ [yes m.notify.a2] ++ leBytes 2 m.boundary.a3 ++ [yes m.notify.a3] ++
          leBytes 1 m.limit ++ leBytes 2 s.st.occupancy ++ leBytes 2 (4096 - s.st.slots.length) ++
          ([SpanState.filling, .held, .queued, .draining, .committed, .shed].flatMap fun st =>
            leBytes 2 (slotsIn st)) ++
          ([m.pressure.s0, m.pressure.s1, m.pressure.s2, m.pressure.s3].flatMap fun p =>
            leBytes 1 p.code)))) ∧
    (Receives s 0x38 f rest → f.payload.length = 0 →
      exec .readPair s = .next (s.answered f rest .ok
        (opt (s.ds.pair.map fun c =>
          leBytes 2 c.slot ++ leBytes 2 c.runId.toNat ++ leBytes 4 c.seq.toNat ++
            leBytes 1 (((s.span? c.slot).map fun sp => sp.source.num).getD 0) ++
            leBytes 1 (((s.span? c.slot).bind Span.mirrorPolicy).getD .strict).code ++
            leBytes 1 c.mode.code ++ leBytes 1 c.phase.code ++ leBytes 1 c.leader.num ++
            leBytes 1 c.leader.other.num ++ leBytes 1 c.outcome.l0.code ++ leBytes 1 c.outcome.l1.code ++
            if c.phase = .forming then 1 :: leBytes 1 (s.lane c.leader.other).state.code else [0])))) ∧
    (Receives s 0x52 f rest → f.payload.length = 0 →
      let u := s.iu
      let gaps := ([s.ci.s0, s.ci.s1, s.ci.s2, s.ci.s3].filter fun i => i.offeredGap.isSome).length
      let buffer : IndexBuffer → List Byte := fun v =>
        leBytes 1 v.state.code ++ leBytes 1 v.entries.length ++ [yes v.final]
      exec .readIndex s = .next (s.answered f rest .ok
        (buffer u.buffers.a ++ buffer u.buffers.b ++
          opt (u.writing.map fun w =>
            leBytes 4 w.seq.toNat ++ leBytes 1 w.duty.l0.code ++ leBytes 1 w.duty.l1.code) ++
          leBytes 2 (u.waitSpans.length + gaps + if u.waitRunEnd.isSome then 1 else 0) ++
          leBytes 2 u.waitSpans.length ++ leBytes 4 u.blockSeq.toNat ++ opt (u.prev.l0.map (leBytes 5)) ++
          opt (u.prev.l1.map (leBytes 5)) ++ leBytes 2 u.periodSetting ++ leBytes 2 u.lockSetting ++
          leBytes 2 u.period ++ leBytes 2 u.lockTime ++ opt (u.timer.map (leBytes 2)) ++ [yes u.lock]))) ∧
    (Receives s 0x21 f rest → f.payload.length = 1 →
      (∀ src : Source, byteAt f.payload 0 = src.num →
        let i := s.intake src
        let w := (s.twu.get src).window
        exec .readSource s = .next (s.answered f rest .ok
          (settings i.settings ++ leBytes 1 i.intake.code ++ leBytes 1 (s.spm.pressure.get src).code ++
            [yes w.isSome] ++ opt (w.map (leBytes 7)) ++ opt (i.newest.map (leBytes 6)) ++
            [yes i.tagPending] ++
            opt ((s.st.filling src).map fun p => leBytes 2 p.1 ++ leBytes 4 p.2.count) ++
            opt (i.pendingGap.map gap) ++ opt (i.offeredGap.map gap)))) ∧
      (3 < byteAt f.payload 0 → exec .readSource s = .next (s.answered f rest .badValue []))) ∧
    (Receives s 0x31 f rest → f.payload.length = 3 →
      (∀ src : Source, byteAt f.payload 0 = src.num →
        let q := s.st.queues.get src
        let part := (q.drop (field f.payload 1 2)).take 64
        exec .readQueue s = .next (s.answered f rest .ok
          (leBytes 2 q.length ++ leBytes 1 part.length ++ part.flatMap fun n =>
            leBytes 2 n ++ leBytes 4 (((s.span? n).map Span.seq).getD 0).toNat ++
              opt (((s.span? n).bind Span.repairLane).map fun l => leBytes 1 l.num)))) ∧
      (3 < byteAt f.payload 0 → exec .readQueue s = .next (s.answered f rest .badValue []))) ∧
    (Receives s 0x30 f rest → f.payload.length = 7 →
      (∀ n : Nat, byteAt f.payload 0 = 0 → field f.payload 1 2 = n → n < 4096 →
        exec .readSpan s = .next (s.answered f rest .ok
          (match s.span? n with
            | some sp => found n sp
            | none => 1 :: leBytes 2 n ++ [0]))) ∧
      (∀ (runId : Word16) (seq : Word32), byteAt f.payload 0 = 1 → field f.payload 1 2 = runId.toNat →
        field f.payload 3 4 = seq.toNat →
        exec .readSpan s = .next (s.answered f rest .ok
          (match s.st.slots.find? fun p => decide (p.2.runId = runId) && decide (p.2.seq = seq) with
            | some (n, sp) => found n sp
            | none => [0]))) ∧
      (1 < byteAt f.payload 0 ∨ byteAt f.payload 0 = 0 ∧ 4095 < field f.payload 1 2 →
        exec .readSpan s = .next (s.answered f rest .badValue [])))) ∧
  (∀ (s : State) (f : CmdFrame) (rest : List CmdFrame), Receives s 0x61 f rest → f.payload.length = 0 →
    exec .readNotices s = .next (s.answered f rest .ok
      ((Flag.all.flatMap fun g => [yes (s.nu.isPending g), BitVec.ofNat 8 (s.nu.cls g).val]) ++
        (([0, 1, 2, 3] : List (Fin 4)).flatMap fun c => [yes (s.nu.enable.get c), 0]) ++
        [s.nu.noticeCount] ++ leBytes 2 s.clp.linkErrors ++
        [BitVec.ofNat 8 s.clp.out.length, BitVec.ofNat 8 (rest.length + 1)]))) ∧
  (∀ (s : State) (f : CmdFrame) (rest : List CmdFrame) (lane : Lane), Receives s 0x47 f rest →
    f.payload = [BitVec.ofNat 8 lane.num] →
    let a := s.lane lane
    let set := a.settings
    let role := match s.ds.pair with
      | none => 0
      | some c => if c.leader = lane then 1 else 2
    let job : Job → List Byte := fun j =>
      match j with
      | .span j =>
        0 :: leBytes 2 j.slot ++ leBytes 2 j.runId.toNat ++ leBytes 4 j.seq.toNat ++ leBytes 5 j.first ++
          leBytes 2 j.reserved ++ leBytes 1 j.phase.code ++ leBytes 5 j.next ++ leBytes 1 j.retries
      | .index j => [1, if j.buffer = .a then 0 else 1] ++ leBytes 5 j.address
    exec .readLane s = .next ((s.answered f rest .ok
      (leBytes 1 a.state.code ++ leBytes 1 a.fault.code ++ [yes a.dataFull, yes a.indexFull] ++
        leBytes 4 set.reserve ++ leBytes 1 set.burst ++ leBytes 1 set.retryLimit ++
        leBytes 1 set.responseTime ++ leBytes 1 set.parkDelay ++ leBytes 2 set.wakeTime ++
        [yes set.wakeOnAttention] ++ leBytes 1 a.effBurst ++ [yes a.effWake] ++ leBytes 5 set.base ++
        leBytes 1 set.sizeExp ++ leBytes 5 a.dataCursor ++ leSigned 5 a.indexCursor ++
        leSigned 5 (a.indexCursor - a.dataCursor + 1) ++ leBytes 5 a.deadSpace ++ leBytes 1 a.failures ++
        leBytes 1 a.action.code ++ [yes a.wakePending] ++
        opt (a.report.map fun r => leBytes 1 r.maxBurst ++ leBytes 5 r.capacity ++ [yes r.attention]) ++
        [yes a.attentionSeen] ++ leBytes 1 role ++ opt (a.job.map job))).onLane lane
      fun a => { a with attentionSeen := false }))

/-- RESET PART is answered OK behind the frames already queued and changes nothing else; from then on no
command is taken until the reply has left (R172, R177). -/
def Obligations.ResetPartOnlyReplies : Prop :=
  ∀ (s : State) (f : CmdFrame) (rest : List CmdFrame), Receives s 0x02 f rest → f.payload.length = 0 →
    ∃ t, exec .resetPart s = .next t ∧
      t = s.setClp { s.clp with
        rx := rest
        out := s.clp.out ++ [{ kind := .reply, tag := f.tag, code := 0, payload := [], resets := true }] } ∧
      (∀ row ∈ commandRows, exec row.1 t = .next t) ∧ exec .badCode t = .next t

/-! ### Runs (R28 to R38) -/

/-- ARM RUN in IDLE, with fields in range and an enabled source named: it is answered OK, the run id, the
source set, the start and the stop deadline are recorded, every counter and the next sequence number become
0, deadline expired no, the start epoch absent, and the run is ARMED; with start NOW it enters RUNNING at
once, its start epoch the last epoch seen. The last end cause and the flags stay. A start kind, a deadline or a
mask out of range, and a mask that names no enabled source, are answered BAD_VALUE (R27, R28, R30, R92). -/
def Obligations.ArmRunArmsTheRun : Prop :=
  ∀ (s : State) (f : CmdFrame) (rest : List CmdFrame), Receives s 0x10 f rest → f.payload.length = 8 →
    s.rc.runState = .idle →
    (1 < byteAt f.payload 2 ∨ 15 < byteAt f.payload 5 ∨ 3600 < field f.payload 6 2 →
      exec .armRun s = .next (s.answered f rest .badValue [])) ∧
    ∀ a, decodeArm f.payload = some a →
      ((∀ src, inMask a.mask src = true → (s.settings src).enabled = false) →
        exec .armRun s = .next (s.answered f rest .badValue [])) ∧
      ((∃ src, inMask a.mask src = true ∧ (s.settings src).enabled = true) →
        let b := s.answered f rest .ok []
        let armed := { b with
          rc := { s.rc with
            runState := .armed
            runId := some a.runId
            sourceSet := PerSource.of fun src => inMask a.mask src && (s.settings src).enabled
            start := a.start
            startEpoch := none
            deadline := if a.deadline = 0 then 60 else a.deadline
            expired := false
            nextSeq := .number 0
            counters := .zero }
          spm := { s.spm with pressure := ⟨.calm, .calm, .calm, .calm⟩ } }
        (∀ e, a.start = .atEpoch e → exec .armRun s = .next armed) ∧
        (a.start = .now → exec .armRun s = .next (armed.enterRunning s.rc.lastEpoch)))

/-- The entry to RUNNING with a start epoch: every run source begins TAKING with no newest sample number and
no gap, every window is NONE, every source CALM, the checkpoint timer is loaded with the period setting, the
block sequence and back-links start again, RUN_STARTED is set, and nothing else changes (R30, R156). -/
def Obligations.RunEntersRunning : Prop :=
  ∀ (s : State) (e : Option Word16),
    s.enterRunning e = State.setFlag
      { s with
        rc := { s.rc with runState := .running, startEpoch := e }
        ci := PerSource.of fun src =>
          if s.rc.sourceSet.get src then ⟨s.settings src, .taking, none, false, none, none⟩
          else s.intake src
        twu := ⟨⟨none, false⟩, ⟨none, false⟩, ⟨none, false⟩, ⟨none, false⟩⟩
        spm := { s.spm with pressure := ⟨.calm, .calm, .calm, .calm⟩ }
        iu := { s.iu with
          period := s.iu.periodSetting
          lockTime := s.iu.lockSetting
          timer := some s.iu.periodSetting
          lock := false
          blockSeq := 0
          prev := ⟨none, none⟩ } } .runStarted

/-- An epoch mark becomes the last epoch seen in every run state; it starts the run that is ARMED for its
number, and has no other effect otherwise (R29). -/
def Obligations.EpochMarkStartsTheArmedRun : Prop :=
  ∀ (s : State) (e : Word16),
    let b := s.setRc { s.rc with lastEpoch := some e }
    (s.rc.runState = .armed → s.rc.start = .atEpoch e →
      exec (.epochMark e) s = .next (b.enterRunning (some e))) ∧
    (s.rc.runState ≠ .armed ∨ s.rc.start ≠ .atEpoch e → exec (.epochMark e) s = .next b)

/-- STOP RUN by run state: in IDLE it is answered REFUSED_STATE; in ARMED the run ends STOPPED_BEFORE_START
with RUN_ENDED. In RUNNING it leaves RUNNING: the stop deadline timer starts at 1000 ms for each second of the
deadline and runs while the run is STOPPING, every run source's intake is closed, its HELD spans are recycled, and
its FILLING span is sealed at its present count: QUEUED with its summary, or, with retention HISTORY, recycled at
once. Its pending gap is handed over: admitted to the buffer that can take it, source after source, or offered; one
that holds both gaps keeps them while no buffer can take an entry. With every slot FREE and no gap held the run goes on
to ENDING at once, with its RUN_END entry offered. In STOPPING and ENDING it is answered OK and does nothing (R10,
R31 to R34, R55, R57, R71, R168; the order of the sources: log 8). -/
def Obligations.StopRunByRunState : Prop :=
  ∀ (s : State) (f : CmdFrame) (rest : List CmdFrame), Receives s 0x11 f rest → f.payload.length = 0 →
    let b := s.answered f rest .ok []
    (s.rc.runState = .idle → exec .stopRun s = .next (s.answered f rest .refusedState [])) ∧
    (s.rc.runState = .armed → exec .stopRun s = .next
      ((b.setRc { s.rc with runState := .idle, lastEnd := .stoppedBeforeStart }).setFlag .runEnded)) ∧
    (s.rc.runState = .running → Settles .stopRun s fun u =>
      u = b.enterStopping ∧
      (u.rc.runState = .stopping ∨ u.rc.runState = .ending ∨ u.rc.runState = .idle) ∧
      (u.rc.runState = .stopping → u.rc.deadlineTimer = some (1000 * s.rc.deadline)) ∧
      (RunLaw s → u.rc.runState ≠ .stopping → u.rc.deadlineTimer = none) ∧
      (∀ src, s.rc.sourceSet.get src = true →
        (u.intake src).intake.takes = false ∧ (u.intake src).tagPending = false ∧
          (u.twu.get src).markPending = false ∧
        (TableOk s.st →
          (∀ slot sp, s.span? slot = some sp → sp.source = src → sp.state = .held → u.span? slot = none) ∧
          (∀ slot sp, s.st.filling src = some (slot, sp) →
            (sp.retention = .history → u.span? slot = none) ∧
            (sp.retention ≠ .history → s.iu.waitSpans = [] →
              u.span? slot = some
                { sp with state := .queued, summary := (s.se.get src).map Running.finish } ∧
              slot ∈ u.st.queues.get src))) ∧
        (s.target = none → ∀ g, (s.intake src).pendingGap = some g →
          (∀ h, (s.intake src).offeredGap = some h →
            (u.intake src).pendingGap = some g ∧ (u.intake src).offeredGap = some h) ∧
          ((s.intake src).offeredGap = none →
            (u.intake src).pendingGap = none ∧ (u.intake src).offeredGap = some g))) ∧
      (∀ buf, s.target = some buf → (s.buffer buf).entries.length + 4 < 63 → IndexRests s.iu →
        u.rc.runState = .stopping →
        (∀ src, s.rc.sourceSet.get src = true → (s.intake src).offeredGap = none →
          (u.intake src).pendingGap = none ∧ (u.intake src).offeredGap = none) ∧
        (u.buffer buf).entries = (s.buffer buf).entries ++ Source.all.filterMap fun src =>
          if s.rc.sourceSet.get src = true ∧ (s.intake src).offeredGap = none then
            (s.intake src).pendingGap.map fun g => .gap
              { runId := s.rc.runId.getD 0, source := src, seq := none, first := g.first, count := g.count,
                causes := g.causes }
          else none) ∧
      (s.st.slots = [] → (∀ src, (s.intake src).pendingGap = none ∧ (s.intake src).offeredGap = none) →
        (s.target = none → u.rc = { s.rc with runState := .ending, deadlineTimer := none } ∧
          u.iu = { s.iu with
            waitRunEnd := some (s.runEndEntry s.rc.counters), timer := none, lock := false }) ∧
        (∀ buf, s.target = some buf → IndexRests s.iu →
          EntersEnding s u s.rc.counters buf
            ((s.buffer buf).entries ++ [s.runEndEntry s.rc.counters]))) ∧
      Kept b u ∧ (RunLaw s → RunLaw u)) ∧
    (s.rc.runState = .stopping ∨ s.rc.runState = .ending → exec .stopRun s = .next b)

/-- ABORT RUN outside IDLE: the jobs of BUSY lanes are cancelled and the reserved blocks of span writes
become dead, every slot is FREE and counted discarded, both buffers, the writing record and the waiting
offers are dropped, the stop deadline timer and the checkpoint timer stop, the intakes are IDLE without
gaps, the pair context is removed, and the run is IDLE, ended ABORTED, with RUN_ENDED set (R25, R38, R144;
log 12, 26). -/
def Obligations.AbortRunEndsTheRun : Prop :=
  ∀ (s : State) (f : CmdFrame) (rest : List CmdFrame), Receives s 0x12 f rest → f.payload.length = 0 →
    s.rc.runState ≠ .idle →
    Settles .abortRun s fun u =>
      u.rc = { s.rc with
        runState := .idle
        lastEnd := .aborted
        deadlineTimer := none
        counters := { s.rc.counters with
          discarded := s.rc.counters.discarded + BitVec.ofNat 64 s.st.slots.length } } ∧
      u.st = .empty ∧ u.se = ⟨none, none, none, none⟩ ∧ u.ds.pair = none ∧ u.mem = s.mem ∧
      u.iu = { s.iu with
        buffers := ⟨.empty, .empty⟩, writing := none, waitSpans := [], waitRunEnd := none, timer := none,
        lock := false } ∧
      (∀ src, u.intake src = { s.intake src with
        intake := .idle, tagPending := false, pendingGap := none, offeredGap := none } ∧
        u.twu.get src = ⟨none, false⟩ ∧ u.spm.pressure.get src = .calm) ∧
      u.nu.isPending .runEnded = true ∧
      (∀ lane, (s.lane lane).state = .busy → (u.lane lane).state ≠ .busy ∧ (u.lane lane).job = none ∧
        ∀ j, (s.lane lane).job = some (.span j) →
          (u.lane lane).deadSpace = (s.lane lane).deadSpace + j.reserved) ∧
      (∀ lane, (s.lane lane).state ≠ .busy → u.lane lane = s.lane lane)

/-- The stop deadline's expiry in STOPPING: deadline expired becomes yes, the timer stops and STOP_DEADLINE is
set. Every QUEUED span is disposed of: a MIRROR span that holds one copy is COMMITTED degraded, its repair lane
cleared, and every other one is SHED with cause STOP_DEADLINE; it stays in its slot until its entry is admitted,
and no other span changes. No span is left QUEUED, and the source queues are empty (R8, R9, R35; an expiry at any
remaining count: log 2). In any other case the row changes nothing (log 27). -/
def Obligations.StopDeadlineEmptiesTheQueues : Prop :=
  ∀ s : State,
    (s.rc.runState = .stopping → s.rc.deadlineTimer.isSome = true → TableOk s.st →
      Settles .stopDeadlineExpiry s fun u =>
        u.rc.expired = true ∧ u.rc.deadlineTimer = none ∧ u.nu.isPending .stopDeadline = true ∧
        (∀ p ∈ u.st.slots, p.2.state ≠ .queued) ∧
        (QueueLaw s.st → ∀ src, u.st.queues.get src = []) ∧
        (∀ slot sp, s.span? slot = some sp →
          (∀ v, u.span? slot = some v →
            v = if sp.state = .queued then
                if sp.laneRule = .mirror ∧ sp.copies.length = 1 then
                  { sp with state := .committed, repairLane := none, degraded := true }
                else { sp with state := .shed, shedCause := some .stopDeadline }
              else sp) ∧
          (s.target = none → (u.span? slot).isSome = true)) ∧
        u.mem = s.mem ∧ u.al = s.al ∧ u.ds = s.ds) ∧
    (s.rc.runState ≠ .stopping ∨ s.rc.deadlineTimer = none → exec .stopDeadlineExpiry s = .next s)

/-! ### Triggers and samples (R15, R46 to R56, R61 to R75) -/

/-- A trigger tag sets tag pending, and a MARK taken in RUNNING sets MARK pending, on each named source that is
TAKING or REFUSING, and nothing else changes; a MARK mask with a bit above S3 is answered BAD_VALUE (R51,
R74). -/
def Obligations.TagAndMarkReachTakingSources : Prop :=
  (∀ (s : State) (mask : BitVec 4),
    exec (.triggerTag mask) s = .next
      { s with
        ci := PerSource.of fun src =>
          if mask.getLsbD src.num && ((s.intake src).intake == .taking || (s.intake src).intake == .refusing)
          then { s.intake src with tagPending := true }
          else s.intake src }) ∧
  (∀ (s : State) (f : CmdFrame) (rest : List CmdFrame) (m : Byte), Receives s 0x18 f rest →
    f.payload = [m] → s.rc.runState = .running →
    (15 < m.toNat → exec .mark s = .next (s.answered f rest .badValue [])) ∧
    (m.toNat ≤ 15 → exec .mark s = .next
      { s.answered f rest .ok [] with
        twu := PerSource.of fun src =>
          if m.getLsbD src.num && ((s.intake src).intake == .taking || (s.intake src).intake == .refusing)
          then { s.twu.get src with markPending := true }
          else s.twu.get src }))

/-- The samples of a source that is IDLE or CLOSED are ignored and not counted: no more happens than the
evaluation of the standing claims (log 4) (R46). -/
def Obligations.SamplesOfAnIdleSourceAreIgnored : Prop :=
  ∀ (s : State) (src : Source) (xs : List Sample),
    ((s.intake src).intake = .idle ∨ (s.intake src).intake = .closed) →
    exec (.samplePacket src xs) s = .next s.evaluate

/-- A sample of a source that takes and holds a FILLING span is stored at its place in the page, counted,
and handed to the Summary Engine; nothing else changes, but that SUMMARY_SATURATED is set as the energy
saturates, when no trigger applies, the window does not end, the span is not full and the numbers are not
exhausted. The rest of its packet, of up to 64 samples in all, is then taken sample by sample in the same way, and
after the last sample history is aged, once (R15, R48, R49, R50, R69, R78, R81). -/
def Obligations.SampleIsAppended : Prop :=
  ∀ (s : State) (src : Source) (x : Sample) (slot : Nat) (sp : Span) (r : Running),
    (s.intake src).intake.takes = true → s.st.filling src = some (slot, sp) → s.se.get src = some r →
    (s.intake src).tagPending = false → (s.twu.get src).markPending = false →
    ((s.settings src).mode = .triggered → ∀ e, (s.twu.get src).window = some e →
      (s.intake src).nextNumber < e) →
    sp.count + 1 ≠ 2 ^ (s.settings src).spanExp → (s.intake src).nextNumber ≠ 2 ^ 48 - 1 →
    TableOk s.st →
    TakesSample src x s fun v =>
      let b := { s with
        mem := (s.mem.write (spoolAddr slot (2 * sp.count)) (x.extractLsb' 0 8)).write
          (spoolAddr slot (2 * sp.count + 1)) (x.extractLsb' 8 8)
        st := { s.st with slots := putSlot s.st.slots slot { sp with count := sp.count + 1 } }
        ci := s.ci.set src { s.intake src with newest := some (s.intake src).nextNumber }
        se := s.se.set src (some (r.take x)) }
      v = if (r.take x).saturated && !r.saturated then b.setFlag .summarySaturated else b

/-- The sample that brings a FILLING span to the span length seals it: the finished summary is attached, and
the span is QUEUED, or HELD where its retention is HISTORY. So does sample number 2^48 - 1, whatever the count, and
the source is then CLOSED. The seal of the span of sequence 2^32 - 1 stops the run. Such a seal of a SHEDDING source
with rule OLDEST comes first, and then its oldest HELD span is recycled; failing that its oldest QUEUED PLAIN span is shed with cause
PRESSURE and SHED is set; failing that nothing is given up. The oldest of such spans is the one of lowest sequence.
The rest of the sample's packet follows sample by sample (R10, R15, R16, R18, R37, R50, R52, R53, R83, R94). -/
def Obligations.FullSpanIsSealed : Prop :=
  (∀ (s : State) (src : Source) (x : Sample) (slot : Nat) (sp : Span) (r : Running),
    (s.intake src).intake.takes = true → s.rc.runState = .running → s.st.filling src = some (slot, sp) →
    s.se.get src = some r → (s.intake src).tagPending = false → (s.twu.get src).markPending = false →
    ((s.settings src).mode = .triggered → ∀ e, (s.twu.get src).window = some e →
      (s.intake src).nextNumber < e) →
    (s.spm.pressure.get src = .calm ∨ (s.settings src).shedRule ≠ .oldest) →
    (sp.count + 1 = 2 ^ (s.settings src).spanExp ∨ (s.intake src).nextNumber = 2 ^ 48 - 1) →
    TableOk s.st → SpanLaw s →
    let sealedIn : State → Prop := fun w =>
      findSlot w.st.slots slot = some
        { sp with
          count := sp.count + 1, state := if sp.retention = .history then .held else .queued,
          summary := some (r.take x).finish } ∧
      (∀ n, n ≠ slot → findSlot w.st.slots n = findSlot s.st.slots n) ∧
      (sp.retention ≠ .history → slot ∈ w.st.queues.get src) ∧ w.st.occupancy = s.st.occupancy ∧
      w.se.get src = none ∧ w.rc = s.rc ∧ w.al = s.al ∧ w.ds = s.ds ∧ w.iu = s.iu
    TakesSample src x s fun v =>
      (sp.seq ≠ BitVec.allOnes 32 → (s.intake src).nextNumber ≠ 2 ^ 48 - 1 → sealedIn v) ∧
      (sp.seq ≠ BitVec.allOnes 32 → (s.intake src).nextNumber = 2 ^ 48 - 1 →
        (s.intake src).pendingGap = none → sealedIn v ∧
          v.intake src = { s.intake src with intake := .closed, newest := some (2 ^ 48 - 1) }) ∧
      (sp.seq = BitVec.allOnes 32 → s.rc.sourceSet.get src = true →
        (∃ w, sealedIn w ∧ v = w.enterStopping) ∧
        (v.rc.runState = .stopping ∨ v.rc.runState = .ending ∨ v.rc.runState = .idle) ∧
        (v.rc.runState = .stopping → v.rc.deadlineTimer = some (1000 * s.rc.deadline)) ∧
        (v.intake src).intake.takes = false)) ∧
  (∀ (s : State) (src : Source) (x : Sample) (slot : Nat) (sp : Span) (r : Running),
    (s.intake src).intake.takes = true → s.rc.runState = .running → s.st.filling src = some (slot, sp) →
    s.se.get src = some r → (s.intake src).tagPending = false → (s.twu.get src).markPending = false →
    ((s.settings src).mode = .triggered → ∀ e, (s.twu.get src).window = some e →
      (s.intake src).nextNumber < e) →
    s.spm.pressure.get src = .shedding → (s.settings src).shedRule = .oldest →
    (sp.count + 1 = 2 ^ (s.settings src).spanExp ∨ (s.intake src).nextNumber = 2 ^ 48 - 1) →
    RunLaw s → SpanLaw s →
    let sealedSpan : Span :=
      { sp with
        count := sp.count + 1, state := if sp.retention = .history then .held else .queued,
        summary := some (r.take x).finish }
    let table := { s.st with slots := putSlot s.st.slots slot sealedSpan }
    TakesSample src x s fun v =>
      ∃ w g : State, g = w.sealPressure src ∧
      w.st.slots = table.slots ∧ w.st.occupancy = s.st.occupancy ∧
      (sp.retention ≠ .history → slot ∈ w.st.queues.get src) ∧ w.se.get src = none ∧ w.rc = s.rc ∧ w.al = s.al ∧
      w.ds = s.ds ∧ w.iu = s.iu ∧ w.spm = s.spm ∧
      (∀ k h, table.oldestHeld src = some (k, h) →
        g.span? k = none ∧ (∀ n, n ≠ k → g.span? n = findSlot table.slots n) ∧
        g.st.occupancy = s.st.occupancy - 1 ∧
        g.rc = { s.rc with counters := { s.rc.counters with recycled := s.rc.counters.recycled + 1 } }) ∧
      (∀ k h, table.oldestHeld src = none → table.oldestPlain src = some (k, h) →
        g.nu.isPending .shed = true ∧
        ∀ y, g.span? k = some y → y = { h with state := .shed, shedCause := some .pressure }) ∧
      (table.oldestHeld src = none → table.oldestPlain src = none → g = w) ∧
      (sp.seq ≠ BitVec.allOnes 32 → (s.intake src).nextNumber ≠ 2 ^ 48 - 1 → v = g) ∧
      (sp.seq ≠ BitVec.allOnes 32 → (s.intake src).nextNumber = 2 ^ 48 - 1 →
        (s.intake src).pendingGap = none → v.st = g.st ∧ v.rc = g.rc ∧ (v.intake src).intake = .closed) ∧
      (sp.seq = BitVec.allOnes 32 → s.rc.sourceSet.get src = true →
        v = g.enterStopping ∧ (v.intake src).intake.takes = false)) ∧
  (∀ (s : State) (src : Source), s.rc.runState = .running → s.spm.pressure.get src = .shedding →
    (s.settings src).shedRule = .oldest → TableOk s.st →
    let u := s.sealPressure src
    (∀ slot sp, s.st.oldestHeld src = some (slot, sp) →
      u.span? slot = none ∧ (∀ n, n ≠ slot → u.span? n = s.span? n) ∧
      u.st.occupancy = s.st.occupancy - 1 ∧
      u.rc.counters = { s.rc.counters with recycled := s.rc.counters.recycled + 1 }) ∧
    (∀ slot sp, s.st.oldestHeld src = none → s.st.oldestPlain src = some (slot, sp) →
      u.nu.isPending .shed = true ∧
      ∀ v, u.span? slot = some v → v.state = .shed ∧ v.shedCause = some .pressure) ∧
    (s.st.oldestHeld src = none → s.st.oldestPlain src = none → u = s)) ∧
  (∀ (t : SpanTable) (src : Source),
    (∀ slot sp, t.oldestHeld src = some (slot, sp) →
      (slot, sp) ∈ t.slots ∧ sp.source = src ∧ sp.state = .held ∧
      ∀ p ∈ t.slots, p.2.source = src → p.2.state = .held → sp.seq ≤ p.2.seq) ∧
    (t.oldestHeld src = none → ∀ p ∈ t.slots, p.2.source = src → p.2.state ≠ .held) ∧
    (∀ slot sp, t.oldestPlain src = some (slot, sp) →
      (slot, sp) ∈ t.slots ∧ sp.source = src ∧ sp.state = .queued ∧ sp.retention = .plain ∧
      ∀ p ∈ t.slots, p.2.source = src → p.2.state = .queued → p.2.retention = .plain → sp.seq ≤ p.2.seq) ∧
    (t.oldestPlain src = none →
      ∀ p ∈ t.slots, p.2.source = src → p.2.state = .queued → p.2.retention ≠ .plain))

/-- A sample of a TAKING source without a FILLING span opens a span: the lowest FREE slot is taken with the next
sequence number, and failing that the slot of the source's oldest HELD span, which is recycled. A span opened by
sample number 2^48 - 1 is sealed at it, a SHEDDING source with rule OLDEST then gives up a span, and the source is
CLOSED, or with sequence 2^32 - 1 the run stops. The record carries the source's settings, the sample's number and the
retention of its mode and window, the sample stands at the start of the page, and issued rises by 1, occupancy with a
FREE slot taken. Where the source holds a pending gap, the open hands it to the Index Unit: it becomes the offered
gap, and with a buffer that can take it it is admitted there as a GAP entry and the offered gap becomes absent. When
an offered gap is admitted, a CLOSED source hands over its pending gap next. The rest of the sample's packet follows
sample by sample (R12 to R14, R37, R48, R50, R53, R55 to R57, R60, R77, R94, R97, R159). -/
def Obligations.SampleOpensASpan : Prop :=
  (∀ (s : State) (src : Source) (x : Sample) (slot : Nat) (q : Word32),
    (s.intake src).intake = .taking → s.st.filling src = none →
    (s.st.lowestFree = some slot ∨
      s.st.lowestFree = none ∧ ∃ h, s.st.oldestHeld src = some (slot, h)) →
    s.rc.nextSeq = .number q → (s.intake src).pendingGap = none → (s.intake src).tagPending = false →
    (s.twu.get src).markPending = false →
    ((s.settings src).mode = .triggered → ∀ e, (s.twu.get src).window = some e →
      (s.intake src).nextNumber < e) →
    0 < (s.settings src).spanExp → TableOk s.st →
    let opened : Span :=
      { state := .filling, runId := s.rc.runId.getD 0, seq := q, source := src,
        first := (s.intake src).nextNumber, count := 1,
        retention := if (s.settings src).mode = .continuous then .plain
          else if (s.twu.get src).window = none then .history else .keep,
        marks := [], markOverflow := 0, laneRule := (s.settings src).laneRule,
        mirrorPolicy := if (s.settings src).laneRule = .mirror then some (s.settings src).mirrorPolicy
          else none,
        copies := [], repairLane := none, degraded := false, attempts := 0, lastOutcome := .none,
        shedCause := none, summary := none }
    let issued : RunController :=
      { s.rc with
        nextSeq := if q = BitVec.allOnes 32 then .exhausted else .number (q + 1)
        counters := { s.rc.counters with
          issued := s.rc.counters.issued + 1
          recycled := s.rc.counters.recycled + (if s.st.lowestFree = none then 1 else 0) } }
    TakesSample src x s fun v =>
      ((s.intake src).nextNumber = 2 ^ 48 - 1 → s.rc.runState = .running →
        ∃ w g : State, g = w.sealPressure src ∧
          findSlot w.st.slots slot = some
            { opened with
              state := if opened.retention = .history then .held else .queued,
              summary := some (startRunning slot (s.settings src) x).finish } ∧
          (∀ n, n ≠ slot → findSlot w.st.slots n = findSlot s.st.slots n) ∧ w.rc = issued ∧
          w.se.get src = none ∧ w.iu = s.iu ∧ w.al = s.al ∧ w.ds = s.ds ∧
          ((s.settings src).shedRule ≠ .oldest → g = w) ∧
          (q ≠ BitVec.allOnes 32 → v.st = g.st ∧ v.rc = g.rc ∧ v.se.get src = none ∧
            (v.intake src).intake = .closed ∧ (v.intake src).newest = some (2 ^ 48 - 1)) ∧
          (q = BitVec.allOnes 32 → RunLaw s →
            v = g.enterStopping ∧ (v.intake src).intake.takes = false)) ∧
      ((s.intake src).nextNumber ≠ 2 ^ 48 - 1 →
      findSlot v.st.slots slot = some opened ∧
      (∀ n, n ≠ slot → findSlot v.st.slots n = findSlot s.st.slots n) ∧
      v.st.occupancy = s.st.occupancy + (if s.st.lowestFree = none then 0 else 1) ∧
      v.st.queues = s.st.queues ∧
      v.rc = issued ∧
      (v.intake src).newest = some (s.intake src).nextNumber ∧
      v.se.get src = some (startRunning slot (s.settings src) x) ∧
      v.mem = (s.mem.write (spoolAddr slot 0) (x.extractLsb' 0 8)).write (spoolAddr slot 1)
        (x.extractLsb' 8 8) ∧ v.al = s.al ∧ v.ds = s.ds)) ∧
  (∀ t : SpanTable,
    (∀ slot, t.lowestFree = some slot ↔
      slot < 4096 ∧ findSlot t.slots slot = none ∧ ∀ n, n < slot → (findSlot t.slots n).isSome = true) ∧
    (t.lowestFree = none ↔ ∀ n, n < 4096 → (findSlot t.slots n).isSome = true)) ∧
  (∀ (s : State) (src : Source) (x : Sample) (slot : Nat) (q : Word32) (g : Gap),
    (s.intake src).intake = .taking → s.st.filling src = none →
    (s.st.lowestFree = some slot ∨
      s.st.lowestFree = none ∧ ∃ h, s.st.oldestHeld src = some (slot, h)) →
    s.rc.nextSeq = .number q → (s.intake src).pendingGap = some g → (s.intake src).offeredGap = none →
    (s.intake src).tagPending = false → (s.twu.get src).markPending = false →
    ((s.settings src).mode = .triggered → ∀ e, (s.twu.get src).window = some e →
      (s.intake src).nextNumber < e) →
    0 < (s.settings src).spanExp → (s.intake src).nextNumber ≠ 2 ^ 48 - 1 → TableOk s.st →
    IndexRests s.iu → OfferLaw s →
    TakesSample src x s fun v =>
      (∃ sp, findSlot v.st.slots slot = some sp ∧ sp.state = .filling ∧ sp.source = src ∧ sp.seq = q ∧
        sp.first = (s.intake src).nextNumber ∧ sp.count = 1) ∧
      (v.intake src).pendingGap = none ∧
      (s.target = none → (v.intake src).offeredGap = some g ∧ v.iu = s.iu) ∧
      (∀ b, s.target = some b → (s.buffer b).entries.length + 1 < 63 →
        (v.intake src).offeredGap = none ∧
        v.iu = s.iu.admits b (.gap
          { runId := s.rc.runId.getD 0, source := src, seq := none, first := g.first, count := g.count,
            causes := g.causes }))) ∧
  (∀ (s : State) (src : Source) (g : Gap) (b : BufferName), (s.intake src).offeredGap = some g →
    s.target = some b → (s.buffer b).entries.length + 2 < 63 → IndexRests s.iu → s.rc.runState = .running →
    let entry : Gap → Entry := fun g => .gap
      { runId := s.rc.runId.getD 0, source := src, seq := none, first := g.first, count := g.count,
        causes := g.causes }
    ((s.intake src).intake ≠ .closed ∨ (s.intake src).pendingGap = none →
      s.index [.offer (.gap src)] =
        { s with
          ci := s.ci.set src { s.intake src with offeredGap := none }
          iu := s.iu.admits b (entry g) }) ∧
    (∀ h, (s.intake src).intake = .closed → (s.intake src).pendingGap = some h →
      s.index [.offer (.gap src)] =
        { s with
          ci := s.ci.set src { s.intake src with pendingGap := none, offeredGap := none }
          iu := (s.iu.admits b (entry g)).admits b (entry h) }))

/-- A sample that no span takes is dropped into the pending gap of its source with its cause, and counted
lost; INTAKE_LOSS is set with a new gap. The cause is REFUSED for a REFUSING source, and OVERRUN for a TAKING
one that holds both gaps, or that finds the sequence numbers exhausted, or no FREE slot and no HELD span of its own
(a REFUSING source that holds both gaps: log 30). With sample number 2^48 - 1 so dropped the source is CLOSED and
hands its gap over: admitted to the buffer that can take it, or offered, or kept behind the gap already offered.
The rest of the sample's packet follows sample by sample (R12, R13, R48, R49, R50, R53, R54, R56, R57). -/
def Obligations.SampleIsDroppedIntoTheGap : Prop :=
  ∀ (s : State) (src : Source) (x : Sample) (cause : Byte),
    s.st.filling src = none → (s.intake src).tagPending = false → (s.twu.get src).markPending = false →
    ((s.settings src).mode = .triggered → ∀ e, (s.twu.get src).window = some e →
      (s.intake src).nextNumber < e) →
    ((s.intake src).intake = .refusing ∧ cause = 0x10 ∨
      (s.intake src).intake = .taking ∧ cause = 0x08 ∧
        ((s.intake src).pendingGap.isSome = true ∧ (s.intake src).offeredGap.isSome = true ∨
          s.rc.nextSeq = .exhausted ∨ s.st.lowestFree = none ∧ s.st.oldestHeld src = none)) →
    TakesSample src x s fun v =>
      let n := (s.intake src).nextNumber
      let gap : Gap :=
        match (s.intake src).pendingGap with
        | none => { first := n, count := 1, causes := cause }
        | some g => { first := g.first, count := g.count + 1, causes := g.causes ||| cause }
      let i := { s.intake src with newest := some n, pendingGap := some gap }
      let b := { s with
        ci := s.ci.set src i
        rc := { s.rc with counters := { s.rc.counters with
          lost := s.rc.counters.lost.set src (s.rc.counters.lost.get src + 1) } } }
      let dropped := if (s.intake src).pendingGap = none then b.setFlag .intakeLoss else b
      (n ≠ 2 ^ 48 - 1 → v = dropped) ∧
      (n = 2 ^ 48 - 1 → s.rc.runState = .running →
        ((s.intake src).offeredGap ≠ none →
          v = { dropped with ci := s.ci.set src { i with intake := .closed } }) ∧
        ((s.intake src).offeredGap = none →
          (s.target = none → v = { dropped with
            ci := s.ci.set src
              { i with intake := .closed, pendingGap := none, offeredGap := some gap } }) ∧
          (∀ buf, s.target = some buf → (s.buffer buf).entries.length + 1 < 63 → IndexRests s.iu →
            v = { dropped with
              ci := s.ci.set src { i with intake := .closed, pendingGap := none }
              iu := s.iu.admits buf (.gap
                { runId := s.rc.runId.getD 0, source := src, seq := none, first := gap.first,
                  count := gap.count, causes := gap.causes }) })))

/-- A sample changes two bytes of spool memory, those of its place in the page of the span that takes it,
and no other; a dropped sample changes none. It leaves memory in its canonical form, so the same holds of the
next sample of its packet, and the ageing and the evaluation at the packet's end change no byte (R1, R15, R50). -/
def Obligations.SampleWritesItsOwnBytes : Prop :=
  ∀ (s : State) (src : Source) (x : Sample), MemOk s →
    TakesSample src x s fun v =>
      MemOk v ∧ (v.age src).evaluate.mem = v.mem ∧
      ∀ a, v.mem.read a =
        match State.sampleStore
          (s.onIntake src fun i => { i with newest := some i.nextNumber }) src with
        | none => s.mem.read a
        | some (slot, k) =>
          if a = spoolAddr slot (2 * k + 1) then x.extractLsb' 8 8
          else if a = spoolAddr slot (2 * k) then x.extractLsb' 0 8
          else s.mem.read a

/-- A trigger on a sample that a CONTINUOUS source's span takes adds a mark of the sample's offset with
pre-shortfall 0, and clears the pending tag and MARK; the window stays NONE. On a TRIGGERED source it keeps
the HELD spans that reach into the pre-window, makes the span that took the sample KEEP, marks it with the
offset and the pre-shortfall, and opens the window, or moves its end to the later of the two; on a dropped sample it
does the same but for the span and its mark. The marks of a span stay in order of offset and at most 8; with 8 held
the list stays and the overflow counts up to 65535. A sample is placed first: in the span that takes it, or dropped.
Then a tag or MARK pending is applied to it, and then the window end, the span length and the last number are tested:
a span sealed by one of them carries the mark. At a sample at or above the window end the window closes, and
the span that took the sample is sealed at it, which stops the run at sequence 2^32 - 1, and the source is CLOSED at
sample number 2^48 - 1, and with rule OLDEST a SHEDDING source then gives up a span. At a packet's end a TRIGGERED source recycles every HELD span whose
last sample lies more than the pre depth behind the newest. The pre-shortfall is the number of samples of the
pre-window that no span of the source holds but a SHED one (R4, R37, R50, R52, R53, R61 to R67, R69, R73, R94; how the pre-shortfall
is counted: log 22). -/
def Obligations.TriggerMarksStayInOrder : Prop :=
  (∀ (s : State) (src : Source) (slot n : Nat) (sp : Span), (s.settings src).mode = .continuous →
    ((s.intake src).tagPending = true ∨ (s.twu.get src).markPending = true) →
    s.span? slot = some sp →
    s.applyTrigger src n (some slot) =
      { s with
        ci := s.ci.set src { s.intake src with tagPending := false }
        twu := s.twu.set src { s.twu.get src with markPending := false }
        st := { s.st with
          slots := putSlot s.st.slots slot (sp.addMark { offset := n - sp.first, shortfall := 0 }) } }) ∧
  (∀ (sp : Span) (m : TriggerMark), marksInOrder sp.marks = true →
    (sp.marks.length < 8 →
      marksInOrder (sp.addMark m).marks = true ∧ (sp.addMark m).marks.length = sp.marks.length + 1 ∧
        (∀ k, k ∈ (sp.addMark m).marks ↔ k = m ∨ k ∈ sp.marks) ∧
        (sp.addMark m).markOverflow = sp.markOverflow) ∧
    (8 ≤ sp.marks.length →
      (sp.addMark m).marks = sp.marks ∧ (sp.addMark m).markOverflow = min 65535 (sp.markOverflow + 1))) ∧
  (∀ (s : State) (src : Source) (slot n : Nat) (sp : Span), (s.settings src).mode = .triggered →
    ((s.intake src).tagPending = true ∨ (s.twu.get src).markPending = true) →
    s.span? slot = some sp → sp.state = .filling → TableOk s.st →
    let u := s.applyTrigger src n (some slot)
    u.twu.get src =
      { window := some (max (n + (s.settings src).postDepth) (((s.twu.get src).window).getD 0))
        markPending := false } ∧
    (u.intake src).tagPending = false ∧
    u.span? slot = some (({ sp with retention := .keep } : Span).addMark
      { offset := n - sp.first, shortfall := s.shortfall src n }) ∧
    (∀ k h, s.span? k = some h → h.source = src → h.state = .held →
      u.span? k =
        if n - (s.settings src).preDepth ≤ h.first + h.count - 1 then
          some { h with state := .queued, retention := .keep }
        else some h) ∧
    u.mem = s.mem ∧ u.rc = s.rc ∧ u.al = s.al ∧ u.ds = s.ds) ∧
  (∀ (s : State) (src : Source) (n : Nat),
    ((s.intake src).tagPending = true ∨ (s.twu.get src).markPending = true) → TableOk s.st →
    let u := s.applyTrigger src n none
    (u.twu.get src).markPending = false ∧ (u.intake src).tagPending = false ∧
    ((s.settings src).mode = .continuous → (u.twu.get src).window = (s.twu.get src).window ∧ u.st = s.st) ∧
    ((s.settings src).mode = .triggered →
      (u.twu.get src).window = some (max (n + (s.settings src).postDepth) (((s.twu.get src).window).getD 0)) ∧
      ∀ k h, s.span? k = some h → u.span? k =
        if h.source = src ∧ h.state = .held ∧ n - (s.settings src).preDepth ≤ h.first + h.count - 1 then
          some { h with state := .queued, retention := .keep }
        else some h) ∧
    u.mem = s.mem ∧ u.rc = s.rc ∧ u.al = s.al ∧ u.ds = s.ds) ∧
  (∀ (s : State) (src : Source) (x : Sample) (slot : Nat) (sp : Span) (r : Running) (e : Nat),
    (s.intake src).intake.takes = true → s.rc.runState = .running → s.st.filling src = some (slot, sp) →
    s.se.get src = some r → (s.intake src).tagPending = false → (s.twu.get src).markPending = false →
    (s.settings src).mode = .triggered → (s.twu.get src).window = some e →
    e ≤ (s.intake src).nextNumber →
    RunLaw s → SpanLaw s →
    TakesSample src x s fun v =>
      ∃ w g : State, g = w.sealPressure src ∧ (w.twu.get src).window = none ∧
      w.st.slots = putSlot s.st.slots slot
        { sp with
          count := sp.count + 1, state := if sp.retention = .history then .held else .queued,
          summary := some (r.take x).finish } ∧
      w.rc = s.rc ∧ w.spm = s.spm ∧
      (s.spm.pressure.get src = .calm ∨ (s.settings src).shedRule ≠ .oldest → g = w) ∧
      (sp.seq ≠ BitVec.allOnes 32 → (s.intake src).nextNumber ≠ 2 ^ 48 - 1 → v = g) ∧
      (sp.seq ≠ BitVec.allOnes 32 → (s.intake src).nextNumber = 2 ^ 48 - 1 →
        (s.intake src).pendingGap = none → v.st = g.st ∧ v.rc = g.rc ∧ (v.intake src).intake = .closed) ∧
      (sp.seq = BitVec.allOnes 32 → s.rc.sourceSet.get src = true → v = g.enterStopping)) ∧
  (∀ (s : State) (src : Source) (x : Sample), (s.intake src).intake.takes = true →
    let n := (s.intake src).nextNumber
    let p := State.place { s with ci := s.ci.set src { s.intake src with newest := some n } } src n x
    TakesSample src x s fun v =>
      v = (((p.1.applyTrigger src n p.2).testWindow src n p.2).testLength src p.2).testNumbers src n) ∧
  (∀ (s : State) (src : Source) (n : Nat) (x : Sample) (slot : Nat) (sp : Span) (r : Running),
    s.st.filling src = some (slot, sp) → s.se.get src = some r →
    let b := { s with
      mem := (s.mem.write (spoolAddr slot (2 * sp.count)) (x.extractLsb' 0 8)).write
        (spoolAddr slot (2 * sp.count + 1)) (x.extractLsb' 8 8)
      st := { s.st with slots := putSlot s.st.slots slot { sp with count := sp.count + 1 } }
      se := s.se.set src (some (r.take x)) }
    s.place src n x =
      (if (r.take x).saturated && !r.saturated then b.setFlag .summarySaturated else b, some slot)) ∧
  (∀ (s w : State) (src : Source) (x : Sample) (slot : Nat) (stored : Span),
    (s.intake src).intake.takes = true →
    ((w.intake src).tagPending = true ∨ (w.twu.get src).markPending = true) →
    State.place { s with
      ci := s.ci.set src { s.intake src with newest := some (s.intake src).nextNumber } } src
      (s.intake src).nextNumber x = (w, some slot) →
    w.st.filling src = some (slot, stored) → RunLaw s → RunLaw w → w.rc.runState = .running →
    (∀ k y, w.span? k = some y → y.source = src → y.state = .filling → k = slot) →
    let n := (s.intake src).nextNumber
    let set := w.settings src
    let windowEnd := max (n + set.postDepth) (((w.twu.get src).window).getD 0)
    let marked :=
      if set.mode = .triggered then
        ({ stored with retention := .keep } : Span).addMark
          { offset := n - stored.first, shortfall := w.shortfall src n }
      else stored.addMark { offset := n - stored.first, shortfall := 0 }
    let closes := set.mode = .triggered ∧ windowEnd ≤ n
    let ends := closes ∨ stored.count = 2 ^ set.spanExp ∨ n = 2 ^ 48 - 1
    TakesSample src x s fun v =>
      (v.intake src).tagPending = false ∧ (v.twu.get src).markPending = false ∧
      (v.twu.get src).window =
        (if set.mode = .triggered then if windowEnd ≤ n then none else some windowEnd
        else (w.twu.get src).window) ∧
      (¬ ends → v.span? slot = some marked ∧ v.rc = w.rc ∧
        ∀ k h, k ≠ slot → w.span? k = some h → v.span? k =
          if set.mode = .triggered ∧ h.source = src ∧ h.state = .held ∧
              n - set.preDepth ≤ h.first + h.count - 1 then
            some { h with state := .queued, retention := .keep }
          else some h) ∧
      (ends → stored.seq ≠ BitVec.allOnes 32 →
        (w.spm.pressure.get src = .calm ∨ set.shedRule ≠ .oldest) →
        (n ≠ 2 ^ 48 - 1 ∨ (w.intake src).pendingGap = none) →
        v.span? slot = some
          { marked with
            state := if marked.retention = .history then .held else .queued,
            summary := (w.se.get src).map Running.finish }) ∧
      (ends → stored.seq = BitVec.allOnes 32 → w.rc.sourceSet.get src = true →
        (v.intake src).intake.takes = false ∧ v.rc.runState ≠ .running)) ∧
  (∀ (s w : State) (src : Source) (x : Sample), (s.intake src).intake.takes = true →
    ((w.intake src).tagPending = true ∨ (w.twu.get src).markPending = true) →
    State.place { s with
      ci := s.ci.set src { s.intake src with newest := some (s.intake src).nextNumber } } src
      (s.intake src).nextNumber x = (w, none) →
    (s.intake src).nextNumber ≠ 2 ^ 48 - 1 → TableOk w.st →
    let n := (s.intake src).nextNumber
    let set := w.settings src
    let windowEnd := max (n + set.postDepth) (((w.twu.get src).window).getD 0)
    TakesSample src x s fun v =>
      v.intake src = { w.intake src with tagPending := false } ∧ v.rc = w.rc ∧
      v.twu.get src =
        { window :=
            if set.mode = .triggered then if windowEnd ≤ n then none else some windowEnd
            else (w.twu.get src).window
          markPending := false } ∧
      ∀ k h, w.span? k = some h → v.span? k =
        if set.mode = .triggered ∧ h.source = src ∧ h.state = .held ∧
            n - set.preDepth ≤ h.first + h.count - 1 then
          some { h with state := .queued, retention := .keep }
        else some h) ∧
  (∀ (s : State) (src : Source) (n : Nat),
    (s.st.slots.Pairwise fun p q => p.2.source = src → q.2.source = src →
      p.2.first + p.2.count ≤ q.2.first ∨ q.2.first + q.2.count ≤ p.2.first) →
    s.shortfall src n = ((List.range n).filter fun m =>
      decide (n - (s.settings src).preDepth ≤ m) && !(s.st.slots.any fun p =>
        decide (p.2.source = src) && decide (p.2.state ≠ .shed) && decide (p.2.first ≤ m) &&
          decide (m < p.2.first + p.2.count))).length) ∧
  (∀ (s : State) (src : Source) (n e : Nat), (s.settings src).mode = .triggered →
    (s.twu.get src).window = some e →
    (e ≤ n → s.testWindow src n none =
      { s with twu := s.twu.set src { s.twu.get src with window := none } }) ∧
    (n < e → ∀ taken, s.testWindow src n taken = s)) ∧
  (∀ (s : State) (src : Source), s.rc.runState = .running → TableOk s.st →
    let u := s.age src
    (∀ newest, (s.settings src).mode = .triggered → (s.intake src).intake.takes = true →
      (s.intake src).newest = some newest → (s.settings src).preDepth ≤ newest →
      (∀ k h, s.span? k = some h → u.span? k =
        if h.source = src ∧ h.state = .held ∧ h.first + h.count - 1 < newest - (s.settings src).preDepth
        then none else some h) ∧
      u.st.occupancy = u.st.slots.length ∧
      u.rc.counters = { s.rc.counters with
        recycled := s.rc.counters.recycled + BitVec.ofNat 64 (s.st.slots.length - u.st.slots.length) }) ∧
    ((s.settings src).mode = .continuous ∨ (s.intake src).intake.takes = false ∨
        (s.intake src).newest = none ∨
        (∃ newest, (s.intake src).newest = some newest ∧ newest < (s.settings src).preDepth) →
      u = s))

/-- The scaled term of a sample under a gain is the greatest integer not above the exact product divided by
65536; it lies from -2^30 to 2^30, and reaches 2^30 only for -32768 under -2^31. The table's examples hold;
gain 65536 gives the sample itself, gain 0 gives 0 and leaves scaled sum and energy at 0, and a negative gain
inverts the sign (R79). A running summary starts from the opening sample with the source's gain and bucket. Over the
samples of its span it holds their count, their least and greatest, and the exact sums of samples and of scaled terms;
its energy is the exact sum of squared terms, held at 2^64 - 1 with the saturated mark once it exceeds that. The open
bucket takes each sample and is closed, its pair appended, when it holds the bucket size. Finishing closes a bucket
left open as the last pair, and hands over the rest as it stands (R77, R78, R80, R82, R83). -/
def Obligations.ScaledTermRoundsDown : Prop :=
  (∀ (x : Sample) (g : BitVec 32),
    scaledTerm x g * 65536 ≤ x.toInt * g.toInt ∧ x.toInt * g.toInt < (scaledTerm x g + 1) * 65536 ∧
    -2 ^ 30 ≤ scaledTerm x g ∧ scaledTerm x g ≤ 2 ^ 30 ∧
    (scaledTerm x g = 2 ^ 30 → x.toInt = -32768 ∧ g.toInt = -2 ^ 31) ∧
    (g.toInt = 65536 → scaledTerm x g = x.toInt) ∧ (g.toInt = 0 → scaledTerm x g = 0) ∧
    (g.toInt < 0 → (0 < x.toInt → scaledTerm x g < 0) ∧ (x.toInt < 0 → 0 ≤ scaledTerm x g))) ∧
  (scaledTerm 3 98304 = 4 ∧ scaledTerm (BitVec.ofInt 16 (-3)) 98304 = -5 ∧ scaledTerm 1 1 = 0 ∧
    scaledTerm (BitVec.ofInt 16 (-1)) 1 = -1 ∧
    scaledTerm 32767 (BitVec.ofInt 32 (-98304)) = -49151 ∧
    scaledTerm (BitVec.ofInt 16 (-32768)) 2147483647 = -1073741824) ∧
  (∀ (r : Running) (x : Sample), r.gain.toInt = 0 → r.scaledSum = 0 → r.energy = 0 →
    (r.take x).scaledSum = 0 ∧ (r.take x).energy = 0) ∧
  (∀ (r : Running) (x : Sample) (g : BitVec 32),
    (({ r with gain := g } : Running).take x).count = (r.take x).count ∧
    (({ r with gain := g } : Running).take x).range = (r.take x).range ∧
    (({ r with gain := g } : Running).take x).rawSum = (r.take x).rawSum ∧
    (({ r with gain := g } : Running).take x).envelope = (r.take x).envelope) ∧
  (∀ (slot : Nat) (set : SourceSettings) (x : Sample) (xs : List Sample),
    startRunning slot set x =
      { slot := slot, gain := set.gain, bucketExp := set.bucketExp, count := 1,
        range := ⟨x.toInt, x.toInt⟩, rawSum := x.toInt, scaledSum := scaledTerm x set.gain,
        energy := (scaledTerm x set.gain * scaledTerm x set.gain).toNat, saturated := false, envelope := [],
        openBucket := some { range := ⟨x.toInt, x.toInt⟩, count := 1 } } ∧
    let r := xs.foldl Running.take (startRunning slot set x)
    let squares := ((x :: xs).map fun y => (scaledTerm y set.gain * scaledTerm y set.gain).toNat).sum
    r.slot = slot ∧ r.gain = set.gain ∧ r.bucketExp = set.bucketExp ∧ r.count = xs.length + 1 ∧
    ((∃ y ∈ x :: xs, r.range.low = y.toInt) ∧ (∃ y ∈ x :: xs, r.range.high = y.toInt) ∧
      ∀ y ∈ x :: xs, r.range.low ≤ y.toInt ∧ y.toInt ≤ r.range.high) ∧
    r.rawSum = ((x :: xs).map BitVec.toInt).sum ∧
    r.scaledSum = ((x :: xs).map fun y => scaledTerm y set.gain).sum ∧
    r.energy = min (2 ^ 64 - 1) squares ∧ r.saturated = decide (2 ^ 64 - 1 < squares) ∧
    (0 < set.bucketExp →
      r.finish.envelope.length = (xs.length + 2 ^ set.bucketExp) / 2 ^ set.bucketExp)) ∧
  (∀ (r : Running) (x : Sample),
    let bucket : OpenBucket :=
      match r.openBucket with
      | some b => { range := ⟨min b.range.low x.toInt, max b.range.high x.toInt⟩, count := b.count + 1 }
      | none => { range := ⟨x.toInt, x.toInt⟩, count := 1 }
    (bucket.count = 2 ^ r.bucketExp →
      (r.take x).envelope = r.envelope ++ [bucket.range] ∧ (r.take x).openBucket = none) ∧
    (bucket.count ≠ 2 ^ r.bucketExp →
      (r.take x).envelope = r.envelope ∧ (r.take x).openBucket = some bucket)) ∧
  (∀ r : Running, r.finish =
    { count := r.count, range := r.range, rawSum := r.rawSum, scaledSum := r.scaledSum, energy := r.energy,
      saturated := r.saturated, bucketExp := r.bucketExp,
      envelope := r.envelope ++ match r.openBucket with
        | some b => [b.range]
        | none => [] })

/-! ### Spool pressure (R88 to R92) -/

/-- An occupancy change from u to v sets SPOOL_LEVEL just when it crosses a boundary whose notify mark is
on, upward with u < b ≤ v or downward with v < b ≤ u; then each enabled source takes the state that the table
of R91 gives for v, and a source that is not enabled keeps its own. The intake of a NEWEST source moves with it: TAKING to REFUSING as it becomes
SHEDDING, REFUSING to TAKING as it becomes CALM; no other intake changes (R46, R90, R91, R96). -/
def Obligations.OccupancyChangeMovesThePressure : Prop :=
  ∀ (s : State) (u v : Nat),
    (s.nu.isPending .spoolLevel = false →
      ((s.occupancyChanged u v).nu.isPending .spoolLevel = true ↔
        ∃ i : Fin 4, s.spm.notify.get i = true ∧
          (u < s.spm.boundary.get i ∧ s.spm.boundary.get i ≤ v ∨
            v < s.spm.boundary.get i ∧ s.spm.boundary.get i ≤ u))) ∧
    (∀ src, (s.settings src).enabled = true →
      let shedAt := s.spm.boundary.get (s.settings src).shedBoundary
      let resumeAt := s.spm.boundary.get (s.settings src).resumeBoundary
      (s.spm.pressure.get src = .calm →
        (s.occupancyChanged u v).spm.pressure.get src = if shedAt ≤ v then .shedding else .calm) ∧
      (s.spm.pressure.get src = .shedding →
        (s.occupancyChanged u v).spm.pressure.get src = if v ≤ resumeAt then .calm else .shedding)) ∧
    (∀ src, (s.settings src).enabled = false →
      (s.occupancyChanged u v).spm.pressure.get src = s.spm.pressure.get src) ∧
    (∀ src,
      let shedAt := s.spm.boundary.get (s.settings src).shedBoundary
      let resumeAt := s.spm.boundary.get (s.settings src).resumeBoundary
      (s.occupancyChanged u v).intake src = { s.intake src with
        intake :=
          if (s.settings src).enabled ∧ (s.settings src).shedRule = .newest then
            if s.spm.pressure.get src = .calm ∧ shedAt ≤ v ∧ (s.intake src).intake = .taking then .refusing
            else if s.spm.pressure.get src = .shedding ∧ v ≤ resumeAt ∧
                (s.intake src).intake = .refusing then .taking
            else (s.intake src).intake
          else (s.intake src).intake })

/-- SET SPOOL with values that fit replaces the boundaries, notify marks and attempt limit together, is
answered with the values in force, laid out as the command carries them (log 7), and evaluates the pressure
states of the enabled sources. A boundary above 4096, an attempt limit outside 1 to 7, boundaries that fall, and
boundaries that an enabled source's settings do not fit are answered BAD_VALUE (R88, R89, R92). -/
def Obligations.SetSpoolReplacesTheBoundaries : Prop :=
  ∀ (s : State) (f : CmdFrame) (rest : List CmdFrame), Receives s 0x28 f rest → f.payload.length = 10 →
    ((∃ k, k < 4 ∧ 4096 < field f.payload (2 * k) 2) ∨ byteAt f.payload 9 = 0 ∨ 7 < byteAt f.payload 9 ∨
        (∃ k, k < 3 ∧ field f.payload (2 * (k + 1)) 2 < field f.payload (2 * k) 2) →
      exec .setSpool s = .next (s.answered f rest .badValue [])) ∧
    ∀ o, decodeSpool f.payload = some o →
      ((∀ src, (s.settings src).enabled = true →
          o.boundary.get (s.settings src).resumeBoundary < o.boundary.get (s.settings src).shedBoundary) →
        ∃ t, exec .setSpool s = .next t ∧
          t = ((s.answered f rest .ok (s.spm.adopt o).setBytes).setSpm
            { boundary := o.boundary, notify := o.notify, limit := o.limit,
              pressure := s.spm.pressure }).evalAllPressure s.st.occupancy ∧
          t.spm.boundary = o.boundary ∧ t.spm.notify = o.notify ∧ t.spm.limit = o.limit ∧ t.nu = s.nu) ∧
      ((∃ src, (s.settings src).enabled = true ∧
          o.boundary.get (s.settings src).shedBoundary ≤ o.boundary.get (s.settings src).resumeBoundary) →
        exec .setSpool s = .next (s.answered f rest .badValue []))

/-- SET SOURCE in IDLE with fields in range whose boundaries fit replaces every setting of the named source
and makes it CALM; the reply carries the fields as they stand, laid out as in the command (log 7), and nothing
else changes. A source number above 3, a field out of its range, and boundaries that do not fit an enabled source
are answered BAD_VALUE (R43, R44, R92). -/
def Obligations.SetSourceReplacesTheSettings : Prop :=
  ∀ (s : State) (f : CmdFrame) (rest : List CmdFrame), Receives s 0x20 f rest → f.payload.length = 24 →
    s.rc.runState = .idle →
    ((∃ k low high, (k, low, high) ∈
          [(0, 0, 3), (1, 0, 1), (2, 0, 1), (3, 20, 23), (12, 0, 3), (13, 0, 1), (14, 0, 1), (15, 0, 7),
            (16, 0, 2), (17, 0, 3), (18, 0, 3), (19, 14, 17)] ∧
          (byteAt f.payload k < low ∨ high < byteAt f.payload k)) ∨
        2 ^ 31 < field f.payload 4 4 ∨ field f.payload 8 4 = 0 ∨ 2 ^ 31 < field f.payload 8 4 →
      exec .setSource s = .next (s.answered f rest .badValue [])) ∧
    ∀ src set, decodeSource f.payload = some (src, set) →
      ((set.enabled = true →
          s.spm.boundary.get set.resumeBoundary < s.spm.boundary.get set.shedBoundary) →
        exec .setSource s = .next
          { s.answered f rest .ok (leBytes 1 src.num ++ set.bytes) with
            ci := s.ci.set src { s.intake src with settings := set }
            spm := { s.spm with pressure := s.spm.pressure.set src .calm } }) ∧
      (set.enabled = true →
        s.spm.boundary.get set.shedBoundary ≤ s.spm.boundary.get set.resumeBoundary →
        exec .setSource s = .next (s.answered f rest .badValue []))

/-! ### Notices (R173 to R175) -/

/-- SET NOTICES replaces the classes and enables together and is answered with them, and the pending flags stay.
After the reply, each class from 0 to 3 that is now enabled and holds a pending flag, and that was disabled before or
has gained a pending flag from another class, is given one notice of every flag pending in it: queued while the queue
holds 14 frames or fewer, owed otherwise. Nothing else changes. CLEAR NOTICES clears each named flag and leaves every
other; notices already queued stay. A class above 3 and a bit beyond the seventeenth flag are answered
BAD_VALUE (R173, R174, R175; the reply to SET NOTICES is laid out as the command: log 7; a flag that a class gains: log 28). -/
def Obligations.NoticesAreSetAndCleared : Prop :=
  (∀ (s : State) (f : CmdFrame) (rest : List CmdFrame), Receives s 0x60 f rest → f.payload.length = 18 →
    (∀ o, decodeNotices f.payload = some o →
      let holds : Fin 4 → Flag → Bool := fun c g => s.nu.isPending g && decide (o.classOf.get g.idx = c)
      let due : List (Fin 4) := [0, 1, 2, 3].filter fun c => o.enable.get c && Flag.all.any fun g =>
        holds c g && (!s.nu.enable.get c || decide (s.nu.cls g ≠ c))
      let sent := due.take (14 - s.clp.out.length)
      let b := s.answered f rest .ok o.bytes
      ∃ t, exec .setNotices s = .next t ∧ ∃ notices : List OutFrame,
        t = { b with
          clp := { b.clp with out := b.clp.out ++ notices }
          nu := { s.nu with
            classOf := o.classOf
            enable := o.enable
            owed := t.nu.owed
            noticeCount := s.nu.noticeCount + BitVec.ofNat 8 sent.length } } ∧
        (∀ c, t.nu.owed.get c = decide (c ∈ due ∧ c ∉ sent)) ∧ notices.length = sent.length ∧
        ∀ (k : Nat) (c : Fin 4), sent[k]? = some c → ∃ flags : BitVec 17,
          notices[k]? = some
            { kind := .notice, tag := s.nu.noticeCount + BitVec.ofNat 8 k, code := BitVec.ofNat 8 c.val,
              payload := leBytes 3 flags.toNat, resets := false } ∧
          ∀ g : Flag, flags.getLsbD g.idx.val = holds c g) ∧
    (∀ g : Flag, 3 < byteAt f.payload g.idx.val →
      exec .setNotices s = .next (s.answered f rest .badValue []))) ∧
  (∀ (s : State) (f : CmdFrame) (rest : List CmdFrame) (v : BitVec 17), Receives s 0x62 f rest →
    f.payload.length = 3 →
    (f.payload = leBytes 3 v.toNat →
      ∃ t, exec .clearNotices s = .next t ∧
        t = (s.answered f rest .ok []).setNu { s.nu with flags := t.nu.flags } ∧
        ∀ g : Flag, t.nu.isPending g = (s.nu.isPending g && !v.getLsbD g.idx.val)) ∧
    (2 ^ 17 ≤ field f.payload 0 3 → exec .clearNotices s = .next (s.answered f rest .badValue [])))

/-! ### The archive index (R157 to R167) -/

/-- SET CHECKPOINT in any run state puts its period and lock into the settings, to be loaded at the next
reload, and is answered with them; a period out of range or a lock not below it is answered BAD_VALUE.
CHECKPOINT NOW in RUNNING or STOPPING closes the FILLING buffer: with the other one EMPTY it becomes WRITING
with the current block sequence and each lane's duty by its state, INDEX_MISSED set for a lane off duty; with both off duty the block is done at once, not counted as written, its
buffer EMPTY; behind a WRITING buffer it waits CLOSED; with none FILLING nothing closes. The timer and the lock stay (R160 to R162, R165; layout of the reply: log 7). -/
def Obligations.CheckpointCommands : Prop :=
  (∀ (s : State) (f : CmdFrame) (rest : List CmdFrame) (period lock : Nat), Receives s 0x50 f rest →
    f.payload.length = 4 → field f.payload 0 2 = period → field f.payload 2 2 = lock →
    (10 ≤ period → period ≤ 60000 → lock < period →
      exec .setCheckpoint s = .next
        { s.answered f rest .ok (leBytes 2 period ++ leBytes 2 lock) with
          iu := { s.iu with periodSetting := period, lockSetting := lock } }) ∧
    (period < 10 ∨ 60000 < period ∨ period ≤ lock →
      exec .setCheckpoint s = .next (s.answered f rest .badValue []))) ∧
  (∀ (s : State) (f : CmdFrame) (rest : List CmdFrame), Receives s 0x51 f rest → f.payload.length = 0 →
    (s.rc.runState = .running ∨ s.rc.runState = .stopping) →
    let b := s.answered f rest .ok []
    ((s.buffer .a).state ≠ .filling → (s.buffer .b).state ≠ .filling →
      exec .checkpointNow s = .next b.evaluate) ∧
    (∀ n m : BufferName, n ≠ m → (s.buffer n).state = .filling → (s.buffer m).state = .empty →
      s.iu.writing = none → ((s.lane .l0).state.duty = .owed ∨ (s.lane .l1).state.duty = .owed) →
      Settles .checkpointNow s fun u =>
        let w := b.setIu { s.iu with
          buffers := s.iu.buffers.set n { s.buffer n with state := .writing }
          writing := some
            { buffer := n, seq := s.iu.blockSeq
              duty := ⟨(s.lane .l0).state.duty, (s.lane .l1).state.duty⟩ } }
        u = if (s.lane .l0).state.duty = .off ∨ (s.lane .l1).state.duty = .off then w.setFlag .indexMissed
            else w) ∧
    (∀ n m : BufferName, n ≠ m → (s.buffer n).state = .filling → (s.buffer m).state = .empty →
      s.iu.writing = none → (s.lane .l0).state.duty = .off → (s.lane .l1).state.duty = .off →
      (s.buffer n).final = false → s.iu.waitSpans = [] → (∀ src, (s.intake src).offeredGap = none) →
      s.iu.waitRunEnd = none →
      Settles .checkpointNow s fun u =>
        u = ((b.setFlag .indexMissed).setFlag .checkpointDone).setIu { s.iu with
          buffers := s.iu.buffers.set n { state := .empty, entries := [], final := false }
          blockSeq := s.iu.blockSeq + 1 }) ∧
    (∀ (n m : BufferName) (w : Writing), n ≠ m → (s.buffer n).state = .filling →
      (s.buffer m).state = .writing → s.iu.writing = some w →
      (w.duty.l0 = .owed ∨ w.duty.l1 = .owed) →
      exec .checkpointNow s = .next (State.evaluate (b.setIu { s.iu with
        buffers := s.iu.buffers.set n { s.buffer n with state := .closed } }))))

/-- The checkpoint lock comes on while the timer runs, unless the current lock is 0, and nothing else changes.
An expiry of the timer reloads it with the settings and takes the lock off in every case. A buffer CLOSED or
WRITING makes it late: nothing closes, CHECKPOINT_LATE is set and the late expiry counted. With both EMPTY
nothing closes. A FILLING one beside an EMPTY one becomes WRITING; with both lanes off duty its
block is done at once, not counted as written, and the buffer is EMPTY (R161, R162, R165, R166, R167; when the two rows act: log
2, 27). -/
def Obligations.CheckpointLockAndExpiry : Prop :=
  (∀ s : State,
    (s.iu.timer.isSome = true → s.iu.lockTime ≠ 0 →
      exec .checkpointLockOn s = .next (s.setIu { s.iu with lock := true })) ∧
    (s.iu.timer = none ∨ s.iu.lockTime = 0 → exec .checkpointLockOn s = .next s)) ∧
  (∀ s : State, s.iu.timer.isSome = true →
    let reloaded : IndexUnit → IndexUnit := fun u =>
      { u with
        period := u.periodSetting, lockTime := u.lockSetting, timer := some u.periodSetting, lock := false }
    ((∃ n, (s.buffer n).state = .closed ∨ (s.buffer n).state = .writing) →
      exec .checkpointExpiry s = .next (State.evaluate
        { s.setFlag .checkpointLate with
          rc := { s.rc with counters := { s.rc.counters with
            checkpointsLate := s.rc.counters.checkpointsLate + 1 } }
          iu := reloaded s.iu })) ∧
    ((∀ n, (s.buffer n).state = .empty) →
      exec .checkpointExpiry s = .next (s.setIu (reloaded s.iu)).evaluate) ∧
    (∀ n m : BufferName, n ≠ m → (s.buffer n).state = .filling → (s.buffer m).state = .empty →
      s.iu.writing = none → ((s.lane .l0).state.duty = .owed ∨ (s.lane .l1).state.duty = .owed) →
      Settles .checkpointExpiry s fun u =>
        (u.buffer n).state = .writing ∧ (u.buffer n).entries = (s.buffer n).entries ∧
        (u.buffer m) = s.buffer m ∧
        u.iu.writing = some
          { buffer := n, seq := s.iu.blockSeq
            duty := ⟨(s.lane .l0).state.duty, (s.lane .l1).state.duty⟩ } ∧
        u.iu.period = s.iu.periodSetting ∧ u.iu.lockTime = s.iu.lockSetting ∧
        u.iu.timer = some s.iu.periodSetting ∧ u.iu.lock = false ∧ u.rc = s.rc ∧ u.st = s.st ∧
        u.al = s.al ∧ u.ds = s.ds ∧ u.mem = s.mem) ∧
    (∀ n m : BufferName, n ≠ m → (s.buffer n).state = .filling → (s.buffer m).state = .empty →
      s.iu.writing = none → (s.lane .l0).state.duty = .off → (s.lane .l1).state.duty = .off →
      (s.buffer n).final = false → s.iu.waitSpans = [] → (∀ src, (s.intake src).offeredGap = none) →
      s.iu.waitRunEnd = none →
      Settles .checkpointExpiry s fun u =>
        u = ((s.setFlag .indexMissed).setFlag .checkpointDone).setIu (reloaded { s.iu with
          buffers := s.iu.buffers.set n { state := .empty, entries := [], final := false }
          blockSeq := s.iu.blockSeq + 1 })))

/-! ### Lanes: settings and states (R134 to R150) -/

/-- SET LANE in DOWN or FAULTED with fields in range replaces the lane's settings and cursors, clears its
dead space, failures, fault, pending action, wake pending and module report, and the lane enters BRINGUP,
sending HELLO with its next tag and starting its timer at 500 ms. The reply carries the settings and cursors, laid
out as the command with its lane number first. A lane number above 1, a field out of its range, a data cursor above
the index cursor plus 1, and a window that passes 2^40 are answered BAD_VALUE (R134, R135, R136, R138; layout of the
reply: log 7). -/
def Obligations.SetLaneEntersBringup : Prop :=
  ∀ (s : State) (f : CmdFrame) (rest : List CmdFrame), Receives s 0x40 f rest → f.payload.length = 28 →
    (1 < byteAt f.payload 0 → exec .setLane s = .next (s.answered f rest .badValue [])) ∧
    ∀ lane, laneOf f.payload = some lane →
      ((s.lane lane).state = .down ∨ (s.lane lane).state = .faulted) →
      (let p := f.payload
        let k := byteAt p 6
        k < 20 ∨ 34 < k ∨ 2 ^ k < field p 7 5 ∨ 2 ^ k ≤ field p 12 5 ∨ 2 ^ 20 < field p 17 4 ∨
            4 < byteAt p 21 ∨ 15 < byteAt p 22 ∨ byteAt p 23 = 0 ∨ field p 25 2 < 100 ∨
            10000 < field p 25 2 ∨ 1 < byteAt p 27 ∨ field p 12 5 + 1 < field p 7 5 ∨
            2 ^ 40 < field p 1 5 / 2 ^ k * 2 ^ k + 2 ^ k →
          exec .setLane s = .next (s.answered f rest .badValue [])) ∧
      ∀ o, decodeLane f.payload = some o →
        Settles .setLane s fun u =>
          let a := s.lane lane
          let free := (o.indexCursor : Int) - o.dataCursor + 1
          u.lane lane =
            { a with
              state := .bringup, settings := o.settings, dataCursor := o.dataCursor,
              indexCursor := o.indexCursor, deadSpace := 0, failures := 0, fault := .none, action := .none,
              wakePending := false, report := none,
              dataFull := decide (free < 4097 + o.settings.reserve), indexFull := decide (free < 1),
              burstTag := a.burstTag + 1, timer := some 500 } ∧
          u.lane lane.other = s.lane lane.other ∧
          u.wire.get lane = s.wire.get lane ++ [.hello (a.burstTag + 1)] ∧
          u.wire.get lane.other = s.wire.get lane.other ∧
          u.ds = { s.ds with claim := s.ds.claim.set lane none } ∧
          u.mem = s.mem ∧ (s.owes lane = false → LanesOnly (s.answered f rest .ok (o.bytes lane)) u)

/-- LANE RESET outside DOWN cancels the lane's job, ends its exchange, clears its pending action, wake
pending, fault, report and failures, and the lane enters BRINGUP with its cursors and settings; LANE OFFLINE
does the same up to the failures and enters DOWN, and changes nothing in DOWN. The reserved blocks of a span
write become dead, and CANCEL names an outstanding WRITE. The span of a cancelled single write returns to QUEUED
with last outcome CANCELLED and its attempts as they were, or after the stop deadline is disposed of by the copies
it holds; a cancelled index job misses its block, which is done
where the other lane does not owe it. In an ACTIVE pair the lane's outcome is recorded once, as CANCELLED;
while the other lane's is PENDING the pair and the span stay, and otherwise the pair closes (R34, R36, R112, R126, R127,
R144, R145, R152, R153, R161, R162). -/
def Obligations.LaneResetAndOfflineEndTheJob : Prop :=
  ∀ (s : State) (f : CmdFrame) (rest : List CmdFrame) (lane : Lane),
    f.payload = [BitVec.ofNat 8 lane.num] →
    let a := s.lane lane
    let dead := match a.job with
      | some (.span j) => j.reserved
      | _ => 0
    let cancels : List LaneFrame :=
      if a.job.isSome && a.timer.isSome then [.cancel a.burstTag] else []
    (Receives s 0x41 f rest → a.state ≠ .down → Settles .laneReset s fun u =>
      u.lane lane =
        { a with
          state := .bringup, job := none, deadSpace := a.deadSpace + dead, action := .none,
          wakePending := false, fault := .none, report := none, failures := 0,
          burstTag := a.burstTag + 1, timer := some 500 } ∧
      u.wire.get lane = s.wire.get lane ++ cancels ++ [.hello (a.burstTag + 1)] ∧
      u.ds.claim.get lane = none ∧ u.mem = s.mem) ∧
    (Receives s 0x42 f rest → a.state ≠ .down → Settles .laneOffline s fun u =>
      u.lane lane =
        { a with
          state := .down, job := none, deadSpace := a.deadSpace + dead, action := .none,
          wakePending := false, fault := .none, report := none, timer := none } ∧
      u.wire.get lane = s.wire.get lane ++ cancels ∧ u.ds.claim.get lane = none ∧
      u.nu.isPending (laneChangeFlag lane) = true ∧ u.mem = s.mem) ∧
    (Receives s 0x42 f rest → a.state = .down →
      exec .laneOffline s = .next (s.answered f rest .ok [])) ∧
    (∀ row : Instr, (row = .laneReset ∧ Receives s 0x41 f rest ∨ row = .laneOffline ∧ Receives s 0x42 f rest) →
      a.state ≠ .down →
      (∀ j sp, a.job = some (.span j) → s.requested j.slot j.runId j.seq .draining = some sp →
        s.owes lane = false →
        let ended := { sp with lastOutcome := Outcome.cancelled }
        let forming := ∃ c, s.ds.pair = some c ∧ c.phase = .forming ∧ c.follower = lane ∧ c.slot ≠ j.slot ∧
          (s.lane lane.other).action ≠ .pause
        s.ds.pair = none ∨ forming → Settles row s fun u =>
          (s.rc.expired = false →
            u.span? j.slot = some { ended with state := .queued } ∧ j.slot ∈ u.st.queues.get sp.source) ∧
          (s.ds.pair = none → s.rc.expired = true → TableOk s.st → ∀ v, u.span? j.slot = some v →
            v = if sp.laneRule = .mirror ∧ sp.copies.length = 1 then
                { ended with state := .committed, repairLane := none, degraded := true }
              else { ended with state := .shed, shedCause := some .stopDeadline })) ∧
      (∀ j c sp, a.job = some (.span j) → s.ds.pair = some c → c.phase = .active → j.slot = c.slot →
        j.runId = c.runId → j.seq = c.seq → s.requested j.slot j.runId j.seq .draining = some sp →
        let noted := { sp with lastOutcome := Outcome.cancelled }
        let recorded := { c with outcome := c.outcome.set lane .cancelled }
        let closed := State.closePair
          { s with
            al := s.al.set lane { a with job := none, timer := none, deadSpace := a.deadSpace + dead }
            st := { s.st with slots := putSlot s.st.slots c.slot noted }
            ds := { s.ds with pair := some recorded } } recorded
        Settles row s fun u =>
          (c.outcome.get lane ≠ .pending → u.ds.pair = some c) ∧
          (c.outcome.get lane = .pending → c.outcome.get lane.other = .pending →
            u.ds.pair = some recorded ∧ u.lane lane.other = s.lane lane.other ∧
            (s.owes lane = false → u.span? c.slot = some noted ∧ u.st.queues = s.st.queues)) ∧
          (c.outcome.get lane = .pending → c.outcome.get lane.other ≠ .pending →
            u.ds.pair = none ∧ u.lane lane.other = s.lane lane.other ∧
            (closed.owes lane = false → u.st = closed.st ∧ u.iu = closed.iu ∧ u.rc = closed.rc ∧
              u.ds.claim.get lane.other = closed.ds.claim.get lane.other))) ∧
      (∀ j w, a.job = some (.index j) → s.iu.writing = some w → w.duty.get lane = .owed →
        w.duty.get lane.other = .owed →
        s.ds.pair = none ∨ s.rc.expired = false ∧ (s.lane lane.other).action ≠ .pause →
        Settles row s fun u =>
          u.iu = { s.iu with writing := some { w with duty := w.duty.set lane .missed } } ∧
          u.nu.isPending .indexMissed = true) ∧
      (∀ j w, a.job = some (.index j) → s.iu.writing = some w → w.duty.get lane = .owed →
        w.duty.get lane.other ≠ .owed → s.ds.pair = none → (∀ src, (s.intake src).offeredGap = none) →
        s.iu.waitRunEnd = none → s.iu.waitSpans = [] →
        let other := w.buffer.other
        let written := w.duty.get lane.other = .written
        let counters := { s.rc.counters with
          checkpointsWritten := s.rc.counters.checkpointsWritten + if written then 1 else 0 }
        Settles row s fun u =>
          u.nu.isPending .indexMissed = true ∧ u.nu.isPending .checkpointDone = true ∧
          ((s.buffer other).state ≠ .closed →
            u.iu = { s.iu with
              buffers := s.iu.buffers.set w.buffer { state := .empty, entries := [], final := false }
              writing := none, blockSeq := s.iu.blockSeq + 1 } ∧
            ((s.buffer w.buffer).final = false → u.rc = { s.rc with counters := counters }) ∧
            ((s.buffer w.buffer).final = true →
              u.rc = { s.rc with
                counters := counters, runState := .idle
                lastEnd := if ¬ written then .indexUnwritten
                  else if s.rc.nextSeq = .exhausted then .sequenceExhausted else .complete } ∧
              u.nu.isPending .runEnded = true)) ∧
          ((s.buffer other).state = .closed → a.state = .busy → (s.lane lane.other).state.duty = .owed →
            (s.buffer w.buffer).final = false → u.rc = { s.rc with counters := counters } ∧
            u.iu = { s.iu with
              buffers := (s.iu.buffers.set w.buffer { state := .empty, entries := [], final := false }).set other
                { s.buffer other with state := .writing }
              writing := some
                { buffer := other, seq := s.iu.blockSeq + 1
                  duty := (⟨.owed, .owed⟩ : PerLane Duty).set lane .missed }
              blockSeq := s.iu.blockSeq + 1 })))

/-- LANE PAUSE pauses a READY lane at once and withdraws its claim, and sets PAUSE pending on a BUSY one in
place of any earlier action; LANE RESUME makes a PAUSED lane READY, with a claim where no pair context
exists, and without one where it leads a pair or the pair is ACTIVE (R101, R147). -/
def Obligations.LanePauseAndResume : Prop :=
  ∀ (s : State) (f : CmdFrame) (rest : List CmdFrame) (lane : Lane),
    f.payload = [BitVec.ofNat 8 lane.num] →
    let b := s.answered f rest .ok []
    (Receives s 0x43 f rest → (s.lane lane).state = .ready → Settles .lanePause s fun u =>
      u.lane lane = { s.lane lane with state := .paused } ∧ u.ds.claim.get lane = none ∧
      u.lane lane.other = s.lane lane.other ∧ u.wire = s.wire ∧ u.mem = s.mem ∧
      (s.owes lane = false → LanesOnly b u)) ∧
    (Receives s 0x43 f rest → (s.lane lane).state = .busy →
      exec .lanePause s = .next (b.onLane lane fun a => { a with action := .pause })) ∧
    (Receives s 0x44 f rest → (s.lane lane).state = .paused → s.ds.pair = none →
      exec .laneResume s = .next (State.evaluate ((b.onLane lane fun a => { a with state := .ready }).setClaim
        lane (s.claimNow (s.lane lane))))) ∧
    (∀ c, Receives s 0x44 f rest → (s.lane lane).state = .paused → s.ds.pair = some c →
      (c.phase = .active ∨ c.leader = lane) →
      exec .laneResume s = .next (State.evaluate (b.onLane lane fun a => { a with state := .ready })))

/-- LANE PARK: a READY lane withdraws its claim, sends PARK with its next tag and waits in PARKING for its
response time, its wake pending where a FORMING pair names it follower (log 10); a BUSY one has PARK
pending; PARKING and PARKED stay. LANE WAKE: a PARKED lane withdraws its
claim, sends WAKE with its next tag and waits in WAKING for its wake time; a PARKING one has its wake
pending; WAKING, READY and BUSY stay (R148, R149). -/
def Obligations.LaneParkAndWake : Prop :=
  ∀ (s : State) (f : CmdFrame) (rest : List CmdFrame) (lane : Lane),
    f.payload = [BitVec.ofNat 8 lane.num] →
    let b := s.answered f rest .ok []
    let a := s.lane lane
    (Receives s 0x45 f rest → a.state = .ready → exec .lanePark s = .next (State.evaluate
      { b with
        al := s.al.set lane { a with
          state := .parking, burstTag := a.burstTag + 1, timer := some a.settings.responseTime,
          wakePending := if s.formingFollower lane then true else a.wakePending }
        ds := { s.ds with claim := s.ds.claim.set lane none }
        wire := s.wire.set lane (s.wire.get lane ++ [.park (a.burstTag + 1)]) })) ∧
    (Receives s 0x45 f rest → a.state = .busy →
      exec .lanePark s = .next (b.onLane lane fun a => { a with action := .park })) ∧
    (Receives s 0x45 f rest → (a.state = .parking ∨ a.state = .parked) → exec .lanePark s = .next b) ∧
    (Receives s 0x46 f rest → a.state = .parked → exec .laneWake s = .next (State.evaluate
      { b with
        al := s.al.set lane { a with
          state := .waking, burstTag := a.burstTag + 1, timer := some a.settings.wakeTime,
          wakePending := false }
        ds := { s.ds with claim := s.ds.claim.set lane none }
        wire := s.wire.set lane (s.wire.get lane ++ [.wake (a.burstTag + 1)]) })) ∧
    (Receives s 0x46 f rest → a.state = .parking →
      exec .laneWake s = .next (b.onLane lane fun a => { a with wakePending := true })) ∧
    (Receives s 0x46 f rest → (a.state = .waking ∨ a.state = .ready ∨ a.state = .busy) →
      exec .laneWake s = .next b)

/-- HELLO-REPLY with the current tag records the module's report. With the window inside the capacity the
lane becomes READY with the lesser burst, the wake on attention its module can do, its conditions evaluated,
its change flag set, ARCHIVE_FULL where data-full holds, and a claim; a window beyond the capacity faults it
with cause WINDOW (R136, R138, R154). -/
def Obligations.HelloReplyEndsBringup : Prop :=
  ∀ (s : State) (lane : Lane) (tag : Word16) (maxBurst : Byte) (capacity : BitVec 40) (attention : Bool),
    (s.lane lane).state = .bringup → (s.lane lane).timer.isSome = true → (s.lane lane).burstTag = tag →
    s.ds.pair = none →
    let a := s.lane lane
    let r : ModuleReport := { maxBurst := min 4 maxBurst.toNat, capacity := capacity.toNat, attention := attention }
    let full := decide (a.indexCursor - a.dataCursor + 1 < 4097 + (a.settings.reserve : Int))
    (a.settings.base + 2 ^ a.settings.sizeExp ≤ capacity.toNat →
      Settles (.helloReply lane tag maxBurst capacity attention) s fun u =>
        u.lane lane =
          { a with
            state := .ready, timer := none, report := some r,
            effBurst := min a.settings.burst r.maxBurst,
            effWake := a.settings.wakeOnAttention && attention, dataFull := full,
            indexFull := decide (a.indexCursor - a.dataCursor + 1 < 1) } ∧
        u.ds.claim.get lane = some { kind := if full then .index else .full, since := s.now } ∧
        u.nu.isPending (laneChangeFlag lane) = true ∧ (full = true → u.nu.isPending .archiveFull = true) ∧
        u.lane lane.other = s.lane lane.other ∧ u.wire = s.wire ∧ LanesOnly s u) ∧
    (capacity.toNat < a.settings.base + 2 ^ a.settings.sizeExp →
      Settles (.helloReply lane tag maxBurst capacity attention) s fun u =>
        u.lane lane =
          { a with
            state := .faulted, fault := .window, action := .none, wakePending := false, timer := none,
            report := some r } ∧
        u.ds.claim.get lane = none ∧ u.nu.isPending (laneChangeFlag lane) = true ∧
        u.lane lane.other = s.lane lane.other ∧ u.wire = s.wire ∧ u.mem = s.mem)

/-- The expiry of a lane's outstanding HELLO, PARK or WAKE faults it: NO_MODULE, TIMEOUT, WAKE_TIMEOUT. The
pending action and wake pending are cleared, the claim is withdrawn and the change flag set; in another
state but BUSY the row changes nothing (log 27) (R136, R148, R149, R151, R154). -/
def Obligations.ExpiredExchangeFaultsTheLane : Prop :=
  ∀ (s : State) (lane : Lane) (row : Instr) (st : LaneState) (cause : FaultCause),
    (row, st, cause) ∈
      [(Instr.helloTimeout lane, LaneState.bringup, FaultCause.noModule),
       (.responseTimeout lane, .parking, .timeout), (.wakeTimeout lane, .waking, .wakeTimeout)] →
    (s.lane lane).timer.isSome = true → s.ds.pair = none →
    ((s.lane lane).state = st → Settles row s fun u =>
      u.lane lane =
        { s.lane lane with
          state := .faulted, fault := cause, action := .none, wakePending := false, timer := none } ∧
      u.ds = { s.ds with claim := s.ds.claim.set lane none } ∧
      u.nu.isPending (laneChangeFlag lane) = true ∧ u.lane lane.other = s.lane lane.other ∧
      u.wire = s.wire ∧ u.mem = s.mem ∧ (s.owes lane = false → LanesOnly s u)) ∧
    ((s.lane lane).state ≠ st → (s.lane lane).state ≠ .busy → exec row s = .next s)

/-- PARK_DELAY_EXPIRY parks a READY lane with a standing claim and a non-zero park delay, as by LANE PARK: the row
acts however long the claim has stood (DESIGN CHOICE, log 2), and changes nothing in any other case (log 27). PARKED-REPLY makes a
PARKING lane PARKED with a claim, or WAKING at once when its wake is pending or a pair names it follower (log 10);
AWAKE makes a WAKING lane READY with a claim. Each of the two replies sets the lane's change flag (R148, R149,
R154). -/
def Obligations.ParkDelayParkedReplyAndAwake : Prop :=
  (∀ (s : State) (lane : Lane),
    let a := s.lane lane
    (a.state = .ready → a.settings.parkDelay ≠ 0 → (s.ds.claim.get lane).isSome = true →
      exec (.parkDelayExpiry lane) s = .next (State.evaluate
        { s with
          al := s.al.set lane { a with
            state := .parking, burstTag := a.burstTag + 1, timer := some a.settings.responseTime,
            wakePending := if s.formingFollower lane then true else a.wakePending }
          ds := { s.ds with claim := s.ds.claim.set lane none }
          wire := s.wire.set lane (s.wire.get lane ++ [.park (a.burstTag + 1)]) })) ∧
    (a.state ≠ .ready ∨ a.settings.parkDelay = 0 ∨ s.ds.claim.get lane = none →
      exec (.parkDelayExpiry lane) s = .next s)) ∧
  (∀ (s : State) (lane : Lane) (tag : Word16), (s.lane lane).timer.isSome = true →
    (s.lane lane).burstTag = tag →
    let a := s.lane lane
    (a.state = .parking → a.wakePending = false → s.ds.pair = none →
      exec (.parkedReply lane tag) s = .next (State.evaluate (State.setClaim
        (State.setFlag (s.onLane lane fun a => { a with state := .parked, timer := none })
          (laneChangeFlag lane)) lane (s.claimNow a)))) ∧
    (a.state = .parking → (a.wakePending = true ∨ s.namedFollower lane = true) →
      Settles (.parkedReply lane tag) s fun u =>
        u.lane lane =
          { a with
            state := .waking, wakePending := false, burstTag := a.burstTag + 1,
            timer := some a.settings.wakeTime } ∧
        u.wire.get lane = s.wire.get lane ++ [.wake (a.burstTag + 1)] ∧ u.ds.claim.get lane = none ∧
        u.nu.isPending (laneChangeFlag lane) = true ∧ LanesOnly s u) ∧
    (a.state = .waking → s.ds.pair = none →
      exec (.awake lane tag) s = .next (State.evaluate (State.setClaim
        (State.setFlag (s.onLane lane fun a => { a with state := .ready, timer := none })
          (laneChangeFlag lane)) lane (s.claimNow a)))))

/-- ATTENTION in any state sets attention-seen; with the effective wake on attention on, it also wakes a
PARKED lane and leaves the wake pending in a PARKING one (R150). -/
def Obligations.AttentionWakesAParkedLane : Prop :=
  ∀ (s : State) (lane : Lane),
    let a := s.lane lane
    (a.effWake = false ∨ a.state ≠ .parked ∧ a.state ≠ .parking →
      exec (.attention lane) s = .next (s.onLane lane fun a => { a with attentionSeen := true })) ∧
    (a.effWake = true → a.state = .parking →
      exec (.attention lane) s =
        .next (s.onLane lane fun a => { a with attentionSeen := true, wakePending := true })) ∧
    (a.effWake = true → a.state = .parked →
      exec (.attention lane) s = .next (State.evaluate
        { s with
          al := s.al.set lane { a with
            attentionSeen := true, state := .waking, wakePending := false, burstTag := a.burstTag + 1,
            timer := some a.settings.wakeTime }
          ds := { s.ds with claim := s.ds.claim.set lane none }
          wire := s.wire.set lane (s.wire.get lane ++ [.wake (a.burstTag + 1)]) }))

/-- A reply that carries another tag, that comes with nothing outstanding, or that the lane's state does not
await is discarded without effect (R139); so is a module's frame whose CRC or type or body length is wrong
(R180). -/
def Obligations.StaleAndDamagedRepliesAreDiscarded : Prop :=
  ∀ (s : State) (lane : Lane) (tag : Word16) (row : Instr) (awaited : LaneState),
    ((row, awaited) ∈
        [(Instr.ack lane tag, LaneState.busy), (.retry lane tag, .busy), (.moduleFault lane tag, .busy),
         (.parkedReply lane tag, .parking), (.awake lane tag, .waking)] ∨
      (∃ b c d, row = .helloReply lane tag b c d) ∧ awaited = .bringup →
      (s.lane lane).state ≠ awaited ∨ (s.lane lane).timer = none ∨ (s.lane lane).burstTag ≠ tag →
      exec row s = .next s) ∧
    ∀ bytes : List Byte,
      (bytes.length ≠ 10 + field bytes 4 4 ∨ byteAt bytes 0 ≠ 0xA5 ∨
        field bytes (8 + field bytes 4 4) 2 ≠
          (crc16 ((bytes.drop 1).take (7 + field bytes 4 4))).toNat ∨
        byteAt bytes 1 < 0x81 ∨ 0x87 < byteAt bytes 1 ∨
        field bytes 4 4 ≠ if byteAt bytes 1 = 0x81 then 7 else 0) →
      exec (.archiveFrameDiscarded lane bytes) s = .next s

/-! ### Lanes: jobs (R139 to R146) -/

/-- A span write job reserves one block and one for each 2048 samples at the data cursor, and on a lane that
is not data-full a span of up to 2^23 samples leaves at least the index reserve free. Every step keeps the law of
the archive windows, that on each lane the data cursor is at most the index cursor plus 1, together with what it
rests on: data-full and index-full are as the cursors give them, a FULL claim stands only on a lane that is not
data-full, nothing is outstanding on a lane at rest or BUSY without a job, the leader of a FORMING pair waits and is
not data-full, an index job has room for its block, no span is longer than 2^23 samples, and a source holds at most
one FILLING span (R11, R52, R101, R115, R137 to R140, R145). -/
def Obligations.ReservationStaysInTheWindow : Prop :=
  (∀ s t : State, RunLaw s → WindowLaw s → step s = .next t → WindowLaw t) ∧
  (∀ (s : State) (lane : Lane) (slot : Nat) (runId : Word16) (seq : Word32) (sp : Span),
    s.span? slot = some sp → sp.count ≤ 2 ^ 23 → (s.lane lane).isDataFull = false →
    let a := s.lane lane
    let u := s.startSpanJob lane slot runId seq
    (u.lane lane).dataCursor = a.dataCursor + 1 + (sp.count + 2047) / 2048 ∧
    (u.lane lane).indexCursor = a.indexCursor ∧ (u.lane lane).state = .busy ∧
    ((u.lane lane).dataCursor : Int) + a.settings.reserve ≤ a.indexCursor + 1 ∧
    u.lane lane.other = s.lane lane.other ∧ u.ds.claim.get lane = none)

/-- ACK of a data burst: the retries return to 0 and the next burst goes out under the next tag, the
remaining data blocks up to the burst size, or the header block after the last of them. RETRY below the limit
sends the same blocks again under the next tag and counts one retry. The blocks of a data burst hold the span's
samples, and zeros after its last; the header block, an index block and its entries hold their fields at their
offsets and zeros elsewhere, and each of the two blocks a CRC over its other bytes (R139, R141, R142, R145, R164,
R181; the pointer to the next block: log 9). -/
def Obligations.AckAndRetrySendABurst : Prop :=
  (∀ (s : State) (lane : Lane) (tag : Word16) (j : SpanJob), (s.lane lane).state = .busy →
    (s.lane lane).timer.isSome = true → (s.lane lane).burstTag = tag →
    (s.lane lane).job = some (.span j) → j.phase = .data →
    let a := s.lane lane
    let next := j.next + min (4 * 2 ^ a.effBurst) (j.first + j.reserved - j.next)
    let j' := { j with
      next := next, retries := 0, phase := if j.first + j.reserved ≤ next then .header else .data }
    exec (.ack lane tag) s = .next (State.evaluate
      { s with
        al := s.al.set lane { a with
          job := some (.span j'), burstTag := tag + 1, timer := some a.settings.responseTime }
        wire := s.wire.set lane (s.wire.get lane ++ [.write (tag + 1)
          (a.settings.base + if j.first + j.reserved ≤ next then j.first else next)
          (j'.contents s.mem lane a)]) })) ∧
  (∀ (s : State) (lane : Lane) (tag : Word16), (s.lane lane).state = .busy →
    (s.lane lane).timer.isSome = true → (s.lane lane).burstTag = tag →
    let a := s.lane lane
    (∀ j, a.job = some (.span j) → j.retries < a.settings.retryLimit →
      exec (.retry lane tag) s = .next (State.evaluate
        { s with
          al := s.al.set lane { a with
            job := some (.span { j with retries := j.retries + 1 }), burstTag := tag + 1,
            timer := some a.settings.responseTime }
          wire := s.wire.set lane (s.wire.get lane ++ [.write (tag + 1) (a.settings.base + j.burstAt)
            (j.contents s.mem lane a)]) })) ∧
    (∀ j, a.job = some (.index j) → j.retries < a.settings.retryLimit →
      exec (.retry lane tag) s = .next (State.evaluate
        { s with
          al := s.al.set lane { a with
            job := some (.index { j with retries := j.retries + 1 }), burstTag := tag + 1,
            timer := some a.settings.responseTime }
          wire := s.wire.set lane (s.wire.get lane ++ [.write (tag + 1) j.address [j.image.bytes]]) }))) ∧
  (∀ (m : Memory) (lane : Lane) (a : LaneUnit) (j : SpanJob) (sp : Span), j.record = some sp →
    (j.phase = .data → j.slot < 4096 → sp.count ≤ 2 ^ 23 →
      j.contents m lane a =
        (List.range (min (4 * 2 ^ a.effBurst) (j.first + j.reserved - j.next))).map fun i =>
          (List.range 4096).map fun k =>
            let off := 4096 * (j.next - (j.first + 1) + i) + k
            if off < 2 * sp.count then m.read (2 ^ 24 * j.slot + off) else 0) ∧
    (∀ sum : Summary, j.phase = .header → sp.summary = some sum →
      ∃ p, j.contents m lane a = [p] ∧ p.length = 4096 ∧
        Lays p
          [(0, 4, 0x4E535857), (4, 2, sp.runId.toNat), (6, 1, sp.source.num), (7, 1, lane.num),
            (8, 4, sp.seq.toNat), (12, 6, sp.first), (18, 4, sp.count), (22, 1, sp.retention.code),
            (23, 1, sp.laneRule.code), (24, 1, (sp.mirrorPolicy.map MirrorPolicy.code).getD 0),
            (25, 1, sp.marks.length), (26, 2, sp.markOverflow), (28, 5, a.settings.base + j.first),
            (33, 2, (j.reserved - 1 : Nat)), (35, 1, sum.bucketExp), (36, 2, sum.envelope.length),
            (38, 2, sum.range.low), (40, 2, sum.range.high), (42, 8, sum.rawSum), (50, 8, sum.scaledSum),
            (58, 8, sum.energy), (66, 1, if sum.saturated then 1 else 0),
            (4094, 2, (crc16 (p.take 4094)).toNat)] ∧
        (∀ k, k < 8 → Lays p
          [(72 + 8 * k, 4, (sp.marks[k]?.map TriggerMark.offset).getD 0),
            (76 + 8 * k, 4, (sp.marks[k]?.map TriggerMark.shortfall).getD 0)]) ∧
        (∀ k, k < 512 → Lays p
          [(136 + 4 * k, 2, (sum.envelope[k]?.map Extremes.low).getD 0),
            (138 + 4 * k, 2, (sum.envelope[k]?.map Extremes.high).getD 0)]) ∧
        ZeroFrom p 67 72 ∧ ZeroFrom p 2184 4094)) ∧
  (∀ image : IndexImage,
    let p := image.bytes
    p.length = 4096 ∧
    Lays p
      [(0, 4, 0x4E495857), (4, 2, image.runId.toNat), (6, 1, image.entries.length),
        (7, 1, if image.final then 1 else 0), (8, 4, image.seq.toNat),
        (12, 1, if image.prev.isSome then 1 else 0), (13, 5, image.prev.getD 0),
        (62, 2, (crc16 (p.take 62 ++ p.drop 64)).toNat)] ∧
    ZeroFrom p 18 62 ∧
    ∀ k, k < 63 → (p.drop (64 + 64 * k)).take 64 =
      ((image.entries[k]?).map Entry.bytes).getD (List.replicate 64 0)) ∧
  (∀ e : Entry, e.bytes.length = 64 ∧
    match e with
    | .span v => Lays e.bytes
        [(0, 1, 1),
          (1, 1, v.retention.code + (if v.degraded then 4 else 0) + (if v.saturated then 8 else 0) +
            16 * v.copies.length),
          (2, 1, v.source.num), (3, 1, v.markCount), (4, 2, v.runId.toNat), (6, 4, v.seq.toNat),
          (10, 6, v.first), (16, 4, v.count), (20, 4, (v.firstMark.map TriggerMark.offset).getD 0),
          (24, 4, (v.firstMark.map TriggerMark.shortfall).getD 0),
          (28, 1, (v.copies[0]?.map fun c => c.lane.num).getD 0),
          (29, 5, (v.copies[0]?.map Copy.address).getD 0),
          (34, 1, (v.copies[1]?.map fun c => c.lane.num).getD 0),
          (35, 5, (v.copies[1]?.map Copy.address).getD 0), (40, 2, v.range.low), (42, 2, v.range.high),
          (44, 5, v.rawSum), (49, 7, v.scaledSum), (56, 8, v.energy)]
    | .gap v => Lays e.bytes
        [(0, 1, 2), (1, 1, v.source.num), (2, 1, v.causes.toNat), (3, 1, if v.seq.isSome then 1 else 0),
          (4, 2, v.runId.toNat), (6, 4, (v.seq.getD 0).toNat), (10, 6, v.first), (16, 7, v.count)] ∧
        ZeroFrom e.bytes 23 64
    | .runEnd v =>
      let c := v.counters
      Lays e.bytes
        [(0, 1, 3), (1, 1, v.cause.code), (2, 2, v.runId.toNat), (4, 5, c.issued.toNat),
          (9, 5, c.indexed.toNat), (14, 5, c.shed.toNat), (19, 5, c.recycled.toNat),
          (24, 7, c.lost.s0.toNat), (31, 7, c.lost.s1.toNat), (38, 7, c.lost.s2.toNat),
          (45, 7, c.lost.s3.toNat), (52, 5, c.checkpointsWritten.toNat),
          (57, 5, min (2 ^ 40 - 1) c.checkpointsLate.toNat)] ∧
        ZeroFrom e.bytes 62 64)

/-- ACK of the header burst ends the job, adds no dead space and clears the failures; ACK of an index block
ends its job with the index cursor one lower. Outside a pair the lane is then READY with a claim, or, where that
action was pending, PAUSED or PARKING; the span of a single write takes last outcome DONE and its copy, and is
COMMITTED and offered, degraded with PAIR_DEGRADED set where it was a mirrored one that held none. The index block counts as WRITTEN by the lane, whose back-link becomes its
address. While the other lane owes it nothing more happens to the index. Otherwise the block is done: its buffer is
EMPTY, the block sequence rises by 1, CHECKPOINT_DONE is set and the block is counted; a final block ends the run, IDLE
with its provisional cause, RUN_ENDED set and the closed intakes IDLE; a CLOSED other buffer becomes WRITING, and the
waiting span entries are admitted in slot order and their slots become FREE. In an ACTIVE pair the lane's outcome is
recorded once, as DONE, and its copy appended; while the other lane's is PENDING the pair stays and the lane places no
claim, and otherwise the pair closes (R6, R34, R111, R115, R126, R127, R130, R141, R142, R145 to R148, R161 to R164,
R168). -/
def Obligations.AckEndsTheJob : Prop :=
  (∀ (s : State) (lane : Lane) (tag : Word16) (job : Job), Writes s lane tag job →
    (∀ j, job = .span j → j.phase = .header) → s.ds.pair = none →
    let a := s.lane lane
    let ended : LaneUnit :=
      match job with
      | .span _ => { a with job := none, timer := none, failures := 0 }
      | .index _ =>
        { a with
          job := none, timer := none, indexCursor := a.indexCursor - 1,
          dataFull := decide (a.indexCursor - a.dataCursor < 4097 + (a.settings.reserve : Int)),
          indexFull := decide (a.indexCursor - a.dataCursor < 1) }
    Settles (.ack lane tag) s fun u =>
      JobEnds s u lane ended (s.claimNow ended) ∧ u.lane lane.other = s.lane lane.other ∧ Kept s u ∧
      (∀ j, job = .span j → a.action = .pause → s.owes lane = true →
        u.nu.isPending .indexMissed = true) ∧
      (∀ j sp, job = .span j → s.requested j.slot j.runId j.seq .draining = some sp → s.owes lane = false →
        let alone := sp.laneRule = .mirror ∧ sp.copies = []
        let landed := { sp with
          state := .committed, lastOutcome := .done, repairLane := none, degraded := decide alone,
          copies := sp.copies ++ [{ lane := lane, address := a.settings.base + j.first }] }
        let offered := State.offerSpan
          { s with
            al := s.al.set lane ended
            st := { s.st with
              slots := putSlot s.st.slots j.slot landed
              queues := s.st.queues.set sp.source
                ((s.st.queues.get sp.source).filter fun n => decide (n ≠ j.slot)) } } j.slot
        (sp.laneRule ≠ .mirror ∨ sp.copies.length = 1 ∨ alone ∧ sp.mirrorPolicy = some .degrade) →
          (alone → u.nu.isPending .pairDegraded = true) ∧
          (∀ v, u.span? j.slot = some v → TableOk s.st → v = landed) ∧
          (s.target = none → u.span? j.slot = some landed ∧
            u.iu = { s.iu with waitSpans := insertWaiting j.slot landed.entry s.iu.waitSpans } ∧
            u.rc = s.rc) ∧
          (offered.owes lane = false ∨ a.action ≠ .pause →
            u.st = offered.st ∧ u.iu = offered.iu ∧ u.rc = offered.rc ∧ u.ci = offered.ci)) ∧
      (∀ j w, job = .index j → s.iu.writing = some w → w.duty.get lane = .owed →
        let prev := s.iu.prev.set lane (some j.address)
        let other := w.buffer.other
        let counted := { s.rc.counters with checkpointsWritten := s.rc.counters.checkpointsWritten + 1 }
        (w.duty.get lane.other = .owed →
          u.iu = { s.iu with
            writing := some { w with duty := w.duty.set lane .written }, prev := prev }) ∧
        (w.duty.get lane.other ≠ .owed → (∀ src, (s.intake src).offeredGap = none) →
          s.iu.waitRunEnd = none →
          u.nu.isPending .checkpointDone = true ∧
          ((s.buffer other).state ≠ .closed → s.iu.waitSpans = [] →
            u.iu = { s.iu with
              buffers := s.iu.buffers.set w.buffer { state := .empty, entries := [], final := false }
              writing := none, blockSeq := s.iu.blockSeq + 1, prev := prev } ∧
            ((s.buffer w.buffer).final = false → u.rc = { s.rc with counters := counted }) ∧
            ((s.buffer w.buffer).final = true →
              u.rc = { s.rc with
                counters := counted, runState := .idle
                lastEnd := if s.rc.nextSeq = .exhausted then .sequenceExhausted else .complete } ∧
              u.nu.isPending .runEnded = true ∧
              ∀ src, (u.intake src).intake =
                if (s.intake src).intake = .closed then .idle else (s.intake src).intake)) ∧
          ((s.buffer other).state = .closed → (s.buffer w.buffer).final = false →
            s.iu.waitSpans.length < 63 → s.rc.runState = .running → TableOk s.st → a.action ≠ .pause →
            u.iu = { s.iu with
              buffers := (s.iu.buffers.set other { s.buffer other with state := .writing }).set w.buffer
                { state := if s.iu.waitSpans = [] then .empty else .filling
                  entries := s.iu.waitSpans.map Prod.snd, final := false }
              writing := some
                { buffer := other, seq := s.iu.blockSeq + 1
                  duty := ⟨(s.lane .l0).state.duty, (s.lane .l1).state.duty⟩ }
              waitSpans := [], blockSeq := s.iu.blockSeq + 1, prev := prev } ∧
            ∀ p ∈ s.iu.waitSpans, u.span? p.1 = none)))) ∧
  (∀ (s : State) (lane : Lane) (tag : Word16) (j : SpanJob) (c : PairContext) (sp : Span),
    Writes s lane tag (.span j) → j.phase = .header → s.ds.pair = some c → c.phase = .active →
    j.slot = c.slot → j.runId = c.runId → j.seq = c.seq →
    s.requested j.slot j.runId j.seq .draining = some sp → s.ds.claim.get lane = none →
    let a := s.lane lane
    let ended := { a with job := none, timer := none, failures := 0 }
    let copied := { sp with
      lastOutcome := .done, copies := sp.copies ++ [{ lane := lane, address := a.settings.base + j.first }],
      repairLane := if sp.repairLane = some lane then none else sp.repairLane }
    let recorded := { c with outcome := c.outcome.set lane .done }
    let closed := State.closePair
      { s with
        al := s.al.set lane ended
        st := { s.st with slots := putSlot s.st.slots c.slot copied }
        ds := { s.ds with pair := some recorded } } recorded
    Settles (.ack lane tag) s fun u =>
      u.lane lane.other = s.lane lane.other ∧
      (c.outcome.get lane ≠ .pending → u.ds.pair = some c) ∧
      (c.outcome.get lane = .pending → c.outcome.get lane.other = .pending →
        JobEnds s u lane ended none ∧ u.ds.pair = some recorded ∧
        (s.owes lane = false → u.span? c.slot = some copied ∧ u.st.queues = s.st.queues)) ∧
      (c.outcome.get lane = .pending → c.outcome.get lane.other ≠ .pending →
        JobEnds s u lane ended (s.claimNow ended) ∧ u.ds.pair = none ∧
        (closed.owes lane = false ∨ a.action ≠ .pause → u.st = closed.st ∧ u.iu = closed.iu ∧
          u.rc = closed.rc ∧ u.ds.claim.get lane.other = closed.ds.claim.get lane.other)))

/-- The pair protocol. Formation: the head is DRAINING, the leader BUSY with nothing reserved or sent, and no lane
claims; a READY follower joins at once, a PARKING one has its wake pending, a PARKED one wakes, a WAKING or BUSY one
goes on, but that in mode CANCEL a single write of its own is cancelled and it joins. The follower that becomes READY
after AWAKE, not data-full, joins. At the join the pair is ACTIVE and both lanes start their writes of the span, each
with its own reservation. A follower whose wake fails dissolves the pair under STRICT: the span returns to its queue,
and the leader is READY and claims, or PAUSED or PARKING where that was pending, and a PAUSED one misses a block that
it owes; under DEGRADE the leader writes the span singly. LANE RESET of the leader dissolves the pair under either policy. A pair closes by its two
outcomes: two copies commit the span; DONE with FAILED counts an attempt and makes a repair span or sheds it under
STRICT, and commits it degraded under DEGRADE; DONE with CANCELLED makes a repair span; no DONE returns it, with an
attempt counted where a lane FAILED; each lane that is READY or PARKED at the close, and holds no claim, places one
(R101, R115 to R123, R127 to R130, R140; last outcome of a cancelled leader's span: log 11). With a PAUSE or PARK
pending on the leader, a conversion does either what R122 says, the action staying pending, or what R115 says, the job
ending there as at a dissolution: a free value, and the clause names both (DESIGN CHOICE, log 31). A follower that is READY or PARKED at the
leader's LANE RESET, of which one clause speaks, stands in no FORMING pair that R117 leads to. -/
def Obligations.FollowerJoinsThePair : Prop :=
  (∀ (s : State) (c : PairContext) (tag : Word16) (sp : Span), s.ds.pair = some c → c.phase = .forming →
    (s.lane c.follower).state = .waking → (s.lane c.follower).timer.isSome = true →
    (s.lane c.follower).burstTag = tag → (s.lane c.follower).dataFull = false →
    s.span? c.slot = some sp →
    Settles (.awake c.follower tag) s fun u =>
      u.ds.pair = some { c with phase := .active } ∧
      (∀ l, (u.lane l).state = .busy ∧ u.ds.claim.get l = none ∧
        (u.lane l).dataCursor = (s.lane l).dataCursor + 1 + (sp.count + 2047) / 2048 ∧
        ∃ j, (u.lane l).job = some (.span j) ∧ j.slot = c.slot ∧ j.runId = c.runId ∧ j.seq = c.seq ∧
          j.started = true ∧ j.first = (s.lane l).dataCursor ∧ j.record = some sp) ∧
      u.nu.isPending (laneChangeFlag c.follower) = true ∧ u.mem = s.mem ∧ u.st = s.st ∧ u.rc = s.rc) ∧
  (∀ (s : State) (lane : Lane) (slot : Nat) (sp : Span), s.span? slot = some sp →
    let a := s.lane lane
    let b := s.lane lane.other
    let c : PairContext :=
      { slot := slot, runId := sp.runId, seq := sp.seq, leader := lane,
        mode := (s.settings sp.source).pairMode, phase := .forming, outcome := ⟨.pending, .pending⟩ }
    let waiting : SpanJob :=
      { slot := slot, runId := sp.runId, seq := sp.seq, started := false, first := 0, reserved := 0,
        phase := .data, next := 0, retries := 0, record := none }
    let u := s.formPair lane slot sp
    let taken := u.span? slot = some { sp with state := .draining } ∧
      slot ∉ u.st.queues.get sp.source ∧ ∀ l, u.ds.claim.get l = none
    let joined := taken ∧ u.ds.pair = some { c with phase := .active } ∧
      ∀ l, (u.lane l).state = .busy ∧
        (u.lane l).dataCursor = (s.lane l).dataCursor + 1 + (sp.count + 2047) / 2048 ∧
        ∃ j, (u.lane l).job = some (.span j) ∧ j.slot = slot ∧ j.started = true ∧
          j.first = (s.lane l).dataCursor ∧ j.record = some { sp with state := .draining }
    let forms := taken ∧ u.ds.pair = some c ∧
      u.lane lane = { a with state := .busy, job := some (.span waiting) } ∧
      u.wire.get lane = s.wire.get lane
    (b.state = .ready → joined) ∧
    (b.state = .parking → forms ∧ u.lane lane.other = { b with wakePending := true } ∧ u.wire = s.wire) ∧
    (b.state = .parked → forms ∧
      u.lane lane.other =
        { b with
          state := .waking, wakePending := false, burstTag := b.burstTag + 1,
          timer := some b.settings.wakeTime } ∧
      u.wire.get lane.other = s.wire.get lane.other ++ [.wake (b.burstTag + 1)]) ∧
    (b.state = .waking ∨ (b.state = .busy ∧ (c.mode = .wait ∨ ∀ j, b.job ≠ some (.span j))) →
      forms ∧ u.lane lane.other = b ∧ u.wire = s.wire) ∧
    (∀ j v, b.state = .busy → c.mode = .cancel → b.job = some (.span j) → b.action = .none →
      b.dataFull = false → j.slot ≠ slot → s.requested j.slot j.runId j.seq .draining = some v →
      s.rc.expired = false →
      joined ∧ u.span? j.slot = some { v with state := .queued, lastOutcome := .cancelled } ∧
      (u.lane lane.other).deadSpace = b.deadSpace + j.reserved ∧
      (b.timer.isSome = true →
        s.wire.get lane.other ++ [.cancel b.burstTag] <+: u.wire.get lane.other))) ∧
  (∀ (s : State) (c : PairContext) (sp : Span), s.ds.pair = some c → c.phase = .forming →
    s.span? c.slot = some sp → (s.lane c.follower).state = .waking →
    (s.lane c.follower).timer.isSome = true → s.owes c.follower = false →
    let a := s.lane c.leader
    Settles (.wakeTimeout c.follower) s fun u =>
      let returns :=
        (s.rc.expired = false →
          ∃ w : State, w.span? c.slot = some { sp with state := .queued } ∧
            c.slot ∈ w.st.queues.get sp.source ∧ (∀ n, n ≠ c.slot → w.span? n = s.span? n) ∧ w.iu = s.iu ∧
            (a.action ≠ .pause ∨ s.owes c.leader = false → u.st = w.st) ∧
            (a.action = .pause → s.owes c.leader = true → u.st = (w.blockMissed c.leader).st ∧
              u.nu.isPending .indexMissed = true)) ∧
        (a.action = .none → u.lane c.leader = { a with state := .ready, job := none } ∧
          u.ds.claim.get c.leader = s.claimNow a) ∧
        (a.action = .pause → u.ds.claim.get c.leader = none ∧
          u.lane c.leader = { a with state := .paused, job := none, action := .none }) ∧
        (a.action = .park → u.ds.claim.get c.leader = none ∧
          u.wire.get c.leader = s.wire.get c.leader ++ [.park (a.burstTag + 1)] ∧
          u.lane c.leader =
            { a with
              state := .parking, job := none, action := .none, burstTag := a.burstTag + 1,
              timer := some a.settings.responseTime })
      let singly :=
        u.st = s.st ∧ (u.lane c.leader).state = .busy ∧ (u.lane c.leader).action = a.action ∧
        (u.lane c.leader).dataCursor = a.dataCursor + 1 + (sp.count + 2047) / 2048 ∧
        ∃ j, (u.lane c.leader).job = some (.span j) ∧ j.slot = c.slot ∧ j.runId = c.runId ∧
          j.seq = c.seq ∧ j.started = true ∧ j.first = a.dataCursor ∧ j.record = some sp
      u.ds.pair = none ∧
      u.lane c.follower =
        { s.lane c.follower with
          state := .faulted, fault := .wakeTimeout, action := .none, wakePending := false,
          timer := none } ∧
      u.ds.claim.get c.follower = none ∧
      (sp.mirrorPolicy = some .strict → returns) ∧
      (sp.mirrorPolicy = some .degrade → (a.action = .none → singly) ∧ (singly ∨ a.action ≠ .none ∧ returns))) ∧
  (∀ (s : State) (f : CmdFrame) (rest : List CmdFrame) (c : PairContext) (j : SpanJob) (sp : Span),
    f.payload = [BitVec.ofNat 8 c.leader.num] → Receives s 0x41 f rest → s.ds.pair = some c →
    c.phase = .forming → (s.lane c.leader).state = .busy → (s.lane c.leader).job = some (.span j) →
    s.span? c.slot = some sp → s.owes c.leader = false → s.rc.expired = false →
    Settles .laneReset s fun u =>
      u.ds.pair = none ∧
      u.span? c.slot = some { sp with state := .queued, lastOutcome := .cancelled } ∧
      c.slot ∈ u.st.queues.get sp.source ∧ (u.lane c.leader).state = .bringup ∧
      u.lane c.follower = s.lane c.follower ∧
      ((s.lane c.follower).state = .ready ∨ (s.lane c.follower).state = .parked →
        s.ds.claim.get c.follower = none →
        u.ds.claim.get c.follower = s.claimNow (s.lane c.follower))) ∧
  (∀ (s : State) (c : PairContext) (sp : Span) (policy : MirrorPolicy), s.span? c.slot = some sp →
    sp.laneRule = .mirror → sp.mirrorPolicy = some policy → s.rc.expired = false → TableOk s.st →
    let u := s.closePair c
    let tried := { sp with attempts := sp.attempts + 1 }
    let lost := u.nu.isPending .spanFailed = true ∧
      ∀ v, u.span? c.slot = some v → v.state = .shed ∧ v.shedCause = some .archiveFailure ∧
        v.attempts = sp.attempts + 1 ∧ v.copies = sp.copies
    u.ds.pair = none ∧
    (∀ l, u.lane l = s.lane l ∧ u.ds.claim.get l =
      if ((s.lane l).state = .ready ∨ (s.lane l).state = .parked) ∧ s.ds.claim.get l = none then
        s.claimNow (s.lane l)
      else s.ds.claim.get l) ∧
    (c.outcome = ⟨.done, .done⟩ → sp.copies.length = 2 → ∀ v, u.span? c.slot = some v →
      v = { sp with state := .committed, repairLane := none, degraded := false }) ∧
    (∀ lane, c.outcome.get lane = .done → sp.copies.length = 1 →
      (c.outcome.get lane.other = .failed → policy = .degrade → u.nu.isPending .pairDegraded = true ∧
        ∀ v, u.span? c.slot = some v →
          v = { tried with state := .committed, repairLane := none, degraded := true }) ∧
      (c.outcome.get lane.other = .failed → policy = .strict →
        (sp.attempts + 1 < s.spm.limit →
          u.span? c.slot = some { tried with state := .queued, repairLane := some lane.other }) ∧
        (s.spm.limit ≤ sp.attempts + 1 → lost)) ∧
      (c.outcome.get lane.other = .cancelled →
        u.span? c.slot = some { sp with state := .queued, repairLane := some lane.other })) ∧
    ((∀ lane, c.outcome.get lane = .failed ∨ c.outcome.get lane = .cancelled) →
      ((∃ lane, c.outcome.get lane = .failed) →
        (sp.attempts + 1 < s.spm.limit → u.span? c.slot = some { tried with state := .queued }) ∧
        (s.spm.limit ≤ sp.attempts + 1 → lost)) ∧
      ((∀ lane, c.outcome.get lane = .cancelled) →
        u.span? c.slot = some { sp with state := .queued })))

/-- A single write that ends DONE appends the copy, and the span is COMMITTED and its SPAN entry offered: with
one copy for lane rule L0, L1 or EITHER; with two for a repair span, its repair lane cleared; and degraded, with
PAIR_DEGRADED set, for a mirrored span of policy DEGRADE that held none. It stands in no source queue. An entry offered while no buffer can take it waits in slot order. Otherwise
it is appended to the buffer that can, the slot becomes FREE, and the span is counted as indexed, or as shed when
the entry is a GAP; with its 63rd entry the buffer closes, and becomes WRITING when no other is, for each lane that
its state puts on duty; with no lane on duty its block is done at once, written by none. The entry carries the fields of the record as they stand. When the last slot of a STOPPING run
becomes FREE and no gap is held, the run is ENDING: the stop deadline timer and the checkpoint timer stop, the lock
clears, and one RUN_END entry with the run id, the provisional end cause and the counters as they stand is admitted,
which closes its buffer, or waits (R5, R9, R20, R21, R33, R34, R111, R130, R157, R158, R159, R161, R162, R168). -/
def Obligations.LandedCopyCommitsTheSpan : Prop :=
  (∀ (s : State) (lane : Lane) (slot address : Nat) (sp : Span), s.span? slot = some sp →
    let committed : Bool → State := fun degraded => State.offerSpan
      { s with st := { s.st with
        slots := putSlot s.st.slots slot { sp with
          state := .committed, copies := sp.copies ++ [{ lane := lane, address := address }],
          repairLane := none, degraded := degraded }
        queues := s.st.queues.set sp.source
          ((s.st.queues.get sp.source).filter fun n => decide (n ≠ slot)) } } slot
    (sp.laneRule ≠ .mirror ∨ sp.copies.length = 1 →
      s.applySingle slot lane .done address = committed false) ∧
    (sp.laneRule = .mirror → sp.copies = [] → sp.mirrorPolicy = some .degrade →
      s.applySingle slot lane .done address = (committed true).setFlag .pairDegraded)) ∧
  (∀ (s : State) (slot : Nat) (sp : Span), s.span? slot = some sp → RunLaw s → OfferLaw s →
    IndexRests s.iu → s.rc.runState = .running →
    let u := s.offerSpan slot
    (s.target = none →
      u = s.setIu { s.iu with waitSpans := insertWaiting slot sp.entry s.iu.waitSpans }) ∧
    (∀ b, s.target = some b → (s.buffer b).entries.length < 63 →
      u.span? slot = none ∧ (∀ n, n ≠ slot → u.span? n = s.span? n) ∧
      u.st.occupancy = s.st.occupancy - 1 ∧
      u.rc = { s.rc with
        counters := if sp.state = .shed then { s.rc.counters with shed := s.rc.counters.shed + 1 }
          else { s.rc.counters with indexed := s.rc.counters.indexed + 1 } } ∧
      ((s.buffer b).entries.length + 1 < 63 → u.iu = s.iu.admits b sp.entry) ∧
      ((s.buffer b).entries.length + 1 = 63 →
        let full : IndexBuffer :=
          { state := .closed, entries := (s.buffer b).entries ++ [sp.entry], final := (s.buffer b).final }
        (s.iu.writing.isSome = true → u.iu = { s.iu with buffers := s.iu.buffers.set b full }) ∧
        (s.iu.writing = none →
          ((s.lane .l0).state.duty = .owed ∨ (s.lane .l1).state.duty = .owed) →
          u.iu = { s.iu with
            buffers := s.iu.buffers.set b { full with state := .writing }
            writing := some
              { buffer := b, seq := s.iu.blockSeq
                duty := ⟨(s.lane .l0).state.duty, (s.lane .l1).state.duty⟩ } }) ∧
        (s.iu.writing = none → (s.lane .l0).state.duty = .off → (s.lane .l1).state.duty = .off →
          u.iu = { s.iu with
            buffers := s.iu.buffers.set b { state := .empty, entries := [], final := false }
            blockSeq := s.iu.blockSeq + 1 } ∧
          u.nu.isPending .indexMissed = true ∧ u.nu.isPending .checkpointDone = true)))) ∧
  (∀ (s : State) (slot : Nat) (sp : Span) (b : BufferName), s.span? slot = some sp → TableOk s.st →
    IndexRests s.iu → s.rc.runState = .stopping → s.target = some b →
    let u := s.offerSpan slot
    let counters :=
      if sp.state = .shed then { s.rc.counters with shed := s.rc.counters.shed + 1 }
      else { s.rc.counters with indexed := s.rc.counters.indexed + 1 }
    let stillHeld := (∃ n, n ≠ slot ∧ (s.span? n).isSome = true) ∨
      ∃ src, (s.intake src).pendingGap.isSome = true ∨ (s.intake src).offeredGap.isSome = true
    ((s.buffer b).entries.length + 1 < 63 →
      (stillHeld → u.span? slot = none ∧ u.rc = { s.rc with counters := counters } ∧
        u.iu = s.iu.admits b sp.entry) ∧
      (¬ stillHeld → u.st.slots = [] ∧
        EntersEnding s u counters b ((s.buffer b).entries ++ [sp.entry, s.runEndEntry counters]))) ∧
    ((s.buffer b).entries.length + 1 = 63 → ¬ stillHeld →
      let full : IndexBuffer :=
        { state := .closed, entries := (s.buffer b).entries ++ [sp.entry], final := (s.buffer b).final }
      u.st.slots = [] ∧
      (s.iu.writing.isSome = true → (s.buffer b.other).state = .writing →
        u.rc = { s.rc with runState := .ending, deadlineTimer := none, counters := counters } ∧
        u.iu = { s.iu with
          buffers := s.iu.buffers.set b full, waitRunEnd := some (s.runEndEntry counters),
          timer := none, lock := false }) ∧
      (s.iu.writing = none → (s.buffer b.other).state = .empty →
        ((s.lane .l0).state.duty = .owed ∨ (s.lane .l1).state.duty = .owed) →
        u.rc = { s.rc with runState := .ending, deadlineTimer := none, counters := counters } ∧
        u.iu = { s.iu with
          buffers := (s.iu.buffers.set b { full with state := .writing }).set b.other
            { state := .closed, entries := (s.buffer b.other).entries ++ [s.runEndEntry counters],
              final := true }
          writing := some
            { buffer := b, seq := s.iu.blockSeq
              duty := ⟨(s.lane .l0).state.duty, (s.lane .l1).state.duty⟩ }
          timer := none, lock := false }))) ∧
  (∀ (sp : Span) (m : Summary), sp.summary = some m →
    (sp.state = .committed → sp.entry = .span
      { runId := sp.runId, seq := sp.seq, source := sp.source, first := sp.first, count := sp.count,
        retention := sp.retention, markCount := sp.marks.length, firstMark := sp.marks.head?,
        copies := sp.copies, degraded := sp.degraded, range := m.range, rawSum := m.rawSum,
        scaledSum := m.scaledSum, energy := m.energy, saturated := m.saturated }) ∧
    (∀ c, sp.state = .shed → sp.shedCause = some c → sp.entry = .gap
      { runId := sp.runId, source := sp.source, seq := some sp.seq, first := sp.first, count := sp.count,
        causes := c.bit }))

/-- A span write that fails, by RETRY at the limit, FAULT or the response timeout, leaves its reservation dead
and counts a failure. A timeout faults the lane with TIMEOUT, a third failure in a row with REPEATED_FAILURE;
otherwise the lane is READY, or PAUSED or PARKING where that action was pending. Outside a pair the lane claims, and
the span takes the outcome and counts an attempt: with attempts at the limit it is SHED with cause ARCHIVE_FAILURE and
SPAN_FAILED is set; below it, it returns to QUEUED, or after the stop deadline is disposed of by the copies it holds.
In an ACTIVE pair the outcome is recorded once, as FAILED; while the other lane's is PENDING the pair and the span
stay and the lane places no claim, and otherwise the pair closes. An index job that fails so ends with its cursor as
it was and its block MISSED, INDEX_MISSED set, and the lane FAULTED with TIMEOUT, or as at any job's end; a block that
no lane owes is then done, and counted only if the other lane wrote it. The follower of a FORMING pair whose index job so ends joins
the pair where it is READY and not data-full, parks with its wake pending where PARK was pending, and otherwise is lost
to it: under STRICT the span returns to QUEUED and the leader takes its next state, under DEGRADE the leader writes it
singly, or ends its job so where an action is pending on it: a free value, log 31 (R34, R36, R98, R113, R115, R117, R119 to R122,
R126, R142, R143, R145 to R148, R151, R162, R168). -/
def Obligations.FailedWriteLeavesDeadSpace : Prop :=
  (∀ (s : State) (lane : Lane) (tag : Word16) (j : SpanJob) (row : Instr) (o : Outcome),
    Writes s lane tag (.span j) → s.WriteFails lane tag j.retries row o →
    let a := s.lane lane
    let ended := { a with
      job := none, timer := none, deadSpace := a.deadSpace + j.reserved, failures := a.failures + 1 }
    let lives := o ≠ .timeout ∧ a.failures + 1 < 3
    (s.ds.pair = none → Settles row s fun u =>
      (o = .timeout → Faults s u lane ended .timeout) ∧
      (o ≠ .timeout → 3 ≤ a.failures + 1 → Faults s u lane ended .repeatedFailure) ∧
      (lives → JobEnds s u lane ended (s.claimNow ended)) ∧
      u.lane lane.other = s.lane lane.other ∧ Kept s u ∧
      (∀ sp, s.requested j.slot j.runId j.seq .draining = some sp → s.owes lane = false →
        let tried := { sp with attempts := sp.attempts + 1, lastOutcome := o }
        (s.spm.limit ≤ sp.attempts + 1 → u.nu.isPending .spanFailed = true ∧
          (TableOk s.st → ∀ v, u.span? j.slot = some v →
            v = { tried with state := .shed, shedCause := some .archiveFailure })) ∧
        (sp.attempts + 1 < s.spm.limit → s.rc.expired = false →
          u.span? j.slot = some { tried with state := .queued } ∧ j.slot ∈ u.st.queues.get sp.source) ∧
        (sp.attempts + 1 < s.spm.limit → s.rc.expired = true → TableOk s.st → ∀ v, u.span? j.slot = some v →
          v = if sp.laneRule = .mirror ∧ sp.copies.length = 1 then
              { tried with state := .committed, repairLane := none, degraded := true }
            else { tried with state := .shed, shedCause := some .stopDeadline }))) ∧
    (∀ (c : PairContext) (sp : Span), s.ds.pair = some c → c.phase = .active → j.slot = c.slot →
      j.runId = c.runId → j.seq = c.seq → s.requested j.slot j.runId j.seq .draining = some sp →
      s.ds.claim.get lane = none →
      let noted := { sp with lastOutcome := o }
      let recorded := { c with outcome := c.outcome.set lane .failed }
      let closed := State.closePair
        { s with
          al := s.al.set lane ended
          st := { s.st with slots := putSlot s.st.slots c.slot noted }
          ds := { s.ds with pair := some recorded } } recorded
      Settles row s fun u =>
        (o = .timeout → Faults s u lane ended .timeout) ∧
        (o ≠ .timeout → 3 ≤ a.failures + 1 → Faults s u lane ended .repeatedFailure) ∧
        u.lane lane.other = s.lane lane.other ∧
        (c.outcome.get lane ≠ .pending → u.ds.pair = some c) ∧
        (c.outcome.get lane = .pending → c.outcome.get lane.other = .pending →
          (lives → JobEnds s u lane ended none) ∧ u.ds.pair = some recorded ∧
          (s.owes lane = false → u.span? c.slot = some noted ∧ u.st.queues = s.st.queues)) ∧
        (c.outcome.get lane = .pending → c.outcome.get lane.other ≠ .pending →
          (lives → JobEnds s u lane ended (s.claimNow ended)) ∧ u.ds.pair = none ∧
          (closed.owes lane = false → u.st = closed.st ∧ u.iu = closed.iu ∧ u.rc = closed.rc ∧
            u.ds.claim.get lane.other = closed.ds.claim.get lane.other)))) ∧
  (∀ (s : State) (lane : Lane) (tag : Word16) (j : IndexJob) (row : Instr) (o : Outcome),
    Writes s lane tag (.index j) → s.WriteFails lane tag j.retries row o → s.ds.pair = none →
    let ended := { s.lane lane with job := none, timer := none }
    Settles row s fun u =>
      u.nu.isPending .indexMissed = true ∧ (o = .timeout → Faults s u lane ended .timeout) ∧
      (o ≠ .timeout → JobEnds s u lane ended (s.claimNow ended)) ∧
      u.lane lane.other = s.lane lane.other ∧ Kept s u ∧
      (∀ w, s.iu.writing = some w → w.duty.get lane = .owed →
        (w.duty.get lane.other = .owed →
          u.iu = { s.iu with writing := some { w with duty := w.duty.set lane .missed } }) ∧
        (w.duty.get lane.other ≠ .owed → (∀ src, (s.intake src).offeredGap = none) →
          s.iu.waitRunEnd = none → s.iu.waitSpans = [] → (s.buffer w.buffer.other).state ≠ .closed →
          let written := w.duty.get lane.other = .written
          let counters := { s.rc.counters with
            checkpointsWritten := s.rc.counters.checkpointsWritten + if written then 1 else 0 }
          u.nu.isPending .checkpointDone = true ∧
          u.iu = { s.iu with
            buffers := s.iu.buffers.set w.buffer { state := .empty, entries := [], final := false }
            writing := none, blockSeq := s.iu.blockSeq + 1 } ∧
          ((s.buffer w.buffer).final = false → u.rc = { s.rc with counters := counters }) ∧
          ((s.buffer w.buffer).final = true →
            u.rc = { s.rc with
              counters := counters, runState := .idle
              lastEnd := if ¬ written then .indexUnwritten
                else if s.rc.nextSeq = .exhausted then .sequenceExhausted else .complete } ∧
            u.nu.isPending .runEnded = true)))) ∧
  (∀ (s : State) (lane : Lane) (tag : Word16) (j : IndexJob) (row : Instr) (o : Outcome) (c : PairContext)
    (sp : Span), Writes s lane tag (.index j) → s.WriteFails lane tag j.retries row o →
    s.ds.pair = some c → c.phase = .forming → c.follower = lane → s.span? c.slot = some sp →
    let a := s.lane lane
    let ended := { a with job := none, timer := none }
    let joins := o ≠ .timeout ∧ a.action = .none ∧ a.dataFull = false
    let lost := o = .timeout ∨ a.action = .pause ∨ a.action = .none ∧ a.dataFull = true
    Settles row s fun u =>
      u.nu.isPending .indexMissed = true ∧
      (joins → u.ds.pair = some { c with phase := .active } ∧
        ∀ l, (u.lane l).state = .busy ∧ ∃ k, (u.lane l).job = some (.span k) ∧ k.slot = c.slot ∧
          k.runId = c.runId ∧ k.seq = c.seq ∧ k.started = true ∧ k.first = (s.lane l).dataCursor) ∧
      (o ≠ .timeout → a.action = .park → u.ds.pair = some c ∧
        u.lane lane =
          { ended with
            state := .parking, action := .none, wakePending := true, burstTag := a.burstTag + 1,
            timer := some a.settings.responseTime } ∧
        u.wire = s.wire.set lane (s.wire.get lane ++ [.park (a.burstTag + 1)])) ∧
      (lost → u.ds.pair = none ∧
        (o = .timeout → u.lane lane = { ended with
          state := .faulted, fault := .timeout, action := .none, wakePending := false }) ∧
        (o ≠ .timeout → a.action = .pause → u.lane lane = { ended with state := .paused, action := .none }) ∧
        (o ≠ .timeout → a.action = .none →
          u.lane lane = { ended with state := .ready } ∧
          (s.ds.claim.get lane = none → u.ds.claim.get lane = s.claimNow ended)) ∧
        (s.iu.waitSpans = [] →
          let returns := (u.lane c.leader).job = none ∧
            (s.rc.expired = false → u.span? c.slot = some { sp with state := .queued }) ∧
            ((s.lane c.leader).action = .none → (u.lane c.leader).state = .ready) ∧
            ((s.lane c.leader).action = .pause → (u.lane c.leader).state = .paused) ∧
            ((s.lane c.leader).action = .park → (u.lane c.leader).state = .parking)
          let singly := u.span? c.slot = some sp ∧ (u.lane c.leader).state = .busy ∧
            (u.lane c.leader).action = (s.lane c.leader).action ∧
            ∃ k, (u.lane c.leader).job = some (.span k) ∧ k.slot = c.slot ∧ k.started = true ∧
              k.first = (s.lane c.leader).dataCursor ∧ k.record = some sp
          (sp.mirrorPolicy = some .strict → returns) ∧
          (sp.mirrorPolicy = some .degrade →
            ((s.lane c.leader).action = .none → singly) ∧
            (singly ∨ (s.lane c.leader).action ≠ .none ∧ returns)))))

/-- The evaluation of the standing claims leaves everything that `Kept` names: no byte of memory, no
setting, no received frame and no report changes, and the run only moves forward; with no claim standing, or
with the checkpoint lock on and no block being written, it changes nothing. It answers one claim after the other,
and goes on until no standing claim finds work. A claim is answered first with the index job of a block that its lane owes, ahead of the lock; then, with the lock off
and a FULL claim, with the queue head of lowest level, then lowest sequence, among those eligible: of its own lane's
rule or EITHER, a mirrored one as a pair where the other lane is pairable and singly under DEGRADE where it is not,
a repair one singly on its repair lane. A DEGRADE repair head whose repair lane, the other one, is unavailable is
committed as it is considered, with PAIR_DEGRADED set. A single write moves the head to DRAINING and starts the lane's job; a PARKED
lane is woken instead and is given nothing (R101 to R110, R130; the order of commits and index job: log 29). -/
def Obligations.EvaluationKeepsTheRest : Prop :=
  ∀ s : State, Kept s s.evaluate ∧
    ((∀ lane, s.ds.claim.get lane = none) → s.evaluate = s) ∧
    (s.iu.lock = true → s.iu.writing = none → s.evaluate = s) ∧
    (s.answerOne = none → s.evaluate = s) ∧
    (∀ t, s.answerOne = some t → ∃ n, s.evaluate = State.evaluateFor n t) ∧
    (∀ t n, s.answerOne = some t → State.evaluateFor (n + 1) s = State.evaluateFor n t) ∧
    (RunLaw s → s.evaluate.answerOne = none) ∧
    (∀ lane t, s.answer lane = some t → s.answer lane.other = none → s.answerOne = some t) ∧
    ∀ (lane : Lane) (cl : Claim), s.ds.claim.get lane = some cl →
      let a := s.lane lane
      let woken := { s with
        al := s.al.set lane { a with
          state := .waking, wakePending := false, burstTag := a.burstTag + 1,
          timer := some a.settings.wakeTime }
        ds := { s.ds with claim := s.ds.claim.set lane none }
        wire := s.wire.set lane (s.wire.get lane ++ [.wake (a.burstTag + 1)]) }
      (∀ w, s.iu.writing = some w → w.duty.get lane = .owed →
        (a.state = .parked → s.answer lane = some woken) ∧
        (a.state ≠ .parked → a.indexFull = false →
          let image : IndexImage :=
            { runId := s.rc.runId.getD 0, seq := w.seq, entries := (s.buffer w.buffer).entries,
              final := (s.buffer w.buffer).final, prev := s.iu.prev.get lane }
          let address := ((a.settings.base : Int) + a.indexCursor).toNat
          s.answer lane = some
            { s with
              al := s.al.set lane { a with
                state := .busy
                job := some (.index
                  { buffer := w.buffer, address := address, retries := 0, image := image })
                burstTag := a.burstTag + 1, timer := some a.settings.responseTime }
              ds := { s.ds with claim := s.ds.claim.set lane none }
              wire := s.wire.set lane
                (s.wire.get lane ++ [.write (a.burstTag + 1) address [image.bytes]]) }) ∧
        (a.state ≠ .parked → a.indexFull = true → ∃ t, s.answer lane = some t ∧
          t.nu.isPending .indexMissed = true)) ∧
      (s.owes lane = false → (s.iu.lock = true ∨ cl.kind = .index) → s.answer lane = none) ∧
      (s.owes lane = false → s.iu.lock = false → cl.kind = .full →
        s.hasRepairCommit lane = false →
        (s.winner lane = none → s.answer lane = none) ∧
        ∀ b, s.winner lane = some b →
          (a.state = .parked → s.answer lane = some woken) ∧
          (a.state ≠ .parked → b.take = .pair → s.answer lane = some (s.formPair lane b.slot b.span)) ∧
          (a.state ≠ .parked → b.take = .single → ∃ t, s.answer lane = some t ∧
            t.span? b.slot = some { b.span with state := .draining } ∧
            (∀ n, n ≠ b.slot → t.span? n = s.span? n) ∧
            b.slot ∉ t.st.queues.get b.span.source ∧ (t.lane lane).state = .busy ∧
            t.lane lane.other = s.lane lane.other ∧ t.ds.claim.get lane = none ∧
            t.ds.pair = s.ds.pair ∧
            ∃ j, (t.lane lane).job = some (.span j) ∧ j.slot = b.slot ∧ j.runId = b.span.runId ∧
              j.seq = b.span.seq ∧ j.started = true ∧ j.first = a.dataCursor ∧
              j.record = some { b.span with state := .draining })) ∧
      (s.owes lane = false → s.iu.lock = false → cl.kind = .full → s.hasRepairCommit lane = true →
        (s.answer lane).isSome = true) ∧
      (∀ src slot sp n, s.st.head src = some (slot, sp) →
        State.commitHeads lane src (n + 1) s =
          if sp.laneRule = .mirror ∧ sp.mirrorPolicy = some .degrade ∧ sp.repairLane = some lane.other ∧
              sp.copies ≠ [] ∧ ((s.lane lane.other).state ∈ [.down, .bringup, .paused, .faulted] ∨
                (s.lane lane.other).dataFull = true) then
            State.commitHeads lane src n ((s.commit slot).setFlag .pairDegraded)
          else s) ∧
      (∀ sp : Span,
        ((sp.laneRule = .l0 → s.eligible lane sp = if lane = .l0 then some .single else none) ∧
          (sp.laneRule = .l1 → s.eligible lane sp = if lane = .l1 then some .single else none) ∧
          (sp.laneRule = .either → s.eligible lane sp = some .single)) ∧
        (sp.laneRule = .mirror →
          (∀ r, sp.repairLane = some r → s.eligible lane sp = if r = lane then some .single else none) ∧
          (sp.repairLane = none →
            ((s.lane lane.other).state ∈ [.ready, .busy, .parking, .parked, .waking] →
              (s.lane lane.other).dataFull = false → s.ds.pair = none →
              s.eligible lane sp = some .pair) ∧
            ((s.lane lane.other).state ∈ [.down, .bringup, .paused, .faulted] ∨
                (s.lane lane.other).dataFull = true ∨ s.ds.pair ≠ none →
              s.eligible lane sp = if sp.mirrorPolicy = some .degrade then some .single else none)))) ∧
      (∀ b, s.winner lane = some b →
        (∃ src, s.st.head src = some (b.slot, b.span) ∧ b.level = (s.settings src).level ∧
          s.eligible lane b.span = some b.take) ∧
        ∀ src slot sp, s.st.head src = some (slot, sp) → (s.eligible lane sp).isSome = true →
          b.level < (s.settings src).level ∨
            b.level = (s.settings src).level ∧ b.span.seq ≤ sp.seq) ∧
      (s.winner lane = none → ∀ src slot sp, s.st.head src = some (slot, sp) →
        s.eligible lane sp = none)
end

