-- ==== Sys2Proof/Laws/State.lean ====
section
/-! SUPPORT. Laws/State.lean: one lemma for each field after each update, and reading after writing in the containers. -/

namespace Sys2Proof.Machine

/-! ### Reading a field after an update -/

section
variable (s : State) (v : Nat)
@[simp] theorem State.setNow_pending : (s.setNow v).pending = s.pending := rfl
@[simp] theorem State.setNow_now : (s.setNow v).now = v := rfl
@[simp] theorem State.setNow_choices : (s.setNow v).choices = s.choices := rfl
@[simp] theorem State.setNow_mem : (s.setNow v).mem = s.mem := rfl
@[simp] theorem State.setNow_wire : (s.setNow v).wire = s.wire := rfl
@[simp] theorem State.setNow_clocked : (s.setNow v).clocked = s.clocked := rfl
@[simp] theorem State.setNow_clp : (s.setNow v).clp = s.clp := rfl
@[simp] theorem State.setNow_nu : (s.setNow v).nu = s.nu := rfl
@[simp] theorem State.setNow_rc : (s.setNow v).rc = s.rc := rfl
@[simp] theorem State.setNow_ci : (s.setNow v).ci = s.ci := rfl
@[simp] theorem State.setNow_twu : (s.setNow v).twu = s.twu := rfl
@[simp] theorem State.setNow_se : (s.setNow v).se = s.se := rfl
@[simp] theorem State.setNow_spm : (s.setNow v).spm = s.spm := rfl
@[simp] theorem State.setNow_st : (s.setNow v).st = s.st := rfl
@[simp] theorem State.setNow_ds : (s.setNow v).ds = s.ds := rfl
@[simp] theorem State.setNow_iu : (s.setNow v).iu = s.iu := rfl
@[simp] theorem State.setNow_al : (s.setNow v).al = s.al := rfl
end

section
variable (s : State) (v : Nat)
@[simp] theorem State.setChoices_pending : (s.setChoices v).pending = s.pending := rfl
@[simp] theorem State.setChoices_now : (s.setChoices v).now = s.now := rfl
@[simp] theorem State.setChoices_choices : (s.setChoices v).choices = v := rfl
@[simp] theorem State.setChoices_mem : (s.setChoices v).mem = s.mem := rfl
@[simp] theorem State.setChoices_wire : (s.setChoices v).wire = s.wire := rfl
@[simp] theorem State.setChoices_clocked : (s.setChoices v).clocked = s.clocked := rfl
@[simp] theorem State.setChoices_clp : (s.setChoices v).clp = s.clp := rfl
@[simp] theorem State.setChoices_nu : (s.setChoices v).nu = s.nu := rfl
@[simp] theorem State.setChoices_rc : (s.setChoices v).rc = s.rc := rfl
@[simp] theorem State.setChoices_ci : (s.setChoices v).ci = s.ci := rfl
@[simp] theorem State.setChoices_twu : (s.setChoices v).twu = s.twu := rfl
@[simp] theorem State.setChoices_se : (s.setChoices v).se = s.se := rfl
@[simp] theorem State.setChoices_spm : (s.setChoices v).spm = s.spm := rfl
@[simp] theorem State.setChoices_st : (s.setChoices v).st = s.st := rfl
@[simp] theorem State.setChoices_ds : (s.setChoices v).ds = s.ds := rfl
@[simp] theorem State.setChoices_iu : (s.setChoices v).iu = s.iu := rfl
@[simp] theorem State.setChoices_al : (s.setChoices v).al = s.al := rfl
end

section
variable (s : State) (v : Memory)
@[simp] theorem State.setMem_pending : (s.setMem v).pending = s.pending := rfl
@[simp] theorem State.setMem_now : (s.setMem v).now = s.now := rfl
@[simp] theorem State.setMem_choices : (s.setMem v).choices = s.choices := rfl
@[simp] theorem State.setMem_mem : (s.setMem v).mem = v := rfl
@[simp] theorem State.setMem_wire : (s.setMem v).wire = s.wire := rfl
@[simp] theorem State.setMem_clocked : (s.setMem v).clocked = s.clocked := rfl
@[simp] theorem State.setMem_clp : (s.setMem v).clp = s.clp := rfl
@[simp] theorem State.setMem_nu : (s.setMem v).nu = s.nu := rfl
@[simp] theorem State.setMem_rc : (s.setMem v).rc = s.rc := rfl
@[simp] theorem State.setMem_ci : (s.setMem v).ci = s.ci := rfl
@[simp] theorem State.setMem_twu : (s.setMem v).twu = s.twu := rfl
@[simp] theorem State.setMem_se : (s.setMem v).se = s.se := rfl
@[simp] theorem State.setMem_spm : (s.setMem v).spm = s.spm := rfl
@[simp] theorem State.setMem_st : (s.setMem v).st = s.st := rfl
@[simp] theorem State.setMem_ds : (s.setMem v).ds = s.ds := rfl
@[simp] theorem State.setMem_iu : (s.setMem v).iu = s.iu := rfl
@[simp] theorem State.setMem_al : (s.setMem v).al = s.al := rfl
end

section
variable (s : State) (v : PerLane (List LaneFrame))
@[simp] theorem State.setWire_pending : (s.setWire v).pending = s.pending := rfl
@[simp] theorem State.setWire_now : (s.setWire v).now = s.now := rfl
@[simp] theorem State.setWire_choices : (s.setWire v).choices = s.choices := rfl
@[simp] theorem State.setWire_mem : (s.setWire v).mem = s.mem := rfl
@[simp] theorem State.setWire_wire : (s.setWire v).wire = v := rfl
@[simp] theorem State.setWire_clocked : (s.setWire v).clocked = s.clocked := rfl
@[simp] theorem State.setWire_clp : (s.setWire v).clp = s.clp := rfl
@[simp] theorem State.setWire_nu : (s.setWire v).nu = s.nu := rfl
@[simp] theorem State.setWire_rc : (s.setWire v).rc = s.rc := rfl
@[simp] theorem State.setWire_ci : (s.setWire v).ci = s.ci := rfl
@[simp] theorem State.setWire_twu : (s.setWire v).twu = s.twu := rfl
@[simp] theorem State.setWire_se : (s.setWire v).se = s.se := rfl
@[simp] theorem State.setWire_spm : (s.setWire v).spm = s.spm := rfl
@[simp] theorem State.setWire_st : (s.setWire v).st = s.st := rfl
@[simp] theorem State.setWire_ds : (s.setWire v).ds = s.ds := rfl
@[simp] theorem State.setWire_iu : (s.setWire v).iu = s.iu := rfl
@[simp] theorem State.setWire_al : (s.setWire v).al = s.al := rfl
end

section
variable (s : State) (v : List Byte)
@[simp] theorem State.setClocked_pending : (s.setClocked v).pending = s.pending := rfl
@[simp] theorem State.setClocked_now : (s.setClocked v).now = s.now := rfl
@[simp] theorem State.setClocked_choices : (s.setClocked v).choices = s.choices := rfl
@[simp] theorem State.setClocked_mem : (s.setClocked v).mem = s.mem := rfl
@[simp] theorem State.setClocked_wire : (s.setClocked v).wire = s.wire := rfl
@[simp] theorem State.setClocked_clocked : (s.setClocked v).clocked = v := rfl
@[simp] theorem State.setClocked_clp : (s.setClocked v).clp = s.clp := rfl
@[simp] theorem State.setClocked_nu : (s.setClocked v).nu = s.nu := rfl
@[simp] theorem State.setClocked_rc : (s.setClocked v).rc = s.rc := rfl
@[simp] theorem State.setClocked_ci : (s.setClocked v).ci = s.ci := rfl
@[simp] theorem State.setClocked_twu : (s.setClocked v).twu = s.twu := rfl
@[simp] theorem State.setClocked_se : (s.setClocked v).se = s.se := rfl
@[simp] theorem State.setClocked_spm : (s.setClocked v).spm = s.spm := rfl
@[simp] theorem State.setClocked_st : (s.setClocked v).st = s.st := rfl
@[simp] theorem State.setClocked_ds : (s.setClocked v).ds = s.ds := rfl
@[simp] theorem State.setClocked_iu : (s.setClocked v).iu = s.iu := rfl
@[simp] theorem State.setClocked_al : (s.setClocked v).al = s.al := rfl
end

section
variable (s : State) (v : LinkPort)
@[simp] theorem State.setClp_pending : (s.setClp v).pending = s.pending := rfl
@[simp] theorem State.setClp_now : (s.setClp v).now = s.now := rfl
@[simp] theorem State.setClp_choices : (s.setClp v).choices = s.choices := rfl
@[simp] theorem State.setClp_mem : (s.setClp v).mem = s.mem := rfl
@[simp] theorem State.setClp_wire : (s.setClp v).wire = s.wire := rfl
@[simp] theorem State.setClp_clocked : (s.setClp v).clocked = s.clocked := rfl
@[simp] theorem State.setClp_clp : (s.setClp v).clp = v := rfl
@[simp] theorem State.setClp_nu : (s.setClp v).nu = s.nu := rfl
@[simp] theorem State.setClp_rc : (s.setClp v).rc = s.rc := rfl
@[simp] theorem State.setClp_ci : (s.setClp v).ci = s.ci := rfl
@[simp] theorem State.setClp_twu : (s.setClp v).twu = s.twu := rfl
@[simp] theorem State.setClp_se : (s.setClp v).se = s.se := rfl
@[simp] theorem State.setClp_spm : (s.setClp v).spm = s.spm := rfl
@[simp] theorem State.setClp_st : (s.setClp v).st = s.st := rfl
@[simp] theorem State.setClp_ds : (s.setClp v).ds = s.ds := rfl
@[simp] theorem State.setClp_iu : (s.setClp v).iu = s.iu := rfl
@[simp] theorem State.setClp_al : (s.setClp v).al = s.al := rfl
end

section
variable (s : State) (v : NoticeUnit)
@[simp] theorem State.setNu_pending : (s.setNu v).pending = s.pending := rfl
@[simp] theorem State.setNu_now : (s.setNu v).now = s.now := rfl
@[simp] theorem State.setNu_choices : (s.setNu v).choices = s.choices := rfl
@[simp] theorem State.setNu_mem : (s.setNu v).mem = s.mem := rfl
@[simp] theorem State.setNu_wire : (s.setNu v).wire = s.wire := rfl
@[simp] theorem State.setNu_clocked : (s.setNu v).clocked = s.clocked := rfl
@[simp] theorem State.setNu_clp : (s.setNu v).clp = s.clp := rfl
@[simp] theorem State.setNu_nu : (s.setNu v).nu = v := rfl
@[simp] theorem State.setNu_rc : (s.setNu v).rc = s.rc := rfl
@[simp] theorem State.setNu_ci : (s.setNu v).ci = s.ci := rfl
@[simp] theorem State.setNu_twu : (s.setNu v).twu = s.twu := rfl
@[simp] theorem State.setNu_se : (s.setNu v).se = s.se := rfl
@[simp] theorem State.setNu_spm : (s.setNu v).spm = s.spm := rfl
@[simp] theorem State.setNu_st : (s.setNu v).st = s.st := rfl
@[simp] theorem State.setNu_ds : (s.setNu v).ds = s.ds := rfl
@[simp] theorem State.setNu_iu : (s.setNu v).iu = s.iu := rfl
@[simp] theorem State.setNu_al : (s.setNu v).al = s.al := rfl
end

section
variable (s : State) (v : RunController)
@[simp] theorem State.setRc_pending : (s.setRc v).pending = s.pending := rfl
@[simp] theorem State.setRc_now : (s.setRc v).now = s.now := rfl
@[simp] theorem State.setRc_choices : (s.setRc v).choices = s.choices := rfl
@[simp] theorem State.setRc_mem : (s.setRc v).mem = s.mem := rfl
@[simp] theorem State.setRc_wire : (s.setRc v).wire = s.wire := rfl
@[simp] theorem State.setRc_clocked : (s.setRc v).clocked = s.clocked := rfl
@[simp] theorem State.setRc_clp : (s.setRc v).clp = s.clp := rfl
@[simp] theorem State.setRc_nu : (s.setRc v).nu = s.nu := rfl
@[simp] theorem State.setRc_rc : (s.setRc v).rc = v := rfl
@[simp] theorem State.setRc_ci : (s.setRc v).ci = s.ci := rfl
@[simp] theorem State.setRc_twu : (s.setRc v).twu = s.twu := rfl
@[simp] theorem State.setRc_se : (s.setRc v).se = s.se := rfl
@[simp] theorem State.setRc_spm : (s.setRc v).spm = s.spm := rfl
@[simp] theorem State.setRc_st : (s.setRc v).st = s.st := rfl
@[simp] theorem State.setRc_ds : (s.setRc v).ds = s.ds := rfl
@[simp] theorem State.setRc_iu : (s.setRc v).iu = s.iu := rfl
@[simp] theorem State.setRc_al : (s.setRc v).al = s.al := rfl
end

section
variable (s : State) (v : PerSource IntakeSource)
@[simp] theorem State.setCi_pending : (s.setCi v).pending = s.pending := rfl
@[simp] theorem State.setCi_now : (s.setCi v).now = s.now := rfl
@[simp] theorem State.setCi_choices : (s.setCi v).choices = s.choices := rfl
@[simp] theorem State.setCi_mem : (s.setCi v).mem = s.mem := rfl
@[simp] theorem State.setCi_wire : (s.setCi v).wire = s.wire := rfl
@[simp] theorem State.setCi_clocked : (s.setCi v).clocked = s.clocked := rfl
@[simp] theorem State.setCi_clp : (s.setCi v).clp = s.clp := rfl
@[simp] theorem State.setCi_nu : (s.setCi v).nu = s.nu := rfl
@[simp] theorem State.setCi_rc : (s.setCi v).rc = s.rc := rfl
@[simp] theorem State.setCi_ci : (s.setCi v).ci = v := rfl
@[simp] theorem State.setCi_twu : (s.setCi v).twu = s.twu := rfl
@[simp] theorem State.setCi_se : (s.setCi v).se = s.se := rfl
@[simp] theorem State.setCi_spm : (s.setCi v).spm = s.spm := rfl
@[simp] theorem State.setCi_st : (s.setCi v).st = s.st := rfl
@[simp] theorem State.setCi_ds : (s.setCi v).ds = s.ds := rfl
@[simp] theorem State.setCi_iu : (s.setCi v).iu = s.iu := rfl
@[simp] theorem State.setCi_al : (s.setCi v).al = s.al := rfl
end

section
variable (s : State) (v : PerSource WindowSource)
@[simp] theorem State.setTwu_pending : (s.setTwu v).pending = s.pending := rfl
@[simp] theorem State.setTwu_now : (s.setTwu v).now = s.now := rfl
@[simp] theorem State.setTwu_choices : (s.setTwu v).choices = s.choices := rfl
@[simp] theorem State.setTwu_mem : (s.setTwu v).mem = s.mem := rfl
@[simp] theorem State.setTwu_wire : (s.setTwu v).wire = s.wire := rfl
@[simp] theorem State.setTwu_clocked : (s.setTwu v).clocked = s.clocked := rfl
@[simp] theorem State.setTwu_clp : (s.setTwu v).clp = s.clp := rfl
@[simp] theorem State.setTwu_nu : (s.setTwu v).nu = s.nu := rfl
@[simp] theorem State.setTwu_rc : (s.setTwu v).rc = s.rc := rfl
@[simp] theorem State.setTwu_ci : (s.setTwu v).ci = s.ci := rfl
@[simp] theorem State.setTwu_twu : (s.setTwu v).twu = v := rfl
@[simp] theorem State.setTwu_se : (s.setTwu v).se = s.se := rfl
@[simp] theorem State.setTwu_spm : (s.setTwu v).spm = s.spm := rfl
@[simp] theorem State.setTwu_st : (s.setTwu v).st = s.st := rfl
@[simp] theorem State.setTwu_ds : (s.setTwu v).ds = s.ds := rfl
@[simp] theorem State.setTwu_iu : (s.setTwu v).iu = s.iu := rfl
@[simp] theorem State.setTwu_al : (s.setTwu v).al = s.al := rfl
end

section
variable (s : State) (v : PerSource (Option Running))
@[simp] theorem State.setSe_pending : (s.setSe v).pending = s.pending := rfl
@[simp] theorem State.setSe_now : (s.setSe v).now = s.now := rfl
@[simp] theorem State.setSe_choices : (s.setSe v).choices = s.choices := rfl
@[simp] theorem State.setSe_mem : (s.setSe v).mem = s.mem := rfl
@[simp] theorem State.setSe_wire : (s.setSe v).wire = s.wire := rfl
@[simp] theorem State.setSe_clocked : (s.setSe v).clocked = s.clocked := rfl
@[simp] theorem State.setSe_clp : (s.setSe v).clp = s.clp := rfl
@[simp] theorem State.setSe_nu : (s.setSe v).nu = s.nu := rfl
@[simp] theorem State.setSe_rc : (s.setSe v).rc = s.rc := rfl
@[simp] theorem State.setSe_ci : (s.setSe v).ci = s.ci := rfl
@[simp] theorem State.setSe_twu : (s.setSe v).twu = s.twu := rfl
@[simp] theorem State.setSe_se : (s.setSe v).se = v := rfl
@[simp] theorem State.setSe_spm : (s.setSe v).spm = s.spm := rfl
@[simp] theorem State.setSe_st : (s.setSe v).st = s.st := rfl
@[simp] theorem State.setSe_ds : (s.setSe v).ds = s.ds := rfl
@[simp] theorem State.setSe_iu : (s.setSe v).iu = s.iu := rfl
@[simp] theorem State.setSe_al : (s.setSe v).al = s.al := rfl
end

section
variable (s : State) (v : PressureMonitor)
@[simp] theorem State.setSpm_pending : (s.setSpm v).pending = s.pending := rfl
@[simp] theorem State.setSpm_now : (s.setSpm v).now = s.now := rfl
@[simp] theorem State.setSpm_choices : (s.setSpm v).choices = s.choices := rfl
@[simp] theorem State.setSpm_mem : (s.setSpm v).mem = s.mem := rfl
@[simp] theorem State.setSpm_wire : (s.setSpm v).wire = s.wire := rfl
@[simp] theorem State.setSpm_clocked : (s.setSpm v).clocked = s.clocked := rfl
@[simp] theorem State.setSpm_clp : (s.setSpm v).clp = s.clp := rfl
@[simp] theorem State.setSpm_nu : (s.setSpm v).nu = s.nu := rfl
@[simp] theorem State.setSpm_rc : (s.setSpm v).rc = s.rc := rfl
@[simp] theorem State.setSpm_ci : (s.setSpm v).ci = s.ci := rfl
@[simp] theorem State.setSpm_twu : (s.setSpm v).twu = s.twu := rfl
@[simp] theorem State.setSpm_se : (s.setSpm v).se = s.se := rfl
@[simp] theorem State.setSpm_spm : (s.setSpm v).spm = v := rfl
@[simp] theorem State.setSpm_st : (s.setSpm v).st = s.st := rfl
@[simp] theorem State.setSpm_ds : (s.setSpm v).ds = s.ds := rfl
@[simp] theorem State.setSpm_iu : (s.setSpm v).iu = s.iu := rfl
@[simp] theorem State.setSpm_al : (s.setSpm v).al = s.al := rfl
end

section
variable (s : State) (v : SpanTable)
@[simp] theorem State.setSt_pending : (s.setSt v).pending = s.pending := rfl
@[simp] theorem State.setSt_now : (s.setSt v).now = s.now := rfl
@[simp] theorem State.setSt_choices : (s.setSt v).choices = s.choices := rfl
@[simp] theorem State.setSt_mem : (s.setSt v).mem = s.mem := rfl
@[simp] theorem State.setSt_wire : (s.setSt v).wire = s.wire := rfl
@[simp] theorem State.setSt_clocked : (s.setSt v).clocked = s.clocked := rfl
@[simp] theorem State.setSt_clp : (s.setSt v).clp = s.clp := rfl
@[simp] theorem State.setSt_nu : (s.setSt v).nu = s.nu := rfl
@[simp] theorem State.setSt_rc : (s.setSt v).rc = s.rc := rfl
@[simp] theorem State.setSt_ci : (s.setSt v).ci = s.ci := rfl
@[simp] theorem State.setSt_twu : (s.setSt v).twu = s.twu := rfl
@[simp] theorem State.setSt_se : (s.setSt v).se = s.se := rfl
@[simp] theorem State.setSt_spm : (s.setSt v).spm = s.spm := rfl
@[simp] theorem State.setSt_st : (s.setSt v).st = v := rfl
@[simp] theorem State.setSt_ds : (s.setSt v).ds = s.ds := rfl
@[simp] theorem State.setSt_iu : (s.setSt v).iu = s.iu := rfl
@[simp] theorem State.setSt_al : (s.setSt v).al = s.al := rfl
end

section
variable (s : State) (v : DrainScheduler)
@[simp] theorem State.setDs_pending : (s.setDs v).pending = s.pending := rfl
@[simp] theorem State.setDs_now : (s.setDs v).now = s.now := rfl
@[simp] theorem State.setDs_choices : (s.setDs v).choices = s.choices := rfl
@[simp] theorem State.setDs_mem : (s.setDs v).mem = s.mem := rfl
@[simp] theorem State.setDs_wire : (s.setDs v).wire = s.wire := rfl
@[simp] theorem State.setDs_clocked : (s.setDs v).clocked = s.clocked := rfl
@[simp] theorem State.setDs_clp : (s.setDs v).clp = s.clp := rfl
@[simp] theorem State.setDs_nu : (s.setDs v).nu = s.nu := rfl
@[simp] theorem State.setDs_rc : (s.setDs v).rc = s.rc := rfl
@[simp] theorem State.setDs_ci : (s.setDs v).ci = s.ci := rfl
@[simp] theorem State.setDs_twu : (s.setDs v).twu = s.twu := rfl
@[simp] theorem State.setDs_se : (s.setDs v).se = s.se := rfl
@[simp] theorem State.setDs_spm : (s.setDs v).spm = s.spm := rfl
@[simp] theorem State.setDs_st : (s.setDs v).st = s.st := rfl
@[simp] theorem State.setDs_ds : (s.setDs v).ds = v := rfl
@[simp] theorem State.setDs_iu : (s.setDs v).iu = s.iu := rfl
@[simp] theorem State.setDs_al : (s.setDs v).al = s.al := rfl
end

section
variable (s : State) (v : IndexUnit)
@[simp] theorem State.setIu_pending : (s.setIu v).pending = s.pending := rfl
@[simp] theorem State.setIu_now : (s.setIu v).now = s.now := rfl
@[simp] theorem State.setIu_choices : (s.setIu v).choices = s.choices := rfl
@[simp] theorem State.setIu_mem : (s.setIu v).mem = s.mem := rfl
@[simp] theorem State.setIu_wire : (s.setIu v).wire = s.wire := rfl
@[simp] theorem State.setIu_clocked : (s.setIu v).clocked = s.clocked := rfl
@[simp] theorem State.setIu_clp : (s.setIu v).clp = s.clp := rfl
@[simp] theorem State.setIu_nu : (s.setIu v).nu = s.nu := rfl
@[simp] theorem State.setIu_rc : (s.setIu v).rc = s.rc := rfl
@[simp] theorem State.setIu_ci : (s.setIu v).ci = s.ci := rfl
@[simp] theorem State.setIu_twu : (s.setIu v).twu = s.twu := rfl
@[simp] theorem State.setIu_se : (s.setIu v).se = s.se := rfl
@[simp] theorem State.setIu_spm : (s.setIu v).spm = s.spm := rfl
@[simp] theorem State.setIu_st : (s.setIu v).st = s.st := rfl
@[simp] theorem State.setIu_ds : (s.setIu v).ds = s.ds := rfl
@[simp] theorem State.setIu_iu : (s.setIu v).iu = v := rfl
@[simp] theorem State.setIu_al : (s.setIu v).al = s.al := rfl
end

section
variable (s : State) (v : PerLane LaneUnit)
@[simp] theorem State.setAl_pending : (s.setAl v).pending = s.pending := rfl
@[simp] theorem State.setAl_now : (s.setAl v).now = s.now := rfl
@[simp] theorem State.setAl_choices : (s.setAl v).choices = s.choices := rfl
@[simp] theorem State.setAl_mem : (s.setAl v).mem = s.mem := rfl
@[simp] theorem State.setAl_wire : (s.setAl v).wire = s.wire := rfl
@[simp] theorem State.setAl_clocked : (s.setAl v).clocked = s.clocked := rfl
@[simp] theorem State.setAl_clp : (s.setAl v).clp = s.clp := rfl
@[simp] theorem State.setAl_nu : (s.setAl v).nu = s.nu := rfl
@[simp] theorem State.setAl_rc : (s.setAl v).rc = s.rc := rfl
@[simp] theorem State.setAl_ci : (s.setAl v).ci = s.ci := rfl
@[simp] theorem State.setAl_twu : (s.setAl v).twu = s.twu := rfl
@[simp] theorem State.setAl_se : (s.setAl v).se = s.se := rfl
@[simp] theorem State.setAl_spm : (s.setAl v).spm = s.spm := rfl
@[simp] theorem State.setAl_st : (s.setAl v).st = s.st := rfl
@[simp] theorem State.setAl_ds : (s.setAl v).ds = s.ds := rfl
@[simp] theorem State.setAl_iu : (s.setAl v).iu = s.iu := rfl
@[simp] theorem State.setAl_al : (s.setAl v).al = v := rfl
end

section
variable (s : State) (v : List Instr)
@[simp] theorem State.withPending_pending : (s.withPending v).pending = v := rfl
@[simp] theorem State.withPending_now : (s.withPending v).now = s.now := rfl
@[simp] theorem State.withPending_choices : (s.withPending v).choices = s.choices := rfl
@[simp] theorem State.withPending_mem : (s.withPending v).mem = s.mem := rfl
@[simp] theorem State.withPending_wire : (s.withPending v).wire = s.wire := rfl
@[simp] theorem State.withPending_clp : (s.withPending v).clp = s.clp := rfl
@[simp] theorem State.withPending_nu : (s.withPending v).nu = s.nu := rfl
@[simp] theorem State.withPending_rc : (s.withPending v).rc = s.rc := rfl
@[simp] theorem State.withPending_ci : (s.withPending v).ci = s.ci := rfl
@[simp] theorem State.withPending_twu : (s.withPending v).twu = s.twu := rfl
@[simp] theorem State.withPending_se : (s.withPending v).se = s.se := rfl
@[simp] theorem State.withPending_spm : (s.withPending v).spm = s.spm := rfl
@[simp] theorem State.withPending_st : (s.withPending v).st = s.st := rfl
@[simp] theorem State.withPending_ds : (s.withPending v).ds = s.ds := rfl
@[simp] theorem State.withPending_iu : (s.withPending v).iu = s.iu := rfl
@[simp] theorem State.withPending_al : (s.withPending v).al = s.al := rfl
end

/-! ### The parts of a state by their containers -/

@[simp] theorem State.intake_eq (s : State) (src : Source) : s.intake src = s.ci.get src := rfl

@[simp] theorem State.settings_eq (s : State) (src : Source) :
    s.settings src = (s.ci.get src).settings := rfl

@[simp] theorem State.lane_eq (s : State) (lane : Lane) : s.lane lane = s.al.get lane := rfl

@[simp] theorem State.buffer_eq (s : State) (b : BufferName) : s.buffer b = s.iu.buffers.get b := rfl

@[simp] theorem State.span?_eq (s : State) (slot : Nat) : s.span? slot = findSlot s.st.slots slot := rfl

/-! ### Reading after writing in a container -/

@[simp] theorem PerSource.get_set_self {α : Type} (v : PerSource α) (src : Source) (x : α) :
    (v.set src x).get src = x := by cases src <;> rfl

theorem PerSource.get_set_of_ne {α : Type} (v : PerSource α) {a b : Source} (x : α) (h : b ≠ a) :
    (v.set a x).get b = v.get b := by cases a <;> cases b <;> first | rfl | exact absurd rfl h

theorem PerSource.get_set {α : Type} (v : PerSource α) (a b : Source) (x : α) :
    (v.set a x).get b = if b = a then x else v.get b := by cases a <;> cases b <;> rfl

@[simp] theorem PerLane.get_set_self {α : Type} (v : PerLane α) (lane : Lane) (x : α) :
    (v.set lane x).get lane = x := by cases lane <;> rfl

theorem PerLane.get_set {α : Type} (v : PerLane α) (a b : Lane) (x : α) :
    (v.set a x).get b = if b = a then x else v.get b := by cases a <;> cases b <;> rfl

@[simp] theorem PerBuffer.get_set_self (v : PerBuffer) (n : BufferName) (x : IndexBuffer) :
    (v.set n x).get n = x := by cases n <;> rfl

theorem PerBuffer.get_set (v : PerBuffer) (a b : BufferName) (x : IndexBuffer) :
    (v.set a x).get b = if b = a then x else v.get b := by cases a <;> cases b <;> rfl

@[simp] theorem Four.get_set_self {α : Type} (v : Four α) (i : Fin 4) (x : α) :
    (v.set i x).get i = x := by
  match i with
  | 0 => rfl
  | 1 => rfl
  | 2 => rfl
  | 3 => rfl

@[simp] theorem Lane.other_other (lane : Lane) : lane.other.other = lane := by cases lane <;> rfl

theorem Lane.other_ne (lane : Lane) : lane.other ≠ lane := by cases lane <;> decide

/-! ### What each derived update does -/

theorem State.onIntake_eq (s : State) (src : Source) (f : IntakeSource → IntakeSource) :
    s.onIntake src f = s.setCi (s.ci.set src (f (s.ci.get src))) := rfl

theorem State.onLane_eq (s : State) (lane : Lane) (f : LaneUnit → LaneUnit) :
    s.onLane lane f = s.setAl (s.al.set lane (f (s.al.get lane))) := rfl

end Sys2Proof.Machine
end

