-- ==== Sys2Proof/Laws/Memory.lean ====
section
/-! SUPPORT. Laws/Memory.lean: spool memory: reading after writing, and the canonical form that every write keeps. -/

namespace Sys2Proof.Machine

theorem Memory.wfFrom_cons {low a : Nat} {b : Byte} {rest : Memory} :
    Memory.wfFrom low ((a, b) :: rest) = true ↔
      low ≤ a ∧ b ≠ Config.blankByte ∧ Memory.wfFrom (a + 1) rest = true := by
  simp [Memory.wfFrom, and_assoc]

theorem Memory.wfFrom_mono {low low' : Nat} (h : low' ≤ low) {m : Memory}
    (hm : Memory.wfFrom low m = true) : Memory.wfFrom low' m = true := by
  cases m with
  | nil => rfl
  | cons p rest =>
    obtain ⟨a, b⟩ := p
    rw [Memory.wfFrom_cons] at hm ⊢
    exact ⟨h.trans hm.1, hm.2⟩

/-- A byte below every listed address is blank. -/
theorem Memory.read_of_lt {low x : Nat} {m : Memory} (hm : Memory.wfFrom low m = true) (hx : x < low) :
    Memory.read m x = Config.blankByte := by
  induction m generalizing low with
  | nil => rfl
  | cons p rest ih =>
    obtain ⟨a, b⟩ := p
    rw [Memory.wfFrom_cons] at hm
    have : x ≠ a := by omega
    simp only [Memory.read, this, if_false]
    exact ih hm.2.2 (by omega)

theorem Memory.wfFrom_write {low x : Nat} {v : Byte} {m : Memory} (hm : Memory.wfFrom low m = true)
    (hx : low ≤ x) : Memory.wfFrom low (Memory.write m x v) = true := by
  induction m generalizing low with
  | nil =>
    unfold Memory.write
    split
    · rfl
    · next h => exact Memory.wfFrom_cons.2 ⟨hx, h, rfl⟩
  | cons p rest ih =>
    obtain ⟨a, b⟩ := p
    rw [Memory.wfFrom_cons] at hm
    unfold Memory.write
    split
    · next h1 =>
      split
      · exact Memory.wfFrom_cons.2 hm
      · next h2 =>
        exact Memory.wfFrom_cons.2 ⟨hx, h2, Memory.wfFrom_cons.2 ⟨by omega, hm.2⟩⟩
    · split
      · next h1 h2 =>
        subst h2
        split
        · exact Memory.wfFrom_mono (by omega) hm.2.2
        · next h3 => exact Memory.wfFrom_cons.2 ⟨hx, h3, hm.2.2⟩
      · next h1 h2 =>
        exact Memory.wfFrom_cons.2 ⟨hm.1, hm.2.1, ih hm.2.2 (by omega)⟩

/-- A write keeps the canonical form. -/
theorem Memory.wf_write {m : Memory} (hm : Memory.wf m = true) (x : Nat) (v : Byte) :
    Memory.wf (Memory.write m x v) = true := Memory.wfFrom_write hm (Nat.zero_le x)

/-- Reading after a write in canonical memory. -/
theorem Memory.read_writeFrom {low : Nat} {m : Memory} (hm : Memory.wfFrom low m = true) (x y : Nat)
    (v : Byte) : Memory.read (Memory.write m x v) y = if y = x then v else Memory.read m y := by
  induction m generalizing low with
  | nil =>
    unfold Memory.write
    split
    · next h => subst h; simp [Memory.read]
    · rfl
  | cons p rest ih =>
    obtain ⟨a, b⟩ := p
    rw [Memory.wfFrom_cons] at hm
    unfold Memory.write
    split
    · next h1 =>
      split
      · next h2 =>
        split
        · next h3 =>
          subst h3
          rw [h2]
          exact Memory.read_of_lt (low := a) (Memory.wfFrom_cons.2 ⟨le_refl _, hm.2⟩) h1
        · rfl
      · rfl
    · split
      · next h1 h2 =>
        subst h2
        split
        · next h3 =>
          subst h3
          split
          · next h4 => subst h4; exact Memory.read_of_lt hm.2.2 (by omega)
          · next h4 => simp [Memory.read, h4]
        · simp only [Memory.read]
          split <;> rfl
      · next h1 h2 =>
        by_cases hy : y = a
        · have : y ≠ x := by omega
          simp [Memory.read, hy]
          omega
        · simp only [Memory.read, hy, if_false]
          exact ih hm.2.2

/-- Reading after a write: the byte written at its address, every other byte as before. -/
theorem Memory.read_write {m : Memory} (hm : Memory.wf m = true) (x y : Nat) (v : Byte) :
    Memory.read (Memory.write m x v) y = if y = x then v else Memory.read m y :=
  Memory.read_writeFrom hm x y v

/-- A sample write keeps the canonical form. -/
theorem Memory.wf_writeSample {m : Memory} (hm : Memory.wf m = true) (slot k : Nat) (x : Sample) :
    Memory.wf (m.writeSample slot k x) = true := Memory.wf_write (Memory.wf_write hm _ _) _ _

/-- A sample write changes two bytes: the low byte of the sample at its address and the high byte behind
it. -/
theorem Memory.read_writeSample {m : Memory} (hm : Memory.wf m = true) (slot k y : Nat) (x : Sample) :
    (m.writeSample slot k x).read y =
      if y = spoolAddr slot (2 * k + 1) then x.extractLsb' 8 8
      else if y = spoolAddr slot (2 * k) then x.extractLsb' 0 8
      else m.read y := by
  unfold Memory.writeSample
  rw [Memory.read_write (Memory.wf_write hm _ _), Memory.read_write hm]

end Sys2Proof.Machine
end

