-- ==== Sys2Proof/Laws/Table.lean ====
section
/-! SUPPORT. Laws/Table.lean: the span table as a list in slot order. -/

namespace Sys2Proof.Machine

/-! ### The order of the slots -/

theorem slotsFrom_cons {low n : Nat} {sp : Span} {rest : List (Nat × Span)} :
    slotsFrom low ((n, sp) :: rest) = true ↔
      low ≤ n ∧ n < Config.slotCount ∧ slotsFrom (n + 1) rest = true := by
  simp [slotsFrom, and_assoc]

theorem slotsFrom_mono {low low' : Nat} (h : low' ≤ low) {l : List (Nat × Span)}
    (hl : slotsFrom low l = true) : slotsFrom low' l = true := by
  cases l with
  | nil => rfl
  | cons p rest =>
    obtain ⟨n, sp⟩ := p
    rw [slotsFrom_cons] at hl ⊢
    exact ⟨h.trans hl.1, hl.2⟩

theorem findSlot_none_of_lt {l : List (Nat × Span)} {low k : Nat} (hl : slotsFrom low l = true)
    (hk : k < low) : findSlot l k = none := by
  induction l generalizing low with
  | nil => rfl
  | cons p rest ih =>
    obtain ⟨n, sp⟩ := p
    rw [slotsFrom_cons] at hl
    have : k ≠ n := by omega
    simp only [findSlot, this, if_false]
    exact ih hl.2.2 (by omega)

/-! ### Finding -/

/-- A listed pair makes its slot found. -/
theorem findSlot_isSome_of_mem {l : List (Nat × Span)} {p : Nat × Span} (h : p ∈ l) :
    (findSlot l p.1).isSome = true := by
  induction l with
  | nil => cases h
  | cons q rest ih =>
    obtain ⟨n, sp⟩ := q
    rcases List.mem_cons.1 h with rfl | h'
    · simp [findSlot]
    · by_cases hk : p.1 = n
      · simp [findSlot, hk]
      · simp [findSlot, hk, ih h']

theorem SpanTable.filling_listed {t : SpanTable} {src : Source} {p : Nat × Span}
    (h : t.filling src = some p) : (findSlot t.slots p.1).isSome = true :=
  findSlot_isSome_of_mem (List.mem_of_find?_eq_some h)

theorem mem_insertBySeq {p q : Nat × Span} {l : List (Nat × Span)} :
    q ∈ insertBySeq p l ↔ q = p ∨ q ∈ l := by
  induction l with
  | nil => simp [insertBySeq]
  | cons x rest ih =>
    unfold insertBySeq
    split
    · simp
    · simp only [List.mem_cons, ih]
      tauto

/-- The sequence order lists the same spans. -/
theorem mem_bySeq {q : Nat × Span} {l : List (Nat × Span)} : q ∈ bySeq l ↔ q ∈ l := by
  have h : ∀ acc, q ∈ l.foldl (fun acc p => insertBySeq p acc) acc ↔ q ∈ l ∨ q ∈ acc := by
    induction l with
    | nil => simp
    | cons x rest ih =>
      intro acc
      rw [List.foldl_cons, ih, mem_insertBySeq, List.mem_cons]
      tauto
  simp [bySeq, h]

theorem SpanTable.mem_inState {t : SpanTable} {src : Source} {st : SpanState} {q : Nat × Span} :
    q ∈ t.inState src st ↔ q ∈ t.slots ∧ q.2.source = src ∧ q.2.state = st := by
  simp [SpanTable.inState, mem_bySeq]

theorem SpanTable.oldestHeld_listed {t : SpanTable} {src : Source} {p : Nat × Span}
    (h : t.oldestHeld src = some p) : (findSlot t.slots p.1).isSome = true :=
  findSlot_isSome_of_mem (SpanTable.mem_inState.1 (List.mem_of_mem_head? h)).1

/-! ### Setting a record -/

theorem findSlot_putSlot (l : List (Nat × Span)) (k j : Nat) (v : Span) (low : Nat)
    (hl : slotsFrom low l = true) :
    findSlot (putSlot l k v) j = if j = k then some v else findSlot l j := by
  induction l generalizing low with
  | nil => rfl
  | cons p rest ih =>
    obtain ⟨n, sp⟩ := p
    rw [slotsFrom_cons] at hl
    unfold putSlot
    split
    · rfl
    · split
      · next h1 h2 =>
        subst h2
        unfold findSlot
        split <;> rfl
      · next h1 h2 =>
        by_cases hj : j = n
        · have : j ≠ k := by omega
          simp [findSlot, hj]
          omega
        · simp only [findSlot, hj, if_false]
          exact ih _ hl.2.2

theorem putSlot_listed {l : List (Nat × Span)} {k low : Nat} (v : Span)
    (hl : slotsFrom low l = true) (hk : (findSlot l k).isSome = true) :
    slotsFrom low (putSlot l k v) = true ∧ (putSlot l k v).length = l.length := by
  induction l generalizing low with
  | nil => cases hk
  | cons p rest ih =>
    obtain ⟨n, sp⟩ := p
    rw [slotsFrom_cons] at hl
    unfold putSlot
    split
    · next h =>
      have := findSlot_none_of_lt ((slotsFrom_cons (sp := sp)).2 ⟨le_refl n, hl.2⟩) h
      rw [this] at hk
      cases hk
    · split
      · next h1 h2 =>
        subst h2
        exact ⟨slotsFrom_cons.2 hl, rfl⟩
      · next h1 h2 =>
        have hk' : (findSlot rest k).isSome = true := by
          simpa [findSlot, h2] using hk
        obtain ⟨a, b⟩ := ih hl.2.2 hk'
        exact ⟨slotsFrom_cons.2 ⟨hl.1, hl.2.1, a⟩, by simp [b]⟩

theorem putSlot_fresh {l : List (Nat × Span)} {k low : Nat} (v : Span)
    (hl : slotsFrom low l = true) (hk : findSlot l k = none) (hlow : low ≤ k)
    (hn : k < Config.slotCount) :
    slotsFrom low (putSlot l k v) = true ∧ (putSlot l k v).length = l.length + 1 := by
  induction l generalizing low with
  | nil => exact ⟨slotsFrom_cons.2 ⟨hlow, hn, rfl⟩, rfl⟩
  | cons p rest ih =>
    obtain ⟨n, sp⟩ := p
    rw [slotsFrom_cons] at hl
    unfold putSlot
    split
    · next h =>
      exact ⟨slotsFrom_cons.2 ⟨hlow, hn, slotsFrom_cons.2 ⟨h, hl.2⟩⟩, rfl⟩
    · split
      · next h1 h2 => simp [findSlot, h2] at hk
      · next h1 h2 =>
        have hk' : findSlot rest k = none := by simpa [findSlot, h2] using hk
        obtain ⟨a, b⟩ := ih hl.2.2 hk' (by omega)
        exact ⟨slotsFrom_cons.2 ⟨hl.1, hl.2.1, a⟩, by simp [b]⟩

/-! ### Releasing a slot -/

theorem dropSlot_listed {l : List (Nat × Span)} {k low : Nat} (hl : slotsFrom low l = true)
    (hk : (findSlot l k).isSome = true) :
    slotsFrom low (dropSlot l k) = true ∧ (dropSlot l k).length + 1 = l.length := by
  induction l generalizing low with
  | nil => cases hk
  | cons p rest ih =>
    obtain ⟨n, sp⟩ := p
    rw [slotsFrom_cons] at hl
    unfold dropSlot
    split
    · exact ⟨slotsFrom_mono (by omega) hl.2.2, rfl⟩
    · next h =>
      have hk' : (findSlot rest k).isSome = true := by simpa [findSlot, h] using hk
      obtain ⟨a, b⟩ := ih hl.2.2 hk'
      exact ⟨slotsFrom_cons.2 ⟨hl.1, hl.2.1, a⟩, by simp [b]⟩

/-! ### The lowest FREE slot (R12) -/

theorem firstFree_some {slots : List (Nat × Span)} {fuel k n : Nat}
    (h : firstFree slots fuel k = some n) :
    k ≤ n ∧ n < k + fuel ∧ findSlot slots n = none ∧
      ∀ j, k ≤ j → j < n → (findSlot slots j).isSome = true := by
  induction fuel generalizing k with
  | zero => cases h
  | succ fuel ih =>
    unfold firstFree at h
    split at h
    · next hk =>
      cases h
      exact ⟨le_refl _, by omega, by simpa using hk, fun j h1 h2 => by omega⟩
    · next hk =>
      obtain ⟨a, b, c, d⟩ := ih h
      refine ⟨by omega, by omega, c, fun j h1 h2 => ?_⟩
      rcases Nat.eq_or_lt_of_le h1 with rfl | h3
      · cases hf : findSlot slots k with
        | none => simp [hf] at hk
        | some sp => rfl
      · exact d j h3 h2

/-- The lowest FREE slot is FREE, exists, and every slot below it holds a span. -/
theorem SpanTable.lowestFree_some {t : SpanTable} {n : Nat} (h : t.lowestFree = some n) :
    n < Config.slotCount ∧ findSlot t.slots n = none ∧
      ∀ j, j < n → (findSlot t.slots j).isSome = true := by
  obtain ⟨_, b, c, d⟩ := firstFree_some h
  exact ⟨by omega, c, fun j hj => d j (Nat.zero_le _) hj⟩

/-! ### TableOk -/

theorem TableOk.put {t : SpanTable} (h : TableOk t) {slot : Nat} (v : Span)
    (hs : (findSlot t.slots slot).isSome = true) (q : PerSource (List Nat)) :
    TableOk { t with slots := putSlot t.slots slot v, queues := q } := by
  obtain ⟨a, b⟩ := putSlot_listed v h.slots hs
  exact ⟨a, by simp only [b, h.occupancy]⟩

theorem TableOk.open_ {t : SpanTable} (h : TableOk t) {slot : Nat} (v : Span)
    (hs : t.lowestFree = some slot) :
    TableOk { t with slots := putSlot t.slots slot v, occupancy := t.occupancy + 1 } ∧
      (putSlot t.slots slot v).length = t.slots.length + 1 := by
  obtain ⟨hn, hf, _⟩ := SpanTable.lowestFree_some hs
  obtain ⟨a, b⟩ := putSlot_fresh v h.slots hf (Nat.zero_le _) hn
  exact ⟨⟨a, by simp only [b, h.occupancy]⟩, b⟩

theorem TableOk.drop {t : SpanTable} (h : TableOk t) {slot : Nat}
    (hs : (findSlot t.slots slot).isSome = true) (q : PerSource (List Nat)) :
    TableOk { slots := dropSlot t.slots slot, queues := q, occupancy := t.occupancy - 1 } ∧
      (dropSlot t.slots slot).length + 1 = t.slots.length := by
  obtain ⟨a, b⟩ := dropSlot_listed h.slots hs
  exact ⟨⟨a, by simp only [h.occupancy]; omega⟩, b⟩

theorem TableOk.empty : TableOk .empty := ⟨rfl, rfl⟩

/-! ### A listed span is the one found in its slot -/

theorem findSlot_of_mem {l : List (Nat × Span)} {low : Nat} {p : Nat × Span}
    (hl : slotsFrom low l = true) (h : p ∈ l) : findSlot l p.1 = some p.2 := by
  induction l generalizing low with
  | nil => cases h
  | cons q rest ih =>
    obtain ⟨n, sp⟩ := q
    rw [slotsFrom_cons] at hl
    rcases List.mem_cons.1 h with rfl | h'
    · simp [findSlot]
    · have hf := ih hl.2.2 h'
      have hne : p.1 ≠ n := by
        intro he
        rw [he, findSlot_none_of_lt hl.2.2 (by omega)] at hf
        cases hf
      simp [findSlot, hne, hf]

theorem mem_of_findSlot {l : List (Nat × Span)} {k : Nat} {sp : Span} (h : findSlot l k = some sp) :
    (k, sp) ∈ l := by
  induction l with
  | nil => cases h
  | cons q rest ih =>
    obtain ⟨n, v⟩ := q
    unfold findSlot at h
    split at h
    · next hk => cases h; subst hk; exact List.mem_cons_self
    · exact List.mem_cons_of_mem _ (ih h)

theorem SpanTable.filling_found {t : SpanTable} (ht : TableOk t) {src : Source} {p : Nat × Span}
    (h : t.filling src = some p) :
    findSlot t.slots p.1 = some p.2 ∧ p.2.source = src ∧ p.2.state = .filling := by
  have hp := List.find?_some h
  simp only [Bool.and_eq_true, decide_eq_true_eq] at hp
  exact ⟨findSlot_of_mem ht.slots (List.mem_of_find?_eq_some h), hp.1, hp.2⟩

theorem SpanTable.oldestHeld_found {t : SpanTable} (ht : TableOk t) {src : Source} {p : Nat × Span}
    (h : t.oldestHeld src = some p) :
    findSlot t.slots p.1 = some p.2 ∧ p.2.source = src ∧ p.2.state = .held := by
  have hp := SpanTable.mem_inState.1 (List.mem_of_mem_head? h)
  exact ⟨findSlot_of_mem ht.slots hp.1, hp.2.1, hp.2.2⟩

theorem findSlot_dropSlot (l : List (Nat × Span)) (k j low : Nat) (hl : slotsFrom low l = true) :
    findSlot (dropSlot l k) j = if j = k then none else findSlot l j := by
  induction l generalizing low with
  | nil => simp [dropSlot, findSlot]
  | cons p rest ih =>
    obtain ⟨n, sp⟩ := p
    rw [slotsFrom_cons] at hl
    unfold dropSlot
    split
    · next h =>
      subst h
      by_cases hj : j = k
      · rw [if_pos hj, hj, findSlot_none_of_lt hl.2.2 (by omega)]
      · simp [findSlot, hj]
    · next h =>
      by_cases hj : j = n
      · have : j ≠ k := by omega
        simp [findSlot, hj]
        omega
      · simp only [findSlot, hj, if_false]
        exact ih _ hl.2.2

/-! ### The queues (R16, R17) -/

theorem mem_queueRemove {slot n : Nat} {q : List Nat} : n ∈ queueRemove slot q ↔ n ∈ q ∧ n ≠ slot := by
  simp [queueRemove]

theorem mem_queueInsert {slots : List (Nat × Span)} {slot n : Nat} {seq : Word32} {q : List Nat} :
    n ∈ queueInsert slots slot seq q ↔ n = slot ∨ n ∈ q := by
  induction q with
  | nil => simp [queueInsert]
  | cons x rest ih =>
    unfold queueInsert
    split
    · split
      · simp
      · simp only [List.mem_cons, ih]; tauto
    · simp only [List.mem_cons, ih]; tauto

theorem nodup_queueInsert {slots : List (Nat × Span)} {slot : Nat} {seq : Word32} {q : List Nat}
    (h : q.Nodup) (hs : slot ∉ q) : (queueInsert slots slot seq q).Nodup := by
  induction q with
  | nil => simp [queueInsert]
  | cons x rest ih =>
    rw [List.nodup_cons] at h
    rw [List.mem_cons, not_or] at hs
    have hr : (x :: queueInsert slots slot seq rest).Nodup := by
      rw [List.nodup_cons]
      refine ⟨fun hx => ?_, ih h.2 hs.2⟩
      rcases mem_queueInsert.1 hx with hx | hx
      · exact hs.1 hx.symm
      · exact h.1 hx
    unfold queueInsert
    split
    · split
      · rw [List.nodup_cons, List.mem_cons, not_or]
        exact ⟨hs, List.nodup_cons.2 h⟩
      · exact hr
    · exact hr

/-- Slots in sequence order, by the records of a table. -/
abbrev Ordered (slots : List (Nat × Span)) (q : List Nat) : Prop :=
  q.Pairwise fun m n =>
    ∀ x y, findSlot slots m = some x → findSlot slots n = some y → x.seq ≤ y.seq

theorem ordered_queueInsert {slots : List (Nat × Span)} {slot : Nat} {sp : Span} {q : List Nat}
    (hs : findSlot slots slot = some sp) (hq : ∀ n ∈ q, (findSlot slots n).isSome = true)
    (h : Ordered slots q) : Ordered slots (queueInsert slots slot sp.seq q) := by
  induction q with
  | nil => simp [queueInsert, Ordered]
  | cons x rest ih =>
    have hx := hq x List.mem_cons_self
    obtain ⟨xs, hxs⟩ := Option.isSome_iff_exists.1 hx
    have h2 := List.pairwise_cons.1 h
    unfold queueInsert
    rw [hxs]
    dsimp only
    split
    · next hlt =>
      refine List.pairwise_cons.2 ⟨fun n hn a b ha hb => ?_, h⟩
      rw [hs] at ha
      cases ha
      rcases List.mem_cons.1 hn with rfl | hn
      · rw [hxs] at hb
        cases hb
        exact BitVec.le_of_lt hlt
      · exact BitVec.le_trans (BitVec.le_of_lt hlt) (h2.1 n hn xs b hxs hb)
    · next hge =>
      refine List.pairwise_cons.2 ⟨fun n hn a b ha hb => ?_,
        ih (fun n hn => hq n (List.mem_cons_of_mem _ hn)) h2.2⟩
      rcases mem_queueInsert.1 hn with rfl | hn
      · rw [hxs] at ha
        rw [hs] at hb
        cases ha
        cases hb
        exact BitVec.not_lt.1 hge
      · exact h2.1 n hn a b ha hb

/-- Records with the same sequence numbers order the same queues. -/
theorem ordered_congr {slots slots' : List (Nat × Span)} {q : List Nat} (h : Ordered slots q)
    (hf : ∀ n ∈ q, findSlot slots' n = findSlot slots n) : Ordered slots' q := by
  induction q with
  | nil => exact List.Pairwise.nil
  | cons x rest ih =>
    have h2 := List.pairwise_cons.1 h
    refine List.pairwise_cons.2 ⟨fun n hn a b ha hb => ?_,
      ih h2.2 fun n hn => hf n (List.mem_cons_of_mem _ hn)⟩
    rw [hf x List.mem_cons_self] at ha
    rw [hf n (List.mem_cons_of_mem _ hn)] at hb
    exact h2.1 n hn a b ha hb

/-- A queue that does not list a slot stays right when only that slot's record changes, from and to one
that is not QUEUED in its source. -/
theorem QueueOk.other {slots slots' : List (Nat × Span)} {src : Source} {q : List Nat} {slot : Nat}
    (h : QueueOk slots src q) (hf : ∀ n, n ≠ slot → findSlot slots' n = findSlot slots n)
    (h1 : slot ∉ q)
    (h2 : ∀ sp, findSlot slots' slot = some sp → ¬ (sp.source = src ∧ sp.state = .queued)) :
    QueueOk slots' src q where
  once := h.once
  listed n := by
    by_cases hn : n = slot
    · subst hn
      exact ⟨fun hq => absurd hq h1, fun ⟨sp, hs, hp⟩ => absurd hp (h2 sp hs)⟩
    · rw [hf n hn]
      exact h.listed n
  ordered := ordered_congr h.ordered fun n hn => hf n fun he => h1 (he ▸ hn)

/-- A slot not QUEUED in a source is not in its queue. -/
theorem QueueOk.not_mem {slots : List (Nat × Span)} {src : Source} {q : List Nat} {slot : Nat}
    (h : QueueOk slots src q)
    (h1 : ∀ sp, findSlot slots slot = some sp → ¬ (sp.source = src ∧ sp.state = .queued)) :
    slot ∉ q := fun hq => by
  obtain ⟨sp, hs, hp⟩ := (h.listed slot).1 hq
  exact h1 sp hs hp

/-- A slot taken out of a queue. -/
theorem QueueOk.remove {slots slots' : List (Nat × Span)} {src : Source} {q : List Nat} {slot : Nat}
    (h : QueueOk slots src q) (hf : ∀ n, n ≠ slot → findSlot slots' n = findSlot slots n)
    (h2 : ∀ sp, findSlot slots' slot = some sp → ¬ (sp.source = src ∧ sp.state = .queued)) :
    QueueOk slots' src (queueRemove slot q) where
  once := h.once.filter _
  listed n := by
    rw [mem_queueRemove]
    by_cases hn : n = slot
    · subst hn
      exact ⟨fun hq => absurd rfl hq.2, fun ⟨sp, hs, hp⟩ => absurd hp (h2 sp hs)⟩
    · rw [hf n hn, h.listed n]
      exact ⟨fun hq => hq.1, fun hq => ⟨hq, hn⟩⟩
  ordered := ordered_congr (List.Pairwise.filter _ h.ordered) fun n hn =>
    hf n (mem_queueRemove.1 hn).2

/-- A slot that becomes QUEUED takes its place. -/
theorem QueueOk.insert {slots slots' : List (Nat × Span)} {src : Source} {q : List Nat} {slot : Nat}
    {sp : Span} (h : QueueOk slots src q)
    (hf : ∀ n, n ≠ slot → findSlot slots' n = findSlot slots n) (hs : findSlot slots' slot = some sp)
    (h1 : sp.source = src) (h2 : sp.state = .queued) :
    QueueOk slots' src (queueInsert slots' slot sp.seq (queueRemove slot q)) where
  once := nodup_queueInsert (h.once.filter _) fun hq => (mem_queueRemove.1 hq).2 rfl
  listed n := by
    rw [mem_queueInsert, mem_queueRemove]
    by_cases hn : n = slot
    · subst hn
      exact ⟨fun _ => ⟨sp, hs, h1, h2⟩, fun _ => .inl rfl⟩
    · rw [hf n hn, h.listed n]
      exact ⟨fun hq => (hq.resolve_left hn).1, fun hq => .inr ⟨hq, hn⟩⟩
  ordered := by
    refine ordered_queueInsert hs (fun n hn => ?_) (ordered_congr (List.Pairwise.filter _ h.ordered)
      fun n hn => hf n (mem_queueRemove.1 hn).2)
    obtain ⟨h3, h4⟩ := mem_queueRemove.1 hn
    obtain ⟨x, hx, -⟩ := (h.listed n).1 h3
    rw [hf n h4, hx]
    rfl

theorem QueueLaw.empty : QueueLaw .empty := fun src => by
  cases src <;> exact ⟨List.nodup_nil, fun n => ⟨fun h => (by cases h), fun ⟨_, h, _⟩ => (by cases h)⟩,
    List.Pairwise.nil⟩

/-- The record of one slot changes, and its source's queue with it; every other queue stays. -/
theorem QueueLaw.update {t : SpanTable} (h : QueueLaw t) {slots' : List (Nat × Span)} {slot occ : Nat}
    {src : Source} {q : List Nat} (hf : ∀ n, n ≠ slot → findSlot slots' n = findSlot t.slots n)
    (h1 : ∀ sp, findSlot t.slots slot = some sp → sp.source = src)
    (h2 : ∀ sp, findSlot slots' slot = some sp → sp.source = src) (hq : QueueOk slots' src q) :
    QueueLaw { slots := slots', queues := t.queues.set src q, occupancy := occ } := fun x => by
  simp only [PerSource.get_set]
  split
  · next hx => subst hx; exact hq
  · next hx =>
    exact (h x).other hf ((h x).not_mem fun sp hs hp => hx (hp.1.symm.trans (h1 sp hs)))
      fun sp hs hp => hx (hp.1.symm.trans (h2 sp hs))

/-- A span enters a state in its slot (R16, R17). -/
theorem QueueLaw.enter {t : SpanTable} (h : QueueLaw t) (ht : TableOk t) {slot : Nat} {new : Span}
    (h1 : ∀ old, findSlot t.slots slot = some old → old.source = new.source) :
    QueueLaw
      { t with
        slots := putSlot t.slots slot new
        queues := t.queues.set new.source
          (if new.state = .queued then
            queueInsert (putSlot t.slots slot new) slot new.seq
              (queueRemove slot (t.queues.get new.source))
          else queueRemove slot (t.queues.get new.source)) } := by
  have hf : ∀ n, n ≠ slot → findSlot (putSlot t.slots slot new) n = findSlot t.slots n := fun n hn => by
    rw [findSlot_putSlot _ _ _ _ 0 ht.slots, if_neg hn]
  have hs : findSlot (putSlot t.slots slot new) slot = some new := by
    rw [findSlot_putSlot _ _ _ _ 0 ht.slots, if_pos rfl]
  refine h.update hf h1 (fun sp hsp => by rw [hs] at hsp; cases hsp; rfl) ?_
  split
  · next hq => exact (h new.source).insert hf hs rfl hq
  · next hq =>
    refine (h new.source).remove hf fun sp hsp => ?_
    rw [hs] at hsp
    cases hsp
    exact fun hp => hq hp.2

theorem PerSource.set_get {α : Type} (v : PerSource α) (src : Source) : v.set src (v.get src) = v := by
  cases src <;> rfl

/-- A record is replaced by one of the same source, sequence and state. -/
theorem QueueLaw.put {t : SpanTable} (h : QueueLaw t) (ht : TableOk t) {slot : Nat} {new old : Span}
    (hs : findSlot t.slots slot = some old) (h1 : new.source = old.source) (h2 : new.seq = old.seq)
    (h3 : new.state = old.state) : QueueLaw { t with slots := putSlot t.slots slot new } := fun src => by
  have hf : ∀ n, findSlot (putSlot t.slots slot new) n = if n = slot then some new else findSlot t.slots n :=
    fun n => findSlot_putSlot _ _ _ _ 0 ht.slots
  have hb := h src
  refine ⟨hb.once, fun n => ?_, ?_⟩
  · rw [hb.listed n, hf]
    split
    · next hn =>
      subst hn
      rw [hs]
      simp [h1, h3]
    · rfl
  · refine hb.ordered.imp fun {m n} hmn x y hx hy => ?_
    have key : ∀ {k : Nat} {z : Span}, findSlot (putSlot t.slots slot new) k = some z →
        ∃ z', findSlot t.slots k = some z' ∧ z'.seq = z.seq := by
      intro k z hz
      rw [hf] at hz
      split at hz
      · next hk => cases hz; subst hk; exact ⟨old, hs, h2.symm⟩
      · exact ⟨z, hz, rfl⟩
    obtain ⟨x', hx', ex⟩ := key hx
    obtain ⟨y', hy', ey⟩ := key hy
    rw [← ex, ← ey]
    exact hmn x' y' hx' hy'

/-- A span that is not QUEUED is opened in a slot whose record is not QUEUED. -/
theorem QueueLaw.open_ {t : SpanTable} (h : QueueLaw t) (ht : TableOk t) {slot occ : Nat} {new : Span}
    (h1 : ∀ old, findSlot t.slots slot = some old → old.state ≠ .queued) (h2 : new.state ≠ .queued) :
    QueueLaw { t with slots := putSlot t.slots slot new, occupancy := occ } := fun src =>
  (h src).other (fun n hn => by rw [findSlot_putSlot _ _ _ _ 0 ht.slots, if_neg hn])
    ((h src).not_mem fun sp hs hp => h1 sp hs hp.2) fun sp hs hp => by
      rw [findSlot_putSlot _ _ _ _ 0 ht.slots, if_pos rfl] at hs
      cases hs
      exact h2 hp.2

/-- A slot becomes FREE. -/
theorem QueueLaw.drop {t : SpanTable} (h : QueueLaw t) (ht : TableOk t) {slot occ : Nat} {sp : Span}
    (hs : findSlot t.slots slot = some sp) :
    QueueLaw
      { slots := dropSlot t.slots slot
        queues := t.queues.set sp.source (queueRemove slot (t.queues.get sp.source))
        occupancy := occ } := by
  have hf : ∀ n, n ≠ slot → findSlot (dropSlot t.slots slot) n = findSlot t.slots n := fun n hn => by
    rw [findSlot_dropSlot _ _ _ 0 ht.slots, if_neg hn]
  have hd : findSlot (dropSlot t.slots slot) slot = none := by
    rw [findSlot_dropSlot _ _ _ 0 ht.slots, if_pos rfl]
  refine h.update hf (fun old ho => by rw [hs] at ho; cases ho; rfl)
    (fun x hx => by rw [hd] at hx; cases hx)
    ((h sp.source).remove hf fun x hx => by rw [hd] at hx; cases hx)

end Sys2Proof.Machine
end

