-- ==== Sys2Proof/Laws/Within.lean ====
section
/-! SUPPORT. Laws/Within.lean: what every effect inside a step holds to, and the shared operations below the index that hold to it. -/

namespace Sys2Proof.Machine

/-! ### The relation and its closure -/

theorem LaneKept.refl (x : LaneUnit) : LaneKept x x :=
  ⟨rfl, rfl, rfl, rfl, rfl, le_refl _, le_refl _, le_refl _⟩

theorem LaneKept.trans {x y z : LaneUnit} (h : LaneKept x y) (k : LaneKept y z) : LaneKept x z :=
  ⟨k.settings.trans h.settings, k.report.trans h.report, k.effBurst.trans h.effBurst,
    k.effWake.trans h.effWake, k.attentionSeen.trans h.attentionSeen, h.dataCursor.trans k.dataCursor,
    k.indexCursor.trans h.indexCursor, h.deadSpace.trans k.deadSpace⟩

theorem OutGrows.refl (x : List OutFrame) : OutGrows x x := ⟨[], by simp, by simp, .inl rfl⟩

theorem OutGrows.trans {x y z : List OutFrame} (h : OutGrows x y) (k : OutGrows y z) :
    OutGrows x z := by
  obtain ⟨m, rfl, hm, hb⟩ := h
  obtain ⟨n, rfl, hn, hc⟩ := k
  refine ⟨m ++ n, by simp, ?_, ?_⟩
  · intro f hf
    rcases List.mem_append.1 hf with h | h
    · exact hm f h
    · exact hn f h
  · rcases hc with rfl | hc
    · rcases hb with rfl | hb
      · exact .inl rfl
      · exact .inr (by simpa using hb)
    · exact .inr hc

theorem RunState.forward_refl (r : RunState) : r.forward r = true := by cases r <;> rfl

theorem RunState.forward_trans {a b c : RunState} (h : a.forward b = true) (k : b.forward c = true) :
    a.forward c = true := by
  revert h k
  cases a <;> cases b <;> cases c <;> decide

theorem Held.refl (s : State) : Held s s where
  pending := rfl
  now := rfl
  wire _ := List.prefix_refl _
  clocked := rfl
  rxPart := rfl
  rx := rfl
  linkErrors := rfl
  outPos := rfl
  out := .refl _
  flags _ h := h
  classOf := rfl
  enable := rfl
  run := RunState.forward_refl _
  runId := rfl
  sourceSet := rfl
  start := rfl
  startEpoch := rfl
  lastEpoch := rfl
  deadline := rfl
  expired := rfl
  settings _ := rfl
  boundary := rfl
  notify := rfl
  limit := rfl
  periodSetting := rfl
  lockSetting := rfl
  period := rfl
  lockTime := rfl
  lanes _ := .refl _

theorem Held.trans {s t u : State} (h : Held s t) (k : Held t u) : Held s u where
  pending := k.pending.trans h.pending
  now := k.now.trans h.now
  wire lane := (h.wire lane).trans (k.wire lane)
  clocked := k.clocked.trans h.clocked
  rxPart := k.rxPart.trans h.rxPart
  rx := k.rx.trans h.rx
  linkErrors := k.linkErrors.trans h.linkErrors
  outPos := k.outPos.trans h.outPos
  out := h.out.trans k.out
  flags f hf := k.flags f (h.flags f hf)
  classOf := k.classOf.trans h.classOf
  enable := k.enable.trans h.enable
  run := RunState.forward_trans h.run k.run
  runId := k.runId.trans h.runId
  sourceSet := k.sourceSet.trans h.sourceSet
  start := k.start.trans h.start
  startEpoch := k.startEpoch.trans h.startEpoch
  lastEpoch := k.lastEpoch.trans h.lastEpoch
  deadline := k.deadline.trans h.deadline
  expired := k.expired.trans h.expired
  settings src := (k.settings src).trans (h.settings src)
  boundary := k.boundary.trans h.boundary
  notify := k.notify.trans h.notify
  limit := k.limit.trans h.limit
  periodSetting := k.periodSetting.trans h.periodSetting
  lockSetting := k.lockSetting.trans h.lockSetting
  period := k.period.trans h.period
  lockTime := k.lockTime.trans h.lockTime
  lanes lane := (h.lanes lane).trans (k.lanes lane)

theorem SpanKept.refl (x : Span) : SpanKept x x := ⟨rfl, rfl, rfl, rfl, rfl, id⟩

theorem SpanKept.trans {x y z : Span} (h : SpanKept x y) (k : SpanKept y z) : SpanKept x z :=
  ⟨k.runId.trans h.runId, k.seq.trans h.seq, k.source.trans h.source, k.first.trans h.first,
    k.count.trans h.count, h.filling ∘ k.filling⟩

theorem Kept.refl (s : State) : Kept s s :=
  { Held.refl s with
    mem := rfl
    newest := fun _ => rfl
    lost := rfl
    spans := fun p hp => ⟨p.2, hp, .refl _⟩ }

theorem Kept.trans {s t u : State} (h : Kept s t) (k : Kept t u) : Kept s u :=
  { h.toHeld.trans k.toHeld with
    mem := k.mem.trans h.mem
    newest := fun src => (k.newest src).trans (h.newest src)
    spans := fun p hp => by
      obtain ⟨y, hy, hyp⟩ := k.spans p hp
      obtain ⟨x, hx, hxy⟩ := h.spans _ hy
      exact ⟨x, hx, hxy.trans hyp⟩
    lost := k.lost.trans h.lost }

/-- An effect inside a step that takes no sample: it holds to `Kept` and keeps the laws of a run, with any
number of RUN_END offers about to be made. -/
structure Within (s t : State) : Prop where
  kept : Kept s t
  law : ∀ m, RunLawWith m s → RunLawWith m t

theorem Within.refl (s : State) : Within s s := ⟨.refl s, fun _ h => h⟩

theorem Within.trans {s t u : State} (h : Within s t) (k : Within t u) : Within s u :=
  ⟨h.kept.trans k.kept, fun m hm => k.law m (h.law m hm)⟩

/-- An effect inside a step that may take samples: it holds to `Held` and keeps the laws of a run and the
canonical form of memory. -/
structure Around (s t : State) : Prop where
  held : Held s t
  law : RunLaw s → RunLaw t
  mem : MemOk s → MemOk t

theorem Around.refl (s : State) : Around s s := ⟨.refl s, id, id⟩

theorem Around.trans {s t u : State} (h : Around s t) (k : Around t u) : Around s u :=
  ⟨h.held.trans k.held, k.law ∘ h.law, k.mem ∘ h.mem⟩

theorem Within.around {s t : State} (h : Within s t) : Around s t :=
  ⟨h.kept.toHeld, h.law 0, fun hm => by unfold MemOk; rw [h.kept.mem]; exact hm⟩

/-- A frame has at least one byte. -/
theorem OutFrame.bytes_pos (f : OutFrame) : 0 < f.bytes.length := by simp [OutFrame.bytes]

/-- The bounds of the port survive what happens inside a step. -/
theorem LinkOk.held {s t : State} (h : LinkOk s.clp) (k : Held s t) : LinkOk t.clp where
  part := by rw [k.rxPart]; exact h.part
  rx := by rw [k.rx]; exact h.rx
  out := by
    obtain ⟨m, hm, -, hb⟩ := k.out
    rcases hb with rfl | hb
    · rw [hm, List.append_nil]; exact h.out
    · omega
  errors := by rw [k.linkErrors]; exact h.errors
  pos := by
    obtain ⟨m, hm, -, -⟩ := k.out
    have hp := h.pos
    unfold LinkPort.posOk at hp ⊢
    rw [k.outPos, hm]
    cases hs : s.clp.out with
    | nil =>
      rw [hs] at hp
      cases m with
      | nil => exact hp
      | cons f rest => simpa only [List.nil_append, hp] using OutFrame.bytes_pos f
    | cons f rest => rw [hs] at hp; exact hp

/-- What every command but a sample packet does: it keeps the laws of a run, every byte of memory, the
bounds of the link port and the queue of commands. -/
structure Sound (s t : State) : Prop where
  law : RunLaw s → RunLaw t
  mem : t.mem = s.mem
  link : LinkOk s.clp → LinkOk t.clp
  pending : t.pending = s.pending

theorem Sound.refl (s : State) : Sound s s := ⟨id, rfl, id, rfl⟩

theorem Sound.trans {s t u : State} (h : Sound s t) (k : Sound t u) : Sound s u :=
  ⟨k.law ∘ h.law, k.mem.trans h.mem, k.link ∘ h.link, k.pending.trans h.pending⟩

theorem Within.sound {s t : State} (h : Within s t) : Sound s t :=
  ⟨h.law 0, h.kept.mem, fun hl => hl.held h.kept.toHeld, h.kept.pending⟩

/-! ### The laws depend on few fields -/

/-- The laws of a run read the table, the run controller, the intake states and the index. -/
theorem RunLawWith.congr {n m : Nat} {s t : State} (h : RunLawWith n s) (hst : t.st = s.st)
    (hrc : t.rc = s.rc)
    (hci : ∀ src, (t.ci.get src).intake.takes = true → (s.ci.get src).intake.takes = true)
    (hiu : t.iu.runEnds + m = s.iu.runEnds + n) (hix : IndexLaw s.iu → IndexLaw t.iu) :
    RunLawWith m t where
  table := hst ▸ h.table
  queues := hst ▸ h.queues
  index := hix h.index
  count := by
    have := h.count
    unfold CountLaw at this ⊢
    rw [hrc, hst]
    exact this
  intake src hs := by
    rw [hrc]
    exact h.intake src (hci src hs)
  free := by
    have := h.free
    unfold FreeLaw at this ⊢
    rw [hrc, hst]
    exact this
  ends := by
    have := h.ends
    unfold EndLaw at this ⊢
    rw [hrc, hiu]
    exact this

/-! ### Updates -/

theorem within_setChoices (s : State) (v : Nat) : Within s (s.setChoices v) :=
  ⟨{ Kept.refl s with }, fun _ h => { h with }⟩

theorem within_setDs (s : State) (v : DrainScheduler) : Within s (s.setDs v) :=
  ⟨{ Kept.refl s with }, fun _ h => { h with }⟩

theorem within_setSe (s : State) (v : PerSource (Option Running)) : Within s (s.setSe v) :=
  ⟨{ Kept.refl s with }, fun _ h => { h with }⟩

theorem within_setTwu (s : State) (v : PerSource WindowSource) : Within s (s.setTwu v) :=
  ⟨{ Kept.refl s with }, fun _ h => { h with }⟩

theorem within_setClaim (s : State) (lane : Lane) (v : Option Claim) : Within s (s.setClaim lane v) :=
  within_setDs _ _

theorem within_setPair (s : State) (v : Option PairContext) : Within s (s.setPair v) := within_setDs _ _

theorem within_onWindow (s : State) (src : Source) (f : WindowSource → WindowSource) :
    Within s (s.onWindow src f) := within_setTwu _ _

theorem within_setSummary (s : State) (src : Source) (v : Option Running) :
    Within s (s.setSummary src v) := within_setSe _ _

/-- A change of the pressure states. -/
theorem within_setSpm (s : State) (v : PerSource Pressure) :
    Within s (s.setSpm { s.spm with pressure := v }) :=
  ⟨{ Kept.refl s with }, fun _ h => { h with }⟩

/-- A change of a lane that keeps what `LaneKept` says. -/
theorem within_onLane (s : State) (lane : Lane) (f : LaneUnit → LaneUnit)
    (h : LaneKept (s.al.get lane) (f (s.al.get lane))) : Within s (s.onLane lane f) where
  kept :=
    { Kept.refl s with
      lanes := fun l => by
        simp only [State.lane_eq, State.onLane_eq, State.setAl_al, PerLane.get_set]
        split
        · next hl => subst hl; exact h
        · exact .refl _ }
  law _ h := { h with }

/-- A change of a source's intake that keeps its settings and its newest number, and starts no taking. -/
theorem within_onIntake (s : State) (src : Source) (f : IntakeSource → IntakeSource)
    (h1 : (f (s.ci.get src)).settings = (s.ci.get src).settings)
    (h2 : (f (s.ci.get src)).newest = (s.ci.get src).newest)
    (h3 : (f (s.ci.get src)).intake.takes = true → (s.ci.get src).intake.takes = true) :
    Within s (s.onIntake src f) where
  kept :=
    { Kept.refl s with
      settings := fun x => by
        simp only [State.settings_eq, State.onIntake_eq, State.setCi_ci, PerSource.get_set]
        split
        · next hx => subst hx; exact h1
        · rfl
      newest := fun x => by
        simp only [State.intake_eq, State.onIntake_eq, State.setCi_ci, PerSource.get_set]
        split
        · next hx => subst hx; exact h2
        · rfl }
  law _ h := h.congr rfl rfl (fun x hx => by
    simp only [State.onIntake_eq, State.setCi_ci, PerSource.get_set] at hx
    split at hx
    · next hx' => subst hx'; exact h3 hx
    · exact hx) rfl id

/-- A change of the index unit that keeps its settings, the number of RUN_END offers and the law of its
buffers. -/
theorem within_setIu (s : State) (v : IndexUnit) (h1 : v.periodSetting = s.iu.periodSetting)
    (h2 : v.lockSetting = s.iu.lockSetting) (h3 : v.period = s.iu.period)
    (h4 : v.lockTime = s.iu.lockTime) (h5 : v.runEnds = s.iu.runEnds) (h6 : IndexLaw s.iu → IndexLaw v) :
    Within s (s.setIu v) :=
  ⟨{ Kept.refl s with periodSetting := h1, lockSetting := h2, period := h3, lockTime := h4 },
    fun _ h => h.congr rfl rfl (fun _ hx => hx) (by simp only [State.setIu_iu, h5]) h6⟩

/-- The law of the buffers reads the buffers and which one the writing record names. -/
theorem IndexLaw.congr {u v : IndexUnit} (h : IndexLaw u) (hb : v.buffers = u.buffers)
    (hw : v.writing.map Writing.buffer = u.writing.map Writing.buffer) : IndexLaw v := by
  have key : ∀ b, (∃ w, v.writing = some w ∧ w.buffer = b) ↔ ∃ w, u.writing = some w ∧ w.buffer = b := by
    intro b
    have h1 : ∀ x : Option Writing, (∃ w, x = some w ∧ w.buffer = b) ↔ x.map Writing.buffer = some b := by
      intro x
      cases x <;> simp
    rw [h1, h1, hw]
  exact
    { entries := hb ▸ h.entries
      filling := hb ▸ h.filling
      empty := hb ▸ h.empty
      oneFilling := hb ▸ h.oneFilling
      writing := fun b => by rw [hb, key]; exact h.writing b }

/-- A change of the index unit outside its buffers, its writing record and its RUN_END offer. -/
theorem within_setIuRest (s : State) (v : IndexUnit) (h1 : v.periodSetting = s.iu.periodSetting)
    (h2 : v.lockSetting = s.iu.lockSetting) (h3 : v.period = s.iu.period)
    (h4 : v.lockTime = s.iu.lockTime) (h5 : v.buffers = s.iu.buffers)
    (h6 : v.writing.map Writing.buffer = s.iu.writing.map Writing.buffer)
    (h7 : v.waitRunEnd = s.iu.waitRunEnd) : Within s (s.setIu v) :=
  within_setIu s v h1 h2 h3 h4 (by unfold IndexUnit.runEnds; rw [h5, h7]) fun h => h.congr h5 h6

theorem within_send (s : State) (lane : Lane) (f : LaneFrame) : Within s (s.send lane f) where
  kept :=
    { Kept.refl s with
      wire := fun l => by
        simp only [State.send, State.setWire_wire, PerLane.get_set]
        split
        · next hl => subst hl; exact List.prefix_append _ _
        · exact List.prefix_refl _ }
  law _ h := { h with }

theorem within_sendAwaiting (s : State) (lane : Lane) (frame : Word16 → LaneFrame) (time : Nat) :
    Within s (s.sendAwaiting lane frame time) :=
  (within_onLane s lane _ ⟨rfl, rfl, rfl, rfl, rfl, le_refl _, le_refl _, le_refl _⟩).trans
    (within_send _ _ _)

/-! ### Four containers by a loop over their indices -/

/-- A change made source by source holds to what each change holds to. -/
theorem within_forSources (f : Source → State → State) (s : State)
    (h : ∀ src s, Within s (f src s)) : Within s (forSources f s) :=
  ((h .s0 s).trans (h .s1 _)).trans ((h .s2 _).trans (h .s3 _))

theorem within_forLanes (f : Lane → State → State) (s : State) (h : ∀ lane s, Within s (f lane s)) :
    Within s (forLanes f s) := (h .l0 s).trans (h .l1 _)

/-! ### Flags and notices (R173) -/

theorem within_queueNotice (s : State) (c : Fin 4) (h : s.clp.out.length ≤ Config.noticeRoom) :
    Within s (s.queueNotice c) where
  kept :=
    { Kept.refl s with
      out := ⟨[s.nu.frame c], rfl, by simp [NoticeUnit.frame], .inr (by
        simp only [State.queueNotice, State.queueOut, State.setNu_clp, State.setClp_clp,
          List.length_append, List.length_singleton]
        simp only [Config.noticeRoom] at h
        omega)⟩
      flags := fun _ hf => hf }
  law _ h := { h with }

theorem within_setOwed (s : State) (c : Fin 4) (v : Bool) : Within s (s.setOwed c v) :=
  ⟨{ Kept.refl s with flags := fun _ hf => hf }, fun _ h => { h with }⟩

theorem within_noticeOrOwe (s : State) (c : Fin 4) : Within s (s.noticeOrOwe c) := by
  unfold State.noticeOrOwe
  split
  · next h => exact within_queueNotice s c h
  · exact within_setOwed s c true

/-- A flag set in a flag set is pending, and those pending stay so. -/
theorem isPending_or_bit (n : NoticeUnit) (f g : Flag) :
    NoticeUnit.isPending { n with flags := n.flags ||| f.bit } g =
      (n.isPending g || decide (g = f)) := by
  cases f <;> cases g <;> simp [NoticeUnit.isPending, Flag.bit, Flag.idx]

theorem within_setFlag (s : State) (f : Flag) : Within s (s.setFlag f) := by
  have h : Within s (s.setNu { s.nu with flags := s.nu.flags ||| f.bit }) :=
    ⟨{ Kept.refl s with
        flags := fun g hg => by
          simp only [State.setNu_nu, isPending_or_bit, hg, Bool.true_or] }, fun _ h => { h with }⟩
  unfold State.setFlag
  split
  · exact .refl s
  · dsimp only
    split
    · exact h.trans (within_noticeOrOwe _ _)
    · exact h

/-- A flag that is set is pending. -/
theorem setFlag_pending (s : State) (f : Flag) : (s.setFlag f).nu.isPending f = true := by
  unfold State.setFlag
  split
  · assumption
  · dsimp only
    have h : (s.setNu { s.nu with flags := s.nu.flags ||| f.bit }).nu.isPending f = true := by
      simp only [State.setNu_nu, isPending_or_bit, decide_true, Bool.or_true]
    split
    · exact (within_noticeOrOwe _ _).kept.flags f h
    · exact h

/-! ### Pressure (R90 to R92) -/

theorem IntakeState.takes_underPressure (i : IntakeState) (p : Pressure) :
    (i.underPressure p).takes = i.takes := by cases i <;> cases p <;> rfl

theorem within_setPressure (s : State) (src : Source) (p : Pressure) :
    Within s (s.setPressure src p) := by
  unfold State.setPressure
  dsimp only
  split
  · exact within_setSpm s _
  · split
    · exact (within_setSpm s _).trans (within_onIntake _ _ _ rfl rfl
        (fun h => by simpa only [IntakeState.takes_underPressure] using h))
    · exact within_setSpm s _
    · exact within_setSpm s _

theorem within_evalPressure (v : Nat) (src : Source) (s : State) :
    Within s (State.evalPressure v src s) := by
  unfold State.evalPressure
  split
  · exact within_setPressure _ _ _
  · exact .refl s

theorem within_evalAllPressure (v : Nat) (s : State) : Within s (s.evalAllPressure v) :=
  within_forSources _ _ (within_evalPressure v)

theorem within_occupancyChanged (u v : Nat) (s : State) : Within s (s.occupancyChanged u v) := by
  unfold State.occupancyChanged
  dsimp only
  split
  · exact (within_setFlag s _).trans (within_evalAllPressure v _)
  · exact within_evalAllPressure v s

theorem within_calmAll (s : State) : Within s s.calmAll := within_setSpm s _

/-! ### The span table (R8, R16, R19, R20) -/

/-- A record for a slot that holds the same span. -/
structure Follows (s : State) (slot : Nat) (v : Span) : Prop where
  held : ∃ old, (slot, old) ∈ s.st.slots ∧ SpanKept old v

theorem Follows.of_span? {s : State} {slot : Nat} {v old : Span} (h : s.span? slot = some old)
    (hv : SpanKept old v) : Follows s slot v := ⟨old, mem_of_findSlot h, hv⟩

theorem Follows.of_filling {s : State} {src : Source} {slot : Nat} {v sp : Span}
    (h : s.st.filling src = some (slot, sp)) (hv : SpanKept sp v) : Follows s slot v :=
  ⟨sp, List.mem_of_find?_eq_some h, hv⟩

/-- A record of the same span in the same state. -/
structure Same (x y : Span) : Prop extends SpanKept x y where
  state : y.state = x.state

theorem Same.of_state {x y : Span} (h1 : y.runId = x.runId) (h2 : y.seq = x.seq)
    (h3 : y.source = x.source) (h4 : y.first = x.first) (h5 : y.count = x.count)
    (h6 : y.state = x.state) : Same x y :=
  ⟨⟨h1, h2, h3, h4, h5, fun h => h6.symm.trans h⟩, h6⟩

theorem Same.addMark (sp : Span) (m : TriggerMark) : Same sp (sp.addMark m) := by
  unfold Span.addMark
  split <;> exact .of_state rfl rfl rfl rfl rfl rfl

/-- A record for a slot that holds the same span in the same state. -/
structure Amends (s : State) (slot : Nat) (v : Span) : Prop where
  held : ∃ old, (slot, old) ∈ s.st.slots ∧ Same old v

theorem Amends.of_span? {s : State} {slot : Nat} {v old : Span} (h : s.span? slot = some old)
    (hv : Same old v) : Amends s slot v := ⟨old, mem_of_findSlot h, hv⟩

theorem mem_putSlot {l : List (Nat × Span)} {k : Nat} {v : Span} {p : Nat × Span}
    (h : p ∈ putSlot l k v) : p = (k, v) ∨ p ∈ l := by
  induction l with
  | nil => exact .inl (List.mem_singleton.1 h)
  | cons q rest ih =>
    obtain ⟨n, sp⟩ := q
    unfold putSlot at h
    split at h
    · exact List.mem_cons.1 h
    · split at h
      · rcases List.mem_cons.1 h with h | h
        · exact .inl h
        · exact .inr (List.mem_cons_of_mem _ h)
      · rcases List.mem_cons.1 h with h | h
        · exact .inr (h ▸ List.mem_cons_self)
        · exact (ih h).imp_right (List.mem_cons_of_mem _)

theorem mem_dropSlot {l : List (Nat × Span)} {k : Nat} {p : Nat × Span} (h : p ∈ dropSlot l k) :
    p ∈ l := by
  induction l with
  | nil => cases h
  | cons q rest ih =>
    obtain ⟨n, sp⟩ := q
    unfold dropSlot at h
    split at h
    · exact List.mem_cons_of_mem _ h
    · rcases List.mem_cons.1 h with h | h
      · exact h ▸ List.mem_cons_self
      · exact List.mem_cons_of_mem _ (ih h)

/-- The laws of a run after a record is set in a slot that is listed, with its queues. -/
theorem RunLawWith.put {m : Nat} {s : State} (h : RunLawWith m s) {slot : Nat} {v : Span}
    {q : PerSource (List Nat)} (hs : (findSlot s.st.slots slot).isSome = true)
    (hq : QueueLaw { s.st with slots := putSlot s.st.slots slot v, queues := q }) :
    RunLawWith m (s.setSt { s.st with slots := putSlot s.st.slots slot v, queues := q }) :=
  { h with
    table := h.table.put v hs q
    queues := hq
    count := by
      have hc := h.count
      unfold CountLaw at hc ⊢
      simp only [State.setSt_rc, State.setSt_st, (putSlot_listed v h.table.slots hs).2]
      exact hc
    free := fun hr => by
      have hf := h.free hr
      rw [hf] at hs
      cases hs }

/-- The spans after a record of the same span is set in its slot. -/
theorem kept_put (s : State) (slot : Nat) (v : Span) (q : PerSource (List Nat)) (h : Follows s slot v) :
    Kept s (s.setSt { s.st with slots := putSlot s.st.slots slot v, queues := q }) :=
  { Kept.refl s with
    spans := fun p hp => by
      rcases mem_putSlot hp with rfl | hp
      · exact h.held
      · exact ⟨p.2, hp, .refl _⟩ }

theorem within_setSpan (s : State) (slot : Nat) (v : Span) (h : Amends s slot v) :
    Within s (s.setSpan slot v) := by
  obtain ⟨old, ho, hv⟩ := h.held
  exact ⟨kept_put s slot v s.st.queues ⟨old, ho, hv.toSpanKept⟩, fun m hm =>
    hm.put (findSlot_isSome_of_mem ho)
      (hm.queues.put hm.table (findSlot_of_mem hm.table.slots ho) hv.source hv.seq hv.state)⟩

theorem within_onSpan (s : State) (slot : Nat) (f : Span → Span)
    (hf : ∀ sp, Same sp (f sp) := by intro sp; exact .of_state rfl rfl rfl rfl rfl rfl) :
    Within s (s.onSpan slot f) := by
  unfold State.onSpan
  split
  · next sp h => exact within_setSpan s slot _ (.of_span? h (hf sp))
  · exact .refl s

theorem within_enter (s : State) (slot : Nat) (v : Span) (h : Follows s slot v) :
    Within s (s.enter slot v) := by
  obtain ⟨old, ho, hv⟩ := h.held
  refine ⟨kept_put s slot v _ h, fun m hm => hm.put (findSlot_isSome_of_mem ho) (hm.queues.enter hm.table
    fun x hx => ?_)⟩
  rw [findSlot_of_mem hm.table.slots ho] at hx
  cases hx
  exact hv.source.symm

/-- A slot that held a span and is listed no more is counted once. -/
theorem countLaw_release (c : ReleaseCause) (r : RunCounters) (n : Nat)
    (h : r.issued = BitVec.ofNat 64 (n + 1) + r.indexed + r.shed + r.recycled + r.discarded) :
    (c.count r).issued =
      BitVec.ofNat 64 n + (c.count r).indexed + (c.count r).shed + (c.count r).recycled +
        (c.count r).discarded := by
  rw [BitVec.ofNat_add] at h
  cases c <;> simp only [ReleaseCause.count, h] <;> bv_omega

theorem lost_count (c : ReleaseCause) (r : RunCounters) : (c.count r).lost = r.lost := by
  cases c <;> rfl

/-- The table and the counters after a release, before the report to the monitor. -/
theorem within_releaseCore (s : State) (slot : Nat) (c : ReleaseCause) (sp : Span)
    (hsp : findSlot s.st.slots slot = some sp) :
    Within s ((s.setSt
      { slots := dropSlot s.st.slots slot
        queues := s.st.queues.set sp.source (queueRemove slot (s.st.queues.get sp.source))
        occupancy := s.st.occupancy - 1 }).onCounters c.count) where
  kept :=
    { Kept.refl s with
      lost := lost_count c s.rc.counters
      spans := fun p hp => ⟨p.2, mem_dropSlot hp, .refl _⟩ }
  law _ hl := by
    have hs : (findSlot s.st.slots slot).isSome = true := by rw [hsp]; rfl
    obtain ⟨h1, h2⟩ := hl.table.drop hs
      (s.st.queues.set sp.source (queueRemove slot (s.st.queues.get sp.source)))
    have hc := hl.count
    unfold CountLaw at hc
    rw [← h2] at hc
    exact
      { table := h1
        queues := hl.queues.drop hl.table hsp
        index := hl.index
        count := countLaw_release c _ _ hc
        intake := hl.intake
        free := fun hr => by
          have hf := hl.free hr
          rw [hf] at hs
          cases hs
        ends := hl.ends }

theorem within_release (s : State) (slot : Nat) (c : ReleaseCause) : Within s (s.release slot c) := by
  unfold State.release
  split
  · exact .refl s
  · next sp h =>
    rw [State.span?_eq] at h
    exact (within_releaseCore s slot c sp h).trans (within_occupancyChanged _ _ _)

end Sys2Proof.Machine
end

