-- ==== Sys2Proof/Laws/Index.lean ====
section
/-! SUPPORT. Laws/Index.lean: the Index Unit's tasks hold to `Within`, and make at most one RUN_END. -/

namespace Sys2Proof.Machine

/-! ### RUN_END offers about to be made -/

/-- 1 for the offer of RUN_END. -/
def IndexTask.ends : IndexTask → Nat
  | .offer (.runEnd _) => 1
  | .offer (.span _ _) => 0
  | .offer (.gap _) => 0
  | .progress => 0
  | .refill => 0
  | .handNext _ => 0
  | .testEnding => 0

def endsOf (ts : List IndexTask) : Nat := (ts.map IndexTask.ends).sum

@[simp] theorem endsOf_nil : endsOf [] = 0 := rfl

@[simp] theorem endsOf_cons (t : IndexTask) (ts : List IndexTask) :
    endsOf (t :: ts) = t.ends + endsOf ts := by simp [endsOf]

@[simp] theorem endsOf_append (ts us : List IndexTask) : endsOf (ts ++ us) = endsOf ts + endsOf us := by
  simp [endsOf]

theorem Offer.endsOf_after (o : Offer) : endsOf o.after = 0 := by cases o <;> rfl

/-- An effect that turns `n` RUN_END offers about to be made into `k`. -/
structure Shift (n k : Nat) (s t : State) : Prop where
  kept : Kept s t
  law : ∀ m, RunLawWith (n + m) s → RunLawWith (k + m) t

theorem Within.shift {s t : State} (h : Within s t) (n : Nat) : Shift n n s t :=
  ⟨h.kept, fun m => h.law (n + m)⟩

theorem Shift.within {s t : State} (h : Shift 0 0 s t) : Within s t :=
  ⟨h.kept, fun m hm => by simpa using h.law m (by simpa using hm)⟩

theorem Shift.trans {n k l : Nat} {s t u : State} (h : Shift n k s t) (g : Shift k l t u) :
    Shift n l s u := ⟨h.kept.trans g.kept, fun m hm => g.law m (h.law m hm)⟩

theorem RunLawWith.mono {n k : Nat} {s : State} (h : RunLawWith n s) (hk : k ≤ n) : RunLawWith k s :=
  { h with
    ends := ⟨by have := h.ends.1; omega, fun hs => h.ends.2 (by omega)⟩ }

/-- An offer that is dropped. -/
theorem Shift.drop (n : Nat) (s : State) : Shift n 0 s s := ⟨.refl s, fun _ h => h.mono (by omega)⟩

/-! ### Buffers -/

theorem runEnds_set (u : IndexUnit) (b : BufferName) (v : IndexBuffer)
    (h : v.final = (u.buffers.get b).final) :
    IndexUnit.runEnds { u with buffers := u.buffers.set b v } = u.runEnds := by
  cases b <;> simp only [IndexUnit.runEnds, PerBuffer.set, PerBuffer.get] at h ⊢ <;> rw [h]

theorem runEnds_set_final (u : IndexUnit) (b : BufferName) (v : IndexBuffer)
    (h : (u.buffers.get b).final = false) (hv : v.final = true) :
    IndexUnit.runEnds { u with buffers := u.buffers.set b v } = u.runEnds + 1 := by
  cases b <;> simp only [IndexUnit.runEnds, PerBuffer.set, PerBuffer.get] at h ⊢ <;>
    rw [h, hv] <;> simp only [Bool.toNat_true, Bool.toNat_false] <;> omega

theorem runEnds_set_clear (u : IndexUnit) (b : BufferName) (v : IndexBuffer) (hv : v.final = false) :
    IndexUnit.runEnds { u with buffers := u.buffers.set b v } + (u.buffers.get b).final.toNat =
      u.runEnds := by
  cases b <;> simp only [IndexUnit.runEnds, PerBuffer.set, PerBuffer.get] <;> rw [hv] <;>
    simp only [Bool.toNat_false] <;> omega

theorem final_le_runEnds (u : IndexUnit) (b : BufferName) :
    (u.buffers.get b).final.toNat ≤ u.runEnds := by
  cases b <;> simp only [IndexUnit.runEnds, PerBuffer.get] <;> omega

/-- One buffer is changed, and with it perhaps the writing record. -/
theorem IndexLaw.set {u : IndexUnit} (h : IndexLaw u) (b : BufferName) (v : IndexBuffer)
    (w : Option Writing) (h1 : v.entries.length ≤ 63)
    (h2 : v.state = .filling →
      v.entries.length < 63 ∧ ∀ c, c ≠ b → (u.buffers.get c).state ≠ .filling)
    (h3 : v.state = .empty → v.entries = [])
    (h4 : v.state = .writing ↔ ∃ x, w = some x ∧ x.buffer = b)
    (h5 : ∀ c, c ≠ b → ((u.buffers.get c).state = .writing ↔ ∃ x, w = some x ∧ x.buffer = c)) :
    IndexLaw { u with buffers := u.buffers.set b v, writing := w } where
  entries c := by
    simp only [PerBuffer.get_set]
    split
    · exact h1
    · exact h.entries c
  filling c := by
    simp only [PerBuffer.get_set]
    split
    · exact fun hf => (h2 hf).1
    · exact h.filling c
  empty c := by
    simp only [PerBuffer.get_set]
    split
    · exact h3
    · exact h.empty c
  oneFilling c d hc hd := by
    simp only [PerBuffer.get_set] at hc hd
    split at hc <;> split at hd
    · next e1 e2 => rw [e1, e2]
    · next e1 e2 => exact absurd hd ((h2 hc).2 d e2)
    · next e1 e2 => exact absurd hc ((h2 hd).2 c e1)
    · exact h.oneFilling c d hc hd
  writing c := by
    simp only [PerBuffer.get_set]
    split
    · next e => subst e; exact h4
    · next e => exact h5 c e

/-- A buffer that is not WRITING is changed to one that is not WRITING. -/
theorem IndexLaw.setBuffer {u : IndexUnit} (h : IndexLaw u) (b : BufferName) (v : IndexBuffer)
    (h1 : v.entries.length ≤ 63)
    (h2 : v.state = .filling →
      v.entries.length < 63 ∧ ∀ c, c ≠ b → (u.buffers.get c).state ≠ .filling)
    (h3 : v.state = .empty → v.entries = []) (h4 : v.state ≠ .writing)
    (h5 : (u.buffers.get b).state ≠ .writing) :
    IndexLaw { u with buffers := u.buffers.set b v } :=
  h.set b v u.writing h1 h2 h3 ⟨fun hv => absurd hv h4, fun hx => absurd ((h.writing b).2 hx) h5⟩
    fun c _ => h.writing c

theorem within_setBuffer (s : State) (b : BufferName) (v : IndexBuffer)
    (h : v.final = (s.iu.buffers.get b).final)
    (hx : IndexLaw s.iu → IndexLaw { s.iu with buffers := s.iu.buffers.set b v }) :
    Within s (s.setBuffer b v) :=
  within_setIu s _ rfl rfl rfl rfl (runEnds_set s.iu b v h) hx

/-- The buffer that can take an entry is FILLING, or it is EMPTY and none is FILLING (R159). -/
theorem target_spec {s : State} {buf : BufferName} (h : s.target = some buf) :
    (s.buffer buf).state = .filling ∨
      (s.buffer buf).state = .empty ∧ ∀ c, (s.buffer c).state ≠ .filling := by
  unfold State.target at h
  split at h
  · cases h; exact .inl (by assumption)
  · split at h
    · cases h; exact .inl (by assumption)
    · next ha hb =>
      have hn : ∀ c, (s.buffer c).state ≠ .filling := fun c => by cases c <;> assumption
      split at h
      · cases h; exact .inr ⟨by assumption, hn⟩
      · split at h
        · cases h; exact .inr ⟨by assumption, hn⟩
        · cases h

/-- A buffer that took an entry is CLOSED or FILLING. -/
theorem IndexBuffer.append_state (v : IndexBuffer) (e : Entry) (isEnd : Bool) :
    (v.append e isEnd).state = .closed ∨ (v.append e isEnd).state = .filling := by
  unfold IndexBuffer.append
  dsimp only
  split
  · exact .inl rfl
  · exact .inr rfl

/-- A buffer that is FILLING after it took an entry holds fewer than 63. -/
theorem IndexBuffer.append_filling {v : IndexBuffer} {e : Entry} {isEnd : Bool}
    (h : (v.append e isEnd).state = .filling) : (v.append e isEnd).entries.length < 63 := by
  unfold IndexBuffer.append at h ⊢
  dsimp only at h ⊢
  split at h
  · cases h
  · next hc =>
    rw [Bool.or_eq_true, not_or, decide_eq_true_eq, not_le] at hc
    exact hc.2

/-- An admission keeps the law of the buffers: the 63rd entry closes the buffer (R157, R159). -/
theorem IndexLaw.append {s : State} (h : IndexLaw s.iu) {buf : BufferName} (ht : s.target = some buf)
    (e : Entry) (isEnd : Bool) :
    IndexLaw { s.iu with buffers := s.iu.buffers.set buf ((s.buffer buf).append e isEnd) } := by
  have hlen : (s.iu.buffers.get buf).entries.length < 63 := by
    rcases target_spec ht with hb | hb
    · exact h.filling buf hb
    · rw [h.empty buf hb.1]; decide
  have hone : ∀ c, c ≠ buf → (s.iu.buffers.get c).state ≠ .filling := fun c hc hf => by
    rcases target_spec ht with hb | hb
    · exact hc (h.oneFilling c buf hf hb)
    · exact hb.2 c hf
  refine h.setBuffer buf _ ?_ (fun hf => ⟨?_, hone⟩) (fun hf => ?_) (fun hf => ?_) fun hf => ?_
  · simp only [IndexBuffer.append, List.length_append, List.length_singleton, State.buffer]
    omega
  · exact IndexBuffer.append_filling hf
  · rcases IndexBuffer.append_state (s.buffer buf) e isEnd with h' | h' <;> rw [h'] at hf <;> cases hf
  · rcases IndexBuffer.append_state (s.buffer buf) e isEnd with h' | h' <;> rw [h'] at hf <;> cases hf
  · rcases target_spec ht with hb | hb
    · rw [State.buffer, hf] at hb; cases hb
    · rw [State.buffer, hf] at hb; cases hb.1

/-! ### Admission (R159) -/

theorem within_handBack (s : State) (o : Offer) : Within s (s.handBack o) := by
  cases o with
  | span slot e => cases e <;> exact within_release _ _ _
  | gap src =>
    unfold State.handBack
    exact within_onIntake _ _ _ (by rfl) (by rfl) (by exact id)
  | runEnd e => exact .refl s

/-- An offer that joins the waiting offers. -/
theorem shift_wait (s : State) (o : Offer) : Shift (IndexTask.offer o).ends 0 s (s.wait o) := by
  cases o with
  | span slot e => exact (within_setIuRest s _ (by rfl) (by rfl) (by rfl) (by rfl) (by rfl) (by rfl) (by rfl)).shift 0
  | gap src => exact (Within.refl s).shift 0
  | runEnd e =>
    refine ⟨{ Kept.refl s with }, fun m h => ?_⟩
    have he : s.iu.runEnds + (1 + m) ≤ 1 := h.ends.1
    refine h.congr rfl rfl (fun _ hx => hx) ?_ fun hx => hx.congr rfl rfl
    simp only [State.wait, State.setIu_iu, IndexUnit.runEnds, IndexTask.ends] at he ⊢
    cases hw : s.iu.waitRunEnd <;> simp only [hw, Option.isSome_some, Option.isSome_none,
      Bool.toNat_true, Bool.toNat_false] at he ⊢ <;> omega

theorem shift_takeOffer (s : State) (o : Offer) :
    Shift (IndexTask.offer o).ends (endsOf (s.takeOffer o).2) s (s.takeOffer o).1 := by
  unfold State.takeOffer
  split
  · exact shift_wait s o
  · next buf hbuf =>
    split
    · exact Shift.drop _ s
    · next e he =>
      dsimp only
      rw [Offer.endsOf_after]
      cases o with
      | span slot x =>
        exact ((within_setBuffer s buf _ (by simp [IndexBuffer.append, Offer.isRunEnd])
          fun hx => hx.append hbuf _ _).trans (within_handBack _ _)).shift 0
      | gap src =>
        exact ((within_setBuffer s buf _ (by simp [IndexBuffer.append, Offer.isRunEnd])
          fun hx => hx.append hbuf _ _).trans (within_handBack _ _)).shift 0
      | runEnd x =>
        refine ⟨{ Kept.refl s with }, fun m h => ?_⟩
        have h1 : s.iu.runEnds + (1 + m) ≤ 1 := h.ends.1
        have h2 := final_le_runEnds s.iu buf
        have h3 : (s.iu.buffers.get buf).final = false := by
          cases hf : (s.iu.buffers.get buf).final with
          | false => rfl
          | true => rw [hf, Bool.toNat_true] at h2; omega
        refine h.congr rfl rfl (fun _ hx => hx) ?_ fun hx => hx.append hbuf e true
        have h4 := runEnds_set_final s.iu buf ((s.buffer buf).append e true) h3
          (by simp [IndexBuffer.append])
        simp only [State.handBack, State.setBuffer, State.setIu_iu, Offer.isRunEnd, IndexTask.ends]
        rw [h4]
        omega

/-! ### Writing and completing a block (R161, R162) -/

/-- A CLOSED buffer becomes WRITING while no block is being written (R161). -/
theorem IndexLaw.becomeWriting {u : IndexUnit} (h : IndexLaw u) (b : BufferName) (w : Writing)
    (hw : u.writing = none) (hb : w.buffer = b) :
    IndexLaw
      { u with
        buffers := u.buffers.set b { u.buffers.get b with state := .writing }
        writing := some w } :=
  h.set b _ (some w) (h.entries b) (fun hf => by cases hf) (fun hf => by cases hf)
    (Iff.intro (fun _ => ⟨w, rfl, hb⟩) fun _ => rfl) fun c hc =>
      Iff.intro (fun hx => by obtain ⟨y, hy, -⟩ := (h.writing c).1 hx; rw [hw] at hy; cases hy)
        fun ⟨y, hy, hz⟩ => by cases hy; exact absurd (hz.symm.trans hb) hc

theorem within_becomeWriting (s : State) (b : BufferName) (hw : s.iu.writing = none) :
    Within s (s.becomeWriting b) := by
  have h : Within s (s.setIu { s.iu with
      buffers := s.iu.buffers.set b { s.buffer b with state := .writing }
      writing := some { buffer := b, seq := s.iu.blockSeq, duty := ⟨s.al.l0.state.duty, s.al.l1.state.duty⟩ } }) :=
    within_setIu s _ rfl rfl rfl rfl (runEnds_set s.iu b _ rfl) fun h => h.becomeWriting b _ hw rfl
  unfold State.becomeWriting
  dsimp only
  split
  · exact h.trans (within_setFlag _ _)
  · exact h

/-- The end of a run, from ENDING with no RUN_END left. -/
theorem within_idleIntake (s : State) (src : Source) :
    Within s (if (s.intake src).intake = .closed then s.onIntake src fun i => { i with intake := .idle }
      else s) := by
  split
  · exact within_onIntake _ _ _ (by rfl) (by rfl) (fun h => by cases h)
  · exact .refl s

/-- The run state and the last end cause at a run's end. -/
theorem kept_endRc (s : State) (c : EndCause) :
    Kept s (s.setRc { s.rc with runState := .idle, lastEnd := c }) :=
  { Kept.refl s with run := by cases s.rc.runState <;> simp [RunState.forward] }

theorem kept_endRun (s : State) (written : Bool) : Kept s (s.endRun written) :=
  (kept_endRc s _).trans
    ((within_forSources _ _ fun src s => within_idleIntake s src).trans
      ((within_calmAll _).trans (within_setFlag _ _))).kept

/-- A run that ends from ENDING keeps the laws, when no RUN_END is left. -/
theorem law_endRun {s : State} {m : Nat} (written : Bool) (h : RunLawWith m s)
    (hr : s.rc.runState = .ending) (h0 : s.iu.runEnds + m = 0) : RunLawWith m (s.endRun written) := by
  have h1 : RunLawWith m (s.setRc { s.rc with
      runState := .idle, lastEnd := if written then s.rc.provisional else .indexUnwritten }) :=
    { table := h.table
      queues := h.queues
      index := h.index
      count := h.count
      intake := fun src hs => by
        have := (h.intake src hs).1
        rw [hr] at this
        cases this
      free := fun _ => h.free (by rw [hr]; rfl)
      ends := ⟨by simp only [State.setRc_iu, h0]; omega, fun hx => by
        simp only [State.setRc_iu, h0] at hx
        omega⟩ }
  exact ((within_forSources _ _ fun src s => within_idleIntake s src).trans
      ((within_calmAll _).trans (within_setFlag _ _))).law m h1

/-- The first two steps of a block done (R162). -/
def State.blockCleared (s : State) (w : Writing) : State :=
  s.setIu { s.iu with
    buffers := s.iu.buffers.set w.buffer .empty
    writing := none
    blockSeq := s.iu.blockSeq + 1 }

/-- What follows a cleared block before the run may end. -/
def State.blockCounted (s : State) (w : Writing) : State :=
  if w.duty.l0 == .written || w.duty.l1 == .written then
    (((s.blockCleared w).setFlag .checkpointDone).onCounters fun c =>
      { c with checkpointsWritten := c.checkpointsWritten + 1 })
  else (s.blockCleared w).setFlag .checkpointDone

theorem blockDone_eq (s : State) (w : Writing) :
    s.blockDone w = if (s.buffer w.buffer).final then
      (s.blockCounted w).endRun (w.duty.l0 == .written || w.duty.l1 == .written)
    else s.blockCounted w := rfl

theorem within_countCheckpoint (s : State) :
    Within s (s.onCounters fun c => { c with checkpointsWritten := c.checkpointsWritten + 1 }) :=
  ⟨{ Kept.refl s with }, fun _ h => { h with }⟩

theorem within_countLate (s : State) :
    Within s (s.onCounters fun c => { c with checkpointsLate := c.checkpointsLate + 1 }) :=
  ⟨{ Kept.refl s with }, fun _ h => { h with }⟩

/-- From the cleared block to the counted one. -/
theorem within_blockCounted (s : State) (w : Writing) : Within (s.blockCleared w) (s.blockCounted w) := by
  unfold State.blockCounted
  split
  · exact (within_setFlag _ _).trans (within_countCheckpoint _)
  · exact within_setFlag _ _

theorem kept_blockCleared (s : State) (w : Writing) : Kept s (s.blockCleared w) := { Kept.refl s with }

/-- The WRITING buffer becomes EMPTY and the writing record is removed (R162). -/
theorem IndexLaw.blockCleared {u : IndexUnit} (h : IndexLaw u) {w : Writing} (hw : u.writing = some w)
    (seq : Word32) :
    IndexLaw { u with buffers := u.buffers.set w.buffer .empty, writing := none, blockSeq := seq } :=
  IndexLaw.congr (h.set w.buffer .empty none (by decide) (fun hf => by cases hf) (fun _ => rfl)
    (Iff.intro (fun hf => by cases hf) fun ⟨_, hx, _⟩ => by cases hx) fun c hc =>
      Iff.intro (fun hx => by
        obtain ⟨y, hy, hz⟩ := (h.writing c).1 hx
        rw [hw] at hy
        cases hy
        exact absurd hz.symm hc) fun ⟨_, hx, _⟩ => by cases hx) rfl rfl

/-- Clearing a block keeps the laws: fewer RUN_ENDs. -/
theorem law_blockCleared {s : State} {m : Nat} {w : Writing} (hw : s.iu.writing = some w)
    (h : RunLawWith m s) :
    RunLawWith m (s.blockCleared w) ∧
      (s.blockCleared w).iu.runEnds + (s.buffer w.buffer).final.toNat = s.iu.runEnds := by
  have he := runEnds_set_clear s.iu w.buffer .empty rfl
  have he' : (s.blockCleared w).iu.runEnds + (s.buffer w.buffer).final.toNat = s.iu.runEnds := he
  refine ⟨{ h with
    ends := ⟨?_, fun hx => h.ends.2 ?_⟩
    index := h.index.blockCleared hw _ }, he'⟩
  · have := h.ends.1
    omega
  · omega

/-- The effects of counting a block leave the index unit and the run state. -/
theorem blockCounted_iu (s : State) (w : Writing) :
    (s.blockCounted w).iu = (s.blockCleared w).iu ∧
      (s.blockCounted w).rc.runState = s.rc.runState := by
  have hf : ∀ (t : State) (f : Flag), (t.setFlag f).iu = t.iu ∧ (t.setFlag f).rc = t.rc := by
    intro t f
    unfold State.setFlag State.noticeOrOwe
    split
    · exact ⟨rfl, rfl⟩
    · dsimp only
      split
      · split <;> exact ⟨rfl, rfl⟩
      · exact ⟨rfl, rfl⟩
  unfold State.blockCounted
  split
  · exact ⟨(hf _ _).1, by
      simp only [State.onCounters, State.setRc_rc, (hf (s.blockCleared w) .checkpointDone).2]
      rfl⟩
  · exact ⟨(hf _ _).1, by rw [(hf _ _).2]; rfl⟩

theorem within_blockDone (s : State) (w : Writing) (hw : s.iu.writing = some w) :
    Within s (s.blockDone w) := by
  rw [blockDone_eq]
  split
  · next hfin =>
    refine ⟨(kept_blockCleared s w).trans ((within_blockCounted s w).kept.trans (kept_endRun _ _)),
      fun m h => ?_⟩
    obtain ⟨h1, h2⟩ := law_blockCleared hw h
    rw [hfin, Bool.toNat_true] at h2
    have h3 := h.ends.1
    have hr := h.ends.2 (by omega)
    obtain ⟨h4, h5⟩ := blockCounted_iu s w
    exact law_endRun _ ((within_blockCounted s w).law m h1) (h5.trans hr) (by rw [h4]; omega)
  · exact ⟨(kept_blockCleared s w).trans (within_blockCounted s w).kept,
      fun m h => (within_blockCounted s w).law m (law_blockCleared hw h).1⟩

theorem shift_progressOnce (s : State) :
    Shift 0 (endsOf s.progressOnce.2) s s.progressOnce.1 := by
  unfold State.progressOnce
  split
  · next w hw =>
    split
    · exact (Within.refl s).shift 0
    · exact (within_blockDone s w hw).shift 0
  · next hw =>
    split
    · exact (within_becomeWriting s _ hw).shift 0
    · exact (Within.refl s).shift 0

/-! ### Waiting offers (R163) -/

theorem nextWaiting_runEnd {s : State} {e : Entry} (h : s.nextWaiting = some (.runEnd e)) :
    s.iu.waitRunEnd = some e := by
  unfold State.nextWaiting at h
  split at h
  · cases h
  · split at h
    · cases h
    · cases hw : s.iu.waitRunEnd with
      | none => rw [hw] at h; cases h
      | some x => rw [hw] at h; cases h; rfl

theorem shift_refillOnce (s : State) : Shift 0 (endsOf s.refillOnce.2) s s.refillOnce.1 := by
  unfold State.refillOnce
  split
  · next buf o ht ho =>
    cases o with
    | span slot e => exact (within_setIuRest s _ (by rfl) (by rfl) (by rfl) (by rfl) (by rfl) (by rfl) (by rfl)).shift 0
    | gap src => exact (Within.refl s).shift 0
    | runEnd e =>
      have hw := nextWaiting_runEnd ho
      refine ⟨{ Kept.refl s with }, fun m h => ?_⟩
      refine h.congr rfl rfl (fun _ hx => hx) ?_ fun hx => hx.congr rfl rfl
      simp only [State.unwait, State.setIu_iu, IndexUnit.runEnds, hw, endsOf_cons, endsOf_nil,
        IndexTask.ends, Option.isSome_some, Option.isSome_none, Bool.toNat_true, Bool.toNat_false]
      omega
  · exact (Within.refl s).shift 0

/-! ### Gaps and ENDING -/

theorem shift_handOver (s : State) (src : Source) :
    Shift 0 (endsOf (s.handOver src).2) s (s.handOver src).1 := by
  unfold State.handOver
  split
  · dsimp only [endsOf_cons, endsOf_nil, IndexTask.ends]
    exact (within_onIntake s src _ (by rfl) (by rfl) (by exact id)).shift 0
  · exact (Within.refl s).shift 0

theorem shift_testEnding (s : State) : Shift 0 (endsOf s.testEnding.2) s s.testEnding.1 := by
  unfold State.testEnding
  split
  · next hc =>
    obtain ⟨hr, hs, -⟩ := hc
    refine ⟨{ Kept.refl s with run := by rw [hr]; rfl }, fun m h => ?_⟩
    have h0 : s.iu.runEnds + (0 + m) = 0 := by
      by_contra hne
      have := h.ends.2 (by omega)
      rw [hr] at this
      cases this
    exact
      { table := h.table
        queues := h.queues
        index := h.index.congr rfl rfl
        count := h.count
        intake := fun src hx => by
          have := (h.intake src hx).1
          rw [hr] at this
          cases this
        free := fun _ => hs
        ends := ⟨by
          simp only [State.enterEnding, endsOf_cons, endsOf_nil, IndexTask.ends, State.setIu_iu,
            IndexUnit.runEnds] at h0 ⊢
          omega, fun _ => rfl⟩ }
  · exact (Within.refl s).shift 0

/-! ### Running the tasks -/

theorem shift_indexTask (s : State) (t : IndexTask) :
    Shift t.ends (endsOf (s.indexTask t).2) s (s.indexTask t).1 := by
  cases t with
  | offer o => exact shift_takeOffer s o
  | progress => exact shift_progressOnce s
  | refill => exact shift_refillOnce s
  | handNext src =>
    simp only [State.indexTask]
    split
    · exact shift_handOver s src
    · exact (Within.refl s).shift 0
  | testEnding => exact shift_testEnding s

theorem shift_runTasks (fuel : Nat) (ts : List IndexTask) (s : State) :
    Shift (endsOf ts) 0 s (State.runTasks fuel ts s) := by
  induction fuel generalizing ts s with
  | zero => exact Shift.drop _ s
  | succ fuel ih =>
    cases ts with
    | nil => exact (Within.refl s).shift 0
    | cons t ts =>
      have h1 := shift_indexTask s t
      have h2 := ih ((s.indexTask t).2 ++ ts) (s.indexTask t).1
      refine ⟨h1.kept.trans h2.kept, fun m h => h2.law m ?_⟩
      have h3 := h1.law (endsOf ts + m) (by rw [endsOf_cons] at h; convert h using 1; omega)
      rw [endsOf_append]
      convert h3 using 1
      omega

/-- The Index Unit's tasks hold to `Within` when none of them is the offer of RUN_END. -/
theorem within_index (s : State) (ts : List IndexTask) (h : endsOf ts = 0) : Within s (s.index ts) := by
  have := shift_runTasks s.taskFuel ts s
  rw [h] at this
  exact this.within

theorem within_offerSpan (s : State) (slot : Nat) : Within s (s.offerSpan slot) := by
  unfold State.offerSpan
  split
  · exact within_index _ _ rfl
  · exact .refl s

theorem within_handGap (s : State) (src : Source) : Within s (s.handGap src) := by
  have h := shift_handOver s src
  have h0 : endsOf (s.handOver src).2 = 0 := by
    unfold State.handOver
    split <;> rfl
  rw [h0] at h
  exact h.within.trans (within_index _ _ h0)

theorem within_recycle (s : State) (slot : Nat) : Within s (s.recycle slot) :=
  (within_release _ _ _).trans (within_index _ _ rfl)

/-! ### What a lane reports, and closing (R160, R162) -/

theorem within_setDuty (s : State) (w : Writing) (lane : Lane) (d : Duty) (hw : s.iu.writing = some w) :
    Within s (s.setDuty w lane d) :=
  within_setIuRest s _ rfl rfl rfl rfl rfl (by rw [hw]; rfl) rfl

theorem within_blockWritten (s : State) (lane : Lane) (address : Nat) :
    Within s (s.blockWritten lane address) := by
  unfold State.blockWritten
  split
  · next w hw =>
    split
    · exact (within_setDuty _ _ _ _ hw).trans
        ((within_setIuRest _ _ (by rfl) (by rfl) (by rfl) (by rfl) (by rfl) (by rfl) (by rfl)).trans
          (within_index _ _ rfl))
    · exact .refl s
  · exact .refl s

theorem within_blockMissed (s : State) (lane : Lane) : Within s (s.blockMissed lane) := by
  unfold State.blockMissed
  split
  · next w hw =>
    split
    · exact (within_setDuty _ _ _ _ hw).trans ((within_setFlag _ _).trans (within_index _ _ rfl))
    · exact .refl s
  · exact .refl s

/-- A FILLING buffer closes (R160, R167). -/
theorem IndexLaw.close {u : IndexUnit} (h : IndexLaw u) {b : BufferName}
    (hb : (u.buffers.get b).state = .filling) :
    IndexLaw { u with buffers := u.buffers.set b { u.buffers.get b with state := .closed } } :=
  h.setBuffer b _ (h.entries b) (fun hf => by cases hf) (fun hf => by cases hf) (fun hf => by cases hf)
    fun hf => by rw [hb] at hf; cases hf

theorem within_closeFilling (s : State) : Within s s.closeFilling := by
  unfold State.closeFilling
  split
  · next h => exact (within_setBuffer s .a _ (by rfl) fun hx => hx.close h).trans (within_index _ _ rfl)
  · split
    · next h => exact (within_setBuffer s .b _ (by rfl) fun hx => hx.close h).trans (within_index _ _ rfl)
    · exact .refl s

end Sys2Proof.Machine
end

