-- ==== Sys2Proof/Laws/Spans.lean ====
section
/-! SUPPORT. Laws/Spans.lean: what becomes of a span, and the stop of a run, hold to `Within`. -/

namespace Sys2Proof.Machine

theorem within_summaryTake (s : State) (src : Source) (x : Sample) : Within s (s.summaryTake src x) := by
  unfold State.summaryTake
  split
  · exact .refl s
  · dsimp only
    split
    · exact (within_setSummary _ _ _).trans (within_setFlag _ _)
    · exact within_setSummary _ _ _

theorem within_summaryStart (s : State) (src : Source) (slot : Nat) (x : Sample) :
    Within s (s.summaryStart src slot x) := within_setSummary _ _ _

theorem within_commit (s : State) (slot : Nat) : Within s (s.commit slot) := by
  unfold State.commit
  split
  · next sp h =>
    split
    · exact (within_enter _ _ _ (.of_span? h (by exact ⟨rfl, rfl, rfl, rfl, rfl, fun h => by cases h⟩))).trans (within_offerSpan _ _)
    · exact .refl s
  · exact .refl s

theorem within_shedSpan (s : State) (slot : Nat) (c : ShedCause) : Within s (s.shedSpan slot c) := by
  unfold State.shedSpan
  split
  · next sp h =>
    split
    · exact .refl s
    · exact (within_enter _ _ _ (.of_span? h (by exact ⟨rfl, rfl, rfl, rfl, rfl, fun h => by cases h⟩))).trans (within_offerSpan _ _)
  · exact .refl s

theorem within_requeue (s : State) (slot : Nat) : Within s (s.requeue slot) := by
  unfold State.requeue
  split
  · next sp h =>
    split
    · split
      · exact within_commit _ _
      · exact within_shedSpan _ _ _
    · exact within_enter _ _ _ (.of_span? h (by exact ⟨rfl, rfl, rfl, rfl, rfl, fun h => by cases h⟩))
  · exact .refl s

theorem within_disposeQueued (s : State) (slot : Nat) : Within s (s.disposeQueued slot) := by
  unfold State.disposeQueued
  split
  · split
    · split
      · exact within_commit _ _
      · exact within_shedSpan _ _ _
    · exact .refl s
  · exact .refl s

theorem within_eachSlot (f : State → Nat → State) (h : ∀ s slot, Within s (f s slot)) (s : State)
    (slots : List Nat) : Within s (State.eachSlot f s slots) := by
  unfold State.eachSlot
  induction slots generalizing s with
  | nil => exact .refl s
  | cons x rest ih => exact (h s x).trans (ih (f s x))

theorem within_recycleAll (s : State) (spans : List (Nat × Span)) : Within s (s.recycleAll spans) :=
  within_eachSlot _ within_recycle _ _

theorem within_sealPressure (s : State) (src : Source) : Within s (s.sealPressure src) := by
  unfold State.sealPressure
  split
  · split
    · exact within_recycle _ _
    · split
      · exact (within_shedSpan _ _ _).trans (within_setFlag _ _)
      · exact .refl s
  · exact .refl s

theorem within_sealSpan (s : State) (src : Source) (slot : Nat) (sp : Span)
    (h : s.st.filling src = some (slot, sp)) : Within s (s.sealSpan src slot sp) := by
  have h1 : ∀ v : Span, SpanKept sp v →
      Within s ((s.setSummary src none).enter slot v) := fun v hv =>
    (within_setSummary _ _ _).trans (within_enter _ _ _ (.of_filling h hv))
  unfold State.sealSpan
  dsimp only
  split
  · split
    · exact (h1 _ (by exact ⟨rfl, rfl, rfl, rfl, rfl, fun h => by cases h⟩)).trans (within_recycle _ _)
    · exact h1 _ ⟨rfl, rfl, rfl, rfl, rfl, fun h => by cases h⟩
  · exact h1 _ ⟨rfl, rfl, rfl, rfl, rfl, fun h => by cases h⟩
  · exact h1 _ ⟨rfl, rfl, rfl, rfl, rfl, fun h => by cases h⟩

theorem within_sealFilling (s : State) (src : Source) : Within s (s.sealFilling src) := by
  unfold State.sealFilling
  split
  · next slot sp h =>
    exact (within_sealSpan _ _ _ _ h).trans (within_sealPressure _ _)
  · exact .refl s

/-! ### The stop (R32) -/

theorem within_closeIntake (s : State) (src : Source) : Within s (s.closeIntake src) :=
  (within_onIntake s src (fun i => { i with intake := .closed, tagPending := false }) rfl rfl
    fun h => by cases h).trans (within_onWindow _ _ _)

theorem kept_closeSource (src : Source) (s : State) : Kept s (State.closeSource src s) := by
  unfold State.closeSource
  split
  · exact (within_closeIntake _ _).kept
  · exact .refl s

/-- Closing one source leaves the table, the run and the index, and every other source's intake. -/
theorem closeSource_rest (src : Source) (s : State) :
    (State.closeSource src s).st = s.st ∧ (State.closeSource src s).rc = s.rc ∧
      (State.closeSource src s).iu = s.iu ∧
      ∀ x, ((State.closeSource src s).ci.get x).intake.takes = true →
        (s.ci.get x).intake.takes = true ∧ ¬ (x = src ∧ s.rc.sourceSet.get src = true) := by
  unfold State.closeSource
  split
  · refine ⟨rfl, rfl, rfl, fun x hx => ?_⟩
    simp only [State.closeIntake, State.onWindow, State.setTwu_ci, State.onIntake_eq, State.setCi_ci,
      PerSource.get_set] at hx
    split at hx
    · cases hx
    · next hne => exact ⟨hx, fun h => hne h.1⟩
  · next hs =>
    exact ⟨rfl, rfl, rfl, fun x hx => ⟨hx, fun h => hs h.2⟩⟩

/-- The run enters STOPPING with every run source CLOSED. -/
def State.stopIntake (s : State) : State :=
  forSources State.closeSource
    (s.setRc { s.rc with runState := .stopping, deadlineTimer := some (1000 * s.rc.deadline) })

theorem stopIntake_rest (s : State) :
    s.stopIntake.st = s.st ∧ s.stopIntake.iu = s.iu ∧
      s.stopIntake.rc =
        { s.rc with runState := .stopping, deadlineTimer := some (1000 * s.rc.deadline) } ∧
      ∀ x, (s.stopIntake.ci.get x).intake.takes = true →
        (s.ci.get x).intake.takes = true ∧ s.rc.sourceSet.get x = false := by
  unfold State.stopIntake forSources
  generalize hu : s.setRc { s.rc with runState := .stopping, deadlineTimer := some (1000 * s.rc.deadline) } = u
  obtain ⟨a0, b0, c0, d0⟩ := closeSource_rest .s0 u
  generalize State.closeSource .s0 u = u0 at *
  obtain ⟨a1, b1, c1, d1⟩ := closeSource_rest .s1 u0
  generalize State.closeSource .s1 u0 = u1 at *
  obtain ⟨a2, b2, c2, d2⟩ := closeSource_rest .s2 u1
  generalize State.closeSource .s2 u1 = u2 at *
  obtain ⟨a3, b3, c3, d3⟩ := closeSource_rest .s3 u2
  generalize State.closeSource .s3 u2 = u3 at *
  subst hu
  refine ⟨by rw [a3, a2, a1, a0]; rfl, by rw [c3, c2, c1, c0]; rfl, by rw [b3, b2, b1, b0]; rfl,
    fun x hx => ?_⟩
  obtain ⟨h3, n3⟩ := d3 x hx
  obtain ⟨h2, n2⟩ := d2 x h3
  obtain ⟨h1, n1⟩ := d1 x h2
  obtain ⟨h0, n0⟩ := d0 x h1
  rw [b2, b1, b0] at n3
  rw [b1, b0] at n2
  rw [b0] at n1
  simp only [State.setRc_rc] at n0 n1 n2 n3
  refine ⟨h0, ?_⟩
  cases x <;> simp_all

theorem within_stopIntake (s : State) (hr : s.rc.runState = .running) : Within s s.stopIntake := by
  obtain ⟨h1, h2, h3, h4⟩ := stopIntake_rest s
  refine ⟨Kept.trans (t := s.setRc
    { s.rc with runState := .stopping, deadlineTimer := some (1000 * s.rc.deadline) })
    { Kept.refl s with run := by rw [hr]; rfl } ?_, fun m h => ?_⟩
  · unfold State.stopIntake forSources
    exact ((kept_closeSource _ _).trans (kept_closeSource _ _)).trans
      ((kept_closeSource _ _).trans (kept_closeSource _ _))
  · exact
      { table := h1 ▸ h.table
        queues := h1 ▸ h.queues
        index := h2 ▸ h.index
        count := by
          have := h.count
          unfold CountLaw at this ⊢
          rw [h1, h3]
          exact this
        intake := fun src hs => by
          obtain ⟨ht, hn⟩ := h4 src hs
          have := (h.intake src ht).2
          rw [hn] at this
          cases this
        free := fun hf => by
          rw [h3] at hf
          cases hf
        ends := by
          have := h.ends
          unfold EndLaw at this ⊢
          rw [h2]
          refine ⟨this.1, fun hx => ?_⟩
          have := this.2 hx
          rw [hr] at this
          cases this }

theorem within_ifRun (f : State → Source → State) (h : ∀ s src, Within s (f s src)) (src : Source)
    (s : State) : Within s (State.ifRun f src s) := by
  unfold State.ifRun
  split
  · exact h s src
  · exact .refl s

theorem within_enterStopping (s : State) (hr : s.rc.runState = .running) : Within s s.enterStopping :=
  (within_stopIntake s hr).trans
    ((within_forSources _ _ (within_ifRun _ within_sealFilling)).trans
      ((within_forSources _ _ (within_ifRun _ within_handGap)).trans
        ((within_forSources _ _ (within_ifRun _ fun s _ => within_recycleAll s _)).trans
          (within_index _ _ rfl))))

theorem within_seal (s : State) (src : Source) : Within s (s.seal src) := by
  unfold State.seal
  split
  · dsimp only
    split
    · next h => exact (within_sealFilling s src).trans (within_enterStopping _ h.2)
    · exact within_sealFilling s src
  · exact .refl s

end Sys2Proof.Machine
end

