-- ==== Sys2Proof/Laws/Intake.lean ====
section
/-! SUPPORT. Laws/Intake.lean: the start of a run, and the taking of samples, hold to `Around`. -/

namespace Sys2Proof.Machine

/-! ### The placing of a sample, in a run that is running -/

/-- `Around` where a condition on the state before is needed for the laws of a run. -/
structure AroundIf (p : Prop) (s t : State) : Prop where
  held : Held s t
  law : p → RunLaw s → RunLaw t
  mem : MemOk s → MemOk t

theorem Around.given {s t : State} (h : Around s t) (p : Prop) : AroundIf p s t :=
  ⟨h.held, fun _ => h.law, h.mem⟩

theorem AroundIf.trans {p : Prop} {s t u : State} (h : AroundIf p s t) (k : Around t u) :
    AroundIf p s u := ⟨h.held.trans k.held, fun hp hs => k.law (h.law hp hs), k.mem ∘ h.mem⟩

theorem around_writeSample (s : State) (slot k : Nat) (x : Sample) :
    Around s (s.setMem (s.mem.writeSample slot k x)) :=
  ⟨{ Held.refl s with }, fun h => { h with }, fun h => Memory.wf_writeSample h slot k x⟩

/-- A change of a source's intake that keeps its settings and starts no taking. -/
theorem around_onIntake (s : State) (src : Source) (f : IntakeSource → IntakeSource)
    (h1 : (f (s.ci.get src)).settings = (s.ci.get src).settings)
    (h3 : (f (s.ci.get src)).intake.takes = true → (s.ci.get src).intake.takes = true) :
    Around s (s.onIntake src f) where
  held :=
    { Held.refl s with
      settings := fun x => by
        simp only [State.settings_eq, State.onIntake_eq, State.setCi_ci, PerSource.get_set]
        split
        · next hx => subst hx; exact h1
        · rfl }
  law h := h.congr rfl rfl (fun x hx => by
    simp only [State.onIntake_eq, State.setCi_ci, PerSource.get_set] at hx
    split at hx
    · next hx' => subst hx'; exact h3 hx
    · exact hx) rfl id
  mem h := h

theorem around_countLost (s : State) (v : PerSource Count64) :
    Around s (s.onCounters fun c => { c with lost := v }) :=
  ⟨{ Held.refl s with }, fun h => { h with }, id⟩

/-- A sample more is counted in the record of a span. -/
theorem around_count (s : State) (src : Source) (slot : Nat) (sp : Span)
    (h : s.st.filling src = some (slot, sp)) :
    Around s (s.setSpan slot { sp with count := sp.count + 1 }) :=
  ⟨{ Held.refl s with }, fun hl => hl.put (SpanTable.filling_listed h)
    (hl.queues.put hl.table (SpanTable.filling_found hl.table h).1 rfl rfl rfl), id⟩

theorem around_append (s : State) (src : Source) (slot : Nat) (sp : Span) (x : Sample)
    (h : s.st.filling src = some (slot, sp)) : Around s (s.append src slot sp x) :=
  (around_writeSample s slot sp.count x).trans
    ((around_count (s.setMem (s.mem.writeSample slot sp.count x)) src slot sp h).trans
      (within_summaryTake _ _ _).around)

theorem around_drop (s : State) (src : Source) (n : Nat) (cause : Byte) :
    Around s (s.drop src n cause) := by
  have h := (around_onIntake s src
    (fun i => { i with pendingGap := some (joinGap i.pendingGap n cause) }) rfl id).trans
      (around_countLost _ (s.rc.counters.lost.set src (s.rc.counters.lost.get src + 1)))
  unfold State.drop
  dsimp only
  split
  · exact h.trans (within_setFlag _ _).around
  · exact h

/-! ### Opens (R11 to R14) -/

theorem held_issue (s : State) (n : Word32) : Held s (s.issue n) := { Held.refl s with }

/-- An open that takes a FREE slot: one more span holds a slot and one more is issued. -/
theorem aroundIf_openFree (s : State) (n : Word32) (slot : Nat) (new : Span)
    (hf : s.st.lowestFree = some slot) (hn : new.state ≠ .queued) :
    AroundIf (s.rc.runState.slotsFree = false) s ((s.issue n).setSt
      { s.st with slots := putSlot s.st.slots slot new, occupancy := s.st.occupancy + 1 }) where
  held := { Held.refl s with }
  law hr h := by
    obtain ⟨h1, h2⟩ := h.table.open_ new hf
    have hc := h.count
    unfold CountLaw at hc
    exact
      { table := h1
        queues := h.queues.open_ h.table
          (fun old ho => by rw [(SpanTable.lowestFree_some hf).2.1] at ho; cases ho) hn
        index := h.index
        count := by
          unfold CountLaw
          simp only [State.issue, State.setSt_rc, State.setSt_st, State.setRc_rc, h2, hc]
          bv_omega
        intake := h.intake
        free := fun hs => by
          have : s.rc.runState.slotsFree = true := hs
          rw [hr] at this
          cases this
        ends := h.ends }
  mem h := h

/-- An open that takes the slot of the oldest HELD span: that one is counted recycled (R97). -/
theorem aroundIf_openHeld (s : State) (n : Word32) (slot : Nat) (new : Span) {src : Source} {old : Span}
    (ho : s.st.oldestHeld src = some (slot, old)) (hn : new.state ≠ .queued) :
    AroundIf (s.rc.runState.slotsFree = false) s
      (((s.issue n).onCounters ReleaseCause.recycled.count).setSpan slot new) where
  held := { Held.refl s with }
  law hr h := by
    have hc := h.count
    unfold CountLaw at hc
    have hs := SpanTable.oldestHeld_listed ho
    exact
      { table := h.table.put new hs s.st.queues
        queues := h.queues.open_ h.table (fun x hx => by
          have hx' := SpanTable.oldestHeld_found h.table ho
          rw [hx'.1] at hx
          cases hx
          rw [hx'.2.2]
          decide) hn
        index := h.index
        count := by
          unfold CountLaw
          simp only [State.issue, State.setSpan, State.onCounters, State.setSt_rc, State.setSt_st,
            State.setRc_rc, State.setRc_st, ReleaseCause.count, (putSlot_listed new h.table.slots hs).2,
            hc]
          bv_omega
        intake := h.intake
        free := fun hs => by
          have : s.rc.runState.slotsFree = true := hs
          rw [hr] at this
          cases this
        ends := h.ends }
  mem h := h

theorem aroundIf_openSpan (s : State) (src : Source) (n : Nat) (ret : Retention) :
    AroundIf (s.rc.runState.slotsFree = false) s (s.openSpan src n ret).1 := by
  unfold State.openSpan
  split
  · exact (Around.refl s).given _
  · split
    · exact (Around.refl s).given _
    · dsimp only
      split
      · next hf => exact (aroundIf_openFree s _ _ _ hf (by simp [openedSpan])).trans (within_occupancyChanged _ _ _).around
      · split
        · next hh =>
          exact aroundIf_openHeld s _ _ _ hh (by simp [openedSpan])
        · exact (Around.refl s).given _

theorem aroundIf_openFor (s : State) (src : Source) (n : Nat) (x : Sample) :
    AroundIf (s.rc.runState.slotsFree = false) s (s.openFor src n x).1 := by
  have h := aroundIf_openSpan s src n (s.openRetention src)
  unfold State.openFor
  split <;> rename_i hs <;> rw [hs] at h
  · exact h.trans ((around_writeSample _ _ _ _).trans
      ((within_summaryStart _ _ _ _).trans (within_handGap _ _)).around)
  · exact h.trans (around_drop _ _ _ _)
  · exact h

theorem aroundIf_place (s : State) (src : Source) (n : Nat) (x : Sample) :
    AroundIf (s.rc.runState.slotsFree = false) s (s.place src n x).1 := by
  unfold State.place
  split
  · next hf => exact (around_append s src _ _ x hf).given _
  · split
    · exact (around_drop s src n _).given _
    · split
      · exact (around_drop s src n _).given _
      · exact aroundIf_openFor s src n x

/-! ### Triggers and windows (R61 to R73) -/

theorem within_keepSpan (s : State) (slot : Nat) : Within s (s.keepSpan slot) := by
  unfold State.keepSpan
  split
  · next h =>
    split
    · exact within_enter _ _ _ (.of_span? h (by exact ⟨rfl, rfl, rfl, rfl, rfl, fun h => by cases h⟩))
    · exact .refl s
  · exact .refl s

theorem within_markSpan (s : State) (slot n k : Nat) : Within s (s.markSpan slot n k) :=
  within_onSpan _ _ _ fun _ => Same.addMark _ _

theorem within_triggerWindowed (s : State) (src : Source) (n : Nat) (taken : Option Nat) :
    Within s (s.triggerWindowed src n taken) := by
  unfold State.triggerWindowed
  cases taken with
  | none => exact (within_eachSlot _ within_keepSpan _ _).trans (within_onWindow _ _ _)
  | some slot =>
    exact (within_eachSlot _ within_keepSpan _ _).trans ((within_onSpan _ slot
      fun sp => { sp with retention := .keep }).trans ((within_markSpan _ _ _ _).trans
        (within_onWindow _ _ _)))

theorem within_triggerPlain (s : State) (n : Nat) (taken : Option Nat) :
    Within s (s.triggerPlain n taken) := by
  cases taken with
  | none => exact .refl s
  | some slot => exact within_markSpan _ _ _ _

theorem within_clearTag (s : State) (src : Source) :
    Within s ((s.onIntake src fun i => { i with tagPending := false }).onWindow src
      fun w => { w with markPending := false }) :=
  (within_onIntake s src (fun i => { i with tagPending := false }) rfl rfl id).trans
    (within_onWindow _ _ _)

theorem within_applyTrigger (s : State) (src : Source) (n : Nat) (taken : Option Nat) :
    Within s (s.applyTrigger src n taken) := by
  unfold State.applyTrigger
  split
  · dsimp only
    split
    · exact (within_clearTag s src).trans (within_triggerWindowed _ _ _ _)
    · exact (within_clearTag s src).trans (within_triggerPlain _ _ _)
  · exact .refl s

theorem within_testWindow (s : State) (src : Source) (n : Nat) (taken : Option Nat) :
    Within s (s.testWindow src n taken) := by
  unfold State.testWindow
  split
  · split
    · dsimp only
      split
      · exact (within_onWindow _ _ _).trans (within_seal _ _)
      · exact within_onWindow _ _ _
    · exact .refl s
  · exact .refl s

theorem within_testLength (s : State) (src : Source) (taken : Option Nat) :
    Within s (s.testLength src taken) := by
  unfold State.testLength
  split
  · split
    · exact within_seal _ _
    · exact .refl s
  · exact .refl s

theorem within_testNumbers (s : State) (src : Source) (n : Nat) : Within s (s.testNumbers src n) := by
  unfold State.testNumbers
  split
  · dsimp only
    split
    · exact (within_seal s src).trans ((within_closeIntake _ _).trans (within_handGap _ _))
    · exact within_seal s src
  · exact .refl s

/-! ### Samples and packets (R50) -/

theorem around_takeSample (src : Source) (s : State) (x : Sample) :
    Around s (State.takeSample src s x) := by
  unfold State.takeSample
  split
  · next ht =>
    dsimp only
    have h1 := around_onIntake s src
      (fun i => { i with newest := some (s.intake src).nextNumber }) rfl id
    have h2 := aroundIf_place (s.onIntake src fun i => { i with newest := some (s.intake src).nextNumber })
      src (s.intake src).nextNumber x
    generalize State.place _ _ _ _ = p at h2
    have h3 := ((within_applyTrigger p.1 src (s.intake src).nextNumber p.2).trans
      ((within_testWindow _ src (s.intake src).nextNumber p.2).trans
        ((within_testLength _ src p.2).trans (within_testNumbers _ src (s.intake src).nextNumber)))).around
    refine ⟨h1.held.trans (h2.held.trans h3.held), fun h => h3.law (h2.law ?_ (h1.law h)),
      fun h => h3.mem (h2.mem (h1.mem h))⟩
    have := (h.intake src ht).1
    show s.rc.runState.slotsFree = false
    rw [this]
    rfl
  · exact .refl s

theorem around_takeSamples (src : Source) (xs : List Sample) (s : State) :
    Around s (xs.foldl (State.takeSample src) s) := by
  induction xs generalizing s with
  | nil => exact .refl s
  | cons x rest ih => exact (around_takeSample src s x).trans (ih _)

theorem within_age (s : State) (src : Source) : Within s (s.age src) := by
  unfold State.age
  split
  · split
    · exact within_recycleAll _ _
    · exact .refl s
  · exact .refl s

/-- A packet holds to `Around`. -/
theorem around_takePacket (s : State) (src : Source) (xs : List Sample) :
    Around s (s.takePacket src xs) :=
  (around_takeSamples src xs s).trans (within_age _ _).around

end Sys2Proof.Machine
end

