-- ==== Sys2Proof/Laws/Link.lean ====
section
/-! SUPPORT. Laws/Link.lean: the Control Link Port: bytes and frames, the reset, and the taking of a command. -/

namespace Sys2Proof.Machine

/-! ### The port -/

/-- A change of the port alone keeps every law and every part of the state outside the port. -/
theorem sound_setClp (s : State) (c : LinkPort) (h : LinkOk s.clp → LinkOk c) : Sound s (s.setClp c) :=
  ⟨fun h => { h with }, rfl, h, rfl⟩

theorem sound_linkError (s : State) : Sound s s.linkError :=
  (sound_setClp s { s.clp with linkErrors := min 65535 (s.clp.linkErrors + 1) }
    fun h => { h with errors := Nat.min_le_left _ _ }).trans (within_setFlag _ _).sound

theorem sound_frameIn (s : State) (p : List Byte) : Sound s (s.frameIn p) := by
  unfold State.frameIn
  dsimp only
  split
  · next hc =>
    refine sound_setClp s _ fun h => { h with rx := ?_ }
    simp only [List.length_append, List.length_singleton]
    exact hc.2.2
  · exact sound_linkError s

theorem sound_setRxPart (s : State) (p : List Byte) (h : p.length < 8 + Config.maxPayload) :
    Sound s (s.setRxPart p) := sound_setClp s _ fun hl => { hl with part := h }

theorem sound_assemble (s : State) (p : List Byte) : Sound s (s.assemble p) := by
  unfold State.assemble
  split
  · exact sound_setRxPart s p (by simp only [Config.maxPayload]; omega)
  · split
    · exact (sound_setRxPart s [] (by simp [Config.maxPayload])).trans (sound_linkError _)
    · split
      · exact sound_setRxPart s p (by omega)
      · exact (sound_setRxPart s [] (by simp [Config.maxPayload])).trans (sound_frameIn _ _)

theorem sound_byteIn (s : State) (b : Byte) : Sound s (s.byteIn b) := by
  unfold State.byteIn
  split
  · exact .refl s
  · exact sound_assemble _ _

/-- Bytes clocked out change nothing but the record of them. -/
theorem sound_clockOut (s : State) (bytes : List Byte) : Sound s (s.clockOut bytes) :=
  ⟨fun h => { h with }, rfl, id, rfl⟩

theorem sound_byteOut (s : State) : Sound s s.byteOut := by
  unfold State.byteOut
  split
  · exact sound_clockOut _ _
  · next f rest h =>
    split
    · next hp =>
      exact (sound_clockOut s _).trans (sound_setClp _ { s.clp with outPos := s.clp.outPos + 1 }
        fun hl => { hl with pos := by unfold LinkPort.posOk; rw [h]; exact hp })
    · exact .refl s

theorem sound_bytesIn (s : State) (bytes : List Byte) : Sound s (s.bytesIn bytes) := by
  unfold State.bytesIn
  induction bytes generalizing s with
  | nil => exact .refl s
  | cons b rest ih => exact ((sound_byteOut s).trans (sound_byteIn _ b)).trans (ih _)

/-- The position in an outgoing frame may always go back to its start. -/
theorem LinkPort.posOk_zero (c : LinkPort) : LinkPort.posOk { c with outPos := 0 } := by
  unfold LinkPort.posOk
  cases c.out with
  | nil => rfl
  | cons f rest => exact OutFrame.bytes_pos f

theorem sound_rewind (s : State) : Sound s (s.setOutPos 0) :=
  sound_setClp s _ fun h => { h with pos := s.clp.posOk_zero }

theorem sound_cutOff (s : State) : Sound s s.cutOff := by
  unfold State.cutOff
  split
  · exact .refl s
  · exact (sound_setRxPart s [] (by simp [Config.maxPayload])).trans (sound_linkError _)

/-! ### The reset and the sender -/

theorem runLaw_reset : RunLaw State.reset where
  table := .empty
  queues := .empty
  index :=
    { entries := fun b => by cases b <;> decide
      filling := fun b h => by cases b <;> cases h
      empty := fun b _ => by cases b <;> rfl
      oneFilling := fun b _ h => by cases b <;> cases h
      writing := fun b => Iff.intro (fun h => by cases b <;> cases h) fun ⟨_, h, _⟩ => by cases h }
  count := rfl
  intake src h := by cases src <;> cases h
  free _ := rfl
  ends := ⟨Nat.zero_le _, fun h => by cases h⟩

theorem linkOk_reset : LinkOk State.reset.clp :=
  ⟨by decide, by decide, by decide, by decide, OutFrame.bytes_pos _⟩

/-- The reset leaves the laws of a run and the bounds of the port, and keeps memory. -/
theorem sound_partReset (s : State) : Sound s s.partReset :=
  ⟨fun _ => { runLaw_reset with }, rfl, fun _ => linkOk_reset, rfl⟩

theorem within_drainOwedClass (s : State) (c : Fin 4) : Within s (s.drainOwedClass c) := by
  unfold State.drainOwedClass
  split
  · split
    · exact within_setOwed _ _ _
    · split
      · next h => exact (within_setOwed s c false).trans (within_queueNotice (s.setOwed c false) c h)
      · exact .refl s
  · exact .refl s

theorem within_drainOwed (s : State) : Within s s.drainOwed :=
  (within_drainOwedClass s 0).trans ((within_drainOwedClass _ 1).trans
    ((within_drainOwedClass _ 2).trans (within_drainOwedClass _ 3)))

theorem sound_frameOut (s : State) : Sound s s.frameOut := by
  unfold State.frameOut
  split
  · exact .refl s
  · next f rest h =>
    dsimp only
    split
    · exact (sound_clockOut s _).trans (sound_partReset _)
    · refine (sound_clockOut s (f.bytes.drop s.clp.outPos)).trans ((sound_setClp
        (s.clockOut (f.bytes.drop s.clp.outPos)) { s.clp with out := rest, outPos := 0 } fun hl =>
        { hl with out := ?_, pos := LinkPort.posOk_zero { s.clp with out := rest } }).trans
          (within_drainOwed _).sound)
      replace hl : LinkOk s.clp := hl
      have := hl.out
      rw [h, List.length_cons] at this
      show rest.length ≤ 16
      omega

/-! ### The taking of a command (R172) -/

/-- A frame is taken out of the receive buffer and a reply joins the outgoing queue. -/
theorem sound_reply (s : State) (f : OutFrame) (h : s.takesCommand = true) :
    Sound s (s.popFrame.queueOut f) := by
  refine sound_setClp s { s.clp with rx := s.clp.rx.tail, out := s.clp.out ++ [f] } fun hl =>
    { hl with rx := ?_, out := ?_, pos := ?_ }
  · have := hl.rx
    simp only [List.length_tail]
    omega
  · simp only [State.takesCommand, Bool.and_eq_true] at h
    have h1 := of_decide_eq_true h.1.1
    simp only [Config.replyRoom] at h1
    simp only [List.length_append, List.length_singleton]
    omega
  · have hp := hl.pos
    unfold LinkPort.posOk at hp ⊢
    cases hs : s.clp.out with
    | nil => rw [hs] at hp; simpa only [List.nil_append, hp] using OutFrame.bytes_pos f
    | cons g rest => rw [hs] at hp; exact hp

/-- A command taken keeps what every command keeps, if its effect does where its checks pass. -/
theorem sound_take (c : Command)
    (h : ∀ p s f, c.check p s = .ok →
      Sound (s.popFrame.queueOut f) (c.effect p (s.popFrame.queueOut f)))
    (s : State) : Sound s (c.take s) := by
  unfold Command.take
  split
  · exact .refl s
  · split
    · next hc =>
      unfold Command.answer
      split
      · exact sound_reply _ _ hc.1
      · split
        · next hk => exact (sound_reply _ _ hc.1).trans (h _ _ _ hk)
        all_goals exact sound_reply _ _ hc.1
    · exact .refl s

/-- A command of the table that is not the one the port is to take changes nothing (log 1). -/
theorem take_idle (c : Command) (s : State)
    (h : ∀ f rest, s.clp.rx = f :: rest → s.takesCommand = true → f.code ≠ c.code) : c.take s = s := by
  unfold Command.take
  split
  · rfl
  · next f rest hf =>
    split
    · next hc => exact absurd hc.2 (h f rest hf hc.1)
    · rfl

/-- A command whose length and checks pass: the reply is queued, then its effect happens (R172). -/
theorem take_ok {c : Command} {s : State} {f : CmdFrame} {rest : List CmdFrame}
    (hrx : s.clp.rx = f :: rest) (ht : s.takesCommand = true) (hc : f.code = c.code)
    (hl : f.payload.length = c.len) (hk : c.check f.payload s = .ok) :
    c.take s = c.effect f.payload (s.setClp
      { s.clp with rx := rest, out := s.clp.out ++ [replyTo f .ok (c.payload f.payload s)] }) := by
  simp only [Command.take, hrx, ht, hc, and_self, if_true, Command.answer, hl, hk, not_true_eq_false,
    if_false, ne_eq]
  simp only [State.queueOut, State.popFrame, State.setClp, hrx, List.tail_cons]

/-- A command whose length or checks fail: a reply with the status, without payload, and nothing else
(R172). -/
theorem take_refused {c : Command} {s : State} {f : CmdFrame} {rest : List CmdFrame} {st : Status}
    (hrx : s.clp.rx = f :: rest) (ht : s.takesCommand = true) (hc : f.code = c.code)
    (hl : f.payload.length = c.len) (hk : c.check f.payload s = st) (hst : st ≠ .ok) :
    c.take s = s.setClp { s.clp with rx := rest, out := s.clp.out ++ [replyTo f st []] } := by
  subst hk
  simp only [Command.take, hrx, ht, hc, and_self, if_true, Command.answer, hl, not_true_eq_false,
    if_false, ne_eq]
  split
  · next h => exact absurd h hst
  all_goals
    next h =>
      simp only [State.queueOut, State.popFrame, State.setClp, hrx, List.tail_cons, h]

theorem take_badLength {c : Command} {s : State} {f : CmdFrame} {rest : List CmdFrame}
    (hrx : s.clp.rx = f :: rest) (ht : s.takesCommand = true) (hc : f.code = c.code)
    (hl : f.payload.length ≠ c.len) :
    c.take s = s.setClp { s.clp with rx := rest, out := s.clp.out ++ [replyTo f .badLength []] } := by
  simp only [Command.take, hrx, ht, hc, and_self, if_true, Command.answer, hl, not_false_eq_true, ne_eq]
  simp only [State.queueOut, State.popFrame, State.setClp, hrx, List.tail_cons]

/-- The words of the statements: a port that is to take a frame takes commands. -/
theorem Receives.takes {s : State} {code : Byte} {f : CmdFrame} {rest : List CmdFrame}
    (h : Receives s code f rest) : s.takesCommand = true := by
  have h1 := h.owed 0
  have h2 := h.owed 1
  have h3 := h.owed 2
  have h4 := h.owed 3
  simp only [Four.get] at h1 h2 h3 h4
  have h5 : (s.clp.out.any OutFrame.resets) = false := by
    rw [List.any_eq_false]
    intro g hg
    rw [h.reset g hg]
    exact Bool.false_ne_true
  simp only [State.takesCommand, NoticeUnit.anyOwed, h1, h2, h3, h4, h5, Config.replyRoom, h.room,
    decide_true, Bool.or_false, Bool.not_false, Bool.and_self]

/-- A command received whose length and checks pass (R172). -/
theorem Receives.ok {c : Command} {s : State} {f : CmdFrame} {rest : List CmdFrame}
    (h : Receives s c.code f rest) (hl : f.payload.length = c.len) (hk : c.check f.payload s = .ok) :
    c.take s = c.effect f.payload (s.answered f rest .ok (c.payload f.payload s)) :=
  take_ok h.oldest h.takes h.code hl hk

/-- A command received whose checks fail (R172). -/
theorem Receives.refused {c : Command} {s : State} {f : CmdFrame} {rest : List CmdFrame} {st : Status}
    (h : Receives s c.code f rest) (hl : f.payload.length = c.len) (hk : c.check f.payload s = st)
    (hst : st ≠ .ok) : c.take s = s.answered f rest st [] :=
  take_refused h.oldest h.takes h.code hl hk hst

/-- A command received with a payload of the wrong length (R172). -/
theorem Receives.badLength {c : Command} {s : State} {f : CmdFrame} {rest : List CmdFrame}
    (h : Receives s c.code f rest) (hl : f.payload.length ≠ c.len) :
    c.take s = s.answered f rest .badLength [] :=
  take_badLength h.oldest h.takes h.code hl

theorem sound_takeBadCode (s : State) : Sound s s.takeBadCode := by
  unfold State.takeBadCode
  split
  · exact .refl s
  · split
    · next h => exact sound_reply _ _ h.1
    · exact .refl s

end Sys2Proof.Machine
end

