-- ==== Sys2Proof/Laws/Lanes.lean ====
section
/-! SUPPORT. Laws/Lanes.lean: the lanes' own operations hold to `Within`. -/

namespace Sys2Proof.Machine

theorem within_moveCursors (s : State) (lane : Lane) (f : LaneUnit → LaneUnit)
    (h : LaneKept (s.al.get lane) (f (s.al.get lane)).evaluated) : Within s (s.moveCursors lane f) := by
  unfold State.moveCursors
  dsimp only
  split
  · exact (within_onLane s lane (fun a => (f a).evaluated) h).trans (within_setFlag _ _)
  · exact within_onLane s lane (fun a => (f a).evaluated) h

theorem within_placeClaim (s : State) (lane : Lane) : Within s (s.placeClaim lane) := by
  unfold State.placeClaim
  split
  · exact .refl s
  · exact within_setClaim _ _ _

theorem within_roleEnded (s : State) (lane : Lane) : Within s (s.roleEnded lane) := by
  unfold State.roleEnded
  split
  · exact within_placeClaim _ _
  · exact .refl s

theorem within_rolesEnded (s : State) : Within s s.rolesEnded :=
  within_forLanes _ _ fun lane s => within_roleEnded s lane

theorem within_setLaneState (s : State) (lane : Lane) (st : LaneState) :
    Within s (s.setLaneState lane st) :=
  within_onLane _ _ _ ⟨rfl, rfl, rfl, rfl, rfl, le_refl _, le_refl _, le_refl _⟩

theorem within_leaveTo (s : State) (lane : Lane) (st : LaneState) : Within s (s.leaveTo lane st) :=
  (within_setClaim _ _ _).trans (within_setLaneState _ _ _)

theorem within_setWakePending (s : State) (lane : Lane) (v : Bool) :
    Within s (s.onLane lane fun a => { a with wakePending := v }) :=
  within_onLane _ _ _ ⟨rfl, rfl, rfl, rfl, rfl, le_refl _, le_refl _, le_refl _⟩

theorem within_setAction (s : State) (lane : Lane) (v : PendingAction) :
    Within s (s.onLane lane fun a => { a with action := v }) :=
  within_onLane _ _ _ ⟨rfl, rfl, rfl, rfl, rfl, le_refl _, le_refl _, le_refl _⟩

theorem within_stopTimer (s : State) (lane : Lane) :
    Within s (s.onLane lane fun a => { a with timer := none }) :=
  within_onLane _ _ _ ⟨rfl, rfl, rfl, rfl, rfl, le_refl _, le_refl _, le_refl _⟩

theorem within_setFailures (s : State) (lane : Lane) (f : LaneUnit → Nat) :
    Within s (s.onLane lane fun a => { a with failures := f a }) :=
  within_onLane _ _ _ ⟨rfl, rfl, rfl, rfl, rfl, le_refl _, le_refl _, le_refl _⟩

theorem within_enterParking (s : State) (lane : Lane) : Within s (s.enterParking lane) := by
  unfold State.enterParking
  dsimp only
  split
  · exact (within_leaveTo _ _ _).trans ((within_setWakePending _ _ _).trans (within_sendAwaiting _ _ _ _))
  · exact (within_leaveTo _ _ _).trans (within_sendAwaiting _ _ _ _)

theorem within_enterWaking (s : State) (lane : Lane) : Within s (s.enterWaking lane) :=
  (within_leaveTo _ _ _).trans ((within_setWakePending _ _ _).trans (within_sendAwaiting _ _ _ _))

theorem within_enterBringup (s : State) (lane : Lane) : Within s (s.enterBringup lane) :=
  (within_leaveTo _ _ _).trans ((within_sendAwaiting _ _ _ _).trans (within_blockMissed _ _))

theorem within_enterDown (s : State) (lane : Lane) : Within s (s.enterDown lane) :=
  (within_leaveTo _ _ _).trans ((within_setFlag _ _).trans (within_blockMissed _ _))

theorem within_enterPaused (s : State) (lane : Lane) : Within s (s.enterPaused lane) :=
  (within_leaveTo _ _ _).trans (within_blockMissed _ _)

theorem within_enterFaulted (s : State) (lane : Lane) (c : FaultCause) :
    Within s (s.enterFaulted lane c) :=
  (within_leaveTo _ _ _).trans ((within_onLane _ _
    (fun a => { a with fault := c, action := .none, wakePending := false, timer := none })
    ⟨rfl, rfl, rfl, rfl, rfl, le_refl _, le_refl _, le_refl _⟩).trans
      ((within_setFlag _ _).trans (within_blockMissed _ _)))

theorem within_nextLaneState (s : State) (lane : Lane) : Within s (s.nextLaneState lane) := by
  unfold State.nextLaneState
  dsimp only
  split
  · exact (within_setAction _ _ _).trans (within_enterPaused _ _)
  · exact (within_setAction _ _ _).trans (within_enterParking _ _)
  · exact (within_setAction _ _ _).trans ((within_setLaneState _ _ _).trans (within_placeClaim _ _))

theorem within_setJob (s : State) (lane : Lane) (j : Option Job) : Within s (s.setJob lane j) :=
  within_onLane _ _ _ ⟨rfl, rfl, rfl, rfl, rfl, le_refl _, le_refl _, le_refl _⟩

theorem within_sendBurst (s : State) (lane : Lane) (j : SpanJob) : Within s (s.sendBurst lane j) := by
  unfold State.sendBurst
  exact within_sendAwaiting _ _ _ _

theorem within_startSpanJob (s : State) (lane : Lane) (slot : Nat) (runId : Word16) (seq : Word32) :
    Within s (s.startSpanJob lane slot runId seq) :=
  (within_moveCursors s lane _
    ⟨rfl, rfl, rfl, rfl, rfl, Nat.le_add_right _ _, le_refl _, le_refl _⟩).trans
    ((within_setClaim _ _ _).trans (within_sendBurst _ _ _))

theorem within_dropJob (s : State) (lane : Lane) (dead : Nat) : Within s (s.dropJob lane dead) :=
  within_onLane _ _ _ ⟨rfl, rfl, rfl, rfl, rfl, le_refl _, le_refl _, Nat.le_add_right _ _⟩

theorem within_sendIndex (s : State) (lane : Lane) (j : IndexJob) : Within s (s.sendIndex lane j) := by
  unfold State.sendIndex
  exact within_sendAwaiting _ _ _ _

theorem within_takeIndexJob (s : State) (lane : Lane) (w : Writing) :
    Within s (s.takeIndexJob lane w) := by
  unfold State.takeIndexJob
  dsimp only
  split
  · exact (within_leaveTo _ _ _).trans ((within_blockMissed _ _).trans (within_nextLaneState _ _))
  · exact (within_leaveTo _ _ _).trans ((within_setJob _ _ _).trans (within_sendIndex _ _ _))

end Sys2Proof.Machine
end

