-- ==== Sys2Proof/Laws/Drain.lean ====
section
/-! SUPPORT. Laws/Drain.lean: the Drain Scheduler's operations hold to `Within`. -/

namespace Sys2Proof.Machine

theorem within_failOrRequeue (s : State) (slot : Nat) : Within s (s.failOrRequeue slot) := by
  unfold State.failOrRequeue
  split
  · split
    · exact (within_shedSpan _ _ _).trans (within_setFlag _ _)
    · exact within_requeue _ _
  · exact .refl s

theorem within_applySingle (s : State) (slot : Nat) (lane : Lane) (o : Outcome) (address : Nat) :
    Within s (s.applySingle slot lane o address) := by
  unfold State.applySingle
  cases o with
  | done =>
    dsimp only
    have h := (within_onSpan s slot fun sp => sp.addCopy { lane := lane, address := address }).trans
      (within_commit _ slot)
    split
    · split
      · exact h.trans (within_setFlag _ _)
      · exact h
    · exact h
  | cancelled => exact within_requeue _ _
  | retryExhausted => exact (within_onSpan _ _ _).trans (within_failOrRequeue _ _)
  | moduleFault => exact (within_onSpan _ _ _).trans (within_failOrRequeue _ _)
  | timeout => exact (within_onSpan _ _ _).trans (within_failOrRequeue _ _)
  | none => exact .refl s

theorem within_closePartial (s : State) (c : PairContext) (failed : Bool) :
    Within s (s.closePartial c failed) := by
  have h0 : Within s (if failed then s.onSpan c.slot Span.countAttempt else s) := by
    split
    · exact within_onSpan _ _ _
    · exact .refl s
  unfold State.closePartial
  dsimp only
  generalize (if failed then s.onSpan c.slot Span.countAttempt else s) = s1 at h0 ⊢
  split
  · exact h0
  · next sp hsp =>
    split
    · split
      · exact h0.trans (within_commit _ _)
      · exact h0.trans ((within_commit _ _).trans (within_setFlag _ _))
    · split
      · exact h0.trans ((within_setSpan _ _ _ (.of_span? hsp (by exact .of_state rfl rfl rfl rfl rfl rfl))).trans (within_failOrRequeue _ _))
      · exact h0.trans ((within_setSpan _ _ _ (.of_span? hsp (by exact .of_state rfl rfl rfl rfl rfl rfl))).trans (within_requeue _ _))

theorem within_closeBare (s : State) (c : PairContext) (failed : Bool) :
    Within s (s.closeBare c failed) := by
  unfold State.closeBare
  split
  · exact (within_onSpan _ _ _).trans (within_failOrRequeue _ _)
  · exact within_requeue _ _

theorem within_closeSpan (s : State) (c : PairContext) : Within s (s.closeSpan c) := by
  unfold State.closeSpan
  dsimp only
  split
  · exact within_commit _ _
  · split
    · exact within_closePartial _ _ _
    · exact within_closeBare _ _ _

theorem within_closePair (s : State) (c : PairContext) : Within s (s.closePair c) :=
  (within_setPair _ _).trans ((within_closeSpan _ _).trans (within_rolesEnded _))

theorem within_pairOutcome (s : State) (c : PairContext) (lane : Lane) (o : Outcome) (address : Nat) :
    Within s (s.pairOutcome c lane o address) := by
  have h0 : Within s (if o = .done then
        s.onSpan c.slot fun sp => sp.addCopy { lane := lane, address := address }
      else s) := by
    split
    · exact within_onSpan _ _ _
    · exact .refl s
  unfold State.pairOutcome
  split
  · dsimp only
    split
    · exact h0.trans (within_setPair _ _)
    · exact h0.trans ((within_setPair _ _).trans (within_closePair _ _))
  · exact .refl s

theorem within_dissolve (s : State) (c : PairContext) : Within s (s.dissolve c) :=
  (within_setPair _ _).trans (within_requeue _ _)

/-- A request that is applied names the span of its slot. -/
theorem span?_of_requested {s : State} {slot : Nat} {r : Word16} {q : Word32} {st : SpanState}
    {sp : Span} (h : s.requested slot r q st = some sp) : s.span? slot = some sp := by
  unfold State.requested at h
  split at h
  · next x hx =>
    split at h
    · cases h; exact hx
    · cases h
  · cases h

theorem within_reportWrite (s : State) (lane : Lane) (j : SpanJob) (o : Outcome) (address : Nat) :
    Within s (s.reportWrite lane j o address) := by
  unfold State.reportWrite
  split
  · exact .refl s
  · next sp hsp =>
    have h := within_setSpan s j.slot (sp.noteOutcome o)
      (.of_span? (span?_of_requested hsp) (.of_state rfl rfl rfl rfl rfl rfl))
    dsimp only
    split
    · split
      · exact h.trans (within_pairOutcome _ _ _ _ _)
      · exact h.trans (within_applySingle _ _ _ _ _)
    · exact h.trans (within_applySingle _ _ _ _ _)

theorem within_reportOutcome (s : State) (lane : Lane) (j : SpanJob) (o : Outcome) (address : Nat) :
    Within s (s.reportOutcome lane j o address) := by
  unfold State.reportOutcome
  split
  · split
    · exact (within_onSpan s _ fun sp => sp.noteOutcome o).trans
        ((within_dissolve _ _).trans (within_rolesEnded _))
    · exact within_reportWrite _ _ _ _ _
  · exact within_reportWrite _ _ _ _ _

theorem within_join (s : State) (c : PairContext) : Within s (s.join c) :=
  (within_setPair _ _).trans ((within_startSpanJob _ _ _ _ _).trans (within_startSpanJob _ _ _ _ _))

theorem within_endUnstarted (s : State) (c : PairContext) : Within s (s.endUnstarted c) :=
  (within_dissolve _ _).trans ((within_setJob _ _ _).trans (within_nextLaneState _ _))

theorem within_startSingly (s : State) (c : PairContext) : Within s (s.startSingly c) :=
  (within_setPair _ _).trans (within_startSpanJob _ _ _ _ _)

/-- A conversion with no action pending on the leader starts the single write (R122). -/
theorem convert_none {s : State} {c : PairContext} (h : (s.lane c.leader).action = .none) :
    s.convert c = s.startSingly c := if_pos h

/-- A conversion with an action pending on the leader ends the leader's job or starts the single write: the free value
decides (R115, R122). -/
theorem convert_pending {s : State} {c : PairContext} (h : (s.lane c.leader).action ≠ .none) :
    s.convert c = if Config.conversionEndsJob s.choices then (s.setChoices (s.choices + 1)).endUnstarted c
      else (s.setChoices (s.choices + 1)).startSingly c := if_neg h

theorem within_convert (s : State) (c : PairContext) : Within s (s.convert c) := by
  unfold State.convert
  split
  · exact within_startSingly _ _
  · dsimp only
    split
    · exact (within_setChoices _ _).trans (within_endUnstarted _ _)
    · exact (within_setChoices _ _).trans (within_startSingly _ _)

theorem within_followerLost (s : State) (c : PairContext) : Within s (s.followerLost c) := by
  unfold State.followerLost
  split
  · exact (within_endUnstarted _ _).trans (within_roleEnded _ _)
  · exact (within_convert _ _).trans (within_roleEnded _ _)

theorem within_checkFollower (s : State) (lane : Lane) : Within s (s.checkFollower lane) := by
  unfold State.checkFollower
  split
  · split
    · exact within_followerLost _ _
    · exact .refl s
  · exact .refl s

theorem within_enterReady (s : State) (lane : Lane) : Within s (s.enterReady lane) := by
  have h := within_setLaneState s lane .ready
  unfold State.enterReady
  dsimp only
  split
  · split
    · split
      · exact h.trans (within_followerLost _ _)
      · exact h.trans (within_join _ _)
    · exact h
  · exact h.trans (within_placeClaim _ _)

theorem within_afterJob (s : State) (lane : Lane) : Within s (s.afterJob lane) := by
  have h := within_setAction s lane .none
  unfold State.afterJob
  dsimp only
  split
  · exact h.trans ((within_enterPaused _ _).trans (within_checkFollower _ _))
  · exact h.trans (within_enterParking _ _)
  · exact h.trans (within_enterReady _ _)

theorem within_faultLane (s : State) (lane : Lane) (c : FaultCause) : Within s (s.faultLane lane c) :=
  (within_enterFaulted _ _ _).trans (within_checkFollower _ _)

theorem within_jobDone (s : State) (lane : Lane) (j : SpanJob) : Within s (s.jobDone lane j) :=
  (within_dropJob _ _ _).trans ((within_setFailures _ _ _).trans
    ((within_reportOutcome _ _ _ _ _).trans (within_afterJob _ _)))

theorem within_jobFailed (s : State) (lane : Lane) (j : SpanJob) (o : Outcome) :
    Within s (s.jobFailed lane j o) := by
  have h := (within_dropJob s lane j.reserved).trans ((within_setFailures _ lane
    fun a => a.failures + 1).trans (within_reportOutcome _ lane j o 0))
  unfold State.jobFailed
  dsimp only
  split
  · exact h.trans (within_faultLane _ _ _)
  · split
    · exact h.trans (within_faultLane _ _ _)
    · exact h.trans (within_afterJob _ _)

theorem within_sendCancel (s : State) (lane : Lane) : Within s (s.sendCancel lane) := by
  unfold State.sendCancel
  split
  · exact within_send _ _ _
  · exact .refl s

theorem within_cancelJob (s : State) (lane : Lane) : Within s (s.cancelJob lane) := by
  unfold State.cancelJob
  split
  · exact (within_sendCancel _ _).trans ((within_dropJob _ _ _).trans (within_reportOutcome _ _ _ _ _))
  · exact (within_sendCancel _ _).trans ((within_dropJob _ _ _).trans (within_blockMissed _ _))
  · exact .refl s

theorem within_abortJob (s : State) (lane : Lane) : Within s (s.abortJob lane) := by
  unfold State.abortJob
  split
  · exact (within_sendCancel _ _).trans (within_dropJob _ _ _)
  · exact (within_sendCancel _ _).trans (within_dropJob _ _ _)
  · exact .refl s

theorem within_pairRequest (s : State) (c : PairContext) : Within s (s.pairRequest c) := by
  have h := within_setClaim s c.follower none
  unfold State.pairRequest
  dsimp only
  split
  · exact h.trans (within_join _ _)
  · split
    · exact h.trans ((within_cancelJob _ _).trans (within_afterJob _ _))
    · exact h
  · exact h.trans (within_setWakePending _ _ _)
  · exact h.trans (within_enterWaking _ _)
  all_goals exact h

theorem within_formPair (s : State) (lane : Lane) (slot : Nat) (sp : Span)
    (h : s.span? slot = some sp) : Within s (s.formPair lane slot sp) :=
  (within_enter _ _ _ (.of_span? h (by exact ⟨rfl, rfl, rfl, rfl, rfl, fun h => by cases h⟩))).trans ((within_setPair _ _).trans ((within_leaveTo _ _ _).trans
    ((within_setJob _ _ _).trans (within_pairRequest _ _))))

/-! ### Answering claims (R102 to R110) -/

theorem within_commitHeads (lane : Lane) (src : Source) (fuel : Nat) (s : State) :
    Within s (State.commitHeads lane src fuel s) := by
  induction fuel generalizing s with
  | zero => exact .refl s
  | succ fuel ih =>
    unfold State.commitHeads
    split
    · split
      · exact (within_commit _ _).trans ((within_setFlag _ _).trans (ih _))
      · exact .refl s
    · exact .refl s

theorem within_commitRepairs (s : State) (lane : Lane) : Within s (s.commitRepairs lane) :=
  within_forSources _ _ fun _ _ => within_commitHeads _ _ _ _

/-- A queue head is the span of its slot. -/
theorem span?_of_head {s : State} {src : Source} {p : Nat × Span} (h : s.st.head src = some p) :
    s.span? p.1 = some p.2 := by
  unfold SpanTable.head at h
  split at h
  · cases h
  · next slot rest hq =>
    cases hf : findSlot s.st.slots slot with
    | none => rw [hf] at h; cases h
    | some sp => rw [hf] at h; cases h; exact hf

theorem span?_of_bid {s : State} {lane : Lane} {src : Source} {w : Bid} (h : s.bid lane src = some w) :
    s.span? w.slot = some w.span := by
  unfold State.bid at h
  split at h
  · next slot sp hh =>
    cases he : s.eligible lane sp with
    | none => rw [he] at h; cases h
    | some t => rw [he] at h; cases h; exact span?_of_head hh
  · cases h

theorem betterBid_cases {x y : Option Bid} {w : Bid} (h : betterBid x y = some w) :
    x = some w ∨ y = some w := by
  unfold betterBid at h
  split at h
  · split at h
    · exact .inr h
    · exact .inl h
  · exact .inl h
  · exact .inr h

/-- The winner is the bid of one of the sources. -/
theorem winner_bid {s : State} {lane : Lane} {w : Bid} (h : s.winner lane = some w) :
    ∃ src, s.bid lane src = some w := by
  unfold State.winner at h
  rcases betterBid_cases h with h | h
  · rcases betterBid_cases h with h | h
    · rcases betterBid_cases h with h | h
      · exact ⟨_, h⟩
      · exact ⟨_, h⟩
    · exact ⟨_, h⟩
  · exact ⟨_, h⟩

theorem span?_of_winner {s : State} {lane : Lane} {w : Bid} (h : s.winner lane = some w) :
    s.span? w.slot = some w.span := by
  obtain ⟨src, hs⟩ := winner_bid h
  exact span?_of_bid hs

theorem within_assign (s : State) (lane : Lane) (w : Bid)
    (h : s.span? w.slot = some w.span) : Within s (s.assign lane w) := by
  unfold State.assign
  split
  · exact within_enterWaking _ _
  · split
    · exact (within_enter _ _ _ (.of_span? h (by exact ⟨rfl, rfl, rfl, rfl, rfl, fun h => by cases h⟩))).trans (within_startSpanJob _ _ _ _ _)
    · exact within_formPair _ _ _ _ h

theorem within_answerIndex (s : State) (lane : Lane) (w : Writing) :
    Within s (s.answerIndex lane w) := by
  unfold State.answerIndex
  split
  · exact within_enterWaking _ _
  · exact within_takeIndexJob _ _ _

theorem within_answerSpan {s t : State} {lane : Lane} (h : s.answerSpan lane = some t) : Within s t := by
  have h0 : Within s (if s.hasRepairCommit lane then s.commitRepairs lane else s) := by
    split
    · exact within_commitRepairs _ _
    · exact .refl s
  unfold State.answerSpan at h
  dsimp only at h
  generalize (if s.hasRepairCommit lane then s.commitRepairs lane else s) = s1 at h0 h
  split at h
  · split at h
    · cases h; exact h0.trans (within_answerIndex _ _ _)
    · split at h
      · next b hb => cases h; exact h0.trans (within_assign _ _ _ (span?_of_winner hb))
      · split at h
        · cases h; exact h0
        · cases h
  · split at h
    · next b hb => cases h; exact h0.trans (within_assign _ _ _ (span?_of_winner hb))
    · split at h
      · cases h; exact h0
      · cases h

theorem within_answer {s t : State} {lane : Lane} (h : s.answer lane = some t) : Within s t := by
  unfold State.answer at h
  split at h
  · cases h
  · split at h
    · split at h
      · cases h; exact within_answerIndex _ _ _
      · split at h
        · cases h
        · split at h
          · cases h
          · exact within_answerSpan h
    · split at h
      · cases h
      · split at h
        · cases h
        · exact within_answerSpan h

theorem within_answerOne {s t : State} (h : s.answerOne = some t) : Within s t := by
  unfold State.answerOne at h
  split at h
  · cases h
  · next x hx _ => cases h; exact within_answer hx
  · next x _ hx => cases h; exact within_answer hx
  · next x y hx hy =>
    cases h
    split
    · exact (within_answer hx).trans (within_setChoices _ _)
    · exact (within_answer hy).trans (within_setChoices _ _)

theorem within_evaluateFor (fuel : Nat) (s : State) : Within s (State.evaluateFor fuel s) := by
  induction fuel generalizing s with
  | zero => exact .refl s
  | succ fuel ih =>
    unfold State.evaluateFor
    split
    · next t h => exact (within_answerOne h).trans (ih t)
    · exact .refl s

/-- The evaluation of the standing claims holds to `Within`, whatever order they are taken in. -/
theorem within_evaluate (s : State) : Within s s.evaluate := within_evaluateFor _ _

end Sys2Proof.Machine
end

