-- ==== Sys2Proof/Laws/Modules.lean ====
section
/-! SUPPORT. Laws/Modules.lean: what a module's frame and a lane's timer bring about. -/

namespace Sys2Proof.Machine

/-! ### Frames and timers that keep the lanes' settings -/

theorem within_ackSpan (s : State) (lane : Lane) (j : SpanJob) : Within s (s.ackSpan lane j) := by
  unfold State.ackSpan
  split
  · exact within_jobDone _ _ _
  · exact (within_setJob _ _ _).trans (within_sendBurst _ _ _)

theorem within_ackIndex (s : State) (lane : Lane) (j : IndexJob) : Within s (s.ackIndex lane j) :=
  (within_dropJob s lane 0).trans ((within_moveCursors _ lane
    (fun a => { a with indexCursor := a.indexCursor - 1 })
    ⟨rfl, rfl, rfl, rfl, rfl, le_refl _, by simp [LaneUnit.evaluated], le_refl _⟩).trans
      ((within_blockWritten _ _ _).trans (within_afterJob _ _)))

theorem within_indexFailed (s : State) (lane : Lane) : Within s (s.indexFailed lane) :=
  (within_dropJob _ _ _).trans ((within_setFlag _ _).trans (within_blockMissed _ _))

theorem within_takeAck (s : State) (lane : Lane) : Within s (s.takeAck lane) := by
  unfold State.takeAck
  split
  · exact within_ackSpan _ _ _
  · exact within_ackIndex _ _ _
  · exact .refl s

theorem within_takeRetry (s : State) (lane : Lane) : Within s (s.takeRetry lane) := by
  unfold State.takeRetry
  split
  · split
    · exact (within_setJob _ _ _).trans (within_sendBurst _ _ _)
    · exact within_jobFailed _ _ _ _
  · split
    · exact (within_setJob _ _ _).trans (within_sendIndex _ _ _)
    · exact (within_indexFailed _ _).trans (within_afterJob _ _)
  · exact .refl s

theorem within_takeFault (s : State) (lane : Lane) : Within s (s.takeFault lane) := by
  unfold State.takeFault
  split
  · exact within_jobFailed _ _ _ _
  · exact (within_indexFailed _ _).trans (within_afterJob _ _)
  · exact .refl s

theorem within_writeTimeout (s : State) (lane : Lane) : Within s (s.writeTimeout lane) := by
  unfold State.writeTimeout
  split
  · exact within_jobFailed _ _ _ _
  · exact (within_indexFailed _ _).trans (within_faultLane _ _ _)
  · exact .refl s

theorem within_takeParked (s : State) (lane : Lane) : Within s (s.takeParked lane) := by
  have h := (within_stopTimer s lane).trans ((within_setLaneState _ lane .parked).trans
    (within_setFlag _ (laneChangeFlag lane)))
  unfold State.takeParked
  dsimp only
  split
  · exact h.trans (within_enterWaking _ _)
  · exact h.trans (within_placeClaim _ _)

theorem within_takeAwake (s : State) (lane : Lane) : Within s (s.takeAwake lane) :=
  (within_stopTimer s lane).trans ((within_setFlag _ _).trans (within_enterReady _ _))

theorem within_onAck (s : State) (lane : Lane) (tag : Word16) : Within s (s.onAck lane tag) := by
  unfold State.onAck
  split
  · exact (within_takeAck _ _).trans (within_evaluate _)
  · exact .refl s

theorem within_onRetry (s : State) (lane : Lane) (tag : Word16) : Within s (s.onRetry lane tag) := by
  unfold State.onRetry
  split
  · exact (within_takeRetry _ _).trans (within_evaluate _)
  · exact .refl s

theorem within_onFault (s : State) (lane : Lane) (tag : Word16) : Within s (s.onFault lane tag) := by
  unfold State.onFault
  split
  · exact (within_takeFault _ _).trans (within_evaluate _)
  · exact .refl s

theorem within_onParked (s : State) (lane : Lane) (tag : Word16) : Within s (s.onParked lane tag) := by
  unfold State.onParked
  split
  · exact (within_takeParked _ _).trans (within_evaluate _)
  · exact .refl s

theorem within_onAwake (s : State) (lane : Lane) (tag : Word16) : Within s (s.onAwake lane tag) := by
  unfold State.onAwake
  split
  · exact (within_takeAwake _ _).trans (within_evaluate _)
  · exact .refl s

/-! ### What changes a lane's own items: bring-up and ATTENTION -/

/-- A change of one lane alone keeps every law and every part of the state outside the lanes. -/
theorem sound_onLane (s : State) (lane : Lane) (f : LaneUnit → LaneUnit) : Sound s (s.onLane lane f) :=
  ⟨fun h => { h with }, rfl, id, rfl⟩

theorem sound_bringupDone (s : State) (lane : Lane) (r : ModuleReport) :
    Sound s (s.bringupDone lane r) := by
  have h := (sound_onLane s lane fun a => a.adopt r).trans
    (within_setFlag _ (laneChangeFlag lane)).sound
  unfold State.bringupDone
  dsimp only
  split
  · exact h.trans ((within_setFlag _ _).trans (within_enterReady _ _)).sound
  · exact h.trans (within_enterReady _ _).sound

theorem sound_takeReport (s : State) (lane : Lane) (r : ModuleReport) :
    Sound s (s.takeReport lane r) := by
  have h := sound_onLane s lane fun a => { a with timer := none, report := some r }
  unfold State.takeReport
  dsimp only
  split
  · exact h.trans (within_faultLane _ _ _).sound
  · exact h.trans (sound_bringupDone _ _ _)

theorem sound_onHelloReply (s : State) (lane : Lane) (tag : Word16) (r : ModuleReport) :
    Sound s (s.onHelloReply lane tag r) := by
  unfold State.onHelloReply
  split
  · exact (sound_takeReport _ _ _).trans (within_evaluate _).sound
  · exact .refl s

theorem sound_takeAttention (s : State) (lane : Lane) : Sound s (s.takeAttention lane) := by
  have h := sound_onLane s lane fun a => { a with attentionSeen := true }
  unfold State.takeAttention
  dsimp only
  split
  · split
    · exact h.trans ((within_enterWaking _ _).trans (within_evaluate _)).sound
    · exact h.trans (sound_onLane _ _ _)
    all_goals exact h
  · exact h

end Sys2Proof.Machine
end

