-- ==== Sys2Proof/Laws/Commands.lean ====
section
/-! SUPPORT. Laws/Commands.lean: the effect of each command keeps what every command keeps. -/

namespace Sys2Proof.Machine

/-! ### Settings that no law of a run reads -/

theorem sound_setSpm (s : State) (v : PressureMonitor) : Sound s (s.setSpm v) :=
  ⟨fun h => { h with }, rfl, id, rfl⟩

theorem sound_setNu (s : State) (v : NoticeUnit) : Sound s (s.setNu v) :=
  ⟨fun h => { h with }, rfl, id, rfl⟩

theorem sound_setCi (s : State) (src : Source) (f : IntakeSource → IntakeSource)
    (h : (f (s.ci.get src)).intake = (s.ci.get src).intake) : Sound s (s.onIntake src f) :=
  ⟨fun hl => hl.congr rfl rfl (fun x hx => by
    simp only [State.onIntake_eq, State.setCi_ci, PerSource.get_set] at hx
    split at hx
    · next hx' => subst hx'; rw [h] at hx; exact hx
    · exact hx) rfl id, rfl, id, rfl⟩

/-- A change of the index unit outside its buffers, its writing record and its RUN_END offer. -/
theorem sound_setIu (s : State) (v : IndexUnit) (h1 : v.buffers = s.iu.buffers)
    (h2 : v.writing = s.iu.writing) (h3 : v.waitRunEnd = s.iu.waitRunEnd) : Sound s (s.setIu v) :=
  ⟨fun hl => hl.congr rfl rfl (fun _ hx => hx)
    (by simp only [State.setIu_iu, IndexUnit.runEnds]; rw [h1, h3]) fun hx => hx.congr h1 (by rw [State.setIu_iu, h2]),
    rfl, id, rfl⟩

theorem sound_noEffect (p : List Byte) (s : State) : Sound s (noEffect p s) := .refl s

theorem length_markReset (l : List OutFrame) : (markReset l).length = l.length := by
  induction l with
  | nil => rfl
  | cons f rest ih =>
    cases rest with
    | nil => rfl
    | cons g rest => simp only [markReset, List.length_cons] at ih ⊢; omega

/-- The mark of a reset changes no byte of a frame. -/
theorem posOk_markReset (c : LinkPort) (h : c.posOk) :
    LinkPort.posOk { c with out := markReset c.out } := by
  unfold LinkPort.posOk at h ⊢
  cases hs : c.out with
  | nil => rw [hs] at h; exact h
  | cons f rest =>
    rw [hs] at h
    cases rest with
    | nil => exact h
    | cons g rest => exact h

theorem sound_resetEffect (p : List Byte) (s : State) : Sound s (resetEffect p s) :=
  sound_setClp s { s.clp with out := markReset s.clp.out } fun h =>
    { h with
      out := by rw [length_markReset]; exact h.out
      pos := posOk_markReset s.clp h.pos }

theorem sound_setSourceEffect (p : List Byte) (s : State) : Sound s (setSourceEffect p s) := by
  unfold setSourceEffect
  split
  · next src set _ =>
    exact (sound_setCi s src (fun i => { i with settings := set }) rfl).trans (sound_setSpm _ _)
  · exact .refl s

theorem sound_setSpoolEffect (p : List Byte) (s : State) : Sound s (setSpoolEffect p s) := by
  unfold setSpoolEffect
  split
  · exact (sound_setSpm s _).trans (within_evalAllPressure _ _).sound
  · exact .refl s

theorem sound_setCheckpointEffect (p : List Byte) (s : State) : Sound s (setCheckpointEffect p s) := by
  unfold setCheckpointEffect
  split
  · exact sound_setIu s _ (by rfl) (by rfl) (by rfl)
  · exact .refl s

theorem within_noticeGained (old : NoticeUnit) (s : State) (c : Fin 4) :
    Within s (State.noticeGained old s c) := by
  unfold State.noticeGained
  split
  · exact within_noticeOrOwe _ _
  · exact .refl s

theorem sound_setNoticesEffect (p : List Byte) (s : State) : Sound s (setNoticesEffect p s) := by
  unfold setNoticesEffect
  split
  · exact (sound_setNu s _).trans ((within_noticeGained s.nu _ 0).trans ((within_noticeGained s.nu _ 1).trans
      ((within_noticeGained s.nu _ 2).trans (within_noticeGained s.nu _ 3)))).sound
  · exact .refl s

theorem sound_clearNoticesEffect (p : List Byte) (s : State) : Sound s (clearNoticesEffect p s) := by
  unfold clearNoticesEffect
  split
  · exact sound_setNu _ _
  · exact .refl s

theorem sound_reload (s : State) : Sound s (s.setIu s.iu.reload) :=
  sound_setIu s _ rfl rfl rfl

theorem sound_checkpointExpired (s : State) : Sound s s.checkpointExpired := by
  have h : Sound s (if (s.buffer .a).state.taken || (s.buffer .b).state.taken then s.lateExpiry
      else s.closeFilling) := by
    split
    · exact ((within_setFlag _ _).trans (within_countLate _)).sound
    · exact (within_closeFilling _).sound
  exact h.trans ((sound_reload _).trans (within_evaluate _).sound)

/-! ### Runs (R28 to R38) -/

theorem RunLaw.idle_takes {s : State} (h : RunLaw s) (hr : s.rc.runState ≠ .running) (src : Source) :
    (s.ci.get src).intake.takes = false := by
  cases ht : (s.ci.get src).intake.takes with
  | false => rfl
  | true => exact absurd (h.intake src ht).1 hr

theorem RunLaw.no_ends {s : State} (h : RunLaw s) (hr : s.rc.runState ≠ .ending) : s.iu.runEnds = 0 := by
  by_contra hne
  exact hr (h.ends.2 (by omega))

/-- Arming a run in IDLE keeps the laws: every slot is FREE and every count is 0. -/
theorem sound_arm (s : State) (a : ArmOperands) (hr : s.rc.runState = .idle) : Sound s (s.arm a) := by
  refine Sound.trans (t := s.setRc { s.rc with
    runState := .armed
    runId := some a.runId
    sourceSet := s.armSet a.mask
    start := a.start
    startEpoch := none
    deadline := a.seconds
    expired := false
    nextSeq := .number 0
    counters := .zero }) ⟨fun h => ?_, rfl, id, rfl⟩ (within_calmAll _).sound
  have hs : s.st.slots = [] := h.free (by rw [hr]; rfl)
  exact
    { table := h.table
      queues := h.queues
      index := h.index
      count := by
        unfold CountLaw
        simp only [State.setRc_rc, State.setRc_st, hs]
        rfl
      intake := fun src ht => by
        have := h.idle_takes (by rw [hr]; simp) src
        rw [State.intake_eq, State.setRc_ci] at ht
        rw [this] at ht
        cases ht
      free := fun _ => hs
      ends := by
        have := h.no_ends (by rw [hr]; simp)
        unfold EndLaw
        simp only [State.setRc_iu, this]
        exact ⟨by omega, fun hx => by omega⟩ }

/-- The intakes as a run starts (R30). -/
theorem startIntake_rest (src : Source) (s : State) :
    (State.startIntake src s).st = s.st ∧ (State.startIntake src s).rc = s.rc ∧
      (State.startIntake src s).iu = s.iu ∧ (State.startIntake src s).mem = s.mem ∧
      (State.startIntake src s).clp = s.clp ∧ (State.startIntake src s).pending = s.pending ∧
      ∀ x, ((State.startIntake src s).ci.get x).intake.takes = true →
        (s.ci.get x).intake.takes = true ∨ s.rc.sourceSet.get x = true := by
  unfold State.startIntake
  split
  · next h =>
    refine ⟨rfl, rfl, rfl, rfl, rfl, rfl, fun x hx => ?_⟩
    simp only [State.onIntake_eq, State.setCi_ci, PerSource.get_set] at hx
    split at hx
    · next hx' => subst hx'; exact .inr h
    · exact .inl hx
  · exact ⟨rfl, rfl, rfl, rfl, rfl, rfl, fun x hx => .inl hx⟩

/-- An armed run that enters RUNNING keeps the laws. -/
theorem sound_enterRunning (s : State) (e : Option Word16) (hr : s.rc.runState = .armed) :
    Sound s (s.enterRunning e) := by
  have h1 : Sound s (forSources State.startIntake
      (s.setRc { s.rc with runState := .running, startEpoch := e })) := by
    unfold forSources
    generalize hu : s.setRc { s.rc with runState := .running, startEpoch := e } = u
    obtain ⟨a0, b0, c0, d0, e0, f0, g0⟩ := startIntake_rest .s0 u
    generalize State.startIntake .s0 u = u0 at *
    obtain ⟨a1, b1, c1, d1, e1, f1, g1⟩ := startIntake_rest .s1 u0
    generalize State.startIntake .s1 u0 = u1 at *
    obtain ⟨a2, b2, c2, d2, e2, f2, g2⟩ := startIntake_rest .s2 u1
    generalize State.startIntake .s2 u1 = u2 at *
    obtain ⟨a3, b3, c3, d3, e3, f3, g3⟩ := startIntake_rest .s3 u2
    generalize State.startIntake .s3 u2 = u3 at *
    subst hu
    have hst := a3.trans (a2.trans (a1.trans a0))
    have hrc := b3.trans (b2.trans (b1.trans b0))
    have hiu := c3.trans (c2.trans (c1.trans c0))
    refine ⟨fun h => ?_, ?_, fun h => ?_, f3.trans (f2.trans (f1.trans f0))⟩
    · have hs : s.st.slots = [] := h.free (by rw [hr]; rfl)
      exact
        { table := hst ▸ h.table
          queues := hst ▸ h.queues
          index := hiu ▸ h.index
          count := by
            have := h.count
            unfold CountLaw at this ⊢
            rw [hrc, hst]
            exact this
          intake := fun src ht => by
            refine ⟨by rw [hrc]; rfl, ?_⟩
            rw [hrc]
            rw [State.intake_eq] at ht
            have hn := h.idle_takes (by rw [hr]; simp) src
            have k3 := g3 src ht
            rw [b2, b1, b0] at k3
            rcases k3 with k3 | k3
            · have k2 := g2 src k3
              rw [b1, b0] at k2
              rcases k2 with k2 | k2
              · have k1 := g1 src k2
                rw [b0] at k1
                rcases k1 with k1 | k1
                · rcases g0 src k1 with k0 | k0
                  · rw [State.setRc_ci, hn] at k0
                    cases k0
                  · exact k0
                · exact k1
              · exact k2
            · exact k3
          free := fun hf => by
            rw [hrc] at hf
            cases hf
          ends := by
            have := h.no_ends (by rw [hr]; simp)
            unfold EndLaw
            rw [hiu]
            simp only [State.setRc_iu, this]
            exact ⟨by omega, fun hx => by omega⟩ }
    · exact d3.trans (d2.trans (d1.trans d0))
    · rw [e3, e2, e1, e0]
      exact h
  have h2 := h1.trans ((within_setTwu _ ⟨.reset, .reset, .reset, .reset⟩).trans (within_calmAll _)).sound
  exact h2.trans ((sound_setIu _ _ (by rfl) (by rfl) (by rfl)).trans (within_setFlag _ _).sound)

/-- ARM RUN's effect where its checks pass. -/
theorem sound_armEffect (p : List Byte) (s : State) (hr : s.rc.runState = .idle) :
    Sound s (armEffect p s) := by
  unfold armEffect
  split
  · exact .refl s
  · split
    · exact (sound_arm s _ hr).trans (sound_enterRunning _ _ rfl)
    · exact sound_arm s _ hr

theorem sound_stopArmed (s : State) (hr : s.rc.runState = .armed) : Sound s s.stopArmed := by
  refine Sound.trans (t := s.setRc { s.rc with runState := .idle, lastEnd := .stoppedBeforeStart })
    ⟨fun h => ?_, rfl, id, rfl⟩ (within_setFlag _ _).sound
  exact
    { table := h.table
      queues := h.queues
      index := h.index
      count := h.count
      intake := fun src ht => by
        have := h.idle_takes (by rw [hr]; simp) src
        rw [State.intake_eq, State.setRc_ci, this] at ht
        cases ht
      free := fun _ => h.free (by rw [hr]; rfl)
      ends := by
        have := h.no_ends (by rw [hr]; simp)
        unfold EndLaw
        simp only [State.setRc_iu, this]
        exact ⟨by omega, fun hx => by omega⟩ }

theorem sound_stopEffect (p : List Byte) (s : State) : Sound s (stopEffect p s) := by
  unfold stopEffect
  split
  · exact .refl s
  · next h => exact sound_stopArmed s h
  · next h => exact ((within_enterStopping s h).trans (within_evaluate _)).sound
  · exact .refl s
  · exact .refl s

theorem sound_takeEpoch (s : State) (e : Word16) : Sound s (s.takeEpoch e) := by
  have h : Sound s (s.setRc { s.rc with lastEpoch := some e }) := ⟨fun h => { h with }, rfl, id, rfl⟩
  unfold State.takeEpoch
  dsimp only
  split
  · next hc => exact h.trans (sound_enterRunning _ _ hc.1)
  · exact h

theorem sound_markSource (m : Nat) (src : Source) (s : State) : Sound s (State.markSource m src s) := by
  unfold State.markSource
  split
  · exact (within_onWindow _ _ _).sound
  · exact .refl s

theorem sound_tagSource (m : Nat) (src : Source) (s : State) : Sound s (State.tagSource m src s) := by
  unfold State.tagSource
  split
  · exact sound_setCi s src (fun i => { i with tagPending := true }) rfl
  · exact .refl s

/-- A change made source by source. -/
theorem sound_forSources (f : Source → State → State) (s : State) (h : ∀ src s, Sound s (f src s)) :
    Sound s (forSources f s) := ((h .s0 s).trans (h .s1 _)).trans ((h .s2 _).trans (h .s3 _))

/-- The stop deadline's expiry keeps what every command keeps (R35). -/
theorem sound_deadlineExpired (s : State) : Sound s s.deadlineExpired := by
  have h : Sound s (s.setRc { s.rc with deadlineTimer := none, expired := true }) :=
    ⟨fun h => { h with }, rfl, id, rfl⟩
  exact h.trans ((within_setFlag _ _).trans ((within_eachSlot _ within_disposeQueued _ _).trans
    (within_evaluate _))).sound

/-! ### ABORT RUN (R25, R38) -/

theorem within_abortLane (lane : Lane) (s : State) : Within s (State.abortLane lane s) := by
  unfold State.abortLane
  split
  · exact (within_abortJob _ _).trans (within_nextLaneState _ _)
  · exact .refl s

/-- Every slot released as discarded at once keeps the count (R25, R40). -/
theorem within_discardAll (s : State) : Within s s.discardAll := by
  have h : Within s (((s.setSt .empty).onCounters fun c =>
      { c with discarded := c.discarded + BitVec.ofNat 64 s.st.slots.length }).setSe
        ⟨none, none, none, none⟩) :=
    ⟨{ Kept.refl s with spans := fun p hp => by cases hp }, fun m h =>
      { table := .empty
        queues := .empty
        index := h.index
        count := by
          have hc := h.count
          unfold CountLaw at hc ⊢
          simp only [State.onCounters, State.setSe_rc, State.setRc_rc, State.setSt_rc, State.setSe_st,
            State.setRc_st, State.setSt_st, SpanTable.empty, List.length_nil, hc]
          bv_omega
        intake := h.intake
        free := fun _ => rfl
        ends := h.ends }⟩
  unfold State.discardAll
  dsimp only
  split
  · exact h
  · exact h.trans (within_occupancyChanged _ _ _)

/-- An effect that sets a flag leaves the table. -/
theorem setFlag_st (s : State) (f : Flag) : (s.setFlag f).st = s.st := by
  unfold State.setFlag State.noticeOrOwe
  split
  · rfl
  · dsimp only
    split
    · split <;> rfl
    · rfl

theorem evalPressure_st (v : Nat) (src : Source) (s : State) :
    (State.evalPressure v src s).st = s.st := by
  unfold State.evalPressure State.setPressure
  dsimp only
  split
  · split
    · rfl
    · split <;> rfl
  · rfl

/-- The monitor's report of an occupancy change leaves the table. -/
theorem occupancyChanged_st (u v : Nat) (s : State) : (s.occupancyChanged u v).st = s.st := by
  unfold State.occupancyChanged State.evalAllPressure forSources
  dsimp only
  simp only [evalPressure_st]
  split
  · exact setFlag_st _ _
  · rfl

/-- After ABORT RUN's second step every slot is FREE. -/
theorem slots_discardAll (s : State) : s.discardAll.st.slots = [] := by
  unfold State.discardAll
  dsimp only
  split
  · rfl
  · rw [occupancyChanged_st]
    rfl

/-- The index after ABORT RUN: both buffers EMPTY and nothing being written (R38). -/
theorem IndexLaw.abort (u : IndexUnit) : IndexLaw u.abort where
  entries b := by cases b <;> exact Nat.zero_le _
  filling b h := by cases b <;> cases h
  empty b _ := by cases b <;> rfl
  oneFilling b _ h := by cases b <;> cases h
  writing b := Iff.intro (fun h => by cases b <;> cases h) fun ⟨_, h, _⟩ => by cases h

theorem within_abortIndex (s : State) : Within s (s.setIu s.iu.abort) :=
  ⟨{ Kept.refl s with }, fun _ h => { h with
    index := .abort _
    ends := ⟨by have := h.ends.1; simp only [State.setIu_iu, IndexUnit.runEnds, IndexUnit.abort,
      IndexBuffer.empty, Option.isSome_none, Bool.toNat_false] at this ⊢; omega, fun hx => h.ends.2 (by
        simp only [State.setIu_iu, IndexUnit.runEnds, IndexUnit.abort, IndexBuffer.empty,
          Option.isSome_none, Bool.toNat_false] at hx
        omega)⟩ }⟩

/-- An effect that sets a flag leaves the index. -/
theorem setFlag_iu (s : State) (f : Flag) : (s.setFlag f).iu = s.iu := by
  unfold State.setFlag State.noticeOrOwe
  split
  · rfl
  · dsimp only
    split
    · split <;> rfl
    · rfl

theorem evalPressure_iu (v : Nat) (src : Source) (s : State) :
    (State.evalPressure v src s).iu = s.iu := by
  unfold State.evalPressure State.setPressure
  dsimp only
  split
  · split
    · rfl
    · split <;> rfl
  · rfl

theorem discardAll_iu (s : State) : s.discardAll.iu = s.iu := by
  unfold State.discardAll State.occupancyChanged State.evalAllPressure forSources
  dsimp only
  split
  · rfl
  · simp only [evalPressure_iu]
    split
    · exact setFlag_iu _ _
    · rfl

theorem enterParking_iu (s : State) (lane : Lane) : (s.enterParking lane).iu = s.iu := by
  unfold State.enterParking State.sendAwaiting State.send
  simp only [State.setWire_iu, State.onLane_eq, State.setAl_iu]
  split <;> rfl

/-- With no block being written, a lane that aborts leaves the index. -/
theorem abortLane_iu (lane : Lane) (s : State) (h : s.iu.writing = none) :
    (State.abortLane lane s).iu = s.iu := by
  have h1 : (s.abortJob lane).iu = s.iu := by
    unfold State.abortJob State.sendCancel
    split <;> [skip; skip; rfl] <;> split <;> rfl
  have h2 : ∀ u : State, u.iu = s.iu → (u.nextLaneState lane).iu = s.iu := by
    intro u hu
    unfold State.nextLaneState
    dsimp only
    split
    · unfold State.enterPaused State.blockMissed
      split
      · next w hw =>
        have : u.iu.writing = some w := hw
        rw [hu, h] at this
        cases this
      · exact hu
    · rw [enterParking_iu]
      exact hu
    · unfold State.placeClaim
      split <;> exact hu
  unfold State.abortLane
  split
  · exact h2 _ h1
  · rfl

/-- The first two steps of ABORT RUN. -/
theorem within_abortLanes (s : State) : Within s
    (forLanes State.abortLane ((s.setPair none).setIu s.iu.abort)).discardAll :=
  (within_setPair s none).trans ((within_abortIndex (s.setPair none)).trans
    ((within_forLanes _ _ within_abortLane).trans (within_discardAll _)))

theorem sound_abortRun (s : State) : Sound s s.abortRun := by
  have h1 := within_abortLanes s
  have hs : (forLanes State.abortLane ((s.setPair none).setIu s.iu.abort)).discardAll.st.slots = [] :=
    slots_discardAll _
  have hi : (forLanes State.abortLane ((s.setPair none).setIu s.iu.abort)).discardAll.iu = s.iu.abort := by
    have h2 := abortLane_iu .l0 ((s.setPair none).setIu s.iu.abort) rfl
    rw [discardAll_iu, forLanes, abortLane_iu .l1 _ (by rw [h2]; rfl), h2]
    rfl
  unfold State.abortRun
  dsimp only
  generalize (forLanes State.abortLane ((s.setPair none).setIu s.iu.abort)).discardAll = u at h1 hs hi
  refine h1.sound.trans (Sound.trans (t := ((u.setCi
      ⟨u.ci.s0.abort, u.ci.s1.abort, u.ci.s2.abort, u.ci.s3.abort⟩).setTwu
        ⟨.reset, .reset, .reset, .reset⟩).setRc
          { u.rc with deadlineTimer := none, runState := .idle, lastEnd := .aborted })
      ⟨fun h => ?_, rfl, id, rfl⟩ ?_)
  · exact
      { table := h.table
        queues := h.queues
        index := h.index
        count := h.count
        intake := fun src ht => by cases src <;> cases ht
        free := fun _ => hs
        ends := ⟨by simp only [State.setRc_iu, State.setTwu_iu, State.setCi_iu, hi]; exact Nat.zero_le _,
          fun hx => by
            simp only [State.setRc_iu, State.setTwu_iu, State.setCi_iu, hi] at hx
            cases hx⟩ }
  · exact ((within_calmAll _).trans ((within_setFlag _ _).trans
      ((within_rolesEnded _).trans (within_evaluate _)))).sound

/-! ### Lanes (R135, R147 to R155) -/

theorem sound_onLaneOf (f : Lane → State → State) (h : ∀ lane s, Sound s (f lane s)) (p : List Byte)
    (s : State) : Sound s (onLaneOf f p s) := by
  unfold onLaneOf
  split
  · exact .refl s
  · exact h _ _

theorem sound_setLane (s : State) (lane : Lane) (o : LaneOperands) : Sound s (s.setLane lane o) :=
  (sound_onLane s lane fun a => a.adoptSettings o).trans
    ((within_enterBringup _ _).trans (within_evaluate _)).sound

theorem sound_setLaneEffect (p : List Byte) (s : State) : Sound s (setLaneEffect p s) := by
  unfold setLaneEffect
  split
  · exact sound_setLane _ _ _
  · exact .refl s

theorem sound_laneReset (lane : Lane) (s : State) : Sound s (State.laneReset lane s) :=
  (within_cancelJob s lane).sound.trans ((sound_onLane _ lane fun a => { a.cleared with failures := 0 }).trans
    ((within_enterBringup _ _).trans ((within_checkFollower _ _).trans (within_evaluate _))).sound)

theorem sound_laneOffline (lane : Lane) (s : State) : Sound s (State.laneOffline lane s) := by
  unfold State.laneOffline
  split
  · exact .refl s
  · exact (within_cancelJob s lane).sound.trans ((sound_onLane _ lane LaneUnit.cleared).trans
      ((within_enterDown _ _).trans ((within_checkFollower _ _).trans (within_evaluate _))).sound)

theorem within_lanePause (lane : Lane) (s : State) : Within s (State.lanePause lane s) := by
  unfold State.lanePause
  split
  · exact (within_enterPaused _ _).trans (within_evaluate _)
  · exact within_setAction _ _ _

theorem within_laneResume (lane : Lane) (s : State) : Within s (State.laneResume lane s) :=
  (within_enterReady _ _).trans (within_evaluate _)

theorem within_lanePark (lane : Lane) (s : State) : Within s (State.lanePark lane s) := by
  unfold State.lanePark
  split
  · exact (within_enterParking _ _).trans (within_evaluate _)
  · exact within_setAction _ _ _
  all_goals exact .refl s

theorem within_laneWake (lane : Lane) (s : State) : Within s (State.laneWake lane s) := by
  unfold State.laneWake
  split
  · exact (within_enterWaking _ _).trans (within_evaluate _)
  · exact within_setWakePending _ _ _
  all_goals exact .refl s

end Sys2Proof.Machine
end

