-- ==== Sys2Proof/Laws/Outside.lean ====
section
/-! SUPPORT. Laws/Outside.lean: the effects that leave the lanes, their links and the scheduler as they stand. -/

namespace Sys2Proof.Machine

/-- An effect outside the lanes, the archive links and the Drain Scheduler. -/
structure Outside (s t : State) : Prop where
  al : t.al = s.al
  ds : t.ds = s.ds
  wire : t.wire = s.wire
  mem : t.mem = s.mem
  now : t.now = s.now

theorem Outside.refl (s : State) : Outside s s := ⟨rfl, rfl, rfl, rfl, rfl⟩

theorem Outside.trans {s t u : State} (h : Outside s t) (k : Outside t u) : Outside s u :=
  ⟨k.al.trans h.al, k.ds.trans h.ds, k.wire.trans h.wire, k.mem.trans h.mem, k.now.trans h.now⟩

/-- A change of fields outside them, and then such an effect. -/
theorem Outside.after {s t u : State} (k : Outside t u) (h1 : t.al = s.al) (h2 : t.ds = s.ds)
    (h3 : t.wire = s.wire) (h4 : t.mem = s.mem) (h5 : t.now = s.now) : Outside s u :=
  Outside.trans ⟨h1, h2, h3, h4, h5⟩ k

theorem outside_setFlag (s : State) (f : Flag) : Outside s (s.setFlag f) := by
  unfold State.setFlag State.noticeOrOwe
  split
  · exact .refl s
  · dsimp only
    split
    · split <;> exact ⟨rfl, rfl, rfl, rfl, rfl⟩
    · exact ⟨rfl, rfl, rfl, rfl, rfl⟩

theorem outside_evalPressure (v : Nat) (src : Source) (s : State) :
    Outside s (State.evalPressure v src s) := by
  unfold State.evalPressure State.setPressure
  dsimp only
  split
  · split
    · exact ⟨rfl, rfl, rfl, rfl, rfl⟩
    · split <;> exact ⟨rfl, rfl, rfl, rfl, rfl⟩
  · exact .refl s

theorem outside_forSources (f : Source → State → State) (s : State)
    (h : ∀ src s, Outside s (f src s)) : Outside s (forSources f s) :=
  ((h .s0 s).trans (h .s1 _)).trans ((h .s2 _).trans (h .s3 _))

theorem outside_occupancyChanged (u v : Nat) (s : State) : Outside s (s.occupancyChanged u v) := by
  unfold State.occupancyChanged
  dsimp only
  split
  · exact (outside_setFlag s _).trans (outside_forSources _ _ (outside_evalPressure v))
  · exact outside_forSources _ _ (outside_evalPressure v)

theorem outside_release (s : State) (slot : Nat) (c : ReleaseCause) : Outside s (s.release slot c) := by
  unfold State.release
  split
  · exact .refl s
  · dsimp only
    exact (outside_occupancyChanged _ _ _).after rfl rfl rfl rfl rfl

theorem outside_onSpan (s : State) (slot : Nat) (f : Span → Span) : Outside s (s.onSpan slot f) := by
  unfold State.onSpan
  split
  · exact ⟨rfl, rfl, rfl, rfl, rfl⟩
  · exact .refl s

theorem outside_enter (s : State) (slot : Nat) (v : Span) : Outside s (s.enter slot v) :=
  ⟨rfl, rfl, rfl, rfl, rfl⟩

/-! ### The Index Unit -/

theorem outside_handBack (s : State) (o : Offer) : Outside s (s.handBack o) := by
  cases o with
  | span slot e => cases e <;> exact outside_release _ _ _
  | gap src => exact ⟨rfl, rfl, rfl, rfl, rfl⟩
  | runEnd e => exact .refl s

theorem outside_takeOffer (s : State) (o : Offer) : Outside s (s.takeOffer o).1 := by
  unfold State.takeOffer
  split
  · cases o <;> exact ⟨rfl, rfl, rfl, rfl, rfl⟩
  · split
    · exact .refl s
    · exact Outside.after (outside_handBack _ _) rfl rfl rfl rfl rfl

theorem outside_endRun (s : State) (written : Bool) : Outside s (s.endRun written) := by
  have h : ∀ (src : Source) (u : State), Outside u
      (if (u.intake src).intake = .closed then u.onIntake src fun i => { i with intake := .idle } else u) := by
    intro src u
    split
    · exact ⟨rfl, rfl, rfl, rfl, rfl⟩
    · exact .refl u
  have h1 : Outside s (s.setRc { s.rc with
      runState := .idle, lastEnd := if written then s.rc.provisional else .indexUnwritten }) :=
    ⟨rfl, rfl, rfl, rfl, rfl⟩
  have h2 := h1.trans (outside_forSources _ _ h)
  have h3 : ∀ u : State, Outside u (u.calmAll.setFlag .runEnded) := fun u =>
    (outside_setFlag u.calmAll .runEnded).after rfl rfl rfl rfl rfl
  exact h2.trans (h3 _)

theorem outside_becomeWriting (s : State) (b : BufferName) : Outside s (s.becomeWriting b) := by
  unfold State.becomeWriting
  dsimp only
  split
  · exact Outside.after (outside_setFlag _ _) rfl rfl rfl rfl rfl
  · exact ⟨rfl, rfl, rfl, rfl, rfl⟩

theorem outside_blockDone (s : State) (w : Writing) : Outside s (s.blockDone w) := by
  have h : Outside s ((s.setIu { s.iu with
      buffers := s.iu.buffers.set w.buffer .empty
      writing := none
      blockSeq := s.iu.blockSeq + 1 }).setFlag .checkpointDone) :=
    Outside.after (outside_setFlag _ _) rfl rfl rfl rfl rfl
  have h2 : ∀ (b : Bool) (u : State), Outside u (if b then
      u.onCounters fun c => { c with checkpointsWritten := c.checkpointsWritten + 1 } else u) := by
    intro b u
    split
    · exact ⟨rfl, rfl, rfl, rfl, rfl⟩
    · exact .refl u
  unfold State.blockDone
  dsimp only
  split
  · exact (h.trans (h2 _ _)).trans (outside_endRun _ _)
  · exact h.trans (h2 _ _)

theorem outside_progressOnce (s : State) : Outside s s.progressOnce.1 := by
  unfold State.progressOnce
  split
  · split
    · exact .refl s
    · exact outside_blockDone _ _
  · split
    · exact outside_becomeWriting _ _
    · exact .refl s

theorem outside_refillOnce (s : State) : Outside s s.refillOnce.1 := by
  unfold State.refillOnce
  split
  · next o _ _ => cases o <;> exact ⟨rfl, rfl, rfl, rfl, rfl⟩
  · exact .refl s

theorem outside_handOver (s : State) (src : Source) : Outside s (s.handOver src).1 := by
  unfold State.handOver
  split
  · exact ⟨rfl, rfl, rfl, rfl, rfl⟩
  · exact .refl s

theorem outside_testEnding (s : State) : Outside s s.testEnding.1 := by
  unfold State.testEnding
  split
  · exact ⟨rfl, rfl, rfl, rfl, rfl⟩
  · exact .refl s

theorem outside_indexTask (s : State) (t : IndexTask) : Outside s (s.indexTask t).1 := by
  cases t with
  | offer o => exact outside_takeOffer s o
  | progress => exact outside_progressOnce s
  | refill => exact outside_refillOnce s
  | handNext src =>
    simp only [State.indexTask]
    split
    · exact outside_handOver s src
    · exact .refl s
  | testEnding => exact outside_testEnding s

theorem outside_runTasks (fuel : Nat) (ts : List IndexTask) (s : State) :
    Outside s (State.runTasks fuel ts s) := by
  induction fuel generalizing ts s with
  | zero => exact .refl s
  | succ fuel ih =>
    cases ts with
    | nil => exact .refl s
    | cons t ts => exact (outside_indexTask s t).trans (ih _ _)

/-- The Index Unit's work leaves the lanes and the scheduler. -/
theorem outside_index (s : State) (ts : List IndexTask) : Outside s (s.index ts) :=
  outside_runTasks _ _ _

theorem outside_offerSpan (s : State) (slot : Nat) : Outside s (s.offerSpan slot) := by
  unfold State.offerSpan
  split
  · exact outside_index _ _
  · exact .refl s

theorem outside_recycle (s : State) (slot : Nat) : Outside s (s.recycle slot) :=
  (outside_release _ _ _).trans (outside_index _ _)

theorem outside_blockMissed (s : State) (lane : Lane) : Outside s (s.blockMissed lane) := by
  unfold State.blockMissed
  split
  · split
    · exact ((outside_setFlag _ _).trans (outside_index _ _)).after rfl rfl rfl rfl rfl
    · exact .refl s
  · exact .refl s

theorem outside_blockWritten (s : State) (lane : Lane) (address : Nat) :
    Outside s (s.blockWritten lane address) := by
  unfold State.blockWritten
  split
  · split
    · exact Outside.after (outside_index _ _) rfl rfl rfl rfl rfl
    · exact .refl s
  · exact .refl s

theorem outside_closeFilling (s : State) : Outside s s.closeFilling := by
  unfold State.closeFilling
  split
  · exact Outside.after (outside_index _ _) rfl rfl rfl rfl rfl
  · split
    · exact Outside.after (outside_index _ _) rfl rfl rfl rfl rfl
    · exact .refl s

/-! ### What becomes of a span -/

theorem outside_commit (s : State) (slot : Nat) : Outside s (s.commit slot) := by
  unfold State.commit
  split
  · split
    · exact (outside_enter _ _ _).trans (outside_offerSpan _ _)
    · exact .refl s
  · exact .refl s

theorem outside_shedSpan (s : State) (slot : Nat) (c : ShedCause) : Outside s (s.shedSpan slot c) := by
  unfold State.shedSpan
  split
  · split
    · exact .refl s
    · exact (outside_enter _ _ _).trans (outside_offerSpan _ _)
  · exact .refl s

theorem outside_requeue (s : State) (slot : Nat) : Outside s (s.requeue slot) := by
  unfold State.requeue
  split
  · split
    · split
      · exact outside_commit _ _
      · exact outside_shedSpan _ _ _
    · exact outside_enter _ _ _
  · exact .refl s

theorem outside_disposeQueued (s : State) (slot : Nat) : Outside s (s.disposeQueued slot) := by
  unfold State.disposeQueued
  split
  · split
    · split
      · exact outside_commit _ _
      · exact outside_shedSpan _ _ _
    · exact .refl s
  · exact .refl s

theorem outside_failOrRequeue (s : State) (slot : Nat) : Outside s (s.failOrRequeue slot) := by
  unfold State.failOrRequeue
  split
  · split
    · exact (outside_shedSpan _ _ _).trans (outside_setFlag _ _)
    · exact outside_requeue _ _
  · exact .refl s

theorem outside_applySingle (s : State) (slot : Nat) (lane : Lane) (o : Outcome) (address : Nat) :
    Outside s (s.applySingle slot lane o address) := by
  unfold State.applySingle
  cases o with
  | done =>
    dsimp only
    have h := (outside_onSpan s slot fun sp => sp.addCopy { lane := lane, address := address }).trans
      (outside_commit _ slot)
    split
    · split
      · exact h.trans (outside_setFlag _ _)
      · exact h
    · exact h
  | cancelled => exact outside_requeue _ _
  | retryExhausted => exact (outside_onSpan _ _ _).trans (outside_failOrRequeue _ _)
  | moduleFault => exact (outside_onSpan _ _ _).trans (outside_failOrRequeue _ _)
  | timeout => exact (outside_onSpan _ _ _).trans (outside_failOrRequeue _ _)
  | none => exact .refl s

/-- The report of a write's end, while no pair is formed, leaves the lanes and the scheduler. -/
theorem outside_reportOutcome (s : State) (lane : Lane) (j : SpanJob) (o : Outcome) (address : Nat)
    (h : s.ds.pair = none) : Outside s (s.reportOutcome lane j o address) := by
  simp only [State.reportOutcome, State.reportWrite, h]
  split
  · exact .refl s
  · exact Outside.after (outside_applySingle _ _ _ _ _) rfl rfl rfl rfl rfl

theorem outside_closeSpan (s : State) (c : PairContext) : Outside s (s.closeSpan c) := by
  have h0 : ∀ failed : Bool, Outside s (if failed then s.onSpan c.slot Span.countAttempt else s) := by
    intro failed
    split
    · exact outside_onSpan _ _ _
    · exact .refl s
  unfold State.closeSpan
  dsimp only
  split
  · exact outside_commit _ _
  · split
    · unfold State.closePartial
      dsimp only
      generalize hf : (c.outcome.l0 == .failed || c.outcome.l1 == .failed) = failed
      have h1 := h0 failed
      generalize (if failed then s.onSpan c.slot Span.countAttempt else s) = s1 at h1 ⊢
      split
      · exact h1
      · split
        · split
          · exact h1.trans (outside_commit _ _)
          · exact h1.trans ((outside_commit _ _).trans (outside_setFlag _ _))
        · split
          · exact h1.trans ((outside_failOrRequeue _ _).after rfl rfl rfl rfl rfl)
          · exact h1.trans ((outside_requeue _ _).after rfl rfl rfl rfl rfl)
    · unfold State.closeBare
      split
      · exact (outside_onSpan _ _ _).trans (outside_failOrRequeue _ _)
      · exact outside_requeue _ _

/-! ### The intake and the run's stop -/

theorem outside_handGap (s : State) (src : Source) : Outside s (s.handGap src) :=
  (outside_handOver s src).trans (outside_index _ _)

theorem outside_eachSlot (f : State → Nat → State) (h : ∀ s slot, Outside s (f s slot)) (s : State)
    (slots : List Nat) : Outside s (State.eachSlot f s slots) := by
  unfold State.eachSlot
  induction slots generalizing s with
  | nil => exact .refl s
  | cons x rest ih => exact (h s x).trans (ih (f s x))

theorem outside_recycleAll (s : State) (spans : List (Nat × Span)) : Outside s (s.recycleAll spans) :=
  outside_eachSlot _ outside_recycle _ _

theorem outside_sealPressure (s : State) (src : Source) : Outside s (s.sealPressure src) := by
  unfold State.sealPressure
  split
  · split
    · exact outside_recycle _ _
    · split
      · exact (outside_shedSpan _ _ _).trans (outside_setFlag _ _)
      · exact .refl s
  · exact .refl s

theorem outside_sealSpan (s : State) (src : Source) (slot : Nat) (sp : Span) :
    Outside s (s.sealSpan src slot sp) := by
  have h : ∀ v, Outside s ((s.setSummary src none).enter slot v) := fun _ => ⟨rfl, rfl, rfl, rfl, rfl⟩
  unfold State.sealSpan
  dsimp only
  split
  · split
    · exact (h _).trans (outside_recycle _ _)
    · exact h _
  · exact h _
  · exact h _

theorem outside_sealFilling (s : State) (src : Source) : Outside s (s.sealFilling src) := by
  unfold State.sealFilling
  split
  · exact (outside_sealSpan _ _ _ _).trans (outside_sealPressure _ _)
  · exact .refl s

theorem outside_closeSource (src : Source) (s : State) : Outside s (State.closeSource src s) := by
  unfold State.closeSource
  split
  · exact ⟨rfl, rfl, rfl, rfl, rfl⟩
  · exact .refl s

theorem outside_ifRun (f : State → Source → State) (h : ∀ s src, Outside s (f s src)) (src : Source)
    (s : State) : Outside s (State.ifRun f src s) := by
  unfold State.ifRun
  split
  · exact h s src
  · exact .refl s

theorem outside_enterStopping (s : State) : Outside s s.enterStopping := by
  have h : Outside s (forSources State.closeSource
      (s.setRc { s.rc with runState := .stopping, deadlineTimer := some (1000 * s.rc.deadline) })) :=
    (outside_forSources _ _ outside_closeSource).after rfl rfl rfl rfl rfl
  exact h.trans ((outside_forSources _ _ (outside_ifRun _ outside_sealFilling)).trans
    ((outside_forSources _ _ (outside_ifRun _ outside_handGap)).trans
      ((outside_forSources _ _ (outside_ifRun _ fun s _ => outside_recycleAll s _)).trans
        (outside_index _ _))))

theorem outside_seal (s : State) (src : Source) : Outside s (s.seal src) := by
  unfold State.seal
  split
  · dsimp only
    split
    · exact (outside_sealFilling s src).trans (outside_enterStopping _)
    · exact outside_sealFilling s src
  · exact .refl s

theorem outside_keepSpan (s : State) (slot : Nat) : Outside s (s.keepSpan slot) := by
  unfold State.keepSpan
  split
  · split
    · exact outside_enter _ _ _
    · exact .refl s
  · exact .refl s

theorem outside_markSpan (s : State) (slot n shortfall : Nat) : Outside s (s.markSpan slot n shortfall) :=
  outside_onSpan _ _ _

theorem outside_onWindow (s : State) (src : Source) (f : WindowSource → WindowSource) :
    Outside s (s.onWindow src f) := ⟨rfl, rfl, rfl, rfl, rfl⟩

theorem outside_triggerWindowed (s : State) (src : Source) (n : Nat) (taken : Option Nat) :
    Outside s (s.triggerWindowed src n taken) := by
  have h := outside_eachSlot _ outside_keepSpan s
    ((s.st.heldFrom src (n - (s.settings src).preDepth)).map Prod.fst)
  unfold State.triggerWindowed
  dsimp only
  generalize State.eachSlot State.keepSpan s _ = s1 at h ⊢
  refine h.trans (Outside.trans ?_ (outside_onWindow _ _ _))
  cases taken with
  | none => exact .refl s1
  | some slot => exact (outside_onSpan _ _ _).trans (outside_markSpan _ _ _ _)

theorem outside_triggerPlain (s : State) (n : Nat) (taken : Option Nat) :
    Outside s (s.triggerPlain n taken) := by
  cases taken with
  | none => exact .refl s
  | some slot => exact outside_markSpan _ _ _ _

theorem outside_applyTrigger (s : State) (src : Source) (n : Nat) (taken : Option Nat) :
    Outside s (s.applyTrigger src n taken) := by
  have h : Outside s ((s.onIntake src fun i => { i with tagPending := false }).onWindow src
      fun w => { w with markPending := false }) := ⟨rfl, rfl, rfl, rfl, rfl⟩
  unfold State.applyTrigger
  dsimp only
  generalize (s.onIntake src _).onWindow src _ = s1 at h ⊢
  split
  · split
    · exact h.trans (outside_triggerWindowed _ _ _ _)
    · exact h.trans (outside_triggerPlain _ _ _)
  · exact .refl s

theorem outside_testWindow (s : State) (src : Source) (n : Nat) (taken : Option Nat) :
    Outside s (s.testWindow src n taken) := by
  unfold State.testWindow
  split
  · split
    · dsimp only
      split
      · exact (outside_seal _ _).after rfl rfl rfl rfl rfl
      · exact ⟨rfl, rfl, rfl, rfl, rfl⟩
    · exact .refl s
  · exact .refl s

theorem outside_testLength (s : State) (src : Source) (taken : Option Nat) :
    Outside s (s.testLength src taken) := by
  unfold State.testLength
  split
  · split
    · exact outside_seal _ _
    · exact .refl s
  · exact .refl s

theorem outside_testNumbers (s : State) (src : Source) (n : Nat) : Outside s (s.testNumbers src n) := by
  unfold State.testNumbers
  split
  · dsimp only
    split
    · exact (outside_seal s src).trans ((outside_handGap _ _).after rfl rfl rfl rfl rfl)
    · exact outside_seal s src
  · exact .refl s

theorem outside_age (s : State) (src : Source) : Outside s (s.age src) := by
  unfold State.age
  split
  · split
    · exact outside_recycleAll _ _
    · exact .refl s
  · exact .refl s

end Sys2Proof.Machine
end

