-- ==== Sys2Proof/Laws/Windows.lean ====
section
/-! SUPPORT. Laws/Windows.lean: the effects inside a step keep the law of the archive windows (R137). -/

namespace Sys2Proof.Machine

/-! ### One lane -/

/-- The same window, cursors and conditions. -/
structure SameRoom (a b : LaneUnit) : Prop where
  settings : b.settings = a.settings
  dataCursor : b.dataCursor = a.dataCursor
  indexCursor : b.indexCursor = a.indexCursor
  dataFull : b.dataFull = a.dataFull
  indexFull : b.indexFull = a.indexFull

/-- The parts of `LaneFit` that the cursors decide. -/
structure Room (a : LaneUnit) : Prop where
  cursors : (a.dataCursor : Int) ≤ a.indexCursor + 1
  dataFull : a.dataFull = a.isDataFull
  indexFull : a.indexFull = a.isIndexFull

theorem LaneFit.room {a : LaneUnit} {cl : Option Claim} (h : LaneFit a cl) : Room a :=
  ⟨h.cursors, h.dataFull, h.indexFull⟩

theorem Room.same {a b : LaneUnit} (h : Room a) (k : SameRoom a b) : Room b where
  cursors := by rw [k.dataCursor, k.indexCursor]; exact h.cursors
  dataFull := by
    rw [k.dataFull, h.dataFull]
    unfold LaneUnit.isDataFull LaneUnit.free
    rw [k.settings, k.dataCursor, k.indexCursor]
  indexFull := by
    rw [k.indexFull, h.indexFull]
    unfold LaneUnit.isIndexFull LaneUnit.free
    rw [k.dataCursor, k.indexCursor]

/-- The cursors evaluated decide the two conditions. -/
theorem Room.evaluated {a : LaneUnit} (h : (a.dataCursor : Int) ≤ a.indexCursor + 1) :
    Room a.evaluated := ⟨h, rfl, rfl⟩

/-- A claim that a lane may have: none, or in READY and PARKED the kind of R101. -/
def FitClaim (a : LaneUnit) (cl : Option Claim) : Prop :=
  ∀ c, cl = some c → a.state.claims = true ∧ (c.kind = .full → a.dataFull = false)

theorem FitClaim.none (a : LaneUnit) : FitClaim a none := fun _ h => by cases h

theorem FitClaim.now {a : LaneUnit} (h : a.state.claims = true) (n : Nat) :
    FitClaim a (some { kind := a.claimKind, since := n }) := by
  intro c hc
  cases hc
  refine ⟨h, fun hk => ?_⟩
  unfold LaneUnit.claimKind at hk
  split at hk
  · cases hk
  · next hf => exact Bool.eq_false_iff.2 hf

/-- A lane that is in no state of rest nor BUSY, without an index job. -/
theorem LaneFit.away {a : LaneUnit} (h : Room a) (hr : a.state.rests = false) (hb : (a.state == .busy) = false)
    (hj : ∀ j, a.job ≠ some (.index j)) : LaneFit a none where
  cursors := h.cursors
  dataFull := h.dataFull
  indexFull := h.indexFull
  claim := FitClaim.none a
  rests hs := by rw [hr] at hs; cases hs
  busy hs := by rw [hs] at hb; cases hb
  index j hs := absurd hs (hj j)

/-- A lane with nothing outstanding, without an index job. -/
theorem LaneFit.still {a : LaneUnit} {cl : Option Claim} (h : Room a) (ht : a.timer = none)
    (hj : ∀ j, a.job ≠ some (.index j)) (hc : FitClaim a cl) : LaneFit a cl where
  cursors := h.cursors
  dataFull := h.dataFull
  indexFull := h.indexFull
  claim := hc
  rests _ := ht
  busy _ _ := ht
  index j hs := absurd hs (hj j)

/-- A BUSY lane with a job, one of the index only where there is room for its block. -/
theorem LaneFit.works {a : LaneUnit} (h : Room a) (hs : a.state = .busy) (hj : a.job ≠ none)
    (hi : ∀ j, a.job = some (.index j) → a.indexFull = false) : LaneFit a none where
  cursors := h.cursors
  dataFull := h.dataFull
  indexFull := h.indexFull
  claim := FitClaim.none a
  rests hr := by rw [hs] at hr; cases hr
  busy _ hn := absurd hn hj
  index j hs' := ⟨hs, hi j hs'⟩

/-- A change of a lane that keeps its state, job and timer. -/
theorem LaneFit.same {a b : LaneUnit} {cl : Option Claim} (h : LaneFit a cl) (k : SameRoom a b)
    (h1 : b.state = a.state) (h2 : b.job = a.job) (h3 : b.timer = a.timer) : LaneFit b cl where
  cursors := (h.room.same k).cursors
  dataFull := (h.room.same k).dataFull
  indexFull := (h.room.same k).indexFull
  claim c hc := by rw [h1, k.dataFull]; exact h.claim c hc
  rests hs := by rw [h3]; exact h.rests (h1 ▸ hs)
  busy hs hj := by rw [h3]; exact h.busy (h1 ▸ hs) (h2 ▸ hj)
  index j hj := by rw [h1, k.indexFull]; exact h.index j (h2 ▸ hj)

/-- A BUSY lane has no claim. -/
theorem LaneFit.no_claim {a : LaneUnit} {cl : Option Claim} (h : LaneFit a cl)
    (hs : a.state.claims = false) : cl = none := by
  cases cl with
  | none => rfl
  | some c => have := (h.claim c rfl).1; rw [hs] at this; cases this

/-- Only a BUSY lane has an index job. -/
theorem LaneFit.no_index {a : LaneUnit} {cl : Option Claim} (h : LaneFit a cl) (hs : a.state ≠ .busy) :
    ∀ j, a.job ≠ some (.index j) := fun j hj => hs (h.index j hj).1

/-! ### The lanes -/

/-- Both lanes fit. -/
def Fits (s : State) : Prop := ∀ l, LaneFit (s.al.get l) (s.ds.claim.get l)

/-- A lane is not the leader of a FORMING pair. -/
def State.Free (s : State) (l : Lane) : Prop :=
  ∀ c, s.ds.pair = some c → c.phase = .forming → c.leader ≠ l

theorem LaneLaw.fits {s : State} (h : LaneLaw s) : Fits s := h.fit

/-- Without a FORMING pair the lanes need only fit. -/
theorem Fits.law {s : State} (h : Fits s) (hp : ∀ c, s.ds.pair = some c → c.phase ≠ .forming) : LaneLaw s :=
  ⟨h, fun c hc hf => absurd hf (hp c hc)⟩

/-- An effect that changes no lane: pairs only end or go on, and claims end, stand, or are placed. -/
structure Eases (s t : State) : Prop where
  al : t.al = s.al
  claim : ∀ l c, t.ds.claim.get l = some c →
    s.ds.claim.get l = some c ∨ ((s.al.get l).state.claims = true ∧ c.kind = (s.al.get l).claimKind)
  forming : ∀ c, t.ds.pair = some c → c.phase = .forming → s.ds.pair = some c

theorem Eases.refl (s : State) : Eases s s := ⟨rfl, fun _ _ h => .inl h, fun _ h _ => h⟩

theorem Eases.trans {s t u : State} (h : Eases s t) (k : Eases t u) : Eases s u where
  al := k.al.trans h.al
  claim l c hc := by
    rcases k.claim l c hc with h1 | h1
    · exact h.claim l c h1
    · rw [h.al] at h1; exact .inr h1
  forming c hc hf := h.forming c (k.forming c hc hf) hf

theorem Outside.eases {s t : State} (h : Outside s t) : Eases s t :=
  ⟨h.al, fun l c hc => .inl (by rw [← h.ds]; exact hc), fun c hc _ => by rw [← h.ds]; exact hc⟩

theorem Fits.eases {s t : State} (h : Fits s) (k : Eases s t) : Fits t := fun l => by
  rw [k.al]
  exact
    { h l with
      claim := fun c hc => by
        rcases k.claim l c hc with h1 | ⟨h1, h2⟩
        · exact (h l).claim c h1
        · refine ⟨h1, fun hk => ?_⟩
          exact (FitClaim.now h1 c.since _ (by rw [← h2])).2 hk }

theorem LaneLaw.eases {s t : State} (h : LaneLaw s) (k : Eases s t) : LaneLaw t :=
  ⟨h.fits.eases k, fun c hc hf => by
    have := h.forming c (k.forming c hc hf) hf
    rw [State.lane_eq] at this ⊢
    rwa [k.al]⟩

theorem State.Free.eases {s t : State} {l : Lane} (h : s.Free l) (k : Eases s t) : t.Free l :=
  fun c hc hf => h c (k.forming c hc hf) hf

/-- An effect on one lane and its claim. -/
structure Moves (l : Lane) (s t : State) : Prop where
  al : ∀ m, m ≠ l → t.al.get m = s.al.get m
  claim : ∀ m, m ≠ l → t.ds.claim.get m = s.ds.claim.get m
  pair : t.ds.pair = s.ds.pair

theorem Moves.trans {l : Lane} {s t u : State} (h : Moves l s t) (k : Moves l t u) : Moves l s u :=
  ⟨fun m hm => (k.al m hm).trans (h.al m hm), fun m hm => (k.claim m hm).trans (h.claim m hm),
    k.pair.trans h.pair⟩

theorem Outside.moves {s t : State} (h : Outside s t) (l : Lane) : Moves l s t :=
  ⟨fun m _ => by rw [h.al], fun m _ => by rw [h.ds], by rw [h.ds]⟩

theorem moves_onLane (s : State) (l : Lane) (f : LaneUnit → LaneUnit) : Moves l s (s.onLane l f) := by
  constructor
  · intro m hm; cases l <;> cases m <;> first | rfl | exact absurd rfl hm
  · intro m _; rfl
  · rfl

theorem moves_setClaim (s : State) (l : Lane) (v : Option Claim) : Moves l s (s.setClaim l v) := by
  constructor
  · intro m _; rfl
  · intro m hm; cases l <;> cases m <;> first | rfl | exact absurd rfl hm
  · rfl

theorem moves_sendAwaiting (s : State) (l : Lane) (f : Word16 → LaneFrame) (time : Nat) :
    Moves l s (s.sendAwaiting l f time) := by
  constructor
  · intro m hm; cases l <;> cases m <;> first | rfl | exact absurd rfl hm
  · intro m _; rfl
  · rfl

theorem Fits.moves {l : Lane} {s t : State} (h : Fits s) (k : Moves l s t)
    (hl : LaneFit (t.al.get l) (t.ds.claim.get l)) : Fits t := fun m => by
  by_cases hm : m = l
  · rw [hm]; exact hl
  · rw [k.al m hm, k.claim m hm]; exact h m

theorem LaneLaw.moves {l : Lane} {s t : State} (h : LaneLaw s) (k : Moves l s t)
    (hl : LaneFit (t.al.get l) (t.ds.claim.get l))
    (hw : s.Free l ∨ (Waits (s.al.get l) → Waits (t.al.get l))) : LaneLaw t :=
  ⟨h.fits.moves k hl, fun c hc hf => by
    rw [k.pair] at hc
    rw [State.lane_eq]
    by_cases hm : c.leader = l
    · rcases hw with hw | hw
      · exact absurd hm (hw c hc hf)
      · rw [hm]; exact hw (hm ▸ h.forming c hc hf)
    · rw [k.al _ hm]; exact h.forming c hc hf⟩

theorem State.Free.moves {l m : Lane} {s t : State} (h : s.Free m) (k : Moves l s t) : t.Free m :=
  fun c hc hf => h c (k.pair ▸ hc) hf

/-- A lane that is not BUSY, or has something outstanding, leads no FORMING pair. -/
theorem LaneLaw.free {s : State} (h : LaneLaw s) {l : Lane}
    (hs : (s.al.get l).state ≠ .busy ∨ (s.al.get l).timer.isSome = true) : s.Free l := by
  intro c hc hf hl
  have := h.forming c hc hf
  rw [State.lane_eq, hl] at this
  rcases hs with hs | hs
  · exact hs this.state
  · rw [this.timer] at hs; cases hs

/-! ### Claims and the ends of roles -/

theorem eases_placeClaim {s : State} {l : Lane} (h : (s.al.get l).state.claims = true) :
    Eases s (s.placeClaim l) := by
  unfold State.placeClaim
  split
  · exact .refl s
  · refine ⟨rfl, fun m c hc => ?_, fun c hc _ => hc⟩
    by_cases hm : m = l
    · subst hm
      have : (s.setClaim m (some { kind := (s.lane m).claimKind, since := s.now })).ds.claim.get m =
          some { kind := (s.lane m).claimKind, since := s.now } := by cases m <;> rfl
      rw [this] at hc
      cases hc
      exact .inr ⟨h, rfl⟩
    · exact .inl (((moves_setClaim s l _).claim m hm) ▸ hc)

theorem eases_roleEnded (s : State) (l : Lane) : Eases s (s.roleEnded l) := by
  unfold State.roleEnded
  split
  · next h => exact eases_placeClaim (Bool.and_eq_true_iff.1 h).1
  · exact .refl s

theorem eases_rolesEnded (s : State) : Eases s s.rolesEnded :=
  (eases_roleEnded s .l0).trans (eases_roleEnded _ .l1)

/-- A pair that is removed, or is no longer FORMING. -/
theorem eases_setPair (s : State) {v : Option PairContext} (h : ∀ c, v = some c → c.phase ≠ .forming) :
    Eases s (s.setPair v) := ⟨rfl, fun _ _ hc => .inl hc, fun c hc hf => absurd hf (h c hc)⟩

theorem eases_endPair (s : State) : Eases s (s.setPair none) := eases_setPair s fun _ h => by cases h

theorem eases_dissolve (s : State) (c : PairContext) : Eases s (s.dissolve c) :=
  (eases_endPair s).trans (outside_requeue _ _).eases

theorem eases_closePair (s : State) (c : PairContext) : Eases s (s.closePair c) :=
  (eases_endPair s).trans ((outside_closeSpan _ c).eases.trans (eases_rolesEnded _))

theorem eases_pairOutcome (s : State) (c : PairContext) (l : Lane) (o : Outcome) (address : Nat)
    (h : c.phase ≠ .forming) : Eases s (s.pairOutcome c l o address) := by
  unfold State.pairOutcome
  split
  · dsimp only
    have h0 : Eases s (if o = .done then
        s.onSpan c.slot fun sp => sp.addCopy { lane := l, address := address } else s) := by
      split
      · exact (outside_onSpan _ _ _).eases
      · exact .refl s
    have h1 := h0.trans (eases_setPair _ (v := some { c with outcome := c.outcome.set l o.inPair })
      fun d hd => by cases hd; exact h)
    split
    · exact h1
    · exact h1.trans (eases_closePair _ _)
  · exact .refl s

theorem eases_setSpan (s : State) (slot : Nat) (sp : Span) : Eases s (s.setSpan slot sp) :=
  ⟨rfl, fun _ _ hc => .inl hc, fun _ hc _ => hc⟩

theorem eases_reportWrite (s : State) (l : Lane) (j : SpanJob) (o : Outcome) (address : Nat) :
    Eases s (s.reportWrite l j o address) := by
  unfold State.reportWrite
  split
  · exact .refl s
  · next sp _ =>
    dsimp only
    refine (eases_setSpan s j.slot (sp.noteOutcome o)).trans ?_
    split
    · split
      · next c _ hc => exact eases_pairOutcome _ _ _ _ _ (by rw [hc.1]; decide)
      · exact (outside_applySingle _ _ _ _ _).eases
    · exact (outside_applySingle _ _ _ _ _).eases

theorem eases_reportOutcome (s : State) (l : Lane) (j : SpanJob) (o : Outcome) (address : Nat) :
    Eases s (s.reportOutcome l j o address) := by
  unfold State.reportOutcome
  split
  · split
    · exact (outside_onSpan _ _ _).eases.trans ((eases_dissolve _ _).trans (eases_rolesEnded _))
    · exact eases_reportWrite _ _ _ _ _
  · exact eases_reportWrite _ _ _ _ _

/-! ### Entering a state -/

theorem moves_leaveTo (s : State) (l : Lane) (st : LaneState) : Moves l s (s.leaveTo l st) :=
  (moves_setClaim s l none).trans (moves_onLane (s.setClaim l none) l fun a => { a with state := st })

theorem get_leaveTo (s : State) (l : Lane) (st : LaneState) :
    (s.leaveTo l st).al.get l = { s.al.get l with state := st } := by cases l <;> rfl

theorem claim_leaveTo (s : State) (l : Lane) (st : LaneState) :
    (s.leaveTo l st).ds.claim.get l = none := by cases l <;> rfl

theorem get_onLane (s : State) (l : Lane) (f : LaneUnit → LaneUnit) :
    (s.onLane l f).al.get l = f (s.al.get l) := by cases l <;> rfl

theorem ds_onLane (s : State) (l : Lane) (f : LaneUnit → LaneUnit) : (s.onLane l f).ds = s.ds := rfl

theorem get_sendAwaiting (s : State) (l : Lane) (f : Word16 → LaneFrame) (time : Nat) :
    (s.sendAwaiting l f time).al.get l =
      { s.al.get l with burstTag := (s.al.get l).burstTag + 1, timer := some time } := by cases l <;> rfl

theorem ds_sendAwaiting (s : State) (l : Lane) (f : Word16 → LaneFrame) (time : Nat) :
    (s.sendAwaiting l f time).ds = s.ds := rfl

/-- A lane leaves for a state in which it does not rest, nor is BUSY. -/
theorem LaneLaw.leaveTo {s : State} {l : Lane} {st : LaneState} (h : LaneLaw s) (hf : s.Free l)
    (hr : st.rests = false) (hb : (st == .busy) = false) (hj : ∀ j, (s.al.get l).job ≠ some (.index j)) :
    LaneLaw (s.leaveTo l st) := by
  refine h.moves (moves_leaveTo s l st) ?_ (.inl hf)
  rw [get_leaveTo, claim_leaveTo]
  exact .away ((h.fit l).room.same ⟨rfl, rfl, rfl, rfl, rfl⟩) hr hb hj

theorem moves_enterParking (s : State) (l : Lane) : Moves l s (s.enterParking l) := by
  unfold State.enterParking
  dsimp only
  split
  · exact (moves_leaveTo s l _).trans ((moves_onLane _ l _).trans (moves_sendAwaiting _ l _ _))
  · exact (moves_leaveTo s l _).trans (moves_sendAwaiting _ l _ _)

theorem LaneLaw.enterParking {s : State} {l : Lane} (h : LaneLaw s) (hf : s.Free l)
    (hj : ∀ j, (s.al.get l).job ≠ some (.index j)) : LaneLaw (s.enterParking l) := by
  refine h.moves (moves_enterParking s l) ?_ (.inl hf)
  have hr := (h.fit l).room
  unfold State.enterParking
  dsimp only
  split
  · rw [get_sendAwaiting, get_onLane, get_leaveTo, ds_sendAwaiting, ds_onLane, claim_leaveTo]
    exact .away (hr.same ⟨rfl, rfl, rfl, rfl, rfl⟩) rfl rfl hj
  · rw [get_sendAwaiting, get_leaveTo, ds_sendAwaiting, claim_leaveTo]
    exact .away (hr.same ⟨rfl, rfl, rfl, rfl, rfl⟩) rfl rfl hj

theorem moves_enterWaking (s : State) (l : Lane) : Moves l s (s.enterWaking l) :=
  (moves_leaveTo s l _).trans ((moves_onLane _ l _).trans (moves_sendAwaiting _ l _ _))

theorem LaneLaw.enterWaking {s : State} {l : Lane} (h : LaneLaw s) (hf : s.Free l)
    (hj : ∀ j, (s.al.get l).job ≠ some (.index j)) : LaneLaw (s.enterWaking l) := by
  refine h.moves (moves_enterWaking s l) ?_ (.inl hf)
  have hr := (h.fit l).room
  unfold State.enterWaking
  rw [get_sendAwaiting, get_onLane, get_leaveTo, ds_sendAwaiting, ds_onLane, claim_leaveTo]
  exact .away (hr.same ⟨rfl, rfl, rfl, rfl, rfl⟩) rfl rfl hj

theorem LaneLaw.outside {s t : State} (h : LaneLaw s) (k : Outside s t) : LaneLaw t := h.eases k.eases

theorem LaneLaw.enterBringup {s : State} {l : Lane} (h : LaneLaw s) (hf : s.Free l)
    (hj : ∀ j, (s.al.get l).job ≠ some (.index j)) : LaneLaw (s.enterBringup l) := by
  refine LaneLaw.outside ?_ (outside_blockMissed _ l)
  refine h.moves ((moves_leaveTo s l .bringup).trans (moves_sendAwaiting _ l _ _)) ?_ (.inl hf)
  rw [get_sendAwaiting, get_leaveTo, ds_sendAwaiting, claim_leaveTo]
  exact .away ((h.fit l).room.same ⟨rfl, rfl, rfl, rfl, rfl⟩) rfl rfl hj

theorem LaneLaw.enterDown {s : State} {l : Lane} (h : LaneLaw s) (hf : s.Free l)
    (hj : ∀ j, (s.al.get l).job ≠ some (.index j)) : LaneLaw (s.enterDown l) :=
  (h.leaveTo hf rfl rfl hj).outside ((outside_setFlag _ _).trans (outside_blockMissed _ l))

/-- PAUSED is a state of rest, so that nothing may be outstanding. -/
theorem LaneLaw.enterPaused {s : State} {l : Lane} (h : LaneLaw s) (hf : s.Free l)
    (hj : ∀ j, (s.al.get l).job ≠ some (.index j)) (ht : (s.al.get l).timer = none) :
    LaneLaw (s.enterPaused l) := by
  refine LaneLaw.outside ?_ (outside_blockMissed _ l)
  refine h.moves (moves_leaveTo s l .paused) ?_ (.inl hf)
  rw [get_leaveTo, claim_leaveTo]
  exact .still ((h.fit l).room.same ⟨rfl, rfl, rfl, rfl, rfl⟩) ht hj (.none _)

theorem LaneLaw.enterFaulted {s : State} {l : Lane} (h : LaneLaw s) (hf : s.Free l)
    (hj : ∀ j, (s.al.get l).job ≠ some (.index j)) (c : FaultCause) : LaneLaw (s.enterFaulted l c) := by
  refine LaneLaw.outside ?_ ((outside_setFlag _ _).trans (outside_blockMissed _ l))
  refine h.moves ((moves_leaveTo s l .faulted).trans (moves_onLane _ l _)) ?_ (.inl hf)
  rw [get_onLane, get_leaveTo, ds_onLane, claim_leaveTo]
  exact .away ((h.fit l).room.same ⟨rfl, rfl, rfl, rfl, rfl⟩) rfl rfl hj

/-- A lane with nothing outstanding becomes READY. -/
theorem LaneLaw.ready {s : State} {l : Lane} (h : LaneLaw s) (hf : s.Free l)
    (hj : ∀ j, (s.al.get l).job ≠ some (.index j)) (ht : (s.al.get l).timer = none) :
    LaneLaw (s.setLaneState l .ready) := by
  refine h.moves (moves_onLane s l _) ?_ (.inl hf)
  unfold State.setLaneState
  rw [get_onLane, ds_onLane]
  exact .still ((h.fit l).room.same ⟨rfl, rfl, rfl, rfl, rfl⟩) ht hj
    fun c hs => ⟨rfl, ((h.fit l).claim c hs).2⟩

/-- A change of a lane that no law reads. -/
theorem LaneLaw.onLane {s : State} {l : Lane} {f : LaneUnit → LaneUnit} (h : LaneLaw s)
    (k : SameRoom (s.al.get l) (f (s.al.get l))) (h1 : (f (s.al.get l)).state = (s.al.get l).state)
    (h2 : (f (s.al.get l)).job = (s.al.get l).job) (h3 : (f (s.al.get l)).timer = (s.al.get l).timer) :
    LaneLaw (s.onLane l f) := by
  refine h.moves (moves_onLane s l f) ?_ (.inr fun hw => ?_)
  · rw [get_onLane]; exact (h.fit l).same k h1 h2 h3
  · rw [get_onLane]
    exact ⟨h1.trans hw.state, h3.trans hw.timer, k.dataFull.trans hw.dataFull, by rw [h2]; exact hw.job⟩

/-- The next state of a lane whose job has ended (R146). -/
theorem LaneLaw.nextLaneState {s : State} {l : Lane} (h : LaneLaw s) (hf : s.Free l)
    (hj : ∀ j, (s.al.get l).job ≠ some (.index j)) (ht : (s.al.get l).timer = none) :
    LaneLaw (s.nextLaneState l) := by
  have h1 : LaneLaw (s.onLane l fun a => { a with action := .none }) :=
    h.onLane ⟨rfl, rfl, rfl, rfl, rfl⟩ rfl rfl rfl
  have hf1 := hf.moves (moves_onLane s l fun a => { a with action := .none })
  have hj1 : ∀ j, ((s.onLane l fun a => { a with action := .none }).al.get l).job ≠ some (.index j) := by
    rw [get_onLane]; exact hj
  have ht1 : ((s.onLane l fun a => { a with action := .none }).al.get l).timer = none := by
    rw [get_onLane]; exact ht
  unfold State.nextLaneState
  dsimp only
  split
  · exact h1.enterPaused hf1 hj1 ht1
  · exact h1.enterParking hf1 hj1
  · refine (h1.ready hf1 hj1 ht1).eases (eases_placeClaim ?_)
    unfold State.setLaneState
    rw [get_onLane]
    rfl

/-! ### The start of a span write job (R138, R140) -/

/-- No span is longer than 2^23 samples. -/
def State.Short (s : State) : Prop := ∀ p ∈ s.st.slots, p.2.count ≤ 2 ^ 23

theorem State.Short.kept {s t : State} (h : s.Short) (k : Kept s t) : t.Short := fun p hp => by
  obtain ⟨x, hx, hk⟩ := k.spans p hp
  rw [hk.count]
  exact h _ hx

theorem State.Short.within {s t : State} (h : s.Short) (k : Within s t) : t.Short := h.kept k.kept

theorem State.Short.blocks {s : State} (h : s.Short) (slot : Nat) :
    1 + dataBlocks (((s.span? slot).map Span.count).getD 0) ≤ Config.largestSpanBlocks := by
  have : ((s.span? slot).map Span.count).getD 0 ≤ 2 ^ 23 := by
    cases hs : s.span? slot with
    | none => simp
    | some sp => exact h (slot, sp) (mem_of_findSlot hs)
  unfold dataBlocks Config.largestSpanBlocks Config.samplesPerBlock
  omega

theorem moves_moveCursors (s : State) (l : Lane) (f : LaneUnit → LaneUnit) :
    Moves l s (s.moveCursors l f) := by
  unfold State.moveCursors
  dsimp only
  split
  · exact (moves_onLane s l fun a => (f a).evaluated).trans ((outside_setFlag _ _).moves l)
  · exact moves_onLane s l fun a => (f a).evaluated

theorem get_moveCursors (s : State) (l : Lane) (f : LaneUnit → LaneUnit) :
    (s.moveCursors l f).al.get l = (f (s.al.get l)).evaluated := by
  unfold State.moveCursors
  dsimp only
  split
  · rw [(outside_setFlag _ _).al, get_onLane]
  · rw [get_onLane]

theorem moves_startSpanJob (s : State) (l : Lane) (slot : Nat) (r : Word16) (q : Word32) :
    Moves l s (s.startSpanJob l slot r q) := by
  unfold State.startSpanJob State.sendBurst
  exact (moves_moveCursors s l _).trans ((moves_setClaim _ l none).trans (moves_sendAwaiting _ l _ _))

theorem LaneLaw.startSpanJob {s : State} {l : Lane} (h : LaneLaw s) (hf : s.Free l) (hs : s.Short)
    (hd : (s.al.get l).dataFull = false) (slot : Nat) (r : Word16) (q : Word32) :
    LaneLaw (s.startSpanJob l slot r q) := by
  refine h.moves (moves_startSpanJob s l slot r q) ?_ (.inl hf)
  have hc : (s.startSpanJob l slot r q).ds.claim.get l = none := by
    unfold State.startSpanJob State.sendBurst
    rw [ds_sendAwaiting]
    cases l <;> rfl
  rw [hc]
  unfold State.startSpanJob State.sendBurst
  dsimp only
  rw [get_sendAwaiting]
  have hg : ∀ t : State, ∀ v, (t.setClaim l v).al = t.al := fun _ _ => rfl
  rw [hg, get_moveCursors]
  have hr : Room ({ s.al.get l with
      state := .busy
      job := some (.span { waitingJob slot r q with
        started := true, first := (s.lane l).dataCursor
        reserved := 1 + dataBlocks (((s.span? slot).map Span.count).getD 0)
        next := (s.lane l).dataCursor + 1, record := s.span? slot })
      dataCursor := (s.lane l).dataCursor + (1 + dataBlocks (((s.span? slot).map Span.count).getD 0)) } :
        LaneUnit).evaluated := by
    refine .evaluated ?_
    have h1 := hs.blocks slot
    have h2 := (h.fit l).dataFull
    rw [State.lane_eq] at h2
    rw [hd] at h2
    have h3 := of_decide_eq_false h2.symm
    unfold LaneUnit.free at h3
    push_cast at h1 h3 ⊢
    rw [State.lane_eq]
    omega
  exact .works (hr.same ⟨rfl, rfl, rfl, rfl, rfl⟩) rfl (fun e => by cases e) fun j e => by cases e

/-! ### A follower that joins, or cannot -/

theorem State.Free.none {s : State} (h : s.ds.pair = none) (l : Lane) : s.Free l :=
  fun c hc => by rw [h] at hc; cases hc

/-- The follower joins, and both lanes start (R119). -/
theorem LaneLaw.join {s : State} (h : LaneLaw s) (hs : s.Short) {c : PairContext}
    (hf : (s.al.get c.follower).dataFull = false) (hl : (s.al.get c.leader).dataFull = false) :
    LaneLaw (s.join c) := by
  have e := eases_setPair s (v := some { c with phase := .active }) fun d hd => by cases hd; exact fun e => by cases e
  have hfree : ∀ l, (s.setPair (some { c with phase := .active })).Free l := fun l d hd hp => by
    cases hd; cases hp
  have hs1 : (s.setPair (some { c with phase := .active })).Short := hs
  have k1 := moves_startSpanJob (s.setPair (some { c with phase := .active })) c.follower c.slot c.runId c.seq
  have h1 := (h.eases e).startSpanJob (hfree c.follower) hs1 hf c.slot c.runId c.seq
  have hne : c.leader ≠ c.follower := fun hc => Lane.other_ne c.leader hc.symm
  exact h1.startSpanJob ((hfree _).moves k1) (hs1.within (within_startSpanJob _ _ _ _ _))
    (by rw [k1.al _ hne]; exact hl) _ _ _

theorem moves_setJob (s : State) (l : Lane) (j : Option Job) : Moves l s (s.setJob l j) :=
  moves_onLane s l _

theorem LaneLaw.choices {s : State} (h : LaneLaw s) (n : Nat) : LaneLaw (s.setChoices n) := ⟨h.fit, h.forming⟩

/-- The leader's pair write ends with nothing reserved (R121). -/
theorem LaneLaw.endUnstarted {s : State} (h : LaneLaw s) {c : PairContext}
    (hp : s.ds.pair = some c) (hf : c.phase = .forming) : LaneLaw (s.endUnstarted c) := by
  have hw := h.forming c hp hf
  rw [State.lane_eq] at hw
  have e := eases_dissolve s c
  have hn : (s.dissolve c).ds.pair = none := by
    unfold State.dissolve
    rw [(outside_requeue _ _).ds]
    rfl
  have h1 := h.eases e
  have h2 : LaneLaw ((s.dissolve c).setJob c.leader none) := by
    refine h1.moves (moves_setJob _ c.leader none) ?_ (.inl (.none hn _))
    unfold State.setJob
    rw [get_onLane, ds_onLane, e.al]
    have hf := h1.fit c.leader
    rw [State.lane_eq, e.al] at hf
    refine .still (hf.room.same ⟨rfl, rfl, rfl, rfl, rfl⟩) hw.timer (fun j hj => by cases hj) hf.claim
  have hn2 : ((s.dissolve c).setJob c.leader none).ds.pair = none := hn
  have hj2 : ∀ j, (((s.dissolve c).setJob c.leader none).al.get c.leader).job ≠ some (.index j) := by
    unfold State.setJob
    rw [get_onLane]
    exact fun j hj => by cases hj
  have ht2 : (((s.dissolve c).setJob c.leader none).al.get c.leader).timer = none := by
    unfold State.setJob
    rw [get_onLane, e.al]
    exact hw.timer
  exact h2.nextLaneState (.none hn2 _) hj2 ht2

/-- The leader's pair write becomes a single write (R122). -/
theorem LaneLaw.startSingly {s : State} (h : LaneLaw s) (hs : s.Short) {c : PairContext}
    (hp : s.ds.pair = some c) (hf : c.phase = .forming) : LaneLaw (s.startSingly c) := by
  have hw := h.forming c hp hf
  rw [State.lane_eq] at hw
  exact (h.eases (eases_endPair s)).startSpanJob (.none rfl _) hs hw.dataFull _ _ _

theorem LaneLaw.convert {s : State} (h : LaneLaw s) (hs : s.Short) {c : PairContext}
    (hp : s.ds.pair = some c) (hf : c.phase = .forming) : LaneLaw (s.convert c) := by
  unfold State.convert
  split
  · exact h.startSingly hs hp hf
  · dsimp only
    split
    · exact (h.choices (s.choices + 1)).endUnstarted hp hf
    · exact (h.choices (s.choices + 1)).startSingly hs hp hf

/-- The follower of a FORMING pair is lost (R121, R122). -/
theorem LaneLaw.followerLost {s : State} (h : LaneLaw s) (hs : s.Short) {c : PairContext}
    (hp : s.ds.pair = some c) (hf : c.phase = .forming) : LaneLaw (s.followerLost c) := by
  unfold State.followerLost
  split
  · exact (h.endUnstarted hp hf).eases (eases_roleEnded _ _)
  · exact (h.convert hs hp hf).eases (eases_roleEnded _ _)

theorem LaneLaw.checkFollower {s : State} (h : LaneLaw s) (hs : s.Short) (l : Lane) :
    LaneLaw (s.checkFollower l) := by
  unfold State.checkFollower
  split
  · next c hc =>
    split
    · next hk => exact h.followerLost hs hc hk.1
    · exact h
  · exact h

/-- A lane with nothing outstanding enters READY: it joins, is lost to its pair, or claims. -/
theorem LaneLaw.enterReady {s : State} {l : Lane} (h : LaneLaw s) (hs : s.Short) (hf : s.Free l)
    (hj : ∀ j, (s.al.get l).job ≠ some (.index j)) (ht : (s.al.get l).timer = none) :
    LaneLaw (s.enterReady l) := by
  have h1 := h.ready hf hj ht
  have k1 : Moves l s (s.setLaneState l .ready) := moves_onLane s l _
  have hs1 : (s.setLaneState l .ready).Short := hs.within (within_setLaneState _ _ _)
  unfold State.enterReady
  dsimp only
  split
  · next c hc =>
    split
    · next hk =>
      split
      · exact h1.followerLost hs1 hc hk.1
      · next hd =>
        have hw := h.forming c hc hk.1
        rw [State.lane_eq] at hw
        refine h1.join hs1 ?_ ?_
        · rw [hk.2]
          unfold State.setLaneState
          rw [get_onLane]
          exact Bool.eq_false_iff.2 hd
        · rw [k1.al _ (hf c hc hk.1)]
          exact hw.dataFull
    · exact h1
  · refine h1.eases (eases_placeClaim ?_)
    unfold State.setLaneState
    rw [get_onLane]
    rfl

theorem LaneLaw.afterJob {s : State} {l : Lane} (h : LaneLaw s) (hs : s.Short) (hf : s.Free l)
    (hj : ∀ j, (s.al.get l).job ≠ some (.index j)) (ht : (s.al.get l).timer = none) :
    LaneLaw (s.afterJob l) := by
  have h1 : LaneLaw (s.onLane l fun a => { a with action := .none }) :=
    h.onLane ⟨rfl, rfl, rfl, rfl, rfl⟩ rfl rfl rfl
  have hs1 : (s.onLane l fun a => { a with action := .none }).Short := hs
  have hf1 := hf.moves (moves_onLane s l fun a => { a with action := .none })
  have hj1 : ∀ j, ((s.onLane l fun a => { a with action := .none }).al.get l).job ≠ some (.index j) := by
    rw [get_onLane]; exact hj
  have ht1 : ((s.onLane l fun a => { a with action := .none }).al.get l).timer = none := by
    rw [get_onLane]; exact ht
  unfold State.afterJob
  dsimp only
  split
  · exact (h1.enterPaused hf1 hj1 ht1).checkFollower (hs1.within (within_enterPaused _ _)) l
  · exact h1.enterParking hf1 hj1
  · exact h1.enterReady hs1 hf1 hj1 ht1

theorem LaneLaw.faultLane {s : State} {l : Lane} (h : LaneLaw s) (hs : s.Short) (hf : s.Free l)
    (hj : ∀ j, (s.al.get l).job ≠ some (.index j)) (c : FaultCause) : LaneLaw (s.faultLane l c) :=
  (h.enterFaulted hf hj c).checkFollower (hs.within (within_enterFaulted _ _ _)) l

/-! ### The end of a job -/

/-- A lane has no job and nothing outstanding. -/
def State.Bare (s : State) (l : Lane) : Prop := (s.al.get l).job = none ∧ (s.al.get l).timer = none

theorem State.Bare.no_index {s : State} {l : Lane} (h : s.Bare l) :
    ∀ j, (s.al.get l).job ≠ some (.index j) := fun j hj => by rw [h.1] at hj; cases hj

theorem State.Bare.eases {s t : State} {l : Lane} (h : s.Bare l) (k : Eases s t) : t.Bare l := by
  unfold State.Bare
  rw [k.al]
  exact h

theorem bare_dropJob (s : State) (l : Lane) (d : Nat) : (s.dropJob l d).Bare l := by
  unfold State.Bare State.dropJob
  rw [get_onLane]
  exact ⟨rfl, rfl⟩

theorem State.Bare.onLane {s : State} {l : Lane} (h : s.Bare l) {f : LaneUnit → LaneUnit}
    (h1 : (f (s.al.get l)).job = (s.al.get l).job) (h2 : (f (s.al.get l)).timer = (s.al.get l).timer) :
    (s.onLane l f).Bare l := by
  unfold State.Bare
  rw [get_onLane]
  exact ⟨h1.trans h.1, h2.trans h.2⟩

theorem moves_dropJob (s : State) (l : Lane) (d : Nat) : Moves l s (s.dropJob l d) := moves_onLane s l _

theorem LaneFit.dropped {a : LaneUnit} {cl : Option Claim} (h : LaneFit a cl) (d : Nat) :
    LaneFit { a with job := none, timer := none, deadSpace := a.deadSpace + d } cl :=
  .still (h.room.same ⟨rfl, rfl, rfl, rfl, rfl⟩) rfl (fun j hj => by cases hj) h.claim

theorem Fits.dropJob {s : State} (h : Fits s) (l : Lane) (d : Nat) : Fits (s.dropJob l d) := by
  refine h.moves (moves_dropJob s l d) ?_
  unfold State.dropJob
  rw [get_onLane, ds_onLane]
  exact (h l).dropped d

theorem LaneLaw.dropJob {s : State} {l : Lane} (h : LaneLaw s) (hf : s.Free l) (d : Nat) :
    LaneLaw (s.dropJob l d) := by
  refine h.moves (moves_dropJob s l d) ?_ (.inl hf)
  unfold State.dropJob
  rw [get_onLane, ds_onLane]
  exact (h.fit l).dropped d

theorem LaneLaw.jobDone {s : State} {l : Lane} (h : LaneLaw s) (hs : s.Short) (hf : s.Free l)
    (j : SpanJob) : LaneLaw (s.jobDone l j) := by
  have h1 := (h.dropJob hf 0).onLane (l := l) (f := fun a => { a with failures := 0 })
    ⟨rfl, rfl, rfl, rfl, rfl⟩ rfl rfl rfl
  have b1 := (bare_dropJob s l 0).onLane (f := fun a => { a with failures := 0 }) rfl rfl
  have f1 : ((s.dropJob l 0).onLane l fun a => { a with failures := 0 }).Free l := hf
  have s1 : ((s.dropJob l 0).onLane l fun a => { a with failures := 0 }).Short := hs
  have e := eases_reportOutcome ((s.dropJob l 0).onLane l fun a => { a with failures := 0 }) l j .done
    ((s.lane l).address j.first)
  have b2 := b1.eases e
  exact (h1.eases e).afterJob (s1.within (within_reportOutcome _ _ _ _ _)) (f1.eases e) b2.no_index b2.2

theorem LaneLaw.jobFailed {s : State} {l : Lane} (h : LaneLaw s) (hs : s.Short) (hf : s.Free l)
    (j : SpanJob) (o : Outcome) : LaneLaw (s.jobFailed l j o) := by
  have h1 := (h.dropJob hf j.reserved).onLane (l := l) (f := fun a => { a with failures := a.failures + 1 })
    ⟨rfl, rfl, rfl, rfl, rfl⟩ rfl rfl rfl
  have b1 := (bare_dropJob s l j.reserved).onLane (f := fun a => { a with failures := a.failures + 1 }) rfl rfl
  have f1 : ((s.dropJob l j.reserved).onLane l fun a => { a with failures := a.failures + 1 }).Free l := hf
  have s1 : ((s.dropJob l j.reserved).onLane l fun a => { a with failures := a.failures + 1 }).Short := hs
  have e := eases_reportOutcome
    ((s.dropJob l j.reserved).onLane l fun a => { a with failures := a.failures + 1 }) l j o 0
  have h2 := h1.eases e
  have b2 := b1.eases e
  have f2 := f1.eases e
  have s2 := s1.within (within_reportOutcome _ l j o 0)
  unfold State.jobFailed
  dsimp only
  split
  · exact h2.faultLane s2 f2 b2.no_index _
  · split
    · exact h2.faultLane s2 f2 b2.no_index _
    · exact h2.afterJob s2 f2 b2.no_index b2.2

theorem eases_sendCancel (s : State) (l : Lane) : Eases s (s.sendCancel l) := by
  unfold State.sendCancel
  split
  · exact ⟨rfl, fun _ _ h => .inl h, fun _ h _ => h⟩
  · exact .refl s

/-- The end of the leader's write leaves no FORMING pair (R123). -/
theorem reportOutcome_leader {s : State} {l : Lane} {c : PairContext} (hp : s.ds.pair = some c)
    (hf : c.phase = .forming) (hl : c.leader = l) (j : SpanJob) (o : Outcome) (address : Nat) :
    ∀ d, (s.reportOutcome l j o address).ds.pair = some d → d.phase ≠ .forming := by
  intro d hd hdf
  unfold State.reportOutcome at hd
  rw [hp] at hd
  dsimp only at hd
  rw [if_pos ⟨hf, hl⟩] at hd
  have e : Eases ((s.onSpan c.slot fun sp => sp.noteOutcome o).setPair none)
      ((s.onSpan c.slot fun sp => sp.noteOutcome o).dissolve c).rolesEnded :=
    (outside_requeue _ _).eases.trans (eases_rolesEnded _)
  have := e.forming d hd hdf
  cases this

/-- A cancelled job leaves its lane out of every FORMING pair as leader (R123, R144). -/
theorem LaneLaw.cancelJob {s : State} (h : LaneLaw s) (l : Lane) :
    LaneLaw (s.cancelJob l) ∧ (s.cancelJob l).Free l ∧ ((s.cancelJob l).al.get l).job = none ∧
      ((s.al.get l).job ≠ none → (s.cancelJob l).Bare l) := by
  unfold State.cancelJob
  split
  · next j hj =>
    have e1 := eases_sendCancel s l
    have e2 := eases_reportOutcome ((s.sendCancel l).dropJob l j.reserved) l j .cancelled 0
    have b := (bare_dropJob (s.sendCancel l) l j.reserved).eases e2
    refine ⟨?_, ?_, b.1, fun _ => b⟩
    · by_cases hl : (s.sendCancel l).Free l
      · exact ((h.eases e1).dropJob hl _).eases e2
      · unfold State.Free at hl
        push Not at hl
        obtain ⟨c, hc, hcf, hcl⟩ := hl
        exact (((h.eases e1).fits.dropJob l j.reserved).eases e2).law
          (reportOutcome_leader (s := (s.sendCancel l).dropJob l j.reserved) hc hcf hcl _ _ _)
    · by_cases hl : (s.sendCancel l).Free l
      · exact (show ((s.sendCancel l).dropJob l j.reserved).Free l from hl).eases e2
      · unfold State.Free at hl
        push Not at hl
        obtain ⟨c, hc, hcf, hcl⟩ := hl
        exact fun d hd hdf => absurd hdf
          (reportOutcome_leader (s := (s.sendCancel l).dropJob l j.reserved) hc hcf hcl _ _ _ d hd)
  · next j hj =>
    have hfree : s.Free l := fun c hc hf hl => by
      obtain ⟨i, hi⟩ := (h.forming c hc hf).job
      rw [hl] at hi
      rw [hi] at hj
      cases hj
    have e1 := eases_sendCancel s l
    have h1 := (h.eases e1).dropJob (hfree.eases e1) 0
    have e2 := (outside_blockMissed ((s.sendCancel l).dropJob l 0) l).eases
    have b := (bare_dropJob (s.sendCancel l) l 0).eases e2
    exact ⟨h1.eases e2, (show ((s.sendCancel l).dropJob l 0).Free l from (hfree.eases e1 : (s.sendCancel l).Free l)).eases e2, b.1,
      fun _ => b⟩
  · next hj =>
    have hfree : s.Free l := fun c hc hf hl => by
      obtain ⟨i, hi⟩ := (h.forming c hc hf).job
      rw [hl] at hi
      rw [hi] at hj
      cases hj
    rw [State.lane_eq] at hj
    exact ⟨h, hfree, hj, fun hn => absurd hj hn⟩

/-! ### Forming a pair, and answering a claim -/

theorem LaneLaw.withdraw {s : State} (h : LaneLaw s) (l : Lane) : LaneLaw (s.setClaim l none) := by
  refine h.eases ⟨rfl, fun m c hc => .inl ?_, fun c hc _ => hc⟩
  by_cases hm : m = l
  · subst hm
    have : (s.setClaim m none).ds.claim.get m = none := by cases m <;> rfl
    rw [this] at hc
    cases hc
  · rw [← (moves_setClaim s l none).claim m hm]; exact hc

/-- The pair request reaches a follower that is pairable (R117, R118). -/
theorem LaneLaw.pairRequest {s : State} (h : LaneLaw s) (hs : s.Short) {c : PairContext}
    (hp : s.ds.pair = some c) (hf : c.phase = .forming) (hd : (s.al.get c.follower).dataFull = false) :
    LaneLaw (s.pairRequest c) := by
  have hw := h.forming c hp hf
  rw [State.lane_eq] at hw
  have h1 := h.withdraw c.follower
  have s1 : (s.setClaim c.follower none).Short := hs
  have f1 : (s.setClaim c.follower none).Free c.follower := fun d hd' _ hl => by
    have : s.ds.pair = some d := hd'
    rw [hp] at this
    cases this
    exact Lane.other_ne c.leader hl.symm
  have ha : (s.setClaim c.follower none).al = s.al := rfl
  unfold State.pairRequest
  dsimp only
  split
  · exact h1.join s1 hd hw.dataFull
  · split
    · next hk =>
      obtain ⟨h2, f2, b2, hb⟩ := h1.cancelJob c.follower
      have hb := hb (by
        rw [ha]
        intro hn
        have hk := hk.1
        unfold LaneUnit.writesSpan at hk
        rw [State.lane_eq, hn] at hk
        cases hk)
      exact h2.afterJob (s1.within (within_cancelJob _ _)) f2 hb.no_index hb.2
    · exact h1
  · exact h1.onLane ⟨rfl, rfl, rfl, rfl, rfl⟩ rfl rfl rfl
  · next hst =>
    refine h1.enterWaking f1 ?_
    rw [ha]
    rw [State.lane_eq] at hst
    exact (h.fits c.follower).no_index (by rw [hst]; decide)
  all_goals exact h1

/-- A READY lane that is not data-full forms a pair with a follower that is not (R116). -/
theorem LaneLaw.formPair {s : State} {l : Lane} (h : LaneLaw s) (hs : s.Short) {slot : Nat} {sp : Span}
    (hspan : s.span? slot = some sp) (hst : (s.al.get l).state = .ready)
    (hl : (s.al.get l).dataFull = false) (hd : (s.al.get l.other).dataFull = false) :
    LaneLaw (s.formPair l slot sp) := by
  have hfit := h.fit l
  rw [State.lane_eq] at hfit
  have ht : (s.al.get l).timer = none := hfit.rests (by rw [hst]; rfl)
  have o1 := outside_enter s slot { sp with state := .draining }
  have w1 : Within s (s.enter slot { sp with state := .draining }) :=
    within_enter _ _ _ (.of_span? hspan (by exact ⟨rfl, rfl, rfl, rfl, rfl, fun e => by cases e⟩))
  unfold State.formPair
  dsimp only
  generalize hc : (PairContext.mk slot sp.runId sp.seq l (s.settings sp.source).pairMode .forming
    ⟨.pending, .pending⟩) = c
  have hcl : c.leader = l := by rw [← hc]
  have hcf : c.phase = .forming := by rw [← hc]
  generalize s.enter slot { sp with state := .draining } = s1 at o1 w1 ⊢
  have h1 := h.eases o1.eases
  have ha : s1.al = s.al := o1.al
  have k : Moves l (s1.setPair (some c)) (((s1.setPair (some c)).leaveTo l .busy).setJob l
      (some (.span (waitingJob slot sp.runId sp.seq)))) :=
    (moves_leaveTo _ l _).trans (moves_setJob _ l _)
  have hg : (((s1.setPair (some c)).leaveTo l .busy).setJob l
      (some (.span (waitingJob slot sp.runId sp.seq)))).al.get l =
      { s.al.get l with state := .busy, job := some (.span (waitingJob slot sp.runId sp.seq)) } := by
    unfold State.setJob
    rw [get_onLane, get_leaveTo]
    rw [show (s1.setPair (some c)).al = s1.al from rfl, ha]
  have h2 : LaneLaw (((s1.setPair (some c)).leaveTo l .busy).setJob l
      (some (.span (waitingJob slot sp.runId sp.seq)))) := by
    refine ⟨Fits.moves (s := s1.setPair (some c)) (fun m => h1.fit m) k ?_, fun d hd' _ => ?_⟩
    · rw [hg]
      unfold State.setJob
      rw [ds_onLane, claim_leaveTo]
      exact .works (hfit.room.same ⟨rfl, rfl, rfl, rfl, rfl⟩) rfl (fun e => by cases e)
        fun j e => by cases e
    · have : d = c := by
        have : some c = some d := hd'
        cases this
        rfl
      rw [this, hcl, State.lane_eq, hg]
      exact ⟨rfl, ht, hl, _, rfl⟩
  refine h2.pairRequest ((hs.within w1).within ((within_setPair _ _).trans
    ((within_leaveTo _ _ _).trans (within_setJob _ _ _)))) rfl hcf ?_
  have hfl : c.follower = l.other := by rw [← hc]; rfl
  rw [hfl, k.al _ (Lane.other_ne l)]
  rw [show (s1.setPair (some c)).al = s1.al from rfl, ha]
  exact hd

/-- A READY or PARKED lane takes the index job (R145). -/
theorem LaneLaw.takeIndexJob {s : State} {l : Lane} (h : LaneLaw s)
    (hst : (s.al.get l).state.claims = true) (w : Writing) : LaneLaw (s.takeIndexJob l w) := by
  have hfit := h.fit l
  rw [State.lane_eq] at hfit
  have hb : (s.al.get l).state ≠ .busy := fun e => by rw [e] at hst; cases hst
  have hfree := h.free (.inl hb)
  have hj := hfit.no_index hb
  have ht : (s.al.get l).timer = none := hfit.rests (by revert hst; cases (s.al.get l).state <;> decide)
  unfold State.takeIndexJob
  dsimp only
  split
  · have h1 : LaneLaw (s.leaveTo l .busy) := by
      refine h.moves (moves_leaveTo s l .busy) ?_ (.inl hfree)
      rw [get_leaveTo, claim_leaveTo]
      exact .still (hfit.room.same ⟨rfl, rfl, rfl, rfl, rfl⟩) ht hj (.none _)
    have o := outside_blockMissed (s.leaveTo l .busy) l
    refine (h1.outside o).nextLaneState ((hfree.moves (moves_leaveTo s l .busy)).eases o.eases) ?_ ?_
    · rw [o.al, get_leaveTo]; exact hj
    · rw [o.al, get_leaveTo]; exact ht
  · next hi =>
    have k : Moves l s (((s.leaveTo l .busy).setJob l (some (.index
        { buffer := w.buffer, address := (s.lane l).indexAddress, retries := 0,
          image := s.imageFor l w }))).sendIndex l
        { buffer := w.buffer, address := (s.lane l).indexAddress, retries := 0, image := s.imageFor l w }) := by
      unfold State.sendIndex
      exact (moves_leaveTo s l _).trans ((moves_setJob _ l _).trans (moves_sendAwaiting _ l _ _))
    refine h.moves k ?_ (.inl hfree)
    unfold State.sendIndex State.setJob
    rw [get_sendAwaiting, get_onLane, get_leaveTo, ds_sendAwaiting, ds_onLane, claim_leaveTo]
    exact .works (hfit.room.same ⟨rfl, rfl, rfl, rfl, rfl⟩) rfl (fun e => by cases e)
      fun _ _ => Bool.eq_false_iff.2 hi

theorem pairable_room {s : State} {l : Lane} (h : s.pairable l = true) : (s.al.get l).dataFull = false := by
  unfold State.pairable at h
  simp only [State.lane_eq] at h
  split at h <;> first | cases h | simpa using (Bool.and_eq_true_iff.1 h).1

/-- A head that is taken as a pair has a follower with room (R105, R106). -/
theorem eligible_pair {s : State} {l : Lane} {sp : Span} (h : s.eligible l sp = some .pair) :
    s.pairable l.other = true := by
  unfold State.eligible at h
  repeat' split at h
  all_goals first
    | assumption
    | cases h

theorem take_of_bid {s : State} {l : Lane} {src : Source} {w : Bid} (h : s.bid l src = some w) :
    s.eligible l w.span = some w.take := by
  unfold State.bid at h
  split at h
  · next slot sp hh =>
    cases he : s.eligible l sp with
    | none => rw [he] at h; cases h
    | some t => rw [he] at h; cases h; exact he
  · cases h

theorem take_of_winner {s : State} {l : Lane} {w : Bid} (h : s.winner l = some w) :
    s.eligible l w.span = some w.take := by
  obtain ⟨src, hs⟩ := winner_bid h
  exact take_of_bid hs

/-- A FULL claim is answered with the winning head (R109, R110, R116). -/
theorem LaneLaw.assign {s : State} {l : Lane} {w : Bid} {cl : Claim} (h : LaneLaw s) (hs : s.Short)
    (hc : s.ds.claim.get l = some cl) (hk : cl.kind = .full) (hw : s.winner l = some w) :
    LaneLaw (s.assign l w) := by
  have hfit := h.fits l
  obtain ⟨hst, hfull⟩ := hfit.claim cl hc
  have hfull := hfull hk
  have hb : (s.al.get l).state ≠ .busy := fun e => by rw [e] at hst; cases hst
  have hfree := h.free (.inl hb)
  unfold State.assign
  rw [State.lane_eq]
  split
  · exact h.enterWaking hfree (hfit.no_index hb)
  · next hp =>
    have hspan := span?_of_winner hw
    have hr : (s.al.get l).state = .ready := by
      revert hst hp
      cases (s.al.get l).state <;> simp [LaneState.claims]
    split
    · have o := outside_enter s w.slot { w.span with state := .draining }
      have w1 : Within s (s.enter w.slot { w.span with state := .draining }) :=
        within_enter _ _ _ (.of_span? hspan (by exact ⟨rfl, rfl, rfl, rfl, rfl, fun e => by cases e⟩))
      exact (h.outside o).startSpanJob (hfree.eases o.eases) (hs.within w1) (by rw [o.al]; exact hfull) _ _ _
    · next ht =>
      have he := take_of_winner hw
      rw [ht] at he
      exact h.formPair hs hspan hr hfull (pairable_room (eligible_pair he))

theorem LaneLaw.answerIndex {s : State} {l : Lane} {cl : Claim} (h : LaneLaw s)
    (hc : s.ds.claim.get l = some cl) (w : Writing) : LaneLaw (s.answerIndex l w) := by
  have hfit := h.fits l
  obtain ⟨hst, -⟩ := hfit.claim cl hc
  have hb : (s.al.get l).state ≠ .busy := fun e => by rw [e] at hst; cases hst
  unfold State.answerIndex
  split
  · exact h.enterWaking (h.free (.inl hb)) (hfit.no_index hb)
  · exact h.takeIndexJob hst w

theorem outside_commitHeads (l : Lane) (src : Source) (fuel : Nat) (s : State) :
    Outside s (State.commitHeads l src fuel s) := by
  induction fuel generalizing s with
  | zero => exact .refl s
  | succ fuel ih =>
    unfold State.commitHeads
    split
    · split
      · exact (outside_commit _ _).trans ((outside_setFlag _ _).trans (ih _))
      · exact .refl s
    · exact .refl s

theorem outside_commitRepairs (s : State) (l : Lane) : Outside s (s.commitRepairs l) :=
  outside_forSources _ _ fun _ _ => outside_commitHeads _ _ _ _

theorem LaneLaw.answerSpan {s t : State} {l : Lane} {cl : Claim} (h : LaneLaw s) (hs : s.Short)
    (hc : s.ds.claim.get l = some cl) (hk : cl.kind = .full) (ht : s.answerSpan l = some t) : LaneLaw t := by
  unfold State.answerSpan at ht
  dsimp only at ht
  have o : Outside s (if s.hasRepairCommit l = true then s.commitRepairs l else s) := by
    split
    · exact outside_commitRepairs s l
    · exact .refl s
  have w1 : Within s (if s.hasRepairCommit l = true then s.commitRepairs l else s) := by
    split
    · exact within_commitRepairs s l
    · exact .refl s
  generalize (if s.hasRepairCommit l = true then s.commitRepairs l else s) = s1 at o w1 ht
  have h1 := h.outside o
  have hs1 := hs.within w1
  have hc1 : s1.ds.claim.get l = some cl := by rw [o.ds]; exact hc
  have step : ∀ {t : State}, (match s1.winner l with
      | some b => some (s1.assign l b)
      | none => if s.hasRepairCommit l = true then some s1 else none) = some t → LaneLaw t := by
    intro t ht
    split at ht
    · next b hb => cases ht; exact h1.assign hs1 hc1 hk hb
    · split at ht
      · cases ht; exact h1
      · cases ht
  split at ht
  · split at ht
    · cases ht; exact h1.answerIndex hc1 _
    · exact step ht
  · exact step ht

theorem LaneLaw.answer {s t : State} {l : Lane} (h : LaneLaw s) (hs : s.Short)
    (ht : s.answer l = some t) : LaneLaw t := by
  unfold State.answer at ht
  split at ht
  · cases ht
  · next cl hc =>
    split at ht
    · split at ht
      · cases ht; exact h.answerIndex hc _
      · split at ht
        · cases ht
        · split at ht
          · cases ht
          · next hk => exact h.answerSpan hs hc hk ht
    · split at ht
      · cases ht
      · split at ht
        · cases ht
        · next hk => exact h.answerSpan hs hc hk ht

theorem LaneLaw.answerOne {s t : State} (h : LaneLaw s) (hs : s.Short) (ht : s.answerOne = some t) :
    LaneLaw t := by
  unfold State.answerOne at ht
  split at ht
  · cases ht
  · next t0 h0 _ => cases ht; exact h.answer hs h0
  · next t1 _ h1 => cases ht; exact h.answer hs h1
  · next t0 t1 h0 h1 =>
    cases ht
    refine LaneLaw.choices ?_ _
    split
    · exact h.answer hs h0
    · exact h.answer hs h1

theorem LaneLaw.evaluateFor {fuel : Nat} {s : State} (h : LaneLaw s) (hs : s.Short) :
    LaneLaw (State.evaluateFor fuel s) := by
  induction fuel generalizing s with
  | zero => exact h
  | succ fuel ih =>
    unfold State.evaluateFor
    split
    · next t ht => exact ih (h.answerOne hs ht) (hs.within (within_answerOne ht))
    · exact h

theorem LaneLaw.evaluate {s : State} (h : LaneLaw s) (hs : s.Short) : LaneLaw s.evaluate :=
  h.evaluateFor hs

/-! ### A module's answers, and the timers of a lane (R136 to R151) -/

/-- A lane works on under a new tag. -/
theorem LaneLaw.resend {s : State} {l : Lane} {j : Job} (h : LaneLaw s) (hf : s.Free l)
    (hst : (s.al.get l).state = .busy) (hj : ∀ i, j = .index i → (s.al.get l).indexFull = false)
    (f : Word16 → LaneFrame) (time : Nat) : LaneLaw ((s.setJob l (some j)).sendAwaiting l f time) := by
  refine h.moves ((moves_setJob s l _).trans (moves_sendAwaiting _ l _ _)) ?_ (.inl hf)
  have hc := (h.fits l).no_claim (by rw [hst]; rfl)
  unfold State.setJob
  rw [get_sendAwaiting, get_onLane, ds_sendAwaiting, ds_onLane, hc]
  exact .works ((h.fits l).room.same ⟨rfl, rfl, rfl, rfl, rfl⟩) hst (fun e => by cases e)
    fun i e => hj i (by cases e; rfl)

theorem LaneLaw.ackSpan {s : State} {l : Lane} (h : LaneLaw s) (hs : s.Short) (hf : s.Free l)
    (hst : (s.al.get l).state = .busy) (j : SpanJob) : LaneLaw (s.ackSpan l j) := by
  unfold State.ackSpan
  split
  · exact h.jobDone hs hf j
  · unfold State.sendBurst
    exact h.resend hf hst (fun i e => by cases e) _ _

/-- The index cursor moves down past the block that was written (R145). -/
theorem LaneLaw.ackIndex {s : State} {l : Lane} (h : LaneLaw s) (hs : s.Short) (hf : s.Free l)
    {j : IndexJob} (hj : (s.al.get l).job = some (.index j)) (i : IndexJob) : LaneLaw (s.ackIndex l i) := by
  have hfit := h.fits l
  obtain ⟨hst, hfull⟩ := hfit.index j hj
  have hc := hfit.no_claim (by rw [hst]; rfl)
  have k : Moves l s ((s.dropJob l 0).moveCursors l fun a => { a with indexCursor := a.indexCursor - 1 }) :=
    (moves_dropJob s l 0).trans (moves_moveCursors _ l _)
  have hg : ((s.dropJob l 0).moveCursors l fun a => { a with indexCursor := a.indexCursor - 1 }).al.get l =
      ({ s.al.get l with
        job := none, timer := none, deadSpace := (s.al.get l).deadSpace + 0
        indexCursor := (s.al.get l).indexCursor - 1 } : LaneUnit).evaluated := by
    rw [get_moveCursors]
    unfold State.dropJob
    rw [get_onLane]
  have h1 : LaneLaw ((s.dropJob l 0).moveCursors l fun a => { a with indexCursor := a.indexCursor - 1 }) := by
    refine h.moves k ?_ (.inl hf)
    have hd : ((s.dropJob l 0).moveCursors l fun a =>
        { a with indexCursor := a.indexCursor - 1 }).ds.claim.get l = none := by
      unfold State.moveCursors
      dsimp only
      split
      · rw [(outside_setFlag _ _).ds]; exact hc
      · exact hc
    rw [hd, hg]
    refine .still (.evaluated ?_) rfl (fun i e => by cases e) (.none _)
    have h2 := hfit.indexFull
    rw [hfull] at h2
    have h3 := of_decide_eq_false h2.symm
    unfold LaneUnit.free at h3
    show ((s.al.get l).dataCursor : Int) ≤ (s.al.get l).indexCursor - 1 + 1
    omega
  have o := outside_blockWritten
    ((s.dropJob l 0).moveCursors l fun a => { a with indexCursor := a.indexCursor - 1 }) l i.address
  have b : State.Bare (((s.dropJob l 0).moveCursors l fun a =>
      { a with indexCursor := a.indexCursor - 1 }).blockWritten l i.address) l := by
    unfold State.Bare
    rw [o.al, hg]
    exact ⟨rfl, rfl⟩
  have w : Within s (((s.dropJob l 0).moveCursors l fun a =>
      { a with indexCursor := a.indexCursor - 1 }).blockWritten l i.address) :=
    (within_dropJob s l 0).trans ((within_moveCursors _ l (fun a => { a with indexCursor := a.indexCursor - 1 })
      ⟨rfl, rfl, rfl, rfl, rfl, le_refl _, by simp [LaneUnit.evaluated], le_refl _⟩).trans
        (within_blockWritten _ _ _))
  exact (h1.outside o).afterJob (hs.within w) ((hf.moves k).eases o.eases) b.no_index b.2

theorem LaneLaw.indexFailed {s : State} {l : Lane} (h : LaneLaw s) (hf : s.Free l) :
    LaneLaw (s.indexFailed l) ∧ (s.indexFailed l).Free l ∧ (s.indexFailed l).Bare l := by
  have e : Eases (s.dropJob l 0) (s.indexFailed l) :=
    ((outside_setFlag _ _).trans (outside_blockMissed _ l)).eases
  exact ⟨(h.dropJob hf 0).eases e, (hf.moves (moves_dropJob s l 0)).eases e, (bare_dropJob s l 0).eases e⟩

theorem LaneLaw.takeAck {s : State} {l : Lane} (h : LaneLaw s) (hs : s.Short) (hf : s.Free l)
    (hst : (s.al.get l).state = .busy) : LaneLaw (s.takeAck l) := by
  unfold State.takeAck
  split
  · exact h.ackSpan hs hf hst _
  · next j hj => exact h.ackIndex hs hf hj j
  · exact h

theorem LaneLaw.takeRetry {s : State} {l : Lane} (h : LaneLaw s) (hs : s.Short) (hf : s.Free l)
    (hst : (s.al.get l).state = .busy) : LaneLaw (s.takeRetry l) := by
  unfold State.takeRetry
  split
  · split
    · unfold State.sendBurst
      exact h.resend hf hst (fun i e => by cases e) _ _
    · exact h.jobFailed hs hf _ _
  · next j hj =>
    split
    · unfold State.sendIndex
      exact h.resend hf hst (fun i _ => ((h.fits l).index j hj).2) _ _
    · obtain ⟨h1, f1, b1⟩ := h.indexFailed hf
      exact h1.afterJob (hs.within (within_indexFailed s l)) f1 b1.no_index b1.2
  · exact h

theorem LaneLaw.takeFault {s : State} {l : Lane} (h : LaneLaw s) (hs : s.Short) (hf : s.Free l) :
    LaneLaw (s.takeFault l) := by
  unfold State.takeFault
  split
  · exact h.jobFailed hs hf _ _
  · obtain ⟨h1, f1, b1⟩ := h.indexFailed hf
    exact h1.afterJob (hs.within (within_indexFailed s l)) f1 b1.no_index b1.2
  · exact h

theorem LaneLaw.writeTimeout {s : State} {l : Lane} (h : LaneLaw s) (hs : s.Short) (hf : s.Free l) :
    LaneLaw (s.writeTimeout l) := by
  unfold State.writeTimeout
  split
  · exact h.jobFailed hs hf _ _
  · obtain ⟨h1, f1, b1⟩ := h.indexFailed hf
    exact h1.faultLane (hs.within (within_indexFailed s l)) f1 b1.no_index _
  · exact h

/-- The exchange that a lane awaits is over. -/
theorem LaneLaw.stopTimer {s : State} {l : Lane} (h : LaneLaw s) (hf : s.Free l)
    (hj : ∀ j, (s.al.get l).job ≠ some (.index j)) {f : LaneUnit → LaneUnit}
    (k : SameRoom (s.al.get l) (f (s.al.get l))) (h1 : (f (s.al.get l)).state = (s.al.get l).state)
    (h2 : (f (s.al.get l)).job = (s.al.get l).job) (h3 : (f (s.al.get l)).timer = none) :
    LaneLaw (s.onLane l f) := by
  refine h.moves (moves_onLane s l f) ?_ (.inl hf)
  rw [get_onLane, ds_onLane]
  refine .still ((h.fits l).room.same k) h3 (by rw [h2]; exact hj) fun c hc => ?_
  rw [h1, k.dataFull]
  exact (h.fits l).claim c hc

theorem SameRoom.adopt {a : LaneUnit} (h : Room a) (r : ModuleReport) : SameRoom a (a.adopt r) :=
  ⟨rfl, rfl, rfl, h.dataFull.symm, h.indexFull.symm⟩

theorem LaneLaw.bringupDone {s : State} {l : Lane} (h : LaneLaw s) (hs : s.Short) (hf : s.Free l)
    (hj : ∀ j, (s.al.get l).job ≠ some (.index j)) (ht : (s.al.get l).timer = none) (r : ModuleReport) :
    LaneLaw (s.bringupDone l r) := by
  have h1 : LaneLaw (s.onLane l fun a => a.adopt r) :=
    h.onLane (.adopt (h.fits l).room r) rfl rfl rfl
  have o1 := outside_setFlag (s.onLane l fun a => a.adopt r) (laneChangeFlag l)
  have w1 := within_setFlag (s.onLane l fun a => a.adopt r) (laneChangeFlag l)
  have o2 : Outside (s.onLane l fun a => a.adopt r)
      (if (((s.onLane l fun a => a.adopt r).setFlag (laneChangeFlag l)).lane l).dataFull then
        ((s.onLane l fun a => a.adopt r).setFlag (laneChangeFlag l)).setFlag .archiveFull
      else (s.onLane l fun a => a.adopt r).setFlag (laneChangeFlag l)) := by
    split
    · exact o1.trans (outside_setFlag _ _)
    · exact o1
  have w2 : Within (s.onLane l fun a => a.adopt r)
      (if (((s.onLane l fun a => a.adopt r).setFlag (laneChangeFlag l)).lane l).dataFull then
        ((s.onLane l fun a => a.adopt r).setFlag (laneChangeFlag l)).setFlag .archiveFull
      else (s.onLane l fun a => a.adopt r).setFlag (laneChangeFlag l)) := by
    split
    · exact w1.trans (within_setFlag _ _)
    · exact w1
  have hs1 : (s.onLane l fun a => a.adopt r).Short := hs
  have hf1 := hf.moves (moves_onLane s l fun a => a.adopt r)
  refine (h1.outside o2).enterReady (hs1.within w2) (hf1.eases o2.eases) ?_ ?_
  · rw [o2.al, get_onLane]; exact hj
  · rw [o2.al, get_onLane]; exact ht

theorem LaneLaw.takeReport {s : State} {l : Lane} (h : LaneLaw s) (hs : s.Short)
    (hst : (s.al.get l).state = .bringup) (r : ModuleReport) : LaneLaw (s.takeReport l r) := by
  have hb : (s.al.get l).state ≠ .busy := by rw [hst]; decide
  have hf := h.free (.inl hb)
  have hj := (h.fits l).no_index hb
  have h1 : LaneLaw (s.onLane l fun a => { a with timer := none, report := some r }) :=
    h.stopTimer hf hj ⟨rfl, rfl, rfl, rfl, rfl⟩ rfl rfl rfl
  have hs1 : (s.onLane l fun a => { a with timer := none, report := some r }).Short := hs
  have hf1 := hf.moves (moves_onLane s l fun a => { a with timer := none, report := some r })
  have hj1 : ∀ j, ((s.onLane l fun a => { a with timer := none, report := some r }).al.get l).job ≠
      some (.index j) := by rw [get_onLane]; exact hj
  unfold State.takeReport
  dsimp only
  split
  · exact h1.faultLane hs1 hf1 hj1 _
  · exact h1.bringupDone hs1 hf1 hj1 (by rw [get_onLane]) r

theorem LaneLaw.takeParked {s : State} {l : Lane} (h : LaneLaw s)
    (hst : (s.al.get l).state = .parking) : LaneLaw (s.takeParked l) := by
  have hb : (s.al.get l).state ≠ .busy := by rw [hst]; decide
  have hf := h.free (.inl hb)
  have hj := (h.fits l).no_index hb
  have hc := (h.fits l).no_claim (by rw [hst]; rfl)
  have k : Moves l s ((s.onLane l fun a => { a with timer := none }).setLaneState l .parked) :=
    (moves_onLane s l _).trans (moves_onLane _ l _)
  have hg : ((s.onLane l fun a => { a with timer := none }).setLaneState l .parked).al.get l =
      { s.al.get l with timer := none, state := .parked } := by
    unfold State.setLaneState
    rw [get_onLane, get_onLane]
  have h1 : LaneLaw ((s.onLane l fun a => { a with timer := none }).setLaneState l .parked) := by
    refine h.moves k ?_ (.inl hf)
    rw [hg, show ((s.onLane l fun a => { a with timer := none }).setLaneState l .parked).ds = s.ds from rfl, hc]
    exact .still ((h.fits l).room.same ⟨rfl, rfl, rfl, rfl, rfl⟩) rfl hj (.none _)
  have o := outside_setFlag ((s.onLane l fun a => { a with timer := none }).setLaneState l .parked)
    (laneChangeFlag l)
  unfold State.takeParked
  dsimp only
  split
  · exact (h1.outside o).enterWaking ((hf.moves k).eases o.eases) (by rw [o.al, hg]; exact hj)
  · exact (h1.outside o).eases (eases_placeClaim (by rw [o.al, hg]; rfl))

theorem LaneLaw.takeAwake {s : State} {l : Lane} (h : LaneLaw s) (hs : s.Short)
    (hst : (s.al.get l).state = .waking) : LaneLaw (s.takeAwake l) := by
  have hb : (s.al.get l).state ≠ .busy := by rw [hst]; decide
  have hf := h.free (.inl hb)
  have hj := (h.fits l).no_index hb
  have h1 : LaneLaw (s.onLane l fun a => { a with timer := none }) :=
    h.stopTimer hf hj ⟨rfl, rfl, rfl, rfl, rfl⟩ rfl rfl rfl
  have o := outside_setFlag (s.onLane l fun a => { a with timer := none }) (laneChangeFlag l)
  refine (h1.outside o).enterReady
    (hs.within ((within_stopTimer s l).trans (within_setFlag _ _)))
    ((hf.moves (moves_onLane s l fun a => { a with timer := none })).eases o.eases) ?_ ?_
  · rw [o.al, get_onLane]; exact hj
  · rw [o.al, get_onLane]

/-! ### The law as a whole -/

theorem SpanLaw.kept {s t : State} (h : SpanLaw s) (k : Kept s t) : SpanLaw t where
  spanExp src := by rw [k.settings]; exact h.spanExp src
  count p hp := by
    obtain ⟨x, hx, hk⟩ := k.spans p hp
    rw [hk.count]
    exact h.count _ hx
  filling p hp hf := by
    obtain ⟨x, hx, hk⟩ := k.spans p hp
    rw [hk.count, hk.source, k.settings]
    exact h.filling _ hx (hk.filling hf)
  one p hp q hq hpf hqf hs := by
    obtain ⟨x, hx, hkx⟩ := k.spans p hp
    obtain ⟨y, hy, hky⟩ := k.spans q hq
    exact h.one (p.1, x) hx (q.1, y) hy (hkx.filling hpf) (hky.filling hqf) (hkx.source.symm.trans (hs.trans hky.source))

/-- The law of the spans reads the table and the span lengths. -/
theorem SpanLaw.congr {s t : State} (h : SpanLaw s) (hst : t.st = s.st)
    (hset : ∀ src, (t.settings src).spanExp = (s.settings src).spanExp) : SpanLaw t where
  spanExp src := by rw [hset]; exact h.spanExp src
  count := by rw [hst]; exact h.count
  filling p hp hf := by rw [hset]; exact h.filling p (hst ▸ hp) hf
  one := by rw [hst]; exact h.one

/-- An effect that keeps the law of the archive windows. -/
structure Windowed (s t : State) : Prop where
  law : WindowLaw s → WindowLaw t

theorem Windowed.refl (s : State) : Windowed s s := ⟨id⟩

theorem Windowed.trans {s t u : State} (h : Windowed s t) (k : Windowed t u) : Windowed s u := ⟨k.law ∘ h.law⟩

theorem Within.windowed {s t : State} (h : Within s t) (k : LaneLaw s → s.Short → LaneLaw t) :
    Windowed s t := ⟨fun w => ⟨k w.lanes w.spans.count, w.spans.kept h.kept⟩⟩

/-- An effect outside the lanes. -/
theorem Outside.windowed {s t : State} (o : Outside s t) (h : Within s t) : Windowed s t :=
  h.windowed fun w _ => w.outside o

/-- A change of parts of the state that the law does not read. -/
theorem windowed_congr {s t : State} (h1 : t.al = s.al) (h2 : t.ds = s.ds) (hst : t.st = s.st)
    (hset : ∀ src, (t.settings src).spanExp = (s.settings src).spanExp) : Windowed s t :=
  ⟨fun w => ⟨w.lanes.eases ⟨h1, fun _ _ hc => .inl (by rw [← h2]; exact hc), fun _ hc _ => by rw [← h2]; exact hc⟩,
    w.spans.congr hst hset⟩⟩

theorem windowed_evaluate (s : State) : Windowed s s.evaluate :=
  (within_evaluate s).windowed fun h hs => h.evaluate hs

/-! ### Rows of the storage modules -/

theorem awaits_state {s : State} {l : Lane} {st : LaneState} {tag : Word16} (h : s.awaits l st tag = true) :
    (s.al.get l).state = st ∧ (s.al.get l).timer.isSome = true := by
  unfold State.awaits at h
  simp only [State.lane_eq, Bool.and_eq_true, beq_iff_eq] at h
  exact h.1

/-- A module report leaves the spans as the lane's next state does. -/
theorem SpanLaw.takeReport {s : State} (h : SpanLaw s) (l : Lane) (r : ModuleReport) :
    SpanLaw (s.takeReport l r) := by
  have h1 := h.congr (t := s.onLane l fun a => { a with timer := none, report := some r }) rfl fun _ => rfl
  unfold State.takeReport
  dsimp only
  split
  · exact h1.kept (within_faultLane _ l _).kept
  · unfold State.bringupDone
    dsimp only
    have h2 := h1.congr (t := (s.onLane l fun a => { a with timer := none, report := some r }).onLane l
      fun a => a.adopt r) rfl fun _ => rfl
    have h3 := h2.kept (within_setFlag _ (laneChangeFlag l)).kept
    split
    · exact h3.kept ((within_setFlag _ _).trans (within_enterReady _ _)).kept
    · exact h3.kept (within_enterReady _ _).kept

theorem windowed_onHelloReply (s : State) (l : Lane) (tag : Word16) (r : ModuleReport) :
    Windowed s (s.onHelloReply l tag r) := by
  unfold State.onHelloReply
  split
  · next ha =>
    exact Windowed.trans
      ⟨fun w => ⟨w.lanes.takeReport w.spans.count (awaits_state ha).1 r, w.spans.takeReport l r⟩⟩
      (windowed_evaluate _)
  · exact .refl s

theorem windowed_onAck (s : State) (l : Lane) (tag : Word16) : Windowed s (s.onAck l tag) := by
  unfold State.onAck
  split
  · next ha =>
    obtain ⟨h1, h2⟩ := awaits_state ha
    exact ((within_takeAck s l).windowed fun h hs => h.takeAck hs (h.free (.inr h2)) h1).trans
      (windowed_evaluate _)
  · exact .refl s

theorem windowed_onRetry (s : State) (l : Lane) (tag : Word16) : Windowed s (s.onRetry l tag) := by
  unfold State.onRetry
  split
  · next ha =>
    obtain ⟨h1, h2⟩ := awaits_state ha
    exact ((within_takeRetry s l).windowed fun h hs => h.takeRetry hs (h.free (.inr h2)) h1).trans
      (windowed_evaluate _)
  · exact .refl s

theorem windowed_onFault (s : State) (l : Lane) (tag : Word16) : Windowed s (s.onFault l tag) := by
  unfold State.onFault
  split
  · next ha =>
    obtain ⟨-, h2⟩ := awaits_state ha
    exact ((within_takeFault s l).windowed fun h hs => h.takeFault hs (h.free (.inr h2))).trans
      (windowed_evaluate _)
  · exact .refl s

theorem windowed_onParked (s : State) (l : Lane) (tag : Word16) : Windowed s (s.onParked l tag) := by
  unfold State.onParked
  split
  · next ha =>
    exact ((within_takeParked s l).windowed fun h _ => h.takeParked (awaits_state ha).1).trans
      (windowed_evaluate _)
  · exact .refl s

theorem windowed_onAwake (s : State) (l : Lane) (tag : Word16) : Windowed s (s.onAwake l tag) := by
  unfold State.onAwake
  split
  · next ha =>
    exact ((within_takeAwake s l).windowed fun h hs => h.takeAwake hs (awaits_state ha).1).trans
      (windowed_evaluate _)
  · exact .refl s

/-- A lane in no state of work faults. -/
theorem windowed_faultLane {s : State} {l : Lane} (hst : (s.al.get l).state ≠ .busy) (c : FaultCause) :
    Windowed s (s.faultLane l c).evaluate :=
  ((within_faultLane s l c).windowed fun h hs =>
    h.faultLane hs (h.free (.inl hst)) ((h.fits l).no_index hst) c).trans (windowed_evaluate _)

theorem windowed_writeTimeout {s : State} {l : Lane} (ht : (s.al.get l).timer.isSome = true) :
    Windowed s (s.writeTimeout l).evaluate :=
  ((within_writeTimeout s l).windowed fun h hs => h.writeTimeout hs (h.free (.inr ht))).trans
    (windowed_evaluate _)

/-- A lane that is at rest parks. -/
theorem windowed_enterParking {s : State} {l : Lane} (hst : (s.al.get l).state ≠ .busy) :
    Windowed s (s.enterParking l).evaluate :=
  ((within_enterParking s l).windowed fun h _ =>
    h.enterParking (h.free (.inl hst)) ((h.fits l).no_index hst)).trans (windowed_evaluate _)

theorem windowed_enterWaking {s : State} {l : Lane} (hst : (s.al.get l).state ≠ .busy) :
    Windowed s (s.enterWaking l).evaluate :=
  ((within_enterWaking s l).windowed fun h _ =>
    h.enterWaking (h.free (.inl hst)) ((h.fits l).no_index hst)).trans (windowed_evaluate _)

/-- A change of a lane that no law reads. -/
theorem windowed_onLane (s : State) (l : Lane) {f : LaneUnit → LaneUnit}
    (k : SameRoom (s.al.get l) (f (s.al.get l))) (h1 : (f (s.al.get l)).state = (s.al.get l).state)
    (h2 : (f (s.al.get l)).job = (s.al.get l).job) (h3 : (f (s.al.get l)).timer = (s.al.get l).timer) :
    Windowed s (s.onLane l f) :=
  ⟨fun w => ⟨w.lanes.onLane k h1 h2 h3, w.spans.congr rfl fun _ => rfl⟩⟩

theorem windowed_takeAttention (s : State) (l : Lane) : Windowed s (s.takeAttention l) := by
  have h1 : Windowed s (s.onLane l fun a => { a with attentionSeen := true }) :=
    windowed_onLane s l ⟨rfl, rfl, rfl, rfl, rfl⟩ rfl rfl rfl
  have hg : ((s.onLane l fun a => { a with attentionSeen := true }).al.get l).state = (s.al.get l).state := by
    rw [get_onLane]
  unfold State.takeAttention
  dsimp only
  split
  · split
    · next hst =>
      rw [State.lane_eq] at hst
      exact h1.trans (windowed_enterWaking (by rw [hg, hst]; decide))
    · exact h1.trans (windowed_onLane _ l ⟨rfl, rfl, rfl, rfl, rfl⟩ rfl rfl rfl)
    all_goals exact h1
  · exact h1

/-! ### Commands of a lane -/

/-- SET LANE puts an index cursor no lower than the data cursor less 1 (R134). -/
theorem decodeLane_cursors {p : List Byte} {o : LaneOperands} (h : decodeLane p = some o) :
    (o.dataCursor : Int) ≤ (o.indexCursor : Int) + 1 := by
  unfold decodeLane at h
  simp only [Option.bind_eq_bind, Option.bind_eq_some_iff] at h
  obtain ⟨k, -, d, -, i, -, r, -, b, -, rt, -, rs, -, w, -, a, -, h⟩ := h
  split at h
  · next hc => cases h; have := hc.1; simp only; omega
  · cases h

theorem windowed_setLane {s : State} {l : Lane} {o : LaneOperands} (hst : (s.al.get l).state.settable = true)
    (ho : (o.dataCursor : Int) ≤ (o.indexCursor : Int) + 1) : Windowed s (s.setLane l o) := by
  have hb : (s.al.get l).state ≠ .busy := fun e => by rw [e] at hst; cases hst
  have h1 : Windowed s ((s.onLane l fun a => a.adoptSettings o).enterBringup l) := by
    refine ⟨fun w => ⟨?_, ?_⟩⟩
    · refine LaneLaw.outside ?_ (outside_blockMissed _ l)
      have hf := w.lanes.free (.inl hb)
      refine w.lanes.moves ((moves_onLane s l fun a => a.adoptSettings o).trans
        ((moves_leaveTo _ l .bringup).trans (moves_sendAwaiting _ l _ _))) ?_ (.inl hf)
      rw [get_sendAwaiting, get_leaveTo, get_onLane, ds_sendAwaiting, claim_leaveTo]
      refine .away (Room.same (a := (s.al.get l).adoptSettings o) ?_ ⟨rfl, rfl, rfl, rfl, rfl⟩) rfl rfl
        ((w.lanes.fits l).no_index hb)
      exact .evaluated ho
    · exact (w.spans.congr (t := s.onLane l fun a => a.adoptSettings o) rfl fun _ => rfl).kept
        (within_enterBringup _ _).kept
  exact h1.trans (windowed_evaluate _)

/-- A lane whose job has been cancelled, cleared (R152). -/
theorem windowed_cleared (s : State) (l : Lane) {f : LaneUnit → LaneUnit} {g : State → State}
    (hf : ∀ a : LaneUnit, SameRoom a (f a) ∧ (f a).state = a.state ∧ (f a).job = a.job ∧ (f a).timer = none)
    (hg : ∀ t : State, LaneLaw t → t.Free l → (∀ j, (t.al.get l).job ≠ some (.index j)) → LaneLaw (g t))
    (hk : ∀ t, Within t (g t)) :
    Windowed s ((g ((s.cancelJob l).onLane l f)).checkFollower l).evaluate := by
  refine Windowed.trans ⟨fun w => ?_⟩ (windowed_evaluate _)
  obtain ⟨h1, f1, j1, -⟩ := w.lanes.cancelJob l
  have n1 : ∀ j, ((s.cancelJob l).al.get l).job ≠ some (.index j) := fun j e => by rw [j1] at e; cases e
  obtain ⟨k1, k2, k3, k4⟩ := hf ((s.cancelJob l).al.get l)
  have h2 := h1.stopTimer f1 n1 k1 k2 k3 k4
  have f2 := f1.moves (moves_onLane (s.cancelJob l) l f)
  have h3 := hg _ h2 f2 (by rw [get_onLane, k3]; exact n1)
  have sp1 := (w.spans.kept (within_cancelJob s l).kept).congr (t := (s.cancelJob l).onLane l f) rfl fun _ => rfl
  have sp2 := sp1.kept (hk _).kept
  exact ⟨h3.checkFollower sp2.count l, sp2.kept (within_checkFollower _ _).kept⟩

theorem windowed_laneReset (l : Lane) (s : State) : Windowed s (State.laneReset l s) :=
  windowed_cleared s l (f := fun a => { a.cleared with failures := 0 }) (g := fun t => t.enterBringup l)
    (fun _ => ⟨⟨rfl, rfl, rfl, rfl, rfl⟩, rfl, rfl, rfl⟩) (fun _ h hf hj => h.enterBringup hf hj)
    fun t => within_enterBringup t l

theorem windowed_laneOffline (l : Lane) (s : State) : Windowed s (State.laneOffline l s) := by
  unfold State.laneOffline
  split
  · exact .refl s
  · exact windowed_cleared s l (f := LaneUnit.cleared) (g := fun t => t.enterDown l)
      (fun _ => ⟨⟨rfl, rfl, rfl, rfl, rfl⟩, rfl, rfl, rfl⟩) (fun _ h hf hj => h.enterDown hf hj)
      fun t => within_enterDown t l

theorem windowed_lanePause (l : Lane) (s : State) : Windowed s (State.lanePause l s) := by
  unfold State.lanePause
  split
  · next hst =>
    rw [State.lane_eq] at hst
    have hb : (s.al.get l).state ≠ .busy := by rw [hst]; decide
    exact ((within_enterPaused s l).windowed fun h _ => h.enterPaused (h.free (.inl hb))
      ((h.fits l).no_index hb) ((h.fits l).rests (by rw [hst]; rfl))).trans (windowed_evaluate _)
  · exact windowed_onLane s l ⟨rfl, rfl, rfl, rfl, rfl⟩ rfl rfl rfl

theorem windowed_laneResume {s : State} {l : Lane} (hst : (s.al.get l).state = .paused) :
    Windowed s (State.laneResume l s) := by
  have hb : (s.al.get l).state ≠ .busy := by rw [hst]; decide
  exact ((within_enterReady s l).windowed fun h hs => h.enterReady hs (h.free (.inl hb))
    ((h.fits l).no_index hb) ((h.fits l).rests (by rw [hst]; rfl))).trans (windowed_evaluate _)

theorem windowed_lanePark (l : Lane) (s : State) : Windowed s (State.lanePark l s) := by
  unfold State.lanePark
  split
  · next hst =>
    rw [State.lane_eq] at hst
    exact windowed_enterParking (by rw [hst]; decide)
  · exact windowed_onLane s l ⟨rfl, rfl, rfl, rfl, rfl⟩ rfl rfl rfl
  all_goals exact .refl s

theorem windowed_laneWake (l : Lane) (s : State) : Windowed s (State.laneWake l s) := by
  unfold State.laneWake
  split
  · next hst =>
    rw [State.lane_eq] at hst
    exact windowed_enterWaking (by rw [hst]; decide)
  · exact windowed_onLane s l ⟨rfl, rfl, rfl, rfl, rfl⟩ rfl rfl rfl
  all_goals exact .refl s

/-! ### Samples (R11, R48, R52) -/

/-- What stands in a table after a slot is set: the new record in its slot, and the others elsewhere. -/
theorem mem_putSlot_ne {l : List (Nat × Span)} {k : Nat} {v : Span} {p : Nat × Span}
    (hl : slotsFrom 0 l = true) (hn : slotsFrom 0 (putSlot l k v) = true) (h : p ∈ putSlot l k v) :
    p = (k, v) ∨ (p.1 ≠ k ∧ p ∈ l) := by
  rcases mem_putSlot h with h1 | h1
  · exact .inl h1
  · by_cases hk : p.1 = k
    · have h2 := findSlot_of_mem hn h
      rw [findSlot_putSlot _ _ _ _ 0 hl, if_pos hk] at h2
      cases h2
      exact .inl (by rw [← hk])
    · exact .inr ⟨hk, h1⟩

/-- A source holds no FILLING span. -/
def State.Unfilled (s : State) (src : Source) : Prop :=
  ∀ p ∈ s.st.slots, p.2.source = src → p.2.state ≠ .filling

theorem State.Unfilled.kept {s t : State} {src : Source} (h : s.Unfilled src) (k : Kept s t) :
    t.Unfilled src := fun p hp hs hf => by
  obtain ⟨x, hx, hk⟩ := k.spans p hp
  exact h _ hx (hk.source.symm.trans hs) (hk.filling hf)

theorem State.Unfilled.of_none {s : State} {src : Source} (h : s.st.filling src = none) : s.Unfilled src :=
  fun p hp hs hf => by
    have := List.find?_eq_none.1 h p hp
    simp [hs, hf] at this

/-- At most one FILLING span a source. -/
def State.OneFilling (s : State) : Prop :=
  ∀ p ∈ s.st.slots, ∀ q ∈ s.st.slots, p.2.state = .filling → q.2.state = .filling →
    p.2.source = q.2.source → p.1 = q.1

/-- The span that fills leaves that state (R52). -/
theorem unfilled_enter {s : State} {src : Source} {slot : Nat} {sp v : Span} (ht : TableOk s.st)
    (ho : s.OneFilling) (h : s.st.filling src = some (slot, sp)) (hv : v.state ≠ .filling) :
    (s.enter slot v).Unfilled src := fun p hp hs hf => by
  have hm := List.mem_of_find?_eq_some h
  obtain ⟨-, h1, h2⟩ := SpanTable.filling_found ht h
  have hn := (putSlot_listed v ht.slots (SpanTable.filling_listed h)).1
  rcases mem_putSlot_ne ht.slots hn hp with rfl | ⟨h3, h4⟩
  · exact hv hf
  · exact h3 (ho p h4 _ hm hf h2 (hs.trans h1.symm))

theorem unfilled_seal {s : State} (src : Source) (ht : TableOk s.st) (ho : s.OneFilling) :
    (s.seal src).Unfilled src := by
  unfold State.seal
  split
  · next slot sp h =>
    have h1 : (s.sealFilling src).Unfilled src := by
      unfold State.sealFilling
      rw [h]
      refine State.Unfilled.kept ?_ (within_sealPressure _ _).kept
      unfold State.sealSpan
      dsimp only
      split
      · have h2 := unfilled_enter (s := s.setSummary src none) (src := src) (slot := slot) (sp := sp)
          (v := { sp with summary := (s.se.get src).map Running.finish, state := .held }) ht ho h
          (fun e => by cases e)
        split
        · exact h2.kept (within_recycle _ _).kept
        · exact h2
      · exact unfilled_enter (s := s.setSummary src none) ht ho h (fun e => by cases e)
      · exact unfilled_enter (s := s.setSummary src none) ht ho h (fun e => by cases e)
    dsimp only
    split
    · next hc => exact h1.kept (within_enterStopping _ hc.2).kept
    · exact h1
  · next h => exact .of_none h

/-- The law of the spans, but that the span which took a sample may have its full length. -/
structure Brim (src : Source) (taken : Option Nat) (s : State) : Prop where
  spanExp : ∀ src, 1 ≤ (s.settings src).spanExp ∧ (s.settings src).spanExp ≤ 23
  count : ∀ p ∈ s.st.slots, p.2.count ≤ 2 ^ 23
  filling : ∀ p ∈ s.st.slots, p.2.state = .filling →
    p.2.count < 2 ^ (s.settings p.2.source).spanExp ∨
      (taken = some p.1 ∧ p.2.source = src ∧ p.2.count = 2 ^ (s.settings src).spanExp)
  one : s.OneFilling

theorem SpanLaw.brim {s : State} (h : SpanLaw s) (src : Source) (taken : Option Nat) : Brim src taken s :=
  ⟨h.spanExp, h.count, fun p hp hf => .inl (h.filling p hp hf), h.one⟩

theorem State.OneFilling.kept {s t : State} (h : s.OneFilling) (k : Kept s t) : t.OneFilling :=
  fun p hp q hq hpf hqf hs => by
    obtain ⟨x, hx, hkx⟩ := k.spans p hp
    obtain ⟨y, hy, hky⟩ := k.spans q hq
    exact h (p.1, x) hx (q.1, y) hy (hkx.filling hpf) (hky.filling hqf)
      (hkx.source.symm.trans (hs.trans hky.source))

theorem Brim.kept {src : Source} {taken : Option Nat} {s t : State} (h : Brim src taken s) (k : Kept s t) :
    Brim src taken t where
  spanExp x := by rw [k.settings]; exact h.spanExp x
  count p hp := by
    obtain ⟨x, hx, hk⟩ := k.spans p hp
    rw [hk.count]
    exact h.count _ hx
  filling p hp hf := by
    obtain ⟨x, hx, hk⟩ := k.spans p hp
    rw [hk.count, hk.source, k.settings, k.settings]
    exact h.filling _ hx (hk.filling hf)
  one := h.one.kept k

/-- After the sample tests no FILLING span has its full length (R52). -/
theorem Brim.testLength {src : Source} {taken : Option Nat} {s : State} (h : Brim src taken s)
    (ht : TableOk s.st) : SpanLaw (s.testLength src taken) := by
  have done : (∀ p ∈ s.st.slots, p.2.state = .filling →
      p.2.count < 2 ^ (s.settings p.2.source).spanExp) → SpanLaw s :=
    fun hf => ⟨h.spanExp, h.count, hf, h.one⟩
  unfold State.testLength
  split
  · next slot slot' sp hfill =>
    obtain ⟨hfind, h1, h2⟩ := SpanTable.filling_found ht hfill
    have hm := List.mem_of_find?_eq_some hfill
    split
    · have k := (within_seal s src).kept
      have hu := unfilled_seal src ht h.one
      have hb := h.kept k
      refine ⟨hb.spanExp, hb.count, fun p hp hf => ?_, hb.one⟩
      rcases hb.filling p hp hf with h3 | ⟨-, h3, -⟩
      · exact h3
      · exact absurd hf (hu p hp h3)
    · next hne =>
      refine done fun p hp hf => ?_
      rcases h.filling p hp hf with h3 | ⟨h3, h4, h5⟩
      · exact h3
      · cases h3
        have hs := h.one p hp _ hm hf h2 (h4.trans h1.symm)
        have hp' := findSlot_of_mem ht.slots hp
        rw [hs, hfind] at hp'
        cases hp'
        exact absurd ⟨hs, h5⟩ hne
  · next hno =>
    refine done fun p hp hf => ?_
    rcases h.filling p hp hf with h3 | ⟨h3, h4, -⟩
    · exact h3
    · exfalso
      cases hfill : s.st.filling src with
      | none => exact State.Unfilled.of_none hfill p hp h4 hf
      | some q => exact hno p.1 q.1 q.2 h3 hfill

theorem drop_st (s : State) (src : Source) (n : Nat) (cause : Byte) : (s.drop src n cause).st = s.st := by
  unfold State.drop
  dsimp only
  split
  · exact setFlag_st _ _
  · rfl

theorem SpanLaw.drop {s : State} (h : SpanLaw s) (src : Source) (n : Nat) (cause : Byte) :
    SpanLaw (s.drop src n cause) :=
  h.congr (drop_st s src n cause) fun x => by rw [(around_drop s src n cause).held.settings]

/-- A span is opened for its first sample (R11 to R14). -/
theorem SpanLaw.open_ {s : State} {src : Source} {slot : Nat} {new : Span} (h : SpanLaw s) (ht : TableOk s.st)
    (hn : slotsFrom 0 (putSlot s.st.slots slot new) = true) (hu : s.Unfilled src) (h1 : new.source = src)
    (h2 : new.count = 1) (u : State) (hst : u.st.slots = putSlot s.st.slots slot new)
    (hset : ∀ x, u.settings x = s.settings x) : SpanLaw u where
  spanExp x := by rw [hset]; exact h.spanExp x
  count p hp := by
    rw [hst] at hp
    rcases mem_putSlot_ne ht.slots hn hp with rfl | ⟨-, hp⟩
    · rw [h2]; decide
    · exact h.count p hp
  filling p hp hf := by
    rw [hset]
    rw [hst] at hp
    rcases mem_putSlot_ne ht.slots hn hp with rfl | ⟨-, hp⟩
    · rw [h2]
      exact Nat.one_lt_two_pow (Nat.pos_iff_ne_zero.1 (h.spanExp new.source).1)
    · exact h.filling p hp hf
  one p hp q hq hpf hqf hs := by
    rw [hst] at hp hq
    rcases mem_putSlot_ne ht.slots hn hp with rfl | ⟨-, hp⟩ <;>
      rcases mem_putSlot_ne ht.slots hn hq with rfl | ⟨-, hq⟩
    · rfl
    · exact absurd hqf (hu q hq (hs.symm.trans h1))
    · exact absurd hpf (hu p hp (hs.trans h1))
    · exact h.one p hp q hq hpf hqf hs

theorem SpanLaw.openSpan {s : State} (h : SpanLaw s) (ht : TableOk s.st) (src : Source) (n : Nat)
    (ret : Retention) : SpanLaw (s.openSpan src n ret).1 := by
  unfold State.openSpan
  split
  · exact h
  · next hfill =>
    split
    · exact h
    · next seq _ =>
      dsimp only
      split
      · next slot hf =>
        have hn := (ht.open_ (openedSpan (s.rc.runId.getD 0) seq src n ret (s.settings src)) hf).1.slots
        refine SpanLaw.kept ?_ (within_occupancyChanged _ _ _).kept
        exact h.open_ ht hn (.of_none hfill) rfl rfl _ rfl fun _ => rfl
      · split
        · next slot old hh =>
          have hs := SpanTable.oldestHeld_listed hh
          have hn := (putSlot_listed (openedSpan (s.rc.runId.getD 0) seq src n ret (s.settings src))
            ht.slots hs).1
          exact h.open_ ht hn (.of_none hfill) rfl rfl _ rfl fun _ => rfl
        · exact h

theorem SpanLaw.openFor {s : State} (h : SpanLaw s) (ht : TableOk s.st) (src : Source) (n : Nat) (x : Sample) :
    SpanLaw (s.openFor src n x).1 := by
  have h1 := h.openSpan ht src n (s.openRetention src)
  unfold State.openFor
  split <;> rename_i hs <;> rw [hs] at h1
  · next s1 slot =>
    have h2 : SpanLaw (s1.setMem (s1.mem.writeSample slot 0 x)) := h1.congr rfl fun _ => rfl
    exact h2.kept ((within_summaryStart _ _ _ _).trans (within_handGap _ _)).kept
  · exact h1.drop _ _ _
  · exact h1

/-- A sample appended makes its span longer by 1 (R48). -/
theorem SpanLaw.append {s : State} {src : Source} {slot : Nat} {sp : Span} (h : SpanLaw s)
    (ht : TableOk s.st) (hf : s.st.filling src = some (slot, sp)) (x : Sample) :
    Brim src (some slot) (s.append src slot sp x) := by
  obtain ⟨-, h1, h2⟩ := SpanTable.filling_found ht hf
  have hm := List.mem_of_find?_eq_some hf
  have hlt : sp.count < 2 ^ (s.settings sp.source).spanExp := h.filling _ hm h2
  rw [h1] at hlt
  have hexp := (h.spanExp src).2
  have hn := (putSlot_listed { sp with count := sp.count + 1 } ht.slots (SpanTable.filling_listed hf)).1
  refine Brim.kept (s := (s.setMem (s.mem.writeSample slot sp.count x)).setSpan slot
    { sp with count := sp.count + 1 }) ?_ (within_summaryTake _ _ _).kept
  refine ⟨h.spanExp, fun p hp => ?_, fun p hp hpf => ?_, fun p hp q hq hpf hqf hs => ?_⟩
  · rcases mem_putSlot_ne ht.slots hn hp with rfl | ⟨-, hp⟩
    · have : 2 ^ (s.settings src).spanExp ≤ 2 ^ 23 := Nat.pow_le_pow_right (by decide) hexp
      show sp.count + 1 ≤ 2 ^ 23
      omega
    · exact h.count p hp
  · rcases mem_putSlot_ne ht.slots hn hp with rfl | ⟨-, hp⟩
    · by_cases he : sp.count + 1 = 2 ^ (s.settings src).spanExp
      · exact .inr ⟨rfl, h1, he⟩
      · left
        show sp.count + 1 < 2 ^ (s.settings sp.source).spanExp
        rw [h1]
        omega
    · exact .inl (h.filling p hp hpf)
  · rcases mem_putSlot_ne ht.slots hn hp with rfl | ⟨-, hp⟩ <;>
      rcases mem_putSlot_ne ht.slots hn hq with rfl | ⟨-, hq⟩
    · rfl
    · exact h.one (slot, sp) hm q hq h2 hqf hs
    · exact h.one p hp (slot, sp) hm hpf h2 hs
    · exact h.one p hp q hq hpf hqf hs

theorem SpanLaw.place {s : State} (h : SpanLaw s) (ht : TableOk s.st) (src : Source) (n : Nat) (x : Sample) :
    Brim src (s.place src n x).2 (s.place src n x).1 := by
  unfold State.place
  split
  · next slot sp hf => exact h.append ht hf x
  · split
    · exact (h.drop _ _ _).brim _ _
    · split
      · exact (h.drop _ _ _).brim _ _
      · exact (h.openFor ht src n x).brim _ _

theorem SpanLaw.takeSample {s : State} (hr : RunLaw s) (h : SpanLaw s) (src : Source) (x : Sample) :
    SpanLaw (State.takeSample src s x) := by
  unfold State.takeSample
  split
  · next ht =>
    dsimp only
    have h1 := around_onIntake s src
      (fun i => { i with newest := some (s.intake src).nextNumber }) rfl id
    have r1 := h1.law hr
    have s1 : SpanLaw (s.onIntake src fun i => { i with newest := some (s.intake src).nextNumber }) :=
      h.congr rfl fun y => by rw [h1.held.settings]
    have h2 := aroundIf_place (s.onIntake src fun i => { i with newest := some (s.intake src).nextNumber })
      src (s.intake src).nextNumber x
    have s2 := s1.place r1.table src (s.intake src).nextNumber x
    generalize State.place _ _ _ _ = p at h2 s2
    have r2 : RunLaw p.1 := h2.law (by
      have := (hr.intake src ht).1
      show s.rc.runState.slotsFree = false
      rw [this]
      rfl) r1
    have w3 := (within_applyTrigger p.1 src (s.intake src).nextNumber p.2).trans
      (within_testWindow _ src (s.intake src).nextNumber p.2)
    have s3 := (s2.kept w3.kept).testLength (w3.law 0 r2).table
    exact s3.kept (within_testNumbers _ src (s.intake src).nextNumber).kept
  · exact h

/-- A sample leaves the lanes and the scheduler as they are. -/
theorem lanes_takeSample (src : Source) (s : State) (x : Sample) :
    (State.takeSample src s x).al = s.al ∧ (State.takeSample src s x).ds = s.ds := by
  have hd : ∀ (u : State) n c, (u.drop src n c).al = u.al ∧ (u.drop src n c).ds = u.ds := fun u n c => by
    unfold State.drop
    dsimp only
    split
    · exact ⟨(outside_setFlag _ _).al, (outside_setFlag _ _).ds⟩
    · exact ⟨rfl, rfl⟩
  have ho : ∀ (u : State) n r, (u.openSpan src n r).1.al = u.al ∧ (u.openSpan src n r).1.ds = u.ds :=
    fun u n r => by
      unfold State.openSpan
      split
      · exact ⟨rfl, rfl⟩
      · split
        · exact ⟨rfl, rfl⟩
        · dsimp only
          split
          · exact ⟨(outside_occupancyChanged _ _ _).al, (outside_occupancyChanged _ _ _).ds⟩
          · split <;> exact ⟨rfl, rfl⟩
  have hp : ∀ (u : State) n, (u.place src n x).1.al = u.al ∧ (u.place src n x).1.ds = u.ds := fun u n => by
    unfold State.place
    split
    · unfold State.append State.summaryTake
      split
      · exact ⟨rfl, rfl⟩
      · dsimp only
        split
        · exact ⟨(outside_setFlag _ _).al, (outside_setFlag _ _).ds⟩
        · exact ⟨rfl, rfl⟩
    · split
      · exact hd _ _ _
      · split
        · exact hd _ _ _
        · have h := ho u n (u.openRetention src)
          unfold State.openFor
          split <;> rename_i hs <;> rw [hs] at h
          · exact ⟨(outside_handGap _ _).al.trans h.1, (outside_handGap _ _).ds.trans h.2⟩
          · exact ⟨(hd _ _ _).1.trans h.1, (hd _ _ _).2.trans h.2⟩
          · exact h
  unfold State.takeSample
  split
  · dsimp only
    have h := hp (s.onIntake src fun i => { i with newest := some (s.intake src).nextNumber })
      (s.intake src).nextNumber
    generalize State.place _ _ _ _ = p at h
    have o := (outside_applyTrigger p.1 src (s.intake src).nextNumber p.2).trans
      ((outside_testWindow _ src (s.intake src).nextNumber p.2).trans
        ((outside_testLength _ src p.2).trans (outside_testNumbers _ src (s.intake src).nextNumber)))
    exact ⟨o.al.trans h.1, o.ds.trans h.2⟩
  · exact ⟨rfl, rfl⟩

/-- A packet keeps the law: the lanes are left as they are, and no span grows too long. -/
theorem windowed_takeSamples {s : State} (hr : RunLaw s) (src : Source) (xs : List Sample) :
    Windowed s (xs.foldl (State.takeSample src) s) := by
  induction xs generalizing s with
  | nil => exact .refl s
  | cons x rest ih =>
    have h1 : Windowed s (State.takeSample src s x) := by
      refine ⟨fun w => ⟨?_, w.spans.takeSample hr src x⟩⟩
      obtain ⟨h2, h3⟩ := lanes_takeSample src s x
      exact w.lanes.eases ⟨h2, fun _ _ hc => .inl (by rw [← h3]; exact hc), fun _ hc _ => by rw [← h3]; exact hc⟩
    exact h1.trans (ih ((around_takeSample src s x).law hr))

theorem windowed_takePacket {s : State} (hr : RunLaw s) (src : Source) (xs : List Sample) :
    Windowed s (s.takePacket src xs) :=
  (windowed_takeSamples hr src xs).trans ((outside_age _ _).windowed (within_age _ _))

/-! ### ABORT RUN (R38) -/

theorem moves_nextLaneState (s : State) (l : Lane) : Moves l s (s.nextLaneState l) := by
  have h1 : Moves l s (s.onLane l fun a => { a with action := .none }) := moves_onLane s l _
  unfold State.nextLaneState
  dsimp only
  split
  · exact h1.trans ((moves_leaveTo _ l _).trans ((outside_blockMissed _ l).moves l))
  · exact h1.trans (moves_enterParking _ l)
  · refine h1.trans ((moves_onLane _ l fun a => { a with state := .ready }).trans ?_)
    unfold State.placeClaim
    split
    · exact ⟨fun _ _ => rfl, fun _ _ => rfl, rfl⟩
    · exact moves_setClaim _ l _

theorem LaneLaw.abortLane {s : State} (h : LaneLaw s) (hp : s.ds.pair = none) (l : Lane) :
    LaneLaw (State.abortLane l s) ∧ (State.abortLane l s).ds.pair = none := by
  unfold State.abortLane
  split
  · next hst =>
    rw [State.lane_eq] at hst
    have e := eases_sendCancel s l
    have hpc : (s.sendCancel l).ds.pair = none := by
      unfold State.sendCancel
      split <;> exact hp
    have key : ∀ d, LaneLaw (((s.sendCancel l).dropJob l d).nextLaneState l) ∧
        (((s.sendCancel l).dropJob l d).nextLaneState l).ds.pair = none := fun d => by
      have h1 := (h.eases e).dropJob (State.Free.none hpc l) d
      have b := bare_dropJob (s.sendCancel l) l d
      have hn : ((s.sendCancel l).dropJob l d).ds.pair = none := hpc
      exact ⟨h1.nextLaneState (.none hn l) b.no_index b.2, (moves_nextLaneState _ l).pair.trans hn⟩
    unfold State.abortJob
    split
    · exact key _
    · exact key _
    · next hj =>
      rw [State.lane_eq] at hj
      exact ⟨h.nextLaneState (.none hp l) (fun j e => by rw [hj] at e; cases e) ((h.fits l).busy hst hj),
        (moves_nextLaneState s l).pair.trans hp⟩
  · exact ⟨h, hp⟩

theorem outside_discardAll (s : State) : Outside s s.discardAll := by
  unfold State.discardAll
  dsimp only
  split
  · exact ⟨rfl, rfl, rfl, rfl, rfl⟩
  · exact (outside_occupancyChanged _ _ _).after rfl rfl rfl rfl rfl

theorem windowed_abortRun (s : State) : Windowed s s.abortRun := by
  have h1 : Windowed s (forLanes State.abortLane ((s.setPair none).setIu s.iu.abort)).discardAll := by
    refine (within_abortLanes s).windowed fun h _ => ?_
    have h2 : LaneLaw ((s.setPair none).setIu s.iu.abort) :=
      h.eases ⟨rfl, fun _ _ hc => .inl hc, fun _ hc => by cases hc⟩
    obtain ⟨h3, p3⟩ := h2.abortLane rfl .l0
    exact (h3.abortLane p3 .l1).1.outside (outside_discardAll _)
  unfold State.abortRun
  dsimp only
  generalize (forLanes State.abortLane ((s.setPair none).setIu s.iu.abort)).discardAll = u at h1
  refine h1.trans (Windowed.trans (t := (((u.setCi
      ⟨u.ci.s0.abort, u.ci.s1.abort, u.ci.s2.abort, u.ci.s3.abort⟩).setTwu
        ⟨.reset, .reset, .reset, .reset⟩).setRc
          { u.rc with deadlineTimer := none, runState := .idle, lastEnd := .aborted }).calmAll)
    (windowed_congr rfl rfl rfl fun src => by cases src <;> rfl) ?_)
  exact ((outside_setFlag _ _).windowed (within_setFlag _ _)).trans
    (((within_rolesEnded _).windowed fun h _ => h.eases (eases_rolesEnded _)).trans (windowed_evaluate _))

/-! ### The control link and the other commands -/

theorem windowed_setFlag (s : State) (f : Flag) : Windowed s (s.setFlag f) :=
  (outside_setFlag s f).windowed (within_setFlag s f)

theorem windowed_setClp (s : State) (c : LinkPort) : Windowed s (s.setClp c) :=
  windowed_congr rfl rfl rfl fun _ => rfl

theorem windowed_setNu (s : State) (v : NoticeUnit) : Windowed s (s.setNu v) :=
  windowed_congr rfl rfl rfl fun _ => rfl

theorem windowed_setIu (s : State) (v : IndexUnit) : Windowed s (s.setIu v) :=
  windowed_congr rfl rfl rfl fun _ => rfl

theorem windowed_setRc (s : State) (v : RunController) : Windowed s (s.setRc v) :=
  windowed_congr rfl rfl rfl fun _ => rfl

theorem windowed_setTwu (s : State) (v : PerSource WindowSource) : Windowed s (s.setTwu v) :=
  windowed_congr rfl rfl rfl fun _ => rfl

theorem windowed_setSpm (s : State) (v : PressureMonitor) : Windowed s (s.setSpm v) :=
  windowed_congr rfl rfl rfl fun _ => rfl

theorem windowed_clockOut (s : State) (bytes : List Byte) : Windowed s (s.clockOut bytes) :=
  windowed_congr rfl rfl rfl fun _ => rfl

theorem windowed_linkError (s : State) : Windowed s s.linkError :=
  (windowed_setClp s _).trans (windowed_setFlag _ _)

theorem windowed_assemble (s : State) (p : List Byte) : Windowed s (s.assemble p) := by
  unfold State.assemble State.setRxPart
  split
  · exact windowed_setClp s _
  · split
    · exact (windowed_setClp s _).trans (windowed_linkError _)
    · split
      · exact windowed_setClp s _
      · have h : ∀ u : State, Windowed u (u.frameIn p) := fun u => by
          unfold State.frameIn
          dsimp only
          split
          · exact windowed_setClp _ _
          · exact windowed_linkError _
        exact (windowed_setClp s _).trans (h _)

theorem windowed_byteOut (s : State) : Windowed s s.byteOut := by
  unfold State.byteOut
  split
  · exact windowed_congr rfl rfl rfl fun _ => rfl
  · split
    · exact windowed_congr rfl rfl rfl fun _ => rfl
    · exact .refl s

theorem windowed_bytesIn (s : State) (bytes : List Byte) : Windowed s (s.bytesIn bytes) := by
  unfold State.bytesIn
  induction bytes generalizing s with
  | nil => exact .refl s
  | cons b rest ih =>
    have h : Windowed s.byteOut (s.byteOut.byteIn b) := by
      unfold State.byteIn
      split
      · exact .refl _
      · exact windowed_assemble _ _
    exact ((windowed_byteOut s).trans h).trans (ih _)

theorem windowed_cutOff (s : State) : Windowed s (s.setOutPos 0).cutOff := by
  have h : ∀ u : State, Windowed u u.cutOff := fun u => by
    unfold State.cutOff State.setRxPart
    split
    · exact .refl _
    · exact (windowed_setClp _ _).trans (windowed_linkError _)
  exact (windowed_setClp s _).trans (h _)

theorem windowLaw_reset : WindowLaw State.reset where
  lanes :=
    { fit := fun l => by
        cases l <;> exact LaneFit.away ⟨by decide, by decide, by decide⟩ rfl rfl fun j e => by cases e
      forming := fun c hc => by cases hc }
  spans :=
    { spanExp := fun src => by cases src <;> decide
      count := fun p hp => by cases hp
      filling := fun p hp => by cases hp
      one := fun p hp => by cases hp }

theorem windowed_partReset (s : State) : Windowed s s.partReset :=
  ⟨fun _ => (windowed_congr (s := State.reset) (t := s.partReset) rfl rfl rfl fun _ => rfl).law windowLaw_reset⟩

theorem windowed_noticeOrOwe (s : State) (c : Fin 4) : Windowed s (s.noticeOrOwe c) := by
  unfold State.noticeOrOwe
  unfold State.queueNotice State.setOwed
  split
  · exact (windowed_setClp s _).trans (windowed_setNu _ _)
  · exact windowed_setNu s _

theorem windowed_drainOwedClass (s : State) (c : Fin 4) : Windowed s (s.drainOwedClass c) := by
  unfold State.drainOwedClass
  split
  · split
    · exact windowed_setNu s _
    · split
      · exact (windowed_setNu s _).trans ((windowed_setClp _ _).trans (windowed_setNu _ _))
      · exact .refl s
  · exact .refl s

theorem windowed_drainOwed (s : State) : Windowed s s.drainOwed :=
  (windowed_drainOwedClass s 0).trans ((windowed_drainOwedClass _ 1).trans
    ((windowed_drainOwedClass _ 2).trans (windowed_drainOwedClass _ 3)))

theorem windowed_frameOut (s : State) : Windowed s s.frameOut := by
  unfold State.frameOut
  split
  · exact .refl s
  · dsimp only
    split
    · exact (windowed_clockOut s _).trans (windowed_partReset _)
    · exact (windowed_clockOut s _).trans ((windowed_setClp _ _).trans (windowed_drainOwed _))

/-- A command taken keeps the law, if its effect does where its checks pass. -/
theorem windowed_take (c : Command)
    (h : ∀ p s f, RunLaw s → c.check p s = .ok →
      Windowed (s.popFrame.queueOut f) (c.effect p (s.popFrame.queueOut f)))
    {s : State} (hr : RunLaw s) : Windowed s (c.take s) := by
  have hq : ∀ f, Windowed s (s.popFrame.queueOut f) := fun _ => windowed_setClp s _
  unfold Command.take
  split
  · exact .refl s
  · split
    · unfold Command.answer
      split
      · exact hq _
      · split
        · next hk => exact (hq _).trans (h _ _ _ hr hk)
        all_goals exact hq _
    · exact .refl s

/-- SET SOURCE: a span length of 2^20 to 2^23 (R43). -/
theorem decodeSource_spanExp {p : List Byte} {src : Source} {set : SourceSettings}
    (h : decodeSource p = some (src, set)) : 1 ≤ set.spanExp ∧ set.spanExp ≤ 23 := by
  unfold decodeSource at h
  obtain ⟨_, -, h⟩ := Option.bind_eq_some_iff.1 h
  obtain ⟨_, -, h⟩ := Option.bind_eq_some_iff.1 h
  obtain ⟨_, -, h⟩ := Option.bind_eq_some_iff.1 h
  obtain ⟨e, he, h⟩ := Option.bind_eq_some_iff.1 h
  obtain ⟨_, -, h⟩ := Option.bind_eq_some_iff.1 h
  obtain ⟨_, -, h⟩ := Option.bind_eq_some_iff.1 h
  obtain ⟨_, -, h⟩ := Option.bind_eq_some_iff.1 h
  obtain ⟨_, -, h⟩ := Option.bind_eq_some_iff.1 h
  obtain ⟨_, -, h⟩ := Option.bind_eq_some_iff.1 h
  obtain ⟨_, -, h⟩ := Option.bind_eq_some_iff.1 h
  obtain ⟨_, -, h⟩ := Option.bind_eq_some_iff.1 h
  obtain ⟨_, -, h⟩ := Option.bind_eq_some_iff.1 h
  obtain ⟨_, -, h⟩ := Option.bind_eq_some_iff.1 h
  obtain ⟨_, -, h⟩ := Option.bind_eq_some_iff.1 h
  cases h
  unfold inRange at he
  split at he
  · next hc => cases he; exact ⟨by simp at hc ⊢; omega, by simp at hc ⊢; omega⟩
  · cases he

/-- The span lengths change only in IDLE, where no slot holds a span (R33, R58). -/
theorem windowed_setSourceEffect {s : State} (hn : s.st.slots = []) (p : List Byte) :
    Windowed s (setSourceEffect p s) := by
  unfold setSourceEffect
  split
  · next src set hd =>
    refine Windowed.trans (t := s.onIntake src fun i => { i with settings := set })
      ⟨fun w => ⟨⟨w.lanes.fit, w.lanes.forming⟩, ?_⟩⟩ (windowed_setSpm _ _)
    have hs : (s.onIntake src fun i => { i with settings := set }).st.slots = [] := hn
    refine ⟨fun x => ?_, fun q hq => ?_, fun q hq => ?_, fun q hq => ?_⟩
    · simp only [State.settings_eq, State.onIntake_eq, State.setCi_ci, PerSource.get_set]
      split
      · exact decodeSource_spanExp hd
      · exact w.spans.spanExp x
    all_goals
      rw [hs] at hq
      cases hq
  · exact .refl s

theorem windowed_setSpoolEffect (p : List Byte) (s : State) : Windowed s (setSpoolEffect p s) := by
  unfold setSpoolEffect
  split
  · exact (windowed_setSpm s _).trans ((outside_forSources _ _
      fun src s => outside_evalPressure _ src s).windowed (within_evalAllPressure _ _))
  · exact .refl s

theorem windowed_setNoticesEffect (p : List Byte) (s : State) : Windowed s (setNoticesEffect p s) := by
  have h : ∀ old t c, Windowed t (State.noticeGained old t c) := fun old t c => by
    unfold State.noticeGained
    split
    · exact windowed_noticeOrOwe _ _
    · exact .refl t
  unfold setNoticesEffect
  split
  · exact (windowed_setNu s _).trans
      ((h _ _ 0).trans ((h _ _ 1).trans ((h _ _ 2).trans (h _ _ 3))))
  · exact .refl s

theorem windowed_clearNoticesEffect (p : List Byte) (s : State) : Windowed s (clearNoticesEffect p s) := by
  unfold clearNoticesEffect
  split
  · exact windowed_congr rfl rfl rfl fun _ => rfl
  · exact .refl s

theorem windowed_setCheckpointEffect (p : List Byte) (s : State) : Windowed s (setCheckpointEffect p s) := by
  unfold setCheckpointEffect
  split
  · exact windowed_congr rfl rfl rfl fun _ => rfl
  · exact .refl s

theorem windowed_forSources (f : Source → State → State) (s : State) (h : ∀ src s, Windowed s (f src s)) :
    Windowed s (forSources f s) :=
  (h .s0 s).trans ((h .s1 _).trans ((h .s2 _).trans (h .s3 _)))

/-- A change of a source's intake that keeps its settings. -/
theorem windowed_onIntake (s : State) (src : Source) {f : IntakeSource → IntakeSource}
    (h : (f (s.ci.get src)).settings = (s.ci.get src).settings) : Windowed s (s.onIntake src f) :=
  windowed_congr rfl rfl rfl fun x => by
    simp only [State.settings_eq, State.onIntake_eq, State.setCi_ci, PerSource.get_set]
    split
    · next hx => rw [hx, h]
    · rfl

theorem windowed_enterRunning (s : State) (e : Option Word16) : Windowed s (s.enterRunning e) := by
  have h1 : Windowed s (s.setRc { s.rc with runState := .running, startEpoch := e }) :=
    windowed_congr rfl rfl rfl fun _ => rfl
  have h2 := windowed_forSources State.startIntake (s.setRc { s.rc with runState := .running, startEpoch := e })
    fun src t => by
      unfold State.startIntake
      split
      · exact windowed_onIntake t src rfl
      · exact .refl t
  unfold State.enterRunning
  dsimp only
  generalize forSources State.startIntake _ = u at h2
  exact (h1.trans h2).trans ((windowed_setTwu u _).trans ((windowed_setSpm _ _).trans
    ((windowed_setIu _ _).trans (windowed_setFlag _ _))))

theorem windowed_arm (s : State) (a : ArmOperands) : Windowed s (s.arm a) :=
  windowed_congr rfl rfl rfl fun _ => rfl

theorem windowed_armEffect (p : List Byte) (s : State) : Windowed s (armEffect p s) := by
  unfold armEffect
  split
  · exact .refl s
  · split
    · exact (windowed_arm s _).trans (windowed_enterRunning _ _)
    · exact windowed_arm s _

theorem windowed_stopEffect (p : List Byte) (s : State) : Windowed s (stopEffect p s) := by
  unfold stopEffect
  split
  · exact .refl s
  · exact (windowed_setRc s _).trans (windowed_setFlag _ _)
  · next hr =>
    exact ((outside_enterStopping s).windowed (within_enterStopping s hr)).trans (windowed_evaluate _)
  · exact .refl s
  · exact .refl s

theorem windowed_markEffect (p : List Byte) (s : State) : Windowed s (markEffect p s) :=
  windowed_forSources _ _ fun src t => by
    unfold State.markSource
    split
    · exact windowed_congr rfl rfl rfl fun _ => rfl
    · exact .refl t

theorem windowed_tagSources (mask : Nat) (s : State) : Windowed s (forSources (State.tagSource mask) s) :=
  windowed_forSources _ _ fun src t => by
    unfold State.tagSource
    split
    · exact windowed_onIntake t src rfl
    · exact .refl t

theorem windowed_takeEpoch (s : State) (e : Word16) : Windowed s (s.takeEpoch e) := by
  have h : Windowed s (s.setRc { s.rc with lastEpoch := some e }) := windowed_congr rfl rfl rfl fun _ => rfl
  unfold State.takeEpoch
  dsimp only
  split
  · exact h.trans (windowed_enterRunning _ _)
  · exact h

theorem windowed_deadlineExpired (s : State) : Windowed s s.deadlineExpired := by
  have h : ∀ (u : State) l, Windowed u (State.eachSlot State.disposeQueued u l) := fun u l =>
    (outside_eachSlot _ (fun s slot => outside_disposeQueued s slot) u l).windowed
      (within_eachSlot _ within_disposeQueued u l)
  exact (windowed_setRc s _).trans ((windowed_setFlag _ .stopDeadline).trans ((h _ _).trans (windowed_evaluate _)))

theorem windowed_closeFilling (s : State) : Windowed s s.closeFilling :=
  (outside_closeFilling s).windowed (within_closeFilling s)

theorem windowed_checkpointExpired (s : State) : Windowed s s.checkpointExpired := by
  have h : Windowed s (if (s.buffer .a).state.taken || (s.buffer .b).state.taken then s.lateExpiry
      else s.closeFilling) := by
    split
    · exact (windowed_setFlag s _).trans (windowed_setRc _ _)
    · exact windowed_closeFilling s
  exact h.trans ((windowed_setIu _ _).trans (windowed_evaluate _))

theorem windowed_tick (s : State) : Windowed s s.tick := by
  have hc : ∀ t : Option Nat, countDown t = none ↔ t = none := fun t => by cases t <;> simp [countDown]
  have hg : ∀ l, s.tick.al.get l = { s.al.get l with timer := countDown (s.al.get l).timer } := fun l => by
    cases l <;> rfl
  have hd : s.tick.ds = s.ds := rfl
  refine ⟨fun w => ⟨⟨fun l => ?_, fun c hp hf => ?_⟩, w.spans.congr rfl fun _ => rfl⟩⟩
  · rw [State.lane_eq, hg, hd]
    have h := w.lanes.fits l
    exact
      { cursors := h.cursors, dataFull := h.dataFull, indexFull := h.indexFull, claim := h.claim
        rests := fun hs => (hc _).2 (h.rests hs)
        busy := fun hs hj => (hc _).2 (h.busy hs hj)
        index := h.index }
  · have h := w.lanes.forming c hp hf
    rw [State.lane_eq] at h ⊢
    rw [hg]
    exact ⟨h.state, (hc _).2 h.timer, h.dataFull, h.job⟩

end Sys2Proof.Machine
end

