-- ==== Sys2Proof/Laws/Answers.lean ====
section
/-! SUPPORT. Laws/Answers.lean: an evaluation answers until no standing claim finds work (R102): every answer lessens the work left, and the evaluation gives more answers than there is work. -/

namespace Sys2Proof.Machine

/-! ### The work left to the index and the queues -/

/-- Whether a buffer is still to be written. -/
def IndexBuffer.unwritten (v : IndexBuffer) : Nat :=
  match v.state with
  | .filling => 1
  | .closed => 1
  | .empty => 0
  | .writing => 0

/-- The lanes that owe the block being written. -/
def IndexUnit.owing (u : IndexUnit) : Nat :=
  match u.writing with
  | none => 0
  | some w => (if w.duty.l0 = .owed then 1 else 0) + (if w.duty.l1 = .owed then 1 else 0)

/-- The gaps of a source. -/
def IntakeSource.gaps (i : IntakeSource) : Nat := i.pendingGap.isSome.toNat + i.offeredGap.isSome.toNat

/-- Whether a run is still to offer its RUN_END. -/
def RunState.endsLater : RunState → Nat
  | .idle => 0
  | .ending => 0
  | .armed => 1
  | .running => 1
  | .stopping => 1

/-- The buffers that are to be written, and the entries that may yet fill one. -/
def State.supply (s : State) : Nat :=
  (s.iu.buffers.a.unwritten + s.iu.buffers.b.unwritten) + s.iu.waitSpans.length +
    s.iu.waitRunEnd.isSome.toNat + (s.ci.s0.gaps + s.ci.s1.gaps + s.ci.s2.gaps + s.ci.s3.gaps) +
    s.rc.runState.endsLater

/-- The spans in the source queues. -/
def SpanTable.queued (t : SpanTable) : Nat :=
  t.queues.s0.length + t.queues.s1.length + t.queues.s2.length + t.queues.s3.length

/-- The work left to the index and the queues: a block costs at most three answers, and a span of a queue one more. -/
def State.work (s : State) : Nat := s.iu.owing + 3 * s.supply + 4 * s.st.queued

/-- An effect that leaves the index, the gaps, the run and the queues as they stand. -/
structure Aside (s t : State) : Prop where
  iu : t.iu = s.iu
  gaps : ∀ src, (t.ci.get src).gaps = (s.ci.get src).gaps
  runState : t.rc.runState = s.rc.runState
  st : t.st = s.st

theorem Aside.refl (s : State) : Aside s s := ⟨rfl, fun _ => rfl, rfl, rfl⟩

theorem Aside.trans {s t u : State} (h : Aside s t) (k : Aside t u) : Aside s u :=
  ⟨k.iu.trans h.iu, fun src => (k.gaps src).trans (h.gaps src), k.runState.trans h.runState, k.st.trans h.st⟩

theorem Aside.supply {s t : State} (h : Aside s t) : t.supply = s.supply := by
  have h0 := h.gaps .s0
  have h1 := h.gaps .s1
  have h2 := h.gaps .s2
  have h3 := h.gaps .s3
  simp only [PerSource.get] at h0 h1 h2 h3
  simp only [State.supply, h.iu, h.runState, h0, h1, h2, h3]

theorem Aside.work {s t : State} (h : Aside s t) : t.work = s.work := by
  simp only [State.work, h.supply, h.iu, h.st]

theorem aside_setFlag (s : State) (f : Flag) : Aside s (s.setFlag f) := by
  unfold State.setFlag State.noticeOrOwe
  split
  · exact .refl s
  · dsimp only
    split
    · split <;> exact ⟨rfl, fun _ => rfl, rfl, rfl⟩
    · exact ⟨rfl, fun _ => rfl, rfl, rfl⟩

theorem aside_setSpm (s : State) (v : PressureMonitor) : Aside s (s.setSpm v) := ⟨rfl, fun _ => rfl, rfl, rfl⟩

theorem aside_onIntake (s : State) (src : Source) (f : IntakeSource → IntakeSource)
    (h : (f (s.ci.get src)).gaps = (s.ci.get src).gaps) : Aside s (s.onIntake src f) where
  iu := rfl
  gaps x := by
    simp only [State.onIntake_eq, State.setCi_ci, PerSource.get_set]
    split
    · next hx => subst hx; exact h
    · rfl
  runState := rfl
  st := rfl

theorem aside_forSources (f : Source → State → State) (s : State) (h : ∀ src s, Aside s (f src s)) :
    Aside s (forSources f s) :=
  ((h .s0 s).trans (h .s1 _)).trans ((h .s2 _).trans (h .s3 _))

theorem aside_evalPressure (v : Nat) (src : Source) (s : State) : Aside s (State.evalPressure v src s) := by
  unfold State.evalPressure State.setPressure
  dsimp only
  split
  · split
    · exact ⟨rfl, fun _ => rfl, rfl, rfl⟩
    · split
      · exact (aside_setSpm s _).trans (aside_onIntake _ _ _ rfl)
      all_goals exact ⟨rfl, fun _ => rfl, rfl, rfl⟩
  · exact .refl s

theorem aside_occupancyChanged (u v : Nat) (s : State) : Aside s (s.occupancyChanged u v) := by
  unfold State.occupancyChanged
  dsimp only
  split
  · exact (aside_setFlag s _).trans (aside_forSources _ _ (aside_evalPressure v))
  · exact aside_forSources _ _ (aside_evalPressure v)

/-! ### The queues -/

theorem length_queueRemove (slot : Nat) (q : List Nat) : (queueRemove slot q).length ≤ q.length :=
  List.length_filter_le _ _

theorem length_queueRemove_lt {slot : Nat} {q : List Nat} (h : slot ∈ q) :
    (queueRemove slot q).length < q.length := by
  refine List.length_filter_lt_length_iff_exists.2 ⟨slot, h, ?_⟩
  simp

theorem length_queueInsert (slots : List (Nat × Span)) (slot : Nat) (seq : Word32) (q : List Nat) :
    (queueInsert slots slot seq q).length = q.length + 1 := by
  induction q with
  | nil => rfl
  | cons x rest ih =>
    unfold queueInsert
    split
    · split
      · rfl
      · rw [List.length_cons, ih, List.length_cons]
    · rw [List.length_cons, ih, List.length_cons]

/-- The queues' spans after one queue is replaced. -/
theorem queued_set (t u : SpanTable) (src : Source) (q : List Nat) (h : u.queues = t.queues.set src q) :
    u.queued + (t.queues.get src).length = t.queued + q.length := by
  unfold SpanTable.queued
  rw [h]
  cases src <;> simp only [PerSource.set, PerSource.get] <;> omega

theorem queued_remove (t u : SpanTable) (src : Source) (slot : Nat)
    (h : u.queues = t.queues.set src (queueRemove slot (t.queues.get src))) : u.queued ≤ t.queued := by
  have := queued_set t u src _ h
  have := length_queueRemove slot (t.queues.get src)
  omega

/-- A span that enters a state that is not QUEUED adds nothing to the queues, and leaves the one it is in. -/
theorem work_leave (s : State) (slot : Nat) (new : Span) (h : new.state ≠ .queued) :
    (s.enter slot new).work ≤ s.work ∧
      (slot ∈ s.st.queues.get new.source → (s.enter slot new).work + 4 ≤ s.work) := by
  have hq : (s.enter slot new).st.queues =
      s.st.queues.set new.source (queueRemove slot (s.st.queues.get new.source)) := by
    simp only [State.enter, h, if_false, State.setSt_st]
  have h1 := queued_set s.st _ new.source _ hq
  have h2 := length_queueRemove slot (s.st.queues.get new.source)
  have h3 : (s.enter slot new).supply = s.supply := rfl
  have h4 : (s.enter slot new).iu = s.iu := rfl
  unfold State.work
  rw [h3, h4]
  refine ⟨by omega, fun hm => ?_⟩
  have := length_queueRemove_lt hm
  omega

theorem work_enter (s : State) (slot : Nat) (new : Span) : (s.enter slot new).work ≤ s.work + 4 := by
  by_cases h : new.state = .queued
  · have hq : (s.enter slot new).st.queues = s.st.queues.set new.source
        (queueInsert (putSlot s.st.slots slot new) slot new.seq
          (queueRemove slot (s.st.queues.get new.source))) := by
      simp only [State.enter, h, if_true, State.setSt_st]
    have h1 := queued_set s.st _ new.source _ hq
    rw [length_queueInsert] at h1
    have h2 := length_queueRemove slot (s.st.queues.get new.source)
    have h3 : (s.enter slot new).supply = s.supply := rfl
    have h4 : (s.enter slot new).iu = s.iu := rfl
    unfold State.work
    rw [h3, h4]
    omega
  · have := (work_leave s slot new h).1
    omega

theorem work_onSpan (s : State) (slot : Nat) (f : Span → Span) : (s.onSpan slot f).work = s.work := by
  unfold State.onSpan
  split <;> rfl

theorem work_release (s : State) (slot : Nat) (c : ReleaseCause) : (s.release slot c).work ≤ s.work := by
  unfold State.release
  split
  · exact le_refl _
  · next sp _ =>
    dsimp only
    rw [(aside_occupancyChanged _ _ _).work]
    unfold State.work
    have h1 := queued_remove s.st
      { slots := dropSlot s.st.slots slot
        queues := s.st.queues.set sp.source (queueRemove slot (s.st.queues.get sp.source))
        occupancy := s.st.occupancy - 1 } sp.source slot rfl
    have h2 : ∀ t : SpanTable, ((s.setSt t).onCounters c.count).supply = s.supply := fun _ => rfl
    have h3 : ∀ t : SpanTable, ((s.setSt t).onCounters c.count).iu = s.iu := fun _ => rfl
    have h4 : ∀ t : SpanTable, ((s.setSt t).onCounters c.count).st = t := fun _ => rfl
    rw [h2, h3, h4]
    omega

/-! ### The Index Unit's tasks -/

/-- What an offer adds to the supply; a gap's is there already. -/
def IndexTask.cost : IndexTask → Nat
  | .offer (.span _ _) => 1
  | .offer (.runEnd _) => 1
  | .offer (.gap _) => 0
  | .progress => 0
  | .refill => 0
  | .handNext _ => 0
  | .testEnding => 0

def costs (ts : List IndexTask) : Nat := (ts.map IndexTask.cost).sum

@[simp] theorem costs_nil : costs [] = 0 := rfl

@[simp] theorem costs_cons (t : IndexTask) (ts : List IndexTask) : costs (t :: ts) = t.cost + costs ts := rfl

theorem costs_append (ts us : List IndexTask) : costs (ts ++ us) = costs ts + costs us := by
  simp [costs]

theorem length_insertWaiting (slot : Nat) (e : Entry) (l : List (Nat × Entry)) :
    (insertWaiting slot e l).length = l.length + 1 := by
  induction l with
  | nil => rfl
  | cons p rest ih =>
    obtain ⟨n, x⟩ := p
    unfold insertWaiting
    split
    · rfl
    · rw [List.length_cons, ih, List.length_cons]

/-- The work after a change of the index alone. -/
theorem work_setIu (s : State) (v : IndexUnit) : (s.setIu v).work + s.iu.owing +
      3 * ((s.iu.buffers.a.unwritten + s.iu.buffers.b.unwritten) + s.iu.waitSpans.length +
        s.iu.waitRunEnd.isSome.toNat) =
    s.work + v.owing + 3 * ((v.buffers.a.unwritten + v.buffers.b.unwritten) + v.waitSpans.length +
      v.waitRunEnd.isSome.toNat) := by
  simp only [State.work, State.supply, State.setIu_iu, State.setIu_ci, State.setIu_rc, State.setIu_st]
  omega

theorem work_setWriting (s : State) (v : IndexUnit) (h1 : v.buffers = s.iu.buffers)
    (h2 : v.waitSpans = s.iu.waitSpans) (h3 : v.waitRunEnd = s.iu.waitRunEnd) :
    (s.setIu v).work + s.iu.owing = s.work + v.owing := by
  have h := work_setIu s v
  rw [h1, h2, h3] at h
  omega

theorem unwritten_le (v : IndexBuffer) : v.unwritten ≤ 1 := by
  unfold IndexBuffer.unwritten
  split <;> omega

theorem owing_le (u : IndexUnit) : u.owing ≤ 2 := by
  unfold IndexUnit.owing
  split
  · omega
  · split <;> split <;> omega

/-- A buffer that is replaced adds at most one to the work in thirds. -/
theorem work_setBuffer (s : State) (b : BufferName) (v : IndexBuffer) :
    (s.setBuffer b v).work + 3 * (s.buffer b).unwritten = s.work + 3 * v.unwritten := by
  have h := work_setIu s { s.iu with buffers := s.iu.buffers.set b v }
  unfold State.setBuffer State.buffer
  have h1 : ({ s.iu with buffers := s.iu.buffers.set b v } : IndexUnit).owing = s.iu.owing := rfl
  rw [h1] at h
  cases b <;> simp only [PerBuffer.set, PerBuffer.get] at h ⊢ <;> omega

theorem work_onIntake (s : State) (src : Source) (f : IntakeSource → IntakeSource) :
    (s.onIntake src f).work + 3 * (s.intake src).gaps = s.work + 3 * (f (s.intake src)).gaps := by
  simp only [State.work, State.supply, State.intake_eq, State.onIntake_eq, State.setCi_ci, State.setCi_iu,
    State.setCi_rc, State.setCi_st]
  cases src <;> simp only [PerSource.set, PerSource.get] <;> omega

theorem work_handBack (s : State) (o : Offer) :
    (s.handBack o).work + 3 * (match o with | .gap src => (s.intake src).offeredGap.isSome.toNat | _ => 0) ≤
      s.work := by
  cases o with
  | span slot e => cases e <;> exact work_release _ _ _
  | runEnd e => exact le_refl _
  | gap src =>
    have h := work_onIntake s src fun i => { i with offeredGap := none }
    simp only [IntakeSource.gaps, Option.isSome_none, Bool.toNat_false] at h
    simp only [State.handBack]
    omega

theorem work_takeOffer (s : State) (o : Offer) :
    (s.takeOffer o).1.work + 3 * costs (s.takeOffer o).2 ≤ s.work + 3 * (IndexTask.offer o).cost := by
  have hafter : costs o.after = 0 := by cases o <;> rfl
  unfold State.takeOffer
  split
  · cases o with
    | span slot e =>
      have h := work_setIu s { s.iu with waitSpans := insertWaiting slot e s.iu.waitSpans }
      have h1 : ({ s.iu with waitSpans := insertWaiting slot e s.iu.waitSpans } : IndexUnit).owing =
        s.iu.owing := rfl
      simp only [h1, length_insertWaiting] at h
      simp only [State.wait, IndexTask.cost, costs_nil]
      omega
    | gap src => simp [State.wait, IndexTask.cost]
    | runEnd e =>
      have h := work_setIu s { s.iu with waitRunEnd := some e }
      have h1 : ({ s.iu with waitRunEnd := some e } : IndexUnit).owing = s.iu.owing := rfl
      simp only [h1, Option.isSome_some, Bool.toNat_true] at h
      simp only [State.wait, IndexTask.cost, costs_nil]
      omega
  · next buf _ =>
    split
    · simp
    · next e he =>
      have h := work_setBuffer s buf ((s.buffer buf).append e o.isRunEnd)
      have h1 := unwritten_le ((s.buffer buf).append e o.isRunEnd)
      have h2 := work_handBack (s.setBuffer buf ((s.buffer buf).append e o.isRunEnd)) o
      dsimp only
      rw [hafter]
      cases o with
      | span slot x => simp only [IndexTask.cost] at h2 ⊢; omega
      | runEnd x => simp only [IndexTask.cost] at h2 ⊢; omega
      | gap src =>
        have h3 : (s.intake src).offeredGap.isSome.toNat = 1 := by
          cases hg : (s.intake src).offeredGap with
          | none => unfold State.offerEntry at he; dsimp only at he; rw [hg] at he; cases he
          | some g => rfl
        have h4 : ((s.setBuffer buf ((s.buffer buf).append e (Offer.gap src).isRunEnd)).intake src) =
          s.intake src := rfl
        simp only [h4, h3, IndexTask.cost] at h2 ⊢
        omega

theorem work_forSources (f : Source → State → State) (s : State) (h : ∀ src s, (f src s).work ≤ s.work) :
    (forSources f s).work ≤ s.work :=
  ((h .s3 _).trans (h .s2 _)).trans ((h .s1 _).trans (h .s0 s))

theorem work_endRun (s : State) (written : Bool) : (s.endRun written).work ≤ s.work := by
  have h : ∀ (src : Source) (u : State),
      (if (u.intake src).intake = .closed then u.onIntake src fun i => { i with intake := .idle } else u).work ≤
        u.work := by
    intro src u
    split
    · exact (aside_onIntake _ _ _ rfl).work.le
    · exact le_refl _
  have h1 : ∀ v, ((s.setRc { s.rc with runState := .idle, lastEnd := v }).work) ≤ s.work := by
    intro v
    have h0 : RunState.idle.endsLater = 0 := rfl
    simp only [State.work, State.supply, State.setRc_iu, State.setRc_ci, State.setRc_st, State.setRc_rc, h0]
    omega
  have h3 : ∀ u : State, (u.calmAll.setFlag .runEnded).work = u.work := fun u =>
    (Aside.trans ⟨rfl, fun _ => rfl, rfl, rfl⟩ (aside_setFlag u.calmAll .runEnded)).work
  unfold State.endRun
  dsimp only
  rw [h3]
  exact (work_forSources _ _ h).trans (h1 _)

theorem work_blockDone (s : State) (w : Writing) : (s.blockDone w).work ≤ s.work := by
  have h : ((s.setIu { s.iu with
      buffers := s.iu.buffers.set w.buffer .empty
      writing := none
      blockSeq := s.iu.blockSeq + 1 }).setFlag .checkpointDone).work ≤ s.work := by
    rw [(aside_setFlag _ _).work]
    have h := work_setIu s { s.iu with
      buffers := s.iu.buffers.set w.buffer .empty, writing := none, blockSeq := s.iu.blockSeq + 1 }
    have h1 : ({ s.iu with
      buffers := s.iu.buffers.set w.buffer .empty, writing := none,
      blockSeq := s.iu.blockSeq + 1 } : IndexUnit).owing = 0 := rfl
    have h2 : IndexBuffer.empty.unwritten = 0 := rfl
    rw [h1] at h
    cases hb : w.buffer <;> simp only [hb, PerBuffer.set, h2] at h ⊢ <;> omega
  have h2 : ∀ (b : Bool) (u : State), (if b then
      u.onCounters fun c => { c with checkpointsWritten := c.checkpointsWritten + 1 } else u).work = u.work := by
    intro b u
    split <;> rfl
  unfold State.blockDone
  dsimp only
  split
  · exact (work_endRun _ _).trans ((h2 _ _).le.trans h)
  · exact (h2 _ _).le.trans h

theorem closedBuffer_closed {s : State} {b : BufferName} (h : s.closedBuffer = some b) :
    (s.buffer b).state = .closed := by
  unfold State.closedBuffer at h
  split at h
  · next hc => cases h; exact hc.1
  · split at h
    · next hc => cases h; exact hc
    · cases h

theorem work_becomeWriting (s : State) (b : BufferName) (hw : s.iu.writing = none)
    (hb : (s.buffer b).state = .closed) : (s.becomeWriting b).work ≤ s.work := by
  have key : ∀ d : PerLane Duty, (s.setIu { s.iu with
      buffers := s.iu.buffers.set b { s.buffer b with state := .writing }
      writing := some { buffer := b, seq := s.iu.blockSeq, duty := d } }).work ≤ s.work := by
    intro d
    have h := work_setIu s { s.iu with
      buffers := s.iu.buffers.set b { s.buffer b with state := .writing }
      writing := some { buffer := b, seq := s.iu.blockSeq, duty := d } }
    have h1 := owing_le { s.iu with
      buffers := s.iu.buffers.set b { s.buffer b with state := .writing }
      writing := some { buffer := b, seq := s.iu.blockSeq, duty := d } }
    have h2 : s.iu.owing = 0 := by simp only [IndexUnit.owing, hw]
    have h3 : (s.buffer b).unwritten = 1 := by simp only [IndexBuffer.unwritten, hb]
    have h4 : ({ s.buffer b with state := .writing } : IndexBuffer).unwritten = 0 := rfl
    unfold State.buffer at h h1 h3 h4 ⊢
    cases b <;> simp only [PerBuffer.set, PerBuffer.get] at h h1 h3 h4 ⊢ <;> omega
  unfold State.becomeWriting
  dsimp only
  split
  · rw [(aside_setFlag _ _).work]; exact key _
  · exact key _

theorem work_progressOnce (s : State) :
    s.progressOnce.1.work + 3 * costs s.progressOnce.2 ≤ s.work := by
  unfold State.progressOnce
  split
  · split
    · simp
    · simpa [IndexTask.cost] using work_blockDone s _
  · next hw =>
    split
    · next b hb => simpa [IndexTask.cost] using work_becomeWriting s b hw (closedBuffer_closed hb)
    · simp

theorem work_refillOnce (s : State) : s.refillOnce.1.work + 3 * costs s.refillOnce.2 ≤ s.work := by
  unfold State.refillOnce
  split
  · next o _ ho =>
    simp only [costs_cons, costs_nil]
    unfold State.nextWaiting at ho
    split at ho
    · next slot e rest hs =>
      cases ho
      have h := work_setIu s { s.iu with waitSpans := s.iu.waitSpans.tail }
      have h1 : ({ s.iu with waitSpans := s.iu.waitSpans.tail } : IndexUnit).owing = s.iu.owing := rfl
      rw [h1] at h
      simp only [State.unwait, IndexTask.cost]
      simp only [hs, List.tail_cons, List.length_cons] at h ⊢
      omega
    · split at ho
      · cases ho; simp [State.unwait, IndexTask.cost]
      · cases hr : s.iu.waitRunEnd with
        | none => rw [hr] at ho; cases ho
        | some e =>
          rw [hr] at ho
          cases ho
          have h := work_setIu s { s.iu with waitRunEnd := none }
          have h1 : ({ s.iu with waitRunEnd := none } : IndexUnit).owing = s.iu.owing := rfl
          simp only [h1, hr, Option.isSome_some, Option.isSome_none, Bool.toNat_true, Bool.toNat_false] at h
          simp only [State.unwait, IndexTask.cost]
          omega
  · simp

theorem work_handOver (s : State) (src : Source) :
    (s.handOver src).1.work + 3 * costs (s.handOver src).2 ≤ s.work := by
  unfold State.handOver
  split
  · next g h1 h2 =>
    have h := work_onIntake s src fun i => { i with pendingGap := none, offeredGap := some g }
    simp only [IntakeSource.gaps, h1, h2, Option.isSome_some, Option.isSome_none, Bool.toNat_true,
      Bool.toNat_false] at h
    simp only [costs_cons, costs_nil, IndexTask.cost]
    omega
  · simp

theorem work_testEnding (s : State) : s.testEnding.1.work + 3 * costs s.testEnding.2 ≤ s.work := by
  unfold State.testEnding
  split
  · next h =>
    have h0 : RunState.ending.endsLater = 0 := rfl
    have h1 : s.rc.runState.endsLater = 1 := by rw [h.1]; rfl
    have h2 : ∀ v : IndexUnit, v.owing = s.iu.owing → v.buffers = s.iu.buffers →
        v.waitSpans = s.iu.waitSpans → v.waitRunEnd = s.iu.waitRunEnd →
        ((s.setRc { s.rc with runState := .ending, deadlineTimer := none }).setIu v).work + 3 = s.work := by
      intro v e1 e2 e3 e4
      simp only [State.work, State.supply, State.setIu_iu, State.setIu_ci, State.setIu_rc, State.setIu_st,
        State.setRc_ci, State.setRc_rc, State.setRc_st, h0, h1, e1, e2, e3, e4]
      omega
    exact (h2 { s.iu with timer := none, lock := false } rfl rfl rfl rfl).le
  · simp

theorem work_indexTask (s : State) (t : IndexTask) :
    (s.indexTask t).1.work + 3 * costs (s.indexTask t).2 ≤ s.work + 3 * t.cost := by
  cases t with
  | offer o => exact work_takeOffer s o
  | progress => exact work_progressOnce s
  | refill => exact work_refillOnce s
  | testEnding => exact work_testEnding s
  | handNext src =>
    simp only [State.indexTask]
    split
    · exact work_handOver s src
    · simp [IndexTask.cost]

theorem work_runTasks (fuel : Nat) (ts : List IndexTask) (s : State) :
    (State.runTasks fuel ts s).work ≤ s.work + 3 * costs ts := by
  induction fuel generalizing ts s with
  | zero => simp [State.runTasks]
  | succ fuel ih =>
    cases ts with
    | nil => simp [State.runTasks]
    | cons t ts =>
      have h := ih ((s.indexTask t).2 ++ ts) (s.indexTask t).1
      have k := work_indexTask s t
      rw [costs_append] at h
      rw [costs_cons]
      unfold State.runTasks
      omega

theorem work_index (s : State) (ts : List IndexTask) : (s.index ts).work ≤ s.work + 3 * costs ts :=
  work_runTasks _ _ _

theorem work_offerSpan (s : State) (slot : Nat) : (s.offerSpan slot).work ≤ s.work + 3 := by
  unfold State.offerSpan
  split
  · exact work_index _ _
  · omega

/-- A lane that owes the block misses it, and the work lessens. -/
theorem work_blockMissed (s : State) (lane : Lane) : (s.blockMissed lane).work ≤ s.work ∧
    (s.owes lane = true → (s.blockMissed lane).work < s.work) := by
  unfold State.blockMissed State.owes
  split
  · next w hw =>
    by_cases hd : w.duty.get lane = .owed
    · rw [if_pos hd]
      have key : ((s.setDuty w lane .missed).setFlag .indexMissed).work + 1 = s.work := by
        rw [(aside_setFlag _ _).work]
        have h : ∀ v : IndexUnit, v.writing = some { w with duty := w.duty.set lane .missed } →
            v.owing + 1 = s.iu.owing := by
          intro v hv
          unfold IndexUnit.owing
          rw [hv, hw]
          obtain ⟨b, q, d0, d1⟩ := w
          cases lane <;> cases d0 <;> cases d1 <;> first | rfl | cases hd
        unfold State.setDuty
        have h1 := work_setWriting s { s.iu with writing := some { w with duty := w.duty.set lane .missed } }
          rfl rfl rfl
        have h2 := h { s.iu with writing := some { w with duty := w.duty.set lane .missed } } rfl
        rw [← h2] at h1
        omega
      have h := work_index ((s.setDuty w lane .missed).setFlag .indexMissed) [.progress]
      simp only [costs_cons, costs_nil, IndexTask.cost] at h
      exact ⟨by omega, fun _ => by omega⟩
    · rw [if_neg hd]
      exact ⟨le_refl _, fun h => absurd (by simpa using h) hd⟩
  · exact ⟨le_refl _, fun h => by cases h⟩

/-! ### Commit, shed and requeue -/

theorem work_commit (s : State) (slot : Nat) : (s.commit slot).work ≤ s.work + 3 := by
  unfold State.commit
  split
  · split
    · have h := work_offerSpan (s.enter slot (Span.committed ‹_›)) slot
      have k := (work_leave s slot (Span.committed ‹_›) (by intro h; cases h)).1
      exact h.trans (by omega)
    · omega
  · omega

theorem work_shedSpan (s : State) (slot : Nat) (c : ShedCause) : (s.shedSpan slot c).work ≤ s.work + 3 := by
  unfold State.shedSpan
  split
  · next sp _ =>
    split
    · omega
    · have h := work_offerSpan (s.enter slot { sp with state := .shed, shedCause := some c }) slot
      have k := (work_leave s slot { sp with state := .shed, shedCause := some c } (by intro h; cases h)).1
      exact h.trans (by omega)
  · omega

theorem work_requeue (s : State) (slot : Nat) : (s.requeue slot).work ≤ s.work + 4 := by
  unfold State.requeue
  split
  · split
    · split
      · exact (work_commit _ _).trans (by omega)
      · exact (work_shedSpan _ _ _).trans (by omega)
    · exact work_enter _ _ _
  · omega

/-! ### The work left to the lanes -/

/-- The work left to a lane: its standing claim, and the job that an answer may cancel. -/
def State.stir (s : State) (l : Lane) : Nat :=
  20 * (s.ds.claim.get l).isSome.toNat + 9 * ((s.al.get l).state == .busy).toNat

/-- The work left. -/
def State.toDo (s : State) : Nat := s.stir .l0 + s.stir .l1 + s.work

theorem toDo_eq (s : State) (l : Lane) : s.toDo = s.stir l + s.stir l.other + s.work := by
  unfold State.toDo
  cases l
  · rfl
  · simp only [Lane.other]; omega

theorem stir_other {l : Lane} {s t : State} (h : Moves l s t) : t.stir l.other = s.stir l.other := by
  unfold State.stir
  rw [h.al _ (Lane.other_ne l), h.claim _ (Lane.other_ne l)]

theorem stir_congr {s t : State} (h : t.al = s.al) (k : t.ds.claim = s.ds.claim) (l : Lane) :
    t.stir l = s.stir l := by
  unfold State.stir
  rw [h, k]

theorem Outside.stir {s t : State} (h : Outside s t) (l : Lane) : t.stir l = s.stir l :=
  stir_congr h.al (by rw [h.ds]) l

/-- A lane without a claim. -/
theorem stir_free {s : State} {l : Lane} (h : s.ds.claim.get l = none) : s.stir l ≤ 9 := by
  unfold State.stir
  rw [h]
  cases ((s.al.get l).state == .busy) <;> simp

theorem stir_away {s : State} {l : Lane} (h : s.ds.claim.get l = none)
    (hb : ((s.al.get l).state == .busy) = false) : s.stir l = 0 := by
  unfold State.stir
  rw [h, hb]
  rfl

theorem stir_rests {s : State} {l : Lane} (hb : ((s.al.get l).state == .busy) = false) : s.stir l ≤ 20 := by
  unfold State.stir
  rw [hb]
  cases (s.ds.claim.get l) <;> simp

theorem stir_claim {s : State} {l : Lane} {cl : Claim} (h : s.ds.claim.get l = some cl) : 20 ≤ s.stir l := by
  unfold State.stir
  rw [h]
  simp

theorem stir_busy {s : State} {l : Lane} (h : (s.al.get l).state = .busy) : 9 ≤ s.stir l := by
  unfold State.stir
  rw [h]
  simp

/-- What an effect on one lane leaves to do: nothing more to the index and the queues, and at most `n` to the
lane. -/
structure Leaves (l : Lane) (n : Nat) (s t : State) : Prop where
  moves : Moves l s t
  work : t.work ≤ s.work
  stir : t.stir l ≤ n

theorem Leaves.toDo {l : Lane} {n : Nat} {s t : State} (h : Leaves l n s t) :
    t.toDo ≤ n + s.stir l.other + s.work := by
  have h1 := stir_other h.moves
  have h2 := h.work
  have h3 := h.stir
  rw [toDo_eq t l]
  omega

theorem aside_leaveTo (s : State) (l : Lane) (st : LaneState) : Aside s (s.leaveTo l st) :=
  ⟨rfl, fun _ => rfl, rfl, rfl⟩

theorem aside_onLane (s : State) (l : Lane) (f : LaneUnit → LaneUnit) : Aside s (s.onLane l f) :=
  ⟨rfl, fun _ => rfl, rfl, rfl⟩

theorem aside_sendAwaiting (s : State) (l : Lane) (f : Word16 → LaneFrame) (time : Nat) :
    Aside s (s.sendAwaiting l f time) := ⟨rfl, fun _ => rfl, rfl, rfl⟩

theorem leaves_enterWaking (s : State) (l : Lane) : Leaves l 0 s (s.enterWaking l) where
  moves := moves_enterWaking s l
  work := ((aside_leaveTo s l _).trans ((aside_onLane _ l _).trans (aside_sendAwaiting _ l _ _))).work.le
  stir := by
    unfold State.enterWaking
    refine (stir_away ?_ ?_).le
    · rw [ds_sendAwaiting, ds_onLane, claim_leaveTo]
    · rw [get_sendAwaiting, get_onLane, get_leaveTo]; rfl

theorem leaves_enterParking (s : State) (l : Lane) : Leaves l 0 s (s.enterParking l) where
  moves := moves_enterParking s l
  work := by
    unfold State.enterParking
    dsimp only
    split
    · exact ((aside_leaveTo s l _).trans ((aside_onLane _ l _).trans (aside_sendAwaiting _ l _ _))).work.le
    · exact ((aside_leaveTo s l _).trans (aside_sendAwaiting _ l _ _)).work.le
  stir := by
    unfold State.enterParking
    dsimp only
    split
    · refine (stir_away ?_ ?_).le
      · rw [ds_sendAwaiting, ds_onLane, claim_leaveTo]
      · rw [get_sendAwaiting, get_onLane, get_leaveTo]; rfl
    · refine (stir_away ?_ ?_).le
      · rw [ds_sendAwaiting, claim_leaveTo]
      · rw [get_sendAwaiting, get_leaveTo]; rfl

theorem leaves_enterPaused (s : State) (l : Lane) : Leaves l 0 s (s.enterPaused l) := by
  have o := outside_blockMissed (s.leaveTo l .paused) l
  refine ⟨(moves_leaveTo s l _).trans (o.moves l), (work_blockMissed _ l).1, ?_⟩
  refine (o.stir l).le.trans (stir_away (claim_leaveTo s l _) ?_).le
  rw [get_leaveTo]
  rfl

theorem moves_placeClaim (s : State) (l : Lane) : Moves l s (s.placeClaim l) := by
  unfold State.placeClaim
  split
  · exact ⟨fun _ _ => rfl, fun _ _ => rfl, rfl⟩
  · exact moves_setClaim s l _

theorem work_placeClaim (s : State) (l : Lane) : (s.placeClaim l).work = s.work := by
  unfold State.placeClaim
  split <;> rfl

theorem al_placeClaim (s : State) (l : Lane) : (s.placeClaim l).al = s.al := by
  unfold State.placeClaim
  split <;> rfl

/-- The next state of a lane whose job has ended: READY with a claim, or away (R146). -/
theorem leaves_nextLaneState (s : State) (l : Lane) : Leaves l 20 s (s.nextLaneState l) := by
  have m := moves_onLane s l fun a => { a with action := .none }
  unfold State.nextLaneState
  dsimp only
  split
  · have h := leaves_enterPaused (s.onLane l fun a => { a with action := .none }) l
    exact ⟨m.trans h.moves, h.work, h.stir.trans (by omega)⟩
  · have h := leaves_enterParking (s.onLane l fun a => { a with action := .none }) l
    exact ⟨m.trans h.moves, h.work, h.stir.trans (by omega)⟩
  · refine ⟨m.trans ((moves_onLane _ l _).trans (moves_placeClaim _ l)), (work_placeClaim _ l).le, ?_⟩
    refine stir_rests ?_
    rw [al_placeClaim]
    cases l <;> rfl

theorem aside_moveCursors (s : State) (l : Lane) (f : LaneUnit → LaneUnit) : Aside s (s.moveCursors l f) := by
  unfold State.moveCursors
  dsimp only
  split
  · exact Aside.trans (t := s.onLane l fun a => (f a).evaluated) ⟨rfl, fun _ => rfl, rfl, rfl⟩ (aside_setFlag _ _)
  · exact ⟨rfl, fun _ => rfl, rfl, rfl⟩

theorem leaves_startSpanJob (s : State) (l : Lane) (slot : Nat) (r : Word16) (q : Word32) :
    Leaves l 9 s (s.startSpanJob l slot r q) where
  moves := moves_startSpanJob s l slot r q
  work := by
    unfold State.startSpanJob
    exact (aside_moveCursors s l _).work.le
  stir := by
    refine stir_free ?_
    unfold State.startSpanJob State.sendBurst
    rw [ds_sendAwaiting]
    cases l <;> rfl

/-- The join starts both lanes (R119). -/
theorem toDo_join (s : State) (c : PairContext) : (s.join c).toDo ≤ 18 + s.work := by
  have h1 := leaves_startSpanJob (s.setPair (some { c with phase := .active })) c.follower c.slot c.runId c.seq
  have h2 := leaves_startSpanJob ((s.setPair (some { c with phase := .active })).startSpanJob c.follower
    c.slot c.runId c.seq) c.leader c.slot c.runId c.seq
  have h3 := h2.toDo
  have h4 := h1.stir
  have h5 := h1.work
  have h6 : (s.setPair (some { c with phase := .active })).work = s.work := rfl
  have h7 : c.leader.other = c.follower := rfl
  rw [h7] at h3
  unfold State.join
  dsimp only
  omega

/-! ### Answers -/

/-- The index job is taken, or the block is missed at once (R103, R145). -/
theorem toDo_takeIndexJob {s : State} {l : Lane} {cl : Claim} (hc : s.ds.claim.get l = some cl) (w : Writing)
    (ho : s.owes l = true) : (s.takeIndexJob l w).toDo < s.toDo := by
  have hs := stir_claim hc
  unfold State.takeIndexJob
  dsimp only
  split
  · have h1 := (work_blockMissed (s.leaveTo l .busy) l).2 ho
    have h2 : (s.leaveTo l .busy).work = s.work := rfl
    have h3 := stir_other (moves_leaveTo s l .busy)
    have h4 := (outside_blockMissed (s.leaveTo l .busy) l).stir l.other
    have h5 := (leaves_nextLaneState ((s.leaveTo l .busy).blockMissed l) l).toDo
    rw [toDo_eq s l]
    omega
  · have h : Leaves l 9 s (((s.leaveTo l .busy).setJob l (some (.index
        { buffer := w.buffer, address := (s.lane l).indexAddress, retries := 0,
          image := s.imageFor l w }))).sendIndex l
        { buffer := w.buffer, address := (s.lane l).indexAddress, retries := 0, image := s.imageFor l w }) := by
      unfold State.sendIndex
      refine ⟨(moves_leaveTo s l _).trans ((moves_setJob _ l _).trans (moves_sendAwaiting _ l _ _)),
        ((aside_leaveTo s l _).trans ((aside_onLane _ l _).trans (aside_sendAwaiting _ l _ _))).work.le,
        stir_free ?_⟩
      unfold State.setJob
      rw [ds_sendAwaiting, ds_onLane, claim_leaveTo]
    have h1 := h.toDo
    rw [toDo_eq s l]
    omega

theorem toDo_enterWaking {s : State} {l : Lane} {cl : Claim} (hc : s.ds.claim.get l = some cl) :
    (s.enterWaking l).toDo < s.toDo := by
  have h1 := (leaves_enterWaking s l).toDo
  have h2 := stir_claim hc
  rw [toDo_eq s l]
  omega

theorem toDo_answerIndex {s : State} {l : Lane} {cl : Claim} (hc : s.ds.claim.get l = some cl) (w : Writing)
    (ho : s.owes l = true) : (s.answerIndex l w).toDo < s.toDo := by
  unfold State.answerIndex
  split
  · exact toDo_enterWaking hc
  · exact toDo_takeIndexJob hc w ho

/-- The cancel of a follower's own write, which is not the pair's (R118). -/
theorem cancelJob_follower {s : State} {c : PairContext} (hp : s.ds.pair = some c) (hf : c.phase = .forming)
    (hw : (s.lane c.follower).writesSpan = true) :
    (s.cancelJob c.follower).work ≤ s.work + 4 ∧ (s.cancelJob c.follower).ds = s.ds ∧
      Moves c.follower s (s.cancelJob c.follower) ∧
      ((s.cancelJob c.follower).al.get c.follower).state = (s.al.get c.follower).state ∧
      ((s.cancelJob c.follower).al.get c.follower).dataFull = (s.al.get c.follower).dataFull := by
  unfold LaneUnit.writesSpan at hw
  unfold State.cancelJob
  split
  · next j hj =>
    have hsc : ∀ u : State, u = s.sendCancel c.follower → u.work = s.work ∧ u.ds = s.ds ∧ u.al = s.al := by
      intro u hu
      subst hu
      unfold State.sendCancel
      split <;> exact ⟨rfl, rfl, rfl⟩
    obtain ⟨e1, e2, e3⟩ := hsc _ rfl
    generalize s.sendCancel c.follower = u at e1 e2 e3 ⊢
    have d1 : (u.dropJob c.follower j.reserved).work = s.work := e1 ▸ rfl
    have d2 : (u.dropJob c.follower j.reserved).ds = s.ds := e2 ▸ rfl
    have d3 : (u.dropJob c.follower j.reserved).al.get c.follower =
        { s.al.get c.follower with
          job := none, timer := none, deadSpace := (s.al.get c.follower).deadSpace + j.reserved } := by
      unfold State.dropJob
      rw [get_onLane, e3]
    have d4 : Moves c.follower s (u.dropJob c.follower j.reserved) :=
      Moves.trans ⟨fun _ _ => by rw [e3], fun _ _ => by rw [e2], by rw [e2]⟩ (moves_dropJob u c.follower j.reserved)
    generalize u.dropJob c.follower j.reserved = v at d1 d2 d3 d4 ⊢
    have hr : v.reportOutcome c.follower j .cancelled 0 = v.reportWrite c.follower j .cancelled 0 := by
      unfold State.reportOutcome
      rw [d2, hp]
      dsimp only
      rw [if_neg]
      rintro ⟨-, h⟩
      exact Lane.other_ne c.leader h.symm
    rw [hr]
    have key : (v.reportWrite c.follower j .cancelled 0).work ≤ v.work + 4 ∧
        Outside v (v.reportWrite c.follower j .cancelled 0) := by
      unfold State.reportWrite
      split
      · exact ⟨by omega, .refl v⟩
      · next sp _ =>
        dsimp only
        rw [d2, hp]
        dsimp only
        rw [if_neg (by rw [hf]; rintro ⟨h, -⟩; cases h)]
        exact ⟨work_requeue (v.setSpan j.slot (sp.noteOutcome .cancelled)) j.slot,
          Outside.after (outside_requeue _ _) rfl rfl rfl rfl rfl⟩
    refine ⟨by omega, key.2.ds.trans d2, d4.trans (key.2.moves _), ?_, ?_⟩
    · rw [key.2.al, d3]
    · rw [key.2.al, d3]
  · next j hj => rw [hj] at hw; cases hw
  · next hj => rw [hj] at hw; cases hw

/-- A roles' end changes no lane that is away. -/
theorem roleEnded_away {s : State} {l : Lane} (h : (s.al.get l).state.claims = false) : s.roleEnded l = s := by
  unfold State.roleEnded
  rw [State.lane_eq, h]
  rfl

/-- What the follower of a pair is left with, and what there is to do, when the pair is not formed after all. -/
structure Spares (s t : State) (c : PairContext) : Prop where
  follower : t.al.get c.follower = s.al.get c.follower
  toDo : t.toDo ≤ s.stir c.follower + 24 + s.work

/-- The leader's pair write ends with nothing reserved (R121). -/
theorem spares_endUnstarted (s : State) (c : PairContext) : Spares s (s.endUnstarted c) c := by
  have hne : c.follower ≠ c.leader := Lane.other_ne c.leader
  have h7 : c.leader.other = c.follower := rfl
  have h0 := work_requeue (s.setPair none) c.slot
  have o := outside_requeue (s.setPair none) c.slot
  have h1 := leaves_nextLaneState ((s.dissolve c).setJob c.leader none) c.leader
  have m : Moves c.leader (s.dissolve c) ((s.dissolve c).setJob c.leader none) := moves_setJob _ _ _
  refine ⟨?_, ?_⟩
  · unfold State.endUnstarted
    rw [h1.moves.al _ hne, m.al _ hne]
    exact congrArg (fun a => PerLane.get a c.follower) o.al
  · unfold State.endUnstarted
    have h3 := h1.toDo
    have h4 := stir_other m
    have h5 := o.stir c.follower
    have h6 : (s.setPair none).stir c.follower = s.stir c.follower := rfl
    have h8 : ((s.dissolve c).setJob c.leader none).work = (s.dissolve c).work := rfl
    have h9 : (s.dissolve c) = (s.setPair none).requeue c.slot := rfl
    have h10 : (s.setPair none).work = s.work := rfl
    rw [h7] at h3 h4
    rw [h9] at h3 h4 h8 ⊢
    omega

/-- The leader's pair write becomes a single write (R122). -/
theorem spares_startSingly (s : State) (c : PairContext) : Spares s (s.startSingly c) c := by
  have hne : c.follower ≠ c.leader := Lane.other_ne c.leader
  have h1 := leaves_startSpanJob (s.setPair none) c.leader c.slot c.runId c.seq
  have h3 := h1.toDo
  have h6 : (s.setPair none).stir c.follower = s.stir c.follower := rfl
  have h10 : (s.setPair none).work = s.work := rfl
  have h7 : c.leader.other = c.follower := rfl
  rw [h7] at h3
  exact ⟨h1.moves.al _ hne, by unfold State.startSingly; omega⟩

theorem spares_convert (s : State) (c : PairContext) : Spares s (s.convert c) c := by
  unfold State.convert
  split
  · exact spares_startSingly s c
  · dsimp only
    split
    · exact ⟨(spares_endUnstarted _ c).follower, (spares_endUnstarted (s.setChoices _) c).toDo⟩
    · exact ⟨(spares_startSingly _ c).follower, (spares_startSingly (s.setChoices _) c).toDo⟩

/-- The follower is lost to a pair that is being formed (R121, R122). -/
theorem toDo_followerLost (s : State) (c : PairContext) (hf : (s.al.get c.follower).state.claims = false)
    (hs : s.stir c.follower = 0) : (s.followerLost c).toDo ≤ 24 + s.work := by
  have key : ∀ t, Spares s t c → (t.roleEnded c.follower).toDo ≤ 24 + s.work := fun t h => by
    rw [roleEnded_away (by rw [h.follower]; exact hf)]
    have := h.toDo
    omega
  unfold State.followerLost
  split
  · exact key _ (spares_endUnstarted s c)
  · exact key _ (spares_convert s c)

/-- The pair request leaves less to do than the leader's claim and the follower's job. -/
theorem toDo_pairRequest {s : State} {c : PairContext} (hp : s.ds.pair = some c) (hf : c.phase = .forming)
    (hl : s.stir c.leader ≤ 9) (hd : (s.al.get c.follower).dataFull = false) :
    (s.pairRequest c).toDo < 20 + s.stir c.follower + s.work := by
  have hne : c.follower ≠ c.leader := Lane.other_ne c.leader
  have hne' : c.leader ≠ c.follower := fun e => hne e.symm
  have h7 : c.follower.other = c.leader := by unfold PairContext.follower; cases c.leader <;> rfl
  have hlet : ∀ t : State, t.toDo = t.stir c.follower + t.stir c.leader + t.work := fun t => by
    rw [toDo_eq t c.follower, h7]
  have k := moves_setClaim s c.follower none
  have w0 : (s.setClaim c.follower none).work = s.work := rfl
  have a0 : (s.setClaim c.follower none).al = s.al := rfl
  have p0 : (s.setClaim c.follower none).ds.pair = some c := hp
  have c0 : (s.setClaim c.follower none).ds.claim.get c.follower = none := by cases c.follower <;> rfl
  have l0 : (s.setClaim c.follower none).stir c.leader = s.stir c.leader := by
    have := stir_other k
    rwa [h7] at this
  have f0 : (s.setClaim c.follower none).stir c.follower ≤ s.stir c.follower := by
    unfold State.stir
    rw [c0, a0]
    simp
  have easy : ∀ t : State, Leaves c.follower 0 (s.setClaim c.follower none) t →
      t.toDo < 20 + s.stir c.follower + s.work := by
    intro t ht
    have h1 := ht.toDo
    rw [h7] at h1
    omega
  unfold State.pairRequest
  dsimp only
  generalize s.setClaim c.follower none = s1 at *
  split
  · have := toDo_join s1 c
    omega
  · next hst =>
    have hb := stir_busy (s := s) (l := c.follower) hst
    split
    · next hk =>
      obtain ⟨e1, e2, e3, e4, e5⟩ := cancelJob_follower (s := s1) p0 hf (by
        rw [State.lane_eq, a0, ← State.lane_eq]; exact hk.1)
      rw [a0] at e4 e5
      have c1 : (s1.cancelJob c.follower).ds.claim.get c.follower = none := by rw [e2]; exact c0
      have p1 : (s1.cancelJob c.follower).ds.pair = some c := by rw [e2]; exact p0
      have l1 : (s1.cancelJob c.follower).stir c.leader = s.stir c.leader := by
        have := stir_other e3
        rw [h7] at this
        omega
      generalize s1.cancelJob c.follower = u at e1 e2 e3 e4 e5 c1 p1 l1 ⊢
      unfold State.afterJob
      dsimp only
      have m := moves_onLane u c.follower fun a => { a with action := .none }
      have w2 : (u.onLane c.follower fun a => { a with action := .none }).work = u.work := rfl
      have p2 : (u.onLane c.follower fun a => { a with action := .none }).ds = u.ds := rfl
      have l2 := stir_other m
      rw [h7] at l2
      have d2 : ((u.onLane c.follower fun a => { a with action := .none }).al.get c.follower).dataFull = false := by
        rw [get_onLane]; exact e5.trans hd
      generalize (u.onLane c.follower fun a => { a with action := .none }) = v at m w2 p2 l2 d2 ⊢
      split
      · have h1 := leaves_enterPaused v c.follower
        have s3 : ((v.enterPaused c.follower).al.get c.follower).state.claims = false := by
          unfold State.enterPaused
          rw [(outside_blockMissed _ _).al, get_leaveTo]
          rfl
        have p3 : (v.enterPaused c.follower).ds.pair = some c := by rw [h1.moves.pair, p2]; exact p1
        unfold State.checkFollower
        rw [p3]
        dsimp only
        rw [if_pos ⟨hf, rfl⟩]
        have h2 := toDo_followerLost (v.enterPaused c.follower) c s3 (Nat.le_zero.1 h1.stir)
        have h3 := h1.work
        omega
      · have h1 := (leaves_enterParking v c.follower).toDo
        rw [h7] at h1
        omega
      · unfold State.enterReady
        dsimp only
        rw [p2, p1]
        dsimp only
        rw [if_pos ⟨hf, rfl⟩, State.lane_eq, d2]
        have h1 := toDo_join (v.setLaneState c.follower .ready) c
        have h2 : (v.setLaneState c.follower .ready).work = v.work := rfl
        simp only [Bool.false_eq_true, if_false]
        omega
    · rw [hlet]; omega
  · have m := moves_onLane s1 c.follower fun a => { a with wakePending := true }
    have h1 := stir_other m
    rw [h7] at h1
    have h2 : (s1.onLane c.follower fun a => { a with wakePending := true }).stir c.follower =
        s1.stir c.follower := by
      unfold State.stir
      rw [get_onLane, ds_onLane]
    have h3 : (s1.onLane c.follower fun a => { a with wakePending := true }).work = s1.work := rfl
    rw [hlet]
    omega
  · exact easy _ (leaves_enterWaking s1 c.follower)
  all_goals rw [hlet]; omega

/-- A pair is formed (R116). -/
theorem toDo_formPair {s : State} {l : Lane} {cl : Claim} (hc : s.ds.claim.get l = some cl) (slot : Nat)
    (sp : Span) (hd : (s.al.get l.other).dataFull = false) : (s.formPair l slot sp).toDo < s.toDo := by
  have hs := stir_claim hc
  have o1 := outside_enter s slot { sp with state := .draining }
  have w1 := (work_leave s slot { sp with state := .draining } (by intro h; cases h)).1
  unfold State.formPair
  dsimp only
  generalize hx : (PairContext.mk slot sp.runId sp.seq l (s.settings sp.source).pairMode .forming
    ⟨.pending, .pending⟩) = c
  have hcl : c.leader = l := by rw [← hx]
  have hcf : c.phase = .forming := by rw [← hx]
  have hfl : c.follower = l.other := by rw [← hx]; rfl
  generalize s.enter slot { sp with state := .draining } = s1 at o1 w1 ⊢
  have k : Moves l (s1.setPair (some c)) (((s1.setPair (some c)).leaveTo l .busy).setJob l
      (some (.span (waitingJob slot sp.runId sp.seq)))) :=
    (moves_leaveTo _ l _).trans (moves_setJob _ l _)
  have h1 := stir_other k
  have h2 := o1.stir l.other
  have h3 : (s1.setPair (some c)).stir l.other = s1.stir l.other := rfl
  have h4 : (((s1.setPair (some c)).leaveTo l .busy).setJob l
      (some (.span (waitingJob slot sp.runId sp.seq)))).work = s1.work := rfl
  have h5 : (((s1.setPair (some c)).leaveTo l .busy).setJob l
      (some (.span (waitingJob slot sp.runId sp.seq)))).stir c.leader ≤ 9 := by
    rw [hcl]
    refine stir_free ?_
    unfold State.setJob
    rw [ds_onLane, claim_leaveTo]
  have h6 := toDo_pairRequest (c := c) (s := ((s1.setPair (some c)).leaveTo l .busy).setJob l
      (some (.span (waitingJob slot sp.runId sp.seq)))) rfl hcf h5 (by
    rw [hfl, k.al _ (Lane.other_ne l)]
    exact (congrArg (fun a => (PerLane.get a l.other).dataFull) o1.al).trans hd)
  rw [hfl] at h6
  rw [toDo_eq s l]
  omega

/-- The winning head is taken (R109, R110, R116). -/
theorem toDo_assign {s : State} {l : Lane} {cl : Claim} {w : Bid} (hc : s.ds.claim.get l = some cl)
    (hw : s.winner l = some w) : (s.assign l w).toDo < s.toDo := by
  have hs := stir_claim hc
  unfold State.assign
  split
  · exact toDo_enterWaking hc
  · split
    · have w1 := (work_leave s w.slot { w.span with state := .draining } (by intro h; cases h)).1
      have o := outside_enter s w.slot { w.span with state := .draining }
      have h1 := (leaves_startSpanJob (s.enter w.slot { w.span with state := .draining }) l w.slot w.span.runId
        w.span.seq).toDo
      have h2 := o.stir l.other
      rw [toDo_eq s l]
      omega
    · next ht =>
      have he := take_of_winner hw
      rw [ht] at he
      exact toDo_formPair hc _ _ (pairable_room (eligible_pair he))

/-! ### Commits at consideration -/

/-- A head that is committed at consideration leaves its queue (R9, R17, R107). -/
theorem work_commitHead {s : State} (h : RunLaw s) {l : Lane} {src : Source} {p : Nat × Span}
    (hh : s.st.head src = some p) (hc : s.commitsAt l p.2 = true) :
    ((s.commit p.1).setFlag .pairDegraded).work < s.work := by
  have hspan := span?_of_head hh
  have hq : p.1 ∈ s.st.queues.get src := by
    unfold SpanTable.head at hh
    split at hh
    · cases hh
    · next slot rest hr =>
      cases hf : findSlot s.st.slots slot with
      | none => rw [hf] at hh; cases hh
      | some sp => rw [hf] at hh; cases hh; rw [hr]; exact List.mem_cons_self
  obtain ⟨sp, h1, h2, -⟩ := ((h.queues src).listed p.1).1 hq
  have h3 : p.2 = sp := by
    unfold State.span? at hspan
    rw [h1] at hspan
    exact (Option.some.inj hspan).symm
  have hm : p.2.mayCommit s.rc.expired = true := by
    unfold State.commitsAt at hc
    split at hc
    · next r hr hx =>
      simp only [Bool.and_eq_true, decide_eq_true_eq] at hc
      unfold Span.mayCommit
      rw [hr]
      dsimp only
      have h4 : p.2.copies.length ≠ 0 := fun e => hc.2 (List.length_eq_zero_iff.1 e)
      by_cases h5 : p.2.copies.length = 1
      · simp [h5, hc.1.2]
      · have : 2 ≤ p.2.copies.length := by omega
        simp [this]
    · cases hc
  rw [(aside_setFlag _ _).work]
  unfold State.commit
  rw [hspan]
  dsimp only
  rw [if_pos hm]
  have k := (work_leave s p.1 p.2.committed (by intro h; cases h)).2
    (by rw [show p.2.committed.source = p.2.source from rfl, h3, h2]; exact hq)
  have := work_offerSpan (s.enter p.1 p.2.committed) p.1
  omega

/-- Whether a source's head is committed at consideration. -/
def State.headCommits (s : State) (l : Lane) (src : Source) : Bool :=
  match s.st.head src with
  | some (_, sp) => s.commitsAt l sp
  | none => false

theorem work_commitHeads (l : Lane) (src : Source) (fuel : Nat) {s : State} (h : RunLaw s) :
    (State.commitHeads l src fuel s).work ≤ s.work ∧
      (s.headCommits l src = true → 0 < fuel → (State.commitHeads l src fuel s).work < s.work) ∧
      (s.headCommits l src = false → State.commitHeads l src fuel s = s) := by
  induction fuel generalizing s with
  | zero => exact ⟨le_refl _, fun _ h => absurd h (by omega), fun _ => rfl⟩
  | succ fuel ih =>
    unfold State.commitHeads State.headCommits
    cases hh : s.st.head src with
    | none => exact ⟨le_refl _, fun e => (nomatch e), fun _ => rfl⟩
    | some p =>
      obtain ⟨slot, sp⟩ := p
      dsimp only
      by_cases hc : s.commitsAt l sp = true
      · rw [if_pos hc]
        have h1 := work_commitHead h hh hc
        have h2 := (ih (((within_commit s slot).trans (within_setFlag _ .pairDegraded)).law 0 h)).1
        dsimp only at h1
        exact ⟨by omega, fun _ _ => by omega, fun e => by rw [hc] at e; cases e⟩
      · rw [if_neg hc]
        exact ⟨le_refl _, fun e => absurd e hc, fun _ => rfl⟩

theorem headCommits_fuel {s : State} {l : Lane} {src : Source} (h : s.headCommits l src = true) :
    0 < (s.st.queues.get src).length := by
  unfold State.headCommits SpanTable.head at h
  cases hq : s.st.queues.get src with
  | nil => rw [hq] at h; cases h
  | cons x rest => simp

theorem work_commitRepairs {s : State} (h : RunLaw s) (l : Lane) : (s.commitRepairs l).work ≤ s.work ∧
    (s.hasRepairCommit l = true → (s.commitRepairs l).work < s.work) := by
  have step : ∀ (src : Source) (u : State), RunLaw u →
      RunLaw (State.commitHeads l src (u.st.queues.get src).length u) ∧
        ((State.commitHeads l src (u.st.queues.get src).length u).work < u.work ∨
          State.commitHeads l src (u.st.queues.get src).length u = u ∧ u.headCommits l src = false) := by
    intro src u hu
    refine ⟨(within_commitHeads _ _ _ _).law 0 hu, ?_⟩
    obtain ⟨-, h2, h3⟩ := work_commitHeads l src (u.st.queues.get src).length hu
    by_cases hc : u.headCommits l src = true
    · exact .inl (h2 hc (headCommits_fuel hc))
    · exact .inr ⟨h3 (by simpa using hc), by simpa using hc⟩
  have hr : s.hasRepairCommit l = true → s.headCommits l .s0 = true ∨ s.headCommits l .s1 = true ∨
      s.headCommits l .s2 = true ∨ s.headCommits l .s3 = true := by
    unfold State.hasRepairCommit Source.all
    simp only [List.any_cons, List.any_nil, Bool.or_false, Bool.or_eq_true]
    exact id
  unfold State.commitRepairs forSources
  obtain ⟨l0, k0⟩ := step .s0 s h
  dsimp only at l0 k0 ⊢
  generalize State.commitHeads l .s0 (s.st.queues.get .s0).length s = s0 at l0 k0 ⊢
  obtain ⟨l1, k1⟩ := step .s1 s0 l0
  generalize State.commitHeads l .s1 (s0.st.queues.get .s1).length s0 = s1 at l1 k1 ⊢
  obtain ⟨l2, k2⟩ := step .s2 s1 l1
  generalize State.commitHeads l .s2 (s1.st.queues.get .s2).length s1 = s2 at l2 k2 ⊢
  obtain ⟨l3, k3⟩ := step .s3 s2 l2
  generalize State.commitHeads l .s3 (s2.st.queues.get .s3).length s2 = s3 at l3 k3 ⊢
  rcases k0 with k0 | ⟨rfl, k0⟩ <;> rcases k1 with k1 | ⟨rfl, k1⟩ <;> rcases k2 with k2 | ⟨rfl, k2⟩ <;>
    rcases k3 with k3 | ⟨rfl, k3⟩
  all_goals first
    | (refine ⟨by omega, fun _ => by omega⟩; done)
    | (refine ⟨le_refl _, fun e => ?_⟩
       have := hr e
       rw [k0, k1, k2, k3] at this
       simp at this)

/-! ### The evaluation -/

theorem toDo_answerSpan {s t : State} {l : Lane} {cl : Claim} (h : RunLaw s)
    (hc : s.ds.claim.get l = some cl) (ht : s.answerSpan l = some t) : t.toDo < s.toDo := by
  unfold State.answerSpan at ht
  dsimp only at ht
  have o : Outside s (if s.hasRepairCommit l = true then s.commitRepairs l else s) := by
    split
    · exact outside_commitRepairs s l
    · exact .refl s
  have w : (if s.hasRepairCommit l = true then s.commitRepairs l else s).work ≤ s.work ∧
      (s.hasRepairCommit l = true →
        (if s.hasRepairCommit l = true then s.commitRepairs l else s).work < s.work) := by
    split
    · exact work_commitRepairs h l
    · next hn => exact ⟨le_refl _, fun e => absurd e hn⟩
  generalize (if s.hasRepairCommit l = true then s.commitRepairs l else s) = s1 at o w ht
  have hc1 : s1.ds.claim.get l = some cl := by rw [o.ds]; exact hc
  have hle : s1.toDo ≤ s.toDo := by
    have h0 := o.stir .l0
    have h1 := o.stir .l1
    unfold State.toDo
    omega
  have hlt : s.hasRepairCommit l = true → s1.toDo < s.toDo := fun e => by
    have h0 := o.stir .l0
    have h1 := o.stir .l1
    have := w.2 e
    unfold State.toDo
    omega
  have step : ∀ {t : State}, (match s1.winner l with
      | some b => some (s1.assign l b)
      | none => if s.hasRepairCommit l = true then some s1 else none) = some t → t.toDo < s.toDo := by
    intro t ht
    split at ht
    · next b hb => cases ht; exact lt_of_lt_of_le (toDo_assign hc1 hb) hle
    · split at ht
      · next e => cases ht; exact hlt e
      · cases ht
  split at ht
  · next x hx =>
    split at ht
    · next hd =>
      cases ht
      refine lt_of_lt_of_le (toDo_answerIndex hc1 _ ?_) hle
      unfold State.owes
      rw [hx]
      simpa using hd.2
    · exact step ht
  · exact step ht

theorem toDo_answer {s t : State} {l : Lane} (h : RunLaw s) (ht : s.answer l = some t) : t.toDo < s.toDo := by
  unfold State.answer at ht
  split at ht
  · cases ht
  · next cl hc =>
    split at ht
    · next w hw =>
      split at ht
      · next hd =>
        cases ht
        refine toDo_answerIndex hc _ ?_
        unfold State.owes
        rw [hw]
        simpa using hd
      · split at ht
        · cases ht
        · split at ht
          · cases ht
          · exact toDo_answerSpan h hc ht
    · split at ht
      · cases ht
      · split at ht
        · cases ht
        · exact toDo_answerSpan h hc ht

theorem toDo_answerOne {s t : State} (h : RunLaw s) (ht : s.answerOne = some t) : t.toDo < s.toDo := by
  unfold State.answerOne at ht
  split at ht
  · cases ht
  · next x hx _ => cases ht; exact toDo_answer h hx
  · next x _ hx => cases ht; exact toDo_answer h hx
  · next x y hx hy =>
    cases ht
    have key : ∀ u : State, (u.setChoices (s.choices + 1)).toDo = u.toDo := fun _ => rfl
    rw [key]
    split
    · exact toDo_answer h hx
    · exact toDo_answer h hy

/-- After as many answers as there is work, no standing claim finds work. -/
theorem answerOne_evaluateFor (fuel : Nat) {s : State} (h : RunLaw s) (hf : s.toDo < fuel) :
    (State.evaluateFor fuel s).answerOne = none := by
  induction fuel generalizing s with
  | zero => omega
  | succ fuel ih =>
    unfold State.evaluateFor
    split
    · next t ht =>
      have := toDo_answerOne h ht
      exact ih ((within_answerOne ht).law 0 h) (by omega)
    · assumption

theorem toDo_evaluateFuel (s : State) : s.toDo < s.evaluateFuel := by
  have h1 := owing_le s.iu
  have h2 := unwritten_le s.iu.buffers.a
  have h3 := unwritten_le s.iu.buffers.b
  have hb : ∀ b : Bool, b.toNat ≤ 1 := by decide
  have hg : ∀ i : IntakeSource, i.gaps ≤ 2 := fun i => by
    have := hb i.pendingGap.isSome
    have := hb i.offeredGap.isSome
    unfold IntakeSource.gaps
    omega
  have h4 := hg s.ci.s0
  have h5 := hg s.ci.s1
  have h6 := hg s.ci.s2
  have h7 := hg s.ci.s3
  have h8 := hb s.iu.waitRunEnd.isSome
  have h9 : s.rc.runState.endsLater ≤ 1 := by cases s.rc.runState <;> decide
  have hl : ∀ l, s.stir l ≤ 29 := fun l => by
    have := hb (s.ds.claim.get l).isSome
    have := hb ((s.al.get l).state == .busy)
    unfold State.stir
    omega
  have h10 := hl .l0
  have h11 := hl .l1
  unfold State.toDo State.work State.supply SpanTable.queued State.evaluateFuel
  omega

/-- After the evaluation no standing claim finds work (R102). -/
theorem answerOne_evaluate {s : State} (h : RunLaw s) : s.evaluate.answerOne = none :=
  answerOne_evaluateFor _ h (toDo_evaluateFuel s)

end Sys2Proof.Machine
end

