-- ==== Sys2Proof/Laws/Bytes.lean ====
section
/-! SUPPORT. Laws/Bytes.lean: what the bytes of values, of layouts and of archive blocks hold. -/

namespace Sys2Proof.Machine

@[simp] theorem length_leBytes (n v : Nat) : (leBytes n v).length = n := by
  induction n generalizing v with
  | zero => rfl
  | succ n ih => simp [leBytes, ih]

@[simp] theorem length_leSigned (n : Nat) (v : Int) : (leSigned n v).length = n := length_leBytes ..

@[simp] theorem length_yesNo (b : Bool) : (yesNo b).length = 1 := rfl

@[simp] theorem length_padTo (n : Nat) (p : List Byte) : (padTo n p).length = n := by
  simp only [padTo, List.length_take, List.length_append, List.length_replicate]
  omega

@[simp] theorem length_crcBytes (p : List Byte) : (crcBytes p).length = 2 := length_leBytes ..

/-- What a value's bytes read back as: the value modulo their size (R178). -/
theorem fromLE_leBytes (n v : Nat) : fromLE (leBytes n v) = v % 2 ^ (8 * n) := by
  induction n generalizing v with
  | zero => simp [leBytes, fromLE, Nat.mod_one]
  | succ n ih =>
    have h : 2 ^ (8 * (n + 1)) = 256 * 2 ^ (8 * n) := by
      rw [Nat.mul_succ, Nat.pow_add, Nat.mul_comm]
    simp only [leBytes, fromLE, ih, BitVec.toNat_ofNat, h, Nat.mod_mul]

/-- A signed value's bytes read back as the value modulo their size: two's complement (R178). -/
theorem fromLE_leSigned (n : Nat) (v : Int) :
    (fromLE (leSigned n v) : Int) = v % (2 ^ (8 * n) : Nat) := by
  have pos : (0 : Int) < (2 ^ (8 * n) : Nat) := by exact_mod_cast Nat.two_pow_pos (8 * n)
  have low := Int.emod_nonneg v pos.ne'
  have high := Int.emod_lt_of_pos v pos
  rw [leSigned, fromLE_leBytes, Nat.mod_eq_of_lt (by omega), Int.toNat_of_nonneg low]

theorem fromLE_replicate_zero (n : Nat) : fromLE (List.replicate n 0) = 0 := by
  induction n with
  | zero => rfl
  | succ n ih => rw [List.replicate_succ, fromLE, ih]; rfl

/-- A field that ends within the first of two pieces is that piece's. -/
theorem field_append_left {p : List Byte} (q : List Byte) {off n : Nat} (h : off + n ≤ p.length) :
    field (p ++ q) off n = field p off n := by
  rw [field, field, List.drop_append_of_le_length (by omega),
    List.take_append_of_le_length (by rw [List.length_drop]; omega)]

/-- A field that starts past the first of two pieces is the second's. -/
theorem field_append_right {p : List Byte} (q : List Byte) {off : Nat} (n : Nat) (h : p.length ≤ off) :
    field (p ++ q) off n = field q (off - p.length) n := by
  rw [field, field, List.drop_append, List.drop_eq_nil_of_le h, List.nil_append]

/-- The field that a whole value's bytes make. -/
theorem field_leBytes (n v : Nat) : field (leBytes n v) 0 n = v % 2 ^ (8 * n) := by
  rw [field, List.drop_zero, List.take_of_length_le (length_leBytes n v).le, fromLE_leBytes]

/-- A field within the bytes that are extended is theirs. -/
theorem field_padTo_left {m : Nat} {p : List Byte} {off n : Nat} (h : off + n ≤ p.length)
    (fits : p.length ≤ m) : field (padTo m p) off n = field p off n := by
  rw [padTo, List.take_of_length_le (by simp; omega), field_append_left _ h]

/-- A field past the bytes that are extended is zero (R178). -/
theorem field_padTo_right {m : Nat} {p : List Byte} {off : Nat} (n : Nat) (h : p.length ≤ off)
    (fits : p.length ≤ m) : field (padTo m p) off n = 0 := by
  rw [padTo, List.take_of_length_le (by simp; omega), field_append_right _ _ h, field,
    List.drop_replicate, List.take_replicate, fromLE_replicate_zero]

@[simp] theorem length_sealBlock (p : List Byte) : (sealBlock p).length = Config.blockBytes := by
  simp [sealBlock, Config.blockBytes]

@[simp] theorem length_dataBlock (m : Memory) (slot count j : Nat) :
    (dataBlock m slot count j).length = Config.blockBytes := by
  simp [dataBlock]

@[simp] theorem length_headerBlock (sp : Span) (lane : Lane) (address blocks : Nat) :
    (headerBlock sp lane address blocks).length = Config.blockBytes := length_sealBlock _

@[simp] theorem length_entryBytes (e : Entry) : e.bytes.length = 64 := by
  cases e <;> exact length_padTo ..

@[simp] theorem length_indexImageBytes (b : IndexImage) : b.bytes.length = Config.blockBytes := by
  simp [IndexImage.bytes, Config.blockBytes, Config.entriesPerBlock]

end Sys2Proof.Machine
end

