-- ==== Sys2Proof/Laws/Offers.lean ====
section
/-! SUPPORT. Laws/Offers.lean: the Index Unit carries out its tasks to their end, and leaves no offer waiting while a buffer can take it (R159, R163). -/

namespace Sys2Proof.Machine

/-! ### Effects beside the offers -/

/-- An effect that leaves the index and the gaps as they stand, and brings no run into STOPPING. -/
structure Beside (s t : State) : Prop where
  iu : t.iu = s.iu
  offered : ∀ src, (t.intake src).offeredGap = (s.intake src).offeredGap
  pendingGap : ∀ src, (t.intake src).pendingGap = (s.intake src).pendingGap
  stops : t.rc.runState = .stopping → s.rc.runState = .stopping

theorem Beside.refl (s : State) : Beside s s := ⟨rfl, fun _ => rfl, fun _ => rfl, id⟩

theorem Beside.trans {s t u : State} (h : Beside s t) (k : Beside t u) : Beside s u :=
  ⟨k.iu.trans h.iu, fun src => (k.offered src).trans (h.offered src),
    fun src => (k.pendingGap src).trans (h.pendingGap src), h.stops ∘ k.stops⟩

/-- A change of other fields, and then such an effect. -/
theorem Beside.after {s t u : State} (k : Beside t u) (h1 : t.iu = s.iu) (h2 : t.ci = s.ci)
    (h3 : t.rc.runState = s.rc.runState) : Beside s u :=
  Beside.trans ⟨h1, fun src => by simp only [State.intake, h2], fun src => by simp only [State.intake, h2],
    fun h => h3 ▸ h⟩ k

theorem target_congr {s t : State} (h : t.iu.buffers = s.iu.buffers) : t.target = s.target := by
  unfold State.target State.buffer
  rw [h]

theorem beside_onIntake (s : State) (src : Source) (f : IntakeSource → IntakeSource)
    (h : (f (s.ci.get src)).offeredGap = (s.ci.get src).offeredGap)
    (k : (f (s.ci.get src)).pendingGap = (s.ci.get src).pendingGap) : Beside s (s.onIntake src f) where
  iu := rfl
  offered x := by
    simp only [State.intake, State.onIntake_eq, State.setCi_ci, PerSource.get_set]
    split
    · next hx => subst hx; exact h
    · rfl
  pendingGap x := by
    simp only [State.intake, State.onIntake_eq, State.setCi_ci, PerSource.get_set]
    split
    · next hx => subst hx; exact k
    · rfl
  stops := id

theorem beside_setFlag (s : State) (f : Flag) : Beside s (s.setFlag f) := by
  unfold State.setFlag State.noticeOrOwe
  split
  · exact .refl s
  · dsimp only
    split
    · split <;> exact ⟨rfl, fun _ => rfl, fun _ => rfl, id⟩
    · exact ⟨rfl, fun _ => rfl, fun _ => rfl, id⟩

theorem beside_forSources (f : Source → State → State) (s : State) (h : ∀ src s, Beside s (f src s)) :
    Beside s (forSources f s) :=
  ((h .s0 s).trans (h .s1 _)).trans ((h .s2 _).trans (h .s3 _))

theorem beside_setSpm (s : State) (v : PressureMonitor) : Beside s (s.setSpm v) :=
  ⟨rfl, fun _ => rfl, fun _ => rfl, id⟩

theorem beside_evalPressure (v : Nat) (src : Source) (s : State) : Beside s (State.evalPressure v src s) := by
  unfold State.evalPressure State.setPressure
  dsimp only
  split
  · split
    · exact beside_setSpm s _
    · split
      · exact (beside_setSpm s _).trans (beside_onIntake _ _ _ rfl rfl)
      all_goals exact beside_setSpm s _
  · exact .refl s

theorem beside_occupancyChanged (u v : Nat) (s : State) : Beside s (s.occupancyChanged u v) := by
  unfold State.occupancyChanged
  dsimp only
  split
  · exact (beside_setFlag s _).trans (beside_forSources _ _ (beside_evalPressure v))
  · exact beside_forSources _ _ (beside_evalPressure v)

theorem beside_release (s : State) (slot : Nat) (c : ReleaseCause) : Beside s (s.release slot c) := by
  unfold State.release
  split
  · exact .refl s
  · dsimp only
    exact (beside_occupancyChanged _ _ _).after rfl rfl rfl

theorem beside_endRun (s : State) (written : Bool) : Beside s (s.endRun written) := by
  have h (src : Source) (u : State) : Beside u
      (if (u.intake src).intake = .closed then u.onIntake src fun i => { i with intake := .idle } else u) := by
    split
    · exact beside_onIntake u src _ rfl rfl
    · exact .refl u
  have h1 : Beside s (s.setRc { s.rc with
      runState := .idle, lastEnd := if written then s.rc.provisional else .indexUnwritten }) :=
    ⟨rfl, fun _ => rfl, fun _ => rfl, fun h => by cases h⟩
  have h2 := h1.trans (beside_forSources _ _ h)
  have h3 : ∀ u : State, Beside u (u.calmAll.setFlag .runEnded) := fun u =>
    (beside_setFlag u.calmAll .runEnded).after rfl rfl rfl
  exact h2.trans (h3 _)

theorem beside_blockCounted (s : State) (w : Writing) : Beside (s.blockCleared w) (s.blockCounted w) := by
  unfold State.blockCounted
  split
  · exact (beside_setFlag _ _).trans ⟨rfl, fun _ => rfl, fun _ => rfl, id⟩
  · exact beside_setFlag _ _

/-- After a block is cleared, its counting and the end of the run are beside the offers (R162). -/
theorem beside_blockDone (s : State) (w : Writing) : Beside (s.blockCleared w) (s.blockDone w) := by
  rw [blockDone_eq]
  split
  · exact (beside_blockCounted s w).trans (beside_endRun _ _)
  · exact beside_blockCounted s w

/-! ### What is owed to the waiting offers -/

/-- While a buffer can take an entry, what waits is about to be admitted: a refill is among the tasks, or nothing
waits but gaps that are about to be offered. -/
def Due (s : State) (ts : List IndexTask) : Prop :=
  s.target ≠ none → IndexTask.refill ∈ ts ∨
    (s.iu.waitSpans = [] ∧ s.iu.waitRunEnd = none ∧
      ∀ src, (s.intake src).offeredGap = none ∨ IndexTask.offer (.gap src) ∈ ts)

theorem OfferLaw.due {s : State} (h : OfferLaw s) (ts : List IndexTask) : Due s ts := fun ht =>
  have k := h ht
  .inr ⟨k.1, k.2.2, fun src => .inl (k.2.1 src)⟩

theorem Due.law {s : State} (h : Due s []) : OfferLaw s := fun ht => by
  rcases h ht with k | ⟨k1, k2, k3⟩
  · cases k
  · exact ⟨k1, fun src => (k3 src).resolve_right (by simp), k2⟩

/-- What is owed stays owed where nothing more waits than before, and every task is still to be done. -/
theorem Due.mono {s t : State} {ts us : List IndexTask} (h : Due s ts) (ht : t.target ≠ none → s.target ≠ none)
    (h1 : s.iu.waitSpans = [] → t.iu.waitSpans = []) (h2 : s.iu.waitRunEnd = none → t.iu.waitRunEnd = none)
    (h3 : ∀ src, (s.intake src).offeredGap = none → (t.intake src).offeredGap = none)
    (hr : IndexTask.refill ∈ ts → IndexTask.refill ∈ us)
    (hg : ∀ src, IndexTask.offer (.gap src) ∈ ts →
      IndexTask.offer (.gap src) ∈ us ∨ (t.intake src).offeredGap = none) : Due t us := fun hk => by
  rcases h (ht hk) with k | ⟨k1, k2, k3⟩
  · exact .inl (hr k)
  · refine .inr ⟨h1 k1, h2 k2, fun src => ?_⟩
    rcases k3 src with k | k
    · exact .inl (h3 src k)
    · exact (hg src k).symm

theorem Beside.due {s t : State} {ts us : List IndexTask} (h : Beside s t) (k : Due s ts) (hs : ts ⊆ us) : Due t us :=
  k.mono (by rw [target_congr (congrArg IndexUnit.buffers h.iu)]; exact id)
    (by rw [h.iu]; exact id) (by rw [h.iu]; exact id)
    (fun src hx => by rw [h.offered src]; exact hx) (fun x => hs x) fun _ x => .inl (hs x)

/-! ### One task -/

/-- A buffer that goes from CLOSED to WRITING is none that can take an entry, before or after. -/
theorem target_closing {s u : State} {b : BufferName} {v : IndexBuffer} (hv : v.state = .writing)
    (hb : (s.buffer b).state = .closed) (hu : u.iu.buffers = s.iu.buffers.set b v) : u.target = s.target := by
  unfold State.target State.buffer
  unfold State.buffer at hb
  rw [hu]
  cases b <;> simp [PerBuffer.get_set, hv, hb]

theorem handBack_iu (s : State) (o : Offer) : (s.handBack o).iu = s.iu := by
  cases o with
  | span slot e => cases e <;> exact (beside_release _ _ _).iu
  | gap src => rfl
  | runEnd e => rfl

theorem handBack_pendingGap (s : State) (o : Offer) (x : Source) :
    ((s.handBack o).intake x).pendingGap = (s.intake x).pendingGap := by
  cases o with
  | span slot e => cases e <;> exact (beside_release _ _ _).pendingGap x
  | gap src =>
    simp only [State.handBack, State.intake, State.onIntake_eq, State.setCi_ci, PerSource.get_set]
    split
    · next hx => subst hx; rfl
    · rfl
  | runEnd e => rfl

theorem handBack_offered (s : State) (o : Offer) (x : Source) :
    ((s.handBack o).intake x).offeredGap = if o = .gap x then none else (s.intake x).offeredGap := by
  cases o with
  | span slot e => cases e <;> exact (beside_release _ _ _).offered x
  | gap src =>
    simp only [State.handBack, State.intake, State.onIntake_eq, State.setCi_ci, PerSource.get_set, Offer.gap.injEq]
    by_cases hx : x = src
    · subst hx; simp
    · rw [if_neg hx, if_neg (Ne.symm hx)]
  | runEnd e => rfl

theorem handBack_stops (s : State) (o : Offer) :
    (s.handBack o).rc.runState = .stopping → s.rc.runState = .stopping := by
  cases o with
  | span slot e => cases e <;> exact (beside_release _ _ _).stops
  | gap src => exact id
  | runEnd e => exact id

/-- The state after an entry is appended to a buffer and its offer handed back. -/
def State.admitted (s : State) (o : Offer) (buf : BufferName) (e : Entry) : State :=
  (s.setBuffer buf ((s.buffer buf).append e o.isRunEnd)).handBack o

theorem takeOffer_some {s : State} {o : Offer} {buf : BufferName} {e : Entry} (ht : s.target = some buf)
    (he : s.offerEntry o = some e) : s.takeOffer o = (s.admitted o buf e, o.after) := by
  unfold State.takeOffer
  rw [ht]
  dsimp only
  rw [he]
  rfl

/-- An entry that is admitted leaves nothing waiting that was not. -/
theorem due_admitted {s : State} {o : Offer} {ts us : List IndexTask} {buf : BufferName} {e : Entry}
    (ht : s.target = some buf) (h : Due s (.offer o :: ts)) (hs : ts ⊆ us) : Due (s.admitted o buf e) us := by
  refine h.mono (fun _ => by rw [ht]; exact nofun) ?_ ?_ (fun src k => ?_) (fun k => ?_) fun src k => ?_
  · unfold State.admitted; rw [handBack_iu]; exact id
  · unfold State.admitted; rw [handBack_iu]; exact id
  · unfold State.admitted; rw [handBack_offered]; split
    · rfl
    · exact k
  · exact hs (by simpa using k)
  · rcases List.mem_cons.1 k with k | k
    · cases k
      right
      unfold State.admitted
      rw [handBack_offered, if_pos rfl]
    · exact .inl (hs k)

/-- A gap that is offered and absent waits no longer. -/
theorem due_absent {s : State} {o : Offer} {ts : List IndexTask} (he : s.offerEntry o = none)
    (h : Due s (.offer o :: ts)) : Due s ts := by
  refine h.mono id id id (fun _ => id) (fun k => by simpa using k) fun src k => ?_
  rcases List.mem_cons.1 k with k | k
  · cases k
    right
    exact Option.map_eq_none_iff.1 he
  · exact .inl k

theorem due_progress {s : State} {ts : List IndexTask} (h : Due s (.progress :: ts)) :
    Due s.progressOnce.1 (s.progressOnce.2 ++ ts) := by
  have hd : Due s ts := h.mono id id id (fun _ => id) (fun k => by simpa using k) fun src k => .inl (by simpa using k)
  unfold State.progressOnce
  split
  · split
    · exact hd
    · exact fun _ => .inl (by simp)
  · split
    · next buf hc =>
      have hb : (s.buffer buf).state = .closed := by
        unfold State.closedBuffer at hc
        split at hc
        · next k => cases hc; exact k.1
        · split at hc
          · next k => cases hc; exact k
          · cases hc
      have hx : Beside (s.setIu { s.iu with
          buffers := s.iu.buffers.set buf { s.buffer buf with state := .writing }
          writing := some { buffer := buf, seq := s.iu.blockSeq, duty := ⟨s.al.l0.state.duty, s.al.l1.state.duty⟩ } })
          (s.becomeWriting buf) := by
        unfold State.becomeWriting
        dsimp only
        split
        · exact beside_setFlag _ _
        · exact .refl _
      refine hx.due (ts := ts) ?_ (by simp)
      exact hd.mono (by rw [target_closing (s := s) (b := buf) rfl hb rfl]; exact id) id id (fun _ => id) id fun _ => .inl
    · exact hd

/-- With nothing waiting, nothing is owed. -/
theorem due_refill_none {s : State} {ts : List IndexTask}
    (hn : s.target = none ∨ s.nextWaiting = none) : Due s ts := fun ht => by
  have hw := hn.resolve_left ht
  right
  unfold State.nextWaiting at hw
  split at hw
  · cases hw
  · next hs =>
    split at hw
    · cases hw
    · next hf =>
      refine ⟨hs, by simpa using hw, fun src => .inl ?_⟩
      have := List.find?_eq_none.1 hf src (by cases src <;> decide)
      simpa using this

theorem due_handOver {s : State} {src : Source} {ts : List IndexTask} (h : Due s ts) :
    Due (s.handOver src).1 ((s.handOver src).2 ++ ts) := by
  unfold State.handOver
  split
  · next g hp ho =>
    intro ht
    rcases h ht with k | ⟨k1, k2, k3⟩
    · exact .inl (by simp [k])
    · refine .inr ⟨k1, k2, fun x => ?_⟩
      by_cases hx : x = src
      · subst hx; exact .inr (by simp)
      · rcases k3 x with k | k
        · left
          simp only [State.intake, State.onIntake_eq, State.setCi_ci, PerSource.get_set, if_neg hx]
          exact k
        · exact .inr (by simp [k])
  · exact h

theorem due_testEnding {s : State} {ts : List IndexTask} (h : Due s ts) :
    Due s.testEnding.1 (s.testEnding.2 ++ ts) := by
  unfold State.testEnding
  split
  · exact h.mono id id id (fun _ => id) (fun k => by simp [State.enterEnding, k]) fun _ k =>
      .inl (by simp [State.enterEnding, k])
  · exact h

/-! ### The tasks come to their end -/

/-- What a task may cost, in tasks: itself and those it brings about at once. -/
def IndexTask.price : IndexTask → Nat
  | .offer (.span _ _) => 8
  | .offer (.gap _) => 7
  | .offer (.runEnd _) => 7
  | .progress => 1
  | .refill => 1
  | .handNext _ => 1
  | .testEnding => 1

def costOf (ts : List IndexTask) : Nat := (ts.map IndexTask.price).sum

@[simp] theorem costOf_nil : costOf [] = 0 := rfl

@[simp] theorem costOf_cons (t : IndexTask) (ts : List IndexTask) : costOf (t :: ts) = t.price + costOf ts := by
  simp [costOf]

@[simp] theorem costOf_append (ts us : List IndexTask) : costOf (ts ++ us) = costOf ts + costOf us := by
  simp [costOf]

/-- What the gaps of a source may yet cost. -/
def IntakeSource.store (i : IntakeSource) : Nat := 8 * i.offeredGap.isSome.toNat + 15 * i.pendingGap.isSome.toNat

/-- What a buffer that waits to be written may yet cost. -/
def IndexBuffer.store (v : IndexBuffer) : Nat := if v.state = .closed then 3 else 0

/-- What the buffers, the block being written and the waiting offers may yet cost. -/
def IndexUnit.store (u : IndexUnit) : Nat :=
  7 * u.waitSpans.length + 6 * u.waitRunEnd.isSome.toNat + 2 * u.writing.isSome.toNat +
    (u.buffers.a.store + u.buffers.b.store)

/-- What the end of the run may yet cost. -/
def RunState.store (r : RunState) : Nat := if r = .stopping then 7 else 0

/-- The tasks that a state may yet bring about. -/
def State.store (s : State) : Nat :=
  s.iu.store + ((s.intake .s0).store + (s.intake .s1).store + (s.intake .s2).store + (s.intake .s3).store) +
    s.rc.runState.store

theorem RunState.store_le {r r' : RunState} (h : r' = .stopping → r = .stopping) : r'.store ≤ r.store := by
  unfold RunState.store
  split
  · next k => rw [if_pos (h k)]
  · exact Nat.zero_le _

theorem Beside.store {s t : State} (h : Beside s t) : t.store ≤ s.store := by
  have hg (src : Source) : (t.intake src).store = (s.intake src).store := by
    unfold IntakeSource.store
    rw [h.offered src, h.pendingGap src]
  have := RunState.store_le h.stops
  unfold State.store
  rw [h.iu, hg, hg, hg, hg]
  omega

theorem store_set (v : PerBuffer) (b : BufferName) (x : IndexBuffer) :
    (v.set b x).a.store + (v.set b x).b.store + (v.get b).store = v.a.store + v.b.store + x.store := by
  cases b <;> simp only [PerBuffer.set, PerBuffer.get] <;> omega

theorem IndexBuffer.store_le (v : IndexBuffer) : v.store ≤ 3 := by
  unfold IndexBuffer.store
  split <;> omega

/-- What an offer no longer costs once it is admitted. -/
def Offer.freed : Offer → Nat
  | .gap _ => 8
  | .span _ _ => 0
  | .runEnd _ => 0

theorem store_admitted {s : State} {o : Offer} {buf : BufferName} {e : Entry} (he : s.offerEntry o = some e) :
    (s.admitted o buf e).store + o.freed ≤ s.store + 3 := by
  have hi : (s.admitted o buf e).iu =
      { s.iu with buffers := s.iu.buffers.set buf ((s.buffer buf).append e o.isRunEnd) } := by
    unfold State.admitted; rw [handBack_iu]; rfl
  have hp (x : Source) : ((s.admitted o buf e).intake x).pendingGap = (s.intake x).pendingGap := by
    unfold State.admitted; rw [handBack_pendingGap]; rfl
  have ho (x : Source) : ((s.admitted o buf e).intake x).offeredGap =
      if o = .gap x then none else (s.intake x).offeredGap := by
    unfold State.admitted; rw [handBack_offered]; rfl
  have hr : (s.admitted o buf e).rc.runState.store ≤ s.rc.runState.store :=
    RunState.store_le (handBack_stops (s.setBuffer buf ((s.buffer buf).append e o.isRunEnd)) o)
  have hb := store_set s.iu.buffers buf ((s.buffer buf).append e o.isRunEnd)
  have h3 := IndexBuffer.store_le ((s.buffer buf).append e o.isRunEnd)
  have hs (x : Source) (hx : o ≠ .gap x) : ((s.admitted o buf e).intake x).store = (s.intake x).store := by
    unfold IntakeSource.store
    rw [hp, ho, if_neg hx]
  have hg (x : Source) (hx : o = .gap x) :
      ((s.admitted o buf e).intake x).store + 8 = (s.intake x).store := by
    subst hx
    have : (s.intake x).offeredGap.isSome = true := by
      obtain ⟨g, hg, _⟩ := Option.map_eq_some_iff.1 he
      exact congrArg Option.isSome hg
    unfold IntakeSource.store
    rw [hp, ho, if_pos rfl, this]
    simp
    omega
  unfold State.store
  rw [hi]
  unfold IndexUnit.store
  dsimp only
  cases o with
  | span slot y =>
    rw [hs .s0 nofun, hs .s1 nofun, hs .s2 nofun, hs .s3 nofun]
    simp only [Offer.freed]
    omega
  | runEnd y =>
    rw [hs .s0 nofun, hs .s1 nofun, hs .s2 nofun, hs .s3 nofun]
    simp only [Offer.freed]
    omega
  | gap src =>
    have := hg src rfl
    simp only [Offer.freed]
    cases src with
    | s0 => rw [hs .s1 nofun, hs .s2 nofun, hs .s3 nofun]; omega
    | s1 => rw [hs .s0 nofun, hs .s2 nofun, hs .s3 nofun]; omega
    | s2 => rw [hs .s0 nofun, hs .s1 nofun, hs .s3 nofun]; omega
    | s3 => rw [hs .s0 nofun, hs .s1 nofun, hs .s2 nofun]; omega

theorem insertWaiting_grows (slot : Nat) (e : Entry) (l : List (Nat × Entry)) :
    (insertWaiting slot e l).length = l.length + 1 := by
  induction l with
  | nil => rfl
  | cons p rest ih =>
    obtain ⟨n, x⟩ := p
    unfold insertWaiting
    split
    · rfl
    · simp [ih]

theorem store_wait (s : State) (o : Offer) : (s.wait o).store + 1 ≤ s.store + (IndexTask.offer o).price := by
  cases o with
  | span slot e =>
    have := insertWaiting_grows slot e s.iu.waitSpans
    simp only [State.wait, State.store, IndexUnit.store, IndexTask.price, State.setIu_iu, State.intake, State.setIu_ci,
      State.setIu_rc]
    omega
  | gap src => simp only [State.wait, IndexTask.price]; omega
  | runEnd e =>
    simp only [State.wait, State.store, IndexUnit.store, IndexTask.price, State.setIu_iu, State.intake, State.setIu_ci,
      State.setIu_rc, Option.isSome_some, Bool.toNat_true]
    omega

theorem store_blockDone {s : State} {w : Writing} (hw : s.iu.writing = some w) :
    (s.blockDone w).store + 2 ≤ s.store := by
  have h := (beside_blockDone s w).store
  have hb := store_set s.iu.buffers w.buffer .empty
  have h0 : IndexBuffer.empty.store = 0 := rfl
  refine Nat.le_trans (Nat.add_le_add_right h 2) ?_
  simp only [State.store, State.blockCleared, IndexUnit.store, State.setIu_iu, State.intake, State.setIu_ci,
    State.setIu_rc, hw, Option.isSome_some, Option.isSome_none, Bool.toNat_true, Bool.toNat_false]
  omega

theorem store_becomeWriting {s : State} {buf : BufferName} (hb : (s.buffer buf).state = .closed)
    (hw : s.iu.writing = none) : (s.becomeWriting buf).store + 1 ≤ s.store := by
  have hx : Beside (s.setIu { s.iu with
      buffers := s.iu.buffers.set buf { s.buffer buf with state := .writing }
      writing := some { buffer := buf, seq := s.iu.blockSeq, duty := ⟨s.al.l0.state.duty, s.al.l1.state.duty⟩ } })
      (s.becomeWriting buf) := by
    unfold State.becomeWriting
    dsimp only
    split
    · exact beside_setFlag _ _
    · exact .refl _
  refine Nat.le_trans (Nat.add_le_add_right hx.store 1) ?_
  have hs := store_set s.iu.buffers buf { s.buffer buf with state := .writing }
  have h3 : (s.iu.buffers.get buf).store = 3 := if_pos hb
  have h0 : ({ s.buffer buf with state := .writing } : IndexBuffer).store = 0 := rfl
  dsimp only at hs h0
  simp only [State.store, IndexUnit.store, State.setIu_iu, State.intake, State.setIu_ci, State.setIu_rc, hw,
    Option.isSome_some, Option.isSome_none, Bool.toNat_true, Bool.toNat_false]
  omega

theorem store_progress (s : State) :
    s.progressOnce.1.store + costOf s.progressOnce.2 ≤ s.store := by
  unfold State.progressOnce
  split
  · next w hw =>
    split
    · simp
    · have := store_blockDone hw
      simp only [costOf_cons, costOf_nil, IndexTask.price]
      omega
  · next hw =>
    split
    · next buf hc =>
      have hb : (s.buffer buf).state = .closed := by
        unfold State.closedBuffer at hc
        split at hc
        · next k => cases hc; exact k.1
        · split at hc
          · next k => cases hc; exact k
          · cases hc
      have := store_becomeWriting hb hw
      simp only [costOf_cons, costOf_nil, IndexTask.price]
      omega
    · simp

theorem store_handOver (s : State) (src : Source) :
    (s.handOver src).1.store + costOf (s.handOver src).2 ≤ s.store := by
  unfold State.handOver
  split
  · next g hp ho =>
    have hs (x : Source) (hx : x ≠ src) :
        ((s.onIntake src fun i => { i with pendingGap := none, offeredGap := some g }).intake x).store =
          (s.intake x).store := by
      simp only [State.intake, State.onIntake_eq, State.setCi_ci, PerSource.get_set, if_neg hx]
    have hg : ((s.onIntake src fun i => { i with pendingGap := none, offeredGap := some g }).intake src).store + 7 =
        (s.intake src).store := by
      unfold IntakeSource.store
      rw [hp, ho]
      simp [State.intake, State.onIntake_eq]
    simp only [costOf_cons, costOf_nil, IndexTask.price]
    unfold State.store
    have hi : (s.onIntake src fun i => { i with pendingGap := none, offeredGap := some g }).iu = s.iu := rfl
    have hr : (s.onIntake src fun i => { i with pendingGap := none, offeredGap := some g }).rc = s.rc := rfl
    rw [hi, hr]
    cases src with
    | s0 => rw [hs .s1 nofun, hs .s2 nofun, hs .s3 nofun]; omega
    | s1 => rw [hs .s0 nofun, hs .s2 nofun, hs .s3 nofun]; omega
    | s2 => rw [hs .s0 nofun, hs .s1 nofun, hs .s3 nofun]; omega
    | s3 => rw [hs .s0 nofun, hs .s1 nofun, hs .s2 nofun]; omega
  · simp

theorem store_testEnding (s : State) : s.testEnding.1.store + costOf s.testEnding.2 ≤ s.store := by
  unfold State.testEnding
  split
  · next h =>
    simp only [State.enterEnding, costOf_cons, costOf_nil, IndexTask.price, State.store, IndexUnit.store,
      State.setIu_iu, State.setIu_rc, State.setRc_rc, State.intake, State.setIu_ci, State.setRc_ci,
      RunState.store, h.1]
    simp
  · simp

/-- The next waiting offer waits (R163). -/
theorem nextWaiting_spec {s : State} {o : Offer} (h : s.nextWaiting = some o) :
    match o with
    | .span slot e => ∃ rest, s.iu.waitSpans = (slot, e) :: rest
    | .gap src => ∃ g, (s.intake src).offeredGap = some g
    | .runEnd e => s.iu.waitRunEnd = some e := by
  cases o with
  | runEnd e => exact nextWaiting_runEnd h
  | span slot e =>
    unfold State.nextWaiting at h
    split at h
    · next x y rest hw => cases h; exact ⟨rest, hw⟩
    · split at h
      · cases h
      · simp at h
  | gap src =>
    unfold State.nextWaiting at h
    split at h
    · cases h
    · split at h
      · next x hf =>
        cases h
        exact Option.isSome_iff_exists.1 (List.find?_some (p := fun x => (s.intake x).offeredGap.isSome) hf)
      · simp at h

/-- A refill that finds an offer takes it out of the waiting ones, to be admitted next. -/
theorem unwait_spec {s : State} {o : Offer} (hn : s.nextWaiting = some o) :
    (s.unwait o).target = s.target ∧ (∃ e, (s.unwait o).offerEntry o = some e) ∧
      (s.unwait o).store + costOf o.after + 5 ≤ s.store + o.freed := by
  have h := nextWaiting_spec hn
  cases o with
  | span slot e =>
    obtain ⟨rest, h⟩ := h
    refine ⟨rfl, ⟨e, rfl⟩, ?_⟩
    simp only [State.unwait, State.store, IndexUnit.store, State.setIu_iu, State.intake, State.setIu_ci,
      State.setIu_rc, h, List.tail_cons, List.length_cons, Offer.after, costOf_cons, costOf_nil, IndexTask.price,
      Offer.freed]
    omega
  | gap src =>
    obtain ⟨g, h⟩ := h
    refine ⟨rfl, ⟨g.entry src (s.rc.runId.getD 0), ?_⟩, ?_⟩
    · simp only [State.unwait, State.offerEntry, h, Option.map_some]
    · simp only [State.unwait, Offer.after, costOf_cons, costOf_nil, IndexTask.price, Offer.freed]
      omega
  | runEnd e =>
    have h : s.iu.waitRunEnd = some e := h
    refine ⟨rfl, ⟨e, rfl⟩, ?_⟩
    simp only [State.unwait, State.store, IndexUnit.store, State.setIu_iu, State.intake, State.setIu_ci,
      State.setIu_rc, h, Option.isSome_some, Option.isSome_none, Bool.toNat_true, Bool.toNat_false, Offer.after,
      costOf_cons, costOf_nil, IndexTask.price, Offer.freed]
    omega

theorem cost_after (o : Offer) : costOf o.after + 4 ≤ (IndexTask.offer o).price + o.freed := by
  cases o <;> simp [Offer.after, IndexTask.price, Offer.freed]

theorem cost_pos (t : IndexTask) : 1 ≤ t.price := by
  cases t with
  | offer o => cases o <;> simp [IndexTask.price]
  | progress => exact Nat.le_refl _
  | refill => exact Nat.le_refl _
  | handNext src => exact Nat.le_refl _
  | testEnding => exact Nat.le_refl _

theorem Due.tail {s : State} {t : IndexTask} {ts : List IndexTask} (h : Due s (t :: ts)) (hr : t ≠ .refill)
    (ho : ∀ src, t ≠ .offer (.gap src)) : Due s ts :=
  h.mono id id id (fun _ => id) (fun k => (List.mem_cons.1 k).resolve_left (Ne.symm hr)) fun src k =>
    .inl ((List.mem_cons.1 k).resolve_left fun e => ho src e.symm)

/-- Tasks that are carried out to their end leave no offer waiting while a buffer can take it. -/
theorem offerLaw_runTasks (fuel : Nat) (ts : List IndexTask) (s : State) (h : Due s ts)
    (hf : s.store + costOf ts ≤ fuel) : OfferLaw (State.runTasks fuel ts s) := by
  induction fuel using Nat.strong_induction_on generalizing ts s with
  | _ fuel ih =>
  cases ts with
  | nil => cases fuel <;> exact h.law
  | cons t ts =>
    have hp := cost_pos t
    rw [costOf_cons] at hf
    cases fuel with
    | zero => omega
    | succ fuel =>
      unfold State.runTasks
      have step {u : State} {us : List IndexTask} (k : Due u (us ++ ts))
          (hc : u.store + costOf us + 1 ≤ s.store + t.price) : OfferLaw (State.runTasks fuel (us ++ ts) u) :=
        ih fuel (Nat.lt_succ_self _) _ _ k (by rw [costOf_append]; omega)
      cases t with
      | offer o =>
        simp only [State.indexTask]
        cases ht : s.target with
        | none =>
          have hw : s.takeOffer o = (s.wait o, []) := by unfold State.takeOffer; rw [ht]
          rw [hw]
          have hn : (s.wait o).target = none := by rw [← ht]; cases o <;> rfl
          exact step (us := []) (fun k => absurd hn k) (by have := store_wait s o; simpa using this)
        | some buf =>
          cases he : s.offerEntry o with
          | none =>
            have hw : s.takeOffer o = (s, []) := by unfold State.takeOffer; rw [ht]; dsimp only; rw [he]
            rw [hw]
            exact step (us := []) (due_absent he h) (by simpa using hp)
          | some e =>
            rw [takeOffer_some ht he]
            have hs := store_admitted (buf := buf) he
            have := cost_after o
            exact step (due_admitted ht h (List.subset_append_right _ _)) (by dsimp only; omega)
      | progress =>
        simp only [State.indexTask]
        have := store_progress s
        exact step (due_progress h) (by simp only [IndexTask.price]; omega)
      | refill =>
        simp only [State.indexTask]
        cases ht : s.target with
        | none =>
          have hw : s.refillOnce = (s, []) := by unfold State.refillOnce; rw [ht]
          rw [hw]
          exact step (us := []) (due_refill_none (.inl ht)) (by simpa using hp)
        | some buf =>
          cases hn : s.nextWaiting with
          | none =>
            have hw : s.refillOnce = (s, []) := by unfold State.refillOnce; rw [ht, hn]
            rw [hw]
            exact step (us := []) (due_refill_none (.inr hn)) (by simpa using hp)
          | some o =>
            have hw : s.refillOnce = (s.unwait o, [.offer o, .refill]) := by unfold State.refillOnce; rw [ht, hn]
            obtain ⟨hu, ⟨e, he⟩, hc⟩ := unwait_spec hn
            rw [hw]
            have hs := store_admitted (buf := buf) he
            simp only [IndexTask.price] at hf
            cases fuel with
            | zero => omega
            | succ fuel =>
              simp only [List.cons_append, List.nil_append]
              unfold State.runTasks
              simp only [State.indexTask]
              rw [takeOffer_some (hu.trans ht) he]
              refine ih fuel (by omega) _ _ (fun _ => .inl (by simp)) ?_
              rw [costOf_append, costOf_cons]
              simp only [IndexTask.price]
              omega
      | handNext src =>
        simp only [State.indexTask]
        split
        · have := store_handOver s src
          exact step (due_handOver (h.tail nofun nofun)) (by simp only [IndexTask.price]; omega)
        · exact step (us := []) (h.tail nofun nofun) (by simpa using hp)
      | testEnding =>
        simp only [State.indexTask]
        have := store_testEnding s
        exact step (due_testEnding (h.tail nofun nofun)) (by simp only [IndexTask.price]; omega)

theorem store_le (s : State) : s.store ≤ 120 + 7 * s.iu.waitSpans.length := by
  have hb (v : IndexBuffer) := v.store_le
  have h0 := hb s.iu.buffers.a
  have h1 := hb s.iu.buffers.b
  have hn (b : Bool) : b.toNat ≤ 1 := by cases b <;> decide
  have hg (i : IntakeSource) : i.store ≤ 23 := by
    have := hn i.offeredGap.isSome
    have := hn i.pendingGap.isSome
    unfold IntakeSource.store
    omega
  have g0 := hg (s.intake .s0)
  have g1 := hg (s.intake .s1)
  have g2 := hg (s.intake .s2)
  have g3 := hg (s.intake .s3)
  have hw := hn s.iu.waitRunEnd.isSome
  have hv := hn s.iu.writing.isSome
  have hr : s.rc.runState.store ≤ 7 := by unfold RunState.store; split <;> omega
  unfold State.store IndexUnit.store
  omega

/-- The Index Unit leaves no offer waiting while a buffer can take it (R159, R163). -/
theorem offerLaw_index {s : State} {ts : List IndexTask} (h : Due s ts) (hc : costOf ts ≤ 100) :
    OfferLaw (s.index ts) := by
  have := store_le s
  refine offerLaw_runTasks _ _ _ h ?_
  unfold State.taskFuel
  omega

/-! ### Effects that keep the law of the waiting offers -/

/-- An effect that keeps the law of the waiting offers. -/
structure Offering (s t : State) : Prop where
  law : OfferLaw s → OfferLaw t

theorem Offering.refl (s : State) : Offering s s := ⟨id⟩

theorem Offering.trans {s t u : State} (h : Offering s t) (k : Offering t u) : Offering s u := ⟨k.law ∘ h.law⟩

theorem Beside.offering {s t : State} (h : Beside s t) : Offering s t :=
  ⟨fun k => (h.due (k.due []) (List.Subset.refl _)).law⟩

/-- An effect beside the buffers, the waiting offers and the offered gaps. -/
theorem offering_congr {s t : State} (h1 : t.iu.buffers = s.iu.buffers) (h2 : t.iu.waitSpans = s.iu.waitSpans)
    (h3 : t.iu.waitRunEnd = s.iu.waitRunEnd)
    (h4 : ∀ src, (t.ci.get src).offeredGap = (s.ci.get src).offeredGap) : Offering s t :=
  ⟨fun h ht => by
    have k := h (by rw [← target_congr h1]; exact ht)
    exact ⟨h2.trans k.1, fun src => (h4 src).trans (k.2.1 src), h3.trans k.2.2⟩⟩

/-- An effect that leaves the index and the intakes as they stand. -/
theorem offering_same {s t : State} (h : t.iu = s.iu) (hc : t.ci = s.ci) : Offering s t :=
  offering_congr (by rw [h]) (by rw [h]) (by rw [h]) fun _ => by rw [hc]

theorem offering_index {s : State} (ts : List IndexTask) (hc : costOf ts ≤ 100) : Offering s (s.index ts) :=
  ⟨fun h => offerLaw_index (h.due ts) hc⟩

theorem offering_setFlag (s : State) (f : Flag) : Offering s (s.setFlag f) := (beside_setFlag s f).offering

theorem offering_onIntake (s : State) (src : Source) (f : IntakeSource → IntakeSource)
    (h : (f (s.ci.get src)).offeredGap = (s.ci.get src).offeredGap) : Offering s (s.onIntake src f) :=
  offering_congr rfl rfl rfl fun x => by
    simp only [State.onIntake_eq, State.setCi_ci, PerSource.get_set]
    split
    · next hx => subst hx; exact h
    · rfl

theorem offering_onWindow (s : State) (src : Source) (f : WindowSource → WindowSource) :
    Offering s (s.onWindow src f) := offering_same rfl rfl

theorem offering_setSummary (s : State) (src : Source) (v : Option Running) : Offering s (s.setSummary src v) :=
  offering_same rfl rfl

theorem offering_setRc (s : State) (v : RunController) : Offering s (s.setRc v) := offering_same rfl rfl

theorem offering_setChoices (s : State) (n : Nat) : Offering s (s.setChoices n) := offering_same rfl rfl

theorem offering_setClaim (s : State) (lane : Lane) (v : Option Claim) : Offering s (s.setClaim lane v) :=
  offering_same rfl rfl

theorem offering_setPair (s : State) (v : Option PairContext) : Offering s (s.setPair v) := offering_same rfl rfl

theorem offering_onLane (s : State) (lane : Lane) (f : LaneUnit → LaneUnit) : Offering s (s.onLane lane f) :=
  offering_same rfl rfl

theorem offering_send (s : State) (lane : Lane) (f : LaneFrame) : Offering s (s.send lane f) := offering_same rfl rfl

theorem offering_sendAwaiting (s : State) (lane : Lane) (f : Word16 → LaneFrame) (time : Nat) :
    Offering s (s.sendAwaiting lane f time) := offering_same rfl rfl

theorem offering_enter (s : State) (slot : Nat) (v : Span) : Offering s (s.enter slot v) := offering_same rfl rfl

theorem offering_setSpan (s : State) (slot : Nat) (v : Span) : Offering s (s.setSpan slot v) := offering_same rfl rfl

theorem offering_onSpan (s : State) (slot : Nat) (f : Span → Span) : Offering s (s.onSpan slot f) := by
  unfold State.onSpan
  split
  · exact offering_setSpan _ _ _
  · exact .refl s

theorem offering_forSources (f : Source → State → State) (s : State) (h : ∀ src s, Offering s (f src s)) :
    Offering s (forSources f s) :=
  ((h .s0 s).trans (h .s1 _)).trans ((h .s2 _).trans (h .s3 _))

theorem offering_forLanes (f : Lane → State → State) (s : State) (h : ∀ lane s, Offering s (f lane s)) :
    Offering s (forLanes f s) := (h .l0 s).trans (h .l1 _)

/-! ### The Index Unit -/

theorem offering_offerSpan (s : State) (slot : Nat) : Offering s (s.offerSpan slot) := by
  unfold State.offerSpan
  split
  · exact offering_index _ (by simp [IndexTask.price])
  · exact .refl s

/-- A gap that is handed over is offered at once (R55, R57). -/
theorem offering_handGap (s : State) (src : Source) : Offering s (s.handGap src) := by
  refine ⟨fun h => ?_⟩
  have hd := due_handOver (src := src) (h.due [])
  unfold State.handGap
  rw [List.append_nil] at hd
  refine offerLaw_index hd ?_
  unfold State.handOver
  split
  · simp [IndexTask.price]
  · simp

theorem offering_recycle (s : State) (slot : Nat) : Offering s (s.recycle slot) :=
  (beside_release s slot _).offering.trans (offering_index _ (by simp [IndexTask.price]))

theorem offering_blockWritten (s : State) (lane : Lane) (address : Nat) :
    Offering s (s.blockWritten lane address) := by
  unfold State.blockWritten
  split
  · split
    · refine Offering.trans ?_ (offering_index [.progress] (by simp [IndexTask.price]))
      exact offering_congr rfl rfl rfl fun _ => rfl
    · exact .refl s
  · exact .refl s

theorem offering_blockMissed (s : State) (lane : Lane) : Offering s (s.blockMissed lane) := by
  unfold State.blockMissed
  split
  · next w _ =>
    split
    · exact Offering.trans (t := s.setDuty w lane .missed) (offering_congr rfl rfl rfl fun _ => rfl)
        ((offering_setFlag _ _).trans (offering_index _ (by simp [IndexTask.price])))
    · exact .refl s
  · exact .refl s

/-- A FILLING buffer that closes leaves no more that can take an entry. -/
theorem offering_closeFilling (s : State) : Offering s s.closeFilling := by
  have h (b : BufferName) (hb : (s.buffer b).state = .filling) :
      Offering s (s.setBuffer b { s.buffer b with state := .closed }) := by
    refine ⟨fun h _ => ?_⟩
    exact h (by
      unfold State.target
      cases b
      · rw [if_pos hb]; exact nofun
      · rw [if_pos hb]; split <;> exact nofun)
  have hi (u : State) : Offering u (u.index [.progress]) := offering_index _ (by simp [IndexTask.price])
  unfold State.closeFilling
  split
  · next hb => exact (h .a hb).trans (hi _)
  · split
    · next hb => exact (h .b hb).trans (hi _)
    · exact .refl s

/-! ### What becomes of a span -/

theorem offering_summaryTake (s : State) (src : Source) (x : Sample) : Offering s (s.summaryTake src x) := by
  unfold State.summaryTake
  split
  · exact .refl s
  · dsimp only
    split
    · exact (offering_setSummary _ _ _).trans (offering_setFlag _ _)
    · exact offering_setSummary _ _ _

theorem offering_summaryStart (s : State) (src : Source) (slot : Nat) (x : Sample) :
    Offering s (s.summaryStart src slot x) := offering_setSummary _ _ _

theorem offering_commit (s : State) (slot : Nat) : Offering s (s.commit slot) := by
  unfold State.commit
  split
  · next sp h =>
    split
    · exact (offering_enter _ _ _).trans (offering_offerSpan _ _)
    · exact .refl s
  · exact .refl s

theorem offering_shedSpan (s : State) (slot : Nat) (c : ShedCause) : Offering s (s.shedSpan slot c) := by
  unfold State.shedSpan
  split
  · next sp h =>
    split
    · exact .refl s
    · exact (offering_enter _ _ _).trans (offering_offerSpan _ _)
  · exact .refl s

theorem offering_requeue (s : State) (slot : Nat) : Offering s (s.requeue slot) := by
  unfold State.requeue
  split
  · next sp h =>
    split
    · split
      · exact offering_commit _ _
      · exact offering_shedSpan _ _ _
    · exact offering_enter _ _ _
  · exact .refl s

theorem offering_disposeQueued (s : State) (slot : Nat) : Offering s (s.disposeQueued slot) := by
  unfold State.disposeQueued
  split
  · split
    · split
      · exact offering_commit _ _
      · exact offering_shedSpan _ _ _
    · exact .refl s
  · exact .refl s

theorem offering_eachSlot (f : State → Nat → State) (h : ∀ s slot, Offering s (f s slot)) (s : State)
    (slots : List Nat) : Offering s (State.eachSlot f s slots) := by
  unfold State.eachSlot
  induction slots generalizing s with
  | nil => exact .refl s
  | cons x rest ih => exact (h s x).trans (ih (f s x))

theorem offering_recycleAll (s : State) (spans : List (Nat × Span)) : Offering s (s.recycleAll spans) :=
  offering_eachSlot _ offering_recycle _ _

theorem offering_sealPressure (s : State) (src : Source) : Offering s (s.sealPressure src) := by
  unfold State.sealPressure
  split
  · split
    · exact offering_recycle _ _
    · split
      · exact (offering_shedSpan _ _ _).trans (offering_setFlag _ _)
      · exact .refl s
  · exact .refl s

theorem offering_sealSpan (s : State) (src : Source) (slot : Nat) (sp : Span) :
    Offering s (s.sealSpan src slot sp) := by
  have h1 : ∀ v : Span, Offering s ((s.setSummary src none).enter slot v) := fun v =>
    (offering_setSummary _ _ _).trans (offering_enter _ _ _)
  unfold State.sealSpan
  dsimp only
  split
  · split
    · exact (h1 _).trans (offering_recycle _ _)
    · exact h1 _
  · exact h1 _
  · exact h1 _

theorem offering_sealFilling (s : State) (src : Source) : Offering s (s.sealFilling src) := by
  unfold State.sealFilling
  split
  · next slot sp h =>
    exact (offering_sealSpan _ _ _ _).trans (offering_sealPressure _ _)
  · exact .refl s

theorem offering_closeIntake (s : State) (src : Source) : Offering s (s.closeIntake src) :=
  (offering_onIntake s src (fun i => { i with intake := .closed, tagPending := false }) rfl).trans
    (offering_onWindow _ _ _)

theorem offering_ifRun (f : State → Source → State) (h : ∀ s src, Offering s (f s src)) (src : Source)
    (s : State) : Offering s (State.ifRun f src s) := by
  unfold State.ifRun
  split
  · exact h s src
  · exact .refl s

theorem offering_closeSource (src : Source) (s : State) : Offering s (State.closeSource src s) := by
  unfold State.closeSource
  split
  · exact offering_closeIntake _ _
  · exact .refl s

theorem offering_enterStopping (s : State) : Offering s s.enterStopping :=
  Offering.trans (t := s.setRc { s.rc with runState := .stopping, deadlineTimer := some (1000 * s.rc.deadline) })
    (offering_setRc _ _)
    ((offering_forSources _ _ offering_closeSource).trans
      ((offering_forSources _ _ (offering_ifRun _ offering_sealFilling)).trans
        ((offering_forSources _ _ (offering_ifRun _ offering_handGap)).trans
          ((offering_forSources _ _ (offering_ifRun _ fun s _ => offering_recycleAll s _)).trans
            (offering_index _ (by simp [IndexTask.price]))))))

theorem offering_seal (s : State) (src : Source) : Offering s (s.seal src) := by
  unfold State.seal
  split
  · dsimp only
    split
    · exact (offering_sealFilling s src).trans (offering_enterStopping _)
    · exact offering_sealFilling s src
  · exact .refl s

/-! ### The lanes -/

theorem offering_moveCursors (s : State) (lane : Lane) (f : LaneUnit → LaneUnit) :
    Offering s (s.moveCursors lane f) := by
  unfold State.moveCursors
  dsimp only
  split
  · exact (offering_onLane s lane fun a => (f a).evaluated).trans (offering_setFlag _ _)
  · exact offering_onLane s lane fun a => (f a).evaluated

theorem offering_placeClaim (s : State) (lane : Lane) : Offering s (s.placeClaim lane) := by
  unfold State.placeClaim
  split
  · exact .refl s
  · exact offering_setClaim _ _ _

theorem offering_roleEnded (s : State) (lane : Lane) : Offering s (s.roleEnded lane) := by
  unfold State.roleEnded
  split
  · exact offering_placeClaim _ _
  · exact .refl s

theorem offering_rolesEnded (s : State) : Offering s s.rolesEnded :=
  offering_forLanes _ _ fun lane s => offering_roleEnded s lane

theorem offering_setLaneState (s : State) (lane : Lane) (st : LaneState) :
    Offering s (s.setLaneState lane st) :=
  offering_onLane _ _ _

theorem offering_leaveTo (s : State) (lane : Lane) (st : LaneState) : Offering s (s.leaveTo lane st) :=
  (offering_setClaim _ _ _).trans (offering_setLaneState _ _ _)

theorem offering_setWakePending (s : State) (lane : Lane) (v : Bool) :
    Offering s (s.onLane lane fun a => { a with wakePending := v }) :=
  offering_onLane _ _ _

theorem offering_setAction (s : State) (lane : Lane) (v : PendingAction) :
    Offering s (s.onLane lane fun a => { a with action := v }) :=
  offering_onLane _ _ _

theorem offering_stopTimer (s : State) (lane : Lane) :
    Offering s (s.onLane lane fun a => { a with timer := none }) :=
  offering_onLane _ _ _

theorem offering_setFailures (s : State) (lane : Lane) (f : LaneUnit → Nat) :
    Offering s (s.onLane lane fun a => { a with failures := f a }) :=
  offering_onLane _ _ _

theorem offering_enterParking (s : State) (lane : Lane) : Offering s (s.enterParking lane) := by
  unfold State.enterParking
  dsimp only
  split
  · exact (offering_leaveTo _ _ _).trans ((offering_setWakePending _ _ _).trans (offering_sendAwaiting _ _ _ _))
  · exact (offering_leaveTo _ _ _).trans (offering_sendAwaiting _ _ _ _)

theorem offering_enterWaking (s : State) (lane : Lane) : Offering s (s.enterWaking lane) :=
  (offering_leaveTo _ _ _).trans ((offering_setWakePending _ _ _).trans (offering_sendAwaiting _ _ _ _))

theorem offering_enterBringup (s : State) (lane : Lane) : Offering s (s.enterBringup lane) :=
  (offering_leaveTo _ _ _).trans ((offering_sendAwaiting _ _ _ _).trans (offering_blockMissed _ _))

theorem offering_enterDown (s : State) (lane : Lane) : Offering s (s.enterDown lane) :=
  (offering_leaveTo _ _ _).trans ((offering_setFlag _ _).trans (offering_blockMissed _ _))

theorem offering_enterPaused (s : State) (lane : Lane) : Offering s (s.enterPaused lane) :=
  (offering_leaveTo _ _ _).trans (offering_blockMissed _ _)

theorem offering_enterFaulted (s : State) (lane : Lane) (c : FaultCause) :
    Offering s (s.enterFaulted lane c) :=
  (offering_leaveTo _ _ _).trans ((offering_onLane _ _
    (fun a => { a with fault := c, action := .none, wakePending := false, timer := none })).trans
      ((offering_setFlag _ _).trans (offering_blockMissed _ _)))

theorem offering_nextLaneState (s : State) (lane : Lane) : Offering s (s.nextLaneState lane) := by
  unfold State.nextLaneState
  dsimp only
  split
  · exact (offering_setAction _ _ _).trans (offering_enterPaused _ _)
  · exact (offering_setAction _ _ _).trans (offering_enterParking _ _)
  · exact (offering_setAction _ _ _).trans ((offering_setLaneState _ _ _).trans (offering_placeClaim _ _))

theorem offering_setJob (s : State) (lane : Lane) (j : Option Job) : Offering s (s.setJob lane j) :=
  offering_onLane _ _ _

theorem offering_sendBurst (s : State) (lane : Lane) (j : SpanJob) : Offering s (s.sendBurst lane j) := by
  unfold State.sendBurst
  exact offering_sendAwaiting _ _ _ _

theorem offering_startSpanJob (s : State) (lane : Lane) (slot : Nat) (runId : Word16) (seq : Word32) :
    Offering s (s.startSpanJob lane slot runId seq) :=
  (offering_moveCursors s lane _).trans
    ((offering_setClaim _ _ _).trans (offering_sendBurst _ _ _))

theorem offering_dropJob (s : State) (lane : Lane) (dead : Nat) : Offering s (s.dropJob lane dead) :=
  offering_onLane _ _ _

theorem offering_sendIndex (s : State) (lane : Lane) (j : IndexJob) : Offering s (s.sendIndex lane j) := by
  unfold State.sendIndex
  exact offering_sendAwaiting _ _ _ _

theorem offering_takeIndexJob (s : State) (lane : Lane) (w : Writing) :
    Offering s (s.takeIndexJob lane w) := by
  unfold State.takeIndexJob
  dsimp only
  split
  · exact (offering_leaveTo _ _ _).trans ((offering_blockMissed _ _).trans (offering_nextLaneState _ _))
  · exact (offering_leaveTo _ _ _).trans ((offering_setJob _ _ _).trans (offering_sendIndex _ _ _))

/-! ### The Drain Scheduler -/

theorem offering_failOrRequeue (s : State) (slot : Nat) : Offering s (s.failOrRequeue slot) := by
  unfold State.failOrRequeue
  split
  · split
    · exact (offering_shedSpan _ _ _).trans (offering_setFlag _ _)
    · exact offering_requeue _ _
  · exact .refl s

theorem offering_applySingle (s : State) (slot : Nat) (lane : Lane) (o : Outcome) (address : Nat) :
    Offering s (s.applySingle slot lane o address) := by
  unfold State.applySingle
  cases o with
  | done =>
    dsimp only
    have h := (offering_onSpan s slot fun sp => sp.addCopy { lane := lane, address := address }).trans
      (offering_commit _ slot)
    split
    · split
      · exact h.trans (offering_setFlag _ _)
      · exact h
    · exact h
  | cancelled => exact offering_requeue _ _
  | retryExhausted => exact (offering_onSpan _ _ _).trans (offering_failOrRequeue _ _)
  | moduleFault => exact (offering_onSpan _ _ _).trans (offering_failOrRequeue _ _)
  | timeout => exact (offering_onSpan _ _ _).trans (offering_failOrRequeue _ _)
  | none => exact .refl s

theorem offering_closePartial (s : State) (c : PairContext) (failed : Bool) :
    Offering s (s.closePartial c failed) := by
  have h0 : Offering s (if failed then s.onSpan c.slot Span.countAttempt else s) := by
    split
    · exact offering_onSpan _ _ _
    · exact .refl s
  unfold State.closePartial
  dsimp only
  generalize (if failed then s.onSpan c.slot Span.countAttempt else s) = s1 at h0 ⊢
  split
  · exact h0
  · next sp hsp =>
    split
    · split
      · exact h0.trans (offering_commit _ _)
      · exact h0.trans ((offering_commit _ _).trans (offering_setFlag _ _))
    · split
      · exact h0.trans ((offering_setSpan _ _ _).trans (offering_failOrRequeue _ _))
      · exact h0.trans ((offering_setSpan _ _ _).trans (offering_requeue _ _))

theorem offering_closeBare (s : State) (c : PairContext) (failed : Bool) :
    Offering s (s.closeBare c failed) := by
  unfold State.closeBare
  split
  · exact (offering_onSpan _ _ _).trans (offering_failOrRequeue _ _)
  · exact offering_requeue _ _

theorem offering_closeSpan (s : State) (c : PairContext) : Offering s (s.closeSpan c) := by
  unfold State.closeSpan
  dsimp only
  split
  · exact offering_commit _ _
  · split
    · exact offering_closePartial _ _ _
    · exact offering_closeBare _ _ _

theorem offering_closePair (s : State) (c : PairContext) : Offering s (s.closePair c) :=
  (offering_setPair _ _).trans ((offering_closeSpan _ _).trans (offering_rolesEnded _))

theorem offering_pairOutcome (s : State) (c : PairContext) (lane : Lane) (o : Outcome) (address : Nat) :
    Offering s (s.pairOutcome c lane o address) := by
  have h0 : Offering s (if o = .done then
        s.onSpan c.slot fun sp => sp.addCopy { lane := lane, address := address }
      else s) := by
    split
    · exact offering_onSpan _ _ _
    · exact .refl s
  unfold State.pairOutcome
  split
  · dsimp only
    split
    · exact h0.trans (offering_setPair _ _)
    · exact h0.trans ((offering_setPair _ _).trans (offering_closePair _ _))
  · exact .refl s

theorem offering_dissolve (s : State) (c : PairContext) : Offering s (s.dissolve c) :=
  (offering_setPair _ _).trans (offering_requeue _ _)

theorem offering_reportWrite (s : State) (lane : Lane) (j : SpanJob) (o : Outcome) (address : Nat) :
    Offering s (s.reportWrite lane j o address) := by
  unfold State.reportWrite
  split
  · exact .refl s
  · next sp hsp =>
    have h := offering_setSpan s j.slot (sp.noteOutcome o)
    dsimp only
    split
    · split
      · exact h.trans (offering_pairOutcome _ _ _ _ _)
      · exact h.trans (offering_applySingle _ _ _ _ _)
    · exact h.trans (offering_applySingle _ _ _ _ _)

theorem offering_reportOutcome (s : State) (lane : Lane) (j : SpanJob) (o : Outcome) (address : Nat) :
    Offering s (s.reportOutcome lane j o address) := by
  unfold State.reportOutcome
  split
  · split
    · exact (offering_onSpan s _ fun sp => sp.noteOutcome o).trans
        ((offering_dissolve _ _).trans (offering_rolesEnded _))
    · exact offering_reportWrite _ _ _ _ _
  · exact offering_reportWrite _ _ _ _ _

theorem offering_join (s : State) (c : PairContext) : Offering s (s.join c) :=
  (offering_setPair _ _).trans ((offering_startSpanJob _ _ _ _ _).trans (offering_startSpanJob _ _ _ _ _))

theorem offering_endUnstarted (s : State) (c : PairContext) : Offering s (s.endUnstarted c) :=
  (offering_dissolve _ _).trans ((offering_setJob _ _ _).trans (offering_nextLaneState _ _))

theorem offering_startSingly (s : State) (c : PairContext) : Offering s (s.startSingly c) :=
  (offering_setPair _ _).trans (offering_startSpanJob _ _ _ _ _)

theorem offering_convert (s : State) (c : PairContext) : Offering s (s.convert c) := by
  unfold State.convert
  split
  · exact offering_startSingly _ _
  · dsimp only
    split
    · exact (offering_setChoices _ _).trans (offering_endUnstarted _ _)
    · exact (offering_setChoices _ _).trans (offering_startSingly _ _)

theorem offering_followerLost (s : State) (c : PairContext) : Offering s (s.followerLost c) := by
  unfold State.followerLost
  split
  · exact (offering_endUnstarted _ _).trans (offering_roleEnded _ _)
  · exact (offering_convert _ _).trans (offering_roleEnded _ _)

theorem offering_checkFollower (s : State) (lane : Lane) : Offering s (s.checkFollower lane) := by
  unfold State.checkFollower
  split
  · split
    · exact offering_followerLost _ _
    · exact .refl s
  · exact .refl s

theorem offering_enterReady (s : State) (lane : Lane) : Offering s (s.enterReady lane) := by
  have h := offering_setLaneState s lane .ready
  unfold State.enterReady
  dsimp only
  split
  · split
    · split
      · exact h.trans (offering_followerLost _ _)
      · exact h.trans (offering_join _ _)
    · exact h
  · exact h.trans (offering_placeClaim _ _)

theorem offering_afterJob (s : State) (lane : Lane) : Offering s (s.afterJob lane) := by
  have h := offering_setAction s lane .none
  unfold State.afterJob
  dsimp only
  split
  · exact h.trans ((offering_enterPaused _ _).trans (offering_checkFollower _ _))
  · exact h.trans (offering_enterParking _ _)
  · exact h.trans (offering_enterReady _ _)

theorem offering_faultLane (s : State) (lane : Lane) (c : FaultCause) : Offering s (s.faultLane lane c) :=
  (offering_enterFaulted _ _ _).trans (offering_checkFollower _ _)

theorem offering_jobDone (s : State) (lane : Lane) (j : SpanJob) : Offering s (s.jobDone lane j) :=
  (offering_dropJob _ _ _).trans ((offering_setFailures _ _ _).trans
    ((offering_reportOutcome _ _ _ _ _).trans (offering_afterJob _ _)))

theorem offering_jobFailed (s : State) (lane : Lane) (j : SpanJob) (o : Outcome) :
    Offering s (s.jobFailed lane j o) := by
  have h := (offering_dropJob s lane j.reserved).trans ((offering_setFailures _ lane
    fun a => a.failures + 1).trans (offering_reportOutcome _ lane j o 0))
  unfold State.jobFailed
  dsimp only
  split
  · exact h.trans (offering_faultLane _ _ _)
  · split
    · exact h.trans (offering_faultLane _ _ _)
    · exact h.trans (offering_afterJob _ _)

theorem offering_sendCancel (s : State) (lane : Lane) : Offering s (s.sendCancel lane) := by
  unfold State.sendCancel
  split
  · exact offering_send _ _ _
  · exact .refl s

theorem offering_cancelJob (s : State) (lane : Lane) : Offering s (s.cancelJob lane) := by
  unfold State.cancelJob
  split
  · exact (offering_sendCancel _ _).trans ((offering_dropJob _ _ _).trans (offering_reportOutcome _ _ _ _ _))
  · exact (offering_sendCancel _ _).trans ((offering_dropJob _ _ _).trans (offering_blockMissed _ _))
  · exact .refl s

theorem offering_abortJob (s : State) (lane : Lane) : Offering s (s.abortJob lane) := by
  unfold State.abortJob
  split
  · exact (offering_sendCancel _ _).trans (offering_dropJob _ _ _)
  · exact (offering_sendCancel _ _).trans (offering_dropJob _ _ _)
  · exact .refl s

theorem offering_pairRequest (s : State) (c : PairContext) : Offering s (s.pairRequest c) := by
  have h := offering_setClaim s c.follower none
  unfold State.pairRequest
  dsimp only
  split
  · exact h.trans (offering_join _ _)
  · split
    · exact h.trans ((offering_cancelJob _ _).trans (offering_afterJob _ _))
    · exact h
  · exact h.trans (offering_setWakePending _ _ _)
  · exact h.trans (offering_enterWaking _ _)
  all_goals exact h

theorem offering_formPair (s : State) (lane : Lane) (slot : Nat) (sp : Span) :
    Offering s (s.formPair lane slot sp) :=
  (offering_enter _ _ _).trans ((offering_setPair _ _).trans ((offering_leaveTo _ _ _).trans
    ((offering_setJob _ _ _).trans (offering_pairRequest _ _))))

theorem offering_commitHeads (lane : Lane) (src : Source) (fuel : Nat) (s : State) :
    Offering s (State.commitHeads lane src fuel s) := by
  induction fuel generalizing s with
  | zero => exact .refl s
  | succ fuel ih =>
    unfold State.commitHeads
    split
    · split
      · exact (offering_commit _ _).trans ((offering_setFlag _ _).trans (ih _))
      · exact .refl s
    · exact .refl s

theorem offering_commitRepairs (s : State) (lane : Lane) : Offering s (s.commitRepairs lane) :=
  offering_forSources _ _ fun _ _ => offering_commitHeads _ _ _ _

theorem offering_assign (s : State) (lane : Lane) (w : Bid) : Offering s (s.assign lane w) := by
  unfold State.assign
  split
  · exact offering_enterWaking _ _
  · split
    · exact (offering_enter _ _ _).trans (offering_startSpanJob _ _ _ _ _)
    · exact offering_formPair _ _ _ _

theorem offering_answerIndex (s : State) (lane : Lane) (w : Writing) :
    Offering s (s.answerIndex lane w) := by
  unfold State.answerIndex
  split
  · exact offering_enterWaking _ _
  · exact offering_takeIndexJob _ _ _

theorem offering_answerSpan {s t : State} {lane : Lane} (h : s.answerSpan lane = some t) : Offering s t := by
  have h0 : Offering s (if s.hasRepairCommit lane then s.commitRepairs lane else s) := by
    split
    · exact offering_commitRepairs _ _
    · exact .refl s
  unfold State.answerSpan at h
  dsimp only at h
  generalize (if s.hasRepairCommit lane then s.commitRepairs lane else s) = s1 at h0 h
  split at h
  · split at h
    · cases h; exact h0.trans (offering_answerIndex _ _ _)
    · split at h
      · cases h; exact h0.trans (offering_assign _ _ _)
      · split at h
        · cases h; exact h0
        · cases h
  · split at h
    · cases h; exact h0.trans (offering_assign _ _ _)
    · split at h
      · cases h; exact h0
      · cases h

theorem offering_answer {s t : State} {lane : Lane} (h : s.answer lane = some t) : Offering s t := by
  unfold State.answer at h
  split at h
  · cases h
  · split at h
    · split at h
      · cases h; exact offering_answerIndex _ _ _
      · split at h
        · cases h
        · split at h
          · cases h
          · exact offering_answerSpan h
    · split at h
      · cases h
      · split at h
        · cases h
        · exact offering_answerSpan h

theorem offering_answerOne {s t : State} (h : s.answerOne = some t) : Offering s t := by
  unfold State.answerOne at h
  split at h
  · cases h
  · next x hx _ => cases h; exact offering_answer hx
  · next x _ hx => cases h; exact offering_answer hx
  · next x y hx hy =>
    cases h
    split
    · exact (offering_answer hx).trans (offering_setChoices _ _)
    · exact (offering_answer hy).trans (offering_setChoices _ _)

theorem offering_evaluateFor (fuel : Nat) (s : State) : Offering s (State.evaluateFor fuel s) := by
  induction fuel generalizing s with
  | zero => exact .refl s
  | succ fuel ih =>
    unfold State.evaluateFor
    split
    · next t h => exact (offering_answerOne h).trans (ih t)
    · exact .refl s

theorem offering_evaluate (s : State) : Offering s s.evaluate := offering_evaluateFor _ _

/-! ### The frames of a module and the timers of a lane -/

theorem offering_ackSpan (s : State) (lane : Lane) (j : SpanJob) : Offering s (s.ackSpan lane j) := by
  unfold State.ackSpan
  split
  · exact offering_jobDone _ _ _
  · exact (offering_setJob _ _ _).trans (offering_sendBurst _ _ _)

theorem offering_ackIndex (s : State) (lane : Lane) (j : IndexJob) : Offering s (s.ackIndex lane j) :=
  (offering_dropJob s lane 0).trans ((offering_moveCursors _ lane
    (fun a => { a with indexCursor := a.indexCursor - 1 })).trans
      ((offering_blockWritten _ _ _).trans (offering_afterJob _ _)))

theorem offering_indexFailed (s : State) (lane : Lane) : Offering s (s.indexFailed lane) :=
  (offering_dropJob _ _ _).trans ((offering_setFlag _ _).trans (offering_blockMissed _ _))

theorem offering_takeAck (s : State) (lane : Lane) : Offering s (s.takeAck lane) := by
  unfold State.takeAck
  split
  · exact offering_ackSpan _ _ _
  · exact offering_ackIndex _ _ _
  · exact .refl s

theorem offering_takeRetry (s : State) (lane : Lane) : Offering s (s.takeRetry lane) := by
  unfold State.takeRetry
  split
  · split
    · exact (offering_setJob _ _ _).trans (offering_sendBurst _ _ _)
    · exact offering_jobFailed _ _ _ _
  · split
    · exact (offering_setJob _ _ _).trans (offering_sendIndex _ _ _)
    · exact (offering_indexFailed _ _).trans (offering_afterJob _ _)
  · exact .refl s

theorem offering_takeFault (s : State) (lane : Lane) : Offering s (s.takeFault lane) := by
  unfold State.takeFault
  split
  · exact offering_jobFailed _ _ _ _
  · exact (offering_indexFailed _ _).trans (offering_afterJob _ _)
  · exact .refl s

theorem offering_writeTimeout (s : State) (lane : Lane) : Offering s (s.writeTimeout lane) := by
  unfold State.writeTimeout
  split
  · exact offering_jobFailed _ _ _ _
  · exact (offering_indexFailed _ _).trans (offering_faultLane _ _ _)
  · exact .refl s

theorem offering_takeParked (s : State) (lane : Lane) : Offering s (s.takeParked lane) := by
  have h := (offering_stopTimer s lane).trans ((offering_setLaneState _ lane .parked).trans
    (offering_setFlag _ (laneChangeFlag lane)))
  unfold State.takeParked
  dsimp only
  split
  · exact h.trans (offering_enterWaking _ _)
  · exact h.trans (offering_placeClaim _ _)

theorem offering_takeAwake (s : State) (lane : Lane) : Offering s (s.takeAwake lane) :=
  (offering_stopTimer s lane).trans ((offering_setFlag _ _).trans (offering_enterReady _ _))

theorem offering_onAck (s : State) (lane : Lane) (tag : Word16) : Offering s (s.onAck lane tag) := by
  unfold State.onAck
  split
  · exact (offering_takeAck _ _).trans (offering_evaluate _)
  · exact .refl s

theorem offering_onRetry (s : State) (lane : Lane) (tag : Word16) : Offering s (s.onRetry lane tag) := by
  unfold State.onRetry
  split
  · exact (offering_takeRetry _ _).trans (offering_evaluate _)
  · exact .refl s

theorem offering_onFault (s : State) (lane : Lane) (tag : Word16) : Offering s (s.onFault lane tag) := by
  unfold State.onFault
  split
  · exact (offering_takeFault _ _).trans (offering_evaluate _)
  · exact .refl s

theorem offering_onParked (s : State) (lane : Lane) (tag : Word16) : Offering s (s.onParked lane tag) := by
  unfold State.onParked
  split
  · exact (offering_takeParked _ _).trans (offering_evaluate _)
  · exact .refl s

theorem offering_onAwake (s : State) (lane : Lane) (tag : Word16) : Offering s (s.onAwake lane tag) := by
  unfold State.onAwake
  split
  · exact (offering_takeAwake _ _).trans (offering_evaluate _)
  · exact .refl s

/-! ### Samples -/

theorem offering_keepSpan (s : State) (slot : Nat) : Offering s (s.keepSpan slot) := by
  unfold State.keepSpan
  split
  · next h =>
    split
    · exact offering_enter _ _ _
    · exact .refl s
  · exact .refl s

theorem offering_markSpan (s : State) (slot n k : Nat) : Offering s (s.markSpan slot n k) :=
  offering_onSpan _ _ _

theorem offering_triggerWindowed (s : State) (src : Source) (n : Nat) (taken : Option Nat) :
    Offering s (s.triggerWindowed src n taken) := by
  unfold State.triggerWindowed
  cases taken with
  | none => exact (offering_eachSlot _ offering_keepSpan _ _).trans (offering_onWindow _ _ _)
  | some slot =>
    exact (offering_eachSlot _ offering_keepSpan _ _).trans ((offering_onSpan _ slot
      fun sp => { sp with retention := .keep }).trans ((offering_markSpan _ _ _ _).trans
        (offering_onWindow _ _ _)))

theorem offering_triggerPlain (s : State) (n : Nat) (taken : Option Nat) :
    Offering s (s.triggerPlain n taken) := by
  cases taken with
  | none => exact .refl s
  | some slot => exact offering_markSpan _ _ _ _

theorem offering_clearTag (s : State) (src : Source) :
    Offering s ((s.onIntake src fun i => { i with tagPending := false }).onWindow src
      fun w => { w with markPending := false }) :=
  (offering_onIntake s src (fun i => { i with tagPending := false }) rfl).trans
    (offering_onWindow _ _ _)

theorem offering_applyTrigger (s : State) (src : Source) (n : Nat) (taken : Option Nat) :
    Offering s (s.applyTrigger src n taken) := by
  unfold State.applyTrigger
  split
  · dsimp only
    split
    · exact (offering_clearTag s src).trans (offering_triggerWindowed _ _ _ _)
    · exact (offering_clearTag s src).trans (offering_triggerPlain _ _ _)
  · exact .refl s

theorem offering_testWindow (s : State) (src : Source) (n : Nat) (taken : Option Nat) :
    Offering s (s.testWindow src n taken) := by
  unfold State.testWindow
  split
  · split
    · dsimp only
      split
      · exact (offering_onWindow _ _ _).trans (offering_seal _ _)
      · exact offering_onWindow _ _ _
    · exact .refl s
  · exact .refl s

theorem offering_testLength (s : State) (src : Source) (taken : Option Nat) :
    Offering s (s.testLength src taken) := by
  unfold State.testLength
  split
  · split
    · exact offering_seal _ _
    · exact .refl s
  · exact .refl s

theorem offering_testNumbers (s : State) (src : Source) (n : Nat) : Offering s (s.testNumbers src n) := by
  unfold State.testNumbers
  split
  · dsimp only
    split
    · exact (offering_seal s src).trans ((offering_closeIntake _ _).trans (offering_handGap _ _))
    · exact offering_seal s src
  · exact .refl s

theorem offering_age (s : State) (src : Source) : Offering s (s.age src) := by
  unfold State.age
  split
  · split
    · exact offering_recycleAll _ _
    · exact .refl s
  · exact .refl s

theorem offering_append (s : State) (src : Source) (slot : Nat) (sp : Span) (x : Sample) :
    Offering s (s.append src slot sp x) :=
  Offering.trans (t := (s.setMem (s.mem.writeSample slot sp.count x)).setSpan slot { sp with count := sp.count + 1 })
    (offering_same rfl rfl) (offering_summaryTake _ _ _)

theorem offering_drop (s : State) (src : Source) (n : Nat) (cause : Byte) : Offering s (s.drop src n cause) := by
  have h := (offering_onIntake s src (fun i => { i with pendingGap := some (joinGap i.pendingGap n cause) })
    rfl).trans (offering_setRc _ { s.rc with counters :=
      { s.rc.counters with lost := s.rc.counters.lost.set src (s.rc.counters.lost.get src + 1) } })
  unfold State.drop
  dsimp only
  split
  · exact h.trans (offering_setFlag _ _)
  · exact h

/-- A FREE slot taken for the next sequence number. -/
theorem offering_opened (s : State) (seq : Word32) (t : SpanTable) : Offering s ((s.issue seq).setSt t) :=
  offering_same rfl rfl

theorem offering_openSpan (s : State) (src : Source) (n : Nat) (ret : Retention) :
    Offering s (s.openSpan src n ret).1 := by
  unfold State.openSpan
  split
  · exact .refl s
  · split
    · exact .refl s
    · dsimp only
      split
      · exact (offering_opened s _ _).trans (beside_occupancyChanged _ _ _).offering
      · split
        · exact offering_same rfl rfl
        · exact .refl s

theorem offering_stored (s : State) (src : Source) (slot : Nat) (x : Sample) :
    Offering s ((s.setMem (s.mem.writeSample slot 0 x)).summaryStart src slot x) :=
  Offering.trans (t := s.setMem (s.mem.writeSample slot 0 x)) (offering_same rfl rfl) (offering_summaryStart _ _ _ _)

theorem offering_openFor (s : State) (src : Source) (n : Nat) (x : Sample) : Offering s (s.openFor src n x).1 := by
  have h := offering_openSpan s src n (s.openRetention src)
  unfold State.openFor
  split <;> rename_i hs <;> rw [hs] at h
  · exact h.trans ((offering_stored _ _ _ _).trans (offering_handGap _ _))
  · exact h.trans (offering_drop _ _ _ _)
  · exact h

theorem offering_place (s : State) (src : Source) (n : Nat) (x : Sample) : Offering s (s.place src n x).1 := by
  unfold State.place
  split
  · exact offering_append _ _ _ _ _
  · split
    · exact offering_drop _ _ _ _
    · split
      · exact offering_drop _ _ _ _
      · exact offering_openFor _ _ _ _

theorem offering_takeSample (src : Source) (s : State) (x : Sample) : Offering s (State.takeSample src s x) := by
  unfold State.takeSample
  split
  · exact (offering_onIntake s src (fun i => { i with newest := some (s.intake src).nextNumber }) rfl).trans
      ((offering_place _ _ _ _).trans ((offering_applyTrigger _ _ _ _).trans ((offering_testWindow _ _ _ _).trans
        ((offering_testLength _ _ _).trans (offering_testNumbers _ _ _)))))
  · exact .refl s

theorem offering_takePacket (s : State) (src : Source) (xs : List Sample) : Offering s (s.takePacket src xs) := by
  have h : Offering s (xs.foldl (State.takeSample src) s) := by
    induction xs generalizing s with
    | nil => exact .refl s
    | cons x rest ih => exact (offering_takeSample src s x).trans (ih _)
  exact h.trans (offering_age _ _)

/-! ### The other frames of a module -/

theorem offering_bringupDone (s : State) (lane : Lane) (r : ModuleReport) : Offering s (s.bringupDone lane r) := by
  have h := (offering_onLane s lane fun a => a.adopt r).trans (offering_setFlag _ (laneChangeFlag lane))
  unfold State.bringupDone
  dsimp only
  split
  · exact h.trans ((offering_setFlag _ _).trans (offering_enterReady _ _))
  · exact h.trans (offering_enterReady _ _)

theorem offering_takeReport (s : State) (lane : Lane) (r : ModuleReport) : Offering s (s.takeReport lane r) := by
  have h := offering_onLane s lane fun a => { a with timer := none, report := some r }
  unfold State.takeReport
  dsimp only
  split
  · exact h.trans (offering_faultLane _ _ _)
  · exact h.trans (offering_bringupDone _ _ _)

theorem offering_onHelloReply (s : State) (lane : Lane) (tag : Word16) (r : ModuleReport) :
    Offering s (s.onHelloReply lane tag r) := by
  unfold State.onHelloReply
  split
  · exact (offering_takeReport _ _ _).trans (offering_evaluate _)
  · exact .refl s

theorem offering_takeAttention (s : State) (lane : Lane) : Offering s (s.takeAttention lane) := by
  have h := offering_onLane s lane fun a => { a with attentionSeen := true }
  unfold State.takeAttention
  dsimp only
  split
  · split
    · exact h.trans ((offering_enterWaking _ _).trans (offering_evaluate _))
    · exact h.trans (offering_onLane _ _ _)
    all_goals exact h
  · exact h

/-! ### Commands of a lane -/

theorem offering_setLane (s : State) (lane : Lane) (o : LaneOperands) : Offering s (s.setLane lane o) :=
  (offering_onLane s lane fun a => a.adoptSettings o).trans
    ((offering_enterBringup _ _).trans (offering_evaluate _))

theorem offering_laneReset (lane : Lane) (s : State) : Offering s (State.laneReset lane s) :=
  (offering_cancelJob s lane).trans ((offering_onLane _ lane fun a => { a.cleared with failures := 0 }).trans
    ((offering_enterBringup _ _).trans ((offering_checkFollower _ _).trans (offering_evaluate _))))

theorem offering_laneOffline (lane : Lane) (s : State) : Offering s (State.laneOffline lane s) := by
  unfold State.laneOffline
  split
  · exact .refl s
  · exact (offering_cancelJob s lane).trans ((offering_onLane _ lane LaneUnit.cleared).trans
      ((offering_enterDown _ _).trans ((offering_checkFollower _ _).trans (offering_evaluate _))))

theorem offering_lanePause (lane : Lane) (s : State) : Offering s (State.lanePause lane s) := by
  unfold State.lanePause
  split
  · exact (offering_enterPaused _ _).trans (offering_evaluate _)
  · exact offering_onLane _ _ _

theorem offering_laneResume (lane : Lane) (s : State) : Offering s (State.laneResume lane s) :=
  (offering_enterReady _ _).trans (offering_evaluate _)

theorem offering_lanePark (lane : Lane) (s : State) : Offering s (State.lanePark lane s) := by
  unfold State.lanePark
  split
  · exact (offering_enterParking _ _).trans (offering_evaluate _)
  · exact offering_onLane _ _ _
  all_goals exact .refl s

theorem offering_laneWake (lane : Lane) (s : State) : Offering s (State.laneWake lane s) := by
  unfold State.laneWake
  split
  · exact (offering_enterWaking _ _).trans (offering_evaluate _)
  · exact offering_onLane _ _ _
  all_goals exact .refl s

theorem offering_onLaneOf (f : Lane → State → State) (h : ∀ lane s, Offering s (f lane s)) (p : List Byte)
    (s : State) : Offering s (onLaneOf f p s) := by
  unfold onLaneOf
  split
  · exact .refl s
  · exact h _ _

theorem offering_setLaneEffect (p : List Byte) (s : State) : Offering s (setLaneEffect p s) := by
  unfold setLaneEffect
  split
  · exact offering_setLane _ _ _
  · exact .refl s

/-! ### ABORT RUN (R38) -/

/-- After ABORT RUN no offer waits at all. -/
theorem offering_abortRun (s : State) : Offering s s.abortRun := by
  have hi : (forLanes State.abortLane ((s.setPair none).setIu s.iu.abort)).discardAll.iu = s.iu.abort := by
    rw [discardAll_iu]
    exact (abortLane_iu .l1 _ (by rw [abortLane_iu .l0 _ rfl]; rfl)).trans (abortLane_iu .l0 _ rfl)
  unfold State.abortRun
  dsimp only
  generalize (forLanes State.abortLane ((s.setPair none).setIu s.iu.abort)).discardAll = u at hi
  refine Offering.trans (t := (((u.setCi
      ⟨u.ci.s0.abort, u.ci.s1.abort, u.ci.s2.abort, u.ci.s3.abort⟩).setTwu
        ⟨.reset, .reset, .reset, .reset⟩).setRc
          { u.rc with deadlineTimer := none, runState := .idle, lastEnd := .aborted }).calmAll)
    ⟨fun _ _ => ⟨?_, fun src => ?_, ?_⟩⟩ ?_
  · exact congrArg IndexUnit.waitSpans hi
  · cases src <;> rfl
  · exact congrArg IndexUnit.waitRunEnd hi
  · exact (offering_setFlag _ _).trans ((offering_rolesEnded _).trans (offering_evaluate _))

/-! ### The control link and the other commands -/

theorem offering_setClp (s : State) (c : LinkPort) : Offering s (s.setClp c) :=
  offering_same rfl rfl

theorem offering_setNu (s : State) (v : NoticeUnit) : Offering s (s.setNu v) :=
  offering_same rfl rfl

theorem offering_setTwu (s : State) (v : PerSource WindowSource) : Offering s (s.setTwu v) :=
  offering_same rfl rfl

theorem offering_setSpm (s : State) (v : PressureMonitor) : Offering s (s.setSpm v) :=
  offering_same rfl rfl

theorem offering_clockOut (s : State) (bytes : List Byte) : Offering s (s.clockOut bytes) :=
  offering_same rfl rfl

theorem offering_linkError (s : State) : Offering s s.linkError :=
  (offering_setClp s _).trans (offering_setFlag _ _)

theorem offering_assemble (s : State) (p : List Byte) : Offering s (s.assemble p) := by
  unfold State.assemble State.setRxPart
  split
  · exact offering_setClp s _
  · split
    · exact (offering_setClp s _).trans (offering_linkError _)
    · split
      · exact offering_setClp s _
      · have h : ∀ u : State, Offering u (u.frameIn p) := fun u => by
          unfold State.frameIn
          dsimp only
          split
          · exact offering_setClp _ _
          · exact offering_linkError _
        exact (offering_setClp s _).trans (h _)

theorem offering_byteOut (s : State) : Offering s s.byteOut := by
  unfold State.byteOut
  split
  · exact offering_same rfl rfl
  · split
    · exact offering_same rfl rfl
    · exact .refl s

theorem offering_bytesIn (s : State) (bytes : List Byte) : Offering s (s.bytesIn bytes) := by
  unfold State.bytesIn
  induction bytes generalizing s with
  | nil => exact .refl s
  | cons b rest ih =>
    have h : Offering s.byteOut (s.byteOut.byteIn b) := by
      unfold State.byteIn
      split
      · exact .refl _
      · exact offering_assemble _ _
    exact ((offering_byteOut s).trans h).trans (ih _)

theorem offering_cutOff (s : State) : Offering s (s.setOutPos 0).cutOff := by
  have h : ∀ u : State, Offering u u.cutOff := fun u => by
    unfold State.cutOff State.setRxPart
    split
    · exact .refl _
    · exact (offering_setClp _ _).trans (offering_linkError _)
  exact (offering_setClp s _).trans (h _)

theorem offerLaw_reset : OfferLaw State.reset := fun _ => ⟨rfl, fun src => by cases src <;> rfl, rfl⟩

theorem offering_partReset (s : State) : Offering s s.partReset :=
  ⟨fun _ => (offering_same (s := State.reset) (t := s.partReset) rfl rfl).law offerLaw_reset⟩

theorem offering_noticeOrOwe (s : State) (c : Fin 4) : Offering s (s.noticeOrOwe c) := by
  unfold State.noticeOrOwe
  unfold State.queueNotice State.setOwed
  split
  · exact (offering_setClp s _).trans (offering_setNu _ _)
  · exact offering_setNu s _

theorem offering_drainOwedClass (s : State) (c : Fin 4) : Offering s (s.drainOwedClass c) := by
  unfold State.drainOwedClass
  split
  · split
    · exact offering_setNu s _
    · split
      · exact (offering_setNu s _).trans ((offering_setClp _ _).trans (offering_setNu _ _))
      · exact .refl s
  · exact .refl s

theorem offering_drainOwed (s : State) : Offering s s.drainOwed :=
  (offering_drainOwedClass s 0).trans ((offering_drainOwedClass _ 1).trans
    ((offering_drainOwedClass _ 2).trans (offering_drainOwedClass _ 3)))

theorem offering_frameOut (s : State) : Offering s s.frameOut := by
  unfold State.frameOut
  split
  · exact .refl s
  · dsimp only
    split
    · exact (offering_clockOut s _).trans (offering_partReset _)
    · exact (offering_clockOut s _).trans ((offering_setClp _ _).trans (offering_drainOwed _))

/-- A command taken keeps the law, if its effect does where its checks pass. -/
theorem offering_take (c : Command) (h : ∀ p s, Offering s (c.effect p s)) (s : State) : Offering s (c.take s) := by
  have hq : ∀ f, Offering s (s.popFrame.queueOut f) := fun _ => offering_setClp s _
  unfold Command.take
  split
  · exact .refl s
  · split
    · unfold Command.answer
      split
      · exact hq _
      · split
        · exact (hq _).trans (h _ _)
        all_goals exact hq _
    · exact .refl s

theorem offering_setSourceEffect (p : List Byte) (s : State) : Offering s (setSourceEffect p s) := by
  unfold setSourceEffect
  split
  · exact (offering_onIntake s _ _ rfl).trans (offering_setSpm _ _)
  · exact .refl s

theorem offering_setSpoolEffect (p : List Byte) (s : State) : Offering s (setSpoolEffect p s) := by
  unfold setSpoolEffect
  split
  · exact (offering_setSpm s _).trans (beside_forSources _ _ fun src s => beside_evalPressure _ src s).offering
  · exact .refl s

theorem offering_setNoticesEffect (p : List Byte) (s : State) : Offering s (setNoticesEffect p s) := by
  have h : ∀ old t c, Offering t (State.noticeGained old t c) := fun old t c => by
    unfold State.noticeGained
    split
    · exact offering_noticeOrOwe _ _
    · exact .refl t
  unfold setNoticesEffect
  split
  · exact (offering_setNu s _).trans
      ((h _ _ 0).trans ((h _ _ 1).trans ((h _ _ 2).trans (h _ _ 3))))
  · exact .refl s

theorem offering_clearNoticesEffect (p : List Byte) (s : State) : Offering s (clearNoticesEffect p s) := by
  unfold clearNoticesEffect
  split
  · exact offering_same rfl rfl
  · exact .refl s

theorem offering_setCheckpointEffect (p : List Byte) (s : State) : Offering s (setCheckpointEffect p s) := by
  unfold setCheckpointEffect
  split
  · exact offering_congr rfl rfl rfl fun _ => rfl
  · exact .refl s

theorem offering_startIntake (src : Source) (s : State) : Offering s (State.startIntake src s) := by
  unfold State.startIntake
  split
  · refine ⟨fun h ht => ?_⟩
    have k := h ht
    refine ⟨k.1, fun x => ?_, k.2.2⟩
    have kx := k.2.1 x
    simp only [State.intake, State.onIntake_eq, State.setCi_ci, PerSource.get_set] at kx ⊢
    split
    · rfl
    · exact kx
  · exact .refl s

theorem offering_startRun (s : State) : Offering s (s.setIu s.iu.startRun) := offering_congr rfl rfl rfl fun _ => rfl

theorem offering_enterRunning (s : State) (e : Option Word16) : Offering s (s.enterRunning e) := by
  have h := (offering_setRc s { s.rc with runState := .running, startEpoch := e }).trans
    (offering_forSources _ _ offering_startIntake)
  unfold State.enterRunning
  dsimp only
  generalize forSources State.startIntake _ = u at h
  exact h.trans ((offering_setTwu u _).trans ((offering_setSpm _ _).trans
    ((offering_startRun _).trans (offering_setFlag _ _))))

theorem offering_arm (s : State) (a : ArmOperands) : Offering s (s.arm a) :=
  offering_same rfl rfl

theorem offering_armEffect (p : List Byte) (s : State) : Offering s (armEffect p s) := by
  unfold armEffect
  split
  · exact .refl s
  · split
    · exact (offering_arm s _).trans (offering_enterRunning _ _)
    · exact offering_arm s _

theorem offering_stopEffect (p : List Byte) (s : State) : Offering s (stopEffect p s) := by
  unfold stopEffect
  split
  · exact .refl s
  · exact (offering_setRc s _).trans (offering_setFlag _ _)
  · exact (offering_enterStopping s).trans (offering_evaluate _)
  · exact .refl s
  · exact .refl s

theorem offering_markEffect (p : List Byte) (s : State) : Offering s (markEffect p s) :=
  offering_forSources _ _ fun src t => by
    unfold State.markSource
    split
    · exact offering_same rfl rfl
    · exact .refl t

theorem offering_tagSources (mask : Nat) (s : State) : Offering s (forSources (State.tagSource mask) s) :=
  offering_forSources _ _ fun src t => by
    unfold State.tagSource
    split
    · exact offering_onIntake t src _ rfl
    · exact .refl t

theorem offering_takeEpoch (s : State) (e : Word16) : Offering s (s.takeEpoch e) := by
  have h : Offering s (s.setRc { s.rc with lastEpoch := some e }) := offering_same rfl rfl
  unfold State.takeEpoch
  dsimp only
  split
  · exact h.trans (offering_enterRunning _ _)
  · exact h

theorem offering_deadlineExpired (s : State) : Offering s s.deadlineExpired :=
  (offering_setRc s _).trans ((offering_setFlag _ .stopDeadline).trans
    ((offering_eachSlot _ offering_disposeQueued _ _).trans (offering_evaluate _)))

theorem offering_reload (s : State) : Offering s (s.setIu s.iu.reload) := offering_congr rfl rfl rfl fun _ => rfl

theorem offering_checkpointExpired (s : State) : Offering s s.checkpointExpired := by
  have h : Offering s (if (s.buffer .a).state.taken || (s.buffer .b).state.taken then s.lateExpiry
      else s.closeFilling) := by
    split
    · exact (offering_setFlag s _).trans (offering_setRc _ _)
    · exact offering_closeFilling s
  exact h.trans ((offering_reload _).trans (offering_evaluate _))

theorem offering_tick (s : State) : Offering s s.tick := offering_congr rfl rfl rfl fun _ => rfl

end Sys2Proof.Machine
end

