-- ==== Sys2Proof/WellFormed.lean ====
section
/-! DEFINITION. WellFormed.lean: what a command must satisfy to be one the outside can send. -/

namespace Sys2Proof

/-- The commands the outside can send. A packet holds 1 to 64 samples, so no other count can be presented
(R42); a discarded archive frame is one that fails the checks of R180. Every other row's operands are
bounded by their types, and the checks of a command's own fields are made when it is taken, by its meaning
(R172). -/
def Instr.wf : Instr → Bool
  | .samplePacket _ samples => decide (1 ≤ samples.length) && decide (samples.length ≤ 64)
  | .archiveFrameDiscarded _ bytes => (Machine.parseModuleFrame bytes).isNone
  | _ => true

end Sys2Proof
end

