-- ==== Sys2Proof/Laws/PerInstr.lean ====
section
/-! SUPPORT. Laws/PerInstr.lean: for every command, when it is one that the outside cannot send. -/

namespace Sys2Proof.Laws.Operands

/-- A command fails the check of well-formedness just when it is a packet of no sample or of more than 64
(R42), or a discarded archive frame whose bytes pass every check of R180. -/
def Statement (i : Instr) : Prop :=
  i.wf = false ↔
    (∃ src xs, i = .samplePacket src xs ∧ (xs.length = 0 ∨ 64 < xs.length)) ∨
      ∃ lane bytes, i = .archiveFrameDiscarded lane bytes ∧
        (Machine.parseModuleFrame bytes).isSome = true

/-- Every command but those two is well-formed. -/
theorem of_wf {i : Instr} (h : i.wf = true) (h1 : ∀ src xs, i ≠ .samplePacket src xs)
    (h2 : ∀ lane bytes, i ≠ .archiveFrameDiscarded lane bytes) : Statement i := by
  constructor
  · intro hf
    rw [h] at hf
    cases hf
  · rintro (⟨src, xs, hi, _⟩ | ⟨lane, bytes, hi, _⟩)
    · exact absurd hi (h1 src xs)
    · exact absurd hi (h2 lane bytes)

theorem powerOn : Statement .powerOn :=
  of_wf rfl nofun nofun

theorem commandFrame (bytes : List Byte) : Statement (.commandFrame bytes) :=
  of_wf rfl nofun nofun

theorem chipSelectRelease : Statement .chipSelectRelease :=
  of_wf rfl nofun nofun

theorem frameLeavesQueue : Statement .frameLeavesQueue :=
  of_wf rfl nofun nofun

theorem identify : Statement .identify :=
  of_wf rfl nofun nofun

theorem resetPart : Statement .resetPart :=
  of_wf rfl nofun nofun

theorem armRun : Statement .armRun :=
  of_wf rfl nofun nofun

theorem stopRun : Statement .stopRun :=
  of_wf rfl nofun nofun

theorem abortRun : Statement .abortRun :=
  of_wf rfl nofun nofun

theorem readRun : Statement .readRun :=
  of_wf rfl nofun nofun

theorem mark : Statement .mark :=
  of_wf rfl nofun nofun

theorem setSource : Statement .setSource :=
  of_wf rfl nofun nofun

theorem readSource : Statement .readSource :=
  of_wf rfl nofun nofun

theorem setSpool : Statement .setSpool :=
  of_wf rfl nofun nofun

theorem readSpool : Statement .readSpool :=
  of_wf rfl nofun nofun

theorem readSpan : Statement .readSpan :=
  of_wf rfl nofun nofun

theorem readQueue : Statement .readQueue :=
  of_wf rfl nofun nofun

theorem readPair : Statement .readPair :=
  of_wf rfl nofun nofun

theorem setLane : Statement .setLane :=
  of_wf rfl nofun nofun

theorem laneReset : Statement .laneReset :=
  of_wf rfl nofun nofun

theorem laneOffline : Statement .laneOffline :=
  of_wf rfl nofun nofun

theorem lanePause : Statement .lanePause :=
  of_wf rfl nofun nofun

theorem laneResume : Statement .laneResume :=
  of_wf rfl nofun nofun

theorem lanePark : Statement .lanePark :=
  of_wf rfl nofun nofun

theorem laneWake : Statement .laneWake :=
  of_wf rfl nofun nofun

theorem readLane : Statement .readLane :=
  of_wf rfl nofun nofun

theorem setCheckpoint : Statement .setCheckpoint :=
  of_wf rfl nofun nofun

theorem checkpointNow : Statement .checkpointNow :=
  of_wf rfl nofun nofun

theorem readIndex : Statement .readIndex :=
  of_wf rfl nofun nofun

theorem setNotices : Statement .setNotices :=
  of_wf rfl nofun nofun

theorem readNotices : Statement .readNotices :=
  of_wf rfl nofun nofun

theorem clearNotices : Statement .clearNotices :=
  of_wf rfl nofun nofun

theorem samplePacket (src : Source) (samples : List Sample) : Statement (.samplePacket src samples) := by
  have h : (Instr.samplePacket src samples).wf =
      (decide (1 ≤ samples.length) && decide (samples.length ≤ 64)) := rfl
  constructor
  · intro hf
    rw [h, Bool.and_eq_false_iff, decide_eq_false_iff_not, decide_eq_false_iff_not] at hf
    exact .inl ⟨src, samples, rfl, by omega⟩
  · rintro (⟨src', xs, hi, hx⟩ | ⟨lane, bytes, hi, _⟩)
    · cases hi
      rw [h, Bool.and_eq_false_iff, decide_eq_false_iff_not, decide_eq_false_iff_not]
      omega
    · cases hi

theorem triggerTag (mask : BitVec 4) : Statement (.triggerTag mask) :=
  of_wf rfl nofun nofun

theorem epochMark (epoch : Word16) : Statement (.epochMark epoch) :=
  of_wf rfl nofun nofun

theorem helloReply (lane : Lane) (tag : Word16) (maxBurst : Byte) (capacity : BitVec 40) (attention : Bool) :
    Statement (.helloReply lane tag maxBurst capacity attention) :=
  of_wf rfl nofun nofun

theorem helloTimeout (lane : Lane) : Statement (.helloTimeout lane) :=
  of_wf rfl nofun nofun

theorem ack (lane : Lane) (tag : Word16) : Statement (.ack lane tag) :=
  of_wf rfl nofun nofun

theorem retry (lane : Lane) (tag : Word16) : Statement (.retry lane tag) :=
  of_wf rfl nofun nofun

theorem moduleFault (lane : Lane) (tag : Word16) : Statement (.moduleFault lane tag) :=
  of_wf rfl nofun nofun

theorem responseTimeout (lane : Lane) : Statement (.responseTimeout lane) :=
  of_wf rfl nofun nofun

theorem parkDelayExpiry (lane : Lane) : Statement (.parkDelayExpiry lane) :=
  of_wf rfl nofun nofun

theorem parkedReply (lane : Lane) (tag : Word16) : Statement (.parkedReply lane tag) :=
  of_wf rfl nofun nofun

theorem awake (lane : Lane) (tag : Word16) : Statement (.awake lane tag) :=
  of_wf rfl nofun nofun

theorem wakeTimeout (lane : Lane) : Statement (.wakeTimeout lane) :=
  of_wf rfl nofun nofun

theorem attention (lane : Lane) : Statement (.attention lane) :=
  of_wf rfl nofun nofun

theorem archiveFrameDiscarded (lane : Lane) (bytes : List Byte) :
    Statement (.archiveFrameDiscarded lane bytes) := by
  have h : (Instr.archiveFrameDiscarded lane bytes).wf = (Machine.parseModuleFrame bytes).isNone := rfl
  constructor
  · intro hf
    rw [h] at hf
    exact .inr ⟨lane, bytes, rfl, by cases hp : Machine.parseModuleFrame bytes <;> simp_all⟩
  · rintro (⟨src, xs, hi, _⟩ | ⟨lane', bytes', hi, hx⟩)
    · cases hi
    · cases hi
      rw [h]
      cases hp : Machine.parseModuleFrame bytes <;> simp_all

theorem checkpointLockOn : Statement .checkpointLockOn :=
  of_wf rfl nofun nofun

theorem checkpointExpiry : Statement .checkpointExpiry :=
  of_wf rfl nofun nofun

theorem stopDeadlineExpiry : Statement .stopDeadlineExpiry :=
  of_wf rfl nofun nofun

theorem badCode : Statement .badCode :=
  of_wf rfl nofun nofun

end Sys2Proof.Laws.Operands
end

