-- ==== Sys2Proof/Tests/Slice0.lean ====
section
/-! SUPPORT. Tests/Slice0.lean: the model's own tests: commands that are refused as ill-formed, values the spec prints, single steps, and for every statement a state and operands that meet its hypotheses. -/

namespace Sys2Proof.Tests

open Sys2Proof.Machine

set_option Elab.async false

/-! ### Small states -/

/-- The state after reset with its notice clocked out. -/
def base : State := { State.reset with clp := { State.reset.clp with out := [] } }

/-- A frame with tag 7. -/
def frame (code : Byte) (payload : List Byte) : CmdFrame := { tag := 7, code := code, payload := payload }

/-- A state with one frame in the receive buffer and the outgoing queue empty. -/
def got (s : State) (f : CmdFrame) : State := { s with clp := { s.clp with rx := [f], out := [] } }

/-- A frame of the outgoing queue. -/
def outFrame (resets : Bool) : OutFrame :=
  { kind := .reply, tag := 1, code := 0, payload := [], resets := resets }

/-- A state with its lane L0 as given. -/
def withLane (a : LaneUnit) : State := { base with al := ⟨a, .reset⟩ }

/-- A lane in a state, with an exchange outstanding under tag 9. -/
def laneIn (st : LaneState) : LaneUnit :=
  { LaneUnit.reset with
    state := st
    burstTag := 9
    timer := some 5 }

/-- A lane in a state with nothing outstanding. -/
def quietIn (st : LaneState) : LaneUnit := { LaneUnit.reset with state := st }

/-- A state in a run state, the run's source set S0. -/
def inRun (r : RunState) : State :=
  { base with
    rc := { base.rc with
      runState := r
      runId := some 5
      sourceSet := ⟨true, false, false, false⟩ } }

/-- A CONTINUOUS source's settings with the shortest span. -/
def short : SourceSettings := { SourceSettings.default with enabled := true, spanExp := 20 }

/-- A span of S0 in slot 0 with sequence 0. -/
def spanIn (st : SpanState) (count : Nat) : Span :=
  { openedSpan 5 0 .s0 0 .plain short with state := st, count := count }

/-- A running run whose source S0 has settings as given and a span in slot 0. -/
def capturing (set : SourceSettings) (sp : Span) (newest : Nat) : State :=
  { inRun .running with
    ci := ⟨⟨set, .taking, some newest, false, none, none⟩, .reset, .reset, .reset⟩
    st := { slots := [(0, sp)], queues := ⟨[], [], [], []⟩, occupancy := 1 }
    se := ⟨some (startRunning 0 set 1), none, none, none⟩ }

/-- The span write job of slot 0: one data block and the header. -/
def job (phase : JobPhase) : SpanJob :=
  { slot := 0, runId := 5, seq := 0, started := true, first := 0, reserved := 2, phase := phase, next := 1,
    retries := 0, record := some (spanIn .draining 1) }

/-- L0 writing the span of slot 0. -/
def writing (phase : JobPhase) : State :=
  { withLane { laneIn .busy with job := some (.span (job phase)) } with
    st := { slots := [(0, spanIn .draining 1)], queues := ⟨[], [], [], []⟩, occupancy := 1 } }

/-- The state a command leads to. -/
def nextOf (o : Host.Outcome State Fault Refusal) : Option State :=
  match o with
  | .next t => some t
  | _ => none

/-- L0 writing an index block. -/
def indexing : State :=
  withLane { laneIn .busy with
    job := some (.index
      { buffer := .a, address := 1048575, retries := 0,
        image := { runId := 5, seq := 0, entries := [], final := false, prev := none } }) }

/-- An index buffer in a state, with n entries. -/
def bufferIn (st : BufferState) (n : Nat) : IndexBuffer :=
  { state := st, entries := List.replicate n (spanIn .committed 1).entry, final := false }

/-- The index while buffer A is being written by L0 and buffer B waits CLOSED, so that offers wait. -/
def stalled : State :=
  { base with
    iu := { base.iu with
      buffers := ⟨bufferIn .writing 1, bufferIn .closed 63⟩
      writing := some { buffer := .a, seq := 0, duty := ⟨.owed, .off⟩ } } }

theorem indexRests_base : IndexRests base.iu where
  owed _ h := by cases h
  closed _ b := by cases b <;> decide

theorem indexRests_stalled : IndexRests stalled.iu where
  owed _ h := by cases h; exact .inl rfl
  closed h := by cases h

/-- A run that has issued the one span that it holds. -/
def issuedOne (s : State) : State :=
  { s with rc := { s.rc with counters := { RunCounters.zero with issued := 1 } } }

theorem indexLaw_bufferA {v : IndexBuffer} (hw : v.state = .filling ∨ v.state = .empty) (hn : v.entries.length < 63)
    (he : v.state = .empty → v.entries = []) : IndexLaw { base.iu with buffers := ⟨v, .empty⟩ } where
  entries b := by
    cases b
    · exact Nat.le_of_lt hn
    · exact Nat.zero_le _
  filling b _ := by
    cases b
    · exact hn
    · exact Nat.zero_lt_succ _
  empty b h := by
    cases b
    · exact he h
    · rfl
  oneFilling b c h k := by cases b <;> cases c <;> first | rfl | cases h | cases k
  writing b := by
    refine ⟨fun h => ?_, fun ⟨_, h, _⟩ => by cases h⟩
    cases b
    · have h' : v.state = .writing := h
      rcases hw with k | k <;> rw [k] at h' <;> cases h'
    · cases h

theorem indexLaw_base : IndexLaw base.iu := indexLaw_bufferA (.inr rfl) (by decide) fun _ => rfl

/-- The laws of a run that holds one span, not QUEUED, and takes samples on S0 alone. -/
theorem runLaw_one {s : State} {sp : Span} (hs : s.st.slots = [(0, sp)]) (hq : s.st.queues = ⟨[], [], [], []⟩)
    (ho : s.st.occupancy = 1) (hn : sp.state ≠ .queued) (hr : s.rc.runState = .running)
    (hc : s.rc.counters = { RunCounters.zero with issued := 1 })
    (h0 : s.rc.sourceSet.get .s0 = true)
    (ht : (s.intake .s1).intake.takes = false ∧ (s.intake .s2).intake.takes = false ∧
      (s.intake .s3).intake.takes = false)
    (hi : IndexLaw s.iu) (he : s.iu.runEnds = 0) : RunLaw s where
  table := ⟨by rw [hs]; rfl, by rw [hs, ho]; rfl⟩
  queues src := by
    have hg : s.st.queues.get src = [] := by rw [hq]; cases src <;> rfl
    rw [hg]
    refine ⟨List.nodup_nil, fun k => Iff.intro (fun h => by cases h) fun h => ?_, List.Pairwise.nil⟩
    obtain ⟨x, h, _, hx⟩ := h
    rw [hs] at h
    unfold findSlot at h
    split at h
    · cases h; exact absurd hx hn
    · cases h
  index := hi
  count := by
    unfold CountLaw
    rw [hc, hs]
    rfl
  intake src h := ⟨hr, by
    cases src
    · exact h0
    · rw [ht.1] at h; cases h
    · rw [ht.2.1] at h; cases h
    · rw [ht.2.2] at h; cases h⟩
  free h := by rw [hr] at h; cases h
  ends := ⟨by rw [he]; decide, fun h => by rw [he] at h; cases h⟩

/-- A table with every slot taken: slot 0 by a HELD span of S0, the others by QUEUED ones. -/
def fullTable : SpanTable :=
  { slots := (0, spanIn .held 1) :: (List.range 4095).map fun k => (k + 1, spanIn .queued 1)
    queues := ⟨[], [], [], []⟩
    occupancy := 4096 }

theorem firstFree_none {slots : List (Nat × Span)} {fuel k : Nat}
    (h : ∀ j, k ≤ j → j < k + fuel → (findSlot slots j).isSome = true) : firstFree slots fuel k = none := by
  induction fuel generalizing k with
  | zero => rfl
  | succ fuel ih =>
    have hk := h k (Nat.le_refl k) (by omega)
    unfold firstFree
    rw [if_neg (by cases hf : findSlot slots k <;> simp_all)]
    exact ih fun j h1 h2 => h j (by omega) (by omega)

theorem received {s : State} {code : Byte} (payload : List Byte)
    (ho : ∀ c, s.nu.owed.get c = false := by decide) :
    Receives (got s (frame code payload)) code (frame code payload) [] :=
  ⟨rfl, rfl, Nat.zero_le _, ho, fun _ h => by cases h⟩

/-! ### Ill-formed commands are refused -/

theorem test_wf_empty_packet : (Instr.samplePacket .s0 []).wf = false := by decide

theorem test_wf_long_packet : (Instr.samplePacket .s3 (List.replicate 65 0)).wf = false := by decide

theorem test_wf_full_packet : (Instr.samplePacket .s3 (List.replicate 64 0)).wf = true := by decide

/-- The bytes of an ACK with tag 1 are no frame to discard. -/
theorem test_wf_good_archive_frame :
    (Instr.archiveFrameDiscarded .l0 (linkFrame 0x82 1 [])).wf = false := by decide +kernel

theorem test_wf_bad_archive_frame : (Instr.archiveFrameDiscarded .l0 [0xA5]).wf = true := by
  decide +kernel

/-! ### Values the spec prints -/

/-- The CRC over "123456789" (R179). -/
theorem test_crc : crc16 [0x31, 0x32, 0x33, 0x34, 0x35, 0x36, 0x37, 0x38, 0x39] = 0x29B1 := by
  decide +kernel

/-- No row of the table gives bits. -/
theorem test_decode_word : decodeTableWord 8 0 = none ∧ base.withFetchWord 8 0 = base := ⟨rfl, rfl⟩

/-- The table of R79. -/
theorem test_scaled_terms :
    scaledTerm 3 98304 = 4 ∧ scaledTerm 0xFFFD 98304 = -5 ∧ scaledTerm 1 1 = 0 ∧
      scaledTerm 0xFFFF 1 = -1 := by decide

/-- The energy holds at 2^64 - 1 and marks itself (R80). -/
theorem test_energy_saturates :
    (({ startRunning 0 short 1 with energy := maxEnergy } : Running).takeEnergy 1).saturated = true := by
  decide

/-! ### One step each -/

theorem test_powerOn : exec .powerOn State.reset = .next State.reset := rfl

/-- A command frame whose payload is empty, as bytes; the idle byte is clocked out beside each of its 8. -/
theorem test_commandFrame :
    nextOf (exec (.commandFrame (frame 0x01 []).bytes) base) =
      some
        { base with
          clp := { base.clp with rx := [frame 0x01 []] }
          clocked := [0xFF, 0xFF, 0xFF, 0xFF, 0xFF, 0xFF, 0xFF, 0xFF] } := by
  decide +kernel

/-- The RESET_DONE notice of 11 bytes is clocked out in part beside a command frame of 8, is begun anew after
the release of chip select, and is then clocked out whole (R171). -/
theorem test_partial_frame_out :
    let s1 := (nextOf (exec (.commandFrame (frame 0x01 []).bytes) State.reset)).getD base
    let s2 := (nextOf (exec .chipSelectRelease s1)).getD base
    let s3 := (nextOf (exec .frameLeavesQueue s2)).getD base
    s1.clp.outPos = 8 ∧ s1.clocked = [0xA5, 3, 0, 3, 0, 0, 1, 0] ∧ s2.clp.outPos = 0 ∧
      s2.clp.out = s1.clp.out ∧ s3.clp.out = [] ∧ s3.clocked.length = 19 ∧
      (s3.clocked.drop 8).take 9 = [0xA5, 3, 0, 3, 0, 0, 1, 0, 0] := by decide +kernel

/-- The seal at sample 2^48 - 1 of the span of sequence 2^32 - 1, of retention HISTORY and the only one of a run
with no lane on duty, stops and ends the run at once: the source is IDLE, not CLOSED (R34, R46, R53). -/
theorem test_last_sample_ends_the_run :
    let set : SourceSettings := { short with mode := .triggered }
    let sp : Span := { spanIn .filling 1 with seq := BitVec.allOnes 32, retention := .history }
    (nextOf (exec (.samplePacket .s0 [1]) (capturing set sp (2 ^ 48 - 2)))).map
      (fun t => (t.rc.runState, (t.intake .s0).intake, t.st.slots)) = some (.idle, .idle, []) := by
  decide +kernel

theorem test_identify :
    nextOf (exec .identify (got base (frame 0x01 []))) = some
      { base with
        clp := { base.clp with
          out := [{ kind := .reply, tag := 7, code := 0,
                    payload := [0x34, 0x0B, 2, 0, 0x10, 16, 4, 2, 0, 4], resets := false }] } } := by
  decide +kernel

/-- The reply frame of an IDENTIFY has 18 bytes: the payload of 10 and 8 more (R179). -/
theorem test_reply_bytes :
    (({ kind := .reply, tag := 7, code := 0, payload := identity, resets := false } : OutFrame).bytes).length =
      18 := by decide +kernel

/-- A sample of a TAKING source with an empty table opens slot 0 (R12). -/
theorem test_samplePacket :
    (nextOf (exec (.samplePacket .s0 [0x1234])
        { capturing short (spanIn .filling 1) 0 with st := .empty })).map
      (fun t => (t.st.occupancy, t.mem, t.rc.counters.issued)) = some (1, [⟨0, 0x34⟩, ⟨1, 0x12⟩], 1) := by
  decide +kernel

/-- A HELLO of L0: start byte, type, tag, body length 0 and CRC (R180). -/
theorem test_hello_bytes : ((LaneFrame.hello 1).bytes).take 8 = [0xA5, 1, 1, 0, 0, 0, 0, 0] := by
  decide +kernel

/-- A span header block and an index block have 4096 bytes (R181). -/
theorem test_block_sizes :
    (headerBlock (spanIn .draining 1) .l0 0 1).length = 4096 ∧
      (IndexImage.bytes { runId := 5, seq := 0, entries := [], final := false, prev := none }).length = 4096 := by
  decide +kernel

/-- The ACK of the header burst commits the span, and its entry is admitted to buffer A (R111, R159). -/
theorem test_ack :
    (nextOf (exec (.ack .l0 9) (writing .header))).map
      (fun t => (t.st.slots, (t.buffer .a).entries.length, (t.lane .l0).state, t.rc.counters.indexed)) =
        some ([], 1, .ready, 1) := by decide +kernel

/-! ### The hypotheses of the statements are met -/

theorem test_met_StepTakesTheFrontCommand :
    (base.withPending [.identify, .powerOn]).pending = .identify :: [.powerOn] := rfl

theorem test_met_IdleStepLetsAMillisecondPass : base.pending = [] := rfl

theorem test_met_EveryCommandCompletesInOrder :
    (base.withPending [.attention .l1]).pending = .attention .l1 :: [] := rfl

theorem offerLaw_reset : OfferLaw State.reset :=
  fun _ => ⟨rfl, fun src => by cases src <;> rfl, rfl⟩

theorem test_met_EveryStepKeepsTheRunLaws :
    RunLaw State.reset ∧ OfferLaw State.reset ∧ step State.reset = .next State.reset.tick :=
  ⟨runLaw_reset, offerLaw_reset, rfl⟩

theorem test_met_EveryStepKeepsThePortBounds :
    LinkOk State.reset.clp ∧ step State.reset = .next State.reset.tick := ⟨linkOk_reset, rfl⟩

theorem test_met_EveryStepKeepsMemoryCanonical :
    MemOk { base with mem := [⟨3, 1⟩], pending := [.powerOn] } ∧
      step { base with mem := [⟨3, 1⟩], pending := [.powerOn] } =
        .next ({ base with mem := [⟨3, 1⟩] } : State).partReset := ⟨rfl, rfl⟩

theorem test_met_OnlySamplesWriteMemory :
    (∀ src xs, Instr.powerOn ≠ .samplePacket src xs) ∧ exec .powerOn base = .next base.partReset :=
  ⟨nofun, rfl⟩

/-- A payload of the greatest length, and a receive buffer with one place left. -/
theorem test_met_GoodFrameJoinsTheReceiveBuffer :
    base.clp.rxPart = [] ∧ (frame 1 (List.replicate 1024 0)).payload.length ≤ 1024 ∧
      ([frame 1 [], frame 1 [], frame 1 []] : List CmdFrame).length < 4 := by decide +kernel

/-- A queue with a frame part-way out, and an empty one. -/
theorem test_clocksOut :
    (State.reset.clocksOut 3).clp.outPos = 3 ∧ (State.reset.clocksOut 20).clp.outPos = 10 ∧
      (base.clocksOut 2).clocked = [0xFF, 0xFF] := by decide +kernel

/-- A wrong CRC, a wrong kind, a full receive buffer, a length of 1025, and bytes outside a frame. -/
theorem test_met_BadFrameIsALinkError :
    (let p : List Byte := [0xA5, 0, 0, 1, 7, 1, 0, 0];
      byteAt p 0 = 0xA5 ∧ p.length = 8 + field p 1 2 ∧ field p 1 2 ≤ 1024 ∧
        field p (6 + field p 1 2) 2 ≠ (crc16 ((p.drop 3).take (3 + field p 1 2))).toNat) ∧
    (let p : List Byte := 0xA5 :: (leBytes 2 0 ++ [2, 7, 1] ++ crcBytes [2, 7, 1]);
      byteAt p 0 = 0xA5 ∧ p.length = 8 + field p 1 2 ∧ byteAt p 3 ≠ 1) ∧
    (let p : List Byte := (frame 1 []).bytes;
      byteAt p 0 = 0xA5 ∧ p.length = 8 + field p 1 2 ∧
        4 ≤ ([frame 1 [], frame 1 [], frame 1 [], frame 1 []] : List CmdFrame).length) ∧
    (let p : List Byte := [0xA5, 0x01, 0x04];
      byteAt p 0 = 0xA5 ∧ p.length = 3 ∧ 1024 < field p 1 2) ∧
    ∀ b ∈ ([0x00, 0xFF] : List Byte), b ≠ 0xA5 := by decide +kernel

theorem test_met_ChipSelectReleaseCutsOffAFrame :
    ({ base.clp with rxPart := [0xA5] } : LinkPort).rxPart ≠ [] ∧ base.clp.rxPart = [] := by decide

theorem test_met_OldestFrameLeavesTheQueue :
    ({ base.clp with out := [outFrame false] } : LinkPort).out = outFrame false :: [] ∧
      (outFrame false).resets = false ∧ (∀ c, base.nu.owed.get c = false) ∧ (outFrame true).resets = true ∧
      base.clp.out = [] := by decide

/-- A flag pending and one not; a class disabled and one enabled; a queue of 14 frames and of 15. -/
theorem test_met_FlagIsNoticedOrOwed :
    base.nu.isPending .resetDone = true ∧ base.nu.isPending .shed = false ∧
      ({ base.nu with enable := ⟨false, false, false, false⟩ } : NoticeUnit).enable.get 0 = false ∧
      base.nu.enable.get (base.nu.cls .shed) = true ∧
      (List.replicate 14 (outFrame false)).length ≤ 14 ∧ 14 < (List.replicate 15 (outFrame false)).length ∧
      (∀ d, ({ base.nu with owed := ⟨false, true, false, false⟩ } : NoticeUnit).owed.get d =
        decide (d = 1)) := by decide +kernel

theorem test_met_BadLengthAndBadCodeAreAnswered :
    (∃ row ∈ commandRows, Receives (got base (frame 0x18 [])) row.2.1 (frame 0x18 []) [] ∧
      (frame 0x18 []).payload.length ≠ row.2.2) ∧
    Receives (got base (frame 0x63 [])) 0x63 (frame 0x63 []) [] ∧ ∀ row ∈ commandRows, row.2.1 ≠ 0x63 :=
  ⟨⟨(.mark, 0x18, 1), by decide, received [], by decide⟩, received [], by decide⟩

theorem test_met_RowNotDueChangesNothing :
    (Instr.identify, (0x01 : Byte), 0) ∈ commandRows ∧ base.clp.rx = [] ∧
      15 < (List.replicate 16 (outFrame false)).length ∧
      (∃ c, ({ base.nu with owed := ⟨false, false, false, true⟩ } : NoticeUnit).owed.get c = true) ∧
      (∃ g ∈ [outFrame true], g.resets = true) ∧
      (got base (frame 0x02 [])).clp.rx = frame 0x02 [] :: [] ∧ (frame 0x02 []).code ≠ 0x01 := by
  decide

theorem test_met_RunStateDecidesTheRefusal :
    (Receives (got (inRun .armed) (frame 0x10 (List.replicate 8 0))) 0x10
      (frame 0x10 (List.replicate 8 0)) [] ∧ (inRun .armed).rc.runState ≠ .idle) ∧
    (Receives (got (inRun .ending) (frame 0x20 (List.replicate 24 0))) 0x20
      (frame 0x20 (List.replicate 24 0)) [] ∧ (inRun .ending).rc.runState ≠ .idle) ∧
    (Receives (got base (frame 0x12 [])) 0x12 (frame 0x12 []) [] ∧ base.rc.runState = .idle) ∧
    (Receives (got (inRun .armed) (frame 0x18 [1])) 0x18 (frame 0x18 [1]) [] ∧
      (inRun .armed).rc.runState ≠ .running) ∧
    Receives (got (inRun .ending) (frame 0x51 [])) 0x51 (frame 0x51 []) [] ∧
      (inRun .ending).rc.runState ≠ .running ∧ (inRun .ending).rc.runState ≠ .stopping :=
  ⟨⟨received _, by decide⟩, ⟨received _, by decide⟩, ⟨received _, rfl⟩, ⟨received _, by decide⟩,
    received _, by decide, by decide⟩

/-- Lane number 2 for every lane command; then each command in a state that its rule forbids. -/
theorem test_met_LaneStateDecidesTheRefusal :
    (∃ row ∈ commandRows, (0x40 : Byte) ≤ row.2.1 ∧ row.2.1 ≤ 0x47 ∧
      Receives (got base (frame 0x47 [2])) row.2.1 (frame 0x47 [2]) [] ∧
      (frame 0x47 [2]).payload.length = row.2.2 ∧ 1 < byteAt (frame 0x47 [2]).payload 0) ∧
    (Receives (got (withLane (quietIn .ready)) (frame 0x40 (List.replicate 28 0))) 0x40
      (frame 0x40 (List.replicate 28 0)) [] ∧
      byteAt (frame 0x40 (List.replicate 28 0)).payload 0 = Lane.l0.num) ∧
    (Receives (got base (frame 0x41 [0])) 0x41 (frame 0x41 [0]) [] ∧ (base.lane .l0).state = .down) ∧
    (Receives (got base (frame 0x43 [1])) 0x43 (frame 0x43 [1]) [] ∧
      byteAt (frame 0x43 [1]).payload 0 = Lane.l1.num) ∧
    (Receives (got base (frame 0x44 [0])) 0x44 (frame 0x44 [0]) [] ∧ (base.lane .l0).state ≠ .paused) ∧
    (Receives (got base (frame 0x45 [0])) 0x45 (frame 0x45 [0]) [] ∧
      (base.lane .l0).state ∈ [.down, .bringup, .paused, .waking, .faulted]) ∧
    Receives (got base (frame 0x46 [0])) 0x46 (frame 0x46 [0]) [] ∧
      (base.lane .l0).state ∈ [.down, .bringup, .paused, .faulted] :=
  ⟨⟨(.readLane, 0x47, 1), by decide, by decide, by decide, received _, by decide, by decide⟩,
    ⟨received _, by decide⟩, ⟨received _, rfl⟩, ⟨received _, by decide⟩, ⟨received _, by decide⟩,
    ⟨received _, by decide⟩, received _, by decide⟩

/-- Operands at the ends of their ranges. -/
theorem test_met_FieldsAreReadAsCarried :
    (let set : SourceSettings := { short with preDepth := 2 ^ 31, postDepth := 1, level := 7, bucketExp := 17 };
      20 ≤ set.spanExp ∧ set.spanExp ≤ 23 ∧ set.preDepth ≤ 2 ^ 31 ∧ 1 ≤ set.postDepth ∧ set.level ≤ 7 ∧
        14 ≤ set.bucketExp ∧ set.bucketExp ≤ 17) ∧
    (let o : SpoolOperands := { boundary := ⟨0, 0, 4096, 4096⟩, notify := ⟨true, false, false, true⟩, limit := 7 };
      o.boundary.a0 ≤ o.boundary.a1 ∧ o.boundary.a1 ≤ o.boundary.a2 ∧ o.boundary.a2 ≤ o.boundary.a3 ∧
        o.boundary.a3 ≤ 4096 ∧ 1 ≤ o.limit ∧ o.limit ≤ 7) ∧
    (let o : LaneOperands :=
        { settings := { LaneSettings.default with base := 2 ^ 40 - 2 ^ 20, wakeTime := 10000 }
          dataCursor := 2 ^ 20, indexCursor := 2 ^ 20 - 1 };
      alignBase o.settings.base o.settings.sizeExp = o.settings.base ∧
        o.settings.base + 2 ^ o.settings.sizeExp ≤ 2 ^ 40 ∧ o.dataCursor ≤ o.indexCursor + 1 ∧
        o.indexCursor ≤ 2 ^ o.settings.sizeExp - 1 ∧ o.settings.wakeTime ≤ 10000) ∧
    (let o : CheckpointOperands := { period := 10, lockTime := 9 };
      10 ≤ o.period ∧ o.period ≤ 60000 ∧ o.lockTime < o.period) ∧
    ((15 : Nat) ≤ 15 ∧ (3600 : Nat) ≤ 3600) ∧ (4095 : Nat) < 4096 := by decide +kernel

theorem test_met_IdentifyReportsThePart :
    Receives (got base (frame 0x01 [])) 0x01 (frame 0x01 []) [] ∧ (frame 0x01 []).payload.length = 0 :=
  ⟨received _, rfl⟩

/-- Source 3 and 4, slot 4095 and 4096, and a form above 1. -/
theorem test_met_ReadCommandsReport :
    (Receives (got base (frame 0x21 [3])) 0x21 (frame 0x21 [3]) [] ∧
      byteAt (frame 0x21 [3]).payload 0 = Source.s3.num ∧ 3 < byteAt (frame 0x21 [4]).payload 0) ∧
    (Receives (got base (frame 0x31 [0, 1, 0])) 0x31 (frame 0x31 [0, 1, 0]) [] ∧
      byteAt (frame 0x31 [0, 1, 0]).payload 0 = Source.s0.num) ∧
    (Receives (got base (frame 0x30 [0, 0xFF, 0x0F, 0, 0, 0, 0])) 0x30 (frame 0x30 [0, 0xFF, 0x0F, 0, 0, 0, 0])
      [] ∧ decodeSpanName [0, 0xFF, 0x0F, 0, 0, 0, 0] = some (.slot 4095)) ∧
    (byteAt [0, 0x00, 0x10, 0, 0, 0, 0] 0 = 0 ∧ 4095 < field [0, 0x00, 0x10, 0, 0, 0, 0] 1 2 ∧
      1 < byteAt [2, 0, 0, 0, 0, 0, 0] 0) ∧
    Receives (got base (frame 0x47 [BitVec.ofNat 8 Lane.l1.num])) 0x47
      (frame 0x47 [BitVec.ofNat 8 Lane.l1.num]) [] :=
  ⟨⟨received _, by decide, by decide⟩, ⟨received _, by decide⟩, ⟨received _, by decide⟩, by decide,
    received _⟩

theorem test_met_ResetPartOnlyReplies :
    Receives (got base (frame 0x02 [])) 0x02 (frame 0x02 []) [] ∧ (frame 0x02 []).payload.length = 0 :=
  ⟨received _, rfl⟩

/-- A start NOW with the default deadline, and a start AT epoch 65535 with the longest. -/
theorem test_met_ArmRunArmsTheRun :
    let s : State := { base with ci := ⟨{ IntakeSource.reset with settings := short }, .reset, .reset, .reset⟩ }
    (Receives (got s (frame 0x10 [5, 0, 0, 0, 0, 1, 0, 0])) 0x10 (frame 0x10 [5, 0, 0, 0, 0, 1, 0, 0]) [] ∧
      s.rc.runState = .idle ∧
      decodeArm [5, 0, 0, 0, 0, 1, 0, 0] = some { runId := 5, start := .now, mask := 1, deadline := 0 } ∧
      inMask 1 .s0 = true ∧ (s.settings .s0).enabled = true) ∧
    decodeArm [5, 0, 1, 0xFF, 0xFF, 15, 0x10, 0x0E] =
      some { runId := 5, start := .atEpoch 0xFFFF, mask := 15, deadline := 3600 } :=
  ⟨⟨received _, rfl, by decide, by decide, rfl⟩, by decide⟩

/-- A start kind, a deadline and a mask just out of range, and a mask that names a source that is not enabled. -/
theorem test_met_ArmRunArmsTheRun_badValue :
    let p : Nat → Nat → Nat → List Byte := fun kind mask deadline =>
      leBytes 2 5 ++ leBytes 1 kind ++ leBytes 2 0 ++ leBytes 1 mask ++ leBytes 2 deadline
    Receives (got base (frame 0x10 (p 0 1 0))) 0x10 (frame 0x10 (p 0 1 0)) [] ∧ (p 0 1 0).length = 8 ∧
      base.rc.runState = .idle ∧ 1 < byteAt (p 2 1 0) 2 ∧ 15 < byteAt (p 0 16 0) 5 ∧
      3600 < field (p 0 1 3601) 6 2 ∧ (∃ a, decodeArm (p 0 1 0) = some a ∧ inMask a.mask .s0 = true) ∧
      (base.settings .s0).enabled = false :=
  ⟨received _, by decide, rfl, by decide, by decide, by decide, ⟨_, rfl, by decide⟩, rfl⟩

theorem test_met_EpochMarkStartsTheArmedRun :
    (let s : State := { inRun .armed with rc := { (inRun .armed).rc with start := .atEpoch 0 } };
      s.rc.runState = .armed ∧ s.rc.start = .atEpoch 0) ∧ base.rc.runState ≠ .armed := by decide

/-- Each run state; and a RUNNING run with a FILLING span, PLAIN or HISTORY, and one with a HELD span. -/
theorem test_met_StopRunByRunState :
    (∀ r, Receives (got (inRun r) (frame 0x11 [])) 0x11 (frame 0x11 []) [] ∧ (inRun r).rc.runState = r) ∧
    (let s := capturing short (spanIn .filling 1) 0;
      s.rc.runState = .running ∧ s.rc.sourceSet.get .s0 = true ∧ TableOk s.st ∧
        s.st.filling .s0 = some (0, spanIn .filling 1) ∧ (spanIn .filling 1).retention ≠ .history ∧
        s.iu.waitSpans = []) ∧
    ({ spanIn .filling 1 with retention := .history } : Span).retention = .history ∧
    (capturing short (spanIn .held 1) 0).span? 0 = some (spanIn .held 1) :=
  ⟨fun _ => ⟨received _ (fun c => by fin_cases c <;> rfl), rfl⟩,
    ⟨rfl, rfl, ⟨by decide, rfl⟩, by decide, by decide, rfl⟩, rfl, by decide⟩

/-- A run source that holds a pending gap, alone or behind an offered one, while buffer A can take an entry and
while no buffer can. -/
theorem test_met_StopRunByRunState_gaps :
    let g : Gap := { first := 0, count := 1, causes := 8 }
    let s : State → Option Gap → State := fun b offered =>
      { capturing short (spanIn .queued 1) 0 with
        ci := ⟨⟨short, .taking, some 0, false, some g, offered⟩, .reset, .reset, .reset⟩, iu := b.iu }
    (∀ b offered, (s b offered).rc.sourceSet.get .s0 = true ∧ ((s b offered).intake .s0).pendingGap = some g ∧
      ((s b offered).intake .s0).offeredGap = offered) ∧
    (s base none).target = some .a ∧ ((s base none).buffer .a).entries.length + 4 < 63 ∧
    IndexRests (s base none).iu ∧ (s base none).enterStopping.rc.runState = .stopping ∧
    (s stalled none).target = none :=
  ⟨fun _ _ => ⟨rfl, rfl, rfl⟩, by decide, by decide, indexRests_base, by decide +kernel, by decide⟩

/-- A run with every slot FREE and no gap, which buffer A or none can take an entry of; with no lane on duty, and
with L0 on it. -/
theorem test_met_StopRunByRunState_ending :
    let s := inRun .running
    s.rc.runState = .running ∧ s.st.slots = [] ∧
      (∀ src, (s.intake src).pendingGap = none ∧ (s.intake src).offeredGap = none) ∧ s.target = some .a ∧
      IndexRests s.iu ∧ s.iu.writing = none ∧ s.iu.waitSpans = [] ∧ s.iu.waitRunEnd = none ∧
      (s.lane .l0).state.duty = .off ∧ (s.lane .l1).state.duty = .off ∧
      ((withLane (quietIn .ready)).lane .l0).state.duty = .owed ∧ stalled.target = none ∧
      stalled.iu.writing.isSome = true :=
  ⟨rfl, rfl, fun src => by cases src <;> exact ⟨rfl, rfl⟩, by decide, indexRests_base, rfl, rfl, rfl, rfl, rfl,
    rfl, by decide, rfl⟩

theorem test_met_AbortRunEndsTheRun :
    Receives (got (inRun .running) (frame 0x12 [])) 0x12 (frame 0x12 []) [] ∧
      (inRun .running).rc.runState ≠ .idle ∧ ((writing .data).lane .l0).state = .busy ∧
      ((writing .data).lane .l0).job = some (.span (job .data)) :=
  ⟨received _, by decide, rfl, rfl⟩

/-- One QUEUED span and its queue. -/
def oneQueued : SpanTable :=
  { slots := [(0, spanIn .queued 1)], queues := ⟨[0], [], [], []⟩, occupancy := 1 }

theorem queueLaw_oneQueued : QueueLaw oneQueued := by
  intro src
  refine ⟨by cases src <;> decide, fun slot => ?_, by cases src <;> simp [oneQueued, PerSource.get]⟩
  by_cases h : slot = 0
  · subst h
    cases src <;> simp [oneQueued, PerSource.get, findSlot, spanIn, openedSpan]
  · cases src <;> simp [oneQueued, PerSource.get, findSlot, h]

/-- A QUEUED span while buffers can take an entry, and while none can. -/
theorem test_met_StopDeadlineEmptiesTheQueues :
    (let s : State :=
        { inRun .stopping with
          rc := { (inRun .stopping).rc with deadlineTimer := some 0 }
          st := oneQueued };
      s.rc.runState = .stopping ∧ s.rc.deadlineTimer.isSome = true ∧ TableOk s.st ∧ QueueLaw s.st ∧
        s.span? 0 = some (spanIn .queued 1) ∧ s.target = some .a) ∧
      stalled.target = none ∧ base.rc.deadlineTimer = none :=
  ⟨⟨rfl, rfl, ⟨by decide, rfl⟩, queueLaw_oneQueued, by decide, by decide⟩, by decide, rfl⟩

/-- The masks 15 and 16. -/
theorem test_met_TagAndMarkReachTakingSources :
    Receives (got (inRun .running) (frame 0x18 [15])) 0x18 (frame 0x18 [15]) [] ∧
      (inRun .running).rc.runState = .running ∧ ¬ 15 < (15 : Byte).toNat ∧ 15 < (16 : Byte).toNat :=
  ⟨received _, rfl, by decide, by decide⟩

theorem test_met_SamplesOfAnIdleSourceAreIgnored :
    (base.intake .s0).intake = .idle ∧
      (({ base with ci := ⟨{ IntakeSource.reset with intake := .closed }, .reset, .reset, .reset⟩ } :
        State).intake .s0).intake = .closed := by decide

theorem test_met_SampleIsAppended :
    let s := capturing short (spanIn .filling 1) 0
    (s.intake .s0).intake.takes = true ∧ s.st.filling .s0 = some (0, spanIn .filling 1) ∧
      s.se.get .s0 = some (startRunning 0 short 1) ∧ (s.intake .s0).tagPending = false ∧
      (s.twu.get .s0).markPending = false ∧ (s.settings .s0).mode ≠ .triggered ∧
      (spanIn .filling 1).count + 1 ≠ 2 ^ (s.settings .s0).spanExp ∧
      (s.intake .s0).nextNumber ≠ 2 ^ 48 - 1 ∧ TableOk s.st :=
  ⟨by decide, by decide, by decide, by decide, by decide, by decide, by decide, by decide, ⟨by decide, rfl⟩⟩

/-- One sample short of the span length; and a SHEDDING source with rule OLDEST and one span, HELD or
QUEUED. -/
theorem test_met_FullSpanIsSealed :
    (let s := capturing short (spanIn .filling (2 ^ 20 - 1)) (2 ^ 20 - 2);
      (s.intake .s0).intake.takes = true ∧ s.rc.runState = .running ∧
        s.st.filling .s0 = some (0, spanIn .filling (2 ^ 20 - 1)) ∧ s.spm.pressure.get .s0 = .calm ∧
        (spanIn .filling (2 ^ 20 - 1)).count + 1 = 2 ^ (s.settings .s0).spanExp ∧
        (spanIn .filling 1).seq ≠ BitVec.allOnes 32 ∧ (s.intake .s0).nextNumber ≠ 2 ^ 48 - 1 ∧
        TableOk s.st) ∧
    (let set : SourceSettings := { short with shedRule := .oldest };
      let s : State :=
        { capturing set (spanIn .held 1) 0 with
          spm := { base.spm with pressure := ⟨.shedding, .calm, .calm, .calm⟩ } };
      s.rc.runState = .running ∧ s.spm.pressure.get .s0 = .shedding ∧ (s.settings .s0).shedRule = .oldest ∧
        TableOk s.st ∧ s.st.oldestHeld .s0 = some (0, spanIn .held 1)) ∧
    (let t := (capturing short (spanIn .queued 1) 0).st;
      t.oldestHeld .s0 = none ∧ t.oldestPlain .s0 = some (0, spanIn .queued 1)) :=
  ⟨⟨by decide, rfl, by decide, by decide, by decide, by decide, by decide, ⟨by decide, rfl⟩⟩,
    ⟨rfl, rfl, rfl, ⟨by decide, rfl⟩, by decide⟩, by decide⟩

theorem spanLaw_capturing {sp : Span} {newest : Nat} (hs : sp.source = .s0) (hc : sp.count < 2 ^ 20)
    (set : SourceSettings) (he : set.spanExp = 20) : SpanLaw (capturing set sp newest) where
  spanExp src := by cases src <;> simp [capturing, State.settings, PerSource.get, IntakeSource.reset, he] <;> decide
  count p hp := by
    cases List.mem_singleton.1 hp
    exact Nat.le_trans (Nat.le_of_lt hc) (by decide)
  filling p hp _ := by
    cases List.mem_singleton.1 hp
    rw [show ((capturing set sp newest).settings sp.source).spanExp = 20 by
      rw [hs]; exact he]
    exact hc
  one p hp q hq _ _ _ := by cases List.mem_singleton.1 hp; cases List.mem_singleton.1 hq; rfl

/-- The last number of a source, with a short span; the span of the last sequence number, of a source of the run;
and the law of the spans. -/
theorem test_met_FullSpanIsSealed_last :
    let sp : Span := { spanIn .filling 1 with seq := BitVec.allOnes 32 }
    ((capturing short (spanIn .filling 1) (2 ^ 48 - 2)).intake .s0).nextNumber = 2 ^ 48 - 1 ∧
      ((capturing short (spanIn .filling 1) (2 ^ 48 - 2)).intake .s0).pendingGap = none ∧
      (capturing short sp (2 ^ 48 - 2)).st.filling .s0 = some (0, sp) ∧
      (capturing short sp (2 ^ 48 - 2)).rc.sourceSet.get .s0 = true ∧
      SpanLaw (capturing short sp (2 ^ 48 - 2)) ∧
      SpanLaw (capturing short (spanIn .filling (2 ^ 20 - 1)) (2 ^ 20 - 2)) :=
  ⟨by decide, rfl, by decide, rfl, spanLaw_capturing rfl (by decide) _ rfl,
    spanLaw_capturing rfl (by decide) _ rfl⟩

/-- A SHEDDING source with rule OLDEST, one sample short of the span length: its HISTORY span is its oldest HELD
one once sealed, and its PLAIN span its oldest QUEUED PLAIN one. -/
theorem test_met_FullSpanIsSealed_oldest :
    let set : SourceSettings := { short with shedRule := .oldest }
    let s : Span → State := fun sp =>
      { issuedOne (capturing set sp (2 ^ 20 - 2)) with
        spm := { base.spm with pressure := ⟨.shedding, .calm, .calm, .calm⟩ } }
    let full := spanIn .filling (2 ^ 20 - 1)
    (∀ sp : Span, ((s sp).intake .s0).intake.takes = true ∧ (s sp).rc.runState = .running ∧
      (s sp).se.get .s0 = some (startRunning 0 set 1) ∧ (s sp).spm.pressure.get .s0 = .shedding ∧
      ((s sp).settings .s0).shedRule = .oldest ∧ (s sp).rc.sourceSet.get .s0 = true) ∧
    (s full).st.filling .s0 = some (0, full) ∧ full.count + 1 = 2 ^ ((s full).settings .s0).spanExp ∧
    ((s full).intake .s0).nextNumber ≠ 2 ^ 48 - 1 ∧ RunLaw (s full) ∧ SpanLaw (s full) ∧
    (let t : SpanState → SpanTable := fun st => { (s full).st with slots := [(0, { full with state := st })] };
      (t .held).oldestHeld .s0 = some (0, { full with state := .held }) ∧ (t .queued).oldestHeld .s0 = none ∧
        (t .queued).oldestPlain .s0 = some (0, { full with state := .queued })) :=
  have h := spanLaw_capturing (sp := spanIn .filling (2 ^ 20 - 1)) (newest := 2 ^ 20 - 2) rfl (by decide)
    { short with shedRule := .oldest } rfl
  ⟨fun _ => ⟨rfl, rfl, rfl, rfl, rfl, rfl⟩, by decide, by decide, by decide,
    runLaw_one rfl rfl rfl (by decide) rfl rfl rfl ⟨rfl, rfl, rfl⟩ indexLaw_base rfl, ⟨h.spanExp, h.count, h.filling, h.one⟩, by decide⟩

theorem test_met_SampleOpensASpan :
    let s : State :=
      { capturing short (spanIn .filling 1) 0 with st := .empty }
    (s.intake .s0).intake = .taking ∧ s.st.filling .s0 = none ∧ s.st.lowestFree = some 0 ∧
      s.rc.nextSeq = .number 0 ∧ (s.intake .s0).pendingGap = none ∧ (s.intake .s0).tagPending = false ∧
      (s.twu.get .s0).markPending = false ∧ (s.settings .s0).mode ≠ .triggered ∧
      0 < (s.settings .s0).spanExp ∧ (s.intake .s0).nextNumber ≠ 2 ^ 48 - 1 ∧ TableOk s.st :=
  ⟨rfl, rfl, by decide, rfl, rfl, rfl, rfl, by decide, by decide, by decide, ⟨rfl, rfl⟩⟩

/-- A source whose next sample has the last number opens a span, in a table whose slot 0 is taken. -/
theorem test_met_SampleOpensASpan_last :
    let s := capturing short (spanIn .queued 1) (2 ^ 48 - 2)
    (s.intake .s0).nextNumber = 2 ^ 48 - 1 ∧ (s.intake .s0).intake = .taking ∧ s.st.filling .s0 = none ∧
      s.st.lowestFree = some 1 ∧ s.rc.nextSeq = .number 0 ∧ (0 : Word32) ≠ BitVec.allOnes 32 ∧
      (s.settings .s0).shedRule ≠ .oldest ∧ s.rc.runState = .running ∧ TableOk s.st :=
  ⟨by decide, rfl, by decide, by decide, rfl, by decide, by decide, rfl, ⟨by decide, rfl⟩⟩

/-- The same with the last sequence number to come, in the laws of a run. -/
theorem test_met_SampleOpensASpan_exhausts :
    let h := issuedOne (capturing short (spanIn .held 1) (2 ^ 48 - 2))
    let s : State := { h with rc := { h.rc with nextSeq := .number (BitVec.allOnes 32) } }
    (s.intake .s0).nextNumber = 2 ^ 48 - 1 ∧ (s.intake .s0).intake = .taking ∧ s.st.filling .s0 = none ∧
      s.st.lowestFree = some 1 ∧ s.rc.nextSeq = .number (BitVec.allOnes 32) ∧ s.rc.runState = .running ∧ RunLaw s :=
  ⟨by decide, rfl, by decide, by decide, rfl, rfl,
    runLaw_one rfl rfl rfl (by decide) rfl rfl rfl ⟨rfl, rfl, rfl⟩ indexLaw_base rfl⟩

/-- An open with a pending gap, while a buffer can take the gap's entry and while none can; and the admission
of an offered gap of a source that takes samples, and of a CLOSED one that holds another. -/
theorem test_met_SampleOpensASpan_gaps :
    let g : Gap := { first := 0, count := 1, causes := 8 }
    let i : IntakeSource := ⟨short, .taking, some 0, false, some g, none⟩
    let s : State := { inRun .running with ci := ⟨i, ⟨short, .closed, some 0, false, some g, some g⟩, .reset, .reset⟩ }
    s.st.filling .s0 = none ∧ s.st.lowestFree = some 0 ∧ s.rc.nextSeq = .number 0 ∧
      (s.intake .s0).pendingGap = some g ∧ (s.intake .s0).offeredGap = none ∧
      0 < (s.settings .s0).spanExp ∧ s.target = some .a ∧ (s.buffer .a).entries.length + 2 < 63 ∧
      (s.intake .s1).offeredGap = some g ∧ (s.intake .s1).intake = .closed ∧ s.rc.runState = .running ∧
      OfferLaw { s with ci := ⟨i, .reset, .reset, .reset⟩ } ∧ IndexRests s.iu ∧ stalled.target = none ∧
      OfferLaw stalled ∧ IndexRests stalled.iu :=
  ⟨by decide, by decide, rfl, rfl, rfl, by decide, by decide, by decide, rfl, rfl, rfl,
    fun _ => ⟨rfl, fun src => by cases src <;> rfl, rfl⟩, indexRests_base, by decide, fun h => absurd rfl h,
    indexRests_stalled⟩

/-- The table in which no slot is FREE, for an open that recycles and for one that ends OVERRUN. -/
theorem test_met_full_table :
    TableOk fullTable ∧ fullTable.lowestFree = none ∧ fullTable.filling .s0 = none ∧
      fullTable.oldestHeld .s0 = some (0, spanIn .held 1) ∧ fullTable.oldestHeld .s1 = none := by
  refine ⟨⟨by decide +kernel, by decide +kernel⟩, firstFree_none fun j _ hj => ?_, by decide +kernel,
    by decide +kernel, by decide +kernel⟩
  rcases Nat.eq_zero_or_pos j with rfl | h
  · rfl
  · have hj' : j < 0 + 4096 := hj
    refine findSlot_isSome_of_mem (p := (j, spanIn .queued 1)) (List.mem_cons_of_mem _ ?_)
    exact List.mem_map.2 ⟨j - 1, List.mem_range.2 (by omega), by rw [Nat.sub_add_cancel h]⟩

/-- A REFUSING source, and a TAKING one that holds both gaps. -/
theorem test_met_SampleIsDroppedIntoTheGap :
    let g : Gap := { first := 0, count := 1, causes := 8 }
    let s : State := { inRun .running with
      ci := ⟨⟨short, .refusing, none, false, none, none⟩, ⟨short, .taking, some 0, false, some g, some g⟩, .reset,
        .reset⟩ }
    s.st.filling .s0 = none ∧ (s.intake .s0).tagPending = false ∧ (s.twu.get .s0).markPending = false ∧
      (s.settings .s0).mode ≠ .triggered ∧ (s.intake .s0).nextNumber ≠ 2 ^ 48 - 1 ∧
      (s.intake .s0).intake = .refusing ∧ s.st.filling .s1 = none ∧ (s.intake .s1).intake = .taking ∧
      (s.intake .s1).pendingGap.isSome = true ∧ (s.intake .s1).offeredGap.isSome = true := by decide

/-- A TAKING source with the sequence numbers exhausted, its next number the last one, with a gap offered and
without one, while buffer A can take the gap and while no buffer can. -/
theorem test_met_SampleIsDroppedIntoTheGap_last :
    let g : Gap := { first := 0, count := 1, causes := 8 }
    let s : State → Option Gap → State := fun b offered =>
      { inRun .running with
        rc := { (inRun .running).rc with nextSeq := .exhausted }
        ci := ⟨⟨short, .taking, some (2 ^ 48 - 2), false, none, offered⟩, .reset, .reset, .reset⟩, iu := b.iu }
    (∀ b offered, (s b offered).st.filling .s0 = none ∧ ((s b offered).intake .s0).intake = .taking ∧
      (s b offered).rc.nextSeq = .exhausted ∧ ((s b offered).intake .s0).nextNumber = 2 ^ 48 - 1 ∧
      (s b offered).rc.runState = .running ∧ ((s b offered).intake .s0).offeredGap = offered) ∧
    some g ≠ none ∧ (s base none).target = some .a ∧ ((s base none).buffer .a).entries.length + 1 < 63 ∧
    IndexRests (s base none).iu ∧ (s stalled none).target = none :=
  ⟨fun _ _ => ⟨rfl, rfl, rfl, rfl, rfl, rfl⟩, by decide, by decide, by decide, indexRests_base, by decide⟩

theorem test_met_SampleWritesItsOwnBytes : MemOk base ∧ MemOk { base with mem := [⟨0, 1⟩] } := ⟨rfl, rfl⟩

/-- A tag on a CONTINUOUS source; a list of 7 marks and one of 8; a MARK on a TRIGGERED source. -/
theorem test_met_TriggerMarksStayInOrder :
    (let s := capturing short (spanIn .filling 1) 0;
      let u := s.onIntake .s0 fun i => { i with tagPending := true };
      (u.settings .s0).mode = .continuous ∧ (u.intake .s0).tagPending = true ∧
        u.span? 0 = some (spanIn .filling 1)) ∧
    marksInOrder (List.replicate 7 { offset := 3, shortfall := 0 }) = true ∧
    8 ≤ (List.replicate 8 ({ offset := 3, shortfall := 0 } : TriggerMark)).length ∧
    (let s := capturing { short with mode := .triggered } (spanIn .filling 1) 0;
      let u := s.onWindow .s0 fun w => { w with markPending := true };
      (u.settings .s0).mode = .triggered ∧ (u.twu.get .s0).markPending = true ∧
        u.span? 0 = some (spanIn .filling 1) ∧ (spanIn .filling 1).state = .filling ∧ TableOk u.st) :=
  ⟨by decide, by decide, by decide, rfl, rfl, rfl, rfl, ⟨by decide, rfl⟩⟩

/-- A sample at the window end of a KEEP span; a window that the sample does not reach; and a HELD span that a
packet's end leaves, and one that it recycles. -/
theorem test_met_TriggerMarksStayInOrder_windows :
    let set : SourceSettings := { short with mode := .triggered, preDepth := 4 }
    (let s : State :=
        { capturing set { spanIn .filling 1 with retention := .keep } 0 with
          twu := ⟨⟨some 1, false⟩, .reset, .reset, .reset⟩ };
      (s.intake .s0).intake.takes = true ∧ s.rc.runState = .running ∧ RunLaw (issuedOne s) ∧
        s.st.filling .s0 = some (0, { spanIn .filling 1 with retention := .keep }) ∧
        (s.settings .s0).mode = .triggered ∧ (s.twu.get .s0).window = some 1 ∧
        1 ≤ (s.intake .s0).nextNumber ∧ s.spm.pressure.get .s0 = .calm ∧
        (spanIn .filling 1).seq ≠ BitVec.allOnes 32 ∧ (s.intake .s0).nextNumber ≠ 2 ^ 48 - 1 ∧ TableOk s.st ∧
        (0 : Nat) < 1) ∧
    (∀ newest, 4 ≤ newest →
      let s := capturing set (spanIn .held 1) newest
      s.rc.runState = .running ∧ TableOk s.st ∧ (s.intake .s0).newest = some newest ∧
        (s.settings .s0).preDepth ≤ newest ∧ s.span? 0 = some (spanIn .held 1)) ∧
    (3 : Nat) < set.preDepth :=
  ⟨⟨by decide, rfl, runLaw_one rfl rfl rfl (by decide) rfl rfl rfl ⟨rfl, rfl, rfl⟩ indexLaw_base rfl, by decide, rfl, rfl,
      by decide, rfl, by decide, by decide, ⟨by decide, rfl⟩, by decide⟩,
    fun _ h => ⟨rfl, ⟨rfl, rfl⟩, rfl, h, rfl⟩, by decide⟩

/-- A window end met by the last number and by the span of the last sequence number; two spans of one source in
disjoint ranges. -/
theorem test_met_TriggerMarksStayInOrder_last :
    let sp : Span := { spanIn .filling 1 with seq := BitVec.allOnes 32 }
    let set : SourceSettings := { short with mode := .triggered }
    let s : State := { capturing set sp (2 ^ 48 - 2) with twu := ⟨⟨some 1, false⟩, .reset, .reset, .reset⟩ }
    SpanLaw (capturing set sp (2 ^ 48 - 2)) ∧ s.st.filling .s0 = some (0, sp) ∧
      (s.intake .s0).nextNumber = 2 ^ 48 - 1 ∧ (s.intake .s0).pendingGap = none ∧
      s.rc.sourceSet.get .s0 = true ∧
      (([(0, spanIn .held 1), (1, { spanIn .filling 1 with first := 1 })] : List (Nat × Span)).Pairwise
        fun p q => p.2.source = .s0 → q.2.source = .s0 →
          p.2.first + p.2.count ≤ q.2.first ∨ q.2.first + q.2.count ≤ p.2.first) :=
  ⟨spanLaw_capturing rfl (by decide) _ rfl, by decide, by decide, rfl, rfl, by decide⟩

/-- A MARK on the sample that a TRIGGERED source's span takes, with a post depth of 0, at which the window ends,
and of 1; and on one that a REFUSING source drops. -/
theorem test_met_TriggerMarksStayInOrder_placed :
    (∀ post : Fin 2,
      let set : SourceSettings := { short with mode := .triggered, postDepth := post.val }
      let s : State :=
        { issuedOne (capturing set (spanIn .filling 1) 0) with twu := ⟨⟨none, true⟩, .reset, .reset, .reset⟩ }
      let p := State.place
        { s with ci := s.ci.set .s0 { s.intake .s0 with newest := some (s.intake .s0).nextNumber } } .s0
        (s.intake .s0).nextNumber 7
      (s.intake .s0).intake.takes = true ∧ (p.1.twu.get .s0).markPending = true ∧ p.2 = some 0 ∧
        p.1.st.filling .s0 = some (0, { spanIn .filling 1 with count := 2 }) ∧ RunLaw s ∧ RunLaw p.1 ∧
        p.1.rc.runState = .running ∧ p.1.st.slots = [(0, { spanIn .filling 1 with count := 2 })] ∧
        (p.1.settings .s0).postDepth = post.val ∧ p.1.spm.pressure.get .s0 = .calm ∧
        p.1.rc.sourceSet.get .s0 = true) ∧
    (let s : State :=
      { capturing { short with mode := .triggered } (spanIn .held 1) 0 with
        ci := ⟨⟨{ short with mode := .triggered }, .refusing, some 0, true, none, none⟩, .reset, .reset, .reset⟩ };
      let p := State.place
        { s with ci := s.ci.set .s0 { s.intake .s0 with newest := some (s.intake .s0).nextNumber } } .s0
        (s.intake .s0).nextNumber 7;
      (s.intake .s0).intake.takes = true ∧ (p.1.intake .s0).tagPending = true ∧ p.2 = none ∧
        (s.intake .s0).nextNumber ≠ 2 ^ 48 - 1 ∧ TableOk p.1.st ∧ p.1.span? 0 = some (spanIn .held 1)) := by
  refine ⟨fun post => ?_, rfl, by decide, by decide, by decide, ⟨by decide, by decide⟩, by decide⟩
  fin_cases post <;>
    exact ⟨rfl, by decide, by decide, by decide,
      runLaw_one rfl rfl rfl (by decide) rfl rfl rfl ⟨rfl, rfl, rfl⟩ indexLaw_base rfl,
      runLaw_one rfl rfl rfl (by decide) rfl rfl rfl ⟨rfl, rfl, rfl⟩ indexLaw_base rfl, by decide, by decide, by decide, by decide, by decide⟩

/-- The one pair of sample and gain that reaches 2^30, and gains 65536, 0 and -1. -/
theorem test_met_ScaledTermRoundsDown :
    scaledTerm (BitVec.ofInt 16 (-32768)) (BitVec.ofInt 32 (-2 ^ 31)) = 2 ^ 30 ∧
      (65536 : BitVec 32).toInt = 65536 ∧ (0 : BitVec 32).toInt = 0 ∧ (0xFFFFFFFF : BitVec 32).toInt < 0 ∧
      (0 : Int) < (1 : Sample).toInt ∧ (0xFFFF : Sample).toInt < 0 ∧
      (startRunning 0 { short with gain := 0 } 1).scaledSum = 0 ∧
      (startRunning 0 { short with gain := 0 } 1).energy = 0 := by decide

/-- A bucket of 2 samples that is closed by its second, and an energy that saturates. -/
theorem test_ScaledTermRoundsDown_summary :
    let r := startRunning 0 { short with bucketExp := 1 } 3
    (r.take 5).envelope = [⟨3, 5⟩] ∧ (r.take 5).openBucket = none ∧ (r.take 5).rawSum = 8 ∧
      (r.take 5).energy = 34 ∧ (r.finish).envelope = [⟨3, 3⟩] ∧
      ({ r with energy := 2 ^ 64 - 9 } : Running).take 3 =
        { r with
          count := 2, rawSum := 6, scaledSum := 6, energy := 2 ^ 64 - 1, saturated := true,
          envelope := [⟨3, 3⟩], openBucket := none } := by decide

/-- S0 enabled and CALM, S1 enabled and SHEDDING, S2 not enabled. -/
theorem test_met_OccupancyChangeMovesThePressure :
    let s : State :=
      { base with
        ci := ⟨{ IntakeSource.reset with settings := short }, { IntakeSource.reset with settings := short },
          .reset, .reset⟩
        spm := { base.spm with pressure := ⟨.calm, .shedding, .calm, .calm⟩ } }
    s.nu.isPending .spoolLevel = false ∧ (s.settings .s0).enabled = true ∧ s.spm.pressure.get .s0 = .calm ∧
      s.spm.pressure.get .s1 = .shedding ∧ (s.settings .s2).enabled = false := by decide

/-- Boundaries at their ends with no source enabled, and equal ones with S0 enabled. -/
theorem test_met_SetSpoolReplacesTheBoundaries :
    let p : List Byte := [0, 0, 0, 0, 0, 0x10, 0, 0x10, 0xFF, 7]
    let o : SpoolOperands := { boundary := ⟨0, 0, 4096, 4096⟩, notify := ⟨true, true, true, true⟩, limit := 7 }
    let u : State :=
      { base with
        ci := ⟨{ IntakeSource.reset with settings := { short with resumeBoundary := 3, shedBoundary := 2 } }, .reset,
          .reset, .reset⟩ }
    Receives (got base (frame 0x28 p)) 0x28 (frame 0x28 p) [] ∧ p.length = 10 ∧ decodeSpool p = some o ∧
      (∀ src, (base.settings src).enabled = false) ∧ (u.settings .s0).enabled = true ∧
      o.boundary.get (u.settings .s0).shedBoundary ≤ o.boundary.get (u.settings .s0).resumeBoundary :=
  ⟨received _, rfl, by decide, fun src => by cases src <;> rfl, rfl, by decide⟩

/-- A boundary of 4097, attempt limits 0 and 8, and boundaries that fall by one. -/
theorem test_met_SetSpoolReplacesTheBoundaries_badValue :
    4096 < field ([0, 0, 0, 0, 0, 0, 1, 0x10, 0, 1] : List Byte) (2 * 3) 2 ∧
      byteAt ([0, 0, 0, 0, 0, 0, 0, 0, 0, 0] : List Byte) 9 = 0 ∧
      7 < byteAt ([0, 0, 0, 0, 0, 0, 0, 0, 0, 8] : List Byte) 9 ∧
      field ([1, 0, 0, 0, 0, 0, 0, 0, 0, 1] : List Byte) (2 * (0 + 1)) 2 <
        field ([1, 0, 0, 0, 0, 0, 0, 0, 0, 1] : List Byte) (2 * 0) 2 := by decide

/-- S0 enabled with boundaries that fit, and with the same boundary for both. -/
theorem test_met_SetSourceReplacesTheSettings :
    let bytes : SourceSettings → List Byte := fun set => leBytes 1 0 ++ set.bytes
    let same : SourceSettings := { short with resumeBoundary := 2 }
    Receives (got base (frame 0x20 (bytes short))) 0x20 (frame 0x20 (bytes short)) [] ∧
      (bytes short).length = 24 ∧ base.rc.runState = .idle ∧ decodeSource (bytes short) = some (.s0, short) ∧
      base.spm.boundary.get short.resumeBoundary < base.spm.boundary.get short.shedBoundary ∧
      decodeSource (bytes same) = some (.s0, same) ∧
      base.spm.boundary.get same.shedBoundary ≤ base.spm.boundary.get same.resumeBoundary :=
  ⟨received _, by decide +kernel, rfl, by decide +kernel, by decide, by decide +kernel, by decide⟩

/-- A source number, an exponent below its range, and depths out of range. -/
theorem test_met_SetSourceReplacesTheSettings_badValue :
    let p : Nat → Nat → Nat → Nat → List Byte := fun src exp pre post =>
      leBytes 1 src ++ [0, 0] ++ leBytes 1 exp ++ leBytes 4 pre ++ leBytes 4 post ++ leBytes 12 0
    (p 0 20 0 1).length = 24 ∧ 3 < byteAt (p 4 20 0 1) 0 ∧ byteAt (p 0 19 0 1) 3 < 20 ∧
      2 ^ 31 < field (p 0 20 (2 ^ 31 + 1) 1) 4 4 ∧ field (p 0 20 0 0) 8 4 = 0 ∧
      2 ^ 31 < field (p 0 20 0 (2 ^ 31 + 1)) 8 4 := by decide +kernel

/-- A state with no flag pending takes SET NOTICES. -/
theorem test_met_NoticesAreSetAndCleared_no_flag :
    let s : State := { base with nu := { base.nu with flags := 0 } }
    let p : List Byte := List.replicate 17 3 ++ [15]
    Receives (got s (frame 0x60 p)) 0x60 (frame 0x60 p) [] ∧ p.length = 18 ∧
      (decodeNotices p).isSome = true ∧ (got s (frame 0x60 p)).nu.flags = 0 :=
  ⟨received _, rfl, by decide +kernel, rfl⟩

/-- Every class 3 with every class enabled; a class byte 4; the flag set of all flags, and one bit more. -/
theorem test_met_NoticesAreSetAndCleared :
    let p : List Byte := List.replicate 17 3 ++ [15]
    let q : List Byte := 4 :: List.replicate 17 0
    Receives (got base (frame 0x60 p)) 0x60 (frame 0x60 p) [] ∧ p.length = 18 ∧
      (decodeNotices p).isSome = true ∧ q.length = 18 ∧ 3 < byteAt q Flag.resetDone.idx.val ∧
      Receives (got base (frame 0x62 [0xFF, 0xFF, 1])) 0x62 (frame 0x62 [0xFF, 0xFF, 1]) [] ∧
      ([0xFF, 0xFF, 1] : List Byte) = leBytes 3 (BitVec.allOnes 17).toNat ∧
      2 ^ 17 ≤ field ([0, 0, 2] : List Byte) 0 3 :=
  ⟨received _, rfl, by decide +kernel, rfl, by decide, received _, by decide, by decide⟩

/-- A class newly enabled that holds RESET_DONE, with room for its notice and without. -/
theorem test_met_NoticesAreSetAndCleared_due :
    let s : State := { base with nu := { base.nu with enable := ⟨false, false, false, false⟩ } }
    let p : List Byte := List.replicate 17 3 ++ [8]
    ∃ o, decodeNotices p = some o ∧
      ([0, 1, 2, 3].filter fun c => o.enable.get c && Flag.all.any fun g =>
        (s.nu.isPending g && decide (o.classOf.get g.idx = c)) &&
          (!s.nu.enable.get c || decide (s.nu.cls g ≠ c))) = [3] ∧
      0 < 14 - s.clp.out.length ∧ 14 - (List.replicate 15 (outFrame false)).length = 0 :=
  ⟨_, rfl, by decide +kernel, by decide, by decide⟩

/-- The least period with the greatest lock, a lock equal to it; and buffers in the three arrangements. -/
theorem test_met_CheckpointCommands :
    (Receives (got base (frame 0x50 [10, 0, 9, 0])) 0x50 (frame 0x50 [10, 0, 9, 0]) [] ∧
      field [10, 0, 9, 0] 0 2 = 10 ∧ field [10, 0, 9, 0] 2 2 = 9 ∧ field [10, 0, 10, 0] 2 2 = 10) ∧
    (Receives (got (inRun .stopping) (frame 0x51 [])) 0x51 (frame 0x51 []) [] ∧
      ((inRun .stopping).buffer .a).state ≠ .filling ∧ ((inRun .stopping).buffer .b).state ≠ .filling) ∧
    (let e : IndexBuffer := .empty;
      let v : PerBuffer := ⟨{ e with state := .filling }, .empty⟩;
      let w : PerBuffer := ⟨{ e with state := .filling }, { e with state := .writing }⟩;
      (v.get .a).state = .filling ∧ (v.get .b).state = .empty ∧ base.iu.writing = none ∧
        (quietIn .ready).state.duty = .owed ∧ (w.get .a).state = .filling ∧ (w.get .b).state = .writing ∧
        ({ buffer := .b, seq := 0, duty := ⟨.owed, .off⟩ } : Writing).duty.l0 = .owed) :=
  ⟨⟨received _, by decide, by decide, by decide⟩, ⟨received _, by decide, by decide⟩, by decide⟩

theorem test_met_CheckpointLockAndExpiry :
    (let u : IndexUnit := { base.iu with timer := some 0 };
      u.timer.isSome = true ∧ u.lockTime ≠ 0 ∧ (u.buffers.get .a).state = .empty ∧
        (u.buffers.get .b).state = .empty) ∧ base.iu.timer = none ∧
      (∃ n, ((⟨.empty, { IndexBuffer.empty with state := .closed }⟩ : PerBuffer).get n).state = .closed) ∧
      (BufferName.a ≠ .b ∧ (quietIn .busy).state.duty = .owed) :=
  ⟨by decide, rfl, ⟨.b, rfl⟩, by decide⟩

/-- A FILLING buffer beside an EMPTY one, with both lanes off duty and nothing waiting. -/
theorem test_met_Checkpoint_off_duty :
    let s : State := { base with iu := { base.iu with buffers := ⟨bufferIn .filling 1, .empty⟩, timer := some 0 } }
    (s.buffer .a).state = .filling ∧ (s.buffer .b).state = .empty ∧ s.iu.writing = none ∧
      (s.lane .l0).state.duty = .off ∧ (s.lane .l1).state.duty = .off ∧ (s.buffer .a).final = false ∧
      s.iu.waitSpans = [] ∧ (∀ src, (s.intake src).offeredGap = none) ∧ s.iu.waitRunEnd = none ∧
      s.iu.timer.isSome = true :=
  ⟨rfl, rfl, rfl, rfl, rfl, rfl, rfl, fun src => by cases src <;> rfl, rfl, rfl⟩

/-- A lane in DOWN and one in FAULTED, with the default settings. -/
theorem test_met_SetLaneEntersBringup :
    let o : LaneOperands := { settings := .default, dataCursor := 0, indexCursor := 2 ^ 20 - 1 }
    Receives (got base (frame 0x40 (o.bytes .l1))) 0x40 (frame 0x40 (o.bytes .l1)) [] ∧
      (o.bytes .l1).length = 28 ∧ laneOf (o.bytes .l1) = some .l1 ∧ decodeLane (o.bytes .l1) = some o ∧
      (base.lane .l1).state = .down ∧ ((withLane (quietIn .faulted)).lane .l0).state = .faulted :=
  ⟨received _, by decide +kernel, by decide +kernel, by decide +kernel, rfl, rfl⟩

/-- A lane number of 2, fields just out of range, and a window that passes 2^40. -/
theorem test_met_SetLaneEntersBringup_badValue :
    let p : Nat → Nat → Nat → Nat → List Byte := fun lane base k dataCursor =>
      leBytes 1 lane ++ leBytes 5 base ++ leBytes 1 k ++ leBytes 5 dataCursor ++ leBytes 16 0
    (p 0 0 20 0).length = 28 ∧ 1 < byteAt (p 2 0 20 0) 0 ∧ laneOf (p 1 0 20 0) = some .l1 ∧
      byteAt (p 0 0 19 0) 6 < 20 ∧ 34 < byteAt (p 0 0 35 0) 6 ∧ 2 ^ 20 < field (p 0 0 20 (2 ^ 20 + 1)) 7 5 ∧
      field (p 0 0 20 2) 12 5 + 1 < field (p 0 0 20 2) 7 5 ∧ byteAt (p 0 0 20 0) 23 = 0 ∧
      field (p 0 0 20 0) 25 2 < 100 ∧
      2 ^ 40 < field (p 0 (2 ^ 40 - 2 ^ 20 + 5) 21 0) 1 5 / 2 ^ 21 * 2 ^ 21 + 2 ^ 21 + 1 := by decide +kernel

/-- A BUSY lane with a span write outstanding, and a lane in DOWN. -/
theorem test_met_LaneResetAndOfflineEndTheJob :
    let s := writing .data
    (frame 0x41 [0]).payload = [BitVec.ofNat 8 Lane.l0.num] ∧
      Receives (got s (frame 0x41 [0])) 0x41 (frame 0x41 [0]) [] ∧ (s.lane .l0).state ≠ .down ∧
      Receives (got s (frame 0x42 [0])) 0x42 (frame 0x42 [0]) [] ∧ (s.lane .l1).state = .down :=
  ⟨rfl, received _, by decide, received _, rfl⟩

/-- A single write whose span the table holds, before the stop deadline and after; and an index job of a block
that the other lane owes too. -/
theorem test_met_LaneResetAndOfflineEndTheJob_span :
    (let s := writing .data;
      s.ds.pair = none ∧ (s.lane .l0).job = some (.span (job .data)) ∧
        s.requested 0 5 0 .draining = some (spanIn .draining 1) ∧ s.owes .l0 = false ∧ s.rc.expired = false) ∧
    ({ base.rc with expired := true } : RunController).expired = true ∧
    (let w : Writing := { buffer := .a, seq := 0, duty := ⟨.owed, .owed⟩ };
      (∃ j, (indexing.lane .l0).job = some (.index j)) ∧ w.duty.get .l0 = .owed ∧
        w.duty.get Lane.l0.other = .owed) ∧ TableOk (writing .data).st :=
  ⟨⟨rfl, rfl, by decide, by decide, rfl⟩, rfl, ⟨⟨_, rfl⟩, rfl, rfl⟩, by decide, rfl⟩

/-- An index job of a block that the other lane does not owe, whatever its duty, the other buffer EMPTY, or CLOSED
with the other lane on duty. -/
theorem test_met_LaneResetAndOfflineEndTheJob_block :
    (∀ d : Duty, d ≠ .owed →
      let w : Writing := { buffer := .a, seq := 0, duty := ⟨.owed, d⟩ }
      let s : State := { indexing with iu := { base.iu with buffers := ⟨bufferIn .writing 1, .empty⟩, writing := some w } }
      s.ds.pair = none ∧ (∃ j, (s.lane .l0).job = some (.index j)) ∧ s.iu.writing = some w ∧
        w.duty.get .l0 = .owed ∧ w.duty.get Lane.l0.other ≠ .owed ∧
        (∀ src, (s.intake src).offeredGap = none) ∧ s.iu.waitRunEnd = none ∧ s.iu.waitSpans = [] ∧
        (s.buffer w.buffer.other).state ≠ .closed ∧ (s.buffer w.buffer).final = false) ∧
    (stalled.buffer BufferName.a.other).state = .closed ∧ (indexing.lane .l0).state = .busy ∧
    (({ indexing with al := ⟨indexing.al.l0, quietIn .ready⟩ } : State).lane Lane.l0.other).state.duty = .owed :=
  ⟨fun _ h => ⟨rfl, ⟨_, rfl⟩, rfl, rfl, h, fun src => by cases src <;> rfl, rfl, rfl,
      show BufferState.empty ≠ .closed by decide, rfl⟩, rfl, rfl, rfl⟩

/-- A write in an ACTIVE pair, the lane's outcome and the other's any; and, beside a FORMING pair that L1 leads over
another slot, a follower's own single write or index job. -/
theorem test_met_LaneResetAndOfflineEndTheJob_pair :
    (∀ x y : PairOutcome,
      let c : PairContext :=
        { slot := 0, runId := 5, seq := 0, leader := .l1, mode := .wait, phase := .active, outcome := ⟨x, y⟩ }
      let s : State := { writing .data with ds := { base.ds with pair := some c } }
      Receives (got s (frame 0x41 [0])) 0x41 (frame 0x41 [0]) [] ∧ (s.lane .l0).state ≠ .down ∧
        (s.lane .l0).job = some (.span (job .data)) ∧ s.ds.pair = some c ∧ c.phase = .active ∧
        (job .data).slot = c.slot ∧ (job .data).runId = c.runId ∧ (job .data).seq = c.seq ∧
        s.requested 0 5 0 .draining = some (spanIn .draining 1) ∧ s.owes .l0 = false ∧
        c.outcome.get .l0 = x ∧ c.outcome.get Lane.l0.other = y) ∧
    (let c : PairContext :=
        { slot := 1, runId := 5, seq := 1, leader := .l1, mode := .wait, phase := .forming,
          outcome := ⟨.pending, .pending⟩ };
      c.follower = .l0 ∧ c.slot ≠ (job .data).slot ∧ ((writing .data).lane Lane.l0.other).action ≠ .pause ∧
        (indexing.lane Lane.l0.other).action ≠ .pause ∧ indexing.rc.expired = false) :=
  ⟨fun _ _ => ⟨received _ (fun c => by fin_cases c <;> rfl),
      show ((writing .data).lane .l0).state ≠ .down by decide, rfl, rfl, rfl, rfl, rfl, rfl,
      show (writing .data).requested 0 5 0 .draining = some (spanIn .draining 1) by decide, rfl, rfl, rfl⟩,
    by decide⟩

theorem test_met_LanePauseAndResume :
    (Receives (got (withLane (quietIn .ready)) (frame 0x43 [0])) 0x43 (frame 0x43 [0]) [] ∧
      ((withLane (quietIn .ready)).lane .l0).state = .ready) ∧
    ((writing .data).lane .l0).state = .busy ∧
    (Receives (got (withLane (quietIn .paused)) (frame 0x44 [0])) 0x44 (frame 0x44 [0]) [] ∧
      ((withLane (quietIn .paused)).lane .l0).state = .paused ∧ (withLane (quietIn .paused)).ds.pair = none) ∧
    (let c : PairContext :=
        { slot := 0, runId := 5, seq := 0, leader := .l0, mode := .wait, phase := .active,
          outcome := ⟨.pending, .pending⟩ };
      let s : State := { withLane (quietIn .paused) with ds := { base.ds with pair := some c } };
      Receives (got s (frame 0x44 [0])) 0x44 (frame 0x44 [0]) [] ∧ (s.lane .l0).state = .paused ∧
        s.ds.pair = some c ∧ c.phase = .active) :=
  ⟨⟨received _, rfl⟩, rfl, ⟨received _, rfl, rfl⟩, received _, rfl, rfl, rfl⟩

theorem test_met_LaneParkAndWake :
    ∀ st, Receives (got (withLane (quietIn st)) (frame 0x45 [0])) 0x45 (frame 0x45 [0]) [] ∧
      Receives (got (withLane (quietIn st)) (frame 0x46 [0])) 0x46 (frame 0x46 [0]) [] ∧
      ((withLane (quietIn st)).lane .l0).state = st := fun _ =>
  ⟨received _ (fun c => by fin_cases c <;> rfl), received _ (fun c => by fin_cases c <;> rfl), rfl⟩

/-- A window that ends at the capacity, and one that passes it by a block. -/
theorem test_met_HelloReplyEndsBringup :
    let s := withLane (laneIn .bringup)
    (s.lane .l0).state = .bringup ∧ (s.lane .l0).timer.isSome = true ∧ (s.lane .l0).burstTag = 9 ∧
      s.ds.pair = none ∧
      (s.lane .l0).settings.base + 2 ^ (s.lane .l0).settings.sizeExp ≤ (0x100000 : BitVec 40).toNat ∧
      (0xFFFFF : BitVec 40).toNat < (s.lane .l0).settings.base + 2 ^ (s.lane .l0).settings.sizeExp := by
  decide

theorem test_met_ExpiredExchangeFaultsTheLane :
    ∀ st, ((withLane (laneIn st)).lane .l0).state = st ∧
      ((withLane (laneIn st)).lane .l0).timer.isSome = true ∧ (withLane (laneIn st)).ds.pair = none :=
  fun _ => ⟨rfl, rfl, rfl⟩

/-- A READY lane with a claim and the least park delay; a PARKING and a WAKING lane. -/
theorem test_met_ParkDelayParkedReplyAndAwake :
    (let a : LaneUnit := { quietIn .ready with settings := { LaneSettings.default with parkDelay := 1 } };
      let s : State := { withLane a with ds := { base.ds with claim := ⟨some { kind := .full, since := 0 }, none⟩ } };
      (s.lane .l0).state = .ready ∧ (s.lane .l0).settings.parkDelay ≠ 0 ∧
        (s.ds.claim.get .l0).isSome = true) ∧
    (let s := withLane (laneIn .parking);
      (s.lane .l0).timer.isSome = true ∧ (s.lane .l0).burstTag = 9 ∧ (s.lane .l0).state = .parking ∧
        (s.lane .l0).wakePending = false ∧ s.ds.pair = none) ∧
    ({ laneIn .parking with wakePending := true } : LaneUnit).wakePending = true ∧
    ((withLane (laneIn .waking)).lane .l0).state = .waking := by decide

theorem test_met_AttentionWakesAParkedLane :
    (base.lane .l0).effWake = false ∧
      (let s := withLane { quietIn .parked with effWake := true };
        (s.lane .l0).effWake = true ∧ (s.lane .l0).state = .parked) ∧
      ((withLane (quietIn .parking)).lane .l0).state = .parking := by decide

/-- An ACK in a lane that is not BUSY, one with nothing outstanding, and one with another tag; and bytes that
are no module's frame. -/
theorem test_met_StaleAndDamagedRepliesAreDiscarded :
    (base.lane .l0).state ≠ .busy ∧ ((withLane (quietIn .busy)).lane .l0).timer = none ∧
      ((writing .data).lane .l0).burstTag ≠ 8 ∧
      (let p := linkFrame 0x88 1 [];
        p.length = 10 + field p 4 4 ∧ 0x87 < byteAt p 1) := by decide +kernel

/-- The longest span, 2^23 samples, in a window with just the room for it. -/
theorem test_met_ReservationStaysInTheWindow :
    let a : LaneUnit := { quietIn .ready with dataCursor := 2 ^ 20 - 8193 }
    let s : State :=
      { withLane a with
        st := { slots := [(0, spanIn .draining (2 ^ 23))], queues := ⟨[], [], [], []⟩, occupancy := 1 } }
    s.span? 0 = some (spanIn .draining (2 ^ 23)) ∧ (spanIn .draining (2 ^ 23)).count ≤ 2 ^ 23 ∧
      (s.lane .l0).isDataFull = false := by decide

/-- The state after reset has the law of the archive windows, and a step from it goes on. -/
theorem test_met_ReservationStaysInTheWindow_step :
    RunLaw State.reset ∧ WindowLaw State.reset ∧ step State.reset = .next State.reset.tick :=
  ⟨runLaw_reset, windowLaw_reset, rfl⟩

/-- A data burst outstanding; the retries at 0 and the limit at 3. -/
theorem test_met_AckAndRetrySendABurst :
    let s := writing .data
    (s.lane .l0).state = .busy ∧ (s.lane .l0).timer.isSome = true ∧ (s.lane .l0).burstTag = 9 ∧
      (s.lane .l0).job = some (.span (job .data)) ∧ (job .data).phase = .data ∧
      (job .data).retries < (s.lane .l0).settings.retryLimit ∧ (indexing.lane .l0).state = .busy ∧
      (∃ j, (indexing.lane .l0).job = some (.index j) ∧ j.retries < (indexing.lane .l0).settings.retryLimit) :=
  ⟨rfl, rfl, rfl, rfl, rfl, by decide, rfl, _, rfl, by decide⟩

/-- A job that carries its record, in each phase, in a page of the spool; a record with a summary. -/
theorem test_met_AckAndRetrySendABurst_bytes :
    (job .data).record = some (spanIn .draining 1) ∧ (job .data).phase = .data ∧ (job .header).phase = .header ∧
      (job .data).slot < 4096 ∧ (spanIn .draining 1).count ≤ 2 ^ 23 ∧
      ({ spanIn .draining 1 with summary := some (startRunning 0 short 1).finish } : Span).summary =
        some (startRunning 0 short 1).finish := by decide

theorem test_met_AckEndsTheJob :
    Writes (writing .header) .l0 9 (.span (job .header)) ∧ (job .header).phase = .header ∧
      (writing .header).ds.pair = none ∧ (∃ j, Writes indexing .l0 9 (.index j)) ∧ indexing.ds.pair = none ∧
      (∀ action, ({ laneIn .busy with action := action } : LaneUnit).action = action) :=
  ⟨⟨rfl, rfl, rfl, rfl⟩, rfl, rfl, ⟨_, rfl, rfl, rfl, rfl⟩, rfl, fun _ => rfl⟩

/-- A block of L0 alone, final or not; and one behind which buffer B waits CLOSED and a span entry waits. -/
theorem test_met_AckEndsTheJob_block :
    let w : Writing := { buffer := .a, seq := 0, duty := ⟨.owed, .off⟩ }
    let s : State :=
      { indexing with
        rc := (inRun .running).rc
        iu := { stalled.iu with waitSpans := [(0, (spanIn .committed 1).entry)] } }
    w.duty.get .l0 = .owed ∧ w.duty.get Lane.l0.other ≠ .owed ∧
      ({ w with duty := ⟨.owed, .owed⟩ } : Writing).duty.get Lane.l0.other = .owed ∧
      (∀ src, (s.intake src).offeredGap = none) ∧ s.iu.waitRunEnd = none ∧
      s.iu.writing = some w ∧ (s.buffer w.buffer.other).state = .closed ∧ (s.buffer w.buffer).final = false ∧
      s.iu.waitSpans.length < 63 ∧ s.rc.runState = .running ∧ TableOk s.st ∧
      (base.buffer w.buffer.other).state ≠ .closed ∧ base.iu.waitSpans = [] ∧
      ({ bufferIn .writing 1 with final := true } : IndexBuffer).final = true :=
  ⟨rfl, by decide, rfl, fun src => by cases src <;> rfl, rfl, rfl, rfl, rfl, by decide, rfl, ⟨rfl, rfl⟩,
    by decide, rfl, rfl⟩

/-- A single write whose span the table holds: of a rule other than MIRROR, a repair span, or a DEGRADE span that
holds no copy; while buffer A can take its entry, and while none can. -/
theorem test_met_AckEndsTheJob_single :
    let s := writing .header
    let m : Span := { spanIn .draining 1 with laneRule := .mirror, mirrorPolicy := some .degrade }
    s.requested 0 5 0 .draining = some (spanIn .draining 1) ∧ s.owes .l0 = false ∧ TableOk s.st ∧
      (spanIn .draining 1).laneRule ≠ .mirror ∧ s.target = some .a ∧
      ({ s with iu := { stalled.iu with writing := none } } : State).target = none ∧
      (m.laneRule = .mirror ∧ m.copies = [] ∧ m.mirrorPolicy = some .degrade) ∧
      ({ m with copies := [⟨.l1, 0⟩], repairLane := some .l0 } : Span).copies.length = 1 :=
  ⟨by decide, by decide, ⟨by decide, rfl⟩, by decide, by decide, by decide, by decide, rfl⟩

/-- L0 writes its copy of the span of slot 0 in an ACTIVE pair, the other lane's outcome PENDING or known. -/
theorem test_met_write_in_a_pair :
    ∀ x y : PairOutcome,
      let c : PairContext :=
        { slot := 0, runId := 5, seq := 0, leader := .l1, mode := .wait, phase := .active, outcome := ⟨x, y⟩ }
      let s : State := { writing .header with ds := { base.ds with pair := some c } }
      Writes s .l0 9 (.span (job .header)) ∧ (job .header).phase = .header ∧ s.ds.pair = some c ∧
        c.phase = .active ∧ (job .header).slot = c.slot ∧ (job .header).runId = c.runId ∧
        (job .header).seq = c.seq ∧ s.requested 0 5 0 .draining = some (spanIn .draining 1) ∧
        s.ds.claim.get .l0 = none ∧ s.owes .l0 = false ∧ c.outcome.get .l0 = x ∧
        c.outcome.get Lane.l0.other = y :=
  fun _ _ =>
    ⟨⟨rfl, rfl, rfl, rfl⟩, rfl, rfl, rfl, rfl, rfl, rfl,
      show (writing .header).requested 0 5 0 .draining = some (spanIn .draining 1) by decide, rfl, rfl, rfl, rfl⟩

/-- A context FORMING over the span of slot 0, led by L0. -/
def forming : PairContext :=
  { slot := 0, runId := 5, seq := 0, leader := .l0, mode := .wait, phase := .forming,
    outcome := ⟨.pending, .pending⟩ }

/-- L0 leads a FORMING pair whose follower is in a state. -/
def pairing (a : LaneUnit) : State :=
  { writing .data with
    al := ⟨{ quietIn .busy with job := some (.span (waitingJob 0 5 0)) }, a⟩
    ds := { base.ds with pair := some forming } }

/-- The follower in each state that the formation distinguishes, a single write of its own among them; a
follower in WAKING, the policy of the span either one; and the leader's LANE RESET. -/
theorem test_met_FollowerJoinsThePair_forms :
    (let s : State := { writing .data with st := { oneQueued with slots := [(0, spanIn .queued 1), (1, spanIn .draining 1)] } };
      s.span? 0 = some (spanIn .queued 1) ∧ (s.lane .l0).state = .busy ∧
        (s.lane .l0).job = some (.span (job .data)) ∧ (s.lane .l0).action = .none ∧
        (s.lane .l0).dataFull = false ∧ ({ job .data with slot := 1 } : SpanJob).slot ≠ 0 ∧
        s.requested 1 5 0 .draining = some (spanIn .draining 1) ∧ s.rc.expired = false) ∧
    (∀ st, (({ writing .data with al := ⟨quietIn st, .reset⟩ } : State).lane Lane.l1.other).state = st) ∧
    (let s := pairing (laneIn .waking);
      s.ds.pair = some forming ∧ forming.phase = .forming ∧ s.span? forming.slot = some (spanIn .draining 1) ∧
        (s.lane forming.follower).state = .waking ∧ (s.lane forming.follower).timer.isSome = true ∧
        s.owes forming.follower = false ∧ (s.lane forming.leader).action = .none ∧
        ({ s with
            al := ⟨{ s.al.l0 with action := .pause }, s.al.l1⟩
            iu := { s.iu with writing := some { buffer := .a, seq := 0, duty := ⟨.owed, .off⟩ } } } : State).owes
          forming.leader = true) ∧
    (let s := pairing (quietIn .parked);
      Receives (got s (frame 0x41 [0])) 0x41 (frame 0x41 [0]) [] ∧ (s.lane forming.leader).state = .busy ∧
        (s.lane forming.leader).job = some (.span (waitingJob 0 5 0)) ∧ s.owes forming.leader = false ∧
        (s.lane forming.follower).state = .parked ∧ s.ds.claim.get forming.follower = none) :=
  ⟨by decide, fun _ => rfl, by decide, received _, rfl, rfl, by decide, rfl, rfl⟩

/-- A follower in WAKING, under each policy, with each action pending on the leader, before the stop deadline and
after. -/
theorem test_met_FollowerJoinsThePair_lost :
    ∀ (policy : MirrorPolicy) (action : PendingAction) (expired : Bool),
      let sp : Span := { spanIn .draining 1 with laneRule := .mirror, mirrorPolicy := some policy }
      let p := pairing (laneIn .waking)
      let s : State :=
        { p with
          st := { slots := [(0, sp)], queues := ⟨[], [], [], []⟩, occupancy := 1 }
          al := ⟨{ p.al.l0 with action := action }, p.al.l1⟩
          rc := { p.rc with expired := expired } }
      s.ds.pair = some forming ∧ forming.phase = .forming ∧ s.span? forming.slot = some sp ∧
        (s.lane forming.follower).state = .waking ∧ (s.lane forming.follower).timer.isSome = true ∧
        s.owes forming.follower = false ∧ (s.lane forming.leader).action = action ∧ s.rc.expired = expired ∧
        sp.mirrorPolicy = some policy :=
  fun _ _ _ => ⟨rfl, rfl, rfl, rfl, rfl, rfl, rfl, rfl, rfl⟩

/-- At a conversion with PAUSE pending the leader is PAUSED without a job, or goes on BUSY with PAUSE pending. -/
theorem test_conversion_withPause :
    let p := pairing (laneIn .waking)
    let s : State := { p with al := ⟨{ p.al.l0 with action := .pause }, p.al.l1⟩ }
    let a := (s.convert forming).lane .l0
    if Config.conversionEndsJob s.choices then a.state = .paused ∧ a.job = none ∧ a.action = .none
    else a.state = .busy ∧ a.action = .pause := by
  intro p s a
  have h : s.convert forming = if Config.conversionEndsJob s.choices
      then (s.setChoices (s.choices + 1)).endUnstarted forming
      else (s.setChoices (s.choices + 1)).startSingly forming := rfl
  show if _ then ((s.convert forming).lane .l0).state = _ ∧ ((s.convert forming).lane .l0).job = _ ∧
    ((s.convert forming).lane .l0).action = _ else ((s.convert forming).lane .l0).state = _ ∧
    ((s.convert forming).lane .l0).action = _
  rw [h]
  split <;> decide

/-- A mirrored span under each policy with no copy, one and two; attempts below the limit and at it. -/
theorem test_met_FollowerJoinsThePair_closes :
    (∀ (policy : MirrorPolicy) (copies : List Copy),
      let sp : Span := { spanIn .draining 1 with laneRule := .mirror, mirrorPolicy := some policy, copies := copies }
      let s : State := { writing .data with st := { oneQueued with slots := [(0, sp)] } }
      s.span? 0 = some sp ∧ sp.laneRule = .mirror ∧ sp.mirrorPolicy = some policy ∧ s.rc.expired = false ∧
        TableOk { s.st with queues := ⟨[], [], [], []⟩ }) ∧
    ([⟨.l0, 0⟩, ⟨.l1, 0⟩] : List Copy).length = 2 ∧ ([⟨.l0, 0⟩] : List Copy).length = 1 ∧
    (spanIn .draining 1).attempts + 1 < base.spm.limit ∧
    base.spm.limit ≤ ({ spanIn .draining 1 with attempts := 2 } : Span).attempts + 1 ∧
    (∀ x y, (⟨x, y⟩ : PerLane PairOutcome).get .l0 = x ∧ (⟨x, y⟩ : PerLane PairOutcome).get Lane.l0.other = y) :=
  ⟨fun _ _ => ⟨rfl, rfl, rfl, rfl, rfl, rfl⟩, rfl, rfl, by decide, by decide, fun _ _ => ⟨rfl, rfl⟩⟩

theorem test_met_FollowerJoinsThePair :
    let c : PairContext :=
      { slot := 0, runId := 5, seq := 0, leader := .l1, mode := .wait, phase := .forming,
        outcome := ⟨.pending, .pending⟩ }
    let s : State := { writing .data with al := ⟨laneIn .waking, quietIn .busy⟩, ds := { base.ds with pair := some c } }
    s.ds.pair = some c ∧ c.phase = .forming ∧ (s.lane c.follower).state = .waking ∧
      (s.lane c.follower).timer.isSome = true ∧ (s.lane c.follower).burstTag = 9 ∧
      (s.lane c.follower).dataFull = false ∧ s.span? c.slot = some (spanIn .draining 1) := by decide

theorem test_met_LandedCopyCommitsTheSpan :
    (writing .header).span? 0 = some (spanIn .draining 1) ∧ (spanIn .draining 1).laneRule ≠ .mirror ∧
      TableOk (writing .header).st := ⟨by decide, by decide, ⟨by decide, rfl⟩⟩

/-- A repair span with its one copy, and a DEGRADE span with none. -/
theorem test_met_LandedCopyCommitsTheSpan_mirror :
    let sp : Span := { spanIn .draining 1 with laneRule := .mirror, mirrorPolicy := some .degrade }
    let r : Span := { sp with copies := [{ lane := .l1, address := 0 }], repairLane := some .l0 }
    (∀ x : Span, ({ writing .header with st := { oneQueued with slots := [(0, x)] } } : State).span? 0 = some x) ∧
      r.copies.length = 1 ∧ sp.laneRule = .mirror ∧ sp.copies = [] ∧ sp.mirrorPolicy = some .degrade :=
  ⟨fun _ => rfl, rfl, rfl, rfl, rfl⟩

/-- An entry offered while buffer A can take it, as its last place or not, and while no buffer can. -/
theorem test_met_LandedCopyCommitsTheSpan_entry :
    let s : State := issuedOne
      { inRun .running with
        st := { slots := [(0, spanIn .committed 1)], queues := ⟨[], [], [], []⟩, occupancy := 1 } }
    let full : State := { s with iu := { s.iu with buffers := ⟨bufferIn .filling 62, .empty⟩ } }
    s.span? 0 = some (spanIn .committed 1) ∧ RunLaw s ∧ OfferLaw s ∧ RunLaw full ∧ OfferLaw full ∧
      (quietIn .down).state.duty = .off ∧ IndexRests s.iu ∧ s.rc.runState = .running ∧
      s.target = some .a ∧ (s.buffer .a).entries.length + 1 < 63 ∧ full.target = some .a ∧
      (full.buffer .a).entries.length + 1 = 63 ∧ full.iu.writing = none ∧ (quietIn .ready).state.duty = .owed ∧
      stalled.target = none ∧ IndexRests stalled.iu ∧
      ({ spanIn .shed 1 with summary := some (startRunning 0 short 1).finish, shedCause := some .pressure } :
        Span).summary.isSome = true :=
  ⟨by decide, runLaw_one rfl rfl rfl (by decide) rfl rfl rfl ⟨rfl, rfl, rfl⟩ indexLaw_base rfl,
    fun _ => ⟨rfl, fun src => by cases src <;> rfl, rfl⟩,
    runLaw_one rfl rfl rfl (by decide) rfl rfl rfl ⟨rfl, rfl, rfl⟩
      (indexLaw_bufferA (.inl rfl) (by decide) fun k => by cases k) rfl,
    fun _ => ⟨rfl, fun src => by cases src <;> rfl, rfl⟩, rfl, indexRests_base, rfl, by decide, by decide,
    by decide, by decide, rfl, rfl, by decide, indexRests_stalled, rfl⟩

/-- The last span of a STOPPING run, its entry the first of buffer A or the last, with B EMPTY or being written; a
second span; and a gap. -/
theorem test_met_LandedCopyCommitsTheSpan_ending :
    let s : State :=
      { inRun .stopping with st := { oneQueued with slots := [(0, spanIn .committed 1)] } }
    let full : State := { s with iu := { s.iu with buffers := ⟨bufferIn .filling 62, .empty⟩ } }
    let behind : State :=
      { s with iu := { s.iu with
          buffers := ⟨bufferIn .filling 62, bufferIn .writing 1⟩
          writing := some { buffer := .b, seq := 0, duty := ⟨.owed, .off⟩ } } }
    s.span? 0 = some (spanIn .committed 1) ∧ TableOk s.st ∧ IndexRests s.iu ∧ s.rc.runState = .stopping ∧
      s.target = some .a ∧ (s.buffer .a).entries.length + 1 < 63 ∧ (∀ n, n ≠ 0 → (s.span? n).isSome = false) ∧
      (∀ src, (s.intake src).pendingGap.isSome = false ∧ (s.intake src).offeredGap.isSome = false) ∧
      full.target = some .a ∧ (full.buffer .a).entries.length + 1 = 63 ∧ full.iu.writing = none ∧
      (full.buffer BufferName.a.other).state = .empty ∧ behind.target = some .a ∧
      behind.iu.writing.isSome = true ∧ (behind.buffer BufferName.a.other).state = .writing ∧
      (({ s with st := { oneQueued with slots := [(0, spanIn .committed 1), (1, spanIn .queued 1)] } } : State).span?
        1).isSome = true :=
  ⟨by decide, ⟨by decide, rfl⟩, indexRests_base, rfl, by decide, by decide,
    fun n h => by
      show (findSlot [(0, spanIn .committed 1)] n).isSome = false
      simp [findSlot, h],
    fun src => by cases src <;> exact ⟨rfl, rfl⟩, by decide, by decide, rfl, rfl, by decide, rfl, rfl, by decide⟩

/-- The retries at the limit; a lane with two failures before, and one with none; the span of the write, with
the attempt limit at 3 and at 1. -/
theorem test_met_FailedWriteLeavesDeadSpace :
    (writing .data).ds.pair = none ∧ ((writing .data).lane .l0).action = .none ∧
      (LaneSettings.default.retryLimit ≤ ({ job .data with retries := 3 } : SpanJob).retries) ∧
      3 ≤ ({ laneIn .busy with failures := 2 } : LaneUnit).failures + 1 ∧
      ((writing .data).lane .l0).failures + 1 < 3 ∧
      (writing .data).requested 0 5 0 .draining = some (spanIn .draining 1) ∧ (writing .data).owes .l0 = false ∧
      (spanIn .draining 1).attempts + 1 < (writing .data).spm.limit ∧
      ({ base.spm with limit := 1 } : PressureMonitor).limit ≤ (spanIn .draining 1).attempts + 1 ∧
      TableOk (writing .data).st := ⟨by decide, by decide, by decide, by decide, by decide, by decide, by decide,
        by decide, by decide, by decide, rfl⟩

/-- The three rows that end a WRITE as failed, of a span job and of an index job, which alone or with the other
lane owes the block being written. -/
theorem test_met_FailedWriteLeavesDeadSpace_index :
    (∃ j, Writes indexing .l0 9 (.index j)) ∧ indexing.ds.pair = none ∧
      Writes (writing .data) .l0 9 (.span (job .data)) ∧
      indexing.WriteFails .l0 9 3 (.retry .l0 9) .retryExhausted ∧
      indexing.WriteFails .l0 9 0 (.moduleFault .l0 9) .moduleFault ∧
      indexing.WriteFails .l0 9 0 (.responseTimeout .l0) .timeout ∧
      (let w : Duty → Writing := fun d => { buffer := .a, seq := 0, duty := ⟨.owed, d⟩ };
        ∀ d, (w d).duty.get .l0 = .owed ∧ (w d).duty.get Lane.l0.other = d) ∧
      (base.buffer BufferName.a.other).state ≠ .closed ∧ base.iu.waitSpans = [] ∧ base.iu.waitRunEnd = none :=
  ⟨⟨_, rfl, rfl, rfl, rfl⟩, rfl, ⟨rfl, rfl, rfl, rfl⟩, .inl ⟨rfl, rfl, by decide⟩, .inr (.inl ⟨rfl, rfl⟩),
    .inr (.inr ⟨rfl, rfl⟩), fun _ => ⟨rfl, rfl⟩, by decide, rfl, rfl⟩

/-- An index job of the follower of a FORMING pair, with each action pending on it and on the leader, data-full or not;
the policy of the span either one. -/
theorem test_met_FailedWriteLeavesDeadSpace_follower :
    ∀ (action led : PendingAction) (full : Bool) (policy : MirrorPolicy),
      let a : LaneUnit := { indexing.al.l0 with action := action, dataFull := full }
      let sp : Span := { spanIn .draining 1 with laneRule := .mirror, mirrorPolicy := some policy }
      let p := pairing a
      let s : State :=
        { p with
          st := { slots := [(0, sp)], queues := ⟨[], [], [], []⟩, occupancy := 1 }
          al := ⟨{ p.al.l0 with action := led }, p.al.l1⟩ }
      (∃ j, Writes s .l1 9 (.index j)) ∧ s.ds.pair = some forming ∧ forming.phase = .forming ∧
        forming.follower = .l1 ∧ s.span? forming.slot = some sp ∧ (s.lane .l1).action = action ∧
        (s.lane .l1).dataFull = full ∧ (s.lane forming.leader).action = led ∧ s.iu.waitSpans = [] ∧
        s.rc.expired = false :=
  fun _ _ _ _ => ⟨⟨_, rfl, rfl, rfl, rfl⟩, rfl, rfl, rfl, rfl, rfl, rfl, rfl, rfl, rfl⟩

/-- A READY lane's FULL claim with a QUEUED head, a lane that owes the block being written, the lock on, and a
mirrored head beside a lane that is pairable and one that is not. -/
theorem test_met_EvaluationKeepsTheRest_claims :
    let cl : Claim := { kind := .full, since := 0 }
    let s : State :=
      { withLane (quietIn .ready) with
        st := oneQueued
        ds := { base.ds with claim := ⟨some cl, none⟩ } }
    let m : Span := { spanIn .queued 1 with laneRule := .mirror, mirrorPolicy := some .degrade }
    s.ds.claim.get .l0 = some cl ∧ s.owes .l0 = false ∧ s.iu.lock = false ∧ s.hasRepairCommit .l0 = false ∧
      (∃ b, s.winner .l0 = some b ∧ b.slot = 0 ∧ b.take = .single) ∧ base.winner .l0 = none ∧
      s.st.head .s0 = some (0, spanIn .queued 1) ∧ (s.eligible .l0 (spanIn .queued 1)).isSome = true ∧
      (∃ w, stalled.iu.writing = some w ∧ w.duty.get .l0 = .owed) ∧ (quietIn .ready).indexFull = false ∧
      ({ s with al := ⟨quietIn .ready, quietIn .parked⟩ } : State).eligible .l0 m = some .pair ∧
      s.eligible .l0 m = some .single ∧ (∃ t, s.answer .l0 = some t) ∧ s.answer .l1 = none ∧
      (let r : Span := { m with copies := [⟨.l0, 0⟩], repairLane := some .l1 };
        let q : State := { s with st := { oneQueued with slots := [(0, r)] } };
        q.hasRepairCommit .l0 = true ∧ q.st.head .s0 = some (0, r)) := by
  refine ⟨rfl, by decide, rfl, by decide, ⟨_, rfl, rfl, rfl⟩, by decide, by decide, by decide, ⟨_, rfl, rfl⟩,
    rfl, by decide, by decide, ⟨_, rfl⟩, rfl, by decide, by decide⟩

theorem test_met_EvaluationKeepsTheRest :
    (∀ lane, base.ds.claim.get lane = none) ∧
      (({ base.iu with lock := true } : IndexUnit).lock = true ∧ base.iu.writing = none) :=
  ⟨fun lane => by cases lane <;> rfl, by decide⟩

/-- The laws of a run with a claim standing. -/
theorem test_met_EvaluationKeepsTheRest_ends :
    let cl : Claim := { kind := .full, since := 0 }
    RunLaw (State.reset.setDs { State.reset.ds with claim := ⟨some cl, none⟩ }) ∧
      (State.reset.setDs { State.reset.ds with claim := ⟨some cl, none⟩ }).ds.claim.get .l0 = some cl :=
  ⟨(within_setDs State.reset _).law 0 runLaw_reset, rfl⟩

end Sys2Proof.Tests
end

/-! ARM RUN (R27, R28): when its operands do not decode, what its checks answer, and what its effect leaves. -/

namespace Sys2Proof.Machine

/-! ### The operands (R27, check 2) -/

theorem inRange_eq_none {low high v : Nat} (h : high < v) : inRange low high v = none :=
  if_neg fun within => absurd within.2 (by omega)

theorem decodeStart_eq_none {kind : Nat} (epoch : Nat) (h : 1 < kind) : decodeStart kind epoch = none := by
  match kind, h with
  | _ + 2, _ => rfl

/-- The three fields of ARM RUN that have a range are the start kind, the mask and the deadline. -/
theorem decodeArm_eq_none {p : List Byte}
    (h : 1 < byteAt p 2 ∨ 15 < byteAt p 5 ∨ 3600 < field p 6 2) : decodeArm p = none := by
  unfold decodeArm
  rcases h with kind | mask | deadline
  · rw [decodeStart_eq_none _ kind]
    rfl
  · rw [inRange_eq_none mask]
    cases decodeStart (byteAt p 2) (field p 3 2) <;> rfl
  · rw [inRange_eq_none deadline]
    cases decodeStart (byteAt p 2) (field p 3 2) <;> cases inRange 0 15 (byteAt p 5) <;> rfl

/-! ### The named sources that are enabled (R27, check 3) -/

theorem PerSource.anySource_iff (v : PerSource Bool) : v.anySource = true ↔ ∃ src, v.get src = true := by
  simp only [PerSource.anySource, Bool.or_eq_true]
  constructor
  · rintro (((h | h) | h) | h)
    · exact ⟨.s0, h⟩
    · exact ⟨.s1, h⟩
    · exact ⟨.s2, h⟩
    · exact ⟨.s3, h⟩
  · rintro ⟨src, h⟩
    cases src with
    | s0 => exact .inl (.inl (.inl h))
    | s1 => exact .inl (.inl (.inr h))
    | s2 => exact .inl (.inr h)
    | s3 => exact .inr h

theorem State.armSet_get (s : State) (mask : Nat) (src : Source) :
    (s.armSet mask).get src = (inMask mask src && (s.settings src).enabled) := by
  cases src <;> rfl

theorem State.armSet_any_iff (s : State) (mask : Nat) :
    (s.armSet mask).anySource = true ↔ ∃ src, inMask mask src = true ∧ (s.settings src).enabled = true := by
  simp only [PerSource.anySource_iff, State.armSet_get, Bool.and_eq_true]

/-! ### The checks of R27 in IDLE -/

theorem armCheck_of_idle {s : State} (p : List Byte) (idle : s.rc.runState = .idle) :
    armCheck p s = (Status.ofFields (decodeArm p)).andThen (Status.ofMask s (decodeArm p)) := by
  rw [armCheck, idle]
  rfl

theorem armCheck_of_undecoded {s : State} {p : List Byte} (idle : s.rc.runState = .idle)
    (undecoded : decodeArm p = none) : armCheck p s = .badValue := by
  rw [armCheck_of_idle p idle, undecoded]
  rfl

theorem armCheck_of_decoded {s : State} {p : List Byte} {a : ArmOperands} (idle : s.rc.runState = .idle)
    (decoded : decodeArm p = some a) :
    armCheck p s = if (s.armSet a.mask).anySource then .ok else .badValue := by
  rw [armCheck_of_idle p idle, decoded]
  rfl

/-! ### The effect (R28) -/

theorem armEffect_now {p : List Byte} {a : ArmOperands} (s : State) (decoded : decodeArm p = some a)
    (now : a.start = .now) : armEffect p s = (s.arm a).enterRunning s.rc.lastEpoch := by
  simp only [armEffect, decoded, now]

theorem armEffect_atEpoch {p : List Byte} {a : ArmOperands} {e : Word16} (s : State)
    (decoded : decodeArm p = some a) (atEpoch : a.start = .atEpoch e) : armEffect p s = s.arm a := by
  simp only [armEffect, decoded, atEpoch]

/-! ### ARM RUN taken from the port (R172) -/

theorem exec_armRun (s : State) : exec .armRun s = .next (armCommand.take s) := rfl

/-- ARM RUN whose checks answer BAD_VALUE is answered so, without effect. -/
theorem armRun_badValue {s : State} {f : CmdFrame} {rest : List CmdFrame} (received : Receives s 0x10 f rest)
    (length : f.payload.length = 8) (check : armCheck f.payload s = .badValue) :
    exec .armRun s = .next (s.answered f rest .badValue []) := by
  rw [exec_armRun, received.refused (c := armCommand) length check (by decide)]

/-- ARM RUN whose checks pass is answered OK, and its effect acts on the state with the reply queued. -/
theorem armRun_ok {s : State} {f : CmdFrame} {rest : List CmdFrame} (received : Receives s 0x10 f rest)
    (length : f.payload.length = 8) (check : armCheck f.payload s = .ok) :
    exec .armRun s = .next (armEffect f.payload (s.answered f rest .ok [])) := by
  rw [exec_armRun, received.ok (c := armCommand) length check]
  rfl

/-- Settles O24: the checks of R27 decide between BAD_VALUE and the effect of R28, by whether the operands
decode and whether they name an enabled source. -/
theorem armRunArmsTheRun : Obligations.ArmRunArmsTheRun := by
  intro s f rest received length idle
  refine ⟨fun outOfRange => ?_, fun a decoded => ⟨fun noneEnabled => ?_, fun someEnabled => ?_⟩⟩
  · exact armRun_badValue received length (armCheck_of_undecoded idle (decodeArm_eq_none outOfRange))
  · have noSource : ¬ (s.armSet a.mask).anySource = true := by
      rw [State.armSet_any_iff]
      rintro ⟨src, named, enabled⟩
      exact Bool.false_ne_true ((noneEnabled src named).symm.trans enabled)
    have check : armCheck f.payload s = .badValue := by
      rw [armCheck_of_decoded idle decoded, if_neg noSource]
    exact armRun_badValue received length check
  · have check : armCheck f.payload s = .ok := by
      rw [armCheck_of_decoded idle decoded, if_pos ((s.armSet_any_iff a.mask).mpr someEnabled)]
    have run := armRun_ok received length check
    refine ⟨fun e atEpoch => ?_, fun now => ?_⟩
    · rw [run, armEffect_atEpoch _ decoded atEpoch]
      rfl
    · rw [run, armEffect_now _ decoded now]
      rfl

end Sys2Proof.Machine

/-! The Summary Engine (R77 to R83): the bounds of a scaled term, what an appended sample leaves in each item of a
running summary, and the samples that a running summary stands for. -/

namespace Sys2Proof.Machine

/-! ### The scaled term (R79) -/

theorem scaledTerm_mul_le (x : Sample) (g : BitVec 32) : scaledTerm x g * 65536 ≤ x.toInt * g.toInt :=
  Int.ediv_mul_le _ (by decide)

theorem lt_scaledTerm_add_one_mul (x : Sample) (g : BitVec 32) :
    x.toInt * g.toInt < (scaledTerm x g + 1) * 65536 :=
  Int.lt_ediv_add_one_mul_self _ (by decide)

theorem Sample.abs_toInt_le (x : Sample) : |x.toInt| ≤ 32768 := by
  have low := BitVec.le_toInt x
  have high := BitVec.toInt_lt (x := x)
  exact abs_le.mpr ⟨by omega, by omega⟩

theorem abs_gain_toInt_le (g : BitVec 32) : |g.toInt| ≤ 2 ^ 31 := by
  have low := BitVec.le_toInt g
  have high := BitVec.toInt_lt (x := g)
  exact abs_le.mpr ⟨by omega, by omega⟩

/-- A bound on the sample bounds the exact product, whatever the gain. -/
theorem abs_product_le {x : Sample} {n : Int} (bound : |x.toInt| ≤ n) (g : BitVec 32) :
    |x.toInt * g.toInt| ≤ n * 2 ^ 31 :=
  calc |x.toInt * g.toInt| = |x.toInt| * |g.toInt| := abs_mul _ _
    _ ≤ n * 2 ^ 31 := mul_le_mul bound (abs_gain_toInt_le g) (abs_nonneg _) ((abs_nonneg _).trans bound)

theorem scaledTerm_mem_Icc (x : Sample) (g : BitVec 32) :
    -2 ^ 30 ≤ scaledTerm x g ∧ scaledTerm x g ≤ 2 ^ 30 := by
  obtain ⟨low, high⟩ := abs_le.mp (abs_product_le (Sample.abs_toInt_le x) g)
  have floor := scaledTerm_mul_le x g
  have ceil := lt_scaledTerm_add_one_mul x g
  omega

/-- Any sample but -32768 is at most 32767 in magnitude, and its product with a gain stays below 2^46. -/
theorem eq_of_scaledTerm_eq_top {x : Sample} {g : BitVec 32} (top : scaledTerm x g = 2 ^ 30) :
    x.toInt = -32768 ∧ g.toInt = -2 ^ 31 := by
  have floor := scaledTerm_mul_le x g
  have lowSample := BitVec.le_toInt x
  have highSample := BitVec.toInt_lt (x := x)
  have lowGain := BitVec.le_toInt g
  have least : x.toInt = -32768 := by
    by_contra other
    have inner : |x.toInt| ≤ 32767 := abs_le.mpr ⟨by omega, by omega⟩
    have high := (abs_le.mp (abs_product_le inner g)).2
    omega
  rw [least] at floor
  exact ⟨least, by omega⟩

theorem scaledTerm_of_gain_one {g : BitVec 32} (x : Sample) (one : g.toInt = 65536) :
    scaledTerm x g = x.toInt := by
  rw [scaledTerm, one, Int.mul_ediv_cancel _ (by decide)]

theorem scaledTerm_of_gain_zero {g : BitVec 32} (x : Sample) (zero : g.toInt = 0) : scaledTerm x g = 0 := by
  rw [scaledTerm, zero, mul_zero, Int.zero_ediv]

theorem scaledTerm_neg {x : Sample} {g : BitVec 32} (negative : g.toInt < 0) (positive : 0 < x.toInt) :
    scaledTerm x g < 0 :=
  Int.ediv_neg_of_neg_of_pos (mul_neg_of_pos_of_neg positive negative) (by decide)

theorem scaledTerm_nonneg {x : Sample} {g : BitVec 32} (negative : g.toInt < 0) (below : x.toInt < 0) :
    0 ≤ scaledTerm x g :=
  Int.ediv_nonneg (mul_pos_of_neg_of_neg below negative).le (by decide)

/-- The squared term that a sample adds to the energy (R80). -/
def squaredTerm (g : BitVec 32) (x : Sample) : Nat := (scaledTerm x g * scaledTerm x g).toNat

theorem squaredTerm_of_gain_zero {g : BitVec 32} (x : Sample) (zero : g.toInt = 0) : squaredTerm g x = 0 := by
  rw [squaredTerm, scaledTerm_of_gain_zero x zero]
  rfl

/-- A squared term is at most 2^60, so that the opening sample never saturates the energy (R77). -/
theorem squaredTerm_le_maxEnergy (g : BitVec 32) (x : Sample) : squaredTerm g x ≤ maxEnergy := by
  have bound : |scaledTerm x g| ≤ 2 ^ 30 := abs_le.mpr (scaledTerm_mem_Icc x g)
  have square : scaledTerm x g * scaledTerm x g ≤ 2 ^ 30 * 2 ^ 30 :=
    (abs_mul_abs_self (scaledTerm x g)).symm.trans_le (mul_le_mul bound bound (abs_nonneg _) (by decide))
  have room : (maxEnergy : Int) = 2 ^ 64 - 1 := rfl
  rw [squaredTerm]
  omega

/-! ### What an appended sample leaves (R78, R80, R82) -/

/-- The open bucket with a sample taken in, or the bucket that the sample starts (R82). -/
def Running.nextBucket (r : Running) (x : Int) : OpenBucket :=
  match r.openBucket with
  | some bkt => { range := bkt.range.take x, count := bkt.count + 1 }
  | none => { range := ⟨x, x⟩, count := 1 }

/-- The samples in the open bucket. -/
def Running.openCount (r : Running) : Nat :=
  match r.openBucket with
  | some bkt => bkt.count
  | none => 0

theorem Running.nextBucket_count (r : Running) (x : Int) : (r.nextBucket x).count = r.openCount + 1 := by
  unfold nextBucket openCount
  cases r.openBucket <;> rfl

theorem Running.takeBucket_eq (r : Running) (x : Int) : r.takeBucket x = r.placeBucket (r.nextBucket x) := by
  unfold takeBucket nextBucket
  cases r.openBucket <;> rfl

theorem Running.placeBucket_eq (r : Running) (bkt : OpenBucket) :
    r.placeBucket bkt =
      { r with
        envelope := if bkt.count = 2 ^ r.bucketExp then r.envelope ++ [bkt.range] else r.envelope
        openBucket := if bkt.count = 2 ^ r.bucketExp then none else some bkt } := by
  unfold placeBucket
  split <;> rfl

theorem Running.takeEnergy_eq (r : Running) (t : Int) :
    r.takeEnergy t =
      { r with
        energy := if r.saturated then r.energy else min maxEnergy (r.energy + (t * t).toNat)
        saturated := r.saturated || decide (maxEnergy < r.energy + (t * t).toNat) } := by
  obtain ⟨slot, gain, bucketExp, count, range, rawSum, scaledSum, energy, saturated, envelope, openBucket⟩ := r
  cases saturated with
  | true => rfl
  | false =>
    by_cases fits : energy + (t * t).toNat ≤ maxEnergy
    · simp [takeEnergy, fits, fits.not_gt]
    · simp [takeEnergy, fits, not_le.mp fits, (not_le.mp fits).le]

/-- The one equation for a sample appended: every item of the running summary after it. -/
theorem Running.take_eq (r : Running) (x : Sample) :
    r.take x =
      { r with
        count := r.count + 1
        range := r.range.take x.toInt
        rawSum := r.rawSum + x.toInt
        scaledSum := r.scaledSum + scaledTerm x r.gain
        energy := if r.saturated then r.energy else min maxEnergy (r.energy + squaredTerm r.gain x)
        saturated := r.saturated || decide (maxEnergy < r.energy + squaredTerm r.gain x)
        envelope :=
          if (r.nextBucket x.toInt).count = 2 ^ r.bucketExp then r.envelope ++ [(r.nextBucket x.toInt).range]
          else r.envelope
        openBucket :=
          if (r.nextBucket x.toInt).count = 2 ^ r.bucketExp then none else some (r.nextBucket x.toInt) } := by
  unfold take
  rw [takeBucket_eq, placeBucket_eq, takeEnergy_eq]
  rfl

section
variable (r : Running) (x : Sample)

@[simp] theorem Running.take_slot : (r.take x).slot = r.slot := by rw [take_eq]

@[simp] theorem Running.take_gain : (r.take x).gain = r.gain := by rw [take_eq]

@[simp] theorem Running.take_bucketExp : (r.take x).bucketExp = r.bucketExp := by rw [take_eq]

@[simp] theorem Running.take_count : (r.take x).count = r.count + 1 := by rw [take_eq]

@[simp] theorem Running.take_range : (r.take x).range = r.range.take x.toInt := by rw [take_eq]

@[simp] theorem Running.take_rawSum : (r.take x).rawSum = r.rawSum + x.toInt := by rw [take_eq]

@[simp] theorem Running.take_scaledSum : (r.take x).scaledSum = r.scaledSum + scaledTerm x r.gain := by
  rw [take_eq]

theorem Running.take_energy :
    (r.take x).energy = if r.saturated then r.energy else min maxEnergy (r.energy + squaredTerm r.gain x) := by
  rw [take_eq]

theorem Running.take_saturated :
    (r.take x).saturated = (r.saturated || decide (maxEnergy < r.energy + squaredTerm r.gain x)) := by
  rw [take_eq]

theorem Running.take_envelope :
    (r.take x).envelope =
      if (r.nextBucket x.toInt).count = 2 ^ r.bucketExp then r.envelope ++ [(r.nextBucket x.toInt).range]
      else r.envelope := by
  rw [take_eq]

theorem Running.take_openBucket :
    (r.take x).openBucket =
      if (r.nextBucket x.toInt).count = 2 ^ r.bucketExp then none else some (r.nextBucket x.toInt) := by
  rw [take_eq]

end

theorem Running.take_energy_of_gain_zero {r : Running} (x : Sample) (gain : r.gain.toInt = 0)
    (energy : r.energy = 0) : (r.take x).energy = 0 := by
  rw [take_energy, squaredTerm_of_gain_zero x gain, energy, Nat.add_zero, Nat.min_zero, ite_self]

theorem Running.take_envelope_of_gain (r : Running) (x : Sample) (g : BitVec 32) :
    (({ r with gain := g } : Running).take x).envelope = (r.take x).envelope := by
  rw [take_envelope, take_envelope]
  rfl

theorem Running.take_of_bucket_full {r : Running} {x : Sample}
    (full : (r.nextBucket x.toInt).count = 2 ^ r.bucketExp) :
    (r.take x).envelope = r.envelope ++ [(r.nextBucket x.toInt).range] ∧ (r.take x).openBucket = none := by
  rw [take_envelope, take_openBucket, if_pos full, if_pos full]
  exact ⟨rfl, rfl⟩

theorem Running.take_of_bucket_open {r : Running} {x : Sample}
    (room : (r.nextBucket x.toInt).count ≠ 2 ^ r.bucketExp) :
    (r.take x).envelope = r.envelope ∧ (r.take x).openBucket = some (r.nextBucket x.toInt) := by
  rw [take_envelope, take_openBucket, if_neg room, if_neg room]
  exact ⟨rfl, rfl⟩

/-! ### The extremes of a list of samples (R78) -/

/-- The pair is the least and the greatest value of the samples, each of them the value of one. -/
structure Extremes.Bounds (e : Extremes) (ys : List Sample) : Prop where
  low_mem : ∃ y ∈ ys, e.low = y.toInt
  high_mem : ∃ y ∈ ys, e.high = y.toInt
  between : ∀ y ∈ ys, e.low ≤ y.toInt ∧ y.toInt ≤ e.high

theorem Extremes.bounds_singleton (x : Sample) : Extremes.Bounds ⟨x.toInt, x.toInt⟩ [x] where
  low_mem := ⟨x, List.mem_singleton_self x, rfl⟩
  high_mem := ⟨x, List.mem_singleton_self x, rfl⟩
  between y mem := by
    rw [List.mem_singleton.mp mem]
    exact ⟨le_rfl, le_rfl⟩

theorem Extremes.Bounds.take {e : Extremes} {ys : List Sample} (h : e.Bounds ys) (x : Sample) :
    (e.take x.toInt).Bounds (ys ++ [x]) where
  low_mem := by
    obtain ⟨y, mem, low⟩ := h.low_mem
    rcases min_choice e.low x.toInt with old | new
    · exact ⟨y, List.mem_append_left _ mem, old.trans low⟩
    · exact ⟨x, List.mem_append_right _ (List.mem_singleton_self x), new⟩
  high_mem := by
    obtain ⟨y, mem, high⟩ := h.high_mem
    rcases max_choice e.high x.toInt with old | new
    · exact ⟨y, List.mem_append_left _ mem, old.trans high⟩
    · exact ⟨x, List.mem_append_right _ (List.mem_singleton_self x), new⟩
  between y mem := by
    rcases List.mem_append.mp mem with old | new
    · obtain ⟨low, high⟩ := h.between y old
      exact ⟨(min_le_left _ _).trans low, high.trans (le_max_left _ _)⟩
    · rw [List.mem_singleton.mp new]
      exact ⟨min_le_right _ _, le_max_right _ _⟩

/-! ### The energy of a list of samples (R80) -/

/-- The energy and the saturated mark stand for an exact sum of squared terms. -/
structure Running.EnergyOf (r : Running) (squares : Nat) : Prop where
  energy : r.energy = min maxEnergy squares
  saturated : r.saturated = decide (maxEnergy < squares)

theorem Running.energyOf_start (slot : Nat) (set : SourceSettings) (x : Sample) :
    (startRunning slot set x).EnergyOf (squaredTerm set.gain x) where
  energy := (min_eq_right (squaredTerm_le_maxEnergy set.gain x)).symm
  saturated := (decide_eq_false (squaredTerm_le_maxEnergy set.gain x).not_gt).symm

/-- Once the sum has passed the greatest energy it stays past it; before, the energy is the sum itself. -/
theorem Running.EnergyOf.take {r : Running} {squares : Nat} (h : r.EnergyOf squares) (x : Sample) :
    (r.take x).EnergyOf (squares + squaredTerm r.gain x) := by
  obtain ⟨energy, saturated⟩ := h
  by_cases beyond : maxEnergy < squares
  · have stays : maxEnergy < squares + squaredTerm r.gain x := beyond.trans_le (Nat.le_add_right _ _)
    have held : r.saturated = true := saturated.trans (decide_eq_true beyond)
    constructor
    · rw [take_energy, if_pos held, energy, min_eq_left beyond.le, min_eq_left stays.le]
    · rw [take_saturated, held, Bool.true_or, decide_eq_true stays]
  · have exactSum : r.energy = squares := energy.trans (min_eq_right (not_lt.mp beyond))
    have unheld : r.saturated = false := saturated.trans (decide_eq_false beyond)
    constructor
    · rw [take_energy, unheld, exactSum]
      rfl
    · rw [take_saturated, unheld, Bool.false_or, exactSum]

/-! ### The buckets of a list of samples (R82, R83) -/

/-- The closed buckets are full and the open one is neither empty nor full, and together they hold n samples. -/
structure Running.BucketsOf (r : Running) (n : Nat) : Prop where
  total : r.envelope.length * 2 ^ r.bucketExp + r.openCount = n
  room : r.openCount < 2 ^ r.bucketExp
  started : r.openBucket = none ∨ 0 < r.openCount

/-- The start leaves the opening sample's bucket open whatever the bucket size (R77), which a size of 1 would not
do at a later sample; so the bucket exponent is not 0 here. -/
theorem Running.bucketsOf_start (slot : Nat) {set : SourceSettings} (x : Sample) (pos : 0 < set.bucketExp) :
    (startRunning slot set x).BucketsOf 1 where
  total := by
    show 0 * 2 ^ set.bucketExp + 1 = 1
    rw [Nat.zero_mul]
  room := Nat.one_lt_two_pow pos.ne'
  started := .inr Nat.one_pos

theorem Running.BucketsOf.take {r : Running} {n : Nat} (h : r.BucketsOf n) (x : Sample) :
    (r.take x).BucketsOf (n + 1) := by
  obtain ⟨total, room, -⟩ := h
  have next := r.nextBucket_count x.toInt
  by_cases full : (r.nextBucket x.toInt).count = 2 ^ r.bucketExp
  · obtain ⟨envelope, closed⟩ := take_of_bucket_full full
    have empty : (r.take x).openCount = 0 := by rw [openCount, closed]
    refine ⟨?_, ?_, .inl closed⟩
    · rw [envelope, empty, take_bucketExp, List.length_append, List.length_singleton, Nat.succ_mul]
      omega
    · rw [empty]
      exact Nat.two_pow_pos _
  · obtain ⟨envelope, stillOpen⟩ := take_of_bucket_open full
    have grown : (r.take x).openCount = r.openCount + 1 := by rw [openCount, stillOpen, ← next]
    refine ⟨?_, ?_, .inr ?_⟩
    · rw [envelope, grown, take_bucketExp]
      omega
    · rw [grown, take_bucketExp]
      omega
    · rw [grown]
      exact Nat.succ_pos _

theorem Running.finish_envelope (r : Running) :
    r.finish.envelope = r.envelope ++ (r.openBucket.map OpenBucket.range).toList := by
  unfold finish
  cases r.openBucket with
  | none => exact (List.append_nil _).symm
  | some bkt => rfl

/-- A finished envelope has a pair for each bucket begun: n samples divided by the bucket size, rounded up. -/
theorem Running.BucketsOf.finish_length {r : Running} {n : Nat} (h : r.BucketsOf (n + 1)) :
    r.finish.envelope.length = (n + 2 ^ r.bucketExp) / 2 ^ r.bucketExp := by
  obtain ⟨total, room, started⟩ := h
  rw [finish_envelope, List.length_append]
  symm
  cases bucket : r.openBucket with
  | none =>
    have empty : r.openCount = 0 := by rw [openCount, bucket]
    apply Nat.div_eq_of_lt_le
    · show (r.envelope.length + 0) * 2 ^ r.bucketExp ≤ _
      rw [Nat.add_zero]
      omega
    · show _ < (r.envelope.length + 0 + 1) * 2 ^ r.bucketExp
      rw [Nat.add_zero, Nat.succ_mul]
      omega
  | some bkt =>
    have begun : 0 < r.openCount := started.resolve_left (by rw [bucket]; exact Option.some_ne_none bkt)
    apply Nat.div_eq_of_lt_le
    · show (r.envelope.length + 1) * 2 ^ r.bucketExp ≤ _
      rw [Nat.succ_mul]
      omega
    · show _ < (r.envelope.length + 1 + 1) * 2 ^ r.bucketExp
      rw [Nat.succ_mul, Nat.succ_mul]
      omega

/-! ### The running summary of a list of samples (R77, R78) -/

/-- The running summary stands for the samples ys of a span, taken under the source's settings. -/
structure Running.Summarises (r : Running) (slot : Nat) (set : SourceSettings) (ys : List Sample) : Prop where
  slot : r.slot = slot
  gain : r.gain = set.gain
  bucketExp : r.bucketExp = set.bucketExp
  count : r.count = ys.length
  range : r.range.Bounds ys
  rawSum : r.rawSum = (ys.map BitVec.toInt).sum
  scaledSum : r.scaledSum = (ys.map fun y => scaledTerm y set.gain).sum
  energyOf : r.EnergyOf (ys.map (squaredTerm set.gain)).sum
  bucketsOf : 0 < set.bucketExp → r.BucketsOf ys.length

theorem Running.summarises_start (slot : Nat) (set : SourceSettings) (x : Sample) :
    (startRunning slot set x).Summarises slot set [x] where
  slot := rfl
  gain := rfl
  bucketExp := rfl
  count := rfl
  range := Extremes.bounds_singleton x
  rawSum := List.sum_singleton.symm
  scaledSum := List.sum_singleton.symm
  energyOf := by
    rw [List.map_singleton, List.sum_singleton]
    exact energyOf_start slot set x
  bucketsOf := bucketsOf_start slot x

theorem Running.Summarises.take {r : Running} {slot : Nat} {set : SourceSettings} {ys : List Sample}
    (h : r.Summarises slot set ys) (x : Sample) : (r.take x).Summarises slot set (ys ++ [x]) where
  slot := by rw [take_slot, h.slot]
  gain := by rw [take_gain, h.gain]
  bucketExp := by rw [take_bucketExp, h.bucketExp]
  count := by rw [take_count, h.count, List.length_append, List.length_singleton]
  range := by
    rw [take_range]
    exact h.range.take x
  rawSum := by rw [take_rawSum, h.rawSum, List.map_append, List.sum_append, List.map_singleton, List.sum_singleton]
  scaledSum := by
    rw [take_scaledSum, h.scaledSum, h.gain, List.map_append, List.sum_append, List.map_singleton,
      List.sum_singleton]
  energyOf := by
    rw [List.map_append, List.sum_append, List.map_singleton, List.sum_singleton, ← h.gain]
    exact Running.EnergyOf.take (h.gain ▸ h.energyOf) x
  bucketsOf pos := by
    rw [List.length_append, List.length_singleton]
    exact (h.bucketsOf pos).take x

theorem Running.Summarises.foldl_take {slot : Nat} {set : SourceSettings} (xs : List Sample) :
    ∀ {r : Running} {ys : List Sample}, r.Summarises slot set ys →
      (xs.foldl Running.take r).Summarises slot set (ys ++ xs) := by
  induction xs with
  | nil =>
    intro r ys h
    rw [List.append_nil]
    exact h
  | cons x xs ih =>
    intro r ys h
    rw [List.append_cons]
    exact ih (h.take x)

theorem Running.summarises_foldl (slot : Nat) (set : SourceSettings) (x : Sample) (xs : List Sample) :
    (xs.foldl Running.take (startRunning slot set x)).Summarises slot set (x :: xs) :=
  (summarises_start slot set x).foldl_take xs

theorem Running.Summarises.finish_length {r : Running} {slot : Nat} {set : SourceSettings} {x : Sample}
    {xs : List Sample} (h : r.Summarises slot set (x :: xs)) (pos : 0 < set.bucketExp) :
    r.finish.envelope.length = (xs.length + 2 ^ set.bucketExp) / 2 ^ set.bucketExp := by
  rw [(h.bucketsOf pos).finish_length, h.bucketExp]

/-- Settles O38: the division of R79 rounds down and its product is bounded, each appended sample keeps a running
summary that of the samples so far, and the finished envelope adds the pair of the open bucket. -/
theorem scaledTermRoundsDown : Obligations.ScaledTermRoundsDown := by
  refine ⟨fun x g => ?term, by decide, fun r x gain scaledSum energy => ?gainZero, fun r x g => ?gainFree,
    fun slot set x xs => ⟨rfl, ?span⟩, fun r x => ?bucket, fun r => ?finish⟩
  case term =>
    obtain ⟨low, high⟩ := scaledTerm_mem_Icc x g
    exact ⟨scaledTerm_mul_le x g, lt_scaledTerm_add_one_mul x g, low, high, eq_of_scaledTerm_eq_top,
      scaledTerm_of_gain_one x, scaledTerm_of_gain_zero x,
      fun negative => ⟨scaledTerm_neg negative, scaledTerm_nonneg negative⟩⟩
  case gainZero =>
    refine ⟨?_, Running.take_energy_of_gain_zero x gain energy⟩
    rw [Running.take_scaledSum, scaledSum, scaledTerm_of_gain_zero x gain, add_zero]
  case gainFree =>
    exact ⟨by simp, by simp, by simp, Running.take_envelope_of_gain r x g⟩
  case span =>
    have h := Running.summarises_foldl slot set x xs
    exact ⟨h.slot, h.gain, h.bucketExp, h.count, ⟨h.range.low_mem, h.range.high_mem, h.range.between⟩, h.rawSum,
      h.scaledSum, h.energyOf.energy, h.energyOf.saturated, h.finish_length⟩
  case bucket =>
    exact ⟨Running.take_of_bucket_full, Running.take_of_bucket_open⟩
  case finish =>
    unfold Running.finish
    cases r.openBucket with
    | none => simp only [List.append_nil]
    | some bkt => rfl

end Sys2Proof.Machine

/-! The commands that only report (R172), and IDENTIFY among them (R176, R179). -/

namespace Sys2Proof.Machine

/-- A command without checks and without effect is answered OK, in every state in which the port takes it, and the
taking of its frame and its reply are all that changes (R172). -/
theorem Receives.reported {c : Command} {s : State} {f : CmdFrame} {rest : List CmdFrame}
    (received : Receives s c.code f rest) (length : f.payload.length = c.len) (check : c.check = alwaysOk)
    (effect : c.effect = noEffect) :
    c.take s = s.answered f rest .ok (c.payload f.payload s) := by
  have passes : c.check f.payload s = .ok := by
    rw [check]
    rfl
  rw [received.ok length passes, effect, noEffect]

/-- Part code 0x0B34, revision 2, 4096 slots, 16 MiB, 4 sources, 2 lanes and 1024 payload bytes, each value least
byte first (R178, R179). -/
theorem identity_bytes : identity = [0x34, 0x0B, 0x02, 0x00, 0x10, 16, 4, 2, 0x00, 0x04] := by
  decide

theorem exec_identify (s : State) : exec .identify s = .next (identifyCommand.take s) := rfl

/-- Settles O21: IDENTIFY is a command without checks and without effect, and its payload is the identity. -/
theorem identifyReportsThePart : Obligations.IdentifyReportsThePart := by
  intro s f rest received length
  have reply : identifyCommand.take s = s.answered f rest .ok identity :=
    received.reported (c := identifyCommand) length rfl rfl
  rw [exec_identify, reply, identity_bytes]

end Sys2Proof.Machine

/-! The steps of the part: what each command keeps, and so what every step keeps. -/

namespace Sys2Proof.Machine

/-! ### The conditions of a command (R172) -/

theorem Status.ofState_eq_ok {allowed : Bool} (h : Status.ofState allowed = .ok) : allowed = true := by
  cases allowed
  · exact absurd h (by decide)
  · rfl

theorem Status.andThen_eq_ok {a b : Status} (h : a.andThen b = .ok) : a = .ok ∧ b = .ok := by
  unfold Status.andThen at h
  split at h
  · next ha => exact ⟨ha, h⟩
  · next ha => exact absurd h ha

theorem idle_of_armCheck {p : List Byte} {s : State} (h : armCheck p s = .ok) : s.rc.runState = .idle :=
  eq_of_beq (Status.ofState_eq_ok (Status.andThen_eq_ok h).1)

theorem idle_of_setSourceCheck {p : List Byte} {s : State} (h : setSourceCheck p s = .ok) :
    s.rc.runState = .idle :=
  eq_of_beq (Status.ofState_eq_ok (Status.andThen_eq_ok h).1)

/-- A lane command that is not turned away names a lane, in a state that its rule allows. -/
theorem laneCheck_eq_ok {allowed : LaneState → Bool} {p : List Byte} {s : State}
    (h : laneCheck allowed p s = .ok) : ∃ lane, laneOf p = some lane ∧ allowed (s.al.get lane).state = true := by
  unfold laneCheck at h
  split at h
  · exact absurd h (by decide)
  · next lane hl => exact ⟨lane, hl, Status.ofState_eq_ok h⟩

theorem onLaneOf_some {f : Lane → State → State} {p : List Byte} {lane : Lane} (h : laneOf p = some lane)
    (s : State) : onLaneOf f p s = f lane s := by
  simp only [onLaneOf, h]

/-! ### The effect of every command but a sample packet -/

theorem sound_evaluate (s : State) : Sound s s.evaluate := (within_evaluate s).sound

/-- A row with a condition: what it does, or nothing. -/
theorem sound_if (p : Prop) [Decidable p] {s t : State} (h : Sound s t) : Sound s (if p then t else s) := by
  split
  · exact h
  · exact .refl s

theorem sound_closesFilling (s : State) : Sound s s.closeFilling.evaluate :=
  ((within_closeFilling s).trans (within_evaluate _)).sound

theorem sound_faultLane (s : State) (lane : Lane) (c : FaultCause) : Sound s (s.faultLane lane c).evaluate :=
  ((within_faultLane s lane c).trans (within_evaluate _)).sound

theorem sound_enterParking (s : State) (lane : Lane) : Sound s (s.enterParking lane).evaluate :=
  ((within_enterParking s lane).trans (within_evaluate _)).sound

theorem sound_responseTimeout (lane : Lane) (s : State) :
    Sound s (if (s.lane lane).timer.isSome then
        if (s.lane lane).state = .busy then (s.writeTimeout lane).evaluate
        else if (s.lane lane).state = .parking then (s.faultLane lane .timeout).evaluate
        else s
      else s) := by
  split
  · split
    · exact ((within_writeTimeout s lane).trans (within_evaluate _)).sound
    · exact sound_if _ (sound_faultLane s lane _)
  · exact .refl s

theorem sound_archiveFrame (lane : Lane) (bytes : List Byte) {s t : State}
    (h : exec (.archiveFrameDiscarded lane bytes) s = .next t) : Sound s t := by
  obtain rfl := Host.Outcome.next.inj h
  split
  · exact .refl s
  · exact sound_onHelloReply s lane _ _
  · exact (within_onAck s lane _).sound
  · exact (within_onRetry s lane _).sound
  · exact (within_onFault s lane _).sound
  · exact (within_onParked s lane _).sound
  · exact (within_onAwake s lane _).sound
  · exact sound_takeAttention s lane

/-- A command without effect (R172). -/
theorem sound_report (c : Command) (h : c.effect = noEffect) (s : State) : Sound s (c.take s) :=
  sound_take c (fun p _ _ _ => h ▸ sound_noEffect p _) s

/-- A command whose effect needs no condition to keep what every command keeps. -/
theorem sound_takeAlways (c : Command) (h : ∀ p s, Sound s (c.effect p s)) (s : State) : Sound s (c.take s) :=
  sound_take c (fun p _ _ _ => h p _) s

theorem sound_armTake (s : State) : Sound s (armCommand.take s) :=
  sound_take _ (fun p s f hk => sound_armEffect p (s.popFrame.queueOut f) (idle_of_armCheck hk)) s

theorem sound_clearAttention (lane : Lane) (s : State) :
    Sound s (s.onLane lane fun a => { a with attentionSeen := false }) :=
  sound_onLane s lane _

/-- Every command but a sample packet keeps the laws of a run, the bounds of the port and the queue, and leaves
spool memory as it stands. -/
theorem exec_sound {c : Instr} (hc : ∀ src xs, c ≠ .samplePacket src xs) (s : State) :
    ∃ t, exec c s = .next t ∧ Sound s t := by
  cases c with
  | powerOn => exact ⟨_, rfl, sound_partReset s⟩
  | commandFrame bytes => exact ⟨_, rfl, sound_bytesIn s bytes⟩
  | chipSelectRelease => exact ⟨_, rfl, (sound_rewind s).trans (sound_cutOff _)⟩
  | frameLeavesQueue => exact ⟨_, rfl, sound_frameOut s⟩
  | identify => exact ⟨_, rfl, sound_report identifyCommand rfl s⟩
  | resetPart => exact ⟨_, rfl, sound_takeAlways resetCommand sound_resetEffect s⟩
  | armRun => exact ⟨_, rfl, sound_armTake s⟩
  | stopRun => exact ⟨_, rfl, sound_takeAlways stopCommand sound_stopEffect s⟩
  | abortRun => exact ⟨_, rfl, sound_takeAlways abortCommand (fun _ => sound_abortRun) s⟩
  | readRun => exact ⟨_, rfl, sound_report readRunCommand rfl s⟩
  | mark => exact ⟨_, rfl, sound_takeAlways markCommand (fun _ s => sound_forSources _ s (sound_markSource _)) s⟩
  | setSource => exact ⟨_, rfl, sound_takeAlways setSourceCommand sound_setSourceEffect s⟩
  | readSource => exact ⟨_, rfl, sound_report readSourceCommand rfl s⟩
  | setSpool => exact ⟨_, rfl, sound_takeAlways setSpoolCommand sound_setSpoolEffect s⟩
  | readSpool => exact ⟨_, rfl, sound_report readSpoolCommand rfl s⟩
  | readSpan => exact ⟨_, rfl, sound_report readSpanCommand rfl s⟩
  | readQueue => exact ⟨_, rfl, sound_report readQueueCommand rfl s⟩
  | readPair => exact ⟨_, rfl, sound_report readPairCommand rfl s⟩
  | setLane => exact ⟨_, rfl, sound_takeAlways setLaneCommand sound_setLaneEffect s⟩
  | laneReset => exact ⟨_, rfl, sound_takeAlways laneResetCommand (sound_onLaneOf _ sound_laneReset) s⟩
  | laneOffline => exact ⟨_, rfl, sound_takeAlways laneOfflineCommand (sound_onLaneOf _ sound_laneOffline) s⟩
  | lanePause =>
    exact ⟨_, rfl, sound_takeAlways lanePauseCommand (sound_onLaneOf _ fun l s => (within_lanePause l s).sound) s⟩
  | laneResume =>
    exact ⟨_, rfl, sound_takeAlways laneResumeCommand (sound_onLaneOf _ fun l s => (within_laneResume l s).sound) s⟩
  | lanePark =>
    exact ⟨_, rfl, sound_takeAlways laneParkCommand (sound_onLaneOf _ fun l s => (within_lanePark l s).sound) s⟩
  | laneWake =>
    exact ⟨_, rfl, sound_takeAlways laneWakeCommand (sound_onLaneOf _ fun l s => (within_laneWake l s).sound) s⟩
  | readLane => exact ⟨_, rfl, sound_takeAlways readLaneCommand (sound_onLaneOf _ sound_clearAttention) s⟩
  | setCheckpoint => exact ⟨_, rfl, sound_takeAlways setCheckpointCommand sound_setCheckpointEffect s⟩
  | checkpointNow => exact ⟨_, rfl, sound_takeAlways checkpointNowCommand (fun _ => sound_closesFilling) s⟩
  | readIndex => exact ⟨_, rfl, sound_report readIndexCommand rfl s⟩
  | setNotices => exact ⟨_, rfl, sound_takeAlways setNoticesCommand sound_setNoticesEffect s⟩
  | readNotices => exact ⟨_, rfl, sound_report readNoticesCommand rfl s⟩
  | clearNotices => exact ⟨_, rfl, sound_takeAlways clearNoticesCommand sound_clearNoticesEffect s⟩
  | samplePacket src xs => exact absurd rfl (hc src xs)
  | triggerTag mask => exact ⟨_, rfl, sound_forSources _ s (sound_tagSource _)⟩
  | epochMark epoch => exact ⟨_, rfl, sound_takeEpoch s epoch⟩
  | helloReply lane tag maxBurst capacity attention => exact ⟨_, rfl, sound_onHelloReply s lane tag _⟩
  | helloTimeout lane => exact ⟨_, rfl, sound_if _ (sound_faultLane s lane _)⟩
  | ack lane tag => exact ⟨_, rfl, (within_onAck s lane tag).sound⟩
  | retry lane tag => exact ⟨_, rfl, (within_onRetry s lane tag).sound⟩
  | moduleFault lane tag => exact ⟨_, rfl, (within_onFault s lane tag).sound⟩
  | responseTimeout lane => exact ⟨_, rfl, sound_responseTimeout lane s⟩
  | parkDelayExpiry lane => exact ⟨_, rfl, sound_if _ (sound_enterParking s lane)⟩
  | parkedReply lane tag => exact ⟨_, rfl, (within_onParked s lane tag).sound⟩
  | awake lane tag => exact ⟨_, rfl, (within_onAwake s lane tag).sound⟩
  | wakeTimeout lane => exact ⟨_, rfl, sound_if _ (sound_faultLane s lane _)⟩
  | attention lane => exact ⟨_, rfl, sound_takeAttention s lane⟩
  | archiveFrameDiscarded lane bytes => exact ⟨_, rfl, sound_archiveFrame lane bytes rfl⟩
  | checkpointLockOn => exact ⟨_, rfl, sound_if _ (sound_setIu s _ rfl rfl rfl)⟩
  | checkpointExpiry => exact ⟨_, rfl, sound_if _ (sound_checkpointExpired s)⟩
  | stopDeadlineExpiry => exact ⟨_, rfl, sound_if _ (sound_deadlineExpired s)⟩
  | badCode => exact ⟨_, rfl, sound_takeBadCode s⟩

/-! ### Every command -/

theorem exec_samplePacket (src : Source) (xs : List Sample) (s : State) :
    exec (.samplePacket src xs) s = .next (s.takePacket src xs).evaluate := rfl

/-- What every command keeps: the laws of a run, the bounds of the port, the canonical form of spool memory and
the queue. -/
structure Keeps (s t : State) : Prop where
  law : RunLaw s → RunLaw t
  mem : MemOk s → MemOk t
  link : LinkOk s.clp → LinkOk t.clp
  pending : t.pending = s.pending

theorem Sound.keeps {s t : State} (h : Sound s t) : Keeps s t where
  law := h.law
  mem := fun hs => by unfold MemOk; rw [h.mem]; exact hs
  link := h.link
  pending := h.pending

theorem Around.keeps {s t : State} (h : Around s t) : Keeps s t where
  law := h.law
  mem := h.mem
  link := fun hs => hs.held h.held
  pending := h.held.pending

theorem keeps_samplePacket (src : Source) (xs : List Sample) (s : State) :
    Keeps s (s.takePacket src xs).evaluate :=
  ((around_takePacket s src xs).trans (within_evaluate _).around).keeps

theorem exec_keeps (c : Instr) (s : State) : ∃ t, exec c s = .next t ∧ Keeps s t := by
  by_cases hc : ∃ src xs, c = .samplePacket src xs
  · obtain ⟨src, xs, rfl⟩ := hc
    exact ⟨_, exec_samplePacket src xs s, keeps_samplePacket src xs s⟩
  · obtain ⟨t, ht, hk⟩ := exec_sound (fun src xs h => hc ⟨src, xs, h⟩) s
    exact ⟨t, ht, hk.keeps⟩

theorem keeps_of_exec {c : Instr} {s t : State} (h : exec c s = .next t) : Keeps s t := by
  obtain ⟨u, hu, hk⟩ := exec_keeps c s
  obtain rfl := Host.Outcome.next.inj (hu.symm.trans h)
  exact hk

/-! ### A step -/

theorem step_of_empty {s : State} (h : s.pending = []) : step s = .next s.tick := by
  unfold step
  rw [h]

theorem step_of_cons {c : Instr} {rest : List Instr} {s : State} (h : s.pending = c :: rest) :
    step s = exec c (s.withPending rest) := by
  unfold step
  rw [h]

/-- A step is the passing of a millisecond, or the command at the front of the queue. -/
theorem step_cases {s t : State} (h : step s = .next t) :
    (s.pending = [] ∧ t = s.tick) ∨
      ∃ c rest, s.pending = c :: rest ∧ exec c (s.withPending rest) = .next t := by
  cases hp : s.pending with
  | nil => exact .inl ⟨rfl, Host.Outcome.next.inj (h.symm.trans (step_of_empty hp))⟩
  | cons c rest => exact .inr ⟨c, rest, rfl, (step_of_cons hp).symm.trans h⟩

theorem runLaw_withPending {s : State} (h : RunLaw s) (cs : List Instr) : RunLaw (s.withPending cs) :=
  h.congr rfl rfl (fun _ h => h) rfl id

theorem offering_withPending (s : State) (cs : List Instr) : Offering s (s.withPending cs) :=
  offering_same rfl rfl

theorem windowed_withPending (s : State) (cs : List Instr) : Windowed s (s.withPending cs) :=
  windowed_congr rfl rfl rfl fun _ => rfl

theorem runLaw_tick {s : State} (h : RunLaw s) : RunLaw s.tick where
  table := h.table
  queues := h.queues
  index := h.index.congr rfl rfl
  count := h.count
  intake := h.intake
  free := h.free
  ends := h.ends

end Sys2Proof.Machine

/-! The laws of the archive windows and of the waiting offers over every command, and the statements about every step. -/

namespace Sys2Proof.Machine

/-! ### The archive windows: what every command keeps (R137) -/

theorem windowed_if (p : Prop) [Decidable p] {s t : State} (h : p → Windowed s t) :
    Windowed s (if p then t else s) := by
  split
  · next hp => exact h hp
  · exact .refl s

/-- A command without effect (R172). -/
theorem windowed_report (c : Command) (h : c.effect = noEffect) {s : State} (hr : RunLaw s) :
    Windowed s (c.take s) :=
  windowed_take c (fun _ _ _ _ _ => h ▸ .refl _) hr

/-- A command whose effect needs no condition to keep the law. -/
theorem windowed_takeAlways (c : Command) (h : ∀ p s, Windowed s (c.effect p s)) {s : State} (hr : RunLaw s) :
    Windowed s (c.take s) :=
  windowed_take c (fun p _ _ _ _ => h p _) hr

/-- A command of one lane, whose effect keeps the law in the lane states that its rule allows. -/
theorem windowed_laneTake (c : Command) {allowed : LaneState → Bool} {f : Lane → State → State}
    (hc : c.check = laneCheck allowed) (h : ∀ l s, allowed (s.al.get l).state = true → Windowed s (f l s))
    (he : c.effect = onLaneOf f) {s : State} (hr : RunLaw s) : Windowed s (c.take s) :=
  windowed_take c (fun p s g _ hk => by
    obtain ⟨l, hl, hst⟩ := laneCheck_eq_ok (hc ▸ hk)
    rw [he, onLaneOf_some hl]
    exact h l (s.popFrame.queueOut g) hst) hr

theorem windowed_setLaneTake {s : State} (hr : RunLaw s) : Windowed s (setLaneCommand.take s) :=
  windowed_take _ (fun p s f _ hk => by
    obtain ⟨hlane, hfields⟩ := Status.andThen_eq_ok hk
    obtain ⟨l, hl, hst⟩ := laneCheck_eq_ok hlane
    cases ho : decodeLane p with
    | none =>
      rw [ho] at hfields
      exact absurd hfields (by decide)
    | some o =>
      have heffect : setLaneCommand.effect p (s.popFrame.queueOut f) = (s.popFrame.queueOut f).setLane l o := by
        simp only [setLaneCommand, setLaneEffect, hl, ho]
      rw [heffect]
      exact windowed_setLane hst (decodeLane_cursors ho)) hr

theorem windowed_setSourceTake {s : State} (hr : RunLaw s) : Windowed s (setSourceCommand.take s) :=
  windowed_take _ (fun p s f hr hk => windowed_setSourceEffect (s := s.popFrame.queueOut f)
    (hr.free (by rw [idle_of_setSourceCheck hk]; rfl)) p) hr

theorem windowed_clearAttention (l : Lane) (s : State) :
    Windowed s (s.onLane l fun a => { a with attentionSeen := false }) :=
  windowed_onLane s l ⟨rfl, rfl, rfl, rfl, rfl⟩ rfl rfl rfl

theorem windowed_responseTimeout (l : Lane) (s : State) :
    Windowed s (if (s.lane l).timer.isSome then
        if (s.lane l).state = .busy then (s.writeTimeout l).evaluate
        else if (s.lane l).state = .parking then (s.faultLane l .timeout).evaluate
        else s
      else s) := by
  refine windowed_if _ fun ht => ?_
  split
  · exact windowed_writeTimeout ht
  · next hst => exact windowed_if _ fun _ => windowed_faultLane hst _

theorem windowed_archiveFrame (lane : Lane) (bytes : List Byte) {s t : State}
    (h : exec (.archiveFrameDiscarded lane bytes) s = .next t) : Windowed s t := by
  obtain rfl := Host.Outcome.next.inj h
  split
  · exact .refl s
  · exact windowed_onHelloReply s lane _ _
  · exact windowed_onAck s lane _
  · exact windowed_onRetry s lane _
  · exact windowed_onFault s lane _
  · exact windowed_onParked s lane _
  · exact windowed_onAwake s lane _
  · exact windowed_takeAttention s lane

theorem busy_of_eq {a : LaneUnit} {st : LaneState} (h : a.state = st) (hst : (st == .busy) = false) :
    a.state ≠ .busy := fun hb => by
  rw [← h, hb] at hst
  exact absurd hst (by decide)

theorem windowed_takeBadCode (s : State) : Windowed s s.takeBadCode := by
  unfold State.takeBadCode
  split
  · exact .refl s
  · exact windowed_if _ fun _ => windowed_setClp s _

/-- Every command keeps the law of the archive windows. -/
theorem exec_windowed (c : Instr) {s : State} (hr : RunLaw s) : ∃ t, exec c s = .next t ∧ Windowed s t := by
  cases c with
  | powerOn => exact ⟨_, rfl, windowed_partReset s⟩
  | commandFrame bytes => exact ⟨_, rfl, windowed_bytesIn s bytes⟩
  | chipSelectRelease => exact ⟨_, rfl, windowed_cutOff s⟩
  | frameLeavesQueue => exact ⟨_, rfl, windowed_frameOut s⟩
  | identify => exact ⟨_, rfl, windowed_report identifyCommand rfl hr⟩
  | resetPart => exact ⟨_, rfl, windowed_takeAlways resetCommand (fun _ s => windowed_setClp s _) hr⟩
  | armRun => exact ⟨_, rfl, windowed_takeAlways armCommand windowed_armEffect hr⟩
  | stopRun => exact ⟨_, rfl, windowed_takeAlways stopCommand windowed_stopEffect hr⟩
  | abortRun => exact ⟨_, rfl, windowed_takeAlways abortCommand (fun _ => windowed_abortRun) hr⟩
  | readRun => exact ⟨_, rfl, windowed_report readRunCommand rfl hr⟩
  | mark => exact ⟨_, rfl, windowed_takeAlways markCommand windowed_markEffect hr⟩
  | setSource => exact ⟨_, rfl, windowed_setSourceTake hr⟩
  | readSource => exact ⟨_, rfl, windowed_report readSourceCommand rfl hr⟩
  | setSpool => exact ⟨_, rfl, windowed_takeAlways setSpoolCommand windowed_setSpoolEffect hr⟩
  | readSpool => exact ⟨_, rfl, windowed_report readSpoolCommand rfl hr⟩
  | readSpan => exact ⟨_, rfl, windowed_report readSpanCommand rfl hr⟩
  | readQueue => exact ⟨_, rfl, windowed_report readQueueCommand rfl hr⟩
  | readPair => exact ⟨_, rfl, windowed_report readPairCommand rfl hr⟩
  | setLane => exact ⟨_, rfl, windowed_setLaneTake hr⟩
  | laneReset =>
    exact ⟨_, rfl, windowed_laneTake laneResetCommand (allowed := fun st => st != .down) rfl
       (fun l s _ => windowed_laneReset l s) rfl hr⟩
  | laneOffline =>
    exact ⟨_, rfl, windowed_laneTake laneOfflineCommand (allowed := fun _ => true) rfl
       (fun l s _ => windowed_laneOffline l s) rfl hr⟩
  | lanePause =>
    exact ⟨_, rfl, windowed_laneTake lanePauseCommand (allowed := fun st => st == .ready || st == .busy) rfl
       (fun l s _ => windowed_lanePause l s) rfl hr⟩
  | laneResume =>
    exact ⟨_, rfl, windowed_laneTake laneResumeCommand (allowed := fun st => st == .paused) rfl
       (fun _ _ hst => windowed_laneResume (eq_of_beq hst)) rfl hr⟩
  | lanePark =>
    exact ⟨_, rfl, windowed_laneTake laneParkCommand (allowed := fun st => st == .ready || st == .busy || st == .parking || st == .parked) rfl
       (fun l s _ => windowed_lanePark l s) rfl hr⟩
  | laneWake =>
    exact ⟨_, rfl, windowed_laneTake laneWakeCommand (allowed := fun st => st == .parked || st == .parking || st == .waking || st == .ready || st == .busy) rfl
       (fun l s _ => windowed_laneWake l s) rfl hr⟩
  | readLane =>
    exact ⟨_, rfl, windowed_laneTake readLaneCommand (allowed := fun _ => true) rfl
       (fun l s _ => windowed_clearAttention l s) rfl hr⟩
  | setCheckpoint => exact ⟨_, rfl, windowed_takeAlways setCheckpointCommand windowed_setCheckpointEffect hr⟩
  | checkpointNow =>
    exact ⟨_, rfl, windowed_takeAlways checkpointNowCommand
      (fun _ s => (windowed_closeFilling s).trans (windowed_evaluate _)) hr⟩
  | readIndex => exact ⟨_, rfl, windowed_report readIndexCommand rfl hr⟩
  | setNotices => exact ⟨_, rfl, windowed_takeAlways setNoticesCommand windowed_setNoticesEffect hr⟩
  | readNotices => exact ⟨_, rfl, windowed_report readNoticesCommand rfl hr⟩
  | clearNotices => exact ⟨_, rfl, windowed_takeAlways clearNoticesCommand windowed_clearNoticesEffect hr⟩
  | samplePacket src xs => exact ⟨_, rfl, (windowed_takePacket hr src xs).trans (windowed_evaluate _)⟩
  | triggerTag mask => exact ⟨_, rfl, windowed_tagSources _ s⟩
  | epochMark epoch => exact ⟨_, rfl, windowed_takeEpoch s epoch⟩
  | helloReply lane tag maxBurst capacity attention => exact ⟨_, rfl, windowed_onHelloReply s lane tag _⟩
  | helloTimeout lane =>
    exact ⟨_, rfl, windowed_if _ fun h => windowed_faultLane (busy_of_eq h.1 rfl) _⟩
  | ack lane tag => exact ⟨_, rfl, windowed_onAck s lane tag⟩
  | retry lane tag => exact ⟨_, rfl, windowed_onRetry s lane tag⟩
  | moduleFault lane tag => exact ⟨_, rfl, windowed_onFault s lane tag⟩
  | responseTimeout lane => exact ⟨_, rfl, windowed_responseTimeout lane s⟩
  | parkDelayExpiry lane =>
    exact ⟨_, rfl, windowed_if _ fun h => windowed_enterParking (busy_of_eq h.1 rfl)⟩
  | parkedReply lane tag => exact ⟨_, rfl, windowed_onParked s lane tag⟩
  | awake lane tag => exact ⟨_, rfl, windowed_onAwake s lane tag⟩
  | wakeTimeout lane =>
    exact ⟨_, rfl, windowed_if _ fun h => windowed_faultLane (busy_of_eq h.1 rfl) _⟩
  | attention lane => exact ⟨_, rfl, windowed_takeAttention s lane⟩
  | archiveFrameDiscarded lane bytes => exact ⟨_, rfl, windowed_archiveFrame lane bytes rfl⟩
  | checkpointLockOn => exact ⟨_, rfl, windowed_if _ fun _ => windowed_setIu s _⟩
  | checkpointExpiry => exact ⟨_, rfl, windowed_if _ fun _ => windowed_checkpointExpired s⟩
  | stopDeadlineExpiry => exact ⟨_, rfl, windowed_if _ fun _ => windowed_deadlineExpired s⟩
  | badCode => exact ⟨_, rfl, windowed_takeBadCode s⟩

/-! ### The law of the waiting offers: what every command keeps (R159, R163) -/

theorem offering_if (p : Prop) [Decidable p] {s t : State} (h : Offering s t) :
    Offering s (if p then t else s) := by
  split
  · exact h
  · exact .refl s

/-- A command without effect (R172). -/
theorem offering_report (c : Command) (h : c.effect = noEffect) (s : State) : Offering s (c.take s) :=
  offering_take c (fun _ _ => h ▸ .refl _) s

theorem offering_faultsLane (s : State) (lane : Lane) (c : FaultCause) :
    Offering s (s.faultLane lane c).evaluate :=
  (offering_faultLane s lane c).trans (offering_evaluate _)

theorem offering_responseTimeout (lane : Lane) (s : State) :
    Offering s (if (s.lane lane).timer.isSome then
        if (s.lane lane).state = .busy then (s.writeTimeout lane).evaluate
        else if (s.lane lane).state = .parking then (s.faultLane lane .timeout).evaluate
        else s
      else s) := by
  refine offering_if _ ?_
  split
  · exact (offering_writeTimeout s lane).trans (offering_evaluate _)
  · exact offering_if _ (offering_faultsLane s lane _)

theorem offering_archiveFrame (lane : Lane) (bytes : List Byte) {s t : State}
    (h : exec (.archiveFrameDiscarded lane bytes) s = .next t) : Offering s t := by
  obtain rfl := Host.Outcome.next.inj h
  split
  · exact .refl s
  · exact offering_onHelloReply s lane _ _
  · exact offering_onAck s lane _
  · exact offering_onRetry s lane _
  · exact offering_onFault s lane _
  · exact offering_onParked s lane _
  · exact offering_onAwake s lane _
  · exact offering_takeAttention s lane

theorem offering_takeBadCode (s : State) : Offering s s.takeBadCode := by
  unfold State.takeBadCode
  split
  · exact .refl s
  · exact offering_if _ (offering_setClp s _)

/-- Every command keeps the law of the waiting offers. -/
theorem exec_offering (c : Instr) (s : State) : ∃ t, exec c s = .next t ∧ Offering s t := by
  cases c with
  | powerOn => exact ⟨_, rfl, offering_partReset s⟩
  | commandFrame bytes => exact ⟨_, rfl, offering_bytesIn s bytes⟩
  | chipSelectRelease => exact ⟨_, rfl, offering_cutOff s⟩
  | frameLeavesQueue => exact ⟨_, rfl, offering_frameOut s⟩
  | identify => exact ⟨_, rfl, offering_report identifyCommand rfl s⟩
  | resetPart => exact ⟨_, rfl, offering_take resetCommand (fun _ s => offering_setClp s _) s⟩
  | armRun => exact ⟨_, rfl, offering_take armCommand offering_armEffect s⟩
  | stopRun => exact ⟨_, rfl, offering_take stopCommand offering_stopEffect s⟩
  | abortRun => exact ⟨_, rfl, offering_take abortCommand (fun _ => offering_abortRun) s⟩
  | readRun => exact ⟨_, rfl, offering_report readRunCommand rfl s⟩
  | mark => exact ⟨_, rfl, offering_take markCommand offering_markEffect s⟩
  | setSource => exact ⟨_, rfl, offering_take setSourceCommand offering_setSourceEffect s⟩
  | readSource => exact ⟨_, rfl, offering_report readSourceCommand rfl s⟩
  | setSpool => exact ⟨_, rfl, offering_take setSpoolCommand offering_setSpoolEffect s⟩
  | readSpool => exact ⟨_, rfl, offering_report readSpoolCommand rfl s⟩
  | readSpan => exact ⟨_, rfl, offering_report readSpanCommand rfl s⟩
  | readQueue => exact ⟨_, rfl, offering_report readQueueCommand rfl s⟩
  | readPair => exact ⟨_, rfl, offering_report readPairCommand rfl s⟩
  | setLane => exact ⟨_, rfl, offering_take setLaneCommand offering_setLaneEffect s⟩
  | laneReset => exact ⟨_, rfl, offering_take laneResetCommand (offering_onLaneOf _ offering_laneReset) s⟩
  | laneOffline => exact ⟨_, rfl, offering_take laneOfflineCommand (offering_onLaneOf _ offering_laneOffline) s⟩
  | lanePause => exact ⟨_, rfl, offering_take lanePauseCommand (offering_onLaneOf _ offering_lanePause) s⟩
  | laneResume => exact ⟨_, rfl, offering_take laneResumeCommand (offering_onLaneOf _ offering_laneResume) s⟩
  | lanePark => exact ⟨_, rfl, offering_take laneParkCommand (offering_onLaneOf _ offering_lanePark) s⟩
  | laneWake => exact ⟨_, rfl, offering_take laneWakeCommand (offering_onLaneOf _ offering_laneWake) s⟩
  | readLane =>
    exact ⟨_, rfl, offering_take readLaneCommand (offering_onLaneOf _ fun lane s => offering_onLane s lane _) s⟩
  | setCheckpoint => exact ⟨_, rfl, offering_take setCheckpointCommand offering_setCheckpointEffect s⟩
  | checkpointNow =>
    exact ⟨_, rfl, offering_take checkpointNowCommand
      (fun _ s => (offering_closeFilling s).trans (offering_evaluate _)) s⟩
  | readIndex => exact ⟨_, rfl, offering_report readIndexCommand rfl s⟩
  | setNotices => exact ⟨_, rfl, offering_take setNoticesCommand offering_setNoticesEffect s⟩
  | readNotices => exact ⟨_, rfl, offering_report readNoticesCommand rfl s⟩
  | clearNotices => exact ⟨_, rfl, offering_take clearNoticesCommand offering_clearNoticesEffect s⟩
  | samplePacket src xs => exact ⟨_, rfl, (offering_takePacket s src xs).trans (offering_evaluate _)⟩
  | triggerTag mask => exact ⟨_, rfl, offering_tagSources _ s⟩
  | epochMark epoch => exact ⟨_, rfl, offering_takeEpoch s epoch⟩
  | helloReply lane tag maxBurst capacity attention => exact ⟨_, rfl, offering_onHelloReply s lane tag _⟩
  | helloTimeout lane => exact ⟨_, rfl, offering_if _ (offering_faultsLane s lane _)⟩
  | ack lane tag => exact ⟨_, rfl, offering_onAck s lane tag⟩
  | retry lane tag => exact ⟨_, rfl, offering_onRetry s lane tag⟩
  | moduleFault lane tag => exact ⟨_, rfl, offering_onFault s lane tag⟩
  | responseTimeout lane => exact ⟨_, rfl, offering_responseTimeout lane s⟩
  | parkDelayExpiry lane =>
    exact ⟨_, rfl, offering_if _ ((offering_enterParking s lane).trans (offering_evaluate _))⟩
  | parkedReply lane tag => exact ⟨_, rfl, offering_onParked s lane tag⟩
  | awake lane tag => exact ⟨_, rfl, offering_onAwake s lane tag⟩
  | wakeTimeout lane => exact ⟨_, rfl, offering_if _ (offering_faultsLane s lane _)⟩
  | attention lane => exact ⟨_, rfl, offering_takeAttention s lane⟩
  | archiveFrameDiscarded lane bytes => exact ⟨_, rfl, offering_archiveFrame lane bytes rfl⟩
  | checkpointLockOn => exact ⟨_, rfl, offering_if _ (offering_congr rfl rfl rfl fun _ => rfl)⟩
  | checkpointExpiry => exact ⟨_, rfl, offering_if _ (offering_checkpointExpired s)⟩
  | stopDeadlineExpiry => exact ⟨_, rfl, offering_if _ (offering_deadlineExpired s)⟩
  | badCode => exact ⟨_, rfl, offering_takeBadCode s⟩

/-! ### Every step -/

theorem offering_of_exec {c : Instr} {s t : State} (h : exec c s = .next t) : Offering s t := by
  obtain ⟨u, hu, hk⟩ := exec_offering c s
  obtain rfl := Host.Outcome.next.inj (hu.symm.trans h)
  exact hk

theorem windowed_of_exec {c : Instr} {s t : State} (hr : RunLaw s) (h : exec c s = .next t) : Windowed s t := by
  obtain ⟨u, hu, hk⟩ := exec_windowed c hr
  obtain rfl := Host.Outcome.next.inj (hu.symm.trans h)
  exact hk

theorem runLaw_step {s t : State} (hs : RunLaw s) (h : step s = .next t) : RunLaw t := by
  obtain ⟨-, rfl⟩ | ⟨c, rest, -, he⟩ := step_cases h
  · exact runLaw_tick hs
  · exact (keeps_of_exec he).law (runLaw_withPending hs rest)

theorem offering_step {s t : State} (h : step s = .next t) : Offering s t := by
  obtain ⟨-, rfl⟩ | ⟨c, rest, -, he⟩ := step_cases h
  · exact offering_tick s
  · exact (offering_withPending s rest).trans (offering_of_exec he)

theorem windowLaw_step {s t : State} (hr : RunLaw s) (hw : WindowLaw s) (h : step s = .next t) : WindowLaw t := by
  obtain ⟨-, rfl⟩ | ⟨c, rest, -, he⟩ := step_cases h
  · exact (windowed_tick s).law hw
  · exact (windowed_of_exec (runLaw_withPending hr rest) he).law ((windowed_withPending s rest).law hw)

/-! ### The statements about every step -/

/-- Settles O5: each command's effect keeps the laws of a run and that of the waiting offers, and so does the
passing of a millisecond. -/
theorem everyStepKeepsTheRunLaws : Obligations.EveryStepKeepsTheRunLaws := fun _ _ hs h =>
  ⟨runLaw_step hs h, (offering_step h).law⟩

/-- Settles O6: the effects inside a step queue notices and replies only where there is room, and the bytes
clocked out never reach the last one of a frame. -/
theorem everyStepKeepsThePortBounds : Obligations.EveryStepKeepsThePortBounds := by
  intro s t hs h
  obtain ⟨-, rfl⟩ | ⟨c, rest, -, he⟩ := step_cases h
  · exact hs
  · exact (keeps_of_exec he).link hs

/-- Settles O7: the writes of a sample packet keep the canonical form, and nothing else writes. -/
theorem everyStepKeepsMemoryCanonical : Obligations.EveryStepKeepsMemoryCanonical := by
  intro s t hs h
  obtain ⟨-, rfl⟩ | ⟨c, rest, -, he⟩ := step_cases h
  · exact hs
  · exact (keeps_of_exec he).mem hs

/-- Settles O8: every command but a sample packet leaves spool memory as it stands. -/
theorem onlySamplesWriteMemory : Obligations.OnlySamplesWriteMemory := by
  intro c s t hc h a
  obtain ⟨u, hu, hk⟩ := exec_sound hc s
  obtain rfl := Host.Outcome.next.inj (hu.symm.trans h)
  rw [hk.mem]

/-- Settles O1. -/
theorem stepTakesTheFrontCommand : Obligations.StepTakesTheFrontCommand := fun _ _ _ => step_of_cons

/-- Settles O2: the tick counts down each running timer. -/
theorem idleStepLetsAMillisecondPass : Obligations.IdleStepLetsAMillisecondPass := fun _ h => step_of_empty h

/-- Settles O3: every command answers a next state and leaves the queue that it found. -/
theorem everyCommandCompletesInOrder : Obligations.EveryCommandCompletesInOrder := by
  intro c rest s h
  obtain ⟨t, ht, hk⟩ := exec_keeps c (s.withPending rest)
  exact ⟨t, (step_of_cons h).trans ht, hk.pending⟩

/-- Settles O4: the laws hold of the reset state. -/
theorem lawsHoldAtReset : Obligations.LawsHoldAtReset := by
  have mem : MemOk State.reset := rfl
  exact ⟨runLaw_reset, offerLaw_reset, windowLaw_reset, linkOk_reset, mem⟩

/-! ### The start of a span write job (R138, R140) -/

/-- The job that a lane starts for a span: one block for the header and the data blocks are reserved at the data
cursor, and the record is copied (R140). -/
def State.startedJob (s : State) (l : Lane) (slot : Nat) (r : Word16) (q : Word32) : SpanJob :=
  { waitingJob slot r q with
    started := true
    first := (s.al.get l).dataCursor
    reserved := 1 + dataBlocks (((s.span? slot).map Span.count).getD 0)
    next := (s.al.get l).dataCursor + 1
    record := s.span? slot }

/-- The lane with a job's blocks reserved (R138, R140). -/
def LaneUnit.reserves (a : LaneUnit) (j : SpanJob) : LaneUnit :=
  { a with state := .busy, job := some (.span j), dataCursor := a.dataCursor + j.reserved }.evaluated

/-- A job's start reserves its blocks, takes the lane's claim away and sends the first burst. -/
theorem startSpanJob_eq (s : State) (l : Lane) (slot : Nat) (r : Word16) (q : Word32) :
    s.startSpanJob l slot r q =
      ((s.moveCursors l fun a =>
        { a with
          state := .busy, job := some (.span (s.startedJob l slot r q))
          dataCursor := (s.al.get l).dataCursor + (s.startedJob l slot r q).reserved }).setClaim l none).sendBurst l
        (s.startedJob l slot r q) := rfl

theorem get_startSpanJob (s : State) (l : Lane) (slot : Nat) (r : Word16) (q : Word32) :
    (s.startSpanJob l slot r q).al.get l =
      { (s.al.get l).reserves (s.startedJob l slot r q) with
        burstTag := (s.al.get l).burstTag + 1, timer := some (s.al.get l).settings.responseTime } := by
  have claimed (t : State) : (t.setClaim l none).al = t.al := rfl
  rw [startSpanJob_eq, State.sendBurst, get_sendAwaiting, State.lane_eq, claimed, get_moveCursors]
  rfl

theorem claim_startSpanJob (s : State) (l : Lane) (slot : Nat) (r : Word16) (q : Word32) :
    (s.startSpanJob l slot r q).ds.claim.get l = none := by
  rw [startSpanJob_eq, State.sendBurst, ds_sendAwaiting]
  exact PerLane.get_set_self _ _ _

/-- On a lane that is not data-full the largest span leaves the index reserve free (R138). -/
theorem reserve_of_not_dataFull {a : LaneUnit} {count : Nat} (room : a.isDataFull = false)
    (short : count ≤ 2 ^ 23) :
    ((a.dataCursor + 1 + (count + 2047) / 2048 : Nat) : Int) + a.settings.reserve ≤ a.indexCursor + 1 := by
  have free := of_decide_eq_false room
  unfold LaneUnit.free Config.largestSpanBlocks at free
  push_cast at free ⊢
  omega

/-- Settles O54: every command's effect keeps the law of the archive windows, and a job's start reserves at the
data cursor what the test of data-full leaves room for. -/
theorem reservationStaysInTheWindow : Obligations.ReservationStaysInTheWindow := by
  refine ⟨fun s t hr hw h => windowLaw_step hr hw h, ?_⟩
  intro s lane slot r q sp hspan short room a u
  have blocks : (s.startedJob lane slot r q).reserved = 1 + (sp.count + 2047) / 2048 := by
    simp only [State.startedJob, hspan]
    rfl
  have cursor : (u.lane lane).dataCursor = a.dataCursor + 1 + (sp.count + 2047) / 2048 := by
    rw [State.lane_eq, get_startSpanJob, Nat.add_assoc, ← blocks]
    rfl
  refine ⟨cursor, ?_, ?_, ?_, (moves_startSpanJob s lane slot r q).al _ (Lane.other_ne lane),
    claim_startSpanJob s lane slot r q⟩
  · rw [State.lane_eq, get_startSpanJob]
    rfl
  · rw [State.lane_eq, get_startSpanJob]
    rfl
  · rw [cursor]
    exact reserve_of_not_dataFull room short

end Sys2Proof.Machine

/-! The control link: the bytes clocked in and out, whole and bad frames, frames that leave, flags and notices, and
the reset (R170, R171, R173, R177). -/

namespace Sys2Proof.Machine

/-! ### The bytes out (R171) -/

theorem byteOut_of_empty {s : State} (h : s.clp.out = []) : s.byteOut = s.clockOut [Config.idleByte] := by
  unfold State.byteOut
  rw [h]

theorem byteOut_of_frame {s : State} {f : OutFrame} {rest : List OutFrame} (h : s.clp.out = f :: rest) :
    s.byteOut =
      if s.clp.outPos + 1 < f.bytes.length then
        (s.clockOut [f.bytes.getD s.clp.outPos 0]).setOutPos (s.clp.outPos + 1)
      else s := by
  unfold State.byteOut
  rw [h]

/-- What of the oldest frame may be clocked out beside bytes clocked in: what is left of it, short of its last byte
(log 24). -/
def LinkPort.spare (c : LinkPort) (f : OutFrame) : List Byte := (f.bytes.drop c.outPos).dropLast

theorem clocksOut_of_empty {s : State} (h : s.clp.out = []) (n : Nat) :
    s.clocksOut n = s.setClocked (s.clocked ++ List.replicate n 0xFF) := by
  unfold State.clocksOut
  rw [h]

theorem clocksOut_of_frame {s : State} {f : OutFrame} {rest : List OutFrame} (h : s.clp.out = f :: rest) (n : Nat) :
    s.clocksOut n =
      (s.setClocked (s.clocked ++ (s.clp.spare f).take n)).setClp
        { s.clp with outPos := s.clp.outPos + ((s.clp.spare f).take n).length } := by
  unfold State.clocksOut
  rw [h]
  rfl

theorem clocksOut_zero (s : State) : s.clocksOut 0 = s := by
  cases h : s.clp.out with
  | nil =>
    rw [clocksOut_of_empty h, List.replicate_zero, List.append_nil]
    rfl
  | cons f rest =>
    rw [clocksOut_of_frame h, List.take_zero, List.append_nil]
    rfl

/-- One byte more is the byte clocked out next. -/
theorem clocksOut_succ (s : State) (n : Nat) : s.clocksOut (n + 1) = (s.clocksOut n).byteOut := by
  cases h : s.clp.out with
  | nil =>
    have hn : (s.setClocked (s.clocked ++ List.replicate n 0xFF)).clp.out = [] := h
    rw [clocksOut_of_empty h, clocksOut_of_empty h, byteOut_of_empty hn, List.replicate_succ', ← List.append_assoc]
    rfl
  | cons f rest =>
    have spare : (s.clp.spare f).length = f.bytes.length - s.clp.outPos - 1 := by
      simp only [LinkPort.spare, List.length_dropLast, List.length_drop]
    rw [clocksOut_of_frame h, clocksOut_of_frame h, byteOut_of_frame (f := f) (rest := rest) (by exact h)]
    simp only [State.setClp_clp, List.length_take, spare]
    split
    · next more =>
      have room : n < (s.clp.spare f).length := by omega
      have place : min n (f.bytes.length - s.clp.outPos - 1) = n := by omega
      have byte : (s.clp.spare f)[n] = f.bytes.getD (s.clp.outPos + n) 0 := by
        have : s.clp.outPos + n < f.bytes.length := by omega
        simp [LinkPort.spare, List.getElem_dropLast, this]
      rw [List.take_succ_eq_append_getElem room, byte, place, ← List.append_assoc,
        show min (n + 1) (f.bytes.length - s.clp.outPos - 1) = n + 1 by omega]
      rfl
    · next done =>
      have all : (s.clp.spare f).length ≤ n := by omega
      rw [List.take_of_length_le all, List.take_of_length_le (by omega),
        show min (n + 1) (f.bytes.length - s.clp.outPos - 1) = min n (f.bytes.length - s.clp.outPos - 1) by omega]

/-- Bytes clocked out leave the receive side of the port as it stands. -/
theorem byteOut_setRxPart (s : State) (p : List Byte) : (s.setRxPart p).byteOut = s.byteOut.setRxPart p := by
  unfold State.byteOut State.setRxPart
  rw [State.setClp_clp]
  cases s.clp.out with
  | nil => rfl
  | cons f rest =>
    dsimp only
    split <;> rfl

theorem byteOut_rx (s : State) : s.byteOut.clp.rxPart = s.clp.rxPart ∧ s.byteOut.clp.rx = s.clp.rx := by
  unfold State.byteOut
  split
  · exact ⟨rfl, rfl⟩
  · split <;> exact ⟨rfl, rfl⟩

theorem clocksOut_rx (s : State) (n : Nat) :
    (s.clocksOut n).clp.rxPart = s.clp.rxPart ∧ (s.clocksOut n).clp.rx = s.clp.rx := by
  induction n with
  | zero => rw [clocksOut_zero]; exact ⟨rfl, rfl⟩
  | succ n ih => rw [clocksOut_succ, (byteOut_rx _).1, (byteOut_rx _).2]; exact ih

/-! ### The bytes in (R170) -/

theorem bytesIn_concat (s : State) (p : List Byte) (b : Byte) :
    s.bytesIn (p ++ [b]) = (s.bytesIn p).exchange b := by
  simp only [State.bytesIn, List.foldl_append, List.foldl_cons, List.foldl_nil]

theorem byteAt_cons_zero (b : Byte) (p : List Byte) : byteAt (b :: p) 0 = b.toNat := by
  simp [byteAt, field, fromLE]

/-- The first byte of a frame is the start byte, so the bytes so far of one are taken up (R170). -/
theorem byteIn_of_start {s : State} {b : Byte} (h : byteAt (s.clp.rxPart ++ [b]) 0 = 0xA5) :
    s.byteIn b = s.assemble (s.clp.rxPart ++ [b]) := by
  have start : ¬ (s.clp.rxPart = [] ∧ b ≠ 0xA5) := by
    rintro ⟨hp, hb⟩
    rw [hp, List.nil_append, byteAt_cons_zero] at h
    exact hb (BitVec.eq_of_toNat_eq h)
  rw [State.byteIn, if_neg start]

/-- The bytes so far of a frame that do not yet decide it: the length has not arrived, or it is one that a frame may
have and the rest has not (R170). -/
def Undecided (p : List Byte) : Prop := p.length < 3 ∨ (field p 1 2 ≤ 1024 ∧ p.length < 8 + field p 1 2)

theorem assemble_of_undecided (s : State) {p : List Byte} (h : Undecided p) : s.assemble p = s.setRxPart p := by
  unfold State.assemble Config.maxPayload
  obtain short | ⟨length, short⟩ := h
  · rw [if_pos short]
  · by_cases few : p.length < 3
    · rw [if_pos few]
    · rw [if_neg few, if_neg (by omega), if_pos short]

/-- Bytes that begin a frame and do not decide it are gathered, while others are clocked out. -/
theorem bytesIn_of_undecided {s : State} (outside : s.clp.rxPart = []) (p : List Byte)
    (start : p ≠ [] → byteAt p 0 = 0xA5) (h : ∀ k, k ≤ p.length → Undecided (p.take k)) :
    s.bytesIn p = (s.clocksOut p.length).setRxPart p := by
  induction p using List.reverseRecOn with
  | nil =>
    have same : s.setRxPart [] = s := by
      rw [← outside]
      rfl
    rw [List.length_nil, clocksOut_zero, same]
    rfl
  | append_singleton p b ih =>
    have hp : s.bytesIn p = (s.clocksOut p.length).setRxPart p := by
      refine ih (fun hne => ?_) fun k hk => ?_
      · rw [← start (by simp), byteAt, byteAt, field_append_left]
        cases p with
        | nil => exact absurd rfl hne
        | cons a rest => simp
      · have := h k (by simp; omega)
        rwa [List.take_append_of_le_length hk] at this
    have whole : Undecided (p ++ [b]) := by
      have := h (p ++ [b]).length le_rfl
      rwa [List.take_length] at this
    rw [bytesIn_concat, hp, State.exchange, byteOut_setRxPart, ← clocksOut_succ, byteIn_of_start
      (by exact start (by simp))]
    rw [List.length_append, List.length_singleton]
    exact assemble_of_undecided _ whole

/-- The byte that decides a frame finds the others gathered. -/
theorem bytesIn_of_decided {s : State} (outside : s.clp.rxPart = []) {p : List Byte} (start : byteAt p 0 = 0xA5)
    (h : ∀ k, k < p.length → Undecided (p.take k)) :
    ∃ q, s.bytesIn p = ((s.clocksOut p.length).setRxPart q).assemble p := by
  obtain rfl | ⟨q, b, rfl⟩ := List.eq_nil_or_concat' p
  · exact absurd start (by decide)
  · refine ⟨q, ?_⟩
    have gathered : s.bytesIn q = (s.clocksOut q.length).setRxPart q := by
      refine bytesIn_of_undecided outside q (fun hne => ?_) fun k hk => ?_
      · rw [← start, byteAt, byteAt, field_append_left]
        cases q with
        | nil => exact absurd rfl hne
        | cons a rest => simp
      · have := h k (by simp; omega)
        rwa [List.take_append_of_le_length hk] at this
    rw [bytesIn_concat, gathered, State.exchange, byteOut_setRxPart, ← clocksOut_succ,
      byteIn_of_start (by exact start), List.length_append, List.length_singleton]
    rfl

/-- Outside a frame bytes other than the start byte are skipped (R170). -/
theorem bytesIn_of_skipped {s : State} (outside : s.clp.rxPart = []) (p : List Byte) (h : ∀ c ∈ p, c ≠ 0xA5) :
    s.bytesIn p = s.clocksOut p.length := by
  induction p using List.reverseRecOn with
  | nil => exact (clocksOut_zero s).symm
  | append_singleton p b ih =>
    have skip : (s.clocksOut p.length).byteOut.clp.rxPart = [] ∧ b ≠ 0xA5 :=
      ⟨by rw [← clocksOut_succ, (clocksOut_rx s _).1, outside], h b (by simp)⟩
    rw [bytesIn_concat, ih fun c hc => h c (by simp [hc]), State.exchange, State.byteIn, if_pos skip, ← clocksOut_succ,
      List.length_append, List.length_singleton]

/-! ### Whole frames (R170, R179) -/

/-- The part of a whole frame is undecided: its length is that of the whole. -/
theorem undecided_take {p : List Byte} (length : p.length = 8 + field p 1 2) (fits : field p 1 2 ≤ 1024) {k : Nat}
    (hk : k < p.length) : Undecided (p.take k) := by
  by_cases short : k < 3
  · exact .inl (by rw [List.length_take]; omega)
  · have same : field (p.take k) 1 2 = field p 1 2 := by
      conv_rhs => rw [← List.take_append_drop k p]
      rw [field_append_left]
      rw [List.length_take]
      omega
    exact .inr ⟨same ▸ fits, by rw [same, List.length_take]; omega⟩

theorem assemble_of_whole (s : State) {p : List Byte} (length : p.length = 8 + field p 1 2)
    (fits : field p 1 2 ≤ 1024) : s.assemble p = (s.setRxPart []).frameIn p := by
  unfold State.assemble Config.maxPayload
  rw [if_neg (by omega), if_neg (by omega), if_neg (by omega)]

/-- A whole frame, clocked in outside a frame, is checked while bytes are clocked out. -/
theorem bytesIn_of_whole {s : State} (outside : s.clp.rxPart = []) {p : List Byte} (start : byteAt p 0 = 0xA5)
    (length : p.length = 8 + field p 1 2) (fits : field p 1 2 ≤ 1024) :
    s.bytesIn p = ((s.clocksOut p.length).setRxPart []).frameIn p := by
  obtain ⟨q, hq⟩ := bytesIn_of_decided outside start fun k hk => undecided_take length fits hk
  rw [hq, assemble_of_whole _ length fits]
  rfl

/-- The checks of a whole frame: CRC, kind and room (R170). -/
def FrameGood (p : List Byte) (s : State) : Prop :=
  field p (6 + field p 1 2) 2 = (crc16 ((p.drop 3).take (3 + field p 1 2))).toNat ∧ byteAt p 3 = 1 ∧
    s.clp.rx.length < 4

theorem frameIn_of_good {s : State} {p : List Byte} (h : FrameGood p s) :
    s.frameIn p = s.setClp { s.clp with
      rx := s.clp.rx ++
        [{ tag := BitVec.ofNat 8 (byteAt p 4), code := BitVec.ofNat 8 (byteAt p 5),
           payload := (p.drop 6).take (field p 1 2) }] } := by
  unfold State.frameIn
  exact if_pos h

theorem frameIn_of_bad {s : State} {p : List Byte} (h : ¬ FrameGood p s) : s.frameIn p = s.linkError := by
  unfold State.frameIn
  exact if_neg h

theorem exec_commandFrame (p : List Byte) (s : State) : exec (.commandFrame p) s = .next (s.bytesIn p) := rfl

/-! ### The bytes of a command frame (R179) -/

/-- The bytes that the CRC of a command frame covers. -/
def CmdFrame.inner (f : CmdFrame) : List Byte := 0x01 :: f.tag :: f.code :: f.payload

theorem CmdFrame.bytes_eq (f : CmdFrame) :
    f.bytes = 0xA5 :: (leBytes 2 f.payload.length ++ (f.inner ++ crcBytes f.inner)) := by
  simp only [CmdFrame.bytes, CmdFrame.inner, List.append_assoc]

theorem CmdFrame.length_bytes (f : CmdFrame) : f.bytes.length = 8 + f.payload.length := by
  simp [CmdFrame.bytes_eq, CmdFrame.inner]
  omega

/-- The bytes past the length. -/
theorem CmdFrame.drop_bytes (f : CmdFrame) : f.bytes.drop 3 = f.inner ++ crcBytes f.inner := by
  rw [CmdFrame.bytes_eq, List.drop_succ_cons, List.drop_left' (length_leBytes _ _)]

theorem field_drop (p : List Byte) (k off n : Nat) : field (p.drop k) off n = field p (k + off) n := by
  rw [field, field, List.drop_drop]

theorem CmdFrame.field_length {f : CmdFrame} (h : f.payload.length ≤ 1024) :
    field f.bytes 1 2 = f.payload.length := by
  have tail := field_drop f.bytes 1 0 2
  rw [← tail, CmdFrame.bytes_eq, List.drop_succ_cons, List.drop_zero, field_append_left _ (by simp), field_leBytes,
    Nat.mod_eq_of_lt (by omega)]

theorem CmdFrame.field_crc (f : CmdFrame) : field f.bytes (6 + f.payload.length) 2 = (crc16 f.inner).toNat := by
  have place : 6 + f.payload.length = 3 + f.inner.length := by
    simp [CmdFrame.inner]
    omega
  rw [place, ← field_drop, CmdFrame.drop_bytes, field_append_right _ _ le_rfl, Nat.sub_self, crcBytes, field_leBytes,
    Nat.mod_eq_of_lt (crc16 f.inner).isLt]

theorem CmdFrame.take_inner (f : CmdFrame) : (f.bytes.drop 3).take (3 + f.payload.length) = f.inner := by
  rw [CmdFrame.drop_bytes, List.take_left']
  simp [CmdFrame.inner]
  omega

theorem CmdFrame.byteAt_kind (f : CmdFrame) : byteAt f.bytes 3 = 1 := by
  rw [byteAt, ← Nat.add_zero 3, ← field_drop, CmdFrame.drop_bytes]
  rfl

theorem fromLE_singleton (b : Byte) : fromLE [b] = b.toNat := by
  simp [fromLE]

theorem CmdFrame.byteAt_tag (f : CmdFrame) : BitVec.ofNat 8 (byteAt f.bytes 4) = f.tag := by
  have : byteAt f.bytes 4 = fromLE [f.tag] := by
    rw [byteAt, show (4 : Nat) = 3 + 1 by rfl, ← field_drop, CmdFrame.drop_bytes]
    rfl
  rw [this, fromLE_singleton, BitVec.ofNat_toNat, BitVec.setWidth_eq]

theorem CmdFrame.byteAt_code (f : CmdFrame) : BitVec.ofNat 8 (byteAt f.bytes 5) = f.code := by
  have : byteAt f.bytes 5 = fromLE [f.code] := by
    rw [byteAt, show (5 : Nat) = 3 + 2 by rfl, ← field_drop, CmdFrame.drop_bytes]
    rfl
  rw [this, fromLE_singleton, BitVec.ofNat_toNat, BitVec.setWidth_eq]

theorem CmdFrame.take_payload (f : CmdFrame) : (f.bytes.drop 6).take f.payload.length = f.payload := by
  have : f.bytes.drop 6 = f.payload ++ crcBytes f.inner := by
    rw [show (6 : Nat) = 3 + 3 by rfl, ← List.drop_drop, CmdFrame.drop_bytes]
    rfl
  rw [this, List.take_left]

theorem CmdFrame.good {f : CmdFrame} {s : State} (h : f.payload.length ≤ 1024) (room : s.clp.rx.length < 4) :
    FrameGood f.bytes s :=
  ⟨by rw [CmdFrame.field_length h, CmdFrame.field_crc, CmdFrame.take_inner], f.byteAt_kind, room⟩

/-- Settles O11: the bytes are gathered up to the last one, the checks of the whole frame pass, and its fields read
back. -/
theorem goodFrameJoinsTheReceiveBuffer : Obligations.GoodFrameJoinsTheReceiveBuffer := by
  intro s f outside fits room b
  have length : f.bytes.length = 8 + field f.bytes 1 2 := by rw [f.length_bytes, CmdFrame.field_length fits]
  have start : byteAt f.bytes 0 = 0xA5 := by
    rw [CmdFrame.bytes_eq, byteAt_cons_zero]
    rfl
  have good : FrameGood f.bytes (b.setRxPart []) :=
    CmdFrame.good fits (by rw [State.setRxPart, State.setClp_clp]; exact (clocksOut_rx s _).2 ▸ room)
  rw [exec_commandFrame, bytesIn_of_whole outside start length (CmdFrame.field_length fits ▸ fits),
    frameIn_of_good good, CmdFrame.field_length fits, f.byteAt_tag, f.byteAt_code, f.take_payload]
  have part : b.clp.rxPart = [] := (clocksOut_rx s _).1.trans outside
  have rx : b.clp.rx = s.clp.rx := (clocksOut_rx s _).2
  rw [← part, ← rx]
  rfl

/-- Settles O12: a whole frame that fails a check, or a length above 1024, is given up; other bytes are skipped. -/
theorem badFrameIsALinkError : Obligations.BadFrameIsALinkError := by
  intro s p outside b
  refine ⟨fun start length fits bad => ?_, fun start length long => ?_, fun skipped => ?_⟩
  · have fails : ¬ FrameGood p (b.setRxPart []) := by
      rintro ⟨crc, kind, room⟩
      have rx : (b.setRxPart []).clp.rx = s.clp.rx := (clocksOut_rx s _).2
      rw [rx] at room
      obtain h | h | h := bad
      · exact h crc
      · exact h kind
      · omega
    rw [exec_commandFrame, bytesIn_of_whole outside start length fits, frameIn_of_bad fails]
    rfl
  · obtain ⟨q, hq⟩ := bytesIn_of_decided outside start fun k hk => .inl (by rw [List.length_take]; omega)
    rw [exec_commandFrame, hq, State.assemble, if_neg (by omega), if_pos (show Config.maxPayload < field p 1 2 from long)]
    rfl
  · rw [exec_commandFrame, bytesIn_of_skipped outside p skipped]

/-! ### The release of chip select (R170) -/

theorem exec_chipSelectRelease (s : State) : exec .chipSelectRelease s = .next (s.setOutPos 0).cutOff := rfl

theorem cutOff_of_empty {s : State} (h : s.clp.rxPart = []) : s.cutOff = s := if_pos h

theorem cutOff_of_part {s : State} (h : s.clp.rxPart ≠ []) : s.cutOff = s.frameLost := if_neg h

/-- A frame given up leaves the frames of both buffers and the bytes out as they stand; a notice may join the
outgoing queue. -/
theorem held_frameLost (s : State) :
    s.clp.out <+: s.frameLost.clp.out ∧ s.frameLost.clp.rx = s.clp.rx ∧
      s.frameLost.clp.outPos = s.clp.outPos ∧ s.frameLost.clocked = s.clocked := by
  have held := (within_setFlag (s.setClp { s.clp with
    rxPart := [], linkErrors := min 65535 (s.clp.linkErrors + 1) }) .linkError).kept
  obtain ⟨more, out, -, -⟩ := held.out
  exact ⟨⟨more, out.symm⟩, held.rx, held.outPos, held.clocked⟩

/-- Settles O13: the release takes the place in the outgoing frame back, and gives up a frame part-way in. -/
theorem chipSelectReleaseCutsOffAFrame : Obligations.ChipSelectReleaseCutsOffAFrame := by
  intro s b
  obtain ⟨out, rx, outPos, clocked⟩ := held_frameLost b
  refine ⟨fun part => ?_, fun part => ?_, out, rx, outPos, clocked⟩
  · rw [exec_chipSelectRelease, cutOff_of_part (by exact part)]
    rfl
  · rw [exec_chipSelectRelease, cutOff_of_empty (by exact part)]
    rfl

/-! ### Frames that leave, and the notices owed (R171, R173) -/

theorem exec_frameLeavesQueue (s : State) : exec .frameLeavesQueue s = .next s.frameOut := rfl

theorem exec_powerOn (s : State) : exec .powerOn s = .next s.partReset := rfl

theorem frameOut_of_empty {s : State} (h : s.clp.out = []) : s.frameOut = s := by
  unfold State.frameOut
  rw [h]

theorem frameOut_of_frame {s : State} {f : OutFrame} {rest : List OutFrame} (h : s.clp.out = f :: rest) :
    s.frameOut =
      let b := s.setClocked (s.clocked ++ f.bytes.drop s.clp.outPos)
      if f.resets then b.partReset else (b.setClp { s.clp with out := rest, outPos := 0 }).drainOwed := by
  unfold State.frameOut
  rw [h]
  rfl

theorem drainOwedClass_of_not_owed {s : State} {c : Fin 4} (h : s.nu.owed.get c = false) :
    s.drainOwedClass c = s := by
  rw [State.drainOwedClass, h]
  rfl

theorem drainOwed_of_none {s : State} (h : ∀ c, s.nu.owed.get c = false) : s.drainOwed = s := by
  rw [State.drainOwed, drainOwedClass_of_not_owed (h 0), drainOwedClass_of_not_owed (h 1),
    drainOwedClass_of_not_owed (h 2), drainOwedClass_of_not_owed (h 3)]

/-- With one class owed, which is owed no more once it is taken, the owed classes are that one. -/
theorem drainOwed_of_one {s : State} {c : Fin 4} (others : ∀ d, d ≠ c → s.nu.owed.get d = false)
    (taken : ∀ d, (s.drainOwedClass c).nu.owed.get d = false) : s.drainOwed = s.drainOwedClass c := by
  have before (d : Fin 4) (h : d ≠ c) : s.drainOwedClass d = s := drainOwedClass_of_not_owed (others d h)
  have after (d : Fin 4) : (s.drainOwedClass c).drainOwedClass d = s.drainOwedClass c :=
    drainOwedClass_of_not_owed (taken d)
  unfold State.drainOwed
  match c with
  | 0 => rw [after 1, after 2, after 3]
  | 1 => rw [before 0 (by decide), after 2, after 3]
  | 2 => rw [before 0 (by decide), before 1 (by decide), after 3]
  | 3 => rw [before 0 (by decide), before 1 (by decide), before 2 (by decide)]

/-- Settles O14: the frame leaves, the reply of RESET PART with the reset of POWER_ON, and no class is owed. -/
theorem oldestFrameLeavesTheQueue : Obligations.OldestFrameLeavesTheQueue := by
  refine fun s => ⟨?_, fun empty => ?_⟩
  · intro f rest out b
    refine ⟨fun stays none => ?_, fun resets => ?_⟩
    · rw [exec_frameLeavesQueue, frameOut_of_frame out, stays]
      exact congrArg _ (drainOwed_of_none (by exact none))
    · rw [exec_frameLeavesQueue, frameOut_of_frame out, resets]
      rfl
  · rw [exec_frameLeavesQueue, frameOut_of_empty empty]

/-! ### Flags (R173) -/

theorem setFlag_of_pending {s : State} {f : Flag} (h : s.nu.isPending f = true) : s.setFlag f = s := if_pos h

theorem setFlag_of_clear {s : State} {f : Flag} (h : s.nu.isPending f = false) :
    s.setFlag f =
      let u := s.setNu { s.nu with flags := s.nu.flags ||| f.bit }
      if s.nu.enable.get (s.nu.cls f) then u.noticeOrOwe (s.nu.cls f) else u := by
  rw [State.setFlag, h]
  rfl

theorem noticeOrOwe_of_room {s : State} {c : Fin 4} (h : s.clp.out.length ≤ 14) : s.noticeOrOwe c = s.queueNotice c :=
  if_pos h

theorem noticeOrOwe_of_full {s : State} {c : Fin 4} (h : 14 < s.clp.out.length) : s.noticeOrOwe c = s.setOwed c true :=
  if_neg (by unfold Config.noticeRoom; omega)

theorem Four.eq_of_get {α : Type} {v w : Four α} (h : ∀ i, v.get i = w.get i) : v = w := by
  cases v
  cases w
  have h0 := h 0
  have h1 := h 1
  have h2 := h 2
  have h3 := h 3
  simp only [Four.get] at h0 h1 h2 h3
  rw [h0, h1, h2, h3]

theorem Four.get_set {α : Type} (v : Four α) (i j : Fin 4) (x : α) :
    (v.set i x).get j = if j = i then x else v.get j := by
  match i, j with
  | 0, 0 | 0, 1 | 0, 2 | 0, 3 | 1, 0 | 1, 1 | 1, 2 | 1, 3 | 2, 0 | 2, 1 | 2, 2 | 2, 3 | 3, 0 | 3, 1 | 3, 2 | 3, 3 => rfl

/-- The one class owed, taken: no class is owed any more. -/
theorem owed_taken {v : Four Bool} {c : Fin 4} (h : ∀ d, v.get d = decide (d = c)) :
    v.set c false = ⟨false, false, false, false⟩ := by
  refine Four.eq_of_get fun d => ?_
  have none : (⟨false, false, false, false⟩ : Four Bool).get d = false := by
    match d with
    | 0 | 1 | 2 | 3 => rfl
  rw [Four.get_set, h, none]
  split
  · rfl
  · next hd => exact decide_eq_false hd

/-- Settles O15: a flag set, by the fill of the outgoing queue; and the one class owed, as a frame leaves. -/
theorem flagIsNoticedOrOwed : Obligations.FlagIsNoticedOrOwed := by
  refine ⟨fun s f => ⟨setFlag_of_pending, fun clear => ?_⟩, ?_⟩
  · refine ⟨_, rfl, isPending_or_bit s.nu f, fun off => ?_, fun on room => ?_, fun on full => ?_⟩
    · rw [setFlag_of_clear clear, off]
      rfl
    · rw [setFlag_of_clear clear, on]
      exact noticeOrOwe_of_room (by exact room)
    · rw [setFlag_of_clear clear, on]
      exact noticeOrOwe_of_full (by exact full)
  · intro s f rest c out stays room owed b
    have isOwed : s.nu.owed.get c = true := (owed c).trans (decide_eq_true rfl)
    have allTaken (d : Fin 4) : (s.nu.owed.set c false).get d = false := by
      rw [owed_taken owed]
      match d with
      | 0 | 1 | 2 | 3 => rfl
    let u := b.setClp { s.clp with out := rest, outPos := 0 }
    have drained : u.drainOwedClass c =
        if s.nu.pendingIn c = 0 then u.setOwed c false else (u.setOwed c false).queueNotice c := by
      rw [State.drainOwedClass, if_pos (by exact isOwed), if_pos (show u.clp.out.length ≤ Config.noticeRoom from room)]
      rfl
    have one : u.drainOwed = u.drainOwedClass c := by
      refine drainOwed_of_one (fun d hd => (owed d).trans (decide_eq_false hd)) fun d => ?_
      rw [drained]
      split <;> exact allTaken d
    have left : s.frameOut = u.drainOwed := by
      rw [frameOut_of_frame out, stays]
      rfl
    rw [exec_frameLeavesQueue, left, one, drained, ← owed_taken owed]
    rfl

/-! ### The reset (R177) -/

/-- Settles O9: every item of the reset state, by evaluation. -/
theorem resetStateHasTheStatedValues : Obligations.ResetStateHasTheStatedValues := by
  refine ⟨⟨rfl, rfl, rfl⟩, ?_, ?_, ?_, ⟨rfl, rfl⟩, ?_, ?_, ?_, ?_⟩
  · exact ⟨rfl, rfl, rfl, rfl, rfl, rfl, rfl, rfl, rfl, rfl, rfl, rfl⟩
  · intro src
    cases src <;> exact ⟨rfl, rfl, rfl, rfl, rfl, rfl, rfl, rfl, rfl⟩
  · exact ⟨rfl, rfl, rfl⟩
  · refine ⟨fun name => ?_, rfl, rfl, rfl, rfl, rfl, rfl, rfl, rfl, rfl, rfl, rfl⟩
    cases name <;> rfl
  · intro l
    cases l <;> exact ⟨rfl, rfl, rfl, rfl, rfl, rfl, rfl, rfl, rfl, rfl, rfl, rfl, rfl, rfl, rfl, rfl, rfl, rfl⟩
  · exact ⟨rfl, rfl, rfl, rfl, rfl⟩
  · refine ⟨fun f => ?_, fun f => ?_, rfl, fun c => ?_, rfl⟩
    · cases f <;> rfl
    · cases f <;> rfl
    · match c with
      | 0 | 1 | 2 | 3 => rfl

theorem reset_isPending (f : Flag) : State.reset.nu.isPending f = decide (f = .resetDone) := by
  cases f <;> rfl

/-- Settles O10: the reset keeps the fields that are not the part's, and its port holds the RESET_DONE notice. -/
theorem powerOnResetsThePart : Obligations.PowerOnResetsThePart := fun s =>
  ⟨_, exec_powerOn s, rfl, reset_isPending, rfl, rfl, rfl⟩

end Sys2Proof.Machine

/-! The taking of a command: when a row is not due, and how a command is turned away (R172, R177). -/

namespace Sys2Proof.Machine

/-! ### When the port takes a command (R171, R172, R177) -/

theorem NoticeUnit.anyOwed_of_get {n : NoticeUnit} {c : Fin 4} (h : n.owed.get c = true) : n.anyOwed = true := by
  unfold NoticeUnit.anyOwed
  match c with
  | 0 => rw [show n.owed.a0 = true from h]; rfl
  | 1 => rw [show n.owed.a1 = true from h]; simp
  | 2 => rw [show n.owed.a2 = true from h]; simp
  | 3 => rw [show n.owed.a3 = true from h]; simp

/-- What the port's taking a command says of its queue and its notices. -/
structure Takes (s : State) : Prop where
  room : s.clp.out.length ≤ 15
  owed : ∀ c, s.nu.owed.get c = false
  reset : ∀ g ∈ s.clp.out, g.resets = false

theorem takes_of_takesCommand {s : State} (h : s.takesCommand = true) : Takes s := by
  rw [State.takesCommand, Bool.and_eq_true, Bool.and_eq_true, Bool.not_eq_true', Bool.not_eq_true',
    decide_eq_true_eq] at h
  obtain ⟨⟨room, owed⟩, reset⟩ := h
  refine ⟨room, fun c => ?_, fun g hg => ?_⟩
  · by_contra hc
    rw [NoticeUnit.anyOwed_of_get (Bool.not_eq_false _ ▸ hc)] at owed
    exact Bool.noConfusion owed
  · exact Bool.not_eq_true _ ▸ List.any_eq_false.mp reset g hg

/-! ### The rows that take a command (R179) -/

/-- Each of the rows is the taking of the command of its code and length. -/
theorem row_takes : ∀ row ∈ commandRows, ∃ c : Command,
    c.code = row.2.1 ∧ c.len = row.2.2 ∧ ∀ s, exec row.1 s = .next (c.take s) := by
  simp only [commandRows, List.forall_mem_cons]
  exact ⟨⟨identifyCommand, rfl, rfl, fun _ => rfl⟩, ⟨resetCommand, rfl, rfl, fun _ => rfl⟩,
    ⟨armCommand, rfl, rfl, fun _ => rfl⟩, ⟨stopCommand, rfl, rfl, fun _ => rfl⟩,
    ⟨abortCommand, rfl, rfl, fun _ => rfl⟩, ⟨readRunCommand, rfl, rfl, fun _ => rfl⟩,
    ⟨markCommand, rfl, rfl, fun _ => rfl⟩, ⟨setSourceCommand, rfl, rfl, fun _ => rfl⟩,
    ⟨readSourceCommand, rfl, rfl, fun _ => rfl⟩, ⟨setSpoolCommand, rfl, rfl, fun _ => rfl⟩,
    ⟨readSpoolCommand, rfl, rfl, fun _ => rfl⟩, ⟨readSpanCommand, rfl, rfl, fun _ => rfl⟩,
    ⟨readQueueCommand, rfl, rfl, fun _ => rfl⟩, ⟨readPairCommand, rfl, rfl, fun _ => rfl⟩,
    ⟨setLaneCommand, rfl, rfl, fun _ => rfl⟩, ⟨laneResetCommand, rfl, rfl, fun _ => rfl⟩,
    ⟨laneOfflineCommand, rfl, rfl, fun _ => rfl⟩, ⟨lanePauseCommand, rfl, rfl, fun _ => rfl⟩,
    ⟨laneResumeCommand, rfl, rfl, fun _ => rfl⟩, ⟨laneParkCommand, rfl, rfl, fun _ => rfl⟩,
    ⟨laneWakeCommand, rfl, rfl, fun _ => rfl⟩, ⟨readLaneCommand, rfl, rfl, fun _ => rfl⟩,
    ⟨setCheckpointCommand, rfl, rfl, fun _ => rfl⟩, ⟨checkpointNowCommand, rfl, rfl, fun _ => rfl⟩,
    ⟨readIndexCommand, rfl, rfl, fun _ => rfl⟩, ⟨setNoticesCommand, rfl, rfl, fun _ => rfl⟩,
    ⟨readNoticesCommand, rfl, rfl, fun _ => rfl⟩, ⟨clearNoticesCommand, rfl, rfl, fun _ => rfl⟩, nofun⟩

theorem exec_badCode (s : State) : exec .badCode s = .next s.takeBadCode := rfl

/-- The codes that name a command are those of the rows. -/
theorem knownCodes_eq : knownCodes = commandRows.map fun row => row.2.1 := rfl

theorem Receives.badCode {s : State} {code : Byte} {f : CmdFrame} {rest : List CmdFrame}
    (received : Receives s code f rest) (unknown : code ∉ knownCodes) :
    s.takeBadCode = s.answered f rest .badCode [] := by
  unfold State.takeBadCode
  rw [received.oldest]
  have due : s.takesCommand = true ∧ f.code ∉ knownCodes := ⟨received.takes, received.code ▸ unknown⟩
  simp only [due, not_false_eq_true, and_self, if_true]
  simp only [State.popFrame, State.queueOut, State.answered, received.oldest]
  rfl

/-- Settles O16: the length decides before the checks of a command, and a code outside the table names none. -/
theorem badLengthAndBadCodeAreAnswered : Obligations.BadLengthAndBadCodeAreAnswered := by
  refine ⟨fun row hrow s f rest received length => ?_, fun s code f rest received unknown => ?_⟩
  · obtain ⟨c, hcode, hlen, hexec⟩ := row_takes row hrow
    rw [hexec, Receives.badLength (c := c) (hcode ▸ received) (hlen ▸ length)]
  · have outside : code ∉ knownCodes := by
      rw [knownCodes_eq, List.mem_map]
      rintro ⟨row, hrow, hcode⟩
      exact unknown row hrow hcode
    rw [exec_badCode, received.badCode outside]

/-- Settles O17: a row that is not due is not the taking of a command. -/
theorem rowNotDueChangesNothing : Obligations.RowNotDueChangesNothing := by
  intro row hrow s notDue
  obtain ⟨c, hcode, -, hexec⟩ := row_takes row hrow
  rw [hexec, take_idle]
  intro f rest hrx htakes
  have takes := takes_of_takesCommand htakes
  obtain empty | full | ⟨d, owed⟩ | ⟨g, hg, resets⟩ | ⟨f', rest', hrx', other⟩ := notDue
  · rw [empty] at hrx
    exact absurd hrx (List.cons_ne_nil f rest).symm
  · exact absurd takes.room (by omega)
  · exact absurd (owed.symm.trans (takes.owed d)) (by decide)
  · exact absurd (resets.symm.trans (takes.reset g hg)) (by decide)
  · obtain ⟨rfl, -⟩ := List.cons.inj (hrx.symm.trans hrx')
    exact hcode ▸ other

/-! ### Refusals by the run state (R27, R38, R43, R74, R160) -/

theorem Status.ofState_of_not {allowed : Bool} (h : allowed = false) : Status.ofState allowed = .refusedState := by
  rw [h]
  rfl

theorem Status.andThen_of_refused {a b : Status} (h : a = .refusedState) : a.andThen b = .refusedState := by
  rw [h]
  rfl

theorem armCheck_refused {s : State} (p : List Byte) (h : s.rc.runState ≠ .idle) : armCheck p s = .refusedState :=
  Status.andThen_of_refused (Status.ofState_of_not (beq_false_of_ne h))

theorem setSourceCheck_refused {s : State} (p : List Byte) (h : s.rc.runState ≠ .idle) :
    setSourceCheck p s = .refusedState :=
  Status.andThen_of_refused (Status.ofState_of_not (beq_false_of_ne h))

theorem notIdle_refused {s : State} (p : List Byte) (h : s.rc.runState = .idle) : notIdle p s = .refusedState :=
  Status.ofState_of_not (by rw [h]; rfl)

theorem markCheck_refused {s : State} (p : List Byte) (h : s.rc.runState ≠ .running) :
    markCheck p s = .refusedState :=
  Status.andThen_of_refused (Status.ofState_of_not (beq_false_of_ne h))

theorem checkpointCheck_refused {s : State} (p : List Byte) (running : s.rc.runState ≠ .running)
    (stopping : s.rc.runState ≠ .stopping) : checkpointCheck p s = .refusedState :=
  Status.ofState_of_not (by rw [beq_false_of_ne running, beq_false_of_ne stopping]; rfl)

/-- A command whose check refuses the state is answered so, without effect. -/
theorem exec_refused {c : Command} {row : Instr} {s : State} {f : CmdFrame} {rest : List CmdFrame} {st : Status}
    (hexec : exec row s = .next (c.take s)) (received : Receives s c.code f rest)
    (length : f.payload.length = c.len) (check : c.check f.payload s = st) (hst : st ≠ .ok) :
    exec row s = .next (s.answered f rest st []) := by
  rw [hexec, received.refused length check hst]

/-- Settles O18: the first check of each of these commands is on the run state. -/
theorem runStateDecidesTheRefusal : Obligations.RunStateDecidesTheRefusal := fun _ f _ =>
  ⟨fun received length h =>
      exec_refused (c := armCommand) rfl received length (armCheck_refused f.payload h) (by decide),
    fun received length h =>
      exec_refused (c := setSourceCommand) rfl received length (setSourceCheck_refused f.payload h) (by decide),
    fun received length h =>
      exec_refused (c := abortCommand) rfl received length (notIdle_refused f.payload h) (by decide),
    fun received length h =>
      exec_refused (c := markCommand) rfl received length (markCheck_refused f.payload h) (by decide),
    fun received length running stopping =>
      exec_refused (c := checkpointNowCommand) rfl received length
        (checkpointCheck_refused f.payload running stopping) (by decide)⟩

/-! ### Refusals by the lane number and the lane state (R134, R147 to R153) -/

theorem laneOf_eq_none {p : List Byte} (h : 1 < byteAt p 0) : laneOf p = none := by
  unfold laneOf Lane.ofNum
  split <;> first | rfl | omega

theorem laneOf_eq_some {p : List Byte} {lane : Lane} (h : byteAt p 0 = lane.num) : laneOf p = some lane := by
  rw [laneOf, h]
  cases lane <;> rfl

theorem laneCheck_badValue (allowed : LaneState → Bool) {p : List Byte} (s : State) (h : 1 < byteAt p 0) :
    laneCheck allowed p s = .badValue := by
  rw [laneCheck, laneOf_eq_none h]

theorem laneCheck_of_lane (allowed : LaneState → Bool) {p : List Byte} {lane : Lane} (s : State)
    (h : byteAt p 0 = lane.num) : laneCheck allowed p s = .ofState (allowed (s.lane lane).state) := by
  rw [laneCheck, laneOf_eq_some h]

theorem setLaneCheck_badValue {p : List Byte} (s : State) (h : 1 < byteAt p 0) :
    setLaneCheck p s = .badValue := by
  rw [setLaneCheck, laneCheck_badValue _ s h]
  rfl

/-- The rows of the lane commands. -/
def laneRows : List (Instr × Byte × Nat) :=
  [(.setLane, 0x40, 28), (.laneReset, 0x41, 1), (.laneOffline, 0x42, 1), (.lanePause, 0x43, 1),
   (.laneResume, 0x44, 1), (.lanePark, 0x45, 1), (.laneWake, 0x46, 1), (.readLane, 0x47, 1)]

theorem mem_laneRows : ∀ row ∈ commandRows, 0x40 ≤ row.2.1 → row.2.1 ≤ 0x47 → row ∈ laneRows := by
  decide

/-- Each of the lane rows is the taking of a command that looks at its lane number first. -/
theorem laneRow_takes : ∀ row ∈ laneRows, ∃ c : Command,
    c.code = row.2.1 ∧ c.len = row.2.2 ∧ (∀ s, exec row.1 s = .next (c.take s)) ∧
      ∀ p s, 1 < byteAt p 0 → c.check p s = .badValue := by
  simp only [laneRows, List.forall_mem_cons]
  exact ⟨⟨setLaneCommand, rfl, rfl, fun _ => rfl, fun _ s h => setLaneCheck_badValue s h⟩,
    ⟨laneResetCommand, rfl, rfl, fun _ => rfl, fun _ s h => by
      dsimp only [laneResetCommand]
      exact laneCheck_badValue _ s h⟩,
    ⟨laneOfflineCommand, rfl, rfl, fun _ => rfl, fun _ s h => by
      dsimp only [laneOfflineCommand]
      exact laneCheck_badValue _ s h⟩,
    ⟨lanePauseCommand, rfl, rfl, fun _ => rfl, fun _ s h => by
      dsimp only [lanePauseCommand]
      exact laneCheck_badValue _ s h⟩,
    ⟨laneResumeCommand, rfl, rfl, fun _ => rfl, fun _ s h => by
      dsimp only [laneResumeCommand]
      exact laneCheck_badValue _ s h⟩,
    ⟨laneParkCommand, rfl, rfl, fun _ => rfl, fun _ s h => by
      dsimp only [laneParkCommand]
      exact laneCheck_badValue _ s h⟩,
    ⟨laneWakeCommand, rfl, rfl, fun _ => rfl, fun _ s h => by
      dsimp only [laneWakeCommand]
      exact laneCheck_badValue _ s h⟩,
    ⟨readLaneCommand, rfl, rfl, fun _ => rfl, fun _ s h => by
      dsimp only [readLaneCommand]
      exact laneCheck_badValue _ s h⟩, nofun⟩

/-- A lane command that carries a lane in a state its rule forbids is answered REFUSED_STATE. -/
theorem exec_laneRefused {c : Command} {row : Instr} {allowed : LaneState → Bool} {s : State} {f : CmdFrame}
    {rest : List CmdFrame} {lane : Lane} (hexec : exec row s = .next (c.take s))
    (hcheck : c.check = laneCheck allowed) (hlane : byteAt f.payload 0 = lane.num)
    (received : Receives s c.code f rest) (length : f.payload.length = c.len)
    (h : allowed (s.lane lane).state = false) : exec row s = .next (s.answered f rest .refusedState []) :=
  exec_refused hexec received length (by rw [hcheck, laneCheck_of_lane _ s hlane, h]; rfl) (by decide)

theorem setLaneCheck_refused {p : List Byte} {lane : Lane} {s : State} (hlane : byteAt p 0 = lane.num)
    (h : LaneState.settable (s.lane lane).state = false) : setLaneCheck p s = .refusedState :=
  Status.andThen_of_refused (by rw [laneCheck_of_lane _ s hlane, h]; rfl)

/-- Settles O19: the lane number is looked at first, and then the lane's state. -/
theorem laneStateDecidesTheRefusal : Obligations.LaneStateDecidesTheRefusal := by
  refine fun s f rest => ⟨fun row hrow low high received length number => ?_, fun lane hlane => ?_⟩
  · obtain ⟨c, hcode, hlen, hexec, hcheck⟩ := laneRow_takes row (mem_laneRows row hrow low high)
    exact exec_refused (hexec s) (hcode ▸ received) (hlen ▸ length) (hcheck _ _ number) (by decide)
  · refine ⟨fun received length down faulted => ?_, fun received length down => ?_,
      fun received length ready busy => ?_, fun received length paused => ?_, fun received length states => ?_,
      fun received length states => ?_⟩
    · exact exec_refused (c := setLaneCommand) rfl received length (setLaneCheck_refused hlane
        (by rw [LaneState.settable, beq_false_of_ne down, beq_false_of_ne faulted]; rfl)) (by decide)
    · exact exec_laneRefused (c := laneResetCommand) (allowed := fun st => st != .down) rfl rfl hlane received length
        (by rw [down]; rfl)
    · exact exec_laneRefused (c := lanePauseCommand) (allowed := fun st => st == .ready || st == .busy) rfl rfl hlane
        received length (by rw [beq_false_of_ne ready, beq_false_of_ne busy]; rfl)
    · exact exec_laneRefused (c := laneResumeCommand) (allowed := fun st => st == .paused) rfl rfl hlane received length
        (beq_false_of_ne paused)
    · refine exec_laneRefused (c := laneParkCommand)
        (allowed := fun st => st == .ready || st == .busy || st == .parking || st == .parked) rfl rfl hlane received
        length ?_
      revert states
      generalize (s.lane lane).state = st
      revert st
      decide
    · refine exec_laneRefused (c := laneWakeCommand)
        (allowed := fun st => st == .parked || st == .parking || st == .waking || st == .ready || st == .busy) rfl rfl
        hlane received length ?_
      revert states
      generalize (s.lane lane).state = st
      cases st <;> decide

/-! ### RESET PART (R177) -/

theorem markReset_concat (l : List OutFrame) (f : OutFrame) :
    markReset (l ++ [f]) = l ++ [{ f with resets := true }] := by
  induction l with
  | nil => rfl
  | cons g rest ih =>
    have tail : rest ++ [f] ≠ [] := by simp
    rw [List.cons_append, List.cons_append, ← ih]
    cases h : rest ++ [f] with
    | nil => exact absurd h tail
    | cons a b => rfl

/-- Settles O23: the reply is marked to reset the part as it leaves, and while it waits no command is due. -/
theorem resetPartOnlyReplies : Obligations.ResetPartOnlyReplies := by
  intro s f rest received length
  have reply : resetCommand.take s =
      s.setClp { s.clp with
        rx := rest
        out := s.clp.out ++ [{ kind := .reply, tag := f.tag, code := 0, payload := [], resets := true }] } := by
    rw [received.ok (c := resetCommand) length rfl]
    exact congrArg (fun out => s.setClp { s.clp with rx := rest, out := out }) (markReset_concat _ _)
  refine ⟨_, congrArg Host.Outcome.next reply, rfl, fun row hrow => ?_, ?_⟩
  · exact rowNotDueChangesNothing row hrow _ (.inr (.inr (.inr (.inl ⟨_, by
      rw [State.setClp_clp]
      exact List.mem_append_right _ (List.mem_singleton_self _), rfl⟩))))
  · refine congrArg Host.Outcome.next ?_
    unfold State.takeBadCode
    split
    · rfl
    · refine if_neg fun ⟨htakes, _⟩ => ?_
      have := (takes_of_takesCommand htakes).reset _ (by
        rw [State.setClp_clp]
        exact List.mem_append_right _ (List.mem_singleton_self _))
      exact Bool.noConfusion this

end Sys2Proof.Machine

/-! The fields of the commands, read back as they are carried (R178, R179). -/

namespace Sys2Proof.Machine

/-! ### Codes and ranges (R178) -/

theorem inRange_of_le {low high v : Nat} (h : low ≤ v) (k : v ≤ high) : inRange low high v = some v := if_pos ⟨h, k⟩

@[simp] theorem Source.ofNum_num (src : Source) : Source.ofNum src.num = some src := by cases src <;> rfl

@[simp] theorem SourceMode.ofCode_code (m : SourceMode) : SourceMode.ofCode m.code = some m := by cases m <;> rfl

@[simp] theorem LaneRule.ofCode_code (r : LaneRule) : LaneRule.ofCode r.code = some r := by cases r <;> rfl

@[simp] theorem MirrorPolicy.ofCode_code (p : MirrorPolicy) : MirrorPolicy.ofCode p.code = some p := by
  cases p <;> rfl

@[simp] theorem PairMode.ofCode_code (m : PairMode) : PairMode.ofCode m.code = some m := by cases m <;> rfl

@[simp] theorem ShedRule.ofCode_code (r : ShedRule) : ShedRule.ofCode r.code = some r := by cases r <;> rfl

@[simp] theorem fourOf_val (i : Fin 4) : fourOf i.val = some i := by
  match i with
  | 0 | 1 | 2 | 3 => rfl

@[simp] theorem yesNoOf_bit (b : Bool) : yesNoOf (if b then 1 else 0) = some b := by cases b <;> rfl

theorem Source.num_lt (src : Source) : src.num < 256 := by cases src <;> decide

theorem SourceMode.code_lt (m : SourceMode) : m.code < 256 := by cases m <;> decide

theorem LaneRule.code_lt (r : LaneRule) : r.code < 256 := by cases r <;> decide

theorem MirrorPolicy.code_lt (p : MirrorPolicy) : p.code < 256 := by cases p <;> decide

theorem PairMode.code_lt (m : PairMode) : m.code < 256 := by cases m <;> decide

theorem ShedRule.code_lt (r : ShedRule) : r.code < 256 := by cases r <;> decide

theorem yesNo_eq (b : Bool) : yesNo b = leBytes 1 (if b then 1 else 0) := by cases b <;> rfl

/-! ### A field of a layout -/

/-- The value of a field behind the bytes before it, in a layout of several. -/
theorem field_between {p q : List Byte} {off n v : Nat} (place : p.length = off) (fits : v < 2 ^ (8 * n)) :
    field (p ++ (leBytes n v ++ q)) off n = v := by
  rw [field_append_right _ _ place.le, ← place, Nat.sub_self, field_append_left _ (by simp), field_leBytes,
    Nat.mod_eq_of_lt fits]

theorem field_first {q : List Byte} {n v : Nat} (fits : v < 2 ^ (8 * n)) : field (leBytes n v ++ q) 0 n = v :=
  field_between (p := []) rfl fits

theorem field_whole {n v : Nat} (fits : v < 2 ^ (8 * n)) : field (leBytes n v) 0 n = v := by
  rw [field_leBytes, Nat.mod_eq_of_lt fits]

/-- A field behind the bytes of another, in a layout that is written as an append of values. -/
theorem field_skip {n v off m : Nat} {q : List Byte} (h : n ≤ off) :
    field (leBytes n v ++ q) off m = field q (off - n) m := by
  rw [field_append_right _ _ (by rw [length_leBytes]; exact h), length_leBytes]

/-! ### The layouts of the commands -/

theorem decodeSource_bytes (src : Source) {set : SourceSettings} (span : 20 ≤ set.spanExp ∧ set.spanExp ≤ 23)
    (pre : set.preDepth ≤ 2 ^ 31) (post : 1 ≤ set.postDepth ∧ set.postDepth ≤ 2 ^ 31) (level : set.level ≤ 7)
    (bucket : 14 ≤ set.bucketExp ∧ set.bucketExp ≤ 17) :
    decodeSource (leBytes 1 src.num ++ set.bytes) = some (src, set) := by
  have gain := set.gain.isLt
  have number := Source.num_lt src
  have mode := set.mode.code_lt
  have rule := set.laneRule.code_lt
  have policy := set.mirrorPolicy.code_lt
  have pairMode := set.pairMode.code_lt
  have shed := set.shedRule.code_lt
  have shedAt : set.shedBoundary.val < 256 := by omega
  have resumeAt : set.resumeBoundary.val < 256 := by omega
  have enabled : (if set.enabled then 1 else 0) < 256 := by split <;> decide
  unfold decodeSource byteAt
  simp only [SourceSettings.bytes, yesNo_eq, List.append_assoc]
  simp (disch := omega) only [field_skip, field_first, field_whole, Nat.reduceSub, inRange_of_le]
  simp

theorem testBit_bitMask (v : Four Bool) :
    ⟨(bitMask v.toList).testBit 0, (bitMask v.toList).testBit 1, (bitMask v.toList).testBit 2,
      (bitMask v.toList).testBit 3⟩ = v := by
  obtain ⟨a, b, c, d⟩ := v
  cases a <;> cases b <;> cases c <;> cases d <;> rfl

theorem bitMask_lt (v : Four Bool) : bitMask v.toList < 16 := by
  obtain ⟨a, b, c, d⟩ := v
  cases a <;> cases b <;> cases c <;> cases d <;> decide

theorem decodeSpool_setBytes (m : PressureMonitor) {o : SpoolOperands} (h0 : o.boundary.a0 ≤ o.boundary.a1)
    (h1 : o.boundary.a1 ≤ o.boundary.a2) (h2 : o.boundary.a2 ≤ o.boundary.a3) (h3 : o.boundary.a3 ≤ 4096)
    (limit : 1 ≤ o.limit ∧ o.limit ≤ 7) : decodeSpool ((m.adopt o).setBytes) = some o := by
  have marks := bitMask_lt o.notify
  unfold decodeSpool byteAt
  simp only [PressureMonitor.setBytes, PressureMonitor.adopt, Four.toList, List.flatMap_cons, List.flatMap_nil,
    List.append_nil, List.append_assoc]
  simp only [Four.toList] at marks
  simp (disch := omega) only [field_skip, field_first, field_whole, Nat.reduceSub, inRange_of_le]
  have notify := testBit_bitMask o.notify
  simp only [Four.toList] at notify
  simp only [Option.bind_eq_bind, Option.bind_some, h0, h1, h2, and_self, if_true, notify]

theorem laneOf_bytes (lane : Lane) (o : LaneOperands) : laneOf (o.bytes lane) = some lane := by
  refine laneOf_eq_some ?_
  simp only [LaneOperands.bytes, List.append_assoc, byteAt]
  cases lane <;> rfl

theorem decodeLane_bytes (lane : Lane) {o : LaneOperands} (size : 20 ≤ o.settings.sizeExp ∧ o.settings.sizeExp ≤ 34)
    (aligned : alignBase o.settings.base o.settings.sizeExp = o.settings.base)
    (window : o.settings.base + 2 ^ o.settings.sizeExp ≤ 2 ^ 40) (cursors : o.dataCursor ≤ o.indexCursor + 1)
    (index : o.indexCursor ≤ 2 ^ o.settings.sizeExp - 1) (reserve : o.settings.reserve ≤ 2 ^ 20)
    (burst : o.settings.burst ≤ 4) (retry : o.settings.retryLimit ≤ 15)
    (response : 1 ≤ o.settings.responseTime ∧ o.settings.responseTime ≤ 255) (park : o.settings.parkDelay ≤ 255)
    (wake : 100 ≤ o.settings.wakeTime ∧ o.settings.wakeTime ≤ 10000) :
    decodeLane (o.bytes lane) = some o := by
  have blocks : 2 ^ o.settings.sizeExp ≤ 2 ^ 34 := Nat.pow_le_pow_right (by decide) size.2
  have positive : 0 < 2 ^ o.settings.sizeExp := Nat.two_pow_pos _
  have attention : (if o.settings.wakeOnAttention then 1 else 0) < 256 := by split <;> decide
  unfold decodeLane byteAt
  simp only [LaneOperands.bytes, yesNo_eq, List.append_assoc]
  simp (disch := omega) only [field_skip, field_first, field_whole, Nat.reduceSub, inRange_of_le]
  have data : inRange 0 (2 ^ o.settings.sizeExp) o.dataCursor = some o.dataCursor :=
    inRange_of_le (Nat.zero_le _) (by omega)
  have last : inRange 0 (2 ^ o.settings.sizeExp - 1) o.indexCursor = some o.indexCursor :=
    inRange_of_le (Nat.zero_le _) index
  simp only [Option.bind_eq_bind, Option.bind_some, yesNoOf_bit, aligned, data, last, cursors, window, and_self,
    if_true]

theorem decodeCheckpoint_bytes {o : CheckpointOperands} (period : 10 ≤ o.period ∧ o.period ≤ 60000)
    (lock : o.lockTime < o.period) : decodeCheckpoint o.bytes = some o := by
  unfold decodeCheckpoint
  simp only [CheckpointOperands.bytes]
  simp (disch := omega) only [field_skip, field_first, field_whole, Nat.reduceSub, inRange_of_le]
  simp only [Option.bind_eq_bind, Option.bind_some, lock, if_true]

/-! ### The arrangement of the notices (R174) -/

/-- The byte of an index in a list of one-byte values. -/
theorem byteAt_flatMap (l : List (Fin 4)) (q : List Byte) (i : Nat) (h : i < l.length) :
    byteAt ((l.flatMap fun c => leBytes 1 c.val) ++ q) i = l[i].val := by
  induction l generalizing i with
  | nil => exact absurd h (by simp)
  | cons c rest ih =>
    rw [List.flatMap_cons, List.append_assoc, byteAt]
    cases i with
    | zero => rw [field_first (by omega)]; rfl
    | succ i =>
      rw [field_skip (by omega)]
      exact ih i (by simpa using h)

theorem length_flatMap_leBytes (l : List (Fin 4)) : (l.flatMap fun c => leBytes 1 c.val).length = l.length := by
  induction l with
  | nil => rfl
  | cons c rest ih => rw [List.flatMap_cons, List.length_append, ih, length_leBytes, List.length_cons, Nat.add_comm]

theorem decodeNotices_bytes (o : NoticeOperands) : decodeNotices o.bytes = some o := by
  have byte (i : Fin 17) : byteAt o.bytes i.val = (o.classOf.get i).val := by
    rw [NoticeOperands.bytes, byteAt_flatMap _ _ _ (by simp)]
    rfl
  have fit : classesFit o.bytes = true := by
    rw [classesFit, List.all_eq_true]
    intro f _
    rw [byte]
    exact decide_eq_true (o.classOf.get f.idx).isLt
  have classes : (Vector.ofFn fun i : Fin 17 => Fin.ofNat 4 (byteAt o.bytes i.val)) = o.classOf := by
    ext i hi
    rw [Vector.getElem_ofFn, byte]
    simp [Fin.ofNat, Vector.get]
  have marks := bitMask_lt o.enable
  have enables : byteAt o.bytes 17 = bitMask o.enable.toList := by
    have place : (o.classOf.toList.flatMap fun c => leBytes 1 c.val).length = 17 := by
      rw [length_flatMap_leBytes, Vector.length_toList]
    rw [NoticeOperands.bytes, byteAt, field_append_right _ _ place.le, place, field_leBytes, Nat.mod_eq_of_lt (by omega)]
  simp only [decodeNotices, fit, if_true, classes, enables, testBit_bitMask]

/-! ### ARM RUN, CLEAR NOTICES and READ SPAN (R22, R27, R175) -/

theorem cons_eq_leBytes (b : Byte) (p : List Byte) : b :: p = leBytes 1 b.toNat ++ p := by
  simp [leBytes]

theorem decodeArm_bytes (runId epoch : Word16) {mask deadline : Nat} (named : mask ≤ 15) (bound : deadline ≤ 3600)
    (kind : Byte) :
    decodeArm (leBytes 2 runId.toNat ++ kind :: (leBytes 2 epoch.toNat ++ leBytes 1 mask ++ leBytes 2 deadline)) =
      (decodeStart kind.toNat epoch.toNat).map fun start =>
        { runId := runId, start := start, mask := mask, deadline := deadline } := by
  have run := runId.isLt
  have last := epoch.isLt
  have code := kind.isLt
  unfold decodeArm byteAt
  simp only [cons_eq_leBytes kind, List.append_assoc]
  simp (disch := omega) only [field_skip, field_first, field_whole, Nat.reduceSub, inRange_of_le]
  simp only [Option.bind_eq_bind, Option.bind_some, BitVec.ofNat_toNat, BitVec.setWidth_eq]
  cases decodeStart kind.toNat epoch.toNat <;> rfl

theorem decodeFlags_bytes (v : BitVec 17) : decodeFlags (leBytes 3 v.toNat) = some v := by
  have bound := v.isLt
  rw [decodeFlags, field_whole (by omega), if_pos bound, BitVec.ofNat_toNat, BitVec.setWidth_eq]

theorem decodeSpanName_slot {n : Nat} (rest : List Byte) (h : n < 4096) :
    decodeSpanName (0 :: (leBytes 2 n ++ rest)) = some (.slot n) := by
  unfold decodeSpanName
  rw [byteAt_cons_zero, cons_eq_leBytes]
  simp (disch := omega) only [field_skip, field_first, Nat.reduceSub]
  simp [Config.slotCount, h]

theorem decodeSpanName_sequence (runId : Word16) (seq : Word32) :
    decodeSpanName (1 :: (leBytes 2 runId.toNat ++ leBytes 4 seq.toNat)) = some (.sequence runId seq) := by
  have run := runId.isLt
  have number := seq.isLt
  unfold decodeSpanName
  rw [byteAt_cons_zero, cons_eq_leBytes]
  simp (disch := omega) only [field_skip, field_first, field_whole, Nat.reduceSub]
  simp

/-- Settles O20: each field is found behind the bytes before it, and its range admits it. -/
theorem fieldsAreReadAsCarried : Obligations.FieldsAreReadAsCarried := by
  refine ⟨fun src set h1 h2 pre h3 h4 level h5 h6 => decodeSource_bytes src ⟨h1, h2⟩ pre ⟨h3, h4⟩ level ⟨h5, h6⟩,
    fun m o h0 h1 h2 h3 h4 h5 => decodeSpool_setBytes m h0 h1 h2 h3 ⟨h4, h5⟩,
    fun lane o h1 h2 aligned window cursors index reserve burst retry h3 h4 park h5 h6 =>
      ⟨laneOf_bytes lane o,
        decodeLane_bytes lane ⟨h1, h2⟩ aligned window cursors index reserve burst retry ⟨h3, h4⟩ park ⟨h5, h6⟩⟩,
    fun o h1 h2 lock => decodeCheckpoint_bytes ⟨h1, h2⟩ lock, decodeNotices_bytes, ?_, decodeFlags_bytes,
    fun n seq h => decodeSpanName_slot _ h, decodeSpanName_sequence⟩
  intro runId epoch mask deadline named bound tail
  refine ⟨decodeArm_bytes runId epoch named bound 0, ?_⟩
  rw [decodeArm_bytes runId epoch named bound 1]
  simp [decodeStart]

end Sys2Proof.Machine

/-! The commands that only report: their payloads item by item (R22, R23, R41, R58, R99, R132, R155, R169, R175). -/

namespace Sys2Proof.Machine

/-! ### Items (R179) -/

/-- An item that may be absent, from its bytes. -/
def presence : Option (List Byte) → List Byte
  | some p => 1 :: p
  | none => [0]

theorem optional_eq {α : Type} (enc : α → List Byte) (o : Option α) : optional enc o = presence (o.map enc) := by
  cases o <;> rfl

theorem bitMask_toList (v : PerSource Bool) :
    bitMask v.toList = (if v.s0 then 1 else 0) + (if v.s1 then 2 else 0) + (if v.s2 then 4 else 0) +
      (if v.s3 then 8 else 0) := by
  obtain ⟨a, b, c, d⟩ := v
  cases a <;> cases b <;> cases c <;> cases d <;> rfl

/-- A command without checks and without effect, as its row. -/
theorem exec_reported {c : Command} {row : Instr} {s : State} {f : CmdFrame} {rest : List CmdFrame}
    {payload : List Byte} (hexec : exec row s = .next (c.take s)) (received : Receives s c.code f rest)
    (length : f.payload.length = c.len) (check : c.check f.payload s = .ok) (effect : c.effect = noEffect)
    (items : c.payload f.payload s = payload) : exec row s = .next (s.answered f rest .ok payload) := by
  rw [hexec, received.ok length check, effect, items, noEffect]

/-! ### READ RUN, READ SPOOL, READ PAIR and READ INDEX -/

theorem readRun_eq (s : State) :
    readRun s =
      leBytes 1 s.rc.runState.code ++ presence (s.rc.runId.map fun n => leBytes 2 n.toNat) ++
        presence (s.rc.runId.map fun _ => leBytes 1
          ((if s.rc.sourceSet.s0 then 1 else 0) + (if s.rc.sourceSet.s1 then 2 else 0) +
            (if s.rc.sourceSet.s2 then 4 else 0) + (if s.rc.sourceSet.s3 then 8 else 0))) ++
        s.rc.start.bytes ++
        presence (s.rc.startEpoch.map fun n => leBytes 2 n.toNat) ++
        presence (s.rc.lastEpoch.map fun n => leBytes 2 n.toNat) ++ leBytes 2 s.rc.deadline ++
        presence (s.rc.deadlineTimer.map (leBytes 3)) ++ yesNo s.rc.expired ++ s.rc.nextSeq.bytes ++
        leBytes 1 s.rc.lastEnd.code ++ s.rc.counters.bytes := by
  have set : optional (leBytes 1) (if s.rc.runId.isSome then some (bitMask s.rc.sourceSet.toList) else none) =
      presence (s.rc.runId.map fun _ => leBytes 1 (bitMask s.rc.sourceSet.toList)) := by
    cases s.rc.runId <;> rfl
  rw [← bitMask_toList]
  simp only [readRun, set, optional_eq]

theorem readSpool_eq (s : State) :
    readSpool s =
      leBytes 2 s.spm.boundary.a0 ++ yesNo s.spm.notify.a0 ++ leBytes 2 s.spm.boundary.a1 ++ yesNo s.spm.notify.a1 ++
        leBytes 2 s.spm.boundary.a2 ++ yesNo s.spm.notify.a2 ++ leBytes 2 s.spm.boundary.a3 ++
        yesNo s.spm.notify.a3 ++ leBytes 1 s.spm.limit ++ leBytes 2 s.st.occupancy ++
        leBytes 2 (4096 - s.st.slots.length) ++
        ([SpanState.filling, .held, .queued, .draining, .committed, .shed].flatMap fun st =>
          leBytes 2 (s.st.slots.filter fun p => decide (p.2.state = st)).length) ++
        ([s.spm.pressure.s0, s.spm.pressure.s1, s.spm.pressure.s2, s.spm.pressure.s3].flatMap fun p =>
          leBytes 1 p.code) := by
  simp only [readSpool, SpanTable.counts, List.flatMap_cons, List.map_cons, List.map_nil, List.flatMap_nil,
    List.append_nil, List.append_assoc, PerSource.toList]
  rfl

theorem PairContext.bytes_eq (s : State) (c : PairContext) :
    c.bytes s =
      leBytes 2 c.slot ++ leBytes 2 c.runId.toNat ++ leBytes 4 c.seq.toNat ++
        leBytes 1 (((s.span? c.slot).map fun sp => sp.source.num).getD 0) ++
        leBytes 1 (((s.span? c.slot).bind Span.mirrorPolicy).getD .strict).code ++
        leBytes 1 c.mode.code ++ leBytes 1 c.phase.code ++ leBytes 1 c.leader.num ++
        leBytes 1 c.leader.other.num ++ leBytes 1 c.outcome.l0.code ++ leBytes 1 c.outcome.l1.code ++
        if c.phase = .forming then 1 :: leBytes 1 (s.lane c.leader.other).state.code else [0] := by
  have follower : optional (fun st => leBytes 1 (LaneState.code st))
      (if c.phase = .forming then some (s.lane c.leader.other).state else none) =
        if c.phase = .forming then 1 :: leBytes 1 (s.lane c.leader.other).state.code else [0] := by
    split <;> rfl
  simp only [PairContext.bytes, PairContext.follower, State.pairPolicy, follower]

theorem offeredGaps_length (s : State) :
    (Source.all.filter fun src => (s.ci.get src).offeredGap.isSome).length =
      ([s.ci.s0, s.ci.s1, s.ci.s2, s.ci.s3].filter fun i => i.offeredGap.isSome).length := by
  have : [s.ci.s0, s.ci.s1, s.ci.s2, s.ci.s3] = Source.all.map s.ci.get := rfl
  rw [this, List.filter_map, List.length_map]
  rfl

/-! ### READ SPAN -/

theorem Summary.bytes_eq (m : Summary) :
    m.bytes = leBytes 4 m.count ++ leSigned 2 m.range.low ++ leSigned 2 m.range.high ++ leSigned 8 m.rawSum ++
      leSigned 7 m.scaledSum ++ leBytes 8 m.energy ++ yesNo m.saturated ++ leBytes 2 m.envelope.length := by
  simp only [Summary.bytes, extremesBytes, List.append_assoc]

theorem Span.bytes_eq (sp : Span) :
    sp.bytes = leBytes 2 sp.runId.toNat ++ leBytes 4 sp.seq.toNat ++ leBytes 1 sp.source.num ++ leBytes 6 sp.first ++
      leBytes 4 sp.count ++ leBytes 1 sp.retention.code ++ leBytes 1 sp.marks.length ++
      (sp.marks.flatMap fun m => leBytes 4 m.offset ++ leBytes 4 m.shortfall) ++ leBytes 2 sp.markOverflow ++
      leBytes 1 sp.laneRule.code ++ presence (sp.mirrorPolicy.map fun p => leBytes 1 p.code) ++
      leBytes 1 sp.copies.length ++ (sp.copies.flatMap fun c => leBytes 1 c.lane.num ++ leBytes 5 c.address) ++
      presence (sp.repairLane.map fun l => leBytes 1 l.num) ++ yesNo sp.degraded ++ leBytes 1 sp.attempts ++
      leBytes 1 sp.lastOutcome.code ++ presence (sp.shedCause.map fun c => [c.bit]) ++
      presence (sp.summary.map fun m =>
        leBytes 4 m.count ++ leSigned 2 m.range.low ++ leSigned 2 m.range.high ++ leSigned 8 m.rawSum ++
          leSigned 7 m.scaledSum ++ leBytes 8 m.energy ++ yesNo m.saturated ++ leBytes 2 m.envelope.length) := by
  simp only [Span.bytes, optional_eq, ← Summary.bytes_eq]
  rfl

theorem decodeSpanName_of_slot {p : List Byte} {n : Nat} (form : byteAt p 0 = 0) (slot : field p 1 2 = n)
    (h : n < 4096) : decodeSpanName p = some (.slot n) := by
  unfold decodeSpanName
  rw [form, slot]
  exact if_pos h

theorem decodeSpanName_of_sequence {p : List Byte} {runId : Word16} {seq : Word32} (form : byteAt p 0 = 1)
    (run : field p 1 2 = runId.toNat) (number : field p 3 4 = seq.toNat) :
    decodeSpanName p = some (.sequence runId seq) := by
  unfold decodeSpanName
  rw [form, run, number]
  simp

theorem decodeSpanName_eq_none {p : List Byte} (h : 1 < byteAt p 0 ∨ byteAt p 0 = 0 ∧ 4095 < field p 1 2) :
    decodeSpanName p = none := by
  unfold decodeSpanName Config.slotCount
  split
  · exact if_neg (by omega)
  · omega
  · rfl

theorem Source.ofNum_eq_none {n : Nat} (h : 3 < n) : Source.ofNum n = none := by
  unfold Source.ofNum
  split
  case h_5 => rfl
  all_goals omega

/-- READ SPAN of a name that decodes, and of one that does not. -/
theorem exec_readSpan {s : State} {f : CmdFrame} {rest : List CmdFrame} (received : Receives s 0x30 f rest)
    (length : f.payload.length = 7) :
    exec .readSpan s =
      .next (match decodeSpanName f.payload with
        | some n => s.answered f rest .ok (readSpan s n)
        | none => s.answered f rest .badValue []) := by
  cases h : decodeSpanName f.payload with
  | none =>
    exact exec_refused (c := readSpanCommand) rfl received length
      (show Status.ofFields (decodeSpanName f.payload) = .badValue by rw [h]; rfl) (by decide)
  | some n =>
    refine exec_reported (c := readSpanCommand) rfl received length
      (show Status.ofFields (decodeSpanName f.payload) = .ok by rw [h]; rfl) rfl ?_
    simp only [readSpanCommand, h]

/-! ### READ SOURCE, READ QUEUE, READ NOTICES and READ LANE -/

theorem readSource_eq (s : State) (src : Source) :
    readSource s src =
      (s.ci.get src).settings.bytes ++ leBytes 1 (s.ci.get src).intake.code ++
        leBytes 1 (s.spm.pressure.get src).code ++ yesNo (s.twu.get src).window.isSome ++
        presence ((s.twu.get src).window.map (leBytes 7)) ++ presence ((s.ci.get src).newest.map (leBytes 6)) ++
        yesNo (s.ci.get src).tagPending ++
        presence ((s.st.filling src).map fun p => leBytes 2 p.1 ++ leBytes 4 p.2.count) ++
        presence ((s.ci.get src).pendingGap.map Gap.bytes) ++
        presence ((s.ci.get src).offeredGap.map Gap.bytes) := by
  simp only [readSource, optional_eq]

theorem queueEntryBytes_eq (s : State) (n : Nat) :
    queueEntryBytes s n =
      leBytes 2 n ++ leBytes 4 (((s.span? n).map Span.seq).getD 0).toNat ++
        presence (((s.span? n).bind Span.repairLane).map fun l => leBytes 1 l.num) := by
  simp only [queueEntryBytes, optional_eq]

theorem readNotices_eq {s : State} (owed : ∀ c, s.nu.owed.get c = false) :
    readNotices s =
      (Flag.all.flatMap fun g => yesNo (s.nu.isPending g) ++ leBytes 1 (s.nu.cls g).val) ++
        (([0, 1, 2, 3] : List (Fin 4)).flatMap fun c => yesNo (s.nu.enable.get c) ++ [0]) ++
        [s.nu.noticeCount] ++ leBytes 2 s.clp.linkErrors ++ leBytes 1 s.clp.out.length ++
        leBytes 1 s.clp.rx.length := by
  have h0 : yesNo s.nu.owed.a0 = [0] := congrArg yesNo (owed 0)
  have h1 : yesNo s.nu.owed.a1 = [0] := congrArg yesNo (owed 1)
  have h2 : yesNo s.nu.owed.a2 = [0] := congrArg yesNo (owed 2)
  have h3 : yesNo s.nu.owed.a3 = [0] := congrArg yesNo (owed 3)
  simp only [readNotices, h0, h1, h2, h3, List.flatMap_cons, List.flatMap_nil, List.append_nil, List.append_assoc,
    Four.get]

/-- The bytes of a job, the code of whose buffer is given by its name. -/
theorem Job.bytes_index (j : IndexJob) :
    (Job.index j).bytes = [1, if j.buffer = .a then 0 else 1] ++ leBytes 5 j.address := by
  have code : leBytes 1 j.buffer.code = [if j.buffer = .a then 0 else 1] := by cases j.buffer <;> rfl
  rw [Job.bytes, code]
  rfl

/-- The bytes of a job, form first. -/
def jobItems : Job → List Byte
  | .span j =>
    0 :: leBytes 2 j.slot ++ leBytes 2 j.runId.toNat ++ leBytes 4 j.seq.toNat ++ leBytes 5 j.first ++
      leBytes 2 j.reserved ++ leBytes 1 j.phase.code ++ leBytes 5 j.next ++ leBytes 1 j.retries
  | .index j => [1, if j.buffer = .a then 0 else 1] ++ leBytes 5 j.address

theorem Job.bytes_eq (j : Job) : j.bytes = jobItems j := by
  cases j with
  | span j => rfl
  | index j => exact Job.bytes_index j

theorem readLane_eq (s : State) (lane : Lane) :
    readLane s lane =
      leBytes 1 (s.lane lane).state.code ++ leBytes 1 (s.lane lane).fault.code ++
        (yesNo (s.lane lane).dataFull ++ yesNo (s.lane lane).indexFull) ++
        leBytes 4 (s.lane lane).settings.reserve ++ leBytes 1 (s.lane lane).settings.burst ++
        leBytes 1 (s.lane lane).settings.retryLimit ++ leBytes 1 (s.lane lane).settings.responseTime ++
        leBytes 1 (s.lane lane).settings.parkDelay ++ leBytes 2 (s.lane lane).settings.wakeTime ++
        yesNo (s.lane lane).settings.wakeOnAttention ++ leBytes 1 (s.lane lane).effBurst ++
        yesNo (s.lane lane).effWake ++ leBytes 5 (s.lane lane).settings.base ++
        leBytes 1 (s.lane lane).settings.sizeExp ++ leBytes 5 (s.lane lane).dataCursor ++
        leSigned 5 (s.lane lane).indexCursor ++ leSigned 5 (s.lane lane).free ++
        leBytes 5 (s.lane lane).deadSpace ++ leBytes 1 (s.lane lane).failures ++
        leBytes 1 (s.lane lane).action.code ++ yesNo (s.lane lane).wakePending ++
        presence ((s.lane lane).report.map ModuleReport.bytes) ++ yesNo (s.lane lane).attentionSeen ++
        leBytes 1 (s.roleCode lane) ++ presence ((s.lane lane).job.map jobItems) := by
  rw [← funext Job.bytes_eq, ← optional_eq, ← optional_eq, ← List.append_assoc (leBytes 1 _ ++ leBytes 1 _)]
  rfl

/-- READ LANE reports the lane that it carries, and clears attention-seen. -/
theorem exec_readLane {s : State} {f : CmdFrame} {rest : List CmdFrame} {lane : Lane}
    (received : Receives s 0x47 f rest) (payload : f.payload = [BitVec.ofNat 8 lane.num]) :
    exec .readLane s =
      .next ((s.answered f rest .ok (readLane s lane)).onLane lane fun a => { a with attentionSeen := false }) := by
  have number : laneOf f.payload = some lane := by
    rw [payload]
    cases lane <;> rfl
  have length : f.payload.length = 1 := by rw [payload]; rfl
  have check : readLaneCommand.check f.payload s = .ok := by
    simp only [readLaneCommand, laneCheck, number]
    rfl
  have run : exec .readLane s = .next (readLaneCommand.take s) := rfl
  rw [run, received.ok (c := readLaneCommand) length check]
  simp only [readLaneCommand, onLaneOf, number]

/-! ### The reports, each in the words of the statement -/

theorem readSpan_slot {s : State} {f : CmdFrame} {rest : List CmdFrame} {n : Nat} (received : Receives s 0x30 f rest)
    (length : f.payload.length = 7) (form : byteAt f.payload 0 = 0) (slot : field f.payload 1 2 = n) (h : n < 4096) :
    exec .readSpan s = .next (s.answered f rest .ok (readSpan s (.slot n))) := by
  rw [exec_readSpan received length, decodeSpanName_of_slot form slot h]

theorem readSpan_sequence {s : State} {f : CmdFrame} {rest : List CmdFrame} {runId : Word16} {seq : Word32}
    (received : Receives s 0x30 f rest) (length : f.payload.length = 7) (form : byteAt f.payload 0 = 1)
    (run : field f.payload 1 2 = runId.toNat) (number : field f.payload 3 4 = seq.toNat) :
    exec .readSpan s = .next (s.answered f rest .ok (readSpan s (.sequence runId seq))) := by
  rw [exec_readSpan received length, decodeSpanName_of_sequence form run number]

/-- READ SOURCE and READ QUEUE of a source number, and of one above 3. -/
theorem exec_readSource {s : State} {f : CmdFrame} {rest : List CmdFrame} (received : Receives s 0x21 f rest)
    (length : f.payload.length = 1) :
    (∀ src : Source, byteAt f.payload 0 = src.num →
      exec .readSource s = .next (s.answered f rest .ok (readSource s src))) ∧
    (3 < byteAt f.payload 0 → exec .readSource s = .next (s.answered f rest .badValue [])) := by
  refine ⟨fun src hsrc => ?_, fun high => ?_⟩
  · have number : Source.ofNum (byteAt f.payload 0) = some src := by rw [hsrc, Source.ofNum_num]
    refine exec_reported (c := readSourceCommand) rfl received length
      (show Status.ofFields (Source.ofNum (byteAt f.payload 0)) = .ok by rw [number]; rfl) rfl ?_
    simp only [readSourceCommand, number]
  · exact exec_refused (c := readSourceCommand) rfl received length
      (show Status.ofFields (Source.ofNum (byteAt f.payload 0)) = .badValue by
        rw [Source.ofNum_eq_none high]; rfl) (by decide)

theorem exec_readQueue {s : State} {f : CmdFrame} {rest : List CmdFrame} (received : Receives s 0x31 f rest)
    (length : f.payload.length = 3) :
    (∀ src : Source, byteAt f.payload 0 = src.num →
      exec .readQueue s = .next (s.answered f rest .ok (readQueue s src (field f.payload 1 2)))) ∧
    (3 < byteAt f.payload 0 → exec .readQueue s = .next (s.answered f rest .badValue [])) := by
  refine ⟨fun src hsrc => ?_, fun high => ?_⟩
  · have number : Source.ofNum (byteAt f.payload 0) = some src := by rw [hsrc, Source.ofNum_num]
    refine exec_reported (c := readQueueCommand) rfl received length
      (show Status.ofFields (Source.ofNum (byteAt f.payload 0)) = .ok by rw [number]; rfl) rfl ?_
    simp only [readQueueCommand, number]
  · exact exec_refused (c := readQueueCommand) rfl received length
      (show Status.ofFields (Source.ofNum (byteAt f.payload 0)) = .badValue by
        rw [Source.ofNum_eq_none high]; rfl) (by decide)

theorem readIndex_eq (s : State) :
    readIndex s =
      s.iu.buffers.a.bytes ++ s.iu.buffers.b.bytes ++ presence (s.iu.writing.map Writing.bytes) ++
        leBytes 2 (s.iu.waitSpans.length +
          ([s.ci.s0, s.ci.s1, s.ci.s2, s.ci.s3].filter fun i => i.offeredGap.isSome).length +
          if s.iu.waitRunEnd.isSome then 1 else 0) ++
        leBytes 2 s.iu.waitSpans.length ++ leBytes 4 s.iu.blockSeq.toNat ++ presence (s.iu.prev.l0.map (leBytes 5)) ++
        presence (s.iu.prev.l1.map (leBytes 5)) ++ leBytes 2 s.iu.periodSetting ++ leBytes 2 s.iu.lockSetting ++
        leBytes 2 s.iu.period ++ leBytes 2 s.iu.lockTime ++ presence (s.iu.timer.map (leBytes 2)) ++
        yesNo s.iu.lock := by
  simp only [readIndex, State.waiting, offeredGaps_length, optional_eq]

/-- Settles O22: each command answers its report, and the items of each report are those that its rule lists. -/
theorem readCommandsReport : Obligations.ReadCommandsReport := by
  unfold Obligations.ReadCommandsReport
  intro yes opt settings gap summary record found
  refine ⟨by decide, fun s f rest => ⟨?run, ?spool, ?pair, ?index, ?source, ?queue, ?span⟩, ?notices, ?lane⟩
  case run =>
    intro received length r c mask
    refine exec_reported (c := readRunCommand) rfl received length rfl rfl ((readRun_eq s).trans ?_)
    simp only [r]
    cases s.rc.start <;> rfl
  case spool =>
    intro received length m slotsIn
    exact exec_reported (c := readSpoolCommand) rfl received length rfl rfl (readSpool_eq s)
  case pair =>
    intro received length
    refine exec_reported (c := readPairCommand) rfl received length rfl rfl ((optional_eq _ _).trans ?_)
    rw [funext (PairContext.bytes_eq s)]
    rfl
  case index =>
    intro received length u gaps buffer
    exact exec_reported (c := readIndexCommand) rfl received length rfl rfl (readIndex_eq s)
  case source =>
    intro received length
    refine ⟨?_, (exec_readSource received length).2⟩
    intro src hsrc i w
    rw [(exec_readSource received length).1 src hsrc, readSource_eq]
    rfl
  case queue =>
    intro received length
    refine ⟨?_, (exec_readQueue received length).2⟩
    intro src hsrc q part
    rw [(exec_readQueue received length).1 src hsrc, readQueue, funext (queueEntryBytes_eq s)]
    rfl
  case span =>
    intro received length
    have listed (n : Nat) (sp : Span) : foundBytes n sp = found n sp := by
      rw [foundBytes, Span.bytes_eq]
      rfl
    refine ⟨fun n form slot h => ?_, fun runId seq form run number => ?_, fun bad => ?_⟩
    · rw [readSpan_slot received length form slot h]
      simp only [readSpan, listed]
      rfl
    · rw [readSpan_sequence received length form run number]
      simp only [readSpan, SpanTable.named, listed]
      rfl
    · rw [exec_readSpan received length, decodeSpanName_eq_none bad]
  case notices =>
    intro s f rest received length
    refine exec_reported (c := readNoticesCommand) rfl received length rfl rfl ((readNotices_eq received.owed).trans ?_)
    rw [received.oldest, List.length_cons, List.append_assoc _ (leBytes 1 _) (leBytes 1 _)]
    rfl
  case lane =>
    intro s f rest lane received payload a set role job
    rw [exec_readLane received payload, readLane_eq]
    rfl

end Sys2Proof.Machine

/-! What is done source by source: the start of a run, the masks, and the samples of a source that takes none (R29,
R30, R46, R51, R74). -/

namespace Sys2Proof.Machine

/-! ### A change of each source's own part -/

theorem IntakeState.takes_eq (i : IntakeState) : i.takes = (i == .taking || i == .refusing) := by cases i <;> rfl

/-- A change of each source's intake, by what the Run Controller says, is one change of all four. -/
theorem forSources_setCi {f : Source → State → State} {g : Source → IntakeSource → IntakeSource} (s : State)
    (h : ∀ src t, t.rc = s.rc → f src t = t.setCi (t.ci.set src (g src (t.ci.get src)))) :
    forSources f s = s.setCi (PerSource.of fun src => g src (s.ci.get src)) := by
  have next (src : Source) (v) : f src (s.setCi v) = s.setCi (v.set src (g src (v.get src))) := h src (s.setCi v) rfl
  rw [forSources, h .s0 s rfl, next, next, next]
  rfl

/-- A change of each source's window, by what the intakes say, is one change of all four. -/
theorem forSources_setTwu {f : Source → State → State} {g : Source → WindowSource → WindowSource} (s : State)
    (h : ∀ src t, t.ci = s.ci → f src t = t.setTwu (t.twu.set src (g src (t.twu.get src)))) :
    forSources f s = s.setTwu (PerSource.of fun src => g src (s.twu.get src)) := by
  have next (src : Source) (v) : f src (s.setTwu v) = s.setTwu (v.set src (g src (v.get src))) := h src (s.setTwu v) rfl
  rw [forSources, h .s0 s rfl, next, next, next]
  rfl

theorem setCi_same (s : State) (src : Source) : s.setCi (s.ci.set src (s.ci.get src)) = s := by
  rw [PerSource.set_get]
  rfl

theorem setTwu_same (s : State) (src : Source) : s.setTwu (s.twu.set src (s.twu.get src)) = s := by
  rw [PerSource.set_get]
  rfl

/-! ### The start of a run (R29, R30) -/

/-- The intake of a source of the run as the run starts. -/
def IntakeSource.started (i : IntakeSource) : IntakeSource := ⟨i.settings, .taking, none, false, none, none⟩

theorem startIntakes_eq (s : State) :
    forSources State.startIntake s = s.setCi (PerSource.of fun src =>
      if s.rc.sourceSet.get src then (s.ci.get src).started else s.ci.get src) := by
  refine forSources_setCi (g := fun src i => if s.rc.sourceSet.get src then i.started else i) s
    fun src t hrc => ?_
  unfold State.startIntake
  rw [hrc]
  split
  · rfl
  · exact (setCi_same t src).symm

/-- Settles O25: the intakes open together, and the rest is the start's own record. -/
theorem runEntersRunning : Obligations.RunEntersRunning := by
  intro s e
  rw [State.enterRunning, startIntakes_eq]
  rfl

theorem takeEpoch_of_armed {s : State} {e : Word16} (armed : s.rc.runState = .armed)
    (awaited : s.rc.start = .atEpoch e) :
    s.takeEpoch e = (s.setRc { s.rc with lastEpoch := some e }).enterRunning (some e) := if_pos ⟨armed, awaited⟩

theorem takeEpoch_of_other {s : State} {e : Word16} (h : s.rc.runState ≠ .armed ∨ s.rc.start ≠ .atEpoch e) :
    s.takeEpoch e = s.setRc { s.rc with lastEpoch := some e } := if_neg (not_and_or.mpr h)

theorem exec_epochMark (s : State) (e : Word16) : exec (.epochMark e) s = .next (s.takeEpoch e) := rfl

/-- Settles O26: the two ways an epoch mark is taken. -/
theorem epochMarkStartsTheArmedRun : Obligations.EpochMarkStartsTheArmedRun := fun s e =>
  ⟨fun armed awaited => by rw [exec_epochMark, takeEpoch_of_armed armed awaited],
    fun h => by rw [exec_epochMark, takeEpoch_of_other h]⟩

/-! ### Trigger tags and MARK (R51, R74) -/

theorem tagSources_eq (s : State) (mask : Nat) :
    forSources (State.tagSource mask) s = s.setCi (PerSource.of fun src =>
      if inMask mask src && (s.ci.get src).intake.takes then { s.ci.get src with tagPending := true }
      else s.ci.get src) := by
  refine forSources_setCi
    (g := fun src i => if inMask mask src && i.intake.takes then { i with tagPending := true } else i) s
    fun src t _ => ?_
  unfold State.tagSource
  split
  · next named =>
    rw [if_pos (by exact named)]
    rfl
  · next other =>
    rw [if_neg (by exact other), setCi_same]

theorem markSources_eq (s : State) (mask : Nat) :
    forSources (State.markSource mask) s = s.setTwu (PerSource.of fun src =>
      if inMask mask src && (s.ci.get src).intake.takes then { s.twu.get src with markPending := true }
      else s.twu.get src) := by
  refine forSources_setTwu
    (g := fun src w => if inMask mask src && (s.ci.get src).intake.takes then { w with markPending := true } else w)
    s fun src t hci => ?_
  unfold State.markSource
  rw [State.intake_eq, hci]
  split
  · rfl
  · exact (setTwu_same t src).symm

theorem decodeMask_eq_none {p : List Byte} (h : 15 < byteAt p 0) : decodeMask p = none := if_neg (by omega)

theorem decodeMask_eq_some {p : List Byte} (h : byteAt p 0 ≤ 15) : decodeMask p = some (byteAt p 0) :=
  if_pos ⟨Nat.zero_le _, h⟩

theorem markCheck_of_running {s : State} (p : List Byte) (h : s.rc.runState = .running) :
    markCheck p s = .ofFields (decodeMask p) := by
  rw [markCheck, h]
  rfl

/-- MARK in RUNNING, by its mask. -/
theorem exec_mark {s : State} {f : CmdFrame} {rest : List CmdFrame} {m : Byte} (received : Receives s 0x18 f rest)
    (payload : f.payload = [m]) (running : s.rc.runState = .running) :
    (15 < m.toNat → exec .mark s = .next (s.answered f rest .badValue [])) ∧
    (m.toNat ≤ 15 →
      exec .mark s = .next (forSources (State.markSource m.toNat) (s.answered f rest .ok []))) := by
  have length : f.payload.length = 1 := by rw [payload]; rfl
  have mask : byteAt f.payload 0 = m.toNat := by rw [payload, byteAt_cons_zero]
  refine ⟨fun high => ?_, fun low => ?_⟩
  · refine exec_refused (c := markCommand) rfl received length ?_ (by decide)
    exact (markCheck_of_running _ running).trans (by rw [decodeMask_eq_none (by omega)]; rfl)
  · have check : markCommand.check f.payload s = .ok :=
      (markCheck_of_running _ running).trans (by rw [decodeMask_eq_some (by omega)]; rfl)
    have run : exec .mark s = .next (markCommand.take s) := rfl
    rw [run, received.ok (c := markCommand) length check, ← mask]
    rfl

theorem exec_triggerTag (s : State) (mask : BitVec 4) :
    exec (.triggerTag mask) s = .next (forSources (State.tagSource mask.toNat) s) := rfl

/-- Settles O30: tag and MARK reach the named sources that take samples. -/
theorem tagAndMarkReachTakingSources : Obligations.TagAndMarkReachTakingSources := by
  refine ⟨fun s mask => ?_, fun s f rest m received payload running => ?_⟩
  · rw [exec_triggerTag, tagSources_eq]
    simp only [IntakeState.takes_eq]
    rfl
  · refine ⟨(exec_mark received payload running).1, fun low => ?_⟩
    rw [(exec_mark received payload running).2 low, markSources_eq]
    simp only [IntakeState.takes_eq]
    rfl

/-! ### A source that takes no samples (R46) -/

theorem takeSample_of_not {src : Source} {s : State} (h : (s.intake src).intake.takes = false) (x : Sample) :
    State.takeSample src s x = s := by
  rw [State.takeSample, h]
  rfl

theorem takeSamples_of_not {src : Source} {s : State} (h : (s.intake src).intake.takes = false) (xs : List Sample) :
    xs.foldl (State.takeSample src) s = s := by
  induction xs with
  | nil => rfl
  | cons x xs ih => rw [List.foldl_cons, takeSample_of_not h, ih]

theorem age_of_not {src : Source} {s : State} (h : (s.intake src).intake.takes = false) : s.age src = s := by
  unfold State.age
  rw [h]
  split <;> rfl

/-- Settles O31: neither the samples nor the ageing at the packet's end reach a source that takes none. -/
theorem samplesOfAnIdleSourceAreIgnored : Obligations.SamplesOfAnIdleSourceAreIgnored := by
  intro s src xs h
  have ignores : (s.intake src).intake.takes = false := by obtain h | h := h <;> rw [h] <;> rfl
  rw [exec_samplePacket, State.takePacket, takeSamples_of_not ignores, age_of_not ignores]

end Sys2Proof.Machine

/-! Spool pressure and the commands that set the spool and a source (R43, R44, R88 to R92). -/

namespace Sys2Proof.Machine

/-! ### What a flag leaves as it was (R173) -/

theorem noticeOrOwe_eq (s : State) (c : Fin 4) :
    s.noticeOrOwe c = (s.setClp (s.noticeOrOwe c).clp).setNu (s.noticeOrOwe c).nu := by
  unfold State.noticeOrOwe
  split <;> rfl

/-- A flag touches the Notice Unit and the outgoing queue, and nothing else. -/
theorem setFlag_eq (s : State) (f : Flag) : s.setFlag f = (s.setClp (s.setFlag f).clp).setNu (s.setFlag f).nu := by
  unfold State.setFlag
  split
  · rfl
  · dsimp only
    split
    · rw [noticeOrOwe_eq]
      rfl
    · rfl

@[simp] theorem setFlag_mem (s : State) (f : Flag) : (s.setFlag f).mem = s.mem := by rw [setFlag_eq]; rfl
@[simp] theorem setFlag_rc (s : State) (f : Flag) : (s.setFlag f).rc = s.rc := by rw [setFlag_eq]; rfl
@[simp] theorem setFlag_ci (s : State) (f : Flag) : (s.setFlag f).ci = s.ci := by rw [setFlag_eq]; rfl
@[simp] theorem setFlag_twu (s : State) (f : Flag) : (s.setFlag f).twu = s.twu := by rw [setFlag_eq]; rfl
@[simp] theorem setFlag_se (s : State) (f : Flag) : (s.setFlag f).se = s.se := by rw [setFlag_eq]; rfl
@[simp] theorem setFlag_spm (s : State) (f : Flag) : (s.setFlag f).spm = s.spm := by rw [setFlag_eq]; rfl
@[simp] theorem setFlag_ds (s : State) (f : Flag) : (s.setFlag f).ds = s.ds := by rw [setFlag_eq]; rfl
@[simp] theorem setFlag_al (s : State) (f : Flag) : (s.setFlag f).al = s.al := by rw [setFlag_eq]; rfl

theorem noticeOrOwe_flags (s : State) (c : Fin 4) : (s.noticeOrOwe c).nu.flags = s.nu.flags := by
  unfold State.noticeOrOwe
  split <;> rfl

/-- The flags pending after one is set. -/
theorem setFlag_isPending (s : State) (f g : Flag) :
    (s.setFlag f).nu.isPending g = (s.nu.isPending g || decide (g = f)) := by
  cases on : s.nu.isPending f with
  | true =>
    rw [setFlag_of_pending on]
    by_cases hg : g = f
    · rw [hg, on]
      rfl
    · rw [decide_eq_false hg, Bool.or_false]
  | false =>
    rw [setFlag_of_clear on, ← isPending_or_bit]
    unfold NoticeUnit.isPending
    dsimp only
    split
    · rw [noticeOrOwe_flags]
      rfl
    · rfl

/-! ### The pressure states (R90, R91) -/

/-- The pressure state that a source takes at an occupancy v, from the state p. -/
def SourceSettings.pressureAt (set : SourceSettings) (b : Four Nat) (v : Nat) (p : Pressure) : Pressure :=
  if set.enabled then nextPressure p v (b.get set.shedBoundary) (b.get set.resumeBoundary) else p

/-- The intake of a source as its pressure state goes from p to q. -/
def IntakeSource.moved (i : IntakeSource) (p q : Pressure) : IntakeSource :=
  if q = p then i
  else if i.settings.shedRule = .newest then { i with intake := i.intake.underPressure q } else i

theorem setPressure_eq (s : State) (src : Source) (q : Pressure) :
    s.setPressure src q =
      (s.setSpm { s.spm with pressure := s.spm.pressure.set src q }).setCi
        (s.ci.set src ((s.ci.get src).moved (s.spm.pressure.get src) q)) := by
  unfold State.setPressure IntakeSource.moved
  dsimp only
  split
  · rw [PerSource.set_get]
    rfl
  · rw [State.settings_eq]
    cases (s.ci.get src).settings.shedRule with
    | newest => rfl
    | keepAll | oldest =>
      simp only [reduceCtorEq, if_false]
      rw [PerSource.set_get]
      rfl

theorem evalPressure_eq (v : Nat) (src : Source) (s : State) :
    State.evalPressure v src s =
      (s.setSpm { s.spm with
        pressure := s.spm.pressure.set src
          ((s.ci.get src).settings.pressureAt s.spm.boundary v (s.spm.pressure.get src)) }).setCi
        (s.ci.set src ((s.ci.get src).moved (s.spm.pressure.get src)
          ((s.ci.get src).settings.pressureAt s.spm.boundary v (s.spm.pressure.get src)))) := by
  unfold State.evalPressure SourceSettings.pressureAt
  rw [State.settings_eq]
  split
  · exact setPressure_eq s src _
  · rw [IntakeSource.moved, if_pos rfl, PerSource.set_get, PerSource.set_get]
    rfl

/-- A change of each source's pressure state and intake, by its own, is one change of all four. -/
theorem forSources_setPressure {f : Source → State → State} {p : Source → Pressure → IntakeSource → Pressure}
    {g : Source → Pressure → IntakeSource → IntakeSource} (s : State)
    (h : ∀ src pr ci, f src ((s.setSpm { s.spm with pressure := pr }).setCi ci) =
      (s.setSpm { s.spm with pressure := pr.set src (p src (pr.get src) (ci.get src)) }).setCi
        (ci.set src (g src (pr.get src) (ci.get src)))) :
    forSources f s =
      (s.setSpm { s.spm with
        pressure := PerSource.of fun src => p src (s.spm.pressure.get src) (s.ci.get src) }).setCi
        (PerSource.of fun src => g src (s.spm.pressure.get src) (s.ci.get src)) := by
  rw [forSources, show f .s0 s = _ from h .s0 s.spm.pressure s.ci, h, h, h]
  rfl

/-- The sources are evaluated each by its own settings and pressure state. -/
theorem evalAllPressure_eq (v : Nat) (s : State) :
    s.evalAllPressure v =
      (s.setSpm { s.spm with
        pressure := PerSource.of fun src =>
          (s.ci.get src).settings.pressureAt s.spm.boundary v (s.spm.pressure.get src) }).setCi
        (PerSource.of fun src =>
          (s.ci.get src).moved (s.spm.pressure.get src)
            ((s.ci.get src).settings.pressureAt s.spm.boundary v (s.spm.pressure.get src))) :=
  forSources_setPressure (p := fun _ p i => i.settings.pressureAt s.spm.boundary v p)
    (g := fun _ p i => i.moved p (i.settings.pressureAt s.spm.boundary v p)) s fun src _ _ => evalPressure_eq v src _

theorem PerSource.get_of {α : Type} (g : Source → α) (src : Source) : (PerSource.of g).get src = g src := by
  cases src <;> rfl

theorem crossed_eq (u v b : Nat) : crossed u v b = true ↔ u < b ∧ b ≤ v ∨ v < b ∧ b ≤ u := by
  simp only [crossed, Bool.or_eq_true, Bool.and_eq_true, decide_eq_true_eq]

theorem crosses_iff (m : PressureMonitor) (u v : Nat) :
    m.crosses u v = true ↔ ∃ i : Fin 4, m.notify.get i = true ∧
      (u < m.boundary.get i ∧ m.boundary.get i ≤ v ∨ v < m.boundary.get i ∧ m.boundary.get i ≤ u) := by
  simp only [PressureMonitor.crosses, Bool.or_eq_true, Bool.and_eq_true, crossed_eq, Fin.exists_fin_succ, IsEmpty.exists_iff, or_false, or_assoc]
  rfl

/-- An occupancy change: the flag by the crossings, then the evaluation of every source. -/
theorem occupancyChanged_eq (s : State) (u v : Nat) :
    s.occupancyChanged u v =
      (if s.spm.crosses u v then s.setFlag .spoolLevel else s).evalAllPressure v := rfl

theorem occupancyChanged_nu (s : State) (u v : Nat) :
    (s.occupancyChanged u v).nu = (if s.spm.crosses u v then s.setFlag .spoolLevel else s).nu := by
  rw [occupancyChanged_eq, evalAllPressure_eq]
  rfl

theorem occupancyChanged_pressure (s : State) (u v : Nat) (src : Source) :
    (s.occupancyChanged u v).spm.pressure.get src = (s.settings src).pressureAt s.spm.boundary v (s.spm.pressure.get src) := by
  rw [occupancyChanged_eq, evalAllPressure_eq, State.setCi_spm, State.setSpm_spm, PerSource.get_of]
  split <;> simp only [setFlag_spm, setFlag_ci, State.settings_eq]

theorem occupancyChanged_intake (s : State) (u v : Nat) (src : Source) :
    (s.occupancyChanged u v).intake src =
      (s.intake src).moved (s.spm.pressure.get src) ((s.settings src).pressureAt s.spm.boundary v (s.spm.pressure.get src)) := by
  rw [occupancyChanged_eq, evalAllPressure_eq, State.intake_eq, State.setCi_ci, PerSource.get_of]
  split <;> simp only [setFlag_spm, setFlag_ci, State.settings_eq, State.intake_eq]

theorem pressureAt_of_calm {set : SourceSettings} (b : Four Nat) (v : Nat) (enabled : set.enabled = true) :
    set.pressureAt b v .calm = if b.get set.shedBoundary ≤ v then .shedding else .calm := if_pos enabled

theorem pressureAt_of_shedding {set : SourceSettings} (b : Four Nat) (v : Nat) (enabled : set.enabled = true) :
    set.pressureAt b v .shedding = if v ≤ b.get set.resumeBoundary then .calm else .shedding := if_pos enabled

theorem pressureAt_of_disabled {set : SourceSettings} (b : Four Nat) (v : Nat) (p : Pressure)
    (disabled : set.enabled = false) : set.pressureAt b v p = p :=
  if_neg (by rw [disabled]; exact Bool.false_ne_true)

/-- Becoming SHEDDING turns TAKING to REFUSING, and becoming CALM turns REFUSING to TAKING. -/
theorem underPressure_eq (i : IntakeState) (q : Pressure) :
    i.underPressure q =
      if q = .shedding ∧ i = .taking then .refusing else if q = .calm ∧ i = .refusing then .taking else i := by
  cases q <;> cases i <;> rfl

/-- The intake moves with the pressure state of an enabled NEWEST source, and only then. -/
theorem moved_pressureAt (i : IntakeSource) (b : Four Nat) (v : Nat) (p : Pressure) :
    i.moved p (i.settings.pressureAt b v p) = { i with
      intake :=
        if i.settings.enabled ∧ i.settings.shedRule = .newest then
          if p = .calm ∧ b.get i.settings.shedBoundary ≤ v ∧ i.intake = .taking then .refusing
          else if p = .shedding ∧ v ≤ b.get i.settings.resumeBoundary ∧ i.intake = .refusing then .taking
          else i.intake
        else i.intake } := by
  by_cases enabled : i.settings.enabled = true
  case neg =>
    rw [pressureAt_of_disabled b v p (Bool.not_eq_true _ ▸ enabled), IntakeSource.moved, if_pos rfl,
      if_neg fun h => enabled h.1]
  by_cases newest : i.settings.shedRule = .newest
  case neg =>
    rw [IntakeSource.moved, if_neg newest, ite_self, if_neg fun h => newest h.2]
  rw [IntakeSource.moved, if_pos newest, underPressure_eq, if_pos (And.intro enabled newest)]
  cases p with
  | calm =>
    rw [pressureAt_of_calm b v enabled]
    by_cases shed : b.get i.settings.shedBoundary ≤ v <;> simp [shed]
  | shedding =>
    rw [pressureAt_of_shedding b v enabled]
    by_cases resume : v ≤ b.get i.settings.resumeBoundary <;> simp [resume]

/-- Settles O39: the flag by the boundaries crossed, and each source by the table of R91. -/
theorem occupancyChangeMovesThePressure : Obligations.OccupancyChangeMovesThePressure := by
  refine fun s u v => ⟨fun clear => ?_, ?_, fun src disabled => ?_, ?_⟩
  · rw [occupancyChanged_nu, ← crosses_iff]
    split
    · next crosses => simp only [setFlag_isPending, crosses, decide_true, Bool.or_true]
    · next crosses => simp only [clear, crosses]
  · intro src enabled shedAt resumeAt
    rw [occupancyChanged_pressure]
    exact ⟨fun calm => by rw [calm, pressureAt_of_calm _ v enabled],
      fun shedding => by rw [shedding, pressureAt_of_shedding _ v enabled]⟩
  · rw [occupancyChanged_pressure, pressureAt_of_disabled _ v _ disabled]
  · intro src shedAt resumeAt
    rw [occupancyChanged_intake]
    exact moved_pressureAt (s.intake src) s.spm.boundary v (s.spm.pressure.get src)

/-! ### SET SPOOL (R88, R89, R92) -/

theorem inRange_eq_some {low high v w : Nat} : inRange low high v = some w ↔ (low ≤ v ∧ v ≤ high) ∧ v = w := by
  unfold inRange
  split
  · next h => simp [h]
  · next h => simp [h]

/-- What the fields of SET SPOOL say once they pass its checks. -/
theorem decodeSpool_fields {p : List Byte} {o : SpoolOperands} (h : decodeSpool p = some o) :
    (∀ k, k < 4 → field p (2 * k) 2 ≤ 4096) ∧ (1 ≤ byteAt p 9 ∧ byteAt p 9 ≤ 7) ∧
      ∀ k, k < 3 → field p (2 * k) 2 ≤ field p (2 * (k + 1)) 2 := by
  unfold decodeSpool at h
  simp only [Option.bind_eq_bind, Option.bind_eq_some_iff, inRange_eq_some] at h
  obtain ⟨_, ⟨h0, rfl⟩, _, ⟨h1, rfl⟩, _, ⟨h2, rfl⟩, _, ⟨h3, rfl⟩, _, ⟨limit, rfl⟩, h⟩ := h
  split at h
  case isFalse => exact absurd h (by simp)
  next rising =>
  refine ⟨fun k hk => ?_, limit, fun k hk => ?_⟩
  · match k with
    | 0 => exact h0.2
    | 1 => exact h1.2
    | 2 => exact h2.2
    | 3 => exact h3.2
  · match k with
    | 0 => exact rising.1
    | 1 => exact rising.2.1
    | 2 => exact rising.2.2

/-- A field of SET SPOOL out of its range, or boundaries that fall. -/
theorem decodeSpool_eq_none {p : List Byte}
    (h : (∃ k, k < 4 ∧ 4096 < field p (2 * k) 2) ∨ byteAt p 9 = 0 ∨ 7 < byteAt p 9 ∨
      ∃ k, k < 3 ∧ field p (2 * (k + 1)) 2 < field p (2 * k) 2) : decodeSpool p = none := by
  rw [Option.eq_none_iff_forall_ne_some]
  intro o ho
  obtain ⟨bounds, limit, rising⟩ := decodeSpool_fields ho
  obtain ⟨k, hk, high⟩ | zero | high | ⟨k, hk, falls⟩ := h
  · exact absurd (bounds k hk) (by omega)
  · omega
  · omega
  · exact absurd (rising k hk) (by omega)

theorem Source.mem_all (src : Source) : src ∈ Source.all := by cases src <;> decide

theorem fits_iff (set : SourceSettings) (b : Four Nat) :
    set.fits b = true ↔ (set.enabled = true → b.get set.resumeBoundary < b.get set.shedBoundary) := by
  unfold SourceSettings.fits
  cases set.enabled <;> simp

theorem setSpoolCheck_of_none {p : List Byte} (s : State) (h : decodeSpool p = none) :
    setSpoolCheck p s = .badValue := by
  rw [setSpoolCheck, h]
  rfl

theorem setSpoolCheck_of_some {p : List Byte} {o : SpoolOperands} (s : State) (h : decodeSpool p = some o) :
    setSpoolCheck p s =
      if Source.all.all fun src => (s.settings src).fits o.boundary then .ok else .badValue := by
  rw [setSpoolCheck, h]
  rfl

/-- Settles O40: SET SPOOL by its fields and by what the enabled sources allow. -/
theorem setSpoolReplacesTheBoundaries : Obligations.SetSpoolReplacesTheBoundaries := by
  refine fun s f rest received length => ⟨fun bad => ?_, fun o decoded => ⟨fun fit => ?_, fun ⟨src, enabled, low⟩ => ?_⟩⟩
  · exact exec_refused (c := setSpoolCommand) rfl received length
      (setSpoolCheck_of_none s (decodeSpool_eq_none bad)) (by decide)
  · have check : setSpoolCommand.check f.payload s = .ok := by
      refine (setSpoolCheck_of_some s decoded).trans (if_pos ?_)
      rw [List.all_eq_true]
      exact fun src _ => (fits_iff _ _).mpr (fit src)
    have run : exec .setSpool s = .next (setSpoolCommand.take s) := rfl
    rw [run, received.ok (c := setSpoolCommand) length check]
    refine ⟨_, rfl, ?_, ?_⟩
    · simp only [setSpoolCommand, setSpoolEffect, setSpoolPayload, decoded]
      rfl
    · simp only [setSpoolCommand, setSpoolEffect, setSpoolPayload, decoded, evalAllPressure_eq]
      exact ⟨rfl, rfl, rfl, rfl⟩
  · refine exec_refused (c := setSpoolCommand) rfl received length ((setSpoolCheck_of_some s decoded).trans (if_neg ?_))
      (by decide)
    intro fit
    have fits := (fits_iff _ _).mp (List.all_eq_true.mp fit src (Source.mem_all src)) enabled
    omega

/-! ### SET SOURCE (R43, R44, R92) -/

theorem Source.ofNum_le {n : Nat} {src : Source} (h : Source.ofNum n = some src) : n ≤ 3 := by
  by_contra high
  rw [Source.ofNum_eq_none (by omega)] at h
  exact nomatch h

theorem yesNoOf_le {n : Nat} {v : Bool} (h : yesNoOf n = some v) : n ≤ 1 := by
  unfold yesNoOf at h
  split at h <;> first | omega | cases h

theorem SourceMode.ofCode_le {n : Nat} {v : SourceMode} (h : SourceMode.ofCode n = some v) : n ≤ 1 := by
  unfold SourceMode.ofCode at h
  split at h <;> first | omega | cases h

theorem LaneRule.ofCode_le {n : Nat} {v : LaneRule} (h : LaneRule.ofCode n = some v) : n ≤ 3 := by
  unfold LaneRule.ofCode at h
  split at h <;> first | omega | cases h

theorem MirrorPolicy.ofCode_le {n : Nat} {v : MirrorPolicy} (h : MirrorPolicy.ofCode n = some v) : n ≤ 1 := by
  unfold MirrorPolicy.ofCode at h
  split at h <;> first | omega | cases h

theorem PairMode.ofCode_le {n : Nat} {v : PairMode} (h : PairMode.ofCode n = some v) : n ≤ 1 := by
  unfold PairMode.ofCode at h
  split at h <;> first | omega | cases h

theorem ShedRule.ofCode_le {n : Nat} {v : ShedRule} (h : ShedRule.ofCode n = some v) : n ≤ 2 := by
  unfold ShedRule.ofCode at h
  split at h <;> first | omega | cases h

theorem fourOf_le {n : Nat} {v : Fin 4} (h : fourOf n = some v) : n ≤ 3 := by
  unfold fourOf at h
  split at h <;> first | omega | cases h

/-- The one-byte fields of SET SOURCE with their ranges. -/
def sourceFields : List (Nat × Nat × Nat) :=
  [(0, 0, 3), (1, 0, 1), (2, 0, 1), (3, 20, 23), (12, 0, 3), (13, 0, 1), (14, 0, 1), (15, 0, 7), (16, 0, 2),
    (17, 0, 3), (18, 0, 3), (19, 14, 17)]

/-- What the fields of SET SOURCE say once they pass its checks. -/
theorem decodeSource_fields {p : List Byte} {o : Source × SourceSettings} (h : decodeSource p = some o) :
    (∀ row ∈ sourceFields, row.2.1 ≤ byteAt p row.1 ∧ byteAt p row.1 ≤ row.2.2) ∧
      field p 4 4 ≤ 2 ^ 31 ∧ 1 ≤ field p 8 4 ∧ field p 8 4 ≤ 2 ^ 31 := by
  unfold decodeSource at h
  obtain ⟨_, number, h⟩ := Option.bind_eq_some_iff.mp h
  obtain ⟨_, enabled, h⟩ := Option.bind_eq_some_iff.mp h
  obtain ⟨_, mode, h⟩ := Option.bind_eq_some_iff.mp h
  obtain ⟨_, span, h⟩ := Option.bind_eq_some_iff.mp h
  obtain ⟨_, pre, h⟩ := Option.bind_eq_some_iff.mp h
  obtain ⟨_, post, h⟩ := Option.bind_eq_some_iff.mp h
  obtain ⟨_, rule, h⟩ := Option.bind_eq_some_iff.mp h
  obtain ⟨_, policy, h⟩ := Option.bind_eq_some_iff.mp h
  obtain ⟨_, pairMode, h⟩ := Option.bind_eq_some_iff.mp h
  obtain ⟨_, level, h⟩ := Option.bind_eq_some_iff.mp h
  obtain ⟨_, shed, h⟩ := Option.bind_eq_some_iff.mp h
  obtain ⟨_, shedAt, h⟩ := Option.bind_eq_some_iff.mp h
  obtain ⟨_, resumeAt, h⟩ := Option.bind_eq_some_iff.mp h
  obtain ⟨_, bucket, -⟩ := Option.bind_eq_some_iff.mp h
  refine ⟨?_, (inRange_eq_some.mp pre).1.2, (inRange_eq_some.mp post).1⟩
  simp only [sourceFields, List.forall_mem_cons]
  exact ⟨⟨Nat.zero_le _, Source.ofNum_le number⟩, ⟨Nat.zero_le _, yesNoOf_le enabled⟩,
    ⟨Nat.zero_le _, SourceMode.ofCode_le mode⟩, (inRange_eq_some.mp span).1, ⟨Nat.zero_le _, LaneRule.ofCode_le rule⟩,
    ⟨Nat.zero_le _, MirrorPolicy.ofCode_le policy⟩, ⟨Nat.zero_le _, PairMode.ofCode_le pairMode⟩, (inRange_eq_some.mp level).1,
    ⟨Nat.zero_le _, ShedRule.ofCode_le shed⟩, ⟨Nat.zero_le _, fourOf_le shedAt⟩,
    ⟨Nat.zero_le _, fourOf_le resumeAt⟩, (inRange_eq_some.mp bucket).1, nofun⟩

/-- A field of SET SOURCE out of its range. -/
theorem decodeSource_eq_none {p : List Byte}
    (h : (∃ k low high, (k, low, high) ∈ sourceFields ∧ (byteAt p k < low ∨ high < byteAt p k)) ∨
      2 ^ 31 < field p 4 4 ∨ field p 8 4 = 0 ∨ 2 ^ 31 < field p 8 4) : decodeSource p = none := by
  rw [Option.eq_none_iff_forall_ne_some]
  intro o ho
  obtain ⟨fields, pre, post⟩ := decodeSource_fields ho
  obtain ⟨k, low, high, row, out⟩ | h := h
  · have within := fields _ row
    simp only at within
    omega
  · omega

theorem setSourceCheck_of_none {p : List Byte} {s : State} (idle : s.rc.runState = .idle)
    (h : decodeSource p = none) : setSourceCheck p s = .badValue := by
  rw [setSourceCheck, h, idle]
  rfl

theorem setSourceCheck_of_some {p : List Byte} {src : Source} {set : SourceSettings} {s : State}
    (idle : s.rc.runState = .idle) (h : decodeSource p = some (src, set)) :
    setSourceCheck p s = if set.fits s.spm.boundary then .ok else .badValue := by
  rw [setSourceCheck, h, idle]
  rfl

/-- Settles O41: SET SOURCE in IDLE by its fields and by the boundaries in force. -/
theorem setSourceReplacesTheSettings : Obligations.SetSourceReplacesTheSettings := by
  refine fun s f rest received length idle =>
    ⟨fun bad => ?_, fun src set decoded => ⟨fun fit => ?_, fun enabled low => ?_⟩⟩
  · exact exec_refused (c := setSourceCommand) rfl received length
      (setSourceCheck_of_none idle (decodeSource_eq_none bad)) (by decide)
  · have check : setSourceCommand.check f.payload s = .ok :=
      (setSourceCheck_of_some idle decoded).trans (if_pos ((fits_iff _ _).mpr fit))
    have run : exec .setSource s = .next (setSourceCommand.take s) := rfl
    rw [run, received.ok (c := setSourceCommand) length check]
    simp only [setSourceCommand, setSourceEffect, setSourcePayload, decoded]
    rfl
  · refine exec_refused (c := setSourceCommand) rfl received length
      ((setSourceCheck_of_some idle decoded).trans (if_neg fun fit => ?_)) (by decide)
    have fits := (fits_iff _ _).mp fit enabled
    omega

end Sys2Proof.Machine

/-! SET NOTICES and CLEAR NOTICES (R173 to R175). -/

namespace Sys2Proof.Machine

/-! ### The flags pending in a class -/

theorem Flag.mem_all (g : Flag) : g ∈ Flag.all := by cases g <;> decide

theorem Flag.idx_inj {f g : Flag} (h : f.idx = g.idx) : f = g := by
  revert h
  cases f <;> cases g <;> decide

theorem bit_getLsbD (f g : Flag) : f.bit.getLsbD g.idx.val = decide (g = f) := by
  have h := isPending_or_bit { NoticeUnit.reset with flags := 0 } f g
  rw [NoticeUnit.isPending, NoticeUnit.isPending] at h
  simpa using h

/-- The bits of the flags that a list holds and a class has. -/
theorem members_fold (n : NoticeUnit) (c : Fin 4) (g : Flag) (fs : List Flag) (m : BitVec 17) :
    (fs.foldl (fun m f => if n.cls f = c then m ||| f.bit else m) m).getLsbD g.idx.val =
      (m.getLsbD g.idx.val || (decide (g ∈ fs) && decide (n.cls g = c))) := by
  induction fs generalizing m with
  | nil => simp
  | cons f fs ih =>
    rw [List.foldl_cons, ih]
    by_cases hc : n.cls f = c
    · rw [if_pos hc, BitVec.getLsbD_or, bit_getLsbD]
      by_cases hg : g = f
      · simp [hg, hc]
      · simp [hg]
    · rw [if_neg hc]
      by_cases hg : g = f
      · simp [hg, hc]
      · simp [hg]

/-- A flag stands in the pending flags of a class just when it is pending and of that class. -/
theorem pendingIn_getLsbD (n : NoticeUnit) (c : Fin 4) (g : Flag) :
    (n.pendingIn c).getLsbD g.idx.val = (n.isPending g && decide (n.cls g = c)) := by
  rw [NoticeUnit.pendingIn, BitVec.getLsbD_and, NoticeUnit.members, members_fold]
  simp [NoticeUnit.isPending, Flag.mem_all]

theorem exists_flag_idx (i : Fin 17) : ∃ g : Flag, g.idx = i := by
  revert i
  have : ∀ i : Fin 17, ∃ g ∈ Flag.all, g.idx = i := by decide
  exact fun i => (this i).imp fun g h => h.2

/-- No flag of a class is pending just when its set of pending flags is empty. -/
theorem pendingIn_ne_zero (n : NoticeUnit) (c : Fin 4) :
    n.pendingIn c ≠ 0 ↔ ∃ g : Flag, n.isPending g = true ∧ n.cls g = c := by
  constructor
  · intro ne
    by_contra none
    refine ne (BitVec.eq_of_getLsbD_eq fun i hi => ?_)
    obtain ⟨g, hg⟩ := exists_flag_idx ⟨i, hi⟩
    have bit := pendingIn_getLsbD n c g
    rw [hg] at bit
    rw [bit]
    refine Eq.trans ?_ BitVec.getLsbD_zero.symm
    simp only [not_exists, not_and] at none
    cases pending : n.isPending g with
    | true => exact decide_eq_false (none g pending)
    | false => rfl
  · rintro ⟨g, pending, cls⟩ zero
    have bit := pendingIn_getLsbD n c g
    rw [zero, pending, cls] at bit
    simp at bit

/-! ### One notice for each class due (R174) -/

/-- The notices of a row of classes, each with the count as it then stands. -/
def NoticeUnit.frames (n : NoticeUnit) : List (Fin 4) → List OutFrame
  | [] => []
  | c :: cs => n.frame c :: NoticeUnit.frames { n with noticeCount := n.noticeCount + 1 } cs

theorem length_frames (n : NoticeUnit) (cs : List (Fin 4)) : (n.frames cs).length = cs.length := by
  induction cs generalizing n with
  | nil => rfl
  | cons c cs ih => rw [NoticeUnit.frames, List.length_cons, ih, List.length_cons]

theorem count_succ (x : Byte) (k : Nat) : x + 1 + BitVec.ofNat 8 k = x + BitVec.ofNat 8 (k + 1) := by
  rw [Nat.add_comm k 1, BitVec.ofNat_add, BitVec.add_assoc]
  rfl

/-- The notice of the class at place k carries the count increased by k. -/
theorem frames_getElem? (n : NoticeUnit) {cs : List (Fin 4)} {k : Nat} {c : Fin 4} (h : cs[k]? = some c) :
    (n.frames cs)[k]? = some { n.frame c with tag := n.noticeCount + BitVec.ofNat 8 k } := by
  induction cs generalizing n k with
  | nil => cases h
  | cons d cs ih =>
    cases k with
    | zero =>
      rw [List.getElem?_cons_zero] at h
      cases h
      rw [NoticeUnit.frames, List.getElem?_cons_zero]
      exact congrArg (fun tag => some { n.frame c with tag := tag }) (BitVec.add_zero _).symm
    | succ k =>
      rw [List.getElem?_cons_succ] at h
      rw [NoticeUnit.frames, List.getElem?_cons_succ, ih _ h]
      simp only [count_succ]
      rfl

/-- A row of classes is owed a notice. -/
def oweAll (owed : Four Bool) (cs : List (Fin 4)) : Four Bool := cs.foldl (fun v c => v.set c true) owed

theorem oweAll_get (owed : Four Bool) (cs : List (Fin 4)) (c : Fin 4) :
    (oweAll owed cs).get c = (owed.get c || decide (c ∈ cs)) := by
  induction cs generalizing owed with
  | nil => simp [oweAll]
  | cons d cs ih =>
    refine (ih _).trans ?_
    rw [Four.get_set]
    by_cases h : c = d
    · simp [h]
    · simp [h]

theorem noticeOrOwe_all_full (cs : List (Fin 4)) {s : State} (full : 14 < s.clp.out.length) :
    cs.foldl State.noticeOrOwe s = s.setNu { s.nu with owed := oweAll s.nu.owed cs } := by
  induction cs generalizing s with
  | nil => rfl
  | cons c cs ih =>
    rw [List.foldl_cons, noticeOrOwe_of_full full, ih (by exact full)]
    rfl

/-- As many classes as the outgoing queue has room for are given a notice; the others are owed one. -/
theorem noticeOrOwe_all (cs : List (Fin 4)) (s : State) :
    cs.foldl State.noticeOrOwe s =
      (s.setClp { s.clp with out := s.clp.out ++ s.nu.frames (cs.take (15 - s.clp.out.length)) }).setNu
        { s.nu with
          owed := oweAll s.nu.owed (cs.drop (15 - s.clp.out.length))
          noticeCount := s.nu.noticeCount + BitVec.ofNat 8 (cs.take (15 - s.clp.out.length)).length } := by
  induction cs generalizing s with
  | nil => simp [NoticeUnit.frames, oweAll, State.setClp, State.setNu]
  | cons c cs ih =>
    by_cases full : 14 < s.clp.out.length
    · rw [noticeOrOwe_all_full _ full, show 15 - s.clp.out.length = 0 by omega]
      simp [NoticeUnit.frames, State.setClp, State.setNu]
    · have left : 15 - s.clp.out.length = (15 - (s.clp.out.length + 1)) + 1 := by omega
      have length : (s.queueNotice c).clp.out.length = s.clp.out.length + 1 := by
        simp [State.queueNotice, State.queueOut]
      rw [List.foldl_cons, noticeOrOwe_of_room (by omega), ih, length, left, List.take_succ_cons,
        List.drop_succ_cons, NoticeUnit.frames, List.length_cons]
      simp only [State.queueNotice, State.queueOut, State.setClp, State.setNu, ← count_succ, List.append_assoc,
        List.cons_append, List.nil_append]

/-- Whether a class is due a notice after the classes and enables were replaced. -/
def NoticeUnit.due (n old : NoticeUnit) (c : Fin 4) : Bool :=
  n.enable.get c && decide (n.pendingIn c ≠ 0) && (!old.enable.get c || n.gains old c)

theorem noticeOrOwe_due (s : State) (old : NoticeUnit) (c : Fin 4) : (s.noticeOrOwe c).nu.due old = s.nu.due old := by
  unfold State.noticeOrOwe
  split <;> rfl

theorem noticeGained_all (old : NoticeUnit) (cs : List (Fin 4)) (s : State) :
    cs.foldl (State.noticeGained old) s = (cs.filter (s.nu.due old)).foldl State.noticeOrOwe s := by
  induction cs generalizing s with
  | nil => rfl
  | cons c cs ih =>
    rw [List.foldl_cons, List.filter_cons, ih]
    by_cases due : s.nu.due old c = true
    · have step : State.noticeGained old s c = s.noticeOrOwe c := if_pos due
      rw [step, noticeOrOwe_due, if_pos due, List.foldl_cons]
    · have step : State.noticeGained old s c = s := if_neg due
      rw [step, if_neg due]

/-! ### SET NOTICES (R174) -/

/-- A class is due a notice when it is enabled and holds a pending flag, and was disabled or did not have that flag
before. -/
theorem due_eq (n old : NoticeUnit) (c : Fin 4) :
    n.due old c = (n.enable.get c && Flag.all.any fun g =>
      (n.isPending g && decide (n.cls g = c)) && (!old.enable.get c || decide (old.cls g ≠ c))) := by
  rw [Bool.eq_iff_iff]
  simp only [NoticeUnit.due, NoticeUnit.gains, Bool.and_eq_true, Bool.or_eq_true, List.any_eq_true,
    decide_eq_true_eq, pendingIn_ne_zero, Flag.mem_all, true_and, and_assoc]
  refine and_congr_right fun _ => ⟨?_, ?_⟩
  · rintro ⟨⟨g, pending, cls⟩, off | ⟨g', pending', cls', other⟩⟩
    · exact ⟨g, pending, cls, .inl off⟩
    · exact ⟨g', pending', cls', .inr other⟩
  · rintro ⟨g, pending, cls, off | other⟩
    · exact ⟨⟨g, pending, cls⟩, .inl off⟩
    · exact ⟨⟨g, pending, cls⟩, .inr ⟨g, pending, cls, other⟩⟩

theorem adopt_owed {n : NoticeUnit} (o : NoticeOperands) (owed : ∀ c, n.owed.get c = false) (c : Fin 4) :
    (n.adopt o).owed.get c = false := by
  have h0 : n.owed.a0 = false := owed 0
  have h1 : n.owed.a1 = false := owed 1
  have h2 : n.owed.a2 = false := owed 2
  have h3 : n.owed.a3 = false := owed 3
  rw [NoticeUnit.adopt, h0, h1, h2, h3]
  match c with
  | 0 | 1 | 2 | 3 => rfl

/-- A class is in the rest of the row just when it is in the row and not in its first part. -/
theorem mem_drop_iff {cs : List (Fin 4)} (h : cs.Nodup) (k : Nat) (c : Fin 4) :
    c ∈ cs.drop k ↔ c ∈ cs ∧ c ∉ cs.take k := by
  have apart : (cs.take k).Disjoint (cs.drop k) := List.disjoint_take_drop h le_rfl
  constructor
  · exact fun hc => ⟨List.mem_of_mem_drop hc, fun ht => apart ht hc⟩
  · rintro ⟨hc, ht⟩
    rw [← List.take_append_drop k cs, List.mem_append] at hc
    exact hc.resolve_left ht

theorem setNotices_run {s : State} {f : CmdFrame} {rest : List CmdFrame} {o : NoticeOperands}
    (received : Receives s 0x60 f rest) (length : f.payload.length = 18) (decoded : decodeNotices f.payload = some o) :
    exec .setNotices s = .next
      (([0, 1, 2, 3].filter ((s.nu.adopt o).due s.nu)).foldl State.noticeOrOwe
        ((s.answered f rest .ok o.bytes).setNu (s.nu.adopt o))) := by
  have check : setNoticesCommand.check f.payload s = .ok :=
    show Status.ofFields (decodeNotices f.payload) = .ok by rw [decoded]; rfl
  have run : exec .setNotices s = .next (setNoticesCommand.take s) := rfl
  rw [run, received.ok (c := setNoticesCommand) length check]
  simp only [setNoticesCommand, setNoticesEffect, setNoticesPayload, decoded]
  exact congrArg _ (noticeGained_all _ _ _)

theorem decodeNotices_eq_none {p : List Byte} {g : Flag} (h : 3 < byteAt p g.idx.val) : decodeNotices p = none := by
  refine if_neg fun fit => ?_
  have bound := List.all_eq_true.mp fit g (Flag.mem_all g)
  rw [decide_eq_true_eq] at bound
  omega

/-- SET NOTICES with classes in range: the reply, then a notice for each class due while there is room. -/
theorem setNotices_notices {s : State} {f : CmdFrame} {rest : List CmdFrame} {o : NoticeOperands}
    (received : Receives s 0x60 f rest) (length : f.payload.length = 18) (decoded : decodeNotices f.payload = some o) :
    let due := [0, 1, 2, 3].filter ((s.nu.adopt o).due s.nu)
    let sent := due.take (14 - s.clp.out.length)
    let b := s.answered f rest .ok o.bytes
    ∃ t, exec .setNotices s = .next t ∧
      t = { b with
        clp := { b.clp with out := b.clp.out ++ (s.nu.adopt o).frames sent }
        nu := { s.nu with
          classOf := o.classOf
          enable := o.enable
          owed := t.nu.owed
          noticeCount := s.nu.noticeCount + BitVec.ofNat 8 sent.length } } ∧
      ∀ c, t.nu.owed.get c = decide (c ∈ due ∧ c ∉ sent) := by
  intro due sent b
  have room : 15 - (b.setNu (s.nu.adopt o)).clp.out.length = 14 - s.clp.out.length := by
    rw [show (b.setNu (s.nu.adopt o)).clp.out.length = s.clp.out.length + 1 from
      List.length_append.trans (by rw [List.length_singleton])]
    omega
  refine ⟨_, setNotices_run received length decoded, ?_, fun c => ?_⟩
  · rw [noticeOrOwe_all, room]
    rfl
  · rw [noticeOrOwe_all, room, State.setNu_nu, oweAll_get]
    have none : (b.setNu (s.nu.adopt o)).nu.owed.get c = false := adopt_owed o received.owed c
    have nodup : due.Nodup := List.Nodup.filter _ (by decide)
    rw [none, Bool.false_or, decide_eq_decide]
    exact mem_drop_iff nodup _ c

/-! ### CLEAR NOTICES (R175) -/

theorem clearFlags_isPending (n : NoticeUnit) (v : BitVec 17) (g : Flag) :
    NoticeUnit.isPending { n with flags := n.flags &&& ~~~v } g = (n.isPending g && !v.getLsbD g.idx.val) := by
  simp [NoticeUnit.isPending]

theorem exec_clearNotices {s : State} {f : CmdFrame} {rest : List CmdFrame} {v : BitVec 17}
    (received : Receives s 0x62 f rest) (length : f.payload.length = 3) (payload : f.payload = leBytes 3 v.toNat) :
    exec .clearNotices s =
      .next ((s.answered f rest .ok []).setNu { s.nu with flags := s.nu.flags &&& ~~~v }) := by
  have decoded : decodeFlags f.payload = some v := by rw [payload, decodeFlags_bytes]
  have check : clearNoticesCommand.check f.payload s = .ok :=
    show Status.ofFields (decodeFlags f.payload) = .ok by rw [decoded]; rfl
  have run : exec .clearNotices s = .next (clearNoticesCommand.take s) := rfl
  rw [run, received.ok (c := clearNoticesCommand) length check]
  simp only [clearNoticesCommand, clearNoticesEffect, decoded]
  rfl

theorem decodeFlags_eq_none {p : List Byte} (h : 2 ^ 17 ≤ field p 0 3) : decodeFlags p = none := if_neg (by omega)

/-- Settles O42: the classes due are those that R174 names, each given a notice while the queue has room. -/
theorem noticesAreSetAndCleared : Obligations.NoticesAreSetAndCleared := by
  refine ⟨fun s f rest received length => ⟨?_, fun g high => ?_⟩, fun s f rest v received length => ⟨fun payload => ?_, fun high => ?_⟩⟩
  · intro o decoded holds due sent b
    have dueEq : due = [0, 1, 2, 3].filter ((s.nu.adopt o).due s.nu) := by
      refine List.filter_congr fun c _ => ?_
      rw [due_eq]
      rfl
    obtain ⟨t, run, state, owed⟩ := setNotices_notices received length decoded
    rw [← dueEq] at state owed
    refine ⟨t, run, (s.nu.adopt o).frames sent, state, owed, length_frames _ _, fun k c hc => ?_⟩
    exact ⟨(s.nu.adopt o).pendingIn c, frames_getElem? _ hc, pendingIn_getLsbD _ c⟩
  · exact exec_refused (c := setNoticesCommand) rfl received length
      (show Status.ofFields (decodeNotices f.payload) = .badValue by rw [decodeNotices_eq_none high]; rfl) (by decide)
  · exact ⟨_, exec_clearNotices received length payload, rfl, clearFlags_isPending s.nu v⟩
  · exact exec_refused (c := clearNoticesCommand) rfl received length
      (show Status.ofFields (decodeFlags f.payload) = .badValue by rw [decodeFlags_eq_none high]; rfl) (by decide)

end Sys2Proof.Machine

/-! The rules of a lane's moves between its states, and the commands and timers that bring them about (R101, R134 to
R136, R147 to R151, R154). -/

namespace Sys2Proof.Machine

/-! ### What the moves of a lane do -/

theorem PerLane.set_set {α : Type} (v : PerLane α) (lane : Lane) (x y : α) :
    (v.set lane x).set lane y = v.set lane y := by cases lane <;> rfl

theorem PerLane.get_set_other {α : Type} (v : PerLane α) (lane : Lane) (x : α) :
    (v.set lane x).get lane.other = v.get lane.other := by cases lane <;> rfl

theorem onLane_onLane (s : State) (lane : Lane) (f g : LaneUnit → LaneUnit) :
    (s.onLane lane f).onLane lane g = s.onLane lane (g ∘ f) := by
  cases lane <;> rfl

theorem blockMissed_of_not_owes {s : State} {lane : Lane} (h : s.owes lane = false) : s.blockMissed lane = s := by
  unfold State.owes at h
  unfold State.blockMissed
  split
  · next w hw =>
    rw [hw] at h
    exact if_neg (by simpa using h)
  · rfl

theorem placeClaim_of_none {s : State} {lane : Lane} (h : s.ds.pair = none) :
    s.placeClaim lane = s.setClaim lane (s.claimNow (s.lane lane)) :=
  if_neg (by rw [State.hasRole, h]; exact Bool.false_ne_true)

theorem placeClaim_of_some {s : State} {lane : Lane} {c : PairContext} (h : s.ds.pair = some c) :
    s.placeClaim lane = s := if_pos (by rw [State.hasRole, h]; rfl)

theorem checkFollower_of_none {s : State} {lane : Lane} (h : s.ds.pair = none) : s.checkFollower lane = s := by
  rw [State.checkFollower, h]

theorem checkFollower_of_other {s : State} {lane : Lane} {c : PairContext} (h : s.ds.pair = some c)
    (other : ¬ (c.phase = .forming ∧ c.follower = lane)) : s.checkFollower lane = s := by
  rw [State.checkFollower, h]
  exact if_neg other

theorem enterReady_of_none {s : State} {lane : Lane} (h : s.ds.pair = none) :
    s.enterReady lane =
      (s.onLane lane fun a => { a with state := .ready }).setClaim lane (s.claimNow (s.lane lane)) := by
  unfold State.enterReady
  rw [h]
  dsimp only
  rw [placeClaim_of_none (by exact h)]
  cases lane <;> rfl

theorem enterReady_of_other {s : State} {lane : Lane} {c : PairContext} (h : s.ds.pair = some c)
    (other : ¬ (c.phase = .forming ∧ c.follower = lane)) :
    s.enterReady lane = s.onLane lane fun a => { a with state := .ready } := by
  unfold State.enterReady
  rw [h]
  exact if_neg other

theorem enterParking_eq (s : State) (lane : Lane) :
    s.enterParking lane =
      { s with
        al := s.al.set lane { s.lane lane with
          state := .parking, burstTag := (s.lane lane).burstTag + 1,
          timer := some (s.lane lane).settings.responseTime,
          wakePending := if s.formingFollower lane then true else (s.lane lane).wakePending }
        ds := { s.ds with claim := s.ds.claim.set lane none }
        wire := s.wire.set lane (s.wire.get lane ++ [.park ((s.lane lane).burstTag + 1)]) } := by
  unfold State.enterParking
  dsimp only
  split <;> cases lane <;> rfl

theorem enterWaking_eq (s : State) (lane : Lane) :
    s.enterWaking lane =
      { s with
        al := s.al.set lane { s.lane lane with
          state := .waking, wakePending := false, burstTag := (s.lane lane).burstTag + 1,
          timer := some (s.lane lane).settings.wakeTime }
        ds := { s.ds with claim := s.ds.claim.set lane none }
        wire := s.wire.set lane (s.wire.get lane ++ [.wake ((s.lane lane).burstTag + 1)]) } := by
  unfold State.enterWaking
  cases lane <;> rfl

/-- An effect that keeps what every step keeps, and touches only the lanes, the links, the scheduler and the notices. -/
theorem LanesOnly.of_held {s t : State} (held : Held s t)
    (same : t = { s with al := t.al, ds := t.ds, wire := t.wire, nu := t.nu, clp := t.clp }) : LanesOnly s t where
  same := same
  rxPart := held.rxPart
  rx := held.rx
  linkErrors := held.linkErrors
  outPos := held.outPos
  out := held.out
  flags := held.flags
  classOf := held.classOf
  enable := held.enable

theorem LanesOnly.refl_of {s t : State} (same : t = { s with al := t.al, ds := t.ds, wire := t.wire })
    : LanesOnly s t := by
  rw [same]
  exact ⟨rfl, rfl, rfl, rfl, rfl, .refl _, fun _ h => h, rfl, rfl⟩

/-! ### The commands of one lane (R147 to R149) -/

theorem laneOf_of_payload {p : List Byte} {lane : Lane} (h : p = [BitVec.ofNat 8 lane.num]) : laneOf p = some lane := by
  rw [h]
  cases lane <;> rfl

/-- A command of one lane, taken in a lane state that it allows, replies and then acts on the lane. -/
theorem exec_laneTaken {c : Command} {row : Instr} {allowed : LaneState → Bool} {f : Lane → State → State} {s : State}
    {g : CmdFrame} {rest : List CmdFrame} {lane : Lane} (hexec : exec row s = .next (c.take s))
    (received : Receives s c.code g rest) (payload : g.payload = [BitVec.ofNat 8 lane.num])
    (len : c.len = 1) (check : c.check = laneCheck allowed) (reply : c.payload = noPayload)
    (effect : c.effect = onLaneOf f) (state : allowed (s.lane lane).state = true) :
    exec row s = .next (f lane (s.answered g rest .ok [])) := by
  have number := laneOf_of_payload payload
  have length : g.payload.length = c.len := by rw [payload, len]; rfl
  have passes : c.check g.payload s = .ok := by
    rw [check, laneCheck, number]
    simp only [state]
    rfl
  rw [hexec, received.ok length passes, effect, reply, onLaneOf_some number]
  rfl

/-- The lane states in which LANE PAUSE is taken. -/
def lanePauseAllows : LaneState → Bool :=
  fun st => st == .ready || st == .busy

theorem exec_lanePause {s : State} {f : CmdFrame} {rest : List CmdFrame} {lane : Lane} (received : Receives s 0x43 f rest)
    (payload : f.payload = [BitVec.ofNat 8 lane.num]) (state : lanePauseAllows (s.lane lane).state = true) :
    exec .lanePause s = .next (State.lanePause lane (s.answered f rest .ok [])) :=
  exec_laneTaken (c := lanePauseCommand) (allowed := lanePauseAllows) rfl received payload rfl rfl rfl rfl state

/-- The lane states in which LANE RESUME is taken. -/
def laneResumeAllows : LaneState → Bool :=
  fun st => st == .paused

theorem exec_laneResume {s : State} {f : CmdFrame} {rest : List CmdFrame} {lane : Lane} (received : Receives s 0x44 f rest)
    (payload : f.payload = [BitVec.ofNat 8 lane.num]) (state : laneResumeAllows (s.lane lane).state = true) :
    exec .laneResume s = .next (State.laneResume lane (s.answered f rest .ok [])) :=
  exec_laneTaken (c := laneResumeCommand) (allowed := laneResumeAllows) rfl received payload rfl rfl rfl rfl state

/-- The lane states in which LANE PARK is taken. -/
def laneParkAllows : LaneState → Bool :=
  fun st => st == .ready || st == .busy || st == .parking || st == .parked

theorem exec_lanePark {s : State} {f : CmdFrame} {rest : List CmdFrame} {lane : Lane} (received : Receives s 0x45 f rest)
    (payload : f.payload = [BitVec.ofNat 8 lane.num]) (state : laneParkAllows (s.lane lane).state = true) :
    exec .lanePark s = .next (State.lanePark lane (s.answered f rest .ok [])) :=
  exec_laneTaken (c := laneParkCommand) (allowed := laneParkAllows) rfl received payload rfl rfl rfl rfl state

/-- The lane states in which LANE WAKE is taken. -/
def laneWakeAllows : LaneState → Bool :=
  fun st => st == .parked || st == .parking || st == .waking || st == .ready || st == .busy

theorem exec_laneWake {s : State} {f : CmdFrame} {rest : List CmdFrame} {lane : Lane} (received : Receives s 0x46 f rest)
    (payload : f.payload = [BitVec.ofNat 8 lane.num]) (state : laneWakeAllows (s.lane lane).state = true) :
    exec .laneWake s = .next (State.laneWake lane (s.answered f rest .ok [])) :=
  exec_laneTaken (c := laneWakeCommand) (allowed := laneWakeAllows) rfl received payload rfl rfl rfl rfl state

theorem lanePause_of_ready {s : State} {lane : Lane} (h : (s.lane lane).state = .ready) :
    s.lanePause lane = (s.enterPaused lane).evaluate := if_pos h

theorem lanePause_of_busy {s : State} {lane : Lane} (h : (s.lane lane).state = .busy) :
    s.lanePause lane = s.onLane lane fun a => { a with action := .pause } := if_neg (by rw [h]; decide)

/-- Settles O47: PAUSE leaves READY at once and waits in BUSY; RESUME enters READY by the pair context. -/
theorem lanePauseAndResume : Obligations.LanePauseAndResume := by
  intro s f rest lane payload b
  refine ⟨fun received ready => ?_, fun received busy => ?_, fun received paused none => ?_,
    fun c received paused pair other => ?_⟩
  · have run := exec_lanePause received payload (by rw [ready]; rfl)
    have out := outside_blockMissed (b.leaveTo lane .paused) lane
    refine ⟨b.enterPaused lane, run.trans (congrArg _ (lanePause_of_ready (by exact ready))), ?_, ?_, ?_, ?_, ?_, ?_⟩
    · rw [State.enterPaused, State.lane_eq, out.al, get_leaveTo]
      rfl
    · rw [State.enterPaused, out.ds, claim_leaveTo]
    · rw [State.enterPaused, State.lane_eq, out.al]
      exact PerLane.get_set_other _ _ _
    · rw [State.enterPaused, out.wire]
      rfl
    · rw [State.enterPaused, out.mem]
      rfl
    · intro owes
      rw [State.enterPaused, blockMissed_of_not_owes (by exact owes)]
      exact .refl_of rfl
  · have run := exec_lanePause received payload (by rw [busy]; rfl)
    exact run.trans (congrArg _ (lanePause_of_busy (by exact busy)))
  · have run := exec_laneResume received payload (by rw [paused]; rfl)
    rw [run, State.laneResume, enterReady_of_none (by exact none)]
    rfl
  · have run := exec_laneResume received payload (by rw [paused]; rfl)
    rw [run, State.laneResume, enterReady_of_other (c := c) (by exact pair)]
    rintro ⟨forming, follower⟩
    obtain active | leader := other
    · rw [active] at forming
      exact absurd forming (by decide)
    · exact absurd ((congrArg Lane.other leader).symm.trans follower) (Lane.other_ne lane)

theorem lanePark_of_ready {s : State} {lane : Lane} (h : (s.lane lane).state = .ready) :
    s.lanePark lane = (s.enterParking lane).evaluate := by rw [State.lanePark, h]

theorem lanePark_of_busy {s : State} {lane : Lane} (h : (s.lane lane).state = .busy) :
    s.lanePark lane = s.onLane lane fun a => { a with action := .park } := by rw [State.lanePark, h]

theorem lanePark_of_parked {s : State} {lane : Lane}
    (h : (s.lane lane).state = .parking ∨ (s.lane lane).state = .parked) : s.lanePark lane = s := by
  obtain h | h := h <;> rw [State.lanePark, h]

theorem laneWake_of_parked {s : State} {lane : Lane} (h : (s.lane lane).state = .parked) :
    s.laneWake lane = (s.enterWaking lane).evaluate := by rw [State.laneWake, h]

theorem laneWake_of_parking {s : State} {lane : Lane} (h : (s.lane lane).state = .parking) :
    s.laneWake lane = s.onLane lane fun a => { a with wakePending := true } := by rw [State.laneWake, h]

theorem laneWake_of_awake {s : State} {lane : Lane}
    (h : (s.lane lane).state = .waking ∨ (s.lane lane).state = .ready ∨ (s.lane lane).state = .busy) :
    s.laneWake lane = s := by
  obtain h | h | h := h <;> rw [State.laneWake, h]

/-- Settles O48: each lane state that PARK and WAKE allow. -/
theorem laneParkAndWake : Obligations.LaneParkAndWake := by
  intro s f rest lane payload b a
  refine ⟨fun received ready => ?_, fun received busy => ?_, fun received stays => ?_, fun received parked => ?_,
    fun received parking => ?_, fun received stays => ?_⟩
  · rw [exec_lanePark received payload (by rw [ready]; rfl), lanePark_of_ready (by exact ready), enterParking_eq]
    rfl
  · rw [exec_lanePark received payload (by rw [busy]; rfl), lanePark_of_busy (by exact busy)]
  · rw [exec_lanePark received payload (by obtain h | h := stays <;> rw [h] <;> rfl),
      lanePark_of_parked (by exact stays)]
  · rw [exec_laneWake received payload (by rw [parked]; rfl), laneWake_of_parked (by exact parked), enterWaking_eq]
    rfl
  · rw [exec_laneWake received payload (by rw [parking]; rfl), laneWake_of_parking (by exact parking)]
  · rw [exec_laneWake received payload (by obtain h | h | h := stays <;> rw [h] <;> rfl),
      laneWake_of_awake (by exact stays)]

/-! ### PARK_DELAY_EXPIRY, PARKED-REPLY and AWAKE (R148, R149) -/

theorem onParked_of_awaits {s : State} {lane : Lane} {tag : Word16} (state : (s.lane lane).state = .parking)
    (timer : (s.lane lane).timer.isSome = true) (current : (s.lane lane).burstTag = tag) :
    s.onParked lane tag = (s.takeParked lane).evaluate := by
  rw [State.onParked, State.awaits, state, timer, current]
  simp

theorem onAwake_of_awaits {s : State} {lane : Lane} {tag : Word16} (state : (s.lane lane).state = .waking)
    (timer : (s.lane lane).timer.isSome = true) (current : (s.lane lane).burstTag = tag) :
    s.onAwake lane tag = (s.takeAwake lane).evaluate := by
  rw [State.onAwake, State.awaits, state, timer, current]
  simp

/-- The lane as its PARKED-REPLY is taken, before a claim or a wake. -/
def State.parked (s : State) (lane : Lane) : State :=
  (s.onLane lane fun a => { a with state := .parked, timer := none }).setFlag (laneChangeFlag lane)

theorem takeParked_eq (s : State) (lane : Lane) :
    s.takeParked lane =
      if s.namedFollower lane || (s.lane lane).wakePending then (s.parked lane).enterWaking lane
      else (s.parked lane).placeClaim lane := by
  have named : (s.parked lane).namedFollower lane = s.namedFollower lane := by
    rw [State.namedFollower, State.parked, setFlag_ds]
    rfl
  have wake : ((s.parked lane).lane lane).wakePending = (s.lane lane).wakePending := by
    rw [State.parked, State.lane_eq, setFlag_al, get_onLane]
    rfl
  rw [← named, ← wake, State.takeParked, State.setLaneState, onLane_onLane]
  rfl

theorem namedFollower_of_none {s : State} {lane : Lane} (h : s.ds.pair = none) : s.namedFollower lane = false := by
  rw [State.namedFollower, h]

theorem takeParked_claims {s : State} {lane : Lane} (wake : (s.lane lane).wakePending = false)
    (pair : s.ds.pair = none) :
    s.takeParked lane = (s.parked lane).setClaim lane (s.claimNow (s.lane lane)) := by
  rw [takeParked_eq, wake, namedFollower_of_none pair, if_neg (by decide), State.parked,
    placeClaim_of_none (by rw [setFlag_ds]; exact pair), State.claimNow, State.lane_eq, setFlag_al, get_onLane,
    (outside_setFlag _ _).now]
  rfl

theorem takeParked_wakes {s : State} {lane : Lane}
    (h : (s.lane lane).wakePending = true ∨ s.namedFollower lane = true) :
    s.takeParked lane = (s.parked lane).enterWaking lane := by
  rw [takeParked_eq, if_pos (by simpa [or_comm] using h)]

/-- A flag neither reads nor touches the lanes. -/
theorem setFlag_onLane (s : State) (lane : Lane) (g : LaneUnit → LaneUnit) (f : Flag) :
    (s.onLane lane g).setFlag f = (s.setFlag f).onLane lane g := by
  cases on : s.nu.isPending f with
  | true => rw [setFlag_of_pending on, setFlag_of_pending (by exact on)]
  | false =>
    rw [setFlag_of_clear on, setFlag_of_clear (by exact on)]
    simp only [State.onLane, State.setAl_nu, State.noticeOrOwe]
    by_cases off : s.nu.enable.get (s.nu.cls f) = true <;> by_cases room : s.clp.out.length ≤ Config.noticeRoom <;>
      simp [off, room] <;> rfl

theorem takeAwake_claims {s : State} {lane : Lane} (pair : s.ds.pair = none) :
    s.takeAwake lane =
      State.setClaim (State.setFlag (s.onLane lane fun a => { a with state := .ready, timer := none })
        (laneChangeFlag lane)) lane (s.claimNow (s.lane lane)) := by
  have claim : ((s.onLane lane fun a => { a with timer := none }).setFlag (laneChangeFlag lane)).claimNow
      (((s.onLane lane fun a => { a with timer := none }).setFlag (laneChangeFlag lane)).lane lane) =
        s.claimNow (s.lane lane) := by
    rw [State.claimNow, State.lane_eq, setFlag_al, get_onLane, (outside_setFlag _ _).now]
    rfl
  rw [State.takeAwake, enterReady_of_none (by rw [setFlag_ds]; exact pair), claim, ← setFlag_onLane, onLane_onLane]
  rfl

theorem exec_parkDelayExpiry (s : State) (lane : Lane) :
    exec (.parkDelayExpiry lane) s =
      .next (if (s.lane lane).state = .ready ∧ (s.lane lane).settings.parkDelay ≠ 0 ∧
          (s.ds.claim.get lane).isSome then (s.enterParking lane).evaluate else s) := rfl

theorem exec_parkedReply (s : State) (lane : Lane) (tag : Word16) :
    exec (.parkedReply lane tag) s = .next (s.onParked lane tag) := rfl

theorem exec_awake (s : State) (lane : Lane) (tag : Word16) :
    exec (.awake lane tag) s = .next (s.onAwake lane tag) := rfl

theorem parked_nu (s : State) (lane : Lane) :
    (s.parked lane).nu.isPending (laneChangeFlag lane) = true := setFlag_pending _ _

theorem get_parked (s : State) (lane : Lane) :
    (s.parked lane).lane lane = { s.lane lane with state := .parked, timer := none } := by
  rw [State.parked, State.lane_eq, setFlag_al, get_onLane]
  rfl

theorem lanesOnly_setFlag (s : State) (f : Flag) : LanesOnly s (s.setFlag f) :=
  .of_held (within_setFlag s f).kept.toHeld (by rw [setFlag_eq]; rfl)

/-- Settles O51: the expiry parks as LANE PARK does; the replies end PARKING and WAKING. -/
theorem parkDelayParkedReplyAndAwake : Obligations.ParkDelayParkedReplyAndAwake := by
  refine ⟨fun s lane => ?_, fun s lane tag timer current => ?_⟩
  · intro a
    refine ⟨fun ready delay claim => ?_, fun other => ?_⟩
    · rw [exec_parkDelayExpiry, if_pos ⟨ready, delay, claim⟩, enterParking_eq]
    · rw [exec_parkDelayExpiry, if_neg]
      rintro ⟨ready, delay, claim⟩
      obtain h | h | h := other
      · exact h ready
      · exact delay h
      · rw [h] at claim
        exact absurd claim (by decide)
  · intro a
    refine ⟨fun parking wake pair => ?_, fun parking wake => ?_, fun waking pair => ?_⟩
    · rw [exec_parkedReply, onParked_of_awaits parking timer current, takeParked_claims wake pair]
      rfl
    · refine ⟨s.takeParked lane, ?_, ?_⟩
      · rw [exec_parkedReply, onParked_of_awaits parking timer current]
      rw [takeParked_wakes wake, enterWaking_eq, get_parked]
      refine ⟨?_, ?_, ?_, parked_nu s lane, ?_⟩
      · exact PerLane.get_set_self _ _ _
      · have wire : (s.parked lane).wire = s.wire := (outside_setFlag _ _).wire
        rw [wire]
        exact PerLane.get_set_self _ _ _
      · exact PerLane.get_set_self _ _ _
      · have held : Held s ((s.parked lane).enterWaking lane) :=
          ((within_onLane s lane _ ⟨rfl, rfl, rfl, rfl, rfl, le_refl _, le_refl _, le_refl _⟩).trans
            ((within_setFlag _ _).trans (within_enterWaking _ _))).kept.toHeld
        rw [enterWaking_eq, get_parked] at held
        refine .of_held held ?_
        rw [State.parked, setFlag_eq]
        rfl
    · rw [exec_awake, onAwake_of_awaits waking timer current, takeAwake_claims pair]

/-! ### ATTENTION (R150) -/

theorem exec_attention (s : State) (lane : Lane) : exec (.attention lane) s = .next (s.takeAttention lane) := rfl

theorem takeAttention_seen {s : State} {lane : Lane}
    (h : (s.lane lane).effWake = false ∨ (s.lane lane).state ≠ .parked ∧ (s.lane lane).state ≠ .parking) :
    s.takeAttention lane = s.onLane lane fun a => { a with attentionSeen := true } := by
  unfold State.takeAttention
  obtain off | ⟨parked, parking⟩ := h
  · rw [off]
    rfl
  · split
    · split
      · next h => exact absurd h parked
      · next h => exact absurd h parking
      all_goals rfl
    · rfl

/-- Settles O52: ATTENTION by the effective wake on attention and the lane's state. -/
theorem attentionWakesAParkedLane : Obligations.AttentionWakesAParkedLane := by
  intro s lane a
  refine ⟨fun h => ?_, fun wake parking => ?_, fun wake parked => ?_⟩
  · rw [exec_attention, takeAttention_seen h]
  · have step : s.takeAttention lane =
        (s.onLane lane fun a => { a with attentionSeen := true }).onLane lane fun a => { a with wakePending := true } := by
      rw [State.takeAttention, if_pos wake, parking]
    rw [exec_attention, step, onLane_onLane]
    rfl
  · have step : s.takeAttention lane =
        ((s.onLane lane fun a => { a with attentionSeen := true }).enterWaking lane).evaluate := by
      rw [State.takeAttention, if_pos wake, parked]
    rw [exec_attention, step, enterWaking_eq, State.lane_eq, get_onLane]
    have al (v : LaneUnit) : ((s.onLane lane fun a => { a with attentionSeen := true }).al.set lane v) = s.al.set lane v :=
      PerLane.set_set _ _ _ _
    rw [al]
    rfl

/-! ### Faults of a lane (R136, R148, R149, R151) -/

/-- The state of a lane at its entry to FAULTED. -/
def LaneUnit.faulted (a : LaneUnit) (cause : FaultCause) : LaneUnit :=
  { a with state := .faulted, fault := cause, action := .none, wakePending := false, timer := none }

theorem enterFaulted_outside (s : State) (lane : Lane) (cause : FaultCause) :
    Outside ((s.setClaim lane none).onLane lane fun a => a.faulted cause) (s.enterFaulted lane cause) := by
  have same : (s.setClaim lane none).onLane lane (fun a => a.faulted cause) =
      (s.leaveTo lane .faulted).onLane lane fun a =>
        { a with fault := cause, action := .none, wakePending := false, timer := none } := by
    rw [State.leaveTo, State.setLaneState, onLane_onLane]
    rfl
  rw [same]
  exact (outside_setFlag _ _).trans (outside_blockMissed _ _)

theorem enterFaulted_flag (s : State) (lane : Lane) (cause : FaultCause) :
    (s.enterFaulted lane cause).nu.isPending (laneChangeFlag lane) = true :=
  (within_blockMissed _ _).kept.flags _ (setFlag_pending _ _)

/-- A lane faults while no pair exists. -/
structure FaultsAlone (s u : State) (lane : Lane) (cause : FaultCause) : Prop where
  entered : u.lane lane = (s.lane lane).faulted cause
  ds : u.ds = { s.ds with claim := s.ds.claim.set lane none }
  flag : u.nu.isPending (laneChangeFlag lane) = true
  other : u.lane lane.other = s.lane lane.other
  wire : u.wire = s.wire
  mem : u.mem = s.mem
  only : s.owes lane = false → LanesOnly s u

theorem faultLane_alone {s : State} (lane : Lane) (cause : FaultCause) (pair : s.ds.pair = none) :
    FaultsAlone s (s.faultLane lane cause) lane cause := by
  have out := enterFaulted_outside s lane cause
  have same : s.faultLane lane cause = s.enterFaulted lane cause :=
    checkFollower_of_none (by rw [out.ds]; exact pair)
  rw [same]
  refine ⟨?_, out.ds, enterFaulted_flag s lane cause, ?_, out.wire, out.mem, fun owes => ?_⟩
  · rw [State.lane_eq, out.al, get_onLane]
    rfl
  · rw [State.lane_eq, out.al]
    exact PerLane.get_set_other _ _ _
  · refine .of_held (within_enterFaulted s lane cause).kept.toHeld ?_
    unfold State.enterFaulted
    rw [blockMissed_of_not_owes, setFlag_eq]
    · rfl
    · rw [State.owes, setFlag_iu]
      exact owes

/-- The rows of the timers that bring a lane to FAULTED, in the state they are due. -/
theorem exec_expired {s : State} {lane : Lane} {row : Instr} {st : LaneState} {cause : FaultCause}
    (mem : (row, st, cause) ∈
      [(Instr.helloTimeout lane, LaneState.bringup, FaultCause.noModule),
       (.responseTimeout lane, .parking, .timeout), (.wakeTimeout lane, .waking, .wakeTimeout)])
    (timer : (s.lane lane).timer.isSome = true) :
    ((s.lane lane).state = st → exec row s = .next (s.faultLane lane cause).evaluate) ∧
    ((s.lane lane).state ≠ st → (s.lane lane).state ≠ .busy → exec row s = .next s) := by
  have hello : exec (.helloTimeout lane) s = .next (if (s.lane lane).state = .bringup ∧ (s.lane lane).timer.isSome then
      (s.faultLane lane .noModule).evaluate else s) := rfl
  have response : exec (.responseTimeout lane) s = .next (if (s.lane lane).timer.isSome then
      if (s.lane lane).state = .busy then (s.writeTimeout lane).evaluate
      else if (s.lane lane).state = .parking then (s.faultLane lane .timeout).evaluate
      else s
    else s) := rfl
  have wake : exec (.wakeTimeout lane) s = .next (if (s.lane lane).state = .waking ∧ (s.lane lane).timer.isSome then
      (s.faultLane lane .wakeTimeout).evaluate else s) := rfl
  simp only [List.mem_cons, Prod.mk.injEq, List.not_mem_nil, or_false] at mem
  obtain ⟨rfl, rfl, rfl⟩ | ⟨rfl, rfl, rfl⟩ | ⟨rfl, rfl, rfl⟩ := mem
  · rw [hello]
    exact ⟨fun h => by rw [if_pos ⟨h, timer⟩], fun h _ => by rw [if_neg fun k => h k.1]⟩
  · rw [response, if_pos timer]
    exact ⟨fun h => by rw [if_neg (by rw [h]; decide), if_pos h], fun h busy => by rw [if_neg busy, if_neg h]⟩
  · rw [wake]
    exact ⟨fun h => by rw [if_pos ⟨h, timer⟩], fun h _ => by rw [if_neg fun k => h k.1]⟩

/-- Settles O50: an exchange that expires in the state that awaits it faults the lane. -/
theorem expiredExchangeFaultsTheLane : Obligations.ExpiredExchangeFaultsTheLane := by
  intro s lane row st cause mem timer pair
  refine ⟨fun state => ?_, (exec_expired mem timer).2⟩
  have f := faultLane_alone lane cause pair
  exact ⟨s.faultLane lane cause, (exec_expired mem timer).1 state, f.entered, f.ds, f.flag, f.other, f.wire, f.mem,
    f.only⟩

end Sys2Proof.Machine

/-! SET LANE and bring-up (R134 to R136, R138), and the replies that are discarded (R139, R180). -/

namespace Sys2Proof.Machine

/-! ### Entry to BRINGUP and to DOWN (R136, R153) -/

/-- The state of a lane at its entry to BRINGUP. -/
def LaneUnit.broughtUp (a : LaneUnit) : LaneUnit :=
  { a with state := .bringup, burstTag := a.burstTag + 1, timer := some 500 }

/-- The lane is in BRINGUP with HELLO sent, before its block is missed. -/
def State.bringsUp (s : State) (lane : Lane) : State :=
  { s with
    al := s.al.set lane (s.lane lane).broughtUp
    ds := { s.ds with claim := s.ds.claim.set lane none }
    wire := s.wire.set lane (s.wire.get lane ++ [.hello ((s.lane lane).burstTag + 1)]) }

theorem enterBringup_eq (s : State) (lane : Lane) : s.enterBringup lane = (s.bringsUp lane).blockMissed lane := by
  unfold State.enterBringup
  cases lane <;> rfl

theorem enterBringup_outside (s : State) (lane : Lane) : Outside (s.bringsUp lane) (s.enterBringup lane) := by
  rw [enterBringup_eq]
  exact outside_blockMissed _ _

/-! ### SET LANE (R134, R135) -/

/-- What the fields of SET LANE say once they pass its checks. -/
theorem decodeLane_fields {p : List Byte} {o : LaneOperands} (h : decodeLane p = some o) :
    let k := byteAt p 6
    (20 ≤ k ∧ k ≤ 34) ∧ field p 7 5 ≤ 2 ^ k ∧ field p 12 5 ≤ 2 ^ k - 1 ∧ field p 17 4 ≤ 2 ^ 20 ∧ byteAt p 21 ≤ 4 ∧
      byteAt p 22 ≤ 15 ∧ 1 ≤ byteAt p 23 ∧ (100 ≤ field p 25 2 ∧ field p 25 2 ≤ 10000) ∧ byteAt p 27 ≤ 1 ∧
      field p 7 5 ≤ field p 12 5 + 1 ∧ field p 1 5 / 2 ^ k * 2 ^ k + 2 ^ k ≤ 2 ^ 40 := by
  unfold decodeLane at h
  obtain ⟨k, size, h⟩ := Option.bind_eq_some_iff.mp h
  obtain ⟨_, data, h⟩ := Option.bind_eq_some_iff.mp h
  obtain ⟨_, index, h⟩ := Option.bind_eq_some_iff.mp h
  obtain ⟨_, reserve, h⟩ := Option.bind_eq_some_iff.mp h
  obtain ⟨_, burst, h⟩ := Option.bind_eq_some_iff.mp h
  obtain ⟨_, retry, h⟩ := Option.bind_eq_some_iff.mp h
  obtain ⟨_, response, h⟩ := Option.bind_eq_some_iff.mp h
  obtain ⟨_, wake, h⟩ := Option.bind_eq_some_iff.mp h
  obtain ⟨_, attention, h⟩ := Option.bind_eq_some_iff.mp h
  obtain ⟨sizeIn, rfl⟩ := inRange_eq_some.mp size
  obtain ⟨dataIn, rfl⟩ := inRange_eq_some.mp data
  obtain ⟨indexIn, rfl⟩ := inRange_eq_some.mp index
  dsimp only at h
  split at h
  · next fit =>
    exact ⟨sizeIn, dataIn.2, indexIn.2, (inRange_eq_some.mp reserve).1.2, (inRange_eq_some.mp burst).1.2,
      (inRange_eq_some.mp retry).1.2, (inRange_eq_some.mp response).1.1, (inRange_eq_some.mp wake).1,
      yesNoOf_le attention, fit.1, fit.2⟩
  · cases h

/-- A field of SET LANE out of its range, crossed cursors, or a window that passes 2^40. -/
theorem decodeLane_eq_none {p : List Byte}
    (h : let k := byteAt p 6
      k < 20 ∨ 34 < k ∨ 2 ^ k < field p 7 5 ∨ 2 ^ k ≤ field p 12 5 ∨ 2 ^ 20 < field p 17 4 ∨
        4 < byteAt p 21 ∨ 15 < byteAt p 22 ∨ byteAt p 23 = 0 ∨ field p 25 2 < 100 ∨
        10000 < field p 25 2 ∨ 1 < byteAt p 27 ∨ field p 12 5 + 1 < field p 7 5 ∨
        2 ^ 40 < field p 1 5 / 2 ^ k * 2 ^ k + 2 ^ k) : decodeLane p = none := by
  rw [Option.eq_none_iff_forall_ne_some]
  intro o ho
  obtain ⟨size, data, index, reserve, burst, retry, response, wake, attention, cursors, window⟩ := decodeLane_fields ho
  have positive : 0 < 2 ^ byteAt p 6 := Nat.two_pow_pos _
  dsimp only at h size data index window
  generalize 2 ^ byteAt p 6 = blocks at *
  generalize field p 1 5 / blocks * blocks = base at *
  omega

theorem setLaneCheck_of_settable {p : List Byte} {s : State} {lane : Lane} (number : laneOf p = some lane)
    (state : (s.lane lane).state = .down ∨ (s.lane lane).state = .faulted) :
    setLaneCheck p s = .ofFields (decodeLane p) := by
  have passes : laneCheck LaneState.settable p s = .ok := by
    rw [laneCheck, number]
    simp only
    obtain h | h := state <;> rw [h] <;> rfl
  rw [setLaneCheck, passes]
  rfl

/-- The lane that SET LANE leaves in BRINGUP. -/
theorem adoptSettings_broughtUp (a : LaneUnit) (o : LaneOperands) :
    let free := (o.indexCursor : Int) - o.dataCursor + 1
    (a.adoptSettings o).broughtUp =
      { a with
        state := .bringup, settings := o.settings, dataCursor := o.dataCursor,
        indexCursor := o.indexCursor, deadSpace := 0, failures := 0, fault := .none, action := .none,
        wakePending := false, report := none,
        dataFull := decide (free < 4097 + o.settings.reserve), indexFull := decide (free < 1),
        burstTag := a.burstTag + 1, timer := some 500 } := by
  rfl

theorem exec_setLane {s : State} {f : CmdFrame} {rest : List CmdFrame} {lane : Lane} {o : LaneOperands}
    (received : Receives s 0x40 f rest) (length : f.payload.length = 28) (number : laneOf f.payload = some lane)
    (state : (s.lane lane).state = .down ∨ (s.lane lane).state = .faulted) (decoded : decodeLane f.payload = some o) :
    exec .setLane s = .next ((s.answered f rest .ok (o.bytes lane)).setLane lane o) := by
  have check : setLaneCommand.check f.payload s = .ok :=
    (setLaneCheck_of_settable number state).trans (by rw [decoded]; rfl)
  have run : exec .setLane s = .next (setLaneCommand.take s) := rfl
  rw [run, received.ok (c := setLaneCommand) length check]
  simp only [setLaneCommand, setLaneEffect, setLanePayload, number, decoded]

/-- Settles O45: SET LANE by its checks; what it leaves is the adopted lane, brought up. -/
theorem setLaneEntersBringup : Obligations.SetLaneEntersBringup := by
  intro s f rest received length
  refine ⟨fun high => ?_, fun lane number state => ⟨?_, fun o decoded => ?_⟩⟩
  · exact exec_refused (c := setLaneCommand) rfl received length (setLaneCheck_badValue s high) (by decide)
  · intro p k bad
    exact exec_refused (c := setLaneCommand) rfl received length
      ((setLaneCheck_of_settable number state).trans (by rw [decodeLane_eq_none bad]; rfl)) (by decide)
  · let b := s.answered f rest .ok (o.bytes lane)
    let v := b.onLane lane fun a => a.adoptSettings o
    have out := enterBringup_outside v lane
    have unit : v.lane lane = (s.lane lane).adoptSettings o := get_onLane _ _ _
    refine ⟨v.enterBringup lane, exec_setLane received length number state decoded, ?_⟩
    beta_reduce
    intro a free
    refine ⟨?_, ?_, ?_, ?_, out.ds, out.mem, fun owes => ?_⟩
    · rw [State.lane_eq, out.al]
      refine (PerLane.get_set_self _ _ _).trans ?_
      rw [unit]
      rfl
    · rw [State.lane_eq, out.al]
      exact (PerLane.get_set_other _ _ _).trans (PerLane.get_set_other _ _ _)
    · rw [out.wire]
      refine (PerLane.get_set_self _ _ _).trans ?_
      rw [unit]
      rfl
    · rw [out.wire]
      exact PerLane.get_set_other _ _ _
    · rw [enterBringup_eq, blockMissed_of_not_owes (by exact owes)]
      exact .refl_of rfl

/-! ### HELLO-REPLY (R136, R138) -/

theorem exec_helloReply (s : State) (lane : Lane) (tag : Word16) (b : Byte) (c : BitVec 40) (d : Bool) :
    exec (.helloReply lane tag b c d) s = .next (s.onHelloReply lane tag (moduleReport b c d)) := rfl

theorem onHelloReply_of_awaits {s : State} {lane : Lane} {tag : Word16} (r : ModuleReport)
    (state : (s.lane lane).state = .bringup) (timer : (s.lane lane).timer.isSome = true)
    (current : (s.lane lane).burstTag = tag) : s.onHelloReply lane tag r = (s.takeReport lane r).evaluate := by
  rw [State.onHelloReply, State.awaits, state, timer, current]
  simp

/-- The lane with a module's report recorded and its exchange ended. -/
def State.reported (s : State) (lane : Lane) (r : ModuleReport) : State :=
  s.onLane lane fun a => { a with timer := none, report := some r }

theorem takeReport_beyond {s : State} {lane : Lane} {r : ModuleReport}
    (h : r.capacity < (s.lane lane).settings.base + 2 ^ (s.lane lane).settings.sizeExp) :
    s.takeReport lane r = (s.reported lane r).faultLane lane .window := if_pos h

theorem takeReport_inside {s : State} {lane : Lane} {r : ModuleReport}
    (h : (s.lane lane).settings.base + 2 ^ (s.lane lane).settings.sizeExp ≤ r.capacity) :
    s.takeReport lane r = (s.reported lane r).bringupDone lane r := if_neg (by omega)

theorem lane_reported (s : State) (lane : Lane) (r : ModuleReport) :
    (s.reported lane r).lane lane = { s.lane lane with timer := none, report := some r } := get_onLane _ _ _

/-- The flags that the end of bring-up sets: the lane's change flag, and ARCHIVE_FULL where data-full holds. -/
def State.readied (s : State) (lane : Lane) : State :=
  if (s.lane lane).dataFull then (s.setFlag (laneChangeFlag lane)).setFlag .archiveFull
  else s.setFlag (laneChangeFlag lane)

theorem readied_eq (s : State) (lane : Lane) :
    s.readied lane = (s.setClp (s.readied lane).clp).setNu (s.readied lane).nu := by
  unfold State.readied
  split
  · rw [setFlag_eq, setFlag_eq]
    rfl
  · rw [setFlag_eq]
    rfl

theorem within_readied (s : State) (lane : Lane) : Within s (s.readied lane) := by
  unfold State.readied
  split
  · exact (within_setFlag _ _).trans (within_setFlag _ _)
  · exact within_setFlag _ _

theorem readied_flags (s : State) (lane : Lane) :
    (s.readied lane).nu.isPending (laneChangeFlag lane) = true ∧
      ((s.lane lane).dataFull = true → (s.readied lane).nu.isPending .archiveFull = true) := by
  unfold State.readied
  split
  · exact ⟨(within_setFlag _ _).kept.flags _ (setFlag_pending _ _), fun _ => setFlag_pending _ _⟩
  · next h => exact ⟨setFlag_pending _ _, fun full => absurd full h⟩

/-- Bring-up ends in READY, with the flags set and, while no pair exists, a claim. -/
theorem bringupDone_alone {s : State} {lane : Lane} (r : ModuleReport) (pair : s.ds.pair = none) :
    s.bringupDone lane r =
      ((((s.onLane lane fun a => a.adopt r).readied lane).onLane lane fun a => { a with state := .ready }).setClaim lane
        (s.claimNow ((s.lane lane).adopt r))) := by
  have same : s.bringupDone lane r = ((s.onLane lane fun a => a.adopt r).readied lane).enterReady lane := by
    unfold State.bringupDone State.readied
    dsimp only
    rw [State.lane_eq, setFlag_al]
    rfl
  have ds : ((s.onLane lane fun a => a.adopt r).readied lane).ds = s.ds := by
    rw [readied_eq]
    rfl
  rw [same, enterReady_of_none (by rw [ds]; exact pair)]
  have claim : ((s.onLane lane fun a => a.adopt r).readied lane).claimNow
      (((s.onLane lane fun a => a.adopt r).readied lane).lane lane) = s.claimNow ((s.lane lane).adopt r) := by
    rw [readied_eq, ← show (s.onLane lane fun a => a.adopt r).lane lane = (s.lane lane).adopt r from get_onLane _ _ _]
    rfl
  rw [claim]

/-- What bring-up leaves when it ends in READY. -/
structure ReadyAlone (s u : State) (lane : Lane) (r : ModuleReport) : Prop where
  entered : u.lane lane = { (s.lane lane).adopt r with state := .ready }
  claim : u.ds.claim.get lane = s.claimNow ((s.lane lane).adopt r)
  flag : u.nu.isPending (laneChangeFlag lane) = true
  full : ((s.lane lane).adopt r).dataFull = true → u.nu.isPending .archiveFull = true
  other : u.lane lane.other = s.lane lane.other
  wire : u.wire = s.wire
  only : LanesOnly s u

theorem bringupDone_ready {s : State} {lane : Lane} (r : ModuleReport) (pair : s.ds.pair = none) :
    ReadyAlone s (s.bringupDone lane r) lane r := by
  rw [bringupDone_alone r pair]
  let v := s.onLane lane fun a => a.adopt r
  have unit : v.lane lane = (s.lane lane).adopt r := get_onLane _ _ _
  have flags := readied_flags v lane
  rw [unit] at flags
  have al : (v.readied lane).al = v.al := by rw [readied_eq]; rfl
  refine ⟨?_, PerLane.get_set_self _ _ _, flags.1, flags.2, ?_, ?_, ?_⟩
  · refine (get_onLane (v.readied lane) lane fun a => { a with state := .ready }).trans ?_
    rw [al]
    exact congrArg (fun a : LaneUnit => { a with state := .ready }) unit
  · refine (PerLane.get_set_other _ _ _).trans ?_
    rw [al]
    exact PerLane.get_set_other _ _ _
  · rw [readied_eq]
    rfl
  · have held := (within_readied v lane).kept.toHeld
    exact ⟨by rw [readied_eq]; rfl, held.rxPart, held.rx, held.linkErrors, held.outPos, held.out, held.flags,
      held.classOf, held.enable⟩

theorem LanesOnly.after {s t u : State} (h : LanesOnly t u) (same : t = { s with al := t.al }) : LanesOnly s u := by
  rw [same] at h
  exact ⟨h.same, h.rxPart, h.rx, h.linkErrors, h.outPos, h.out, h.flags, h.classOf, h.enable⟩

/-- Settles O49: inside the capacity the lane becomes READY, beyond it the lane faults. -/
theorem helloReplyEndsBringup : Obligations.HelloReplyEndsBringup := by
  intro s lane tag maxBurst capacity attention state timer current pair a r full
  have run : exec (.helloReply lane tag maxBurst capacity attention) s = .next (s.takeReport lane r).evaluate := by
    rw [exec_helloReply]
    exact congrArg _ (onHelloReply_of_awaits r state timer current)
  have unit := lane_reported s lane r
  have other : (s.reported lane r).lane lane.other = s.lane lane.other := PerLane.get_set_other _ _ _
  refine ⟨fun inside => ?_, fun beyond => ?_⟩
  · have ready := bringupDone_ready (s := s.reported lane r) (lane := lane) r (by exact pair)
    rw [← takeReport_inside (by exact inside)] at ready
    have entered := ready.entered
    have claim := ready.claim
    have full := ready.full
    rw [unit] at entered claim full
    exact ⟨_, run, entered, claim, ready.flag, full, ready.other.trans other, ready.wire, ready.only.after rfl⟩
  · have faults := faultLane_alone (s := s.reported lane r) lane .window (by exact pair)
    rw [← takeReport_beyond (by exact beyond)] at faults
    have entered := faults.entered
    rw [unit] at entered
    refine ⟨_, run, entered, ?_, faults.flag, faults.other.trans other, faults.wire, faults.mem⟩
    rw [faults.ds]
    exact PerLane.get_set_self _ _ _

/-! ### Replies that are discarded (R139, R180) -/

theorem awaits_of_stale {s : State} {lane : Lane} {st : LaneState} {tag : Word16}
    (h : (s.lane lane).state ≠ st ∨ (s.lane lane).timer = none ∨ (s.lane lane).burstTag ≠ tag) :
    s.awaits lane st tag = false := by
  unfold State.awaits
  obtain state | idle | other := h
  · rw [beq_false_of_ne state]
    rfl
  · rw [idle]
    simp
  · rw [beq_false_of_ne other, Bool.and_false]

theorem moduleFrameOf_eq_none {type : Nat} (tag : Word16) {body : List Byte}
    (h : type < 0x81 ∨ 0x87 < type ∨ body.length ≠ if type = 0x81 then 7 else 0) : moduleFrameOf type tag body = none := by
  unfold moduleFrameOf
  split <;> first | rfl | exact if_neg (by simpa using h)

/-- Bytes whose CRC, type or body length is wrong are no frame of a module. -/
theorem parseModuleFrame_eq_none {p : List Byte}
    (h : p.length ≠ 10 + field p 4 4 ∨ byteAt p 0 ≠ 0xA5 ∨
      field p (8 + field p 4 4) 2 ≠ (crc16 ((p.drop 1).take (7 + field p 4 4))).toNat ∨
      byteAt p 1 < 0x81 ∨ 0x87 < byteAt p 1 ∨ field p 4 4 ≠ if byteAt p 1 = 0x81 then 7 else 0) :
    parseModuleFrame p = none := by
  unfold parseModuleFrame
  dsimp only
  split
  · next whole =>
    obtain ⟨start, length, crc⟩ := whole
    have body : ((p.drop 8).take (field p 4 4)).length = field p 4 4 := by
      rw [List.length_take, List.length_drop]
      omega
    refine moduleFrameOf_eq_none _ ?_
    rw [body]
    obtain h | h | h | h := h
    · exact absurd length h
    · exact absurd start h
    · exact absurd crc h
    · exact h
  · rfl

/-- Settles O53: each reply row looks at what the lane awaits, and bytes that fail the check are no frame. -/
theorem staleAndDamagedRepliesAreDiscarded : Obligations.StaleAndDamagedRepliesAreDiscarded := by
  intro s lane tag row awaited
  refine ⟨fun mem stale => ?_, fun bytes bad => ?_⟩
  · have idle := awaits_of_stale stale
    obtain mem | ⟨⟨b, c, d, rfl⟩, rfl⟩ := mem
    · simp only [List.mem_cons, Prod.mk.injEq, List.not_mem_nil, or_false] at mem
      obtain ⟨rfl, rfl⟩ | ⟨rfl, rfl⟩ | ⟨rfl, rfl⟩ | ⟨rfl, rfl⟩ | ⟨rfl, rfl⟩ := mem
      · exact congrArg _ (show s.onAck lane tag = s by rw [State.onAck, idle]; rfl)
      · exact congrArg _ (show s.onRetry lane tag = s by rw [State.onRetry, idle]; rfl)
      · exact congrArg _ (show s.onFault lane tag = s by rw [State.onFault, idle]; rfl)
      · exact congrArg _ (show s.onParked lane tag = s by rw [State.onParked, idle]; rfl)
      · exact congrArg _ (show s.onAwake lane tag = s by rw [State.onAwake, idle]; rfl)
    · exact congrArg _ (show s.onHelloReply lane tag (moduleReport b c d) = s by rw [State.onHelloReply, idle]; rfl)
  · have run : exec (.archiveFrameDiscarded lane bytes) s = execArchiveFrameDiscarded lane bytes s := rfl
    rw [run, execArchiveFrameDiscarded, parseModuleFrame_eq_none bad]

end Sys2Proof.Machine

/-! The evaluation of the standing claims (R101 to R110). -/

namespace Sys2Proof.Machine

/-! ### Records by slot -/

theorem findSlot_putSlot_self (l : List (Nat × Span)) (k : Nat) (v : Span) : findSlot (putSlot l k v) k = some v := by
  induction l with
  | nil => simp [putSlot, findSlot]
  | cons p rest ih =>
    obtain ⟨n, sp⟩ := p
    unfold putSlot
    split
    · simp [findSlot]
    · split
      · simp [findSlot]
      · next h => simp [findSlot, h, ih]

theorem findSlot_putSlot_other (l : List (Nat × Span)) {k j : Nat} (v : Span) (h : j ≠ k) :
    findSlot (putSlot l k v) j = findSlot l j := by
  induction l with
  | nil => simp [putSlot, findSlot, h]
  | cons p rest ih =>
    obtain ⟨n, sp⟩ := p
    unfold putSlot
    split
    · simp [findSlot, h]
    · split
      · next hk => simp [findSlot, ← hk, h]
      · simp [findSlot, ih]

theorem span?_enter_self (s : State) (slot : Nat) (v : Span) : (s.enter slot v).span? slot = some v :=
  findSlot_putSlot_self _ _ _

theorem span?_enter_other (s : State) {slot n : Nat} (v : Span) (h : n ≠ slot) :
    (s.enter slot v).span? n = s.span? n := findSlot_putSlot_other _ _ h

theorem queue_enter (s : State) (slot : Nat) (v : Span) (h : v.state ≠ .queued) :
    (s.enter slot v).st.queues.get v.source = queueRemove slot (s.st.queues.get v.source) := by
  unfold State.enter
  dsimp only
  rw [if_neg h]
  exact PerSource.get_set_self _ _ _

/-! ### The start of a span write job (R140) -/

/-- The start of a job touches its lane, its claim, the link and the notices. -/
theorem startSpanJob_same (s : State) (lane : Lane) (slot : Nat) (r : Word16) (q : Word32) :
    s.startSpanJob lane slot r q =
      { s with
        al := (s.startSpanJob lane slot r q).al
        ds := { s.ds with claim := s.ds.claim.set lane none }
        wire := (s.startSpanJob lane slot r q).wire
        clp := (s.startSpanJob lane slot r q).clp
        nu := (s.startSpanJob lane slot r q).nu } := by
  rw [startSpanJob_eq]
  unfold State.moveCursors
  dsimp only
  split
  · rw [setFlag_eq]
    rfl
  · rfl

theorem startSpanJob_st (s : State) (lane : Lane) (slot : Nat) (r : Word16) (q : Word32) :
    (s.startSpanJob lane slot r q).st = s.st := by rw [startSpanJob_same]

theorem startSpanJob_pair (s : State) (lane : Lane) (slot : Nat) (r : Word16) (q : Word32) :
    (s.startSpanJob lane slot r q).ds.pair = s.ds.pair := by rw [startSpanJob_same]

theorem startSpanJob_other (s : State) (lane : Lane) (slot : Nat) (r : Word16) (q : Word32) :
    (s.startSpanJob lane slot r q).lane lane.other = s.lane lane.other :=
  (moves_startSpanJob s lane slot r q).al _ (Lane.other_ne lane)

/-! ### The eligibility of a head (R105 to R107) -/

theorem Lane.ne_iff_other {r lane : Lane} : r ≠ lane ↔ r = lane.other := by cases r <;> cases lane <;> decide

theorem unavailable_iff (s : State) (lane : Lane) :
    s.unavailable lane = true ↔
      (s.lane lane).state ∈ [LaneState.down, .bringup, .paused, .faulted] ∨ (s.lane lane).dataFull = true := by
  unfold State.unavailable
  cases (s.lane lane).state <;> simp

theorem pairable_iff (s : State) (lane : Lane) :
    s.pairable lane = true ↔
      (s.lane lane).state ∈ [LaneState.ready, .busy, .parking, .parked, .waking] ∧ (s.lane lane).dataFull = false ∧
        s.ds.pair = none := by
  unfold State.pairable State.hasRole
  cases (s.lane lane).state <;> simp

theorem not_pairable_iff (s : State) (lane : Lane) :
    ¬ s.pairable lane = true ↔
      (s.lane lane).state ∈ [LaneState.down, .bringup, .paused, .faulted] ∨ (s.lane lane).dataFull = true ∨
        s.ds.pair ≠ none := by
  rw [pairable_iff]
  cases (s.lane lane).state <;> simp <;> cases (s.al.get lane).dataFull <;> simp

theorem commitsAt_iff (s : State) (lane : Lane) (sp : Span) :
    s.commitsAt lane sp = true ↔
      sp.laneRule = .mirror ∧ sp.mirrorPolicy = some .degrade ∧ sp.repairLane = some lane.other ∧ sp.copies ≠ [] ∧
        ((s.lane lane.other).state ∈ [LaneState.down, .bringup, .paused, .faulted] ∨
          (s.lane lane.other).dataFull = true) := by
  rw [← unavailable_iff]
  unfold State.commitsAt
  split
  · next r rule repair =>
    simp only [Bool.and_eq_true, decide_eq_true_eq, rule, repair, true_and, Option.some.injEq, Lane.ne_iff_other]
    constructor
    · rintro ⟨⟨⟨rfl, away⟩, policy⟩, copies⟩
      exact ⟨policy, rfl, copies, away⟩
    · rintro ⟨policy, rfl, copies, away⟩
      exact ⟨⟨⟨rfl, away⟩, policy⟩, copies⟩
  · next h =>
    simp only [Bool.false_eq_true, false_iff]
    rintro ⟨rule, -, repair, -⟩
    exact h _ rule repair

theorem commitHeads_succ {s : State} {lane : Lane} {src : Source} {slot : Nat} {sp : Span} (n : Nat)
    (head : s.st.head src = some (slot, sp)) :
    State.commitHeads lane src (n + 1) s =
      if s.commitsAt lane sp = true then State.commitHeads lane src n ((s.commit slot).setFlag .pairDegraded) else s := by
  rw [State.commitHeads, head]

theorem eligible_of_rule (s : State) (lane : Lane) (sp : Span) :
    (sp.laneRule = .l0 → s.eligible lane sp = if lane = .l0 then some .single else none) ∧
    (sp.laneRule = .l1 → s.eligible lane sp = if lane = .l1 then some .single else none) ∧
    (sp.laneRule = .either → s.eligible lane sp = some .single) := by
  refine ⟨fun h => ?_, fun h => ?_, fun h => ?_⟩ <;> rw [State.eligible, h]

theorem eligible_of_repair {s : State} {lane r : Lane} {sp : Span} (rule : sp.laneRule = .mirror)
    (repair : sp.repairLane = some r) : s.eligible lane sp = if r = lane then some .single else none := by
  rw [State.eligible, rule, repair]

theorem eligible_of_mirror {s : State} {lane : Lane} {sp : Span} (rule : sp.laneRule = .mirror)
    (repair : sp.repairLane = none) :
    s.eligible lane sp =
      if s.pairable lane.other = true then some .pair
      else if sp.mirrorPolicy = some .degrade then some .single else none := by
  rw [State.eligible, rule, repair]

/-! ### Arbitration (R108) -/

/-- The order in which bids win: by level, then by sequence. -/
def Bid.le (x y : Bid) : Prop := x.level < y.level ∨ x.level = y.level ∧ x.span.seq ≤ y.span.seq

theorem Bid.le_refl (x : Bid) : x.le x := .inr ⟨rfl, BitVec.le_refl _⟩

theorem Bid.le_trans {x y z : Bid} (h : x.le y) (k : y.le z) : x.le z := by
  obtain h | ⟨h, hseq⟩ := h <;> obtain k | ⟨k, kseq⟩ := k
  · exact .inl (h.trans k)
  · exact .inl (k ▸ h)
  · exact .inl (h ▸ k)
  · exact .inr ⟨h.trans k, BitVec.le_trans hseq kseq⟩

theorem Bid.le_of_beats {x y : Bid} (h : x.beats y = true) : x.le y := by
  simp only [Bid.beats, Bool.or_eq_true, Bool.and_eq_true, decide_eq_true_eq] at h
  exact h.imp id fun ⟨level, seq⟩ => ⟨level, BitVec.le_of_lt seq⟩

theorem Bid.le_of_not_beats {x y : Bid} (h : x.beats y = false) : y.le x := by
  simp only [Bid.beats, Bool.or_eq_false_iff, Bool.and_eq_false_iff, decide_eq_false_iff_not] at h
  obtain ⟨level, seq⟩ := h
  obtain lt | eq := Nat.lt_or_eq_of_le (Nat.le_of_not_lt level)
  · exact .inl lt
  · exact .inr ⟨eq, BitVec.not_lt.mp (seq.resolve_left fun h => h eq.symm)⟩

/-- Of two choices the first is as good as the second: where the second is a bid, the first is one no worse. -/
def Leads (x y : Option Bid) : Prop := ∀ c, y = some c → ∃ b, x = some b ∧ Bid.le b c

theorem Leads.refl (x : Option Bid) : Leads x x := fun c h => ⟨c, h, Bid.le_refl c⟩

theorem Leads.trans {x y z : Option Bid} (h : Leads x y) (k : Leads y z) : Leads x z := fun c hc =>
  have ⟨_, hb, bc⟩ := k c hc
  have ⟨a, ha, ab⟩ := h _ hb
  ⟨a, ha, Bid.le_trans ab bc⟩

theorem leads_betterBid (x y : Option Bid) : Leads (betterBid x y) x ∧ Leads (betterBid x y) y := by
  cases x with
  | none =>
    have same : betterBid none y = y := by cases y <;> rfl
    rw [same]
    exact ⟨fun c h => absurd h (by simp), .refl y⟩
  | some p =>
    cases y with
    | none => exact ⟨.refl (some p), fun c h => absurd h (by simp)⟩
    | some q =>
      cases beats : q.beats p with
      | true =>
        have better : betterBid (some p) (some q) = some q := if_pos beats
        rw [better]
        exact ⟨fun c h => ⟨q, rfl, Option.some.inj h ▸ Bid.le_of_beats beats⟩, .refl _⟩
      | false =>
        have better : betterBid (some p) (some q) = some p := if_neg (by rw [beats]; decide)
        rw [better]
        exact ⟨.refl _, fun c h => ⟨p, rfl, Option.some.inj h ▸ Bid.le_of_not_beats beats⟩⟩

/-- The winner is no worse than any bid. -/
theorem leads_winner (s : State) (lane : Lane) (src : Source) : Leads (s.winner lane) (s.bid lane src) := by
  unfold State.winner
  generalize s.bid lane = bid
  have h1 := leads_betterBid (bid .s0) (bid .s1)
  have h2 := leads_betterBid (betterBid (bid .s0) (bid .s1)) (bid .s2)
  have h3 := leads_betterBid (betterBid (betterBid (bid .s0) (bid .s1)) (bid .s2)) (bid .s3)
  cases src with
  | s0 => exact h3.1.trans (h2.1.trans h1.1)
  | s1 => exact h3.1.trans (h2.1.trans h1.2)
  | s2 => exact h3.1.trans h2.2
  | s3 => exact h3.2

theorem bid_of_head {s : State} {lane : Lane} {src : Source} {slot : Nat} {sp : Span}
    (head : s.st.head src = some (slot, sp)) :
    s.bid lane src = (s.eligible lane sp).map fun t =>
      { level := (s.settings src).level, slot := slot, span := sp, take := t } := by
  rw [State.bid, head]

theorem winner_spec {s : State} {lane : Lane} {b : Bid} (h : s.winner lane = some b) :
    (∃ src, s.st.head src = some (b.slot, b.span) ∧ b.level = (s.settings src).level ∧
      s.eligible lane b.span = some b.take) ∧
    ∀ src slot sp, s.st.head src = some (slot, sp) → (s.eligible lane sp).isSome = true →
      b.level < (s.settings src).level ∨ b.level = (s.settings src).level ∧ b.span.seq ≤ sp.seq := by
  refine ⟨?_, fun src slot sp head eligible => ?_⟩
  · obtain ⟨src, bid⟩ := winner_bid h
    cases head : s.st.head src with
    | none =>
      rw [State.bid, head] at bid
      cases bid
    | some p =>
      rw [bid_of_head (slot := p.1) (sp := p.2) head, Option.map_eq_some_iff] at bid
      obtain ⟨take, eligible, rfl⟩ := bid
      exact ⟨src, head, rfl, eligible⟩
  · obtain ⟨take, eligible⟩ := Option.isSome_iff_exists.mp eligible
    obtain ⟨w, hw, le⟩ := leads_winner s lane src _ (by rw [bid_of_head head, eligible]; rfl)
    cases hw.symm.trans h
    exact le

theorem winner_none {s : State} {lane : Lane} (h : s.winner lane = none) {src : Source} {slot : Nat} {sp : Span}
    (head : s.st.head src = some (slot, sp)) : s.eligible lane sp = none := by
  cases eligible : s.eligible lane sp with
  | none => rfl
  | some take =>
    obtain ⟨w, hw, -⟩ := leads_winner s lane src _ (by rw [bid_of_head head, eligible]; rfl)
    cases hw.symm.trans h

/-! ### The answer to a claim (R103, R104, R109, R110) -/

theorem owes_iff (s : State) (lane : Lane) :
    s.owes lane = true ↔ ∃ w, s.iu.writing = some w ∧ w.duty.get lane = .owed := by
  unfold State.owes
  split
  · next w hw => simp [hw]
  · next hw => simp [hw]

theorem answer_of_no_claim {s : State} {lane : Lane} (h : s.ds.claim.get lane = none) : s.answer lane = none := by
  rw [State.answer, h]

theorem answer_of_owes {s : State} {lane : Lane} {cl : Claim} {w : Writing} (claim : s.ds.claim.get lane = some cl)
    (writing : s.iu.writing = some w) (owed : w.duty.get lane = .owed) :
    s.answer lane = some (s.answerIndex lane w) := by
  rw [State.answer, claim]
  dsimp only
  rw [writing]
  exact if_pos owed

/-- A lane that owes no block: its FULL claim is answered with a span while the lock is off. -/
theorem answer_of_not_owes {s : State} {lane : Lane} {cl : Claim} (claim : s.ds.claim.get lane = some cl)
    (owes : s.owes lane = false) :
    s.answer lane = if s.iu.lock = true ∨ cl.kind = .index then none else s.answerSpan lane := by
  have step : (if s.iu.lock = true then none else match cl.kind with
      | .index => none
      | .full => s.answerSpan lane) = if s.iu.lock = true ∨ cl.kind = .index then none else s.answerSpan lane := by
    cases s.iu.lock <;> cases cl.kind <;> rfl
  rw [State.answer, claim]
  dsimp only
  cases writing : s.iu.writing with
  | none => exact step
  | some w =>
    have other : w.duty.get lane ≠ .owed := fun h => by
      rw [(owes_iff s lane).mpr ⟨w, writing, h⟩] at owes
      exact Bool.noConfusion owes
    exact (if_neg other).trans step

theorem answerSpan_of_no_commit {s : State} {lane : Lane} (h : s.hasRepairCommit lane = false) :
    s.answerSpan lane = (s.winner lane).map (s.assign lane) := by
  unfold State.answerSpan
  rw [h]
  dsimp only
  simp only [Bool.false_eq_true, if_false, false_and]
  cases s.iu.writing <;> cases s.winner lane <;> rfl

theorem answerSpan_of_commit {s : State} {lane : Lane} (h : s.hasRepairCommit lane = true) :
    (s.answerSpan lane).isSome = true := by
  unfold State.answerSpan
  rw [h]
  dsimp only
  simp only [if_true, true_and]
  split
  · split
    · rfl
    · split <;> rfl
  · split <;> rfl

theorem assign_of_parked {s : State} {lane : Lane} (w : Bid) (h : (s.lane lane).state = .parked) :
    s.assign lane w = s.enterWaking lane := if_pos h

theorem assign_pair {s : State} {lane : Lane} {w : Bid} (h : (s.lane lane).state ≠ .parked) (take : w.take = .pair) :
    s.assign lane w = s.formPair lane w.slot w.span := by
  rw [State.assign, if_neg h, take]

theorem assign_single {s : State} {lane : Lane} {w : Bid} (h : (s.lane lane).state ≠ .parked)
    (take : w.take = .single) :
    s.assign lane w =
      (s.enter w.slot { w.span with state := .draining }).startSpanJob lane w.slot w.span.runId w.span.seq := by
  rw [State.assign, if_neg h, take]

/-- What the taking of a head as a single write leaves. -/
theorem assign_single_spec (s : State) (lane : Lane) (b : Bid) :
    let t := (s.enter b.slot { b.span with state := .draining }).startSpanJob lane b.slot b.span.runId b.span.seq
    t.span? b.slot = some { b.span with state := .draining } ∧
      (∀ n, n ≠ b.slot → t.span? n = s.span? n) ∧
      b.slot ∉ t.st.queues.get b.span.source ∧ (t.lane lane).state = .busy ∧
      t.lane lane.other = s.lane lane.other ∧ t.ds.claim.get lane = none ∧
      t.ds.pair = s.ds.pair ∧
      ∃ j, (t.lane lane).job = some (.span j) ∧ j.slot = b.slot ∧ j.runId = b.span.runId ∧
        j.seq = b.span.seq ∧ j.started = true ∧ j.first = (s.lane lane).dataCursor ∧
        j.record = some { b.span with state := .draining } := by
  intro t
  let e := s.enter b.slot { b.span with state := .draining }
  have st : t.st = e.st := startSpanJob_st e lane _ _ _
  have job := get_startSpanJob e lane b.slot b.span.runId b.span.seq
  have found : t.span? b.slot = some { b.span with state := .draining } := by
    rw [State.span?, st]
    exact span?_enter_self s b.slot _
  refine ⟨found, fun n hn => ?_, ?_, ?_, startSpanJob_other e lane _ _ _, claim_startSpanJob e lane _ _ _,
    startSpanJob_pair e lane _ _ _,
    e.startedJob lane b.slot b.span.runId b.span.seq, ?_, rfl, rfl, rfl, rfl, rfl, ?_⟩
  · rw [State.span?, st]
    exact span?_enter_other s _ hn
  · rw [st, show e.st.queues.get b.span.source = queueRemove b.slot (s.st.queues.get b.span.source) from
      queue_enter s b.slot { b.span with state := .draining } (by simp)]
    exact fun h => (mem_queueRemove.mp h).2 rfl
  · rw [State.lane_eq, job]
    rfl
  · rw [State.lane_eq, job]
    rfl
  · exact span?_enter_self s b.slot _

theorem answerIndex_of_parked {s : State} {lane : Lane} (w : Writing) (h : (s.lane lane).state = .parked) :
    s.answerIndex lane w = s.enterWaking lane := if_pos h

theorem answerIndex_of_claiming {s : State} {lane : Lane} (w : Writing) (h : (s.lane lane).state ≠ .parked) :
    s.answerIndex lane w = s.takeIndexJob lane w := if_neg h

theorem takeIndexJob_of_room {s : State} {lane : Lane} (w : Writing) (room : (s.lane lane).indexFull = false) :
    s.takeIndexJob lane w =
      ((s.leaveTo lane .busy).setJob lane (some (.index
        { buffer := w.buffer, address := (s.lane lane).indexAddress, retries := 0,
          image := s.imageFor lane w }))).sendIndex lane
        { buffer := w.buffer, address := (s.lane lane).indexAddress, retries := 0, image := s.imageFor lane w } := by
  unfold State.takeIndexJob
  dsimp only
  exact if_neg (by rw [room]; decide)

theorem takeIndexJob_of_full {s : State} {lane : Lane} (w : Writing) (full : (s.lane lane).indexFull = true) :
    s.takeIndexJob lane w = ((s.leaveTo lane .busy).blockMissed lane).nextLaneState lane := if_pos full

theorem blockMissed_flag {s : State} {lane : Lane} (h : s.owes lane = true) :
    (s.blockMissed lane).nu.isPending .indexMissed = true := by
  obtain ⟨w, writing, owed⟩ := (owes_iff s lane).mp h
  have step : s.blockMissed lane = ((s.setDuty w lane .missed).setFlag .indexMissed).index [.progress] := by
    rw [State.blockMissed, writing]
    exact if_pos owed
  rw [step]
  exact (within_index _ _ rfl).kept.flags _ (setFlag_pending _ _)

/-- The answer to the claim of a lane that owes the block being written. -/
theorem answer_index {s : State} {lane : Lane} {cl : Claim} {w : Writing} (claim : s.ds.claim.get lane = some cl)
    (writing : s.iu.writing = some w) (owed : w.duty.get lane = .owed) :
    let a := s.lane lane
    ((s.lane lane).state = .parked → s.answer lane = some (s.enterWaking lane)) ∧
    (a.state ≠ .parked → a.indexFull = false →
      let image := s.imageFor lane w
      s.answer lane = some
        { s with
          al := s.al.set lane { a with
            state := .busy
            job := some (.index { buffer := w.buffer, address := a.indexAddress, retries := 0, image := image })
            burstTag := a.burstTag + 1, timer := some a.settings.responseTime }
          ds := { s.ds with claim := s.ds.claim.set lane none }
          wire := s.wire.set lane
            (s.wire.get lane ++ [.write (a.burstTag + 1) a.indexAddress [image.bytes]]) }) ∧
    (a.state ≠ .parked → a.indexFull = true → ∃ t, s.answer lane = some t ∧ t.nu.isPending .indexMissed = true) := by
  intro a
  rw [answer_of_owes claim writing owed]
  refine ⟨fun parked => ?_, fun claiming room => ?_, fun claiming full => ?_⟩
  · rw [answerIndex_of_parked w parked]
  · rw [answerIndex_of_claiming w claiming, takeIndexJob_of_room w room]
    cases lane <;> rfl
  · rw [answerIndex_of_claiming w claiming, takeIndexJob_of_full w full]
    have owes : (s.leaveTo lane .busy).owes lane = true := (owes_iff s lane).mpr ⟨w, writing, owed⟩
    exact ⟨_, rfl, (within_nextLaneState _ _).kept.flags _ (blockMissed_flag owes)⟩

/-! ### One claim after the other (R102) -/

theorem evaluateFor_of_none {s : State} (h : s.answerOne = none) (n : Nat) : State.evaluateFor n s = s := by
  cases n with
  | zero => rfl
  | succ n => rw [State.evaluateFor, h]

theorem evaluateFor_of_some {s t : State} (h : s.answerOne = some t) (n : Nat) :
    State.evaluateFor (n + 1) s = State.evaluateFor n t := by
  rw [State.evaluateFor, h]

theorem evaluate_of_some {s t : State} (h : s.answerOne = some t) : ∃ n, s.evaluate = State.evaluateFor n t := by
  obtain ⟨n, hn⟩ : ∃ n, s.evaluateFuel = n + 1 := Nat.exists_eq_add_of_le' (by unfold State.evaluateFuel; omega)
  exact ⟨n, by rw [State.evaluate, hn, evaluateFor_of_some h]⟩

theorem answerOne_of_none {s : State} (h : ∀ lane, s.answer lane = none) : s.answerOne = none := by
  rw [State.answerOne, h, h]

theorem answerOne_of_one {s t : State} {lane : Lane} (h : s.answer lane = some t) (k : s.answer lane.other = none) :
    s.answerOne = some t := by
  cases lane with
  | l0 => rw [State.answerOne, h, show s.answer .l1 = none from k]
  | l1 => rw [State.answerOne, h, show s.answer .l0 = none from k]

theorem answer_of_locked {s : State} (lock : s.iu.lock = true) (writing : s.iu.writing = none) (lane : Lane) :
    s.answer lane = none := by
  cases claim : s.ds.claim.get lane with
  | none => exact answer_of_no_claim claim
  | some cl =>
    rw [answer_of_not_owes claim (by rw [State.owes, writing]), if_pos (.inl lock)]

/-- Settles O60: the evaluation keeps the rest, goes on to its end, and answers each claim by R103 to R110. -/
theorem evaluationKeepsTheRest : Obligations.EvaluationKeepsTheRest := by
  intro s
  have stop (h : s.answerOne = none) : s.evaluate = s := evaluateFor_of_none h _
  refine ⟨(within_evaluate s).kept, fun h => stop (answerOne_of_none fun lane => answer_of_no_claim (h lane)),
    fun lock writing => stop (answerOne_of_none (answer_of_locked lock writing)), stop, fun t h => evaluate_of_some h,
    fun t n h => evaluateFor_of_some h n, answerOne_evaluate, fun lane t h k => answerOne_of_one h k, ?_⟩
  intro lane cl claim a woken
  have wakes : s.enterWaking lane = woken := enterWaking_eq s lane
  refine ⟨fun w writing owed => ?_, fun owes h => ?_, fun owes lock full none => ?_, fun owes lock full commit => ?_,
    fun src slot sp n head => ?_, fun sp => ⟨eligible_of_rule s lane sp, fun rule => ?_⟩, fun b => winner_spec,
    fun h src slot sp => winner_none h⟩
  · rw [← wakes]
    exact answer_index claim writing owed
  · rw [answer_of_not_owes claim owes, if_pos h]
  · rw [answer_of_not_owes claim owes, if_neg (by rw [lock, full]; simp), answerSpan_of_no_commit none, ← wakes]
    refine ⟨fun h => by rw [h]; rfl, fun b h => ?_⟩
    rw [h, Option.map_some]
    refine ⟨fun parked => by rw [assign_of_parked b parked], fun claiming pair => by rw [assign_pair claiming pair],
      fun claiming single => ⟨_, rfl, ?_⟩⟩
    rw [assign_single claiming single]
    exact assign_single_spec s lane b
  · rw [answer_of_not_owes claim owes, if_neg (by rw [lock, full]; simp)]
    exact answerSpan_of_commit commit
  · rw [commitHeads_succ n head]
    simp only [commitsAt_iff]
  · refine ⟨fun r repair => eligible_of_repair rule repair, fun repair => ⟨fun state room pair => ?_, fun h => ?_⟩⟩
    · rw [eligible_of_mirror rule repair, if_pos ((pairable_iff s lane.other).mpr ⟨state, room, pair⟩)]
    · rw [eligible_of_mirror rule repair, if_neg ((not_pairable_iff s lane.other).mpr h)]

end Sys2Proof.Machine

/-! The tasks of the Index Unit, carried out one after the other to their end (R159, R161 to R163). -/

namespace Sys2Proof.Machine

/-! ### The tasks come to their end -/

/-- A task takes more from what is yet to be done than it brings about. -/
def Falls (s : State) (t : IndexTask) : Prop :=
  (s.indexTask t).1.store + costOf (s.indexTask t).2 + 1 ≤ s.store + t.price

/-- A refill takes an offer out of the waiting ones, and the offer, once admitted, takes more than both bring about. -/
def Refills (s : State) (o : Offer) : Prop :=
  s.indexTask .refill = (s.unwait o, [.offer o, .refill]) ∧
    ((s.unwait o).indexTask (.offer o)).1.store + costOf ((s.unwait o).indexTask (.offer o)).2 + 2 ≤ s.store

theorem falls_offer (s : State) (o : Offer) : Falls s (.offer o) := by
  unfold Falls
  simp only [State.indexTask]
  cases ht : s.target with
  | none =>
    have waits : s.takeOffer o = (s.wait o, []) := by rw [State.takeOffer, ht]
    rw [waits]
    exact store_wait s o
  | some buf =>
    cases he : s.offerEntry o with
    | none =>
      have absent : s.takeOffer o = (s, []) := by
        rw [State.takeOffer, ht]
        dsimp only
        rw [he]
      rw [absent]
      have := cost_pos (.offer o)
      simp only [costOf_nil]
      omega
    | some e =>
      rw [takeOffer_some ht he]
      have := store_admitted (buf := buf) he
      have := cost_after o
      dsimp only
      omega

theorem refills_of_waiting {s : State} {o : Offer} {buf : BufferName} (ht : s.target = some buf)
    (hn : s.nextWaiting = some o) : Refills s o := by
  obtain ⟨hu, ⟨e, he⟩, hc⟩ := unwait_spec hn
  have := store_admitted (buf := buf) he
  refine ⟨by simp only [State.indexTask, State.refillOnce, ht, hn], ?_⟩
  simp only [State.indexTask, takeOffer_some (hu.trans ht) he]
  omega

/-- Each task takes more than it brings about, a refill together with the offer it finds. -/
theorem task_falls (s : State) (t : IndexTask) : Falls s t ∨ t = .refill ∧ ∃ o, Refills s o := by
  have rests (h : s.indexTask t = (s, [])) : Falls s t := by
    have := cost_pos t
    rw [Falls, h]
    simp only [costOf_nil]
    omega
  cases t with
  | offer o => exact .inl (falls_offer s o)
  | progress =>
    refine .inl ?_
    have := store_progress s
    simp only [Falls, State.indexTask, IndexTask.price]
    omega
  | refill =>
    cases ht : s.target with
    | none => exact .inl (rests (by simp only [State.indexTask, State.refillOnce, ht]))
    | some buf =>
      cases hn : s.nextWaiting with
      | none => exact .inl (rests (by simp only [State.indexTask, State.refillOnce, ht, hn]))
      | some o => exact .inr ⟨rfl, o, refills_of_waiting ht hn⟩
  | handNext src =>
    refine .inl ?_
    have := store_handOver s src
    simp only [Falls, State.indexTask, IndexTask.price]
    split
    · omega
    · simp
  | testEnding =>
    refine .inl ?_
    have := store_testEnding s
    simp only [Falls, State.indexTask, IndexTask.price]
    omega

/-- Induction over the tasks as they are carried out. -/
theorem tasks_induction {P : State → List IndexTask → Prop} (nil : ∀ s, P s [])
    (cons : ∀ s t ts, P (s.indexTask t).1 ((s.indexTask t).2 ++ ts) → P s (t :: ts)) (s : State)
    (ts : List IndexTask) : P s ts := by
  generalize measure : s.store + costOf ts = n
  induction n using Nat.strong_induction_on generalizing s ts with
  | _ n ih =>
  cases ts with
  | nil => exact nil s
  | cons t ts =>
    rw [costOf_cons] at measure
    obtain falls | ⟨rfl, o, step, falls⟩ := task_falls s t
    · refine cons s t ts (ih _ ?_ _ _ rfl)
      unfold Falls at falls
      rw [costOf_append]
      omega
    · refine cons s _ ts ?_
      rw [step]
      simp only [List.cons_append, List.nil_append]
      refine cons _ _ _ (ih _ ?_ _ _ rfl)
      simp only [IndexTask.price] at measure
      simp only [costOf_append, costOf_cons, IndexTask.price]
      omega

/-- More fuel than the tasks take changes nothing. -/
theorem runTasks_enough (fuel : Nat) {s : State} {ts : List IndexTask} (h : s.store + costOf ts ≤ fuel) :
    State.runTasks (fuel + 1) ts s = State.runTasks fuel ts s := by
  induction fuel using Nat.strong_induction_on generalizing s ts with
  | _ fuel ih =>
  cases ts with
  | nil => cases fuel <;> rfl
  | cons t ts =>
    have := cost_pos t
    rw [costOf_cons] at h
    cases fuel with
    | zero => omega
    | succ fuel =>
      rw [State.runTasks, State.runTasks]
      obtain falls | ⟨rfl, o, step, falls⟩ := task_falls s t
      · refine ih fuel (Nat.lt_succ_self _) ?_
        unfold Falls at falls
        rw [costOf_append]
        omega
      · rw [step]
        simp only [IndexTask.price] at h
        cases fuel with
        | zero => omega
        | succ fuel =>
          rw [List.cons_append, State.runTasks, State.runTasks]
          refine ih fuel (by omega) ?_
          rw [costOf_append, costOf_append, costOf_cons, costOf_nil]
          simp only [IndexTask.price]
          omega

/-- The tasks, carried out to their end. -/
def State.does (s : State) (ts : List IndexTask) : State := State.runTasks (s.store + costOf ts) ts s

theorem runTasks_eq_does {s : State} {ts : List IndexTask} {fuel : Nat} (h : s.store + costOf ts ≤ fuel) :
    State.runTasks fuel ts s = s.does ts := by
  induction fuel, h using Nat.le_induction with
  | base => rfl
  | succ fuel h ih => rw [runTasks_enough fuel h, ih]

/-- The Index Unit carries out the tasks of an event to their end. -/
theorem index_eq_does {s : State} {ts : List IndexTask} (h : costOf ts ≤ 100) : s.index ts = s.does ts := by
  have := store_le s
  refine runTasks_eq_does ?_
  unfold State.taskFuel
  omega

@[simp] theorem does_nil (s : State) : s.does [] = s := by
  unfold State.does
  cases s.store + costOf [] <;> rfl

/-- One task, and then those it brings about, ahead of the others. -/
theorem does_cons (s : State) (t : IndexTask) (ts : List IndexTask) :
    s.does (t :: ts) = (s.indexTask t).1.does ((s.indexTask t).2 ++ ts) := by
  have left := runTasks_eq_does (s := s) (ts := t :: ts) (fuel := s.store + costOf (t :: ts) +
    ((s.indexTask t).1.store + costOf ((s.indexTask t).2 ++ ts)) + 1) (by omega)
  rw [← left, State.runTasks]
  exact runTasks_eq_does (by omega)

theorem does_append (s : State) (ts us : List IndexTask) : s.does (ts ++ us) = (s.does ts).does us := by
  refine tasks_induction (P := fun s ts => s.does (ts ++ us) = (s.does ts).does us) (fun s => by simp) ?_ s ts
  intro s t ts ih
  rw [List.cons_append, does_cons, does_cons s t ts, ← ih, List.append_assoc]

theorem outside_does (s : State) (ts : List IndexTask) : Outside s (s.does ts) := outside_runTasks _ _ _

/-! ### One task at a time -/

theorem does_offer (s : State) (o : Offer) (ts : List IndexTask) :
    s.does (.offer o :: ts) = (s.takeOffer o).1.does ((s.takeOffer o).2 ++ ts) := does_cons s _ ts

theorem does_progress (s : State) (ts : List IndexTask) :
    s.does (.progress :: ts) = s.progressOnce.1.does (s.progressOnce.2 ++ ts) := does_cons s _ ts

theorem does_refill (s : State) (ts : List IndexTask) :
    s.does (.refill :: ts) = s.refillOnce.1.does (s.refillOnce.2 ++ ts) := does_cons s _ ts

theorem does_testEnding (s : State) (ts : List IndexTask) :
    s.does (.testEnding :: ts) = s.testEnding.1.does (s.testEnding.2 ++ ts) := does_cons s _ ts

/-- An offer that no buffer can take waits. -/
theorem does_offer_waits {s : State} (o : Offer) (ts : List IndexTask) (h : s.target = none) :
    s.does (.offer o :: ts) = (s.wait o).does ts := by
  rw [does_offer, State.takeOffer, h]
  rfl

/-- An offer that a buffer can take is admitted. -/
theorem does_offer_admitted {s : State} {o : Offer} {buf : BufferName} {e : Entry} (ts : List IndexTask)
    (ht : s.target = some buf) (he : s.offerEntry o = some e) :
    s.does (.offer o :: ts) = (s.admitted o buf e).does (o.after ++ ts) := by
  rw [does_offer, takeOffer_some ht he]

theorem progressOnce_rests {s : State} (h : IndexRests s.iu) : s.progressOnce = (s, []) := by
  unfold State.progressOnce
  split
  · next w hw => exact if_pos (h.owed w hw)
  · next hw =>
    have none : s.closedBuffer = none := by
      unfold State.closedBuffer
      rw [if_neg fun k => h.closed hw .a k.1, if_neg (show (s.buffer .b).state ≠ .closed from h.closed hw .b)]
    rw [none]

/-- While the block being written is owed and no buffer waits to be written, progress changes nothing. -/
theorem does_progress_rests {s : State} (ts : List IndexTask) (h : IndexRests s.iu) :
    s.does (.progress :: ts) = s.does ts := by
  rw [does_progress, progressOnce_rests h]
  rfl

/-- A CLOSED buffer becomes WRITING while no block is being written. -/
theorem does_progress_closed {s : State} {buf : BufferName} (ts : List IndexTask) (hw : s.iu.writing = none)
    (hb : s.closedBuffer = some buf) : s.does (.progress :: ts) = (s.becomeWriting buf).does (.progress :: ts) := by
  rw [does_progress]
  unfold State.progressOnce
  rw [hw]
  dsimp only
  rw [hb]
  rfl

/-- A block that no lane owes is done. -/
theorem does_progress_done {s : State} {w : Writing} (ts : List IndexTask) (hw : s.iu.writing = some w)
    (h : w.duty.l0 ≠ .owed ∧ w.duty.l1 ≠ .owed) :
    s.does (.progress :: ts) = (s.blockDone w).does (.progress :: .refill :: ts) := by
  have step : s.progressOnce = (s.blockDone w, [.progress, .refill]) := by
    unfold State.progressOnce
    rw [hw]
    exact if_neg (not_or.mpr h)
  rw [does_progress, step]
  rfl

theorem does_progress_owed {s : State} {w : Writing} (ts : List IndexTask) (hw : s.iu.writing = some w)
    (h : w.duty.l0 = .owed ∨ w.duty.l1 = .owed) : s.does (.progress :: ts) = s.does ts := by
  have step : s.progressOnce = (s, []) := by
    unfold State.progressOnce
    rw [hw]
    exact if_pos h
  rw [does_progress, step]
  rfl

theorem does_progress_idle {s : State} (ts : List IndexTask) (hw : s.iu.writing = none)
    (hb : ∀ buf, (s.buffer buf).state ≠ .closed) : s.does (.progress :: ts) = s.does ts :=
  does_progress_rests ts ⟨fun w h => absurd (hw.symm.trans h) (by simp), fun _ => hb⟩

/-- With nothing waiting a refill changes nothing. -/
theorem does_refill_none {s : State} (ts : List IndexTask) (h : s.target = none ∨ s.nextWaiting = none) :
    s.does (.refill :: ts) = s.does ts := by
  have step : s.refillOnce = (s, []) := by
    unfold State.refillOnce
    obtain h | h := h
    · rw [h]
    · rw [h]
      cases s.target <;> rfl
  rw [does_refill, step]
  rfl

theorem nextWaiting_none {s : State} (spans : s.iu.waitSpans = []) (gaps : ∀ src, (s.intake src).offeredGap = none)
    (runEnd : s.iu.waitRunEnd = none) : s.nextWaiting = none := by
  have none : (Source.all.find? fun src => (s.intake src).offeredGap.isSome) = none := by
    rw [List.find?_eq_none]
    intro src _
    rw [gaps]
    decide
  rw [State.nextWaiting, spans]
  dsimp only
  rw [none, runEnd]
  rfl

/-- The ending is tested in STOPPING, with every slot FREE and no gap held. -/
theorem does_testEnding_not {s : State} (ts : List IndexTask)
    (h : s.rc.runState ≠ .stopping ∨ s.st.slots ≠ [] ∨ s.noGaps = false) : s.does (.testEnding :: ts) = s.does ts := by
  have step : s.testEnding = (s, []) := by
    refine if_neg fun k => ?_
    obtain h | h | h := h
    · exact h k.1
    · exact h k.2.1
    · rw [h] at k
      exact Bool.noConfusion k.2.2
  rw [does_testEnding, step]
  rfl

theorem does_testEnding_ends {s : State} (ts : List IndexTask) (stopping : s.rc.runState = .stopping)
    (free : s.st.slots = []) (gaps : s.noGaps = true) :
    s.does (.testEnding :: ts) = s.enterEnding.1.does (.offer (.runEnd s.rc.endEntry) :: ts) := by
  have step : s.testEnding = s.enterEnding := if_pos ⟨stopping, free, gaps⟩
  rw [does_testEnding, step]
  rfl

/-! ### The block commands and events (R160, R165 to R167) -/

theorem LaneState.duty_cases (st : LaneState) : st.duty = .owed ∨ st.duty = .off := by cases st <;> simp [LaneState.duty]

/-- The writing record of a buffer that becomes WRITING now. -/
def State.writingOf (s : State) (n : BufferName) : Writing :=
  { buffer := n, seq := s.iu.blockSeq, duty := ⟨(s.lane .l0).state.duty, (s.lane .l1).state.duty⟩ }

/-- The Index Unit with a buffer WRITING. -/
def State.toWriting (s : State) (n : BufferName) : State :=
  s.setIu { s.iu with
    buffers := s.iu.buffers.set n { s.buffer n with state := .writing }
    writing := some (s.writingOf n) }

theorem becomeWriting_eq (s : State) (n : BufferName) :
    s.becomeWriting n =
      if (s.lane .l0).state.duty = .off ∨ (s.lane .l1).state.duty = .off then (s.toWriting n).setFlag .indexMissed
      else s.toWriting n := rfl

theorem becomeWriting_iu (s : State) (n : BufferName) : (s.becomeWriting n).iu = (s.toWriting n).iu := by
  rw [becomeWriting_eq]
  split
  · exact setFlag_iu _ _
  · rfl

theorem PerBuffer.set_set (v : PerBuffer) (n : BufferName) (x y : IndexBuffer) : (v.set n x).set n y = v.set n y := by
  cases n <;> rfl

theorem PerBuffer.get_set_ne (v : PerBuffer) {n m : BufferName} (x : IndexBuffer) (h : n ≠ m) :
    (v.set n x).get m = v.get m := by
  cases n <;> cases m <;> first | rfl | exact absurd rfl h

/-- What a flag does to the notices and the queue depends on them alone. -/
theorem setFlag_congr {s t : State} (nu : t.nu = s.nu) (clp : t.clp = s.clp) (f : Flag) :
    t.setFlag f = (t.setClp (s.setFlag f).clp).setNu (s.setFlag f).nu := by
  cases s
  cases t
  dsimp only at nu clp
  subst nu clp
  unfold State.setFlag State.noticeOrOwe
  dsimp only [State.setNu]
  split
  · rfl
  · split
    · split <;> rfl
    · rfl

theorem setFlag_setIu (s : State) (v : IndexUnit) (f : Flag) : (s.setIu v).setFlag f = (s.setFlag f).setIu v := by
  rw [setFlag_congr (s := s) (t := s.setIu v) rfl rfl]
  conv_rhs => rw [setFlag_eq]
  rfl

/-! ### A FILLING buffer closes (R160 to R162) -/

theorem closeFilling_of_none {s : State} (h : ∀ n, (s.buffer n).state ≠ .filling) : s.closeFilling = s := by
  rw [State.closeFilling, if_neg (h .a), if_neg (h .b)]

/-- A FILLING buffer closes, the other one not FILLING. -/
theorem closeFilling_of_filling {s : State} {n m : BufferName} (nm : n ≠ m) (hn : (s.buffer n).state = .filling)
    (hm : (s.buffer m).state ≠ .filling) :
    s.closeFilling = (s.setBuffer n { s.buffer n with state := .closed }).does [.progress] := by
  rw [← index_eq_does (by decide)]
  cases n <;> cases m
  case a.a => exact absurd rfl nm
  case a.b => exact if_pos hn
  case b.a => exact (if_neg hm).trans (if_pos hn)
  case b.b => exact absurd rfl nm

/-- Behind a block being written, that a lane owes, the closing buffer waits. -/
theorem closeFilling_waits {s : State} {n m : BufferName} {w : Writing} (nm : n ≠ m)
    (hn : (s.buffer n).state = .filling) (hm : (s.buffer m).state ≠ .filling) (hw : s.iu.writing = some w)
    (owed : w.duty.l0 = .owed ∨ w.duty.l1 = .owed) :
    s.closeFilling = s.setBuffer n { s.buffer n with state := .closed } := by
  rw [closeFilling_of_filling nm hn hm, does_progress_owed [] (by exact hw) owed, does_nil]

theorem closedBuffer_of_one {s : State} {n m : BufferName} (nm : n ≠ m) (hn : (s.buffer n).state = .closed)
    (hm : (s.buffer m).state ≠ .closed) : s.closedBuffer = some n := by
  unfold State.closedBuffer
  cases n <;> cases m
  case a.a => exact absurd rfl nm
  case a.b => exact if_pos ⟨hn, fun k => hm k.2⟩
  case b.a => exact (if_neg fun k => hm k.1).trans (if_pos hn)
  case b.b => exact absurd rfl nm

/-- With no block being written the closing buffer becomes WRITING. -/
theorem closeFilling_writes {s : State} {n m : BufferName} (nm : n ≠ m) (hn : (s.buffer n).state = .filling)
    (hm : (s.buffer m).state = .empty) (hw : s.iu.writing = none) :
    s.closeFilling = (s.becomeWriting n).does [.progress] := by
  let t := s.setBuffer n { s.buffer n with state := .closed }
  have tn : t.buffer n = { s.buffer n with state := .closed } := PerBuffer.get_set_self _ _ _
  have tm : t.buffer m = s.buffer m := PerBuffer.get_set_ne _ _ nm
  have closed : t.closedBuffer = some n := closedBuffer_of_one nm (by rw [tn]) (by rw [tm, hm]; decide)
  have same : t.becomeWriting n = s.becomeWriting n := by
    have writes : t.toWriting n = s.toWriting n := by
      unfold State.toWriting
      rw [tn]
      unfold t State.setBuffer
      simp only [State.setIu_iu, PerBuffer.set_set]
      rfl
    rw [becomeWriting_eq, becomeWriting_eq, writes]
    rfl
  rw [closeFilling_of_filling nm hn (by rw [hm]; decide), does_progress_closed [] (by exact hw) closed, same]

/-- A buffer that becomes WRITING with a lane on duty is the block being written. -/
theorem becomeWriting_owed {s : State} (n : BufferName)
    (owed : (s.lane .l0).state.duty = .owed ∨ (s.lane .l1).state.duty = .owed) :
    (s.becomeWriting n).does [.progress] = s.becomeWriting n := by
  rw [does_progress_owed (w := s.writingOf n) [] (by rw [becomeWriting_iu]; rfl) owed, does_nil]

/-- The Index Unit after a block done that no lane wrote. -/
def IndexUnit.clearedBlock (u : IndexUnit) (n : BufferName) : IndexUnit :=
  { u with
    buffers := u.buffers.set n { state := .empty, entries := [], final := false }
    writing := none
    blockSeq := u.blockSeq + 1 }

/-- A block that becomes WRITING with no lane on duty, and does not end the run, is done at once. -/
theorem becomeWriting_off {s : State} {n m : BufferName} (nm : n ≠ m) (hm : (s.buffer m).state = .empty)
    (l0 : (s.lane .l0).state.duty = .off) (l1 : (s.lane .l1).state.duty = .off) (final : (s.buffer n).final = false)
    (spans : s.iu.waitSpans = []) (gaps : ∀ src, (s.intake src).offeredGap = none) (runEnd : s.iu.waitRunEnd = none) :
    (s.becomeWriting n).does [.progress] =
      ((s.setFlag .indexMissed).setFlag .checkpointDone).setIu (s.iu.clearedBlock n) := by
  have writes : s.becomeWriting n = (s.setFlag .indexMissed).setIu (s.toWriting n).iu := by
    rw [becomeWriting_eq, if_pos (.inl l0), State.toWriting, setFlag_setIu]
    rfl
  let t := (s.setFlag .indexMissed).setIu (s.toWriting n).iu
  have tn : t.buffer n = { s.buffer n with state := .writing } := PerBuffer.get_set_self _ _ _
  have cleared : t.blockCleared (s.writingOf n) = (s.setFlag .indexMissed).setIu (s.iu.clearedBlock n) := by
    unfold State.blockCleared IndexUnit.clearedBlock
    simp only [t, State.setIu_iu, State.toWriting, State.writingOf, PerBuffer.set_set]
    rfl
  have done : t.blockDone (s.writingOf n) =
      ((s.setFlag .indexMissed).setFlag .checkpointDone).setIu (s.iu.clearedBlock n) := by
    have unwritten : (((s.writingOf n).duty.l0 == .written) || ((s.writingOf n).duty.l1 == .written)) = false := by
      unfold State.writingOf
      rw [l0, l1]
      rfl
    rw [blockDone_eq, if_neg (by rw [show (t.buffer (s.writingOf n).buffer) = _ from tn, final]; decide),
      State.blockCounted, unwritten, cleared, setFlag_setIu]
    rfl
  have rest (k : BufferName) : ((s.iu.clearedBlock n).buffers.get k).state = .empty := by
    by_cases h : n = k
    · rw [← h]
      exact congrArg IndexBuffer.state (PerBuffer.get_set_self _ _ _)
    · have : k = m := by cases n <;> cases m <;> cases k <;> simp_all
      rw [this]
      exact (congrArg IndexBuffer.state (PerBuffer.get_set_ne _ _ nm)).trans hm
  have off : (s.writingOf n).duty.l0 ≠ .owed ∧ (s.writingOf n).duty.l1 ≠ .owed :=
    ⟨fun h => Duty.noConfusion (h.symm.trans l0), fun h => Duty.noConfusion (h.symm.trans l1)⟩
  rw [writes, does_progress_done (w := s.writingOf n) [] rfl off, done,
    does_progress_idle (s := ((s.setFlag .indexMissed).setFlag .checkpointDone).setIu (s.iu.clearedBlock n)) _ rfl fun k h => BufferState.noConfusion (h.symm.trans (rest k)),
    does_refill_none [] (.inr (nextWaiting_none (by exact spans) (fun src => ?_) (by exact runEnd))), does_nil]
  rw [State.intake_eq, State.setIu_ci, setFlag_ci, setFlag_ci]
  exact gaps src

end Sys2Proof.Machine

/-! SET CHECKPOINT, CHECKPOINT NOW, and the checkpoint timer (R160, R165 to R167). -/

namespace Sys2Proof.Machine

/-! ### SET CHECKPOINT (R165) -/

theorem decodeCheckpoint_of_range {p : List Byte} {period lock : Nat} (hp : field p 0 2 = period)
    (hl : field p 2 2 = lock) (low : 10 ≤ period) (high : period ≤ 60000) (below : lock < period) :
    decodeCheckpoint p = some { period := period, lockTime := lock } := by
  rw [decodeCheckpoint, hp, hl, inRange_of_le low high]
  exact if_pos below

theorem decodeCheckpoint_eq_none {p : List Byte} {period lock : Nat} (hp : field p 0 2 = period)
    (hl : field p 2 2 = lock) (h : period < 10 ∨ 60000 < period ∨ period ≤ lock) : decodeCheckpoint p = none := by
  rw [decodeCheckpoint, hp, hl]
  by_cases within : 10 ≤ period ∧ period ≤ 60000
  · rw [inRange_of_le within.1 within.2]
    exact if_neg (by omega)
  · rw [inRange, if_neg within]
    rfl

/-- SET CHECKPOINT by its two fields. -/
theorem exec_setCheckpoint {s : State} {f : CmdFrame} {rest : List CmdFrame} (received : Receives s 0x50 f rest)
    (length : f.payload.length = 4) :
    exec .setCheckpoint s = .next (match decodeCheckpoint f.payload with
      | some o => (s.answered f rest .ok o.bytes).setIu
          { s.iu with periodSetting := o.period, lockSetting := o.lockTime }
      | none => s.answered f rest .badValue []) := by
  cases decoded : decodeCheckpoint f.payload with
  | none =>
    exact exec_refused (c := setCheckpointCommand) rfl received length
      (show Status.ofFields (decodeCheckpoint f.payload) = .badValue by rw [decoded]; rfl) (by decide)
  | some o =>
    have check : setCheckpointCommand.check f.payload s = .ok :=
      show Status.ofFields (decodeCheckpoint f.payload) = .ok by rw [decoded]; rfl
    have run : exec .setCheckpoint s = .next (setCheckpointCommand.take s) := rfl
    rw [run, received.ok (c := setCheckpointCommand) length check]
    simp only [setCheckpointCommand, setCheckpointEffect, setCheckpointPayload, decoded]
    rfl

/-! ### CHECKPOINT NOW (R160) -/

/-- A block done with none being written before: the writing record stays absent. -/
theorem clearedBlock_of_none {u : IndexUnit} (n : BufferName) (h : u.writing = none) :
    u.clearedBlock n =
      { u with
        buffers := u.buffers.set n { state := .empty, entries := [], final := false }
        blockSeq := u.blockSeq + 1 } := by
  unfold IndexUnit.clearedBlock
  rw [← h]

theorem exec_checkpointNow {s : State} {f : CmdFrame} {rest : List CmdFrame} (received : Receives s 0x51 f rest)
    (length : f.payload.length = 0) (run : s.rc.runState = .running ∨ s.rc.runState = .stopping) :
    exec .checkpointNow s = .next (s.answered f rest .ok []).closeFilling.evaluate := by
  have check : checkpointNowCommand.check f.payload s = .ok := by
    simp only [checkpointNowCommand, checkpointCheck]
    obtain h | h := run <;> rw [h] <;> rfl
  have taken : exec .checkpointNow s = .next (checkpointNowCommand.take s) := rfl
  rw [taken, received.ok (c := checkpointNowCommand) length check]
  rfl

/-- Settles O43: SET CHECKPOINT by its range, CHECKPOINT NOW by the buffers and the lanes' duties. -/
theorem checkpointCommands : Obligations.CheckpointCommands := by
  refine ⟨fun s f rest period lock received length hp hl => ⟨fun low high below => ?_, fun bad => ?_⟩,
    fun s f rest received length run => ?_⟩
  · rw [exec_setCheckpoint received length, decodeCheckpoint_of_range hp hl low high below]
    rfl
  · rw [exec_setCheckpoint received length, decodeCheckpoint_eq_none hp hl bad]
  · intro b
    have now := exec_checkpointNow received length run
    refine ⟨fun ha hb => ?_, fun n m nm hn hm hw owed => ?_, fun n m nm hn hm hw l0 l1 final spans gaps runEnd => ?_,
      fun n m w nm hn hm hw owed => ?_⟩
    · rw [now, closeFilling_of_none (s := b) fun n => by cases n; exacts [ha, hb]]
    · refine ⟨b.becomeWriting n, ?_, rfl⟩
      rw [now, closeFilling_writes (s := b) nm hn hm hw, becomeWriting_owed (s := b) n owed]
    · refine ⟨_, ?_, rfl⟩
      rw [now, closeFilling_writes (s := b) nm hn hm hw,
        becomeWriting_off (s := b) nm hm l0 l1 final spans gaps runEnd, clearedBlock_of_none n (by exact hw)]
      rfl
    · rw [now, closeFilling_waits (s := b) (m := m) nm hn (by rw [show (b.buffer m).state = _ from hm]; decide) hw owed]
      rfl

/-! ### The checkpoint timer (R165 to R167) -/

theorem exec_checkpointLockOn (s : State) :
    exec .checkpointLockOn s =
      .next (if s.iu.timer.isSome ∧ s.iu.lockTime ≠ 0 then s.setIu { s.iu with lock := true } else s) := rfl

theorem exec_checkpointExpiry {s : State} (timer : s.iu.timer.isSome = true) :
    exec .checkpointExpiry s = .next s.checkpointExpired := by
  have run : exec .checkpointExpiry s = .next (if s.iu.timer.isSome then s.checkpointExpired else s) := rfl
  rw [run, if_pos timer]

theorem checkpointExpired_late {s : State} {n : BufferName}
    (h : (s.buffer n).state = .closed ∨ (s.buffer n).state = .writing) :
    s.checkpointExpired = (s.lateExpiry.setIu s.lateExpiry.iu.reload).evaluate := by
  have taken : (s.buffer n).state.taken = true := by obtain h | h := h <;> rw [h] <;> rfl
  have some : ((s.buffer .a).state.taken || (s.buffer .b).state.taken) = true := by
    cases n
    · rw [taken, Bool.true_or]
    · rw [taken, Bool.or_true]
  rw [State.checkpointExpired, if_pos some]

theorem checkpointExpired_closes {s : State}
    (h : ∀ n, (s.buffer n).state = .filling ∨ (s.buffer n).state = .empty) :
    s.checkpointExpired = (s.closeFilling.setIu s.closeFilling.iu.reload).evaluate := by
  have free (n : BufferName) : (s.buffer n).state.taken = false := by obtain h | h := h n <;> rw [h] <;> rfl
  rw [State.checkpointExpired, free, free]
  rfl

theorem filling_or_empty {s : State} {n m : BufferName} (nm : n ≠ m) (hn : (s.buffer n).state = .filling)
    (hm : (s.buffer m).state = .empty) (k : BufferName) :
    (s.buffer k).state = .filling ∨ (s.buffer k).state = .empty := by
  by_cases h : k = n
  · exact .inl (h ▸ hn)
  · have : k = m := by cases n <;> cases m <;> cases k <;> simp_all
    exact .inr (this ▸ hm)

/-- Settles O44: the lock's and the expiry's rows, by the buffers as the timer expires. -/
theorem checkpointLockAndExpiry : Obligations.CheckpointLockAndExpiry := by
  refine ⟨fun s => ⟨fun timer lock => ?_, fun h => ?_⟩, fun s timer => ?_⟩
  · rw [exec_checkpointLockOn, if_pos ⟨timer, lock⟩]
  · rw [exec_checkpointLockOn, if_neg]
    rintro ⟨timer, lock⟩
    obtain h | h := h
    · rw [h] at timer
      exact absurd timer (by decide)
    · exact lock h
  · intro reloaded
    rw [exec_checkpointExpiry timer]
    refine ⟨fun ⟨n, hn⟩ => ?_, fun empty => ?_, fun n m nm hn hm hw owed => ?_,
      fun n m nm hn hm hw l0 l1 final spans gaps runEnd => ?_⟩
    · rw [checkpointExpired_late hn]
      have iu : s.lateExpiry.iu = s.iu := setFlag_iu s .checkpointLate
      have late : s.lateExpiry = (s.setFlag .checkpointLate).onCounters fun c =>
        { c with checkpointsLate := c.checkpointsLate + 1 } := rfl
      rw [iu, late, State.onCounters, setFlag_rc]
      rfl
    · rw [checkpointExpired_closes fun n => .inr (empty n),
        closeFilling_of_none fun n h => BufferState.noConfusion (h.symm.trans (empty n))]
      rfl
    · have closes : s.closeFilling = s.becomeWriting n := by
        rw [closeFilling_writes nm hn hm hw, becomeWriting_owed n owed]
      have iu := becomeWriting_iu s n
      have frame : s.becomeWriting n = (((s.toWriting n).setClp (s.becomeWriting n).clp).setNu (s.becomeWriting n).nu) := by
        rw [becomeWriting_eq]
        split
        · exact setFlag_eq _ _
        · rfl
      refine ⟨(s.becomeWriting n).setIu (s.becomeWriting n).iu.reload, ?_, ?_⟩
      · rw [exec_checkpointExpiry timer, checkpointExpired_closes (filling_or_empty nm hn hm), closes]
      · rw [iu, frame]
        refine ⟨?_, ?_, ?_, rfl, rfl, rfl, rfl, rfl, rfl, rfl, rfl, rfl, rfl⟩
        · exact congrArg IndexBuffer.state (PerBuffer.get_set_self s.iu.buffers n { s.buffer n with state := .writing })
        · have same := PerBuffer.get_set_self s.iu.buffers n { s.buffer n with state := .writing }
          exact (congrArg IndexBuffer.entries same :)
        · exact PerBuffer.get_set_ne s.iu.buffers _ nm
    · have closes : s.closeFilling =
          ((s.setFlag .indexMissed).setFlag .checkpointDone).setIu (s.iu.clearedBlock n) := by
        rw [closeFilling_writes nm hn hm hw, becomeWriting_off nm hm l0 l1 final spans gaps runEnd]
      refine ⟨s.closeFilling.setIu s.closeFilling.iu.reload, ?_, ?_⟩
      · rw [exec_checkpointExpiry timer, checkpointExpired_closes (filling_or_empty nm hn hm)]
      · rw [closes, clearedBlock_of_none n hw]
        rfl

end Sys2Proof.Machine

/-! The blocks of a burst: how an ACK and a RETRY send them, and the bytes they hold (R139, R141, R142, R181). -/

namespace Sys2Proof.Machine

/-! ### Fields of a layout, modulo their size -/

theorem field_append_skip {p q : List Byte} {off n : Nat} (h : p.length ≤ off) :
    field (p ++ q) off n = field q (off - p.length) n := field_append_right q n h

theorem field_leBytes_append (n v : Nat) (q : List Byte) : field (leBytes n v ++ q) 0 n = v % 2 ^ (8 * n) := by
  rw [field_append_left _ (by simp), field_leBytes]

theorem field_leSigned (n : Nat) (v : Int) : (field (leSigned n v) 0 n : Int) = v % 2 ^ (8 * n) := by
  rw [field, List.drop_zero, List.take_of_length_le (length_leSigned n v).le, fromLE_leSigned]
  push_cast
  rfl

theorem field_leSigned_append (n : Nat) (v : Int) (q : List Byte) :
    (field (leSigned n v ++ q) 0 n : Int) = v % 2 ^ (8 * n) := by
  rw [field_append_left _ (by simp), field_leSigned]

theorem field_leSigned_skip {n off m : Nat} {v : Int} {q : List Byte} (h : n ≤ off) :
    field (leSigned n v ++ q) off m = field q (off - n) m := by
  rw [field_append_right _ _ (by rw [length_leSigned]; exact h), length_leSigned]

theorem field_zeros (z off n : Nat) : field (List.replicate z 0) off n = 0 := by
  rw [field, List.drop_replicate, List.take_replicate, fromLE_replicate_zero]

theorem field_zeros_append {z off n : Nat} (q : List Byte) (h : off + n ≤ z) :
    field (List.replicate z 0 ++ q) off n = 0 := by
  rw [field_append_left q (by rw [List.length_replicate]; exact h), field_zeros]

theorem padTo_eq {m : Nat} {p : List Byte} (h : p.length ≤ m) : padTo m p = p ++ List.replicate (m - p.length) 0 :=
  List.take_of_length_le (by simp; omega)

theorem lays_nil (p : List Byte) : Lays p [] := by
  unfold Lays
  simp

theorem lays_cons {p : List Byte} {off n : Nat} {v : Int} {rest : List (Nat × Nat × Int)} :
    Lays p ((off, n, v) :: rest) ↔ (field p off n : Int) = v % 2 ^ (8 * n) ∧ Lays p rest := by
  unfold Lays
  rw [List.forall_mem_cons]

/-- A field of a value's bytes, where the layout's value is the value's. -/
theorem cast_field {p : List Byte} {off n v : Nat} (h : field p off n = v % 2 ^ (8 * n)) :
    (field p off n : Int) = (v : Int) % 2 ^ (8 * n) := by
  rw [h]
  push_cast
  rfl

/-! ### Lists of equal pieces -/

/-- A piece of a list of pieces of one length, zeros past the last. -/
theorem slice_flatMap_zeros {α : Type} {f : α → List Byte} {w : Nat} (len : ∀ x, (f x).length = w) (l : List α)
    (z k : Nat) (fits : w * (k + 1) ≤ w * l.length + z) :
    ((l.flatMap f ++ List.replicate z 0).drop (w * k)).take w = ((l[k]?).map f).getD (List.replicate w 0) := by
  induction l generalizing k with
  | nil =>
    simp only [List.length_nil, Nat.mul_zero, Nat.zero_add, Nat.mul_succ] at fits
    have room : min w (z - w * k) = w := by omega
    simp [List.drop_replicate, List.take_replicate, room]
  | cons x rest ih =>
    rw [List.flatMap_cons, List.append_assoc]
    cases k with
    | zero => rw [Nat.mul_zero, List.drop_zero, List.take_append_of_le_length (len x).ge,
        List.take_of_length_le (len x).le]; rfl
    | succ k =>
      rw [Nat.mul_succ, Nat.add_comm, ← List.drop_drop, List.drop_append_of_le_length (len x).ge,
        List.drop_of_length_le (len x).le, List.nil_append]
      exact ih k (by simp only [List.length_cons, Nat.mul_succ] at fits; rw [Nat.mul_succ]; omega)

/-- A piece of a list of pieces of one length that is extended with zeros to a fixed size. -/
theorem slice_padTo_flatMap {α : Type} {f : α → List Byte} {w : Nat} (len : ∀ x, (f x).length = w) (l : List α)
    {m k : Nat} (fits : w * (k + 1) ≤ m) :
    ((padTo m (l.flatMap f)).drop (w * k)).take w = ((l[k]?).map f).getD (List.replicate w 0) := by
  have total : (l.flatMap f).length = w * l.length := by
    rw [List.length_flatMap, List.map_congr_left fun x _ => len x]
    simp [Nat.mul_comm]
  rw [padTo, List.drop_take, List.take_take, Nat.min_eq_left (by rw [Nat.mul_succ] at fits; omega)]
  exact slice_flatMap_zeros len l _ k (by rw [total]; omega)

/-- A field of a piece of a list of pieces of one length that is extended with zeros. -/
theorem field_padTo_flatMap {α : Type} {f : α → List Byte} {w : Nat} (len : ∀ x, (f x).length = w) (l : List α)
    {m k o n : Nat} (inside : o + n ≤ w) (fits : w * (k + 1) ≤ m) :
    field (padTo m (l.flatMap f)) (w * k + o) n = ((l[k]?).map fun x => field (f x) o n).getD 0 := by
  have piece : field (padTo m (l.flatMap f)) (w * k + o) n =
      field (((padTo m (l.flatMap f)).drop (w * k)).take w) o n := by
    rw [field, field, List.drop_take, List.take_take, Nat.min_eq_left (by omega), List.drop_drop]
  rw [piece, slice_padTo_flatMap len l fits]
  cases l[k]? with
  | none => exact field_zeros w o n
  | some x => rfl


/-! ### The layouts of R181 -/

theorem gapEntry_lays (v : GapEntry) :
    Lays (Entry.gap v).bytes
        [(0, 1, 2), (1, 1, v.source.num), (2, 1, v.causes.toNat), (3, 1, if v.seq.isSome then 1 else 0),
          (4, 2, v.runId.toNat), (6, 4, (v.seq.getD 0).toNat), (10, 6, v.first), (16, 7, v.count)] ∧
      ZeroFrom (Entry.gap v).bytes 23 64 := by
  have causes : [v.causes] = leBytes 1 v.causes.toNat := by simp [leBytes]
  have layout : (Entry.gap v).bytes = leBytes 1 2 ++ (leBytes 1 v.source.num ++ (leBytes 1 v.causes.toNat ++
      (leBytes 1 (if v.seq.isSome then 1 else 0) ++ (leBytes 2 v.runId.toNat ++ (leBytes 4 (v.seq.getD 0).toNat ++
      (leBytes 6 v.first ++ (leBytes 7 v.count ++ List.replicate 41 0))))))) := by
    rw [Entry.bytes, padTo_eq (by simp), causes, yesNo_eq]
    simp only [List.append_assoc, List.length_append, length_leBytes, Nat.reduceAdd, Nat.reduceSub]
  rw [layout]
  constructor
  · simp only [lays_cons, lays_nil, and_true]
    simp (disch := omega) only [field_skip, field_leBytes_append, Nat.reduceSub, Nat.sub_self]
    push_cast
    simp
  · intro k low high
    unfold byteAt
    simp (disch := omega) only [field_skip, field_zeros]

theorem runEndEntry_lays (v : RunEndEntry) :
    let c := v.counters
    Lays (Entry.runEnd v).bytes
        [(0, 1, 3), (1, 1, v.cause.code), (2, 2, v.runId.toNat), (4, 5, c.issued.toNat),
          (9, 5, c.indexed.toNat), (14, 5, c.shed.toNat), (19, 5, c.recycled.toNat),
          (24, 7, c.lost.s0.toNat), (31, 7, c.lost.s1.toNat), (38, 7, c.lost.s2.toNat),
          (45, 7, c.lost.s3.toNat), (52, 5, c.checkpointsWritten.toNat),
          (57, 5, min (2 ^ 40 - 1) c.checkpointsLate.toNat)] ∧
      ZeroFrom (Entry.runEnd v).bytes 62 64 := by
  intro c
  have layout : (Entry.runEnd v).bytes = leBytes 1 3 ++ (leBytes 1 v.cause.code ++ (leBytes 2 v.runId.toNat ++
      (leBytes 5 c.issued.toNat ++ (leBytes 5 c.indexed.toNat ++ (leBytes 5 c.shed.toNat ++
      (leBytes 5 c.recycled.toNat ++ (leBytes 7 c.lost.s0.toNat ++ (leBytes 7 c.lost.s1.toNat ++
      (leBytes 7 c.lost.s2.toNat ++ (leBytes 7 c.lost.s3.toNat ++ (leBytes 5 c.checkpointsWritten.toNat ++
      (leBytes 5 (min (2 ^ 40 - 1) c.checkpointsLate.toNat) ++ List.replicate 2 0)))))))))))) := by
    rw [Entry.bytes, padTo_eq (by simp)]
    simp only [List.append_assoc, List.length_append, length_leBytes, Nat.reduceAdd, Nat.reduceSub, c]
  rw [layout]
  constructor
  · simp only [lays_cons, lays_nil, and_true]
    simp (disch := omega) only [field_skip, field_leBytes_append, Nat.reduceSub, Nat.sub_self]
    push_cast
    simp
  · intro k low high
    unfold byteAt
    simp (disch := omega) only [field_skip, field_zeros]

theorem firstMark_bytes (o : Option TriggerMark) : padTo 8 ((o.map markBytes).getD []) =
    leBytes 4 ((o.map TriggerMark.offset).getD 0) ++ leBytes 4 ((o.map TriggerMark.shortfall).getD 0) := by
  cases o with
  | none => rfl
  | some m => rw [padTo_eq (by simp [markBytes])]; simp [markBytes]

theorem copies_bytes (l : List Copy) : padTo 12 (l.flatMap copyBytes) =
    leBytes 1 ((l[0]?.map fun c => c.lane.num).getD 0) ++ (leBytes 5 ((l[0]?.map Copy.address).getD 0) ++
      (leBytes 1 ((l[1]?.map fun c => c.lane.num).getD 0) ++ leBytes 5 ((l[1]?.map Copy.address).getD 0))) := by
  match l with
  | [] => rfl
  | [c] =>
    rw [padTo_eq (by simp [copyBytes])]
    simp only [copyBytes, List.flatMap_cons, List.flatMap_nil, List.append_nil, List.append_assoc,
      List.length_append, length_leBytes, Nat.reduceAdd, Nat.reduceSub]
    have zeros : List.replicate 6 (0 : Byte) = leBytes 1 0 ++ leBytes 5 0 := by decide
    rw [zeros]
    rfl
  | c :: d :: rest =>
    have length : (copyBytes c ++ copyBytes d).length = 12 := by simp [copyBytes]
    rw [List.flatMap_cons, List.flatMap_cons, ← List.append_assoc, padTo, List.append_assoc,
      List.take_append_of_le_length length.ge, List.take_of_length_le length.le]
    simp only [copyBytes, List.append_assoc]
    rfl

theorem spanEntry_lays (v : SpanEntry) :
    Lays (Entry.span v).bytes
        [(0, 1, 1),
          (1, 1, v.retention.code + (if v.degraded then 4 else 0) + (if v.saturated then 8 else 0) +
            16 * v.copies.length),
          (2, 1, v.source.num), (3, 1, v.markCount), (4, 2, v.runId.toNat), (6, 4, v.seq.toNat),
          (10, 6, v.first), (16, 4, v.count), (20, 4, (v.firstMark.map TriggerMark.offset).getD 0),
          (24, 4, (v.firstMark.map TriggerMark.shortfall).getD 0),
          (28, 1, (v.copies[0]?.map fun c => c.lane.num).getD 0),
          (29, 5, (v.copies[0]?.map Copy.address).getD 0),
          (34, 1, (v.copies[1]?.map fun c => c.lane.num).getD 0),
          (35, 5, (v.copies[1]?.map Copy.address).getD 0), (40, 2, v.range.low), (42, 2, v.range.high),
          (44, 5, v.rawSum), (49, 7, v.scaledSum), (56, 8, v.energy)] := by
  have layout : (Entry.span v).bytes = leBytes 1 1 ++ (leBytes 1 v.packed ++ (leBytes 1 v.source.num ++
      (leBytes 1 v.markCount ++ (leBytes 2 v.runId.toNat ++ (leBytes 4 v.seq.toNat ++ (leBytes 6 v.first ++
      (leBytes 4 v.count ++ (leBytes 4 ((v.firstMark.map TriggerMark.offset).getD 0) ++
      (leBytes 4 ((v.firstMark.map TriggerMark.shortfall).getD 0) ++
      (leBytes 1 ((v.copies[0]?.map fun c => c.lane.num).getD 0) ++
      (leBytes 5 ((v.copies[0]?.map Copy.address).getD 0) ++
      (leBytes 1 ((v.copies[1]?.map fun c => c.lane.num).getD 0) ++
      (leBytes 5 ((v.copies[1]?.map Copy.address).getD 0) ++ (leSigned 2 v.range.low ++ (leSigned 2 v.range.high ++
      (leSigned 5 v.rawSum ++ (leSigned 7 v.scaledSum ++ leBytes 8 v.energy))))))))))))))))) := by
    rw [Entry.bytes, padTo_eq (by simp [extremesBytes]), firstMark_bytes, copies_bytes]
    simp [extremesBytes]
  have packed : ((v.packed : Nat) : Int) = v.retention.code + (if v.degraded then 4 else 0) +
      (if v.saturated then 8 else 0) + 16 * v.copies.length := by
    unfold SpanEntry.packed
    push_cast
    rfl
  have number (o : Option Copy) :
      (o.map fun c => (c.lane.num : Int)).getD 0 = (((o.map fun c => c.lane.num).getD 0 : Nat) : Int) := by
    cases o <;> rfl
  rw [layout, ← packed, number, number]
  simp only [lays_cons, lays_nil, and_true]
  simp (disch := omega) only [field_skip, field_leSigned_skip, field_leBytes_append, field_leBytes,
    field_leSigned_append, Nat.reduceSub, Nat.sub_self]
  push_cast
  simp

theorem entry_lays (e : Entry) : e.bytes.length = 64 ∧
    match e with
    | .span v => Lays e.bytes
        [(0, 1, 1),
          (1, 1, v.retention.code + (if v.degraded then 4 else 0) + (if v.saturated then 8 else 0) +
            16 * v.copies.length),
          (2, 1, v.source.num), (3, 1, v.markCount), (4, 2, v.runId.toNat), (6, 4, v.seq.toNat),
          (10, 6, v.first), (16, 4, v.count), (20, 4, (v.firstMark.map TriggerMark.offset).getD 0),
          (24, 4, (v.firstMark.map TriggerMark.shortfall).getD 0),
          (28, 1, (v.copies[0]?.map fun c => c.lane.num).getD 0),
          (29, 5, (v.copies[0]?.map Copy.address).getD 0),
          (34, 1, (v.copies[1]?.map fun c => c.lane.num).getD 0),
          (35, 5, (v.copies[1]?.map Copy.address).getD 0), (40, 2, v.range.low), (42, 2, v.range.high),
          (44, 5, v.rawSum), (49, 7, v.scaledSum), (56, 8, v.energy)]
    | .gap v => Lays e.bytes
        [(0, 1, 2), (1, 1, v.source.num), (2, 1, v.causes.toNat), (3, 1, if v.seq.isSome then 1 else 0),
          (4, 2, v.runId.toNat), (6, 4, (v.seq.getD 0).toNat), (10, 6, v.first), (16, 7, v.count)] ∧
        ZeroFrom e.bytes 23 64
    | .runEnd v =>
      let c := v.counters
      Lays e.bytes
        [(0, 1, 3), (1, 1, v.cause.code), (2, 2, v.runId.toNat), (4, 5, c.issued.toNat),
          (9, 5, c.indexed.toNat), (14, 5, c.shed.toNat), (19, 5, c.recycled.toNat),
          (24, 7, c.lost.s0.toNat), (31, 7, c.lost.s1.toNat), (38, 7, c.lost.s2.toNat),
          (45, 7, c.lost.s3.toNat), (52, 5, c.checkpointsWritten.toNat),
          (57, 5, min (2 ^ 40 - 1) c.checkpointsLate.toNat)] ∧
        ZeroFrom e.bytes 62 64 := by
  refine ⟨length_entryBytes e, ?_⟩
  cases e with
  | span v => exact spanEntry_lays v
  | gap v => exact gapEntry_lays v
  | runEnd v => exact runEndEntry_lays v

/-- The bytes of an index block before its CRC. -/
def IndexImage.header (image : IndexImage) : List Byte :=
  leBytes 4 0x4E495857 ++ (leBytes 2 image.runId.toNat ++ (leBytes 1 image.entries.length ++
    (leBytes 1 (if image.final then 1 else 0) ++ (leBytes 4 image.seq.toNat ++
    (leBytes 1 (if image.prev.isSome then 1 else 0) ++ (leBytes 5 (image.prev.getD 0) ++
    List.replicate 44 0))))))

/-- The bytes of an index block behind its CRC: the places of 63 entries. -/
def IndexImage.places (image : IndexImage) : List Byte := padTo 4032 (image.entries.flatMap Entry.bytes)

theorem length_imageHeader (image : IndexImage) : image.header.length = 62 := by simp [IndexImage.header]

theorem imageBytes_eq (image : IndexImage) : image.bytes =
    image.header ++ (leBytes 2 (crc16 (image.header ++ image.places)).toNat ++ image.places) := by
  have head : padTo 62 (leBytes 4 0x4E495857 ++ leBytes 2 image.runId.toNat ++
      leBytes 1 image.entries.length ++ yesNo image.final ++ leBytes 4 image.seq.toNat ++
      yesNo image.prev.isSome ++ leBytes 5 (image.prev.getD 0)) = image.header := by
    rw [padTo_eq (by simp), yesNo_eq, yesNo_eq]
    simp only [List.append_assoc, List.length_append, length_leBytes, Nat.reduceAdd, Nat.reduceSub,
      IndexImage.header]
  simp only [IndexImage.bytes]
  rw [head, List.append_assoc]
  rfl

theorem drop_imageBytes (image : IndexImage) : image.bytes.drop 64 = image.places := by
  rw [imageBytes_eq, ← List.append_assoc]
  exact List.drop_left' (by simp [length_imageHeader])

theorem image_lays (image : IndexImage) :
    let p := image.bytes
    p.length = 4096 ∧
    Lays p
      [(0, 4, 0x4E495857), (4, 2, image.runId.toNat), (6, 1, image.entries.length),
        (7, 1, if image.final then 1 else 0), (8, 4, image.seq.toNat),
        (12, 1, if image.prev.isSome then 1 else 0), (13, 5, image.prev.getD 0),
        (62, 2, (crc16 (p.take 62 ++ p.drop 64)).toNat)] ∧
    ZeroFrom p 18 62 ∧
    ∀ k, k < 63 → (p.drop (64 + 64 * k)).take 64 =
      ((image.entries[k]?).map Entry.bytes).getD (List.replicate 64 0) := by
  intro p
  have length := length_imageHeader image
  have layout : p = _ := imageBytes_eq image
  have covered : p.take 62 ++ p.drop 64 = image.header ++ image.places :=
    congrArg₂ (· ++ ·) (by rw [layout, List.take_left' length]) (drop_imageBytes image)
  refine ⟨length_indexImageBytes image, ?_, ?_, ?_⟩
  · have crc : field p 62 2 = (crc16 (image.header ++ image.places)).toNat % 2 ^ (8 * 2) := by
      rw [layout, field_append_skip length.le, length, Nat.sub_self, field_leBytes_append]
    rw [covered]
    simp only [lays_cons, lays_nil, and_true, cast_field crc]
    rw [layout]
    simp only [IndexImage.header, List.append_assoc]
    simp (disch := omega) only [field_skip, field_leBytes_append, Nat.reduceSub, Nat.sub_self]
    push_cast
    simp
  · intro k low high
    rw [layout]
    unfold byteAt
    simp only [IndexImage.header, List.append_assoc]
    simp (disch := omega) only [field_skip, field_zeros_append]
  · intro k small
    rw [← List.drop_drop, drop_imageBytes]
    exact slice_padTo_flatMap length_entryBytes _ (by omega)

/-! ### The header block and the data blocks of a span (R141, R181) -/

/-- The bytes of a header block before its marks. -/
def Span.headerBytes (sp : Span) (sum : Summary) (lane : Lane) (address blocks : Nat) : List Byte :=
  leBytes 4 0x4E535857 ++ (leBytes 2 sp.runId.toNat ++ (leBytes 1 sp.source.num ++
    (leBytes 1 lane.num ++ (leBytes 4 sp.seq.toNat ++ (leBytes 6 sp.first ++ (leBytes 4 sp.count ++
    (leBytes 1 sp.retention.code ++ (leBytes 1 sp.laneRule.code ++
    (leBytes 1 ((sp.mirrorPolicy.map MirrorPolicy.code).getD 0) ++ (leBytes 1 sp.marks.length ++
    (leBytes 2 sp.markOverflow ++ (leBytes 5 address ++ (leBytes 2 blocks ++ (leBytes 1 sum.bucketExp ++
    (leBytes 2 sum.envelope.length ++ (leSigned 2 sum.range.low ++ (leSigned 2 sum.range.high ++
    (leSigned 8 sum.rawSum ++ (leSigned 8 sum.scaledSum ++ (leBytes 8 sum.energy ++
    (leBytes 1 (if sum.saturated then 1 else 0) ++ List.replicate 5 0)))))))))))))))))))))

theorem length_headerBytes (sp : Span) (sum : Summary) (lane : Lane) (address blocks : Nat) :
    (sp.headerBytes sum lane address blocks).length = 72 := by simp [Span.headerBytes]

/-- The bytes of a header block before its CRC. -/
def Span.sealedBytes (sp : Span) (sum : Summary) (lane : Lane) (address blocks : Nat) : List Byte :=
  sp.headerBytes sum lane address blocks ++ (padTo 64 (sp.marks.flatMap markBytes) ++
    (padTo 2048 (sum.envelope.flatMap extremesBytes) ++ List.replicate 1910 0))

theorem length_sealedBytes (sp : Span) (sum : Summary) (lane : Lane) (address blocks : Nat) :
    (sp.sealedBytes sum lane address blocks).length = 4094 := by
  simp only [Span.sealedBytes, List.length_append, length_headerBytes, length_padTo, List.length_replicate,
    Nat.reduceAdd]

theorem headerBlock_eq {sp : Span} {sum : Summary} (lane : Lane) (address blocks : Nat)
    (known : sp.summary = some sum) :
    headerBlock sp lane address blocks = sp.sealedBytes sum lane address blocks ++
      leBytes 2 (crc16 (sp.sealedBytes sum lane address blocks)).toNat := by
  have body (p m e : List Byte) (hp : p.length = 67) (hm : m.length = 64) (he : e.length = 2048) :
      padTo 4094 (padTo 72 p ++ m ++ e) = p ++ List.replicate 5 0 ++ (m ++ (e ++ List.replicate 1910 0)) := by
    rw [padTo_eq (by simp [hm, he]), padTo_eq (by omega)]
    simp only [hp, hm, he, List.length_append, List.length_replicate, List.append_assoc, Nat.reduceAdd,
      Nat.reduceSub]
  have sealed (p q : List Byte) (h : padTo 4094 p = q) : sealBlock p = q ++ leBytes 2 (crc16 q).toNat := by
    subst h
    rfl
  unfold headerBlock
  rw [known]
  refine sealed _ _ ?_
  rw [body _ _ _ (by simp [extremesBytes]) (by simp) (by simp)]
  unfold Span.sealedBytes Span.headerBytes
  simp only [Option.getD_some, extremesBytes, yesNo_eq, List.append_assoc]

theorem markAt_lays (l : List TriggerMark) {k : Nat} (small : k < 8) :
    (field (padTo 64 (l.flatMap markBytes)) (8 * k) 4 : Int) =
        ((l[k]?.map TriggerMark.offset).getD 0 : Nat) % 2 ^ (8 * 4) ∧
      (field (padTo 64 (l.flatMap markBytes)) (8 * k + 4) 4 : Int) =
        ((l[k]?.map TriggerMark.shortfall).getD 0 : Nat) % 2 ^ (8 * 4) := by
  have len (m : TriggerMark) : (markBytes m).length = 8 := by simp [markBytes]
  rw [show 8 * k = 8 * k + 0 from rfl, field_padTo_flatMap len l (by decide) (by omega),
    Nat.add_zero, field_padTo_flatMap len l (by decide) (by omega)]
  cases l[k]? with
  | none => exact ⟨rfl, rfl⟩
  | some m =>
    refine ⟨cast_field (field_leBytes_append ..), cast_field ?_⟩
    exact (field_skip (by decide)).trans (field_leBytes ..)

theorem extremesAt_lays (l : List Extremes) {k : Nat} (small : k < 512) :
    (field (padTo 2048 (l.flatMap extremesBytes)) (4 * k) 2 : Int) =
        (l[k]?.map Extremes.low).getD 0 % 2 ^ (8 * 2) ∧
      (field (padTo 2048 (l.flatMap extremesBytes)) (4 * k + 2) 2 : Int) =
        (l[k]?.map Extremes.high).getD 0 % 2 ^ (8 * 2) := by
  have len (e : Extremes) : (extremesBytes e).length = 4 := by simp [extremesBytes]
  rw [show 4 * k = 4 * k + 0 from rfl, field_padTo_flatMap len l (by decide) (by omega),
    Nat.add_zero, field_padTo_flatMap len l (by decide) (by omega)]
  cases l[k]? with
  | none => exact ⟨rfl, rfl⟩
  | some e =>
    refine ⟨field_leSigned_append .., ?_⟩
    simp only [Option.map_some, Option.getD_some, extremesBytes]
    rw [field_leSigned_skip (by decide), Nat.sub_self, field_leSigned]

theorem header_lays {sp : Span} {sum : Summary} (lane : Lane) (address blocks : Nat) (known : sp.summary = some sum) :
    let p := headerBlock sp lane address blocks
    p.length = 4096 ∧
    Lays p
      [(0, 4, 0x4E535857), (4, 2, sp.runId.toNat), (6, 1, sp.source.num), (7, 1, lane.num),
        (8, 4, sp.seq.toNat), (12, 6, sp.first), (18, 4, sp.count), (22, 1, sp.retention.code),
        (23, 1, sp.laneRule.code), (24, 1, (sp.mirrorPolicy.map MirrorPolicy.code).getD 0),
        (25, 1, sp.marks.length), (26, 2, sp.markOverflow), (28, 5, address),
        (33, 2, blocks), (35, 1, sum.bucketExp), (36, 2, sum.envelope.length),
        (38, 2, sum.range.low), (40, 2, sum.range.high), (42, 8, sum.rawSum), (50, 8, sum.scaledSum),
        (58, 8, sum.energy), (66, 1, if sum.saturated then 1 else 0),
        (4094, 2, (crc16 (p.take 4094)).toNat)] ∧
    (∀ k, k < 8 → Lays p
      [(72 + 8 * k, 4, (sp.marks[k]?.map TriggerMark.offset).getD 0),
        (76 + 8 * k, 4, (sp.marks[k]?.map TriggerMark.shortfall).getD 0)]) ∧
    (∀ k, k < 512 → Lays p
      [(136 + 4 * k, 2, (sum.envelope[k]?.map Extremes.low).getD 0),
        (138 + 4 * k, 2, (sum.envelope[k]?.map Extremes.high).getD 0)]) ∧
    ZeroFrom p 67 72 ∧ ZeroFrom p 2184 4094 := by
  intro p
  have layout : p = _ := headerBlock_eq lane address blocks known
  have size := length_sealedBytes sp sum lane address blocks
  have first := length_headerBytes sp sum lane address blocks
  have sealed : p.take 4094 = sp.sealedBytes sum lane address blocks := by rw [layout, List.take_left' size]
  have inside {off n : Nat} (h : off + n ≤ 4094) : field p off n = field (sp.sealedBytes sum lane address blocks) off n := by
    rw [layout, field_append_left _ (by rw [size]; exact h)]
  have inMarks {off n : Nat} (h : off + n ≤ 64) :
      field p (72 + off) n = field (padTo 64 (sp.marks.flatMap markBytes)) off n := by
    rw [inside (by omega), Span.sealedBytes, field_append_skip (by omega), first, Nat.add_sub_cancel_left,
      field_append_left _ (by simpa using h)]
  have inEnvelope {off n : Nat} (h : off + n ≤ 2048) :
      field p (136 + off) n = field (padTo 2048 (sum.envelope.flatMap extremesBytes)) off n := by
    rw [inside (by omega), Span.sealedBytes, field_append_skip (by omega), first,
      field_append_skip (by rw [length_padTo]; omega), length_padTo, show 136 + off - 72 - 64 = off by omega,
      field_append_left _ (by simpa using h)]
  refine ⟨length_headerBlock .., ?_, ?_, ?_, ?_, ?_⟩
  · have crc : field p 4094 2 = (crc16 (sp.sealedBytes sum lane address blocks)).toNat % 2 ^ (8 * 2) := by
      rw [layout, field_append_skip size.le, size, Nat.sub_self, field_leBytes]
    rw [sealed]
    simp only [lays_cons, lays_nil, and_true, cast_field crc]
    simp (disch := omega) only [inside]
    simp only [Span.sealedBytes, Span.headerBytes, List.append_assoc]
    simp (disch := omega) only [field_skip, field_leSigned_skip, field_leBytes_append, field_leSigned_append,
      Nat.reduceSub, Nat.sub_self]
    push_cast
    simp
  · intro k small
    have shift : 76 + 8 * k = 72 + (8 * k + 4) := by omega
    simp only [lays_cons, lays_nil, and_true]
    rw [inMarks (by omega), shift, inMarks (by omega)]
    exact markAt_lays sp.marks small
  · intro k small
    have shift : 138 + 4 * k = 136 + (4 * k + 2) := by omega
    simp only [lays_cons, lays_nil, and_true]
    rw [inEnvelope (by omega), shift, inEnvelope (by omega)]
    exact extremesAt_lays sum.envelope small
  · intro k low high
    rw [byteAt, inside (by omega)]
    simp only [Span.sealedBytes, Span.headerBytes, List.append_assoc]
    simp (disch := omega) only [field_skip, field_leSigned_skip, field_zeros_append]
  · intro k low high
    rw [byteAt, inside (by omega), Span.sealedBytes, field_append_skip (by omega), first,
      field_append_skip (by rw [length_padTo]; omega), length_padTo,
      field_append_skip (by rw [length_padTo]; omega), length_padTo, field_zeros]

/-! ### The blocks of a burst (R139, R141, R142) -/

theorem spoolAddr_eq {slot off : Nat} (h : slot < 4096) (k : off < 2 ^ 24) : spoolAddr slot off = 2 ^ 24 * slot + off := by
  unfold spoolAddr
  rw [BitVec.toNat_append, BitVec.toNat_ofNat, BitVec.toNat_ofNat, Nat.mod_eq_of_lt h, Nat.mod_eq_of_lt k,
    Nat.shiftLeft_eq, Nat.mul_comm slot, ← Nat.two_pow_add_eq_or_of_lt k]

theorem contents_data {m : Memory} {lane : Lane} {a : LaneUnit} {j : SpanJob} {sp : Span} (record : j.record = some sp)
    (data : j.phase = .data) (slot : j.slot < 4096) (count : sp.count ≤ 2 ^ 23) :
    j.contents m lane a =
      (List.range (min (4 * 2 ^ a.effBurst) (j.first + j.reserved - j.next))).map fun i =>
        (List.range 4096).map fun k =>
          let off := 4096 * (j.next - (j.first + 1) + i) + k
          if off < 2 * sp.count then m.read (2 ^ 24 * j.slot + off) else 0 := by
  unfold SpanJob.contents SpanJob.burst SpanJob.recordCount
  rw [data, record]
  refine List.map_congr_left fun i _ => List.map_congr_left fun k _ => ?_
  refine ite_congr rfl (fun inside => ?_) fun _ => rfl
  have small : Config.blockBytes * (j.next - (j.first + 1) + i) + k < 2 * sp.count := inside
  exact congrArg m.read (spoolAddr_eq slot (by omega))

theorem sendBurst_eq (s : State) (lane : Lane) (j : SpanJob) :
    let a := s.lane lane
    (s.setJob lane (some (.span j))).sendBurst lane j =
      { s with
        al := s.al.set lane { a with
          job := some (.span j), burstTag := a.burstTag + 1, timer := some a.settings.responseTime }
        wire := s.wire.set lane (s.wire.get lane ++ [.write (a.burstTag + 1) (a.settings.base + j.burstAt)
          (j.contents s.mem lane a)]) } := by
  cases lane <;> rfl

theorem sendIndex_eq (s : State) (lane : Lane) (j : IndexJob) :
    let a := s.lane lane
    (s.setJob lane (some (.index j))).sendIndex lane j =
      { s with
        al := s.al.set lane { a with
          job := some (.index j), burstTag := a.burstTag + 1, timer := some a.settings.responseTime }
        wire := s.wire.set lane (s.wire.get lane ++ [.write (a.burstTag + 1) j.address [j.image.bytes]]) } := by
  cases lane <;> rfl

theorem awaits_of {s : State} {lane : Lane} {st : LaneState} {tag : Word16} (state : (s.lane lane).state = st)
    (waits : (s.lane lane).timer.isSome = true) (current : (s.lane lane).burstTag = tag) :
    s.awaits lane st tag = true := by
  unfold State.awaits
  rw [state, waits, current]
  simp

theorem exec_ack {s : State} {lane : Lane} {tag : Word16} (awaits : s.awaits lane .busy tag = true) :
    exec (.ack lane tag) s = .next (s.takeAck lane).evaluate := by
  change Host.Outcome.next (s.onAck lane tag) = _
  rw [State.onAck, if_pos awaits]

theorem exec_retry {s : State} {lane : Lane} {tag : Word16} (awaits : s.awaits lane .busy tag = true) :
    exec (.retry lane tag) s = .next (s.takeRetry lane).evaluate := by
  change Host.Outcome.next (s.onRetry lane tag) = _
  rw [State.onRetry, if_pos awaits]

theorem takeAck_span {s : State} {lane : Lane} {j : SpanJob} (job : (s.lane lane).job = some (.span j)) :
    s.takeAck lane = s.ackSpan lane j := by
  rw [State.takeAck, job]

theorem ackSpan_data {s : State} {lane : Lane} {j : SpanJob} (data : j.phase = .data) :
    s.ackSpan lane j = (s.setJob lane (some (.span (j.afterAck (s.lane lane).effBurst)))).sendBurst lane
      (j.afterAck (s.lane lane).effBurst) := by
  rw [State.ackSpan, data]

theorem takeRetry_span {s : State} {lane : Lane} {j : SpanJob} (job : (s.lane lane).job = some (.span j))
    (left : j.retries < (s.lane lane).settings.retryLimit) :
    s.takeRetry lane = (s.setJob lane (some (.span { j with retries := j.retries + 1 }))).sendBurst lane
      { j with retries := j.retries + 1 } := by
  rw [State.takeRetry, job]
  exact if_pos left

theorem takeRetry_index {s : State} {lane : Lane} {j : IndexJob} (job : (s.lane lane).job = some (.index j))
    (left : j.retries < (s.lane lane).settings.retryLimit) :
    s.takeRetry lane = (s.setJob lane (some (.index { j with retries := j.retries + 1 }))).sendIndex lane
      { j with retries := j.retries + 1 } := by
  rw [State.takeRetry, job]
  exact if_pos left

theorem afterAck_data {j : SpanJob} (data : j.phase = .data) (effBurst : Nat) :
    j.afterAck effBurst =
      { j with
        next := j.next + min (4 * 2 ^ effBurst) (j.first + j.reserved - j.next)
        retries := 0
        phase := if j.first + j.reserved ≤ j.next + min (4 * 2 ^ effBurst) (j.first + j.reserved - j.next) then .header
          else .data } := by
  unfold SpanJob.afterAck SpanJob.burst
  rw [data]
  rfl

theorem burstAt_ite (j : SpanJob) {p : Prop} [Decidable p] (phase : j.phase = if p then .header else .data) :
    j.burstAt = if p then j.first else j.next := by
  unfold SpanJob.burstAt
  by_cases h : p
  · rw [phase, if_pos h, if_pos h]
  · rw [phase, if_neg h, if_neg h]

/-- Settles O55: the burst that an ACK or a RETRY sends in closed form, and the layouts of its blocks. -/
theorem ackAndRetrySendABurst : Obligations.AckAndRetrySendABurst := by
  refine ⟨?_, ?_, ?_, image_lays, entry_lays⟩
  · intro s lane tag j busy waits current job data a next j'
    rw [exec_ack (awaits_of busy waits current), takeAck_span job, ackSpan_data data, sendBurst_eq]
    have advanced : j.afterAck (s.lane lane).effBurst = j' := afterAck_data data _
    rw [advanced, current, burstAt_ite j' rfl]
  · intro s lane tag busy waits current a
    refine ⟨fun j job left => ?_, fun j job left => ?_⟩
    · rw [exec_retry (awaits_of busy waits current), takeRetry_span job left, sendBurst_eq, current]
      rfl
    · rw [exec_retry (awaits_of busy waits current), takeRetry_index job left, sendIndex_eq, current]
  · intro m lane a j sp record
    refine ⟨contents_data record, fun sum header known => ⟨_, ?_, header_lays lane _ _ known⟩⟩
    unfold SpanJob.contents
    rw [header, record]
    rfl

end Sys2Proof.Machine

/-! The end of a lane's job, and ABORT RUN (R38, R101, R144, R146 to R148). -/

namespace Sys2Proof.Machine

/-! ### What every task keeps -/

/-- What each task keeps is kept to the end. -/
theorem does_keeps {P : State → Prop} (step : ∀ s t, P s → P (s.indexTask t).1) {s : State} (ts : List IndexTask)
    (h : P s) : P (s.does ts) := by
  refine tasks_induction (P := fun s ts => P s → P (s.does ts)) (fun s h => by rwa [does_nil]) ?_ s ts h
  intro s t ts ih h
  rw [does_cons]
  exact ih (step s t h)

@[simp] theorem wait_writing (s : State) (o : Offer) : (s.wait o).iu.writing = s.iu.writing := by cases o <;> rfl

@[simp] theorem unwait_writing (s : State) (o : Offer) : (s.unwait o).iu.writing = s.iu.writing := by cases o <;> rfl

@[simp] theorem handBack_writing (s : State) (o : Offer) : (s.handBack o).iu.writing = s.iu.writing := by
  rw [handBack_iu]

@[simp] theorem handOver_writing (s : State) (src : Source) : (s.handOver src).1.iu.writing = s.iu.writing := by
  unfold State.handOver
  split <;> rfl

@[simp] theorem testEnding_writing (s : State) : s.testEnding.1.iu.writing = s.iu.writing := by
  unfold State.testEnding
  split <;> rfl

theorem takeOffer_writing (s : State) (o : Offer) : (s.takeOffer o).1.iu.writing = s.iu.writing := by
  unfold State.takeOffer
  split
  · exact wait_writing s o
  · split
    · rfl
    · exact handBack_writing _ o

theorem refillOnce_writing (s : State) : s.refillOnce.1.iu.writing = s.iu.writing := by
  unfold State.refillOnce
  split
  · exact unwait_writing s _
  · rfl

theorem blockDone_writing (s : State) (w : Writing) : (s.blockDone w).iu.writing = none := by
  rw [(beside_blockDone s w).iu]
  rfl

/-! ### A lane that owes no block (R161, R162) -/

/-- A lane outside the states of duty owes no block. -/
def OwesNot (lane : Lane) (s : State) : Prop := (s.lane lane).state.duty = .off ∧ s.owes lane = false

theorem OwesNot.congr {lane : Lane} {s t : State} (h : OwesNot lane s) (al : t.al = s.al)
    (writing : t.iu.writing = s.iu.writing ∨ t.iu.writing = none) : OwesNot lane t := by
  obtain ⟨off, free⟩ := h
  refine ⟨by rw [State.lane, al]; exact off, ?_⟩
  obtain same | none := writing
  · unfold State.owes at free ⊢
    rw [same]
    exact free
  · unfold State.owes
    rw [none]

theorem OwesNot.becomeWriting {lane : Lane} {s : State} (h : OwesNot lane s) (n : BufferName) :
    OwesNot lane (s.becomeWriting n) := by
  obtain ⟨off, _⟩ := h
  refine ⟨by rw [State.lane, (outside_becomeWriting s n).al]; exact off, ?_⟩
  unfold State.owes
  rw [becomeWriting_iu, State.toWriting, State.setIu_iu]
  have missed : (s.writingOf n).duty.get lane = .off := by
    cases lane <;> exact off
  dsimp only
  rw [missed]
  rfl

theorem OwesNot.task {lane : Lane} {s : State} (h : OwesNot lane s) (t : IndexTask) : OwesNot lane (s.indexTask t).1 := by
  have al := (outside_indexTask s t).al
  cases t with
  | offer o => exact h.congr al (.inl (takeOffer_writing s o))
  | refill => exact h.congr al (.inl (refillOnce_writing s))
  | testEnding => exact h.congr al (.inl (testEnding_writing s))
  | handNext src =>
    refine h.congr al (.inl ?_)
    simp only [State.indexTask]
    split
    · exact handOver_writing s src
    · rfl
  | progress =>
    revert al
    simp only [State.indexTask]
    unfold State.progressOnce
    split
    · split
      · exact fun _ => h
      · exact fun al => h.congr al (.inr (blockDone_writing _ _))
    · split
      · exact fun _ => h.becomeWriting _
      · exact fun _ => h

/-- A lane outside the states of duty that has missed the block owes none. -/
theorem blockMissed_owes {s : State} {lane : Lane} (off : (s.lane lane).state.duty = .off) :
    (s.blockMissed lane).owes lane = false := by
  unfold State.blockMissed
  split
  · next w writing =>
    split
    · rw [index_eq_does (by decide)]
      refine (does_keeps (P := OwesNot lane) (fun s t h => h.task t) _ ⟨?_, ?_⟩).2
      · rw [State.lane, setFlag_al]
        exact off
      · unfold State.owes
        rw [setFlag_iu, State.setDuty, State.setIu_iu]
        cases lane <;> rfl
    · next owed =>
      unfold State.owes
      rw [writing]
      simpa using owed
  · next writing =>
    unfold State.owes
    rw [writing]

/-! ### The state a lane takes at the end of a job (R146) -/

theorem formingFollower_of_none {s : State} {lane : Lane} (h : s.ds.pair = none) : s.formingFollower lane = false := by
  rw [State.formingFollower, h]

theorem nextLaneState_none {s : State} {lane : Lane} (pair : s.ds.pair = none) (action : (s.lane lane).action = .none) :
    s.nextLaneState lane =
      (s.onLane lane fun a => { a with state := .ready, action := .none }).setClaim lane
        (s.claimNow (s.lane lane)) := by
  unfold State.nextLaneState
  rw [action]
  dsimp only
  rw [placeClaim_of_none (by exact pair)]
  cases lane <;> rfl

theorem nextLaneState_pause {s : State} {lane : Lane} (action : (s.lane lane).action = .pause) :
    s.nextLaneState lane =
      ((s.onLane lane fun a => { a with state := .paused, action := .none }).setClaim lane none).blockMissed lane := by
  unfold State.nextLaneState
  rw [action]
  cases lane <;> rfl

theorem nextLaneState_park {s : State} {lane : Lane} (pair : s.ds.pair = none) (action : (s.lane lane).action = .park) :
    s.nextLaneState lane =
      { s with
        al := s.al.set lane { s.lane lane with
          state := .parking, action := .none, burstTag := (s.lane lane).burstTag + 1,
          timer := some (s.lane lane).settings.responseTime }
        ds := { s.ds with claim := s.ds.claim.set lane none }
        wire := s.wire.set lane (s.wire.get lane ++ [.park ((s.lane lane).burstTag + 1)]) } := by
  unfold State.nextLaneState
  rw [action]
  dsimp only
  rw [enterParking_eq, formingFollower_of_none (by exact pair)]
  cases lane <;> rfl

/-- The lane's job ends with the state it takes next. -/
theorem nextLaneState_jobEnds {s : State} {lane : Lane} (pair : s.ds.pair = none) :
    JobEnds s (s.nextLaneState lane) lane (s.lane lane) (s.claimNow (s.lane lane)) where
  ready none := by
    rw [nextLaneState_none pair none]
    refine ⟨?_, PerLane.get_set_self _ _ _, rfl⟩
    refine (PerLane.get_set_self _ _ _).trans ?_
    rw [← none]
    rfl
  pause pause := by
    have out := outside_blockMissed ((s.onLane lane fun a => { a with state := .paused, action := .none }).setClaim lane
      none) lane
    have entered : ((s.onLane lane fun a => { a with state := .paused, action := .none }).setClaim lane none).lane lane =
        { s.lane lane with state := .paused, action := .none } := PerLane.get_set_self _ _ _
    rw [nextLaneState_pause pause]
    refine ⟨?_, ?_, blockMissed_owes (by rw [entered]; rfl), out.wire⟩
    · rw [State.lane, out.al]
      exact entered
    · rw [out.ds]
      exact PerLane.get_set_self _ _ _
  park park := by
    rw [nextLaneState_park pair park]
    exact ⟨PerLane.get_set_self _ _ _, PerLane.get_set_self _ _ _, rfl⟩

/-- A lane that owes no block takes its next state alone. -/
structure LaneAlone (s u : State) (lane : Lane) : Prop where
  same : u = { s with al := u.al, ds := u.ds, wire := u.wire }
  other : u.lane lane.other = s.lane lane.other
  pair : u.ds.pair = s.ds.pair

theorem LaneAlone.trans {s t u : State} {lane : Lane} (h : LaneAlone s t lane) (k : LaneAlone t u lane) :
    LaneAlone s u lane where
  same := by
    rw [k.same, h.same]
  other := k.other.trans h.other
  pair := k.pair.trans h.pair

theorem nextLaneState_alone {s : State} {lane : Lane} (pair : s.ds.pair = none) (free : s.owes lane = false) :
    LaneAlone s (s.nextLaneState lane) lane := by
  cases action : (s.lane lane).action with
  | none =>
    rw [nextLaneState_none pair action]
    exact ⟨rfl, PerLane.get_set_other _ _ _, rfl⟩
  | pause =>
    rw [nextLaneState_pause action, blockMissed_of_not_owes (by exact free)]
    exact ⟨rfl, PerLane.get_set_other _ _ _, rfl⟩
  | park =>
    rw [nextLaneState_park pair action]
    exact ⟨rfl, PerLane.get_set_other _ _ _, rfl⟩

/-- At the end of a job the lane is BUSY no more, and what the job left of it stays. -/
theorem nextLaneState_left {s : State} {lane : Lane} (pair : s.ds.pair = none) :
    ((s.nextLaneState lane).lane lane).state ≠ .busy ∧ ((s.nextLaneState lane).lane lane).job = (s.lane lane).job ∧
      ((s.nextLaneState lane).lane lane).deadSpace = (s.lane lane).deadSpace := by
  have ends := nextLaneState_jobEnds (lane := lane) pair
  cases action : (s.lane lane).action with
  | none =>
    rw [(ends.ready action).1]
    exact ⟨by simp, rfl, rfl⟩
  | pause =>
    rw [(ends.pause action).1]
    exact ⟨by simp, rfl, rfl⟩
  | park =>
    rw [(ends.park action).1]
    exact ⟨by simp, rfl, rfl⟩

/-! ### ABORT RUN (R25, R38) -/

/-- What ABORT RUN makes of a lane. -/
structure LaneAborted (s u : State) (lane : Lane) : Prop where
  busy : (s.lane lane).state = .busy → (u.lane lane).state ≠ .busy ∧ (u.lane lane).job = none ∧
    ∀ j, (s.lane lane).job = some (.span j) → (u.lane lane).deadSpace = (s.lane lane).deadSpace + j.reserved
  other : (s.lane lane).state ≠ .busy → u.lane lane = s.lane lane

theorem sendCancel_alone (s : State) (lane : Lane) :
    LaneAlone s (s.sendCancel lane) lane ∧ (s.sendCancel lane).al = s.al := by
  unfold State.sendCancel
  split <;> exact ⟨⟨rfl, rfl, rfl⟩, rfl⟩

theorem dropJob_alone (s : State) (lane : Lane) (dead : Nat) : LaneAlone s (s.dropJob lane dead) lane :=
  ⟨rfl, PerLane.get_set_other _ _ _, rfl⟩

theorem lane_dropJob (s : State) (lane : Lane) (dead : Nat) :
    (s.dropJob lane dead).lane lane =
      { s.lane lane with job := none, timer := none, deadSpace := (s.lane lane).deadSpace + dead } :=
  PerLane.get_set_self _ _ _

theorem abortJob_alone (s : State) (lane : Lane) : LaneAlone s (s.abortJob lane) lane := by
  unfold State.abortJob
  split
  · exact (sendCancel_alone s lane).1.trans (dropJob_alone _ lane _)
  · exact (sendCancel_alone s lane).1.trans (dropJob_alone _ lane _)
  · exact ⟨rfl, rfl, rfl⟩

/-- The blocks a job has reserved: none for an index job. -/
def Job.reservedBlocks : Job → Nat
  | .span j => j.reserved
  | .index _ => 0

theorem abortJob_job (s : State) (lane : Lane) :
    ((s.abortJob lane).lane lane).job = none ∧ ∀ job, (s.lane lane).job = some job →
      ((s.abortJob lane).lane lane).deadSpace = (s.lane lane).deadSpace + job.reservedBlocks := by
  have sent : (s.sendCancel lane).lane lane = s.lane lane :=
    congrArg (PerLane.get · lane) (sendCancel_alone s lane).2
  unfold State.abortJob
  split
  · next j hj =>
    rw [lane_dropJob, sent, hj]
    exact ⟨rfl, fun job h => by cases h; rfl⟩
  · next j hj =>
    rw [lane_dropJob, sent, hj]
    exact ⟨rfl, fun job h => by cases h; rfl⟩
  · next hj => exact ⟨hj, fun job h => by rw [hj] at h; cases h⟩

theorem owes_of_writing {s : State} (lane : Lane) (h : s.iu.writing = none) : s.owes lane = false := by
  rw [State.owes, h]

theorem abortLane_spec {s : State} (lane : Lane) (pair : s.ds.pair = none) (writing : s.iu.writing = none) :
    LaneAlone s (State.abortLane lane s) lane ∧ LaneAborted s (State.abortLane lane s) lane := by
  unfold State.abortLane
  split
  case isFalse idle => exact ⟨⟨rfl, rfl, rfl⟩, fun busy => absurd busy idle, fun _ => rfl⟩
  next busy =>
  have alone := abortJob_alone s lane
  have free : (s.abortJob lane).owes lane = false :=
    owes_of_writing lane (by rw [congrArg State.iu alone.same]; exact writing)
  have left := nextLaneState_left (lane := lane) (alone.pair.trans pair)
  obtain ⟨job, dead⟩ := abortJob_job s lane
  refine ⟨alone.trans (nextLaneState_alone (alone.pair.trans pair) free), fun _ => ⟨left.1, left.2.1.trans job, ?_⟩,
    fun k => absurd busy k⟩
  exact fun j hj => left.2.2.trans (dead _ hj)

theorem LaneAborted.congr {s t u v : State} {lane : Lane} (h : LaneAborted s t lane) (hs : s.lane lane = u.lane lane)
    (ht : t.lane lane = v.lane lane) : LaneAborted u v lane := by
  obtain ⟨busy, other⟩ := h
  rw [hs, ht] at busy other
  exact ⟨busy, other⟩

/-- Nothing but the lanes, the archive links and the scheduler differs. -/
def OnlyLanes (s u : State) : Prop := u = { s with al := u.al, ds := u.ds, wire := u.wire }

theorem OnlyLanes.trans {s t u : State} (h : OnlyLanes s t) (k : OnlyLanes t u) : OnlyLanes s u := by
  unfold OnlyLanes at h k ⊢
  rw [k, h]

theorem abortLanes_spec {s : State} (pair : s.ds.pair = none) (writing : s.iu.writing = none) :
    OnlyLanes s (forLanes State.abortLane s) ∧ (forLanes State.abortLane s).ds.pair = none ∧
      ∀ lane, LaneAborted s (forLanes State.abortLane s) lane := by
  obtain ⟨alone, aborted⟩ := abortLane_spec (s := s) .l0 pair writing
  have free : (State.abortLane .l0 s).iu.writing = none :=
    (congrArg (fun u => u.iu.writing) alone.same).trans writing
  obtain ⟨alone', aborted'⟩ := abortLane_spec .l1 (alone.pair.trans pair) free
  refine ⟨OnlyLanes.trans alone.same alone'.same, alone'.pair.trans (alone.pair.trans pair), fun lane => ?_⟩
  cases lane with
  | l0 => exact aborted.congr rfl alone'.other.symm
  | l1 => exact aborted'.congr alone.other rfl

theorem occupancyChanged_same (s : State) (u v : Nat) :
    s.occupancyChanged u v =
      { s with
        spm := (s.occupancyChanged u v).spm, ci := (s.occupancyChanged u v).ci, nu := (s.occupancyChanged u v).nu
        clp := (s.occupancyChanged u v).clp } := by
  rw [occupancyChanged_eq, evalAllPressure_eq]
  split
  · rw [setFlag_eq]
    rfl
  · rfl

/-- The counters with every listed span discarded. -/
def State.discarded (s : State) : RunCounters :=
  { s.rc.counters with discarded := s.rc.counters.discarded + BitVec.ofNat 64 s.st.slots.length }

theorem discardAll_same (s : State) :
    s.discardAll =
      { s with
        st := .empty, se := ⟨none, none, none, none⟩, rc := { s.rc with counters := s.discarded }
        spm := s.discardAll.spm, ci := s.discardAll.ci, nu := s.discardAll.nu, clp := s.discardAll.clp } := by
  unfold State.discardAll
  dsimp only
  split
  · rfl
  · rw [occupancyChanged_same]
    rfl

theorem moved_abort (i : IntakeSource) (p q : Pressure) : (i.moved p q).abort = i.abort := by
  unfold IntakeSource.moved
  split
  · rfl
  · split <;> rfl

theorem discardAll_abort (s : State) (src : Source) : (s.discardAll.intake src).abort = (s.intake src).abort := by
  unfold State.discardAll
  dsimp only
  split
  · rfl
  · rw [occupancyChanged_intake]
    exact moved_abort _ _ _

theorem roleEnded_same (s : State) (lane : Lane) :
    s.roleEnded lane = { s with ds := (s.roleEnded lane).ds } ∧ (s.roleEnded lane).ds.pair = s.ds.pair := by
  unfold State.roleEnded State.placeClaim
  split
  · split <;> exact ⟨rfl, rfl⟩
  · exact ⟨rfl, rfl⟩

theorem only_ds_trans {s t u : State} (h : t = { s with ds := t.ds }) (k : u = { t with ds := u.ds }) :
    u = { s with ds := u.ds } := by
  rw [k, h]

theorem rolesEnded_same (s : State) :
    s.rolesEnded = { s with ds := s.rolesEnded.ds } ∧ s.rolesEnded.ds.pair = s.ds.pair := by
  obtain ⟨first, pair⟩ := roleEnded_same s .l0
  obtain ⟨second, pair'⟩ := roleEnded_same (s.roleEnded .l0) .l1
  exact ⟨only_ds_trans first second, pair'.trans pair⟩

theorem only_flag_ds {s t u : State} (h : t = (s.setClp t.clp).setNu t.nu) (k : u = { t with ds := u.ds }) :
    u = { s with nu := u.nu, clp := u.clp, ds := u.ds } := by
  rw [k, h]
  rfl

/-- The third to the fifth step of ABORT RUN: the intakes, the windows, the run and the pressure states (R38). -/
def State.closesRun (s : State) : State :=
  (((s.setCi ⟨s.ci.s0.abort, s.ci.s1.abort, s.ci.s2.abort, s.ci.s3.abort⟩).setTwu ⟨.reset, .reset, .reset, .reset⟩).setRc
    { s.rc with deadlineTimer := none, runState := .idle, lastEnd := .aborted }).calmAll

/-- The state ABORT RUN leaves before the claims are evaluated. -/
def State.aborted (s : State) : State :=
  ((forLanes State.abortLane ((s.setPair none).setIu s.iu.abort)).discardAll.closesRun.setFlag .runEnded).rolesEnded

theorem closesRun_intake (s : State) (src : Source) : s.closesRun.intake src = (s.intake src).abort := by
  cases src <;> rfl

/-- The run is closed, and the lanes that had a role claim. -/
theorem endsAborted_spec (d : State) :
    let u := (d.closesRun.setFlag .runEnded).rolesEnded
    u = { d.closesRun with nu := u.nu, clp := u.clp, ds := u.ds } ∧ u.ds.pair = d.ds.pair ∧
      u.nu.isPending .runEnded = true := by
  obtain ⟨roles, pair⟩ := rolesEnded_same (d.closesRun.setFlag .runEnded)
  intro u
  have nu : u.nu = (d.closesRun.setFlag .runEnded).nu := (congrArg State.nu roles :)
  refine ⟨only_flag_ds (setFlag_eq d.closesRun .runEnded) roles, ?_, ?_⟩
  · rw [pair, setFlag_ds]
    rfl
  · rw [nu]
    exact setFlag_pending _ _

theorem aborted_spec (s : State) :
    let u := s.aborted
    u = { s with
      rc := { s.rc with runState := .idle, lastEnd := .aborted, deadlineTimer := none, counters := s.discarded }
      st := .empty, se := ⟨none, none, none, none⟩, iu := s.iu.abort, twu := ⟨.reset, .reset, .reset, .reset⟩
      spm := { u.spm with pressure := ⟨.calm, .calm, .calm, .calm⟩ }
      ci := u.ci, nu := u.nu, clp := u.clp, al := u.al, ds := u.ds, wire := u.wire } ∧
    u.ds.pair = none ∧ (∀ src, u.intake src = (s.intake src).abort) ∧ u.nu.isPending .runEnded = true ∧
    (∀ lane, LaneAborted s u lane) := by
  obtain ⟨aside, pair, lanes⟩ := abortLanes_spec (s := (s.setPair none).setIu s.iu.abort) rfl rfl
  unfold State.aborted
  generalize forLanes State.abortLane ((s.setPair none).setIu s.iu.abort) = t at aside pair lanes
  unfold OnlyLanes at aside
  have discard := discardAll_same t
  have intakes := discardAll_abort t
  generalize t.discardAll = d at discard intakes
  obtain ⟨only, pair', flag⟩ := endsAborted_spec d
  intro u
  change u = _ at only
  refine ⟨?_, ?_, fun src => ?_, flag, fun lane => ?_⟩
  · rw [only, discard, aside]
    rfl
  · rw [show u.ds.pair = d.ds.pair from pair', discard]
    exact pair
  · have unchanged : u.intake src = d.closesRun.intake src := congrArg (fun x => x.intake src) only
    rw [unchanged, closesRun_intake, intakes src, aside]
    rfl
  · refine (lanes lane).congr rfl ?_
    have unchanged : u.lane lane = d.closesRun.lane lane := congrArg (fun x => x.lane lane) only
    rw [unchanged, discard]
    rfl

theorem abortRun_eq (s : State) : s.abortRun = s.aborted.evaluate := rfl

theorem notIdle_ok {s : State} (p : List Byte) (h : s.rc.runState ≠ .idle) : notIdle p s = .ok := by
  unfold notIdle
  rw [bne_iff_ne.mpr h]
  rfl

theorem exec_abortRun {s : State} {f : CmdFrame} {rest : List CmdFrame} (received : Receives s 0x12 f rest)
    (length : f.payload.length = 0) (running : s.rc.runState ≠ .idle) :
    exec .abortRun s = .next (s.answered f rest .ok []).aborted.evaluate := by
  exact congrArg _ (received.ok (c := abortCommand) length (notIdle_ok f.payload running))

/-- Settles O28, from the state ABORT RUN leaves before the claims are evaluated. -/
theorem abortRunEndsTheRun : Obligations.AbortRunEndsTheRun := by
  intro s f rest received length running
  refine ⟨_, exec_abortRun received length running, ?_⟩
  obtain ⟨only, pair, intakes, flag, lanes⟩ := aborted_spec (s.answered f rest .ok [])
  generalize (s.answered f rest .ok []).aborted = u at only pair intakes flag lanes
  rw [only] at pair intakes flag lanes ⊢
  refine ⟨rfl, rfl, rfl, pair, rfl, rfl, fun src => ⟨intakes src, ?_, ?_⟩, flag, fun lane => (lanes lane).busy,
    fun lane => (lanes lane).other⟩
  · cases src <;> rfl
  · cases src <;> rfl

end Sys2Proof.Machine

/-! What the tasks of the Index Unit can change, and how the span table only loses records by them (R20, R159, R163). -/

namespace Sys2Proof.Machine

/-! ### What a task can change -/

/-- Nothing differs but what the Index Unit's tasks reach: the table, the run, the intakes, the pressure states, the
index and the notices. -/
structure IndexOnly (s t : State) : Prop where
  same : t = { s with st := t.st, rc := t.rc, ci := t.ci, spm := t.spm, nu := t.nu, clp := t.clp, iu := t.iu }

theorem IndexOnly.refl (s : State) : IndexOnly s s := ⟨rfl⟩

theorem IndexOnly.trans {s t u : State} (h : IndexOnly s t) (k : IndexOnly t u) : IndexOnly s u := by
  exact ⟨by rw [k.same, h.same]⟩

theorem IndexOnly.se {s t : State} (h : IndexOnly s t) : t.se = s.se := by rw [h.same]

theorem IndexOnly.twu {s t : State} (h : IndexOnly s t) : t.twu = s.twu := by rw [h.same]

theorem IndexOnly.mem {s t : State} (h : IndexOnly s t) : t.mem = s.mem := by rw [h.same]

theorem IndexOnly.al {s t : State} (h : IndexOnly s t) : t.al = s.al := by rw [h.same]

theorem IndexOnly.ds {s t : State} (h : IndexOnly s t) : t.ds = s.ds := by rw [h.same]

theorem indexOnly_setFlag (s : State) (f : Flag) : IndexOnly s (s.setFlag f) := by
  constructor
  rw [setFlag_eq]
  rfl

theorem indexOnly_setIu (s : State) (v : IndexUnit) : IndexOnly s (s.setIu v) := ⟨rfl⟩

theorem indexOnly_setRc (s : State) (v : RunController) : IndexOnly s (s.setRc v) := ⟨rfl⟩

theorem indexOnly_onIntake (s : State) (src : Source) (f : IntakeSource → IntakeSource) :
    IndexOnly s (s.onIntake src f) := by
  cases src <;> exact ⟨rfl⟩

theorem indexOnly_forSources {f : Source → State → State} (h : ∀ src s, IndexOnly s (f src s)) (s : State) :
    IndexOnly s (forSources f s) := ((h .s0 s).trans (h .s1 _)).trans ((h .s2 _).trans (h .s3 _))

theorem indexOnly_occupancyChanged (s : State) (u v : Nat) : IndexOnly s (s.occupancyChanged u v) := by
  constructor
  rw [occupancyChanged_same]

/-- The table after a slot is released. -/
def SpanTable.without (t : SpanTable) (slot : Nat) (sp : Span) : SpanTable where
  slots := dropSlot t.slots slot
  queues := t.queues.set sp.source (queueRemove slot (t.queues.get sp.source))
  occupancy := t.occupancy - 1

theorem release_some {s : State} {slot : Nat} {sp : Span} (h : s.span? slot = some sp) (cause : ReleaseCause) :
    s.release slot cause =
      ((s.setSt (s.st.without slot sp)).onCounters cause.count).occupancyChanged s.st.occupancy
        (s.st.occupancy - 1) := by
  rw [State.release, h]
  rfl

theorem release_none {s : State} {slot : Nat} (h : s.span? slot = none) (cause : ReleaseCause) :
    s.release slot cause = s := by rw [State.release, h]

theorem release_st {s : State} {slot : Nat} {sp : Span} (h : s.span? slot = some sp) (cause : ReleaseCause) :
    (s.release slot cause).st = s.st.without slot sp := by
  rw [release_some h, occupancyChanged_st]
  rfl

theorem indexOnly_release (s : State) (slot : Nat) (cause : ReleaseCause) : IndexOnly s (s.release slot cause) := by
  cases h : s.span? slot with
  | none => rw [release_none h]; exact .refl s
  | some sp =>
    rw [release_some h]
    exact IndexOnly.trans ⟨rfl⟩ (indexOnly_occupancyChanged _ _ _)

theorem indexOnly_ended (s : State) : IndexOnly s (s.calmAll.setFlag .runEnded) :=
  IndexOnly.trans (t := s.calmAll) ⟨rfl⟩ (indexOnly_setFlag _ _)

theorem indexOnly_endRun (s : State) (written : Bool) : IndexOnly s (s.endRun written) := by
  have idle (src : Source) (u : State) : IndexOnly u
      (if (u.intake src).intake = .closed then u.onIntake src fun i => { i with intake := .idle } else u) := by
    split
    · exact indexOnly_onIntake u src _
    · exact .refl u
  exact (indexOnly_setRc s _).trans ((indexOnly_forSources idle _).trans (indexOnly_ended _))

theorem indexOnly_blockDone (s : State) (w : Writing) : IndexOnly s (s.blockDone w) := by
  have counted : IndexOnly s (s.blockCounted w) := by
    unfold State.blockCounted
    split
    · exact (indexOnly_setIu s _).trans ((indexOnly_setFlag _ _).trans ⟨rfl⟩)
    · exact (indexOnly_setIu s _).trans (indexOnly_setFlag _ _)
  rw [blockDone_eq]
  split
  · exact counted.trans (indexOnly_endRun _ _)
  · exact counted

theorem indexOnly_handBack (s : State) (o : Offer) : IndexOnly s (s.handBack o) := by
  cases o with
  | span slot e => cases e <;> exact indexOnly_release s slot _
  | gap src => exact indexOnly_onIntake s src fun i => { i with offeredGap := none }
  | runEnd e => exact .refl s

theorem indexOnly_handOver (s : State) (src : Source) : IndexOnly s (s.handOver src).1 := by
  unfold State.handOver
  split
  · next g _ _ => exact indexOnly_onIntake s src fun i => { i with pendingGap := none, offeredGap := some g }
  · exact .refl s

theorem indexOnly_becomeWriting (s : State) (n : BufferName) : IndexOnly s (s.becomeWriting n) := by
  rw [becomeWriting_eq]
  split
  · exact (indexOnly_setIu s _).trans (indexOnly_setFlag _ _)
  · exact indexOnly_setIu s _

theorem indexOnly_task (s : State) (t : IndexTask) : IndexOnly s (s.indexTask t).1 := by
  cases t with
  | offer o =>
    simp only [State.indexTask, State.takeOffer]
    split
    · cases o <;> exact ⟨rfl⟩
    · split
      · exact .refl s
      · exact (indexOnly_setIu s _).trans (indexOnly_handBack _ o)
  | progress =>
    simp only [State.indexTask, State.progressOnce]
    split
    · split
      · exact .refl s
      · exact indexOnly_blockDone s _
    · split
      · exact indexOnly_becomeWriting s _
      · exact .refl s
  | refill =>
    simp only [State.indexTask, State.refillOnce]
    split
    · next o _ _ => cases o <;> exact ⟨rfl⟩
    · exact .refl s
  | handNext src =>
    simp only [State.indexTask]
    split
    · exact indexOnly_handOver s src
    · exact .refl s
  | testEnding =>
    simp only [State.indexTask, State.testEnding]
    split <;> exact ⟨rfl⟩

theorem indexOnly_does (s : State) (ts : List IndexTask) : IndexOnly s (s.does ts) :=
  does_keeps (P := IndexOnly s) (fun u t h => h.trans (indexOnly_task u t)) ts (.refl s)

/-! ### The table loses records, and nothing else -/

/-- The span table has lost records, with their places in the queues, and nothing else. -/
structure Thins (s t : State) : Prop where
  table : TableOk t.st
  kept : ∀ slot v, t.span? slot = some v → s.span? slot = some v
  queues : QueueLaw s.st → QueueLaw t.st

theorem Thins.refl {s : State} (h : TableOk s.st) : Thins s s := ⟨h, fun _ _ => id, id⟩

theorem Thins.of_st {s t : State} (h : TableOk s.st) (same : t.st = s.st) : Thins s t :=
  ⟨same ▸ h, fun slot v hv => by rwa [State.span?, same] at hv, fun q => same ▸ q⟩

theorem Thins.trans {s t u : State} (h : Thins s t) (k : Thins t u) : Thins s u :=
  ⟨k.table, fun slot v hv => h.kept slot v (k.kept slot v hv), k.queues ∘ h.queues⟩

theorem thins_release {s : State} (h : TableOk s.st) (slot : Nat) (cause : ReleaseCause) :
    Thins s (s.release slot cause) := by
  cases found : s.span? slot with
  | none => rw [release_none found]; exact .refl h
  | some sp =>
    have st := release_st found cause
    refine ⟨?_, fun n v hv => ?_, fun q => ?_⟩
    · rw [st]
      exact (h.drop (by rw [← State.span?_eq, found]; rfl) _).1
    · rw [State.span?, st] at hv
      have dropped := findSlot_dropSlot s.st.slots slot n 0 h.slots
      change findSlot (dropSlot s.st.slots slot) n = some v at hv
      rw [dropped] at hv
      split at hv
      · cases hv
      · exact hv
    · rw [st]
      exact q.drop h found

/-- What a change for each source leaves as it is, the four changes leave. -/
theorem forSources_proj {α : Type} (g : State → α) {f : Source → State → State} (h : ∀ src s, g (f src s) = g s)
    (s : State) : g (forSources f s) = g s := by
  unfold forSources
  rw [h, h, h, h]

theorem endRun_st (s : State) (written : Bool) : (s.endRun written).st = s.st := by
  have idle (src : Source) (u : State) :
      (if (u.intake src).intake = .closed then u.onIntake src fun i => { i with intake := .idle } else u).st = u.st := by
    split <;> rfl
  unfold State.endRun State.calmAll
  dsimp only
  rw [setFlag_st, State.setSpm_st, forSources_proj State.st idle]
  rfl

theorem blockDone_st (s : State) (w : Writing) : (s.blockDone w).st = s.st := by
  have counted : (s.blockCounted w).st = s.st := by
    unfold State.blockCounted
    split
    · exact setFlag_st _ _
    · exact setFlag_st _ _
  rw [blockDone_eq]
  split
  · rw [endRun_st, counted]
  · exact counted

theorem handOver_st (s : State) (src : Source) : (s.handOver src).1.st = s.st := by
  unfold State.handOver
  split <;> rfl

theorem becomeWriting_st (s : State) (n : BufferName) : (s.becomeWriting n).st = s.st := by
  rw [becomeWriting_eq]
  split
  · exact setFlag_st _ _
  · rfl

theorem thins_handBack {s : State} (h : TableOk s.st) (o : Offer) : Thins s (s.handBack o) := by
  cases o with
  | span slot e => cases e <;> exact thins_release h slot _
  | gap src => exact .of_st h rfl
  | runEnd e => exact .refl h

/-- The tasks that take in no span leave the table. -/
theorem task_st {s : State} {t : IndexTask} (h : ∀ slot e, t ≠ .offer (.span slot e)) : (s.indexTask t).1.st = s.st := by
  cases t with
  | offer o =>
    simp only [State.indexTask, State.takeOffer]
    split
    · cases o <;> rfl
    · split
      · rfl
      · cases o with
        | span slot e => exact absurd rfl (h slot e)
        | gap src => rfl
        | runEnd e => rfl
  | progress =>
    simp only [State.indexTask, State.progressOnce]
    split
    · split
      · rfl
      · exact blockDone_st s _
    · split
      · exact becomeWriting_st s _
      · rfl
  | refill =>
    simp only [State.indexTask, State.refillOnce]
    split
    · next o _ _ => cases o <;> rfl
    · rfl
  | handNext src =>
    simp only [State.indexTask]
    split
    · exact handOver_st s src
    · rfl
  | testEnding =>
    simp only [State.indexTask, State.testEnding]
    split <;> rfl

theorem thins_task {s : State} (h : TableOk s.st) (t : IndexTask) : Thins s (s.indexTask t).1 := by
  by_cases span : ∃ slot e, t = .offer (.span slot e)
  · obtain ⟨slot, e, rfl⟩ := span
    simp only [State.indexTask, State.takeOffer]
    split
    · exact .of_st h rfl
    · split
      · exact .refl h
      · next buf _ _ e' _ =>
        have filled : Thins s (s.setBuffer buf ((s.buffer buf).append e' (Offer.span slot e).isRunEnd)) :=
          .of_st h rfl
        exact filled.trans (thins_handBack filled.table (.span slot e))
  · exact .of_st h (task_st fun slot e k => span ⟨slot, e, k⟩)

theorem thins_does {s : State} (h : TableOk s.st) (ts : List IndexTask) : Thins s (s.does ts) :=
  does_keeps (P := Thins s) (fun _ t k => k.trans (thins_task k.table t)) ts (.refl h)

/-! ### The run, by the tasks -/

theorem endRun_rc (s : State) (written : Bool) : (s.endRun written).rc =
    { s.rc with runState := .idle, lastEnd := if written then s.rc.provisional else .indexUnwritten } := by
  have idle (src : Source) (u : State) :
      (if (u.intake src).intake = .closed then u.onIntake src fun i => { i with intake := .idle } else u).rc = u.rc := by
    split <;> rfl
  unfold State.endRun State.calmAll
  dsimp only
  rw [setFlag_rc, State.setSpm_rc, forSources_proj State.rc idle]
  rfl

theorem blockDone_rc (s : State) (w : Writing) : ∃ counters, (s.blockDone w).rc = { s.rc with counters := counters } ∨
    (s.buffer w.buffer).final = true ∧
      ∃ cause, (s.blockDone w).rc = { s.rc with counters := counters, runState := .idle, lastEnd := cause } := by
  have counted : ∃ counters, (s.blockCounted w).rc = { s.rc with counters := counters } := by
    unfold State.blockCounted
    split
    · refine ⟨{ s.rc.counters with checkpointsWritten := s.rc.counters.checkpointsWritten + 1 }, ?_⟩
      rw [State.onCounters, State.setRc_rc, setFlag_rc]
      rfl
    · refine ⟨s.rc.counters, ?_⟩
      rw [setFlag_rc]
      rfl
  obtain ⟨counters, same⟩ := counted
  refine ⟨counters, ?_⟩
  rw [blockDone_eq]
  split
  · next final =>
    rw [endRun_rc, same]
    exact .inr ⟨final, _, rfl⟩
  · exact .inl same

theorem occupancyChanged_rc (s : State) (u v : Nat) : (s.occupancyChanged u v).rc = s.rc := by
  rw [occupancyChanged_same]

theorem release_rc (s : State) (slot : Nat) (cause : ReleaseCause) :
    (s.release slot cause).rc = s.rc ∨ (s.release slot cause).rc = { s.rc with counters := cause.count s.rc.counters } := by
  cases h : s.span? slot with
  | none => rw [release_none h]; exact .inl rfl
  | some sp =>
    rw [release_some h, occupancyChanged_rc]
    exact .inr rfl

theorem handBack_rc (s : State) (o : Offer) :
    ∃ counters, (s.handBack o).rc = { s.rc with counters := counters } := by
  have released (slot : Nat) (cause : ReleaseCause) :
      ∃ counters, (s.release slot cause).rc = { s.rc with counters := counters } := by
    obtain h | h := release_rc s slot cause
    · exact ⟨s.rc.counters, h⟩
    · exact ⟨_, h⟩
  cases o with
  | span slot e => cases e <;> exact released slot _
  | gap src => exact ⟨s.rc.counters, rfl⟩
  | runEnd e => exact ⟨s.rc.counters, rfl⟩

/-- A task leaves the run as it is but for its counters, or enters ENDING, or ends the run with a final block. -/
inductive RunMoves (s : State) (q : RunController) : Prop
  | counts (counters : RunCounters) (h : q = { s.rc with counters := counters })
  | ending (h : s.rc.runState = .stopping) (k : q = { s.rc with runState := .ending, deadlineTimer := none })
  | ends (n : BufferName) (final : (s.buffer n).final = true) (counters : RunCounters) (cause : EndCause)
      (h : q = { s.rc with counters := counters, runState := .idle, lastEnd := cause })

theorem RunMoves.refl (s : State) : RunMoves s s.rc := .counts s.rc.counters rfl

theorem task_rc (s : State) (t : IndexTask) : RunMoves s (s.indexTask t).1.rc := by
  cases t with
  | offer o =>
    simp only [State.indexTask, State.takeOffer]
    split
    · cases o <;> exact .refl _
    · split
      · exact .refl _
      · next buf _ _ e _ =>
        obtain ⟨counters, h⟩ := handBack_rc (s.setBuffer buf ((s.buffer buf).append e o.isRunEnd)) o
        exact .counts counters h
  | progress =>
    simp only [State.indexTask, State.progressOnce]
    split
    · split
      · exact .refl _
      · next w _ _ =>
        obtain ⟨counters, h | ⟨final, cause, h⟩⟩ := blockDone_rc s w
        · exact .counts counters h
        · exact .ends _ final counters cause h
    · split
      · next n _ =>
        rw [becomeWriting_eq]
        split
        · rw [setFlag_rc]
          exact .refl _
        · exact .refl _
      · exact .refl _
  | refill =>
    simp only [State.indexTask, State.refillOnce]
    split
    · next o _ _ => cases o <;> exact .refl _
    · exact .refl _
  | handNext src =>
    simp only [State.indexTask, State.handOver]
    split
    · split <;> exact .refl _
    · exact .refl _
  | testEnding =>
    simp only [State.indexTask, State.testEnding]
    split
    · next h => exact .ending h.1 rfl
    · exact .refl _

theorem RunMoves.timer {s : State} {q : RunController} (h : RunMoves s q) (stopped : s.rc.deadlineTimer = none) :
    q.deadlineTimer = none := by
  cases h with
  | counts _ h => rw [h]; exact stopped
  | ending _ h => rw [h]
  | ends _ _ _ _ h => rw [h]; exact stopped

theorem does_timer {s : State} (ts : List IndexTask) (stopped : s.rc.deadlineTimer = none) :
    (s.does ts).rc.deadlineTimer = none :=
  does_keeps (P := fun u => u.rc.deadlineTimer = none) (fun u t h => (task_rc u t).timer h) ts stopped

/-! ### An offer with no buffer to take it waits -/

theorem index_eq_does_one (s : State) (t : IndexTask) : s.index [t] = s.does [t] := by
  refine index_eq_does ?_
  rw [costOf_cons, costOf_nil]
  cases t with
  | offer o => cases o <;> simp [IndexTask.price]
  | progress | refill | handNext _ | testEnding => simp [IndexTask.price]

theorem offerSpan_waits {s : State} {slot : Nat} {sp : Span} (found : s.span? slot = some sp) (none : s.target = none) :
    s.offerSpan slot = s.wait (.span slot sp.entry) := by
  rw [State.offerSpan, found]
  dsimp only
  rw [index_eq_does_one, does_offer_waits _ _ none, does_nil]

/-! ### The stop deadline (R35) -/

/-- The record of a QUEUED span that the stop deadline gives up. -/
def Span.disposed (sp : Span) : Span :=
  if sp.laneRule = .mirror ∧ sp.copies.length = 1 then
    { sp with state := .committed, repairLane := none, degraded := true }
  else { sp with state := .shed, shedCause := some .stopDeadline }

theorem disposed_state (sp : Span) : sp.disposed.state ≠ .queued := by
  unfold Span.disposed
  split <;> simp

theorem disposed_source (sp : Span) : sp.disposed.source = sp.source := by
  unfold Span.disposed
  split <;> rfl

theorem disposeQueued_eq {s : State} {slot : Nat} {sp : Span} (found : s.span? slot = some sp)
    (queued : sp.state = .queued) (expired : s.rc.expired = true) :
    s.disposeQueued slot = (s.enter slot sp.disposed).offerSpan slot := by
  unfold State.disposeQueued
  rw [found]
  dsimp only
  rw [if_pos queued]
  by_cases one : sp.laneRule = .mirror ∧ sp.copies.length = 1
  · have committed : sp.committed = sp.disposed := by
      rw [Span.disposed, if_pos one, Span.committed, one.1, one.2]
      rfl
    have may : sp.mayCommit s.rc.expired = true := by
      rw [Span.mayCommit, one.1, one.2, expired]
      simp
    rw [if_pos one, State.commit, found]
    dsimp only
    rw [if_pos may, committed]
  · have shed : sp.disposed = { sp with state := .shed, shedCause := some .stopDeadline } := if_neg one
    rw [if_neg one, State.shedSpan, found, shed]
    exact if_neg fun k => ShedCause.noConfusion k.2

theorem disposeQueued_other {s : State} {slot : Nat} (h : ∀ sp, s.span? slot = some sp → sp.state ≠ .queued) :
    s.disposeQueued slot = s := by
  unfold State.disposeQueued
  split
  · next sp found => exact if_neg (h sp found)
  · rfl

/-- The state between the disposals at the stop deadline: the spans of `done` that were QUEUED have been given up. -/
structure Disposes (s : State) (done : List Nat) (u : State) : Prop where
  table : TableOk u.st
  expired : u.rc.expired = true
  timer : u.rc.deadlineTimer = none
  spans : ∀ slot v, u.span? slot = some v → ∃ sp, s.span? slot = some sp ∧
    v = if sp.state = .queued ∧ slot ∈ done then sp.disposed else sp
  queues : QueueLaw s.st → QueueLaw u.st
  waits : s.target = none → u.target = none ∧ ∀ slot sp, s.span? slot = some sp → (u.span? slot).isSome = true
  only : IndexOnly s u

/-- An offer of the span in a slot. -/
theorem offerSpan_does (s : State) (slot : Nat) : ∃ ts, s.offerSpan slot = s.does ts := by
  unfold State.offerSpan
  split
  · exact ⟨_, index_eq_does_one s _⟩
  · exact ⟨[], (does_nil s).symm⟩

theorem wait_target (s : State) (o : Offer) : (s.wait o).target = s.target := by cases o <;> rfl

theorem enter_table {s : State} (h : TableOk s.st) {slot : Nat} {old v : Span} (found : s.span? slot = some old) :
    TableOk (s.enter slot v).st := h.put v (by rw [← State.span?_eq, found]; rfl) _

theorem enter_queues {s : State} (h : TableOk s.st) (q : QueueLaw s.st) {slot : Nat} {old v : Span}
    (found : s.span? slot = some old) (source : old.source = v.source) : QueueLaw (s.enter slot v).st :=
  q.enter h fun x hx => by
    rw [← State.span?_eq, found] at hx
    cases hx
    exact source

theorem disposed_ite_eq {sp v : Span} {p : Prop} [Decidable p] (queued : v.state = .queued)
    (h : v = if sp.state = .queued ∧ p then sp.disposed else sp) : v = sp := by
  split at h
  · rw [h] at queued
    exact absurd queued (disposed_state sp)
  · exact h

/-- A slot whose span is not QUEUED stays as it is. -/
theorem disposes_skip {s u : State} {done : List Nat} (h : Disposes s done u) {slot : Nat}
    (other : ∀ sp, u.span? slot = some sp → sp.state ≠ .queued) : Disposes s (done ++ [slot]) u := by
  refine { h with spans := fun n v hv => ?_ }
  obtain ⟨sp, found, eq⟩ := h.spans n v hv
  refine ⟨sp, found, ?_⟩
  by_cases same : n = slot
  · subst same
    by_cases queued : sp.state = .queued ∧ n ∈ done
    · rw [eq, if_pos queued, if_pos ⟨queued.1, by simp⟩]
    · rw [if_neg queued] at eq
      rw [if_neg fun k => other v hv (eq ▸ k.1)]
      exact eq
  · simpa [same] using eq

theorem disposes_queued {s u : State} {done : List Nat} (h : Disposes s done u) {slot : Nat} {v : Span}
    (found : u.span? slot = some v) (queued : v.state = .queued) :
    Disposes s (done ++ [slot]) (u.disposeQueued slot) := by
  have entered : (u.enter slot v.disposed).span? slot = some v.disposed := span?_enter_self _ _ _
  obtain ⟨ts, offered⟩ := offerSpan_does (u.enter slot v.disposed) slot
  have thins := thins_does (enter_table h.table (v := v.disposed) found) ts
  have only := indexOnly_does (u.enter slot v.disposed) ts
  have moved : u.disposeQueued slot = (u.enter slot v.disposed).does ts :=
    (disposeQueued_eq found queued h.expired).trans offered
  refine ⟨?_, ?_, ?_, ?_, ?_, ?_, ?_⟩
  · rw [moved]; exact thins.table
  · rw [(within_disposeQueued u slot).kept.expired]; exact h.expired
  · rw [moved]; exact does_timer ts h.timer
  · intro n x hx
    rw [moved] at hx
    have before := thins.kept n x hx
    by_cases same : n = slot
    · subst same
      obtain ⟨sp, listed, eq⟩ := h.spans n v found
      have vsp : v = sp := disposed_ite_eq queued eq
      rw [entered] at before
      cases before
      subst vsp
      exact ⟨v, listed, by rw [if_pos ⟨queued, by simp⟩]⟩
    · rw [span?_enter_other _ _ same] at before
      obtain ⟨sp, listed, eq⟩ := h.spans n x before
      exact ⟨sp, listed, by simpa [same] using eq⟩
  · intro q
    rw [moved]
    exact thins.queues (enter_queues h.table (h.queues q) found (disposed_source v).symm)
  · intro full
    obtain ⟨target, listed⟩ := h.waits full
    have target' : (u.enter slot v.disposed).target = none := target
    rw [disposeQueued_eq found queued h.expired, offerSpan_waits entered target']
    refine ⟨(wait_target _ _).trans target', fun n sp hsp => ?_⟩
    change ((u.enter slot v.disposed).span? n).isSome = true
    by_cases same : n = slot
    · rw [same, entered]; rfl
    · rw [span?_enter_other _ _ same]; exact listed n sp hsp
  · rw [moved]
    exact h.only.trans ((IndexOnly.mk rfl : IndexOnly u (u.enter slot v.disposed)).trans only)

theorem disposes_step {s u : State} {done : List Nat} (h : Disposes s done u) (slot : Nat) :
    Disposes s (done ++ [slot]) (u.disposeQueued slot) := by
  by_cases queued : ∃ sp, u.span? slot = some sp ∧ sp.state = .queued
  · obtain ⟨v, found, queued⟩ := queued
    exact disposes_queued h found queued
  · have other (sp : Span) (found : u.span? slot = some sp) : sp.state ≠ .queued := fun k => queued ⟨sp, found, k⟩
    rw [disposeQueued_other other]
    exact disposes_skip h other

theorem disposes_all {s u : State} {done : List Nat} (h : Disposes s done u) (slots : List Nat) :
    Disposes s (done ++ slots) (State.eachSlot State.disposeQueued u slots) := by
  induction slots generalizing u done with
  | nil => rwa [List.append_nil]
  | cons slot rest ih =>
    have next := ih (disposes_step h slot)
    rwa [List.append_assoc] at next

theorem mem_queuedSlots {t : SpanTable} (h : TableOk t) {slot : Nat} {sp : Span}
    (found : findSlot t.slots slot = some sp) : slot ∈ t.queuedSlots ↔ sp.state = .queued := by
  unfold SpanTable.queuedSlots
  simp only [List.mem_map, List.mem_filter, decide_eq_true_eq]
  constructor
  · rintro ⟨p, ⟨listed, queued⟩, rfl⟩
    rw [findSlot_of_mem h.slots listed] at found
    cases found
    exact queued
  · exact fun queued => ⟨(slot, sp), ⟨mem_of_findSlot found, queued⟩, rfl⟩

theorem queues_nil {t : SpanTable} (q : QueueLaw t) (none : ∀ slot sp, findSlot t.slots slot = some sp → sp.state ≠ .queued)
    (src : Source) : t.queues.get src = [] := by
  refine List.eq_nil_iff_forall_not_mem.mpr fun slot listed => ?_
  obtain ⟨sp, found, _, queued⟩ := ((q src).listed slot).mp listed
  exact none slot sp found queued

/-- The run as the stop deadline expires, before the queues are given up. -/
def State.expires (s : State) : State :=
  (s.setRc { s.rc with deadlineTimer := none, expired := true }).setFlag .stopDeadline

theorem disposes_expires {s : State} (h : TableOk s.st) : Disposes s [] s.expires where
  table := by rw [State.expires, setFlag_st]; exact h
  expired := by rw [State.expires, setFlag_rc]; rfl
  timer := by rw [State.expires, setFlag_rc]; rfl
  spans slot v hv := by
    rw [State.span?, State.expires, setFlag_st] at hv
    exact ⟨v, hv, by simp⟩
  queues q := by rw [State.expires, setFlag_st]; exact q
  waits none := by
    refine ⟨?_, fun slot sp hsp => ?_⟩
    · rw [State.expires, target_congr (s := s) (by rw [setFlag_iu]; rfl)]
      exact none
    · rw [State.span?, State.expires, setFlag_st]
      exact Option.isSome_of_mem hsp
  only := (indexOnly_setRc s _).trans (indexOnly_setFlag _ _)

theorem exec_stopDeadline {s : State} (stopping : s.rc.runState = .stopping) (runs : s.rc.deadlineTimer.isSome = true) :
    exec .stopDeadlineExpiry s =
      .next (State.eachSlot State.disposeQueued s.expires s.expires.st.queuedSlots).evaluate :=
  congrArg Host.Outcome.next (if_pos ⟨stopping, runs⟩)

/-- Settles O29: slot by slot every QUEUED span is given up, and no other record changes. -/
theorem stopDeadlineEmptiesTheQueues : Obligations.StopDeadlineEmptiesTheQueues := by
  intro s
  refine ⟨fun stopping runs table => ⟨_, exec_stopDeadline stopping runs, ?_⟩, fun h => ?_⟩
  · have slots : s.expires.st.queuedSlots = s.st.queuedSlots := by rw [State.expires, setFlag_st]; rfl
    have all := disposes_all (disposes_expires table) s.expires.st.queuedSlots
    have flag := (within_eachSlot State.disposeQueued within_disposeQueued s.expires s.expires.st.queuedSlots).kept.flags
      .stopDeadline (setFlag_pending _ _)
    rw [List.nil_append, slots] at all
    rw [slots] at flag ⊢
    generalize State.eachSlot State.disposeQueued s.expires s.st.queuedSlots = u at all flag
    have given (slot : Nat) (sp v : Span) (listed : s.span? slot = some sp) (found : u.span? slot = some v) :
        v = if sp.state = .queued then sp.disposed else sp := by
      obtain ⟨x, hx, eq⟩ := all.spans slot v found
      rw [listed] at hx
      cases hx
      rw [eq]
      exact if_congr (by rw [mem_queuedSlots table listed, and_self]) rfl rfl
    have rests (slot : Nat) (v : Span) (found : u.span? slot = some v) : v.state ≠ .queued := by
      obtain ⟨sp, listed, _⟩ := all.spans slot v found
      rw [given slot sp v listed found]
      split
      · exact disposed_state sp
      · assumption
    refine ⟨all.expired, all.timer, flag, fun p hp => ?_, fun q => queues_nil (all.queues q) rests,
      fun slot sp listed => ⟨fun v found => ?_, fun none => (all.waits none).2 slot sp listed⟩, all.only.mem, all.only.al,
      all.only.ds⟩
    · exact rests p.1 p.2 (findSlot_of_mem all.table.slots hp)
    · exact given slot sp v listed found
  · refine congrArg Host.Outcome.next (if_neg fun k => ?_)
    obtain other | off := h
    · exact other k.1
    · rw [off] at k
      exact Bool.noConfusion k.2

end Sys2Proof.Machine

/-! The stop of a run: what each of its stages keeps, and what it leaves of spans, intakes and gaps (R31 to R34, R71). -/

namespace Sys2Proof.Machine

/-! ### The stages of the stop -/

/-- The record a FILLING span has at its seal. -/
def Span.sealedAs (sp : Span) (summary : Option Summary) : Span :=
  { sp with state := if sp.retention = .history then .held else .queued, summary := summary }

theorem sealedAs_source (sp : Span) (m : Option Summary) : (sp.sealedAs m).source = sp.source := rfl

/-- The seal of a FILLING span, before its recycling or the shed rule. -/
def State.sealRecord (s : State) (src : Source) (slot : Nat) (sp : Span) : State :=
  (s.setSummary src none).enter slot (sp.sealedAs ((s.se.get src).map Running.finish))

theorem sealSpan_eq (s : State) (src : Source) (slot : Nat) (sp : Span) :
    s.sealSpan src slot sp =
      if sp.retention = .history ∧ s.rc.runState = .stopping then (s.sealRecord src slot sp).recycle slot
      else s.sealRecord src slot sp := by
  unfold State.sealSpan State.sealRecord
  split
  · next history =>
    have record (m : Option Summary) : sp.sealedAs m = { sp with state := .held, summary := m } := by
      rw [Span.sealedAs, if_pos history]
    rw [record, history]
    exact if_congr (by simp; rfl) rfl rfl
  all_goals
    next other =>
    have record (m : Option Summary) : sp.sealedAs m = { sp with state := .queued, summary := m } := by
      rw [Span.sealedAs, if_neg (by rw [other]; decide)]
    rw [record, other, if_neg (by simp)]

theorem sealedAs_state (sp : Span) (m : Option Summary) : (sp.sealedAs m).state ≠ .filling := by
  unfold Span.sealedAs
  dsimp only
  split <;> simp

theorem within_sealRecord {s : State} {src : Source} {slot : Nat} {sp : Span} (found : s.st.filling src = some (slot, sp)) :
    Within s (s.sealRecord src slot sp) :=
  (within_setSummary s src none).trans (within_enter _ _ _ (.of_filling found
    ⟨rfl, rfl, rfl, rfl, rfl, fun h => absurd h (sealedAs_state sp _)⟩))

/-- The FILLING span of a source that is sealed at the stop. -/
theorem sealFilling_of_stop {s : State} {src : Source} {slot : Nat} {sp : Span} (found : s.st.filling src = some (slot, sp))
    (stop : s.rc.runState ≠ .running) :
    s.sealFilling src = s.sealSpan src slot sp := by
  have left : (s.sealSpan src slot sp).rc.runState ≠ .running := by
    have moved := (within_sealSpan s src slot sp found).kept.run
    intro running
    rw [running] at moved
    revert moved stop
    cases s.rc.runState <;> decide
  rw [State.sealFilling, found]
  exact if_neg fun k => left k.1

theorem sealFilling_of_none {s : State} {src : Source} (none : s.st.filling src = none) : s.sealFilling src = s := by
  rw [State.sealFilling, none]

/-- The last four stages of the stop, after the intakes have closed. -/
theorem enterStopping_eq (s : State) :
    s.enterStopping =
      (forSources (State.ifRun fun s src => s.recycleAll (s.st.inState src .held))
        (forSources (State.ifRun State.handGap) (forSources (State.ifRun State.sealFilling) s.stopIntake))).index
        [.testEnding] := rfl

theorem handGap_eq (s : State) (src : Source) : s.handGap src = (s.handOver src).1.does (s.handOver src).2 := by
  refine index_eq_does ?_
  unfold State.handOver
  split
  · simp [IndexTask.price]
  · simp

theorem recycle_eq (s : State) (slot : Nat) : s.recycle slot = (s.release slot .recycled).does [.testEnding] :=
  index_eq_does_one _ _

theorem forward_of_not_running {r q : RunState} (stop : r ≠ .running) (h : r.forward q = true) : q ≠ .running := by
  rintro rfl
  revert h stop
  cases r <;> decide

theorem ifRun_of_run {f : State → Source → State} {src : Source} {s : State} (h : s.rc.sourceSet.get src = true) :
    State.ifRun f src s = f s src := if_pos h

theorem ifRun_of_other {f : State → Source → State} {src : Source} {s : State} (h : s.rc.sourceSet.get src = false) :
    State.ifRun f src s = s := if_neg (by rw [h]; exact Bool.false_ne_true)

/-- A change of each source: what the others keep before it and after it, and what its own does. -/
theorem forSources_focus {P Q : State → Prop} {f : Source → State → State} (src : Source)
    (before : ∀ x, x ≠ src → ∀ s, P s → P (f x s)) (own : ∀ s, P s → Q (f src s))
    (after : ∀ x, x ≠ src → ∀ s, Q s → Q (f x s)) {s : State} (h : P s) : Q (forSources f s) := by
  cases src with
  | s0 => exact after _ (by decide) _ (after _ (by decide) _ (after _ (by decide) _ (own _ h)))
  | s1 => exact after _ (by decide) _ (after _ (by decide) _ (own _ (before _ (by decide) _ h)))
  | s2 => exact after _ (by decide) _ (own _ (before _ (by decide) _ (before _ (by decide) _ h)))
  | s3 => exact own _ (before _ (by decide) _ (before _ (by decide) _ (before _ (by decide) _ h)))

theorem forSources_keeps {P : State → Prop} {f : Source → State → State} (step : ∀ x s, P s → P (f x s)) {s : State}
    (h : P s) : P (forSources f s) := step _ _ (step _ _ (step _ _ (step _ _ h)))

theorem ifRun_keeps {P : State → Prop} {f : State → Source → State} (step : ∀ s src, P s → P (f s src)) (src : Source)
    {s : State} (h : P s) : P (State.ifRun f src s) := by
  unfold State.ifRun
  split
  · exact step s src h
  · exact h

theorem eachSlot_keeps {P : State → Prop} {f : State → Nat → State} (step : ∀ s slot, P s → P (f s slot)) {s : State}
    (slots : List Nat) (h : P s) : P (State.eachSlot f s slots) := by
  induction slots generalizing s with
  | nil => exact h
  | cons slot rest ih => exact ih (step s slot h)

/-- The tasks that the stop brings about: an offered gap, and the test of R33. -/
def StopTasks (ts : List IndexTask) : Prop := ∀ t ∈ ts, t = .testEnding ∨ ∃ src, t = .offer (.gap src)

theorem stopTasks_testEnding : StopTasks [.testEnding] := fun _ h => .inl (List.mem_singleton.mp h)

theorem stopTasks_handOver (s : State) (src : Source) : StopTasks (s.handOver src).2 := by
  unfold State.handOver
  split
  · exact fun t h => .inr ⟨src, List.mem_singleton.mp h⟩
  · exact fun t h => absurd h (by simp)

/-- What each of the changes that a seal is made of keeps. -/
structure SealKeeps (P : State → Prop) : Prop where
  seals : ∀ s src slot sp, P s → s.st.filling src = some (slot, sp) → P (s.sealRecord src slot sp)
  release : ∀ s slot, P s → P (s.release slot .recycled)
  test : ∀ s, P s → P (s.does [.testEnding])

/-- What each of the changes the stop is made of keeps. -/
structure StopKeeps (P : State → Prop) : Prop extends SealKeeps P where
  hand : ∀ s src, P s → P (s.handOver src).1
  does : ∀ s ts, StopTasks ts → P s → P (s.does ts)
  test := fun s h => does s _ stopTasks_testEnding h

theorem SealKeeps.recycle {P : State → Prop} (keeps : SealKeeps P) {s : State} (slot : Nat) (h : P s) :
    P (s.recycle slot) := by
  rw [recycle_eq]
  exact keeps.test _ (keeps.release s slot h)

theorem SealKeeps.sealFilling {P : State → Prop} (keeps : SealKeeps P) (s : State) (src : Source)
    (h : P s ∧ s.rc.runState ≠ .running) : P (s.sealFilling src) ∧ (s.sealFilling src).rc.runState ≠ .running := by
  obtain ⟨holds, stop⟩ := h
  refine ⟨?_, forward_of_not_running stop (within_sealFilling s src).kept.run⟩
  cases found : s.st.filling src with
  | none => rwa [sealFilling_of_none found]
  | some p =>
    obtain ⟨slot, sp⟩ := p
    rw [sealFilling_of_stop found stop, sealSpan_eq]
    split
    · exact keeps.recycle slot (keeps.seals s src slot sp holds found)
    · exact keeps.seals s src slot sp holds found

theorem SealKeeps.sealAll {P : State → Prop} (keeps : SealKeeps P) {s : State} (h : P s ∧ s.rc.runState ≠ .running) :
    P (forSources (State.ifRun State.sealFilling) s) ∧
      (forSources (State.ifRun State.sealFilling) s).rc.runState ≠ .running :=
  forSources_keeps (P := fun u => P u ∧ u.rc.runState ≠ .running)
    (fun x _ => ifRun_keeps (P := fun u => P u ∧ u.rc.runState ≠ .running) keeps.sealFilling x) h

theorem SealKeeps.recycleHeld {P : State → Prop} (keeps : SealKeeps P) {s : State} (h : P s) :
    P (forSources (State.ifRun fun s src => s.recycleAll (s.st.inState src .held)) s) :=
  forSources_keeps (fun x _ => ifRun_keeps (f := fun s src => s.recycleAll (s.st.inState src .held))
    (fun _ _ k => eachSlot_keeps (fun _ slot m => keeps.recycle slot m) _ k) x) h

theorem StopKeeps.handGap {P : State → Prop} (keeps : StopKeeps P) (s : State) (src : Source) (h : P s) :
    P (s.handGap src) := by
  rw [handGap_eq]
  exact keeps.does _ _ (stopTasks_handOver s src) (keeps.hand s src h)

theorem stopIntake_stop (s : State) : s.stopIntake.rc.runState ≠ .running := by
  rw [(stopIntake_rest s).2.2.1]
  exact fun k => RunState.noConfusion k

/-- What each of its changes keeps, the stop keeps from the closing of the intakes on. -/
theorem StopKeeps.enterStopping {P : State → Prop} (keeps : StopKeeps P) {s : State} (h : P s.stopIntake) :
    P s.enterStopping := by
  have handed := forSources_keeps (P := P) (fun x _ => ifRun_keeps keeps.handGap x)
    (keeps.sealAll ⟨h, stopIntake_stop s⟩).1
  rw [enterStopping_eq, index_eq_does_one]
  exact keeps.test _ (keeps.recycleHeld handed)

/-! ### The run and the deadline timer (R32, R34) -/

@[simp] theorem handOver_rc (s : State) (src : Source) : (s.handOver src).1.rc = s.rc := by
  unfold State.handOver
  split <;> rfl

/-- While the run is STOPPING its deadline timer runs with the time given. -/
def TimerRuns (time : Nat) (s : State) : Prop := s.rc.runState = .stopping → s.rc.deadlineTimer = some time

theorem TimerRuns.congr {time : Nat} {s t : State} (h : TimerRuns time s) (state : t.rc.runState = s.rc.runState)
    (timer : t.rc.deadlineTimer = s.rc.deadlineTimer) : TimerRuns time t := by
  unfold TimerRuns at h ⊢
  rw [state, timer]
  exact h

theorem TimerRuns.task {time : Nat} {s : State} (h : TimerRuns time s) (t : IndexTask) : TimerRuns time (s.indexTask t).1 := by
  cases task_rc s t with
  | counts c same => exact h.congr (by rw [same]) (by rw [same])
  | ending _ same =>
    intro k
    rw [same] at k
    cases k
  | ends _ _ _ _ same =>
    intro k
    rw [same] at k
    cases k

theorem TimerRuns.release {time : Nat} {s : State} (h : TimerRuns time s) (slot : Nat) (cause : ReleaseCause) :
    TimerRuns time (s.release slot cause) := by
  obtain same | same := release_rc s slot cause
  · exact h.congr (by rw [same]) (by rw [same])
  · exact h.congr (by rw [same]) (by rw [same])

theorem timerRuns_keeps (time : Nat) : StopKeeps (TimerRuns time) where
  seals _ _ _ _ h _ := h
  release _ slot h := h.release slot .recycled
  hand s src h := h.congr (by rw [handOver_rc]) (by rw [handOver_rc])
  does _ ts _ h := does_keeps (fun _ t k => k.task t) ts h

theorem enterStopping_timer (s : State) : TimerRuns (1000 * s.rc.deadline) s.enterStopping :=
  (timerRuns_keeps _).enterStopping fun _ => by rw [(stopIntake_rest s).2.2.1]

/-- The timer has stopped where the run is STOPPING no more, and the laws of the run hold. -/
def TimerStops (more : Nat) (s : State) : Prop :=
  RunLawWith more s ∧ (s.rc.runState ≠ .stopping → s.rc.deadlineTimer = none)

theorem TimerStops.task {more : Nat} {s : State} (t : IndexTask) (h : TimerStops (t.ends + more) s) :
    TimerStops (endsOf (s.indexTask t).2 + more) (s.indexTask t).1 := by
  obtain ⟨law, stopped⟩ := h
  refine ⟨(shift_indexTask s t).law more law, fun other => ?_⟩
  cases task_rc s t with
  | counts c same =>
    rw [same] at other ⊢
    exact stopped other
  | ending _ same => rw [same]
  | ends n final _ _ same =>
    rw [same]
    refine stopped ?_
    have one := final_le_runEnds s.iu n
    rw [show (s.iu.buffers.get n).final = true from final] at one
    rw [law.ends.2 (by simp only [Bool.toNat_true] at one; omega)]
    exact fun k => RunState.noConfusion k

theorem TimerStops.does {s : State} {ts : List IndexTask} (h : TimerStops (endsOf ts) s) : TimerStops 0 (s.does ts) := by
  refine tasks_induction (P := fun s ts => TimerStops (endsOf ts) s → TimerStops 0 (s.does ts))
    (fun s h => by rwa [does_nil]) (fun s t ts ih h => ?_) s ts h
  rw [does_cons]
  refine ih ?_
  rw [endsOf_append]
  rw [endsOf_cons] at h
  exact h.task t

theorem endsOf_stopTasks {ts : List IndexTask} (h : StopTasks ts) : endsOf ts = 0 := by
  induction ts with
  | nil => rfl
  | cons t ts ih =>
    rw [endsOf_cons, ih fun x hx => h x (List.mem_cons_of_mem _ hx)]
    obtain rfl | ⟨src, rfl⟩ := h t (List.mem_cons_self ..) <;> rfl

theorem timerStops_keeps : StopKeeps (TimerStops 0) where
  seals _ _ _ _ h found := ⟨(within_sealRecord found).law 0 h.1, h.2⟩
  release s slot h := by
    refine ⟨(within_release s slot .recycled).law 0 h.1, ?_⟩
    obtain same | same := release_rc s slot .recycled
    · rw [same]; exact h.2
    · rw [same]; exact h.2
  hand s src h := by
    have ends : endsOf (s.handOver src).2 = 0 := endsOf_stopTasks (stopTasks_handOver s src)
    have law := (shift_handOver s src).law 0 h.1
    rw [ends] at law
    exact ⟨law, by rw [handOver_rc]; exact h.2⟩
  does _ ts stop h := by
    rw [← endsOf_stopTasks stop] at h
    exact h.does

theorem enterStopping_timer_stops {s : State} (running : s.rc.runState = .running) (law : RunLaw s) :
    TimerStops 0 s.enterStopping := by
  refine timerStops_keeps.enterStopping ⟨(within_stopIntake s running).law 0 law, fun k => ?_⟩
  rw [(stopIntake_rest s).2.2.1] at k
  exact absurd rfl k

/-! ### The intakes (R46, R51, R72) -/

/-- A source that takes no sample and has no tag pending goes on so. -/
def Shut (src : Source) (s : State) : Prop :=
  (s.intake src).intake.takes = false ∧ (s.intake src).tagPending = false ∧ (s.twu.get src).markPending = false

theorem Shut.congr {src : Source} {s t : State} (h : Shut src s) (ci : t.ci = s.ci) (twu : t.twu = s.twu) : Shut src t := by
  unfold Shut at h ⊢
  rw [State.intake, ci, twu]
  exact h

/-- A property of an intake that changes of occupancy and the tasks of the Index Unit keep. -/
structure IntakeKeeps (P : IntakeSource → Prop) : Prop where
  moved : ∀ i p q, P i → P (i.moved p q)
  idle : ∀ i, P i → i.intake = .closed → P { i with intake := .idle }
  handed : ∀ i g, P i → P { i with pendingGap := none, offeredGap := some g }
  admitted : ∀ i, P i → P { i with offeredGap := none }

theorem intake_of_ci {P : IntakeSource → Prop} {src : Source} {s t : State} (h : P (s.intake src)) (ci : t.ci = s.ci) :
    P (t.intake src) := by
  rw [State.intake, ci]
  exact h

theorem onIntake_keeps {P : IntakeSource → Prop} {src : Source} {s : State} (h : P (s.intake src)) (x : Source)
    {f : IntakeSource → IntakeSource} (step : P (s.intake x) → P (f (s.intake x))) : P ((s.onIntake x f).intake src) := by
  rw [State.intake_eq, State.onIntake_eq, State.setCi_ci, PerSource.get_set]
  split
  · next same =>
    subst same
    exact step h
  · exact h

namespace IntakeKeeps
variable {P : IntakeSource → Prop}

theorem occupancyChanged (keeps : IntakeKeeps P) {src : Source} {s : State} (h : P (s.intake src)) (u v : Nat) :
    P ((s.occupancyChanged u v).intake src) := by
  rw [occupancyChanged_intake]
  exact keeps.moved _ _ _ h

theorem release (keeps : IntakeKeeps P) {src : Source} {s : State} (h : P (s.intake src)) (slot : Nat) (cause : ReleaseCause) :
    P ((s.release slot cause).intake src) := by
  cases found : s.span? slot with
  | none => rwa [release_none found]
  | some sp =>
    rw [release_some found]
    exact keeps.occupancyChanged (s := (s.setSt (s.st.without slot sp)).onCounters cause.count) h _ _

theorem endRun (keeps : IntakeKeeps P) {src : Source} {s : State} (h : P (s.intake src)) (written : Bool) :
    P ((s.endRun written).intake src) := by
  have idle (x : Source) (u : State) (k : P (u.intake src)) : P (State.intake
      (if (u.intake x).intake = .closed then u.onIntake x fun i => { i with intake := .idle } else u) src) := by
    split
    · next closed => exact onIntake_keeps k x fun m => keeps.idle _ m closed
    · exact k
  have closed := forSources_keeps (P := fun u => P (u.intake src)) idle (s := s.setRc { s.rc with
      runState := .idle, lastEnd := if written then s.rc.provisional else .indexUnwritten }) h
  have ended (u : State) (k : P (u.intake src)) : P ((u.calmAll.setFlag .runEnded).intake src) :=
    intake_of_ci (s := u.calmAll) k (setFlag_ci _ _)
  exact ended _ closed

theorem blockDone (keeps : IntakeKeeps P) {src : Source} {s : State} (h : P (s.intake src)) (w : Writing) :
    P ((s.blockDone w).intake src) := by
  have flagged : P (((s.blockCleared w).setFlag .checkpointDone).intake src) :=
    intake_of_ci (s := s.blockCleared w) h (setFlag_ci _ _)
  have counted : P ((s.blockCounted w).intake src) := by
    unfold State.blockCounted
    split
    · exact intake_of_ci flagged rfl
    · exact flagged
  rw [blockDone_eq]
  split
  · exact keeps.endRun counted _
  · exact counted

theorem handOver (keeps : IntakeKeeps P) {src : Source} {s : State} (h : P (s.intake src)) (x : Source) :
    P ((s.handOver x).1.intake src) := by
  unfold State.handOver
  split
  · next g _ _ => exact onIntake_keeps h x fun m => keeps.handed _ g m
  · exact h

theorem handBack (keeps : IntakeKeeps P) {src : Source} {s : State} (h : P (s.intake src)) (o : Offer) :
    P ((s.handBack o).intake src) := by
  cases o with
  | span slot e => cases e <;> exact keeps.release h slot _
  | gap x => exact onIntake_keeps h x fun m => keeps.admitted _ m
  | runEnd e => exact h

theorem task (keeps : IntakeKeeps P) {src : Source} {s : State} (h : P (s.intake src)) (t : IndexTask) :
    P ((s.indexTask t).1.intake src) := by
  cases t with
  | offer o =>
    simp only [State.indexTask, State.takeOffer]
    split
    · cases o <;> exact h
    · split
      · exact h
      · next buf _ _ e _ => exact keeps.handBack (s := s.setBuffer buf ((s.buffer buf).append e o.isRunEnd)) h o
  | progress =>
    simp only [State.indexTask, State.progressOnce]
    split
    · split
      · exact h
      · exact keeps.blockDone h _
    · split
      · next n _ =>
        rw [becomeWriting_eq]
        split
        · exact intake_of_ci (s := s.toWriting n) h (setFlag_ci _ _)
        · exact h
      · exact h
  | refill =>
    simp only [State.indexTask, State.refillOnce]
    split
    · next o _ _ => cases o <;> exact h
    · exact h
  | handNext x =>
    simp only [State.indexTask]
    split
    · exact keeps.handOver h x
    · exact h
  | testEnding =>
    simp only [State.indexTask, State.testEnding]
    split <;> exact h

theorem does (keeps : IntakeKeeps P) {src : Source} {s : State} (h : P (s.intake src)) (ts : List IndexTask) :
    P ((s.does ts).intake src) := does_keeps (P := fun u => P (u.intake src)) (fun _ t k => keeps.task k t) ts h

end IntakeKeeps

theorem underPressure_takes (i : IntakeState) (q : Pressure) : (i.underPressure q).takes = i.takes := by
  cases i <;> cases q <;> rfl

/-- A change of pressure leaves whether a source takes, and its tag and gaps. -/
theorem moved_rest (i : IntakeSource) (p q : Pressure) :
    (i.moved p q).intake.takes = i.intake.takes ∧ (i.moved p q).tagPending = i.tagPending ∧
      (i.moved p q).pendingGap = i.pendingGap := by
  unfold IntakeSource.moved
  split
  · exact ⟨rfl, rfl, rfl⟩
  · split
    · exact ⟨underPressure_takes _ q, rfl, rfl⟩
    · exact ⟨rfl, rfl, rfl⟩

/-- An intake that takes no sample and has no tag pending. -/
def IntakeSource.IsShut (i : IntakeSource) : Prop := i.intake.takes = false ∧ i.tagPending = false

theorem isShut_keeps : IntakeKeeps IntakeSource.IsShut where
  moved i p q h := by
    obtain ⟨takes, tag, -⟩ := moved_rest i p q
    exact ⟨takes.trans h.1, tag.trans h.2⟩
  idle _ h _ := ⟨rfl, h.2⟩
  handed _ _ h := h
  admitted _ h := h

theorem Shut.of {src : Source} {s t : State} (h : Shut src s) (shut : (t.intake src).IsShut) (twu : t.twu = s.twu) :
    Shut src t := ⟨shut.1, shut.2, by rw [twu]; exact h.2.2⟩

theorem Shut.isShut {src : Source} {s : State} (h : Shut src s) : (s.intake src).IsShut := ⟨h.1, h.2.1⟩

theorem Shut.release {src : Source} {s : State} (h : Shut src s) (slot : Nat) (cause : ReleaseCause) :
    Shut src (s.release slot cause) := h.of (isShut_keeps.release h.isShut slot cause) (indexOnly_release s slot cause).twu

theorem Shut.handOver {src : Source} {s : State} (h : Shut src s) (x : Source) : Shut src (s.handOver x).1 :=
  h.of (isShut_keeps.handOver h.isShut x) (indexOnly_handOver s x).twu

theorem Shut.does {src : Source} {s : State} (h : Shut src s) (ts : List IndexTask) : Shut src (s.does ts) :=
  h.of (isShut_keeps.does h.isShut ts) (indexOnly_does s ts).twu

theorem shut_keeps (src : Source) : StopKeeps (Shut src) where
  seals _ _ _ _ h _ := h.congr rfl rfl
  release _ slot h := h.release slot .recycled
  hand _ x h := h.handOver x
  does _ ts _ h := h.does ts

/-! ### The intakes close (R32) -/

theorem closeSource_run {s : State} {src : Source} (run : s.rc.sourceSet.get src = true) :
    State.closeSource src s = s.closeIntake src := if_pos run

theorem closeSource_other {s : State} {src : Source} (run : s.rc.sourceSet.get src = false) :
    State.closeSource src s = s := if_neg (by rw [run]; exact Bool.false_ne_true)

theorem closeIntake_eq (s : State) (src : Source) :
    s.closeIntake src =
      { s with
        ci := s.ci.set src { s.intake src with intake := .closed, tagPending := false }
        twu := s.twu.set src { s.twu.get src with markPending := false } } := by
  cases src <;> rfl

/-- The closing of an intake, of a run source: what the intake becomes, and what it leaves of the others. -/
def State.closed (s : State) (src : Source) : IntakeSource :=
  if s.rc.sourceSet.get src then { s.intake src with intake := .closed, tagPending := false } else s.intake src

theorem closeSource_eq (s : State) (src : Source) :
    State.closeSource src s =
      { s with
        ci := s.ci.set src (s.closed src)
        twu := s.twu.set src
          (if s.rc.sourceSet.get src then { s.twu.get src with markPending := false } else s.twu.get src) } := by
  cases run : s.rc.sourceSet.get src with
  | true => rw [closeSource_run run, closeIntake_eq, State.closed, run]; rfl
  | false =>
    rw [closeSource_other run, State.closed, run]
    cases src <;> rfl

theorem stopIntake_intake (s : State) (src : Source) : s.stopIntake.intake src = s.closed src := by
  unfold State.stopIntake forSources
  simp only [closeSource_eq]
  cases src <;> rfl

theorem stopIntake_twu (s : State) (src : Source) : s.stopIntake.twu.get src =
    if s.rc.sourceSet.get src then { s.twu.get src with markPending := false } else s.twu.get src := by
  unfold State.stopIntake forSources
  simp only [closeSource_eq]
  cases src <;> rfl

theorem stopIntake_se (s : State) : s.stopIntake.se = s.se := by
  unfold State.stopIntake forSources
  simp only [closeSource_eq]
  rfl

theorem stopIntake_shut {s : State} {src : Source} (run : s.rc.sourceSet.get src = true) : Shut src s.stopIntake := by
  unfold Shut
  rw [stopIntake_intake, stopIntake_twu, State.closed, if_pos run, if_pos run]
  exact ⟨rfl, rfl, rfl⟩

theorem enterStopping_shut {s : State} {src : Source} (run : s.rc.sourceSet.get src = true) : Shut src s.enterStopping :=
  (shut_keeps src).enterStopping (stopIntake_shut run)

theorem enterStopping_state {s : State} : s.enterStopping.rc.runState = .stopping ∨ s.enterStopping.rc.runState = .ending ∨
    s.enterStopping.rc.runState = .idle := by
  have keeps : StopKeeps fun u => RunState.forward .stopping u.rc.runState = true := by
    exact {
      seals := fun _ _ _ _ h _ => h
      release := fun s slot h => RunState.forward_trans h (within_release s slot .recycled).kept.run
      hand := fun s src h => by rw [handOver_rc]; exact h
      does := fun s ts _ h => does_keeps (P := fun u => RunState.forward .stopping u.rc.runState = true)
        (fun u t k => RunState.forward_trans k (shift_indexTask u t).kept.run) ts h }
  have moved := keeps.enterStopping (s := s) (by rw [(stopIntake_rest s).2.2.1]; rfl)
  revert moved
  cases s.enterStopping.rc.runState <;> decide

end Sys2Proof.Machine

/-! What the stop leaves of the spans: HELD history goes, and a FILLING span is sealed (R32, R71). -/

namespace Sys2Proof.Machine

/-! ### The FILLING span of a source -/

/-- The slot holds a FILLING span of the source, and no lower slot does. -/
def FirstFilling (src : Source) (slot : Nat) (sp : Span) (s : State) : Prop :=
  s.span? slot = some sp ∧ sp.source = src ∧ sp.state = .filling ∧
    ∀ n y, n < slot → s.span? n = some y → ¬ (y.source = src ∧ y.state = .filling)

theorem slotsFrom_le {l : List (Nat × Span)} {low : Nat} (h : slotsFrom low l = true) {p : Nat × Span} (mem : p ∈ l) :
    low ≤ p.1 := by
  by_contra below
  have listed := findSlot_isSome_of_mem mem
  rw [findSlot_none_of_lt h (by omega)] at listed
  exact Bool.noConfusion listed

/-- The first listed span with a property is the one in the lowest slot that has it. -/
theorem find?_slots {l : List (Nat × Span)} {low : Nat} (h : slotsFrom low l = true) (f : Span → Bool) {slot : Nat} {sp : Span} :
    (l.find? fun p => f p.2) = some (slot, sp) ↔
      findSlot l slot = some sp ∧ f sp = true ∧ ∀ n y, n < slot → findSlot l n = some y → f y = false := by
  induction l generalizing low with
  | nil => simp [findSlot]
  | cons p rest ih =>
    obtain ⟨n, x⟩ := p
    have tail : slotsFrom (n + 1) rest = true := by
      simp only [slotsFrom, Bool.and_eq_true] at h
      exact h.2
    have above {k : Nat} {y : Span} (hy : findSlot rest k = some y) : n < k := slotsFrom_le tail (mem_of_findSlot hy)
    cases fx : f x with
    | true =>
      rw [List.find?_cons_of_pos (p := fun p : Nat × Span => f p.2) fx]
      constructor
      · intro same
        cases same
        refine ⟨if_pos rfl, fx, fun k y lower found => ?_⟩
        rw [findSlot, if_neg (by omega)] at found
        exact absurd (above found) (by omega)
      · rintro ⟨found, holds, first⟩
        rw [findSlot] at found
        split at found
        · next same => rw [Option.some.inj found, same]
        · have := first n x (above found) (if_pos rfl)
          rw [fx] at this
          exact Bool.noConfusion this
    | false =>
      rw [List.find?_cons_of_neg (p := fun p : Nat × Span => f p.2) (by simp [fx]), ih tail]
      constructor
      · rintro ⟨found, holds, first⟩
        have lower := above found
        refine ⟨?_, holds, fun k y below hy => ?_⟩
        · rw [findSlot, if_neg (by omega)]
          exact found
        · rw [findSlot] at hy
          split at hy
          · rw [← Option.some.inj hy]; exact fx
          · exact first k y below hy
      · rintro ⟨found, holds, first⟩
        rw [findSlot] at found
        split at found
        · rw [← Option.some.inj found, fx] at holds
          exact Bool.noConfusion holds
        · refine ⟨found, holds, fun k y below hy => first k y below ?_⟩
          rw [findSlot, if_neg (by have := above hy; omega)]
          exact hy

theorem filling_iff {s : State} (h : TableOk s.st) {src : Source} {slot : Nat} {sp : Span} :
    s.st.filling src = some (slot, sp) ↔ FirstFilling src slot sp s := by
  have key := find?_slots h.slots (fun y => decide (y.source = src) && decide (y.state = .filling)) (slot := slot) (sp := sp)
  rw [SpanTable.filling, key, FirstFilling]
  simp only [Bool.and_eq_true, decide_eq_true_eq, Bool.and_eq_false_iff, decide_eq_false_iff_not, not_and_or, and_assoc,
    State.span?]

/-- A span that stands, where records were only lost, is the first FILLING one still. -/
theorem FirstFilling.thins {src : Source} {slot : Nat} {sp : Span} {s t : State} (h : FirstFilling src slot sp s)
    (thins : Thins s t) (stands : t.span? slot = some sp) : FirstFilling src slot sp t := by
  obtain ⟨_, source, state, first⟩ := h
  exact ⟨stands, source, state, fun n y lower hy => first n y lower (thins.kept n y hy)⟩

/-! ### The seal of one source's span, seen from another span -/

theorem sealRecord_span_self (s : State) (src : Source) (slot : Nat) (sp : Span) :
    (s.sealRecord src slot sp).span? slot = some (sp.sealedAs ((s.se.get src).map Running.finish)) :=
  span?_enter_self _ _ _

theorem sealRecord_span_other (s : State) (src : Source) {slot n : Nat} (sp : Span) (h : n ≠ slot) :
    (s.sealRecord src slot sp).span? n = s.span? n := span?_enter_other _ _ h

theorem sealRecord_table {s : State} (h : TableOk s.st) {src : Source} {slot : Nat} {sp : Span}
    (found : s.st.filling src = some (slot, sp)) : TableOk (s.sealRecord src slot sp).st :=
  enter_table (s := s.setSummary src none) h ((filling_iff h).mp found).1

theorem thins_recycle {s : State} (h : TableOk s.st) (slot : Nat) : Thins s (s.recycle slot) := by
  have released := thins_release h slot .recycled
  rw [recycle_eq]
  exact released.trans (thins_does released.table _)

theorem thins_handGap {s : State} (h : TableOk s.st) (src : Source) : Thins s (s.handGap src) := by
  have handed : Thins s (s.handOver src).1 := .of_st h (handOver_st s src)
  rw [handGap_eq]
  exact handed.trans (thins_does handed.table _)

theorem recycle_span_self {s : State} (h : TableOk s.st) (slot : Nat) : (s.recycle slot).span? slot = none := by
  have released : (s.release slot .recycled).span? slot = none := by
    cases found : s.span? slot with
    | none => rwa [release_none found]
    | some sp =>
      rw [State.span?, release_st found]
      exact (findSlot_dropSlot s.st.slots slot slot 0 h.slots).trans (if_pos rfl)
  cases after : (s.recycle slot).span? slot with
  | none => rfl
  | some v =>
    rw [recycle_eq] at after
    have before := (thins_does (thins_release h slot .recycled).table _).kept slot v after
    rw [released] at before
    cases before

/-! ### History goes (R71) -/

/-- The slot is free, or holds a HELD span of the source. -/
def HeldOrGone (src : Source) (slot : Nat) (s : State) : Prop :=
  TableOk s.st ∧ ∀ y, s.span? slot = some y → y.source = src ∧ y.state = .held

theorem HeldOrGone.thins {src : Source} {slot : Nat} {s t : State} (h : HeldOrGone src slot s) (k : Thins s t) :
    HeldOrGone src slot t := ⟨k.table, fun y hy => h.2 y (k.kept slot y hy)⟩

theorem heldOrGone_keeps (src : Source) (slot : Nat) : StopKeeps (HeldOrGone src slot) where
  seals s x n sp h found := by
    obtain ⟨table, held⟩ := h
    have filling := (filling_iff table).mp found
    refine ⟨sealRecord_table table found, fun y hy => ?_⟩
    by_cases same : slot = n
    · subst same
      have k := (held sp filling.1).2
      rw [filling.2.2.1] at k
      cases k
    · rw [sealRecord_span_other _ _ _ same] at hy
      exact held y hy
  release s n h := h.thins (thins_release h.1 n .recycled)
  hand s x h := h.thins (.of_st h.1 (handOver_st s x))
  does s ts _ h := h.thins (thins_does h.1 ts)

/-- The slot is free. -/
def Gone (slot : Nat) (s : State) : Prop := TableOk s.st ∧ s.span? slot = none

theorem Gone.held {slot : Nat} {s : State} (h : Gone slot s) (src : Source) : HeldOrGone src slot s :=
  ⟨h.1, fun y hy => by rw [h.2] at hy; cases hy⟩

theorem Gone.thins {slot : Nat} {s t : State} (h : Gone slot s) (k : Thins s t) : Gone slot t := by
  refine ⟨k.table, ?_⟩
  cases after : t.span? slot with
  | none => rfl
  | some v =>
    have before := k.kept slot v after
    rw [h.2] at before
    cases before

/-- Every HELD span in a list of slots goes. -/
theorem recycle_all_gone {src : Source} {slot : Nat} (slots : List Nat) {s : State} (h : HeldOrGone src slot s)
    (listed : s.span? slot ≠ none → slot ∈ slots) : Gone slot (State.eachSlot State.recycle s slots) := by
  induction slots generalizing s with
  | nil => exact ⟨h.1, by_contra fun k => absurd (listed k) (by simp)⟩
  | cons n rest ih =>
    have thins := thins_recycle h.1 n
    refine ih (h.thins thins) fun stands => ?_
    have before : s.span? slot ≠ none := fun k => stands ((Gone.thins ⟨h.1, k⟩ thins).2)
    refine (List.mem_cons.mp (listed before)).resolve_left fun same => stands ?_
    rw [same]
    exact recycle_span_self h.1 n

theorem mem_inState {t : SpanTable} (h : TableOk t) {src : Source} {st : SpanState} {slot : Nat} :
    slot ∈ (t.inState src st).map Prod.fst ↔ ∃ sp, findSlot t.slots slot = some sp ∧ sp.source = src ∧ sp.state = st := by
  simp only [List.mem_map, SpanTable.mem_inState]
  constructor
  · rintro ⟨p, ⟨mem, source, state⟩, rfl⟩
    exact ⟨p.2, findSlot_of_mem h.slots mem, source, state⟩
  · rintro ⟨sp, found, source, state⟩
    exact ⟨(slot, sp), ⟨mem_of_findSlot found, source, state⟩, rfl⟩

theorem recycleAll_gone {src : Source} {slot : Nat} {s : State} (h : HeldOrGone src slot s) :
    Gone slot (s.recycleAll (s.st.inState src .held)) := by
  refine recycle_all_gone _ h fun stands => ?_
  obtain ⟨sp, found⟩ := Option.ne_none_iff_exists'.mp stands
  exact (mem_inState h.1).mpr ⟨sp, found, h.2 sp found⟩

theorem within_recycleHeld (src : Source) (s : State) :
    Within s (State.ifRun (fun s src => s.recycleAll (s.st.inState src .held)) src s) :=
  within_ifRun _ (fun s _ => within_recycleAll s _) src s

theorem thins_recycleAll {s : State} (h : TableOk s.st) (spans : List (Nat × Span)) : Thins s (s.recycleAll spans) :=
  eachSlot_keeps (P := Thins s) (fun _ slot k => k.trans (thins_recycle k.table slot)) _ (.refl h)

/-- The recycling of the held history of every run source. -/
theorem recycleHeld_gone {s : State} {src : Source} {slot : Nat} (run : s.rc.sourceSet.get src = true)
    (h : HeldOrGone src slot s) :
    Gone slot (forSources (State.ifRun fun s src => s.recycleAll (s.st.inState src .held)) s) := by
  refine forSources_focus (P := fun u => HeldOrGone src slot u ∧ u.rc.sourceSet.get src = true) (Q := Gone slot) src
    (fun x _ u k => ⟨?_, ?_⟩) (fun u k => ?_) (fun x _ u k => ?_) ⟨h, run⟩
  · exact ifRun_keeps (P := HeldOrGone src slot) (f := fun s src => s.recycleAll (s.st.inState src .held))
      (fun u x m => m.thins (thins_recycleAll m.1 _)) x k.1
  · rw [(within_recycleHeld x u).kept.sourceSet]
    exact k.2
  · rw [ifRun_of_run k.2]
    exact recycleAll_gone k.1
  · exact ifRun_keeps (P := Gone slot) (f := fun s src => s.recycleAll (s.st.inState src .held))
      (fun u x m => m.thins (thins_recycleAll m.1 _)) x k

theorem stopIntake_sources (s : State) : s.stopIntake.rc.sourceSet = s.rc.sourceSet := by
  rw [(stopIntake_rest s).2.2.1]

/-- A span that is HELD when the spans of the run have been sealed is gone after the stop. -/
theorem enterStopping_gone {s : State} {src : Source} {slot : Nat} (run : s.rc.sourceSet.get src = true)
    (h : HeldOrGone src slot (forSources (State.ifRun State.sealFilling) s.stopIntake)) :
    s.enterStopping.span? slot = none := by
  have kept : Within s.stopIntake (forSources (State.ifRun State.handGap)
      (forSources (State.ifRun State.sealFilling) s.stopIntake)) :=
    (within_forSources _ _ (within_ifRun _ within_sealFilling)).trans
      (within_forSources _ _ (within_ifRun _ within_handGap))
  have handed := forSources_keeps (P := HeldOrGone src slot)
    (fun x _ => ifRun_keeps (heldOrGone_keeps src slot).handGap x) h
  have gone := recycleHeld_gone (by rw [kept.kept.sourceSet, stopIntake_sources]; exact run) handed
  rw [enterStopping_eq, index_eq_does_one]
  exact (gone.thins (thins_does gone.1 _)).2

/-- A HELD span of a run source is gone after the stop. -/
theorem enterStopping_held {s : State} {src : Source} {slot : Nat} {sp : Span} (table : TableOk s.st)
    (run : s.rc.sourceSet.get src = true) (found : s.span? slot = some sp) (source : sp.source = src)
    (held : sp.state = .held) : s.enterStopping.span? slot = none := by
  have st := (stopIntake_rest s).1
  refine enterStopping_gone run ((heldOrGone_keeps src slot).sealAll ⟨⟨by rw [st]; exact table, fun y hy => ?_⟩,
    stopIntake_stop s⟩).1
  rw [State.span?, st, ← State.span?, found] at hy
  cases hy
  exact ⟨source, held⟩

/-! ### A FILLING span before its own seal -/

/-- The span is FILLING still, or its slot is free. -/
def FillingOrGone (src : Source) (slot : Nat) (sp : Span) (s : State) : Prop :=
  TableOk s.st ∧ (s.span? slot = none ∨ FirstFilling src slot sp s)

theorem FillingOrGone.thins {src : Source} {slot : Nat} {sp : Span} {s t : State} (h : FillingOrGone src slot sp s)
    (k : Thins s t) : FillingOrGone src slot sp t := by
  obtain ⟨table, gone | filling⟩ := h
  · exact ⟨k.table, .inl (Gone.thins ⟨table, gone⟩ k).2⟩
  · cases after : t.span? slot with
    | none => exact ⟨k.table, .inl after⟩
    | some v =>
      have before := k.kept slot v after
      rw [filling.1] at before
      cases before
      exact ⟨k.table, .inr (filling.thins k after)⟩

/-- The seal of another source's span leaves a FILLING span. -/
theorem FirstFilling.sealRecord {src x : Source} {slot n : Nat} {sp y : Span} {s : State} (h : FirstFilling src slot sp s)
    (table : TableOk s.st) (found : s.st.filling x = some (n, y)) (other : x ≠ src) :
    n ≠ slot ∧ FirstFilling src slot sp (s.sealRecord x n y) := by
  have filling := (filling_iff table).mp found
  obtain ⟨stands, source, state, first⟩ := h
  have apart : n ≠ slot := by
    rintro rfl
    have same := filling.1.symm.trans stands
    cases same
    exact other (filling.2.1.symm.trans source)
  refine ⟨apart, (sealRecord_span_other s x y apart.symm).trans stands, source, state, fun k z lower hz => ?_⟩
  by_cases same : k = n
  · subst same
    rw [sealRecord_span_self] at hz
    cases hz
    exact fun m => sealedAs_state y _ m.2
  · rw [sealRecord_span_other s x y same] at hz
    exact first k z lower hz

theorem FillingOrGone.sealFilling {src x : Source} {slot : Nat} {sp : Span} {s : State} (h : FillingOrGone src slot sp s)
    (stop : s.rc.runState ≠ .running) (other : x ≠ src) : FillingOrGone src slot sp (s.sealFilling x) := by
  cases found : s.st.filling x with
  | none => rwa [sealFilling_of_none found]
  | some p =>
    obtain ⟨n, y⟩ := p
    have sealed : FillingOrGone src slot sp (s.sealRecord x n y) := by
      obtain ⟨table, gone | filling⟩ := h
      · refine ⟨sealRecord_table table found, .inl ?_⟩
        have apart : slot ≠ n := by
          rintro rfl
          have listed := ((filling_iff table).mp found).1
          rw [gone] at listed
          cases listed
        rw [sealRecord_span_other s x y apart]
        exact gone
      · exact ⟨sealRecord_table table found, .inr (filling.sealRecord table found other).2⟩
    rw [sealFilling_of_stop found stop, sealSpan_eq]
    split
    · exact sealed.thins (thins_recycle sealed.1 n)
    · exact sealed

/-- Its own seal makes a FILLING span with retention HISTORY HELD, or recycles it. -/
theorem FillingOrGone.seal_history {src : Source} {slot : Nat} {sp : Span} {s : State} (h : FillingOrGone src slot sp s)
    (stop : s.rc.runState ≠ .running) (history : sp.retention = .history) :
    HeldOrGone src slot (s.sealFilling src) := by
  obtain ⟨table, gone | filling⟩ := h
  · exact ((heldOrGone_keeps src slot).sealFilling s src ⟨Gone.held ⟨table, gone⟩ src, stop⟩).1
  · have found := (filling_iff table).mpr filling
    have held : HeldOrGone src slot (s.sealRecord src slot sp) := by
      refine ⟨sealRecord_table table found, fun y hy => ?_⟩
      rw [sealRecord_span_self] at hy
      cases hy
      exact ⟨filling.2.1, if_pos history⟩
    rw [sealFilling_of_stop found stop, sealSpan_eq]
    split
    · exact (heldOrGone_keeps src slot).recycle slot held
    · exact held

theorem within_ifRun_seal (x : Source) (s : State) : Within s (State.ifRun State.sealFilling x s) :=
  within_ifRun _ within_sealFilling x s

/-- A FILLING span with retention HISTORY of a run source is gone after the stop. -/
theorem enterStopping_history {s : State} {src : Source} {slot : Nat} {sp : Span} (table : TableOk s.st)
    (run : s.rc.sourceSet.get src = true) (found : s.st.filling src = some (slot, sp)) (history : sp.retention = .history) :
    s.enterStopping.span? slot = none := by
  have st := (stopIntake_rest s).1
  refine enterStopping_gone run (forSources_focus
    (P := fun u => FillingOrGone src slot sp u ∧ u.rc.runState ≠ .running ∧ u.rc.sourceSet.get src = true)
    (Q := fun u => HeldOrGone src slot u ∧ u.rc.runState ≠ .running) src (fun x other u k => ?_) (fun u k => ?_)
    (fun x _ u k => ?_) ?_).1
  · obtain ⟨filling, stop, sources⟩ := k
    have within := within_ifRun_seal x u
    refine ⟨?_, forward_of_not_running stop within.kept.run, by rw [within.kept.sourceSet]; exact sources⟩
    unfold State.ifRun
    split
    · exact filling.sealFilling stop other
    · exact filling
  · obtain ⟨filling, stop, sources⟩ := k
    rw [ifRun_of_run sources]
    exact ⟨filling.seal_history stop history, forward_of_not_running stop (within_sealFilling u src).kept.run⟩
  · exact ifRun_keeps (P := fun u => HeldOrGone src slot u ∧ u.rc.runState ≠ .running)
      (heldOrGone_keeps src slot).sealFilling x k
  · have table' : TableOk s.stopIntake.st := by rw [st]; exact table
    refine ⟨⟨table', .inr ((filling_iff table').mp (by rw [st]; exact found))⟩, stopIntake_stop s, ?_⟩
    rw [stopIntake_sources]
    exact run

/-! ### With no span's entry waiting, the tasks of the stop leave the table -/

/-- None of the tasks is the offer of a span's entry. -/
def NoSpans (ts : List IndexTask) : Prop := ∀ t ∈ ts, ∀ slot e, t ≠ .offer (.span slot e)

theorem NoSpans.cons {t : IndexTask} {ts : List IndexTask} (h : NoSpans (t :: ts)) :
    (∀ slot e, t ≠ .offer (.span slot e)) ∧ NoSpans ts :=
  ⟨h t (List.mem_cons_self ..), fun x hx => h x (List.mem_cons_of_mem _ hx)⟩

theorem NoSpans.append {ts us : List IndexTask} (h : NoSpans ts) (k : NoSpans us) : NoSpans (ts ++ us) := fun t ht =>
  (List.mem_append.mp ht).elim (h t) (k t)

theorem StopTasks.noSpans {ts : List IndexTask} (h : StopTasks ts) : NoSpans ts := fun t ht slot e => by
  obtain rfl | ⟨src, rfl⟩ := h t ht <;> simp

theorem noSpans_handOver (s : State) (src : Source) : NoSpans (s.handOver src).2 := (stopTasks_handOver s src).noSpans

theorem nextWaiting_noSpan {s : State} (h : s.iu.waitSpans = []) {o : Offer} (next : s.nextWaiting = some o) (slot : Nat)
    (e : Entry) : o ≠ .span slot e := by
  rintro rfl
  unfold State.nextWaiting at next
  rw [h] at next
  dsimp only at next
  split at next
  · cases next
  · cases waits : s.iu.waitRunEnd with
    | none => rw [waits] at next; cases next
    | some x => rw [waits] at next; cases next

theorem blockDone_waitSpans (s : State) (w : Writing) : (s.blockDone w).iu.waitSpans = s.iu.waitSpans := by
  rw [(beside_blockDone s w).iu]
  rfl

/-- A task that offers no span's entry, with none waiting, brings about no such task and leaves none waiting. -/
theorem task_noSpans {s : State} {t : IndexTask} (h : ∀ slot e, t ≠ .offer (.span slot e)) (waits : s.iu.waitSpans = []) :
    (s.indexTask t).1.iu.waitSpans = [] ∧ NoSpans (s.indexTask t).2 := by
  have none : NoSpans [] := fun _ k => absurd k (by simp)
  cases t with
  | offer o =>
    simp only [State.indexTask, State.takeOffer]
    split
    · cases o with
      | span slot e => exact absurd rfl (h slot e)
      | gap x => exact ⟨waits, none⟩
      | runEnd e => exact ⟨waits, none⟩
    · split
      · exact ⟨waits, none⟩
      · refine ⟨by rw [handBack_iu]; exact waits, ?_⟩
        cases o <;> simp [NoSpans, Offer.after]
  | progress =>
    simp only [State.indexTask, State.progressOnce]
    split
    · split
      · exact ⟨waits, none⟩
      · exact ⟨by rw [blockDone_waitSpans]; exact waits, by simp [NoSpans]⟩
    · split
      · exact ⟨by rw [becomeWriting_iu]; exact waits, by simp [NoSpans]⟩
      · exact ⟨waits, none⟩
  | refill =>
    simp only [State.indexTask, State.refillOnce]
    split
    · next o _ next =>
      have other := nextWaiting_noSpan waits next
      refine ⟨?_, by simp [NoSpans, other]⟩
      cases o with
      | span slot e => exact absurd rfl (other slot e)
      | gap x => exact waits
      | runEnd e => exact waits
    · exact ⟨waits, none⟩
  | handNext x =>
    simp only [State.indexTask]
    split
    · refine ⟨?_, noSpans_handOver s x⟩
      unfold State.handOver
      split <;> exact waits
    · exact ⟨waits, none⟩
  | testEnding =>
    simp only [State.indexTask, State.testEnding]
    split
    · exact ⟨waits, by simp [NoSpans, State.enterEnding]⟩
    · exact ⟨waits, none⟩

theorem does_noSpans {s : State} {ts : List IndexTask} (h : NoSpans ts) (waits : s.iu.waitSpans = []) :
    (s.does ts).st = s.st ∧ (s.does ts).iu.waitSpans = [] := by
  refine tasks_induction (P := fun s ts => NoSpans ts → s.iu.waitSpans = [] →
    (s.does ts).st = s.st ∧ (s.does ts).iu.waitSpans = []) (fun s _ w => by rw [does_nil]; exact ⟨rfl, w⟩)
    (fun s t ts ih h w => ?_) s ts h waits
  obtain ⟨plain, rest⟩ := h.cons
  obtain ⟨after, more⟩ := task_noSpans plain w
  rw [does_cons]
  obtain ⟨st, waits⟩ := ih (more.append rest) after
  exact ⟨st.trans (task_st plain), waits⟩

theorem release_waitSpans (s : State) (slot : Nat) (cause : ReleaseCause) :
    (s.release slot cause).iu.waitSpans = s.iu.waitSpans := by
  rw [(beside_release s slot cause).iu]

/-- What a slot's recycling leaves, with no span's entry waiting. -/
theorem recycle_noSpans {s : State} (waits : s.iu.waitSpans = []) (slot : Nat) :
    (s.recycle slot).st = (s.release slot .recycled).st ∧ (s.recycle slot).iu.waitSpans = [] := by
  rw [recycle_eq]
  exact does_noSpans stopTasks_testEnding.noSpans (by rw [release_waitSpans]; exact waits)

theorem handGap_noSpans {s : State} (waits : s.iu.waitSpans = []) (src : Source) :
    (s.handGap src).st = s.st ∧ (s.handGap src).iu.waitSpans = [] := by
  have handed : (s.handOver src).1.iu.waitSpans = [] := by
    unfold State.handOver
    split <;> exact waits
  obtain ⟨st, w⟩ := does_noSpans (noSpans_handOver s src) handed
  rw [handGap_eq]
  exact ⟨st.trans (handOver_st s src), w⟩

/-! ### A span that is QUEUED at its seal (R10, R16) -/

/-- The slot holds the QUEUED span, in its source's queue, and no span's entry waits. -/
structure Stands (src : Source) (slot : Nat) (z : Span) (s : State) : Prop where
  table : TableOk s.st
  waits : s.iu.waitSpans = []
  found : s.span? slot = some z
  queued : slot ∈ s.st.queues.get src

theorem Stands.congr {src : Source} {slot : Nat} {z : Span} {s t : State} (h : Stands src slot z s) (st : t.st = s.st)
    (waits : t.iu.waitSpans = []) : Stands src slot z t :=
  ⟨st ▸ h.table, waits, by rw [State.span?, st]; exact h.found, st ▸ h.queued⟩

theorem without_queue (t : SpanTable) {n slot : Nat} (y : Span) {src : Source} (apart : slot ≠ n)
    (h : slot ∈ t.queues.get src) : slot ∈ (t.without n y).queues.get src := by
  unfold SpanTable.without
  rw [PerSource.get_set]
  split
  · next same =>
    subst same
    exact mem_queueRemove.mpr ⟨h, apart⟩
  · exact h

theorem Stands.recycle {src : Source} {slot : Nat} {z : Span} {s : State} (h : Stands src slot z s) {n : Nat}
    (apart : slot ≠ n) : Stands src slot z (s.recycle n) := by
  obtain ⟨st, waits⟩ := recycle_noSpans h.waits n
  cases found : s.span? n with
  | none =>
    rw [release_none found] at st
    exact h.congr st waits
  | some y =>
    rw [release_st found] at st
    refine ⟨(thins_recycle h.table n).table, waits, ?_, by rw [st]; exact without_queue _ _ apart h.queued⟩
    rw [State.span?, st]
    exact (findSlot_dropSlot s.st.slots n slot 0 h.table.slots).trans ((if_neg apart).trans h.found)

theorem Stands.handGap {src : Source} {slot : Nat} {z : Span} {s : State} (h : Stands src slot z s) (x : Source) :
    Stands src slot z (s.handGap x) := by
  obtain ⟨st, waits⟩ := handGap_noSpans h.waits x
  exact h.congr st waits

theorem Stands.recycle_all {src : Source} {slot : Nat} {z : Span} (slots : List Nat) {s : State} (h : Stands src slot z s)
    (apart : slot ∉ slots) : Stands src slot z (State.eachSlot State.recycle s slots) := by
  induction slots generalizing s with
  | nil => exact h
  | cons n rest ih =>
    rw [List.mem_cons, not_or] at apart
    exact ih (h.recycle apart.1) apart.2

theorem Stands.recycleAll {src : Source} {slot : Nat} {z : Span} {s : State} (h : Stands src slot z s)
    (queued : z.state = .queued) (x : Source) : Stands src slot z (s.recycleAll (s.st.inState x .held)) := by
  refine h.recycle_all _ fun mem => ?_
  obtain ⟨y, found, _, held⟩ := (mem_inState h.table).mp mem
  have same := found.symm.trans h.found
  cases same
  rw [queued] at held
  cases held

theorem sealRecord_queue_other (s : State) {src x : Source} (n : Nat) (y : Span) (source : y.source = x) (other : x ≠ src) :
    (s.sealRecord x n y).st.queues.get src = s.st.queues.get src := by
  unfold State.sealRecord State.enter
  simp only [State.setSt_st, State.setSummary]
  rw [PerSource.get_set, if_neg (by rw [sealedAs_source, source]; exact other.symm)]
  rfl

theorem Stands.sealFilling {src x : Source} {slot : Nat} {z : Span} {s : State} (h : Stands src slot z s)
    (queued : z.state = .queued) (other : x ≠ src) (stop : s.rc.runState ≠ .running) :
    Stands src slot z (s.sealFilling x) := by
  cases found : s.st.filling x with
  | none => rwa [sealFilling_of_none found]
  | some p =>
    obtain ⟨n, y⟩ := p
    have filling := (filling_iff h.table).mp found
    have apart : slot ≠ n := by
      rintro rfl
      have same := filling.1.symm.trans h.found
      cases same
      have k := filling.2.2.1
      rw [queued] at k
      cases k
    have sealed : Stands src slot z (s.sealRecord x n y) :=
      ⟨sealRecord_table h.table found, h.waits, (sealRecord_span_other s x y apart).trans h.found, by
        rw [sealRecord_queue_other s n y filling.2.1 other]; exact h.queued⟩
    rw [sealFilling_of_stop found stop, sealSpan_eq]
    split
    · exact sealed.recycle apart
    · exact sealed

/-- The slot holds the FILLING span, its summary is the one given, and no span's entry waits. -/
structure Fills (src : Source) (slot : Nat) (sp : Span) (summary : Option Running) (s : State) : Prop where
  table : TableOk s.st
  waits : s.iu.waitSpans = []
  filling : FirstFilling src slot sp s
  summary : s.se.get src = summary
  stop : s.rc.runState ≠ .running
  run : s.rc.sourceSet.get src = true

theorem sealRecord_se_other (s : State) {src x : Source} (n : Nat) (y : Span) (other : x ≠ src) :
    (s.sealRecord x n y).se.get src = s.se.get src := by
  unfold State.sealRecord State.enter State.setSummary
  simp only [State.setSt_se, State.setSe_se, PerSource.get_set, if_neg other.symm]

theorem recycle_se (s : State) (slot : Nat) : (s.recycle slot).se = s.se := by
  rw [recycle_eq]
  exact ((indexOnly_release s slot .recycled).trans (indexOnly_does _ _)).se

theorem Fills.sealFilling {src x : Source} {slot : Nat} {sp : Span} {m : Option Running} {s : State}
    (h : Fills src slot sp m s) (other : x ≠ src) : Fills src slot sp m (s.sealFilling x) := by
  have within := within_sealFilling s x
  have stop := forward_of_not_running h.stop within.kept.run
  have run : (s.sealFilling x).rc.sourceSet.get src = true := by rw [within.kept.sourceSet]; exact h.run
  cases found : s.st.filling x with
  | none => rwa [sealFilling_of_none found]
  | some p =>
    obtain ⟨n, y⟩ := p
    obtain ⟨apart, filling⟩ := h.filling.sealRecord h.table found other
    have table := sealRecord_table h.table found
    have summary := (sealRecord_se_other s n y other).trans h.summary
    rw [sealFilling_of_stop found h.stop, sealSpan_eq] at stop run ⊢
    split at stop
    case isFalse plain =>
      rw [if_neg plain] at run ⊢
      exact ⟨table, h.waits, filling, summary, stop, run⟩
    case isTrue history =>
      rw [if_pos history] at run ⊢
      obtain ⟨st, waits⟩ := recycle_noSpans (s := s.sealRecord x n y) h.waits n
      have thins := thins_recycle table n
      refine ⟨thins.table, waits, filling.thins thins ?_, by rw [recycle_se]; exact summary, stop, run⟩
      rw [State.span?, st, release_st (sealRecord_span_self s x n y)]
      exact (findSlot_dropSlot _ n slot 0 table.slots).trans ((if_neg apart.symm).trans filling.1)

theorem Fills.seal {src : Source} {slot : Nat} {sp : Span} {m : Option Running} {s : State} (h : Fills src slot sp m s)
    (keep : sp.retention ≠ .history) : Stands src slot (sp.sealedAs (m.map Running.finish)) (s.sealFilling src) := by
  have found := (filling_iff h.table).mpr h.filling
  rw [sealFilling_of_stop found h.stop, sealSpan_eq, if_neg fun k => keep k.1]
  refine ⟨sealRecord_table h.table found, h.waits, by rw [sealRecord_span_self, h.summary], ?_⟩
  unfold State.sealRecord State.enter
  simp only [State.setSt_st]
  have queued (m : Option Summary) : (sp.sealedAs m).state = .queued := if_neg keep
  rw [PerSource.get_set, if_pos (by rw [sealedAs_source]; exact h.filling.2.1.symm), if_pos (queued _)]
  exact mem_queueInsert.mpr (.inl rfl)

/-- A FILLING span of a run source, of another retention, is QUEUED after the stop. -/
theorem enterStopping_queued {s : State} {src : Source} {slot : Nat} {sp : Span} (table : TableOk s.st)
    (run : s.rc.sourceSet.get src = true) (found : s.st.filling src = some (slot, sp)) (keep : sp.retention ≠ .history)
    (waits : s.iu.waitSpans = []) :
    Stands src slot (sp.sealedAs ((s.se.get src).map Running.finish)) s.enterStopping := by
  obtain ⟨st, iu, -⟩ := stopIntake_rest s
  let z := sp.sealedAs ((s.se.get src).map Running.finish)
  have queued : z.state = .queued := if_neg keep
  have table' : TableOk s.stopIntake.st := by rw [st]; exact table
  have filled : Fills src slot sp (s.se.get src) s.stopIntake :=
    ⟨table', by rw [iu]; exact waits, (filling_iff table').mp (by rw [st]; exact found), by rw [stopIntake_se],
      stopIntake_stop s, by rw [stopIntake_sources]; exact run⟩
  have sealed := forSources_focus (f := State.ifRun State.sealFilling) (P := Fills src slot sp (s.se.get src))
    (Q := fun u => Stands src slot z u ∧ u.rc.runState ≠ .running) src (fun x other u k => by
      unfold State.ifRun
      split
      · exact k.sealFilling other
      · exact k) (fun u k => by
      rw [ifRun_of_run k.run]
      exact ⟨k.seal keep, forward_of_not_running k.stop (within_sealFilling u src).kept.run⟩) (fun x other u k => by
      unfold State.ifRun
      split
      · exact ⟨k.1.sealFilling queued other k.2, forward_of_not_running k.2 (within_sealFilling u x).kept.run⟩
      · exact k) filled
  have handed := forSources_keeps (P := Stands src slot z) (fun x _ => ifRun_keeps (fun _ x k => k.handGap x) x) sealed.1
  have recycled := forSources_keeps (P := Stands src slot z) (fun x _ => ifRun_keeps
    (f := fun s src => s.recycleAll (s.st.inState src .held)) (fun _ x k => k.recycleAll queued x) x) handed
  obtain ⟨same, none⟩ := does_noSpans stopTasks_testEnding.noSpans recycled.waits
  rw [enterStopping_eq, index_eq_does_one]
  exact recycled.congr same none

end Sys2Proof.Machine

/-! The gaps and the index at the stop of a run: a gap admitted or waiting, and the entry to ENDING (R33, R34, R55, R57, R168). -/

namespace Sys2Proof.Machine

/-! ### With no buffer that can take an entry, every offer waits -/

/-- The tasks offer, or test the ending. -/
def OffersOnly (ts : List IndexTask) : Prop := ∀ t ∈ ts, t = .testEnding ∨ ∃ o, t = .offer o

theorem StopTasks.offersOnly {ts : List IndexTask} (h : StopTasks ts) : OffersOnly ts := fun t ht =>
  (h t ht).imp_right fun ⟨_, k⟩ => ⟨_, k⟩

theorem wait_ci (s : State) (o : Offer) : (s.wait o).ci = s.ci := by cases o <;> rfl

theorem does_full {s : State} {ts : List IndexTask} (h : OffersOnly ts) (full : s.target = none) :
    (s.does ts).target = none ∧ (s.does ts).ci = s.ci := by
  refine tasks_induction (P := fun s ts => OffersOnly ts → s.target = none →
    (s.does ts).target = none ∧ (s.does ts).ci = s.ci) (fun s _ full => by rw [does_nil]; exact ⟨full, rfl⟩)
    (fun s t ts ih h full => ?_) s ts h full
  have rest : OffersOnly ts := fun x hx => h x (List.mem_cons_of_mem _ hx)
  rw [does_cons]
  obtain rfl | ⟨o, rfl⟩ := h t (List.mem_cons_self ..)
  · by_cases ends : s.rc.runState = .stopping ∧ s.st.slots = [] ∧ s.noGaps
    · have step : s.testEnding = s.enterEnding := if_pos ends
      have more : OffersOnly ((s.indexTask .testEnding).2 ++ ts) := by
        simp only [State.indexTask, step]
        intro x hx
        obtain rfl | hx := List.mem_cons.mp hx
        · exact .inr ⟨_, rfl⟩
        · exact rest x hx
      simp only [State.indexTask, step] at ih ⊢
      simp only [State.indexTask, step] at more
      exact ih more full
    · have step : s.testEnding = (s, []) := if_neg ends
      simp only [State.indexTask, step, List.nil_append] at ih ⊢
      exact ih rest full
  · have step : s.takeOffer o = (s.wait o, []) := by rw [State.takeOffer, full]
    simp only [State.indexTask, step, List.nil_append] at ih ⊢
    obtain ⟨target, ci⟩ := ih rest ((wait_target s o).trans full)
    exact ⟨target, ci.trans (wait_ci s o)⟩

/-- The gaps of a source stand, and no buffer can take an entry. -/
def GapsStand (src : Source) (pending offered : Option Gap) (s : State) : Prop :=
  s.target = none ∧ (s.intake src).pendingGap = pending ∧ (s.intake src).offeredGap = offered

theorem GapsStand.does {src : Source} {p o : Option Gap} {s : State} {ts : List IndexTask} (h : GapsStand src p o s)
    (stop : StopTasks ts) : GapsStand src p o (s.does ts) := by
  obtain ⟨target, ci⟩ := does_full stop.offersOnly h.1
  refine ⟨target, ?_, ?_⟩
  · rw [State.intake, ci]; exact h.2.1
  · rw [State.intake, ci]; exact h.2.2

theorem gapsStand_seals (src : Source) (p o : Option Gap) : SealKeeps (GapsStand src p o) where
  seals _ _ _ _ h _ := h
  release s slot h := by
    have beside := beside_release s slot .recycled
    exact ⟨(target_congr (congrArg IndexUnit.buffers beside.iu)).trans h.1, (beside.pendingGap src).trans h.2.1,
      (beside.offered src).trans h.2.2⟩
  test _ h := h.does stopTasks_testEnding

theorem handOver_some {s : State} {src : Source} {g : Gap} (pending : (s.intake src).pendingGap = some g)
    (offered : (s.intake src).offeredGap = none) :
    s.handOver src =
      (s.onIntake src fun i => { i with pendingGap := none, offeredGap := some g }, [.offer (.gap src)]) := by
  rw [State.handOver, pending, offered]

theorem handOver_not {s : State} {src : Source}
    (h : (s.intake src).pendingGap = none ∨ (s.intake src).offeredGap ≠ none) : s.handOver src = (s, []) := by
  unfold State.handOver
  split
  · next g pending offered =>
    obtain h | h := h
    · rw [pending] at h
      cases h
    · exact absurd offered h
  · rfl

theorem handGap_not {s : State} {src : Source}
    (h : (s.intake src).pendingGap = none ∨ (s.intake src).offeredGap ≠ none) : s.handGap src = s := by
  rw [handGap_eq, handOver_not h, does_nil]

theorem intake_onIntake_other (s : State) {src x : Source} (f : IntakeSource → IntakeSource) (other : src ≠ x) :
    (s.onIntake x f).intake src = s.intake src := by
  rw [State.intake_eq, State.onIntake_eq, State.setCi_ci, PerSource.get_set, if_neg other]
  rfl

theorem intake_onIntake_self (s : State) (src : Source) (f : IntakeSource → IntakeSource) :
    (s.onIntake src f).intake src = f (s.intake src) := by
  rw [State.intake_eq, State.onIntake_eq, State.setCi_ci, PerSource.get_set, if_pos rfl]
  rfl

theorem handOver_other (s : State) {src x : Source} (other : src ≠ x) : (s.handOver x).1.intake src = s.intake src := by
  unfold State.handOver
  split
  · exact intake_onIntake_other s _ other
  · rfl

theorem handOver_target (s : State) (x : Source) : (s.handOver x).1.target = s.target := by
  unfold State.handOver
  split <;> rfl

theorem GapsStand.handGap_other {src x : Source} {p o : Option Gap} {s : State} (h : GapsStand src p o s) (other : src ≠ x) :
    GapsStand src p o (s.handGap x) := by
  rw [handGap_eq]
  refine GapsStand.does ⟨(handOver_target s x).trans h.1, ?_, ?_⟩ (stopTasks_handOver s x)
  · rw [handOver_other s other]; exact h.2.1
  · rw [handOver_other s other]; exact h.2.2

/-- A pending gap is handed over where the source has none offered. -/
theorem GapsStand.handGap_self {src : Source} {g : Gap} {o : Option Gap} {s : State} (h : GapsStand src (some g) o s) :
    GapsStand src (if o = none then none else some g) (if o = none then some g else o) (s.handGap src) := by
  obtain ⟨full, pending, offered⟩ := h
  cases o with
  | none =>
    rw [handGap_eq, handOver_some pending offered]
    refine GapsStand.does ⟨full, ?_, ?_⟩ fun t ht => .inr ⟨src, List.mem_singleton.mp ht⟩
    · rw [intake_onIntake_self]; rfl
    · rw [intake_onIntake_self]; rfl
  | some k =>
    rw [handGap_not (.inr (by rw [offered]; exact Option.some_ne_none k))]
    exact ⟨full, pending, offered⟩

theorem closed_gaps (s : State) (src : Source) :
    (s.closed src).pendingGap = (s.intake src).pendingGap ∧ (s.closed src).offeredGap = (s.intake src).offeredGap := by
  unfold State.closed
  split <;> exact ⟨rfl, rfl⟩

theorem stopIntake_target (s : State) : s.stopIntake.target = s.target :=
  target_congr (congrArg IndexUnit.buffers (stopIntake_rest s).2.1)

theorem ifRun_at {P : State → Prop} {f : State → Source → State} {x : Source} {s : State} (step : P (f s x)) (h : P s) :
    P (State.ifRun f x s) := by
  unfold State.ifRun
  split
  · exact step
  · exact h

/-- The gaps of a run source after the stop, with no buffer that can take an entry. -/
theorem enterStopping_gaps {s : State} {src : Source} {g : Gap} (run : s.rc.sourceSet.get src = true)
    (full : s.target = none) (pending : (s.intake src).pendingGap = some g) :
    GapsStand src (if (s.intake src).offeredGap = none then none else some g)
      (if (s.intake src).offeredGap = none then some g else (s.intake src).offeredGap) s.enterStopping := by
  obtain ⟨samePending, sameOffered⟩ := closed_gaps s src
  have keeps := gapsStand_seals src
  have closed : GapsStand src (some g) (s.intake src).offeredGap s.stopIntake :=
    ⟨(stopIntake_target s).trans full, by rw [stopIntake_intake, samePending, pending],
      by rw [stopIntake_intake, sameOffered]⟩
  have sealed := ((keeps _ _).sealAll ⟨closed, stopIntake_stop s⟩).1
  have sources : (forSources (State.ifRun State.sealFilling) s.stopIntake).rc.sourceSet.get src = true := by
    rw [(within_forSources _ _ (within_ifRun _ within_sealFilling)).kept.sourceSet, stopIntake_sources]
    exact run
  have handed := forSources_focus (f := State.ifRun State.handGap)
    (P := fun u => GapsStand src (some g) (s.intake src).offeredGap u ∧ u.rc.sourceSet.get src = true)
    (Q := GapsStand src (if (s.intake src).offeredGap = none then none else some g)
      (if (s.intake src).offeredGap = none then some g else (s.intake src).offeredGap)) src (fun x other u k => by
      refine ⟨?_, by rw [(within_ifRun _ within_handGap x u).kept.sourceSet]; exact k.2⟩
      exact ifRun_at (k.1.handGap_other other.symm) k.1) (fun u k => by
      rw [ifRun_of_run k.2]
      exact k.1.handGap_self) (fun x other u k =>
      ifRun_at (k.handGap_other other.symm) k) ⟨sealed, sources⟩
  rw [enterStopping_eq, index_eq_does_one]
  exact ((keeps _ _).recycleHeld handed).does stopTasks_testEnding

/-! ### A gap's entry is admitted (R55, R57, R159) -/

theorem append_room {v : IndexBuffer} (e : Entry) (room : v.entries.length + 1 < 63) :
    v.append e false = { state := .filling, entries := v.entries ++ [e], final := v.final } := by
  simp [IndexBuffer.append, Config.entriesPerBlock]
  omega

theorem buffer_admits_self (u : IndexUnit) (buf : BufferName) (e : Entry) :
    (u.admits buf e).buffers.get buf =
      { state := .filling, entries := (u.buffers.get buf).entries ++ [e], final := (u.buffers.get buf).final } :=
  PerBuffer.get_set_self _ _ _

theorem buffer_admits_other (u : IndexUnit) {buf n : BufferName} (e : Entry) (h : buf ≠ n) :
    (u.admits buf e).buffers.get n = u.buffers.get n := PerBuffer.get_set_ne _ _ h

theorem IndexRests.admits {u : IndexUnit} (h : IndexRests u) (buf : BufferName) (e : Entry) : IndexRests (u.admits buf e) := by
  refine ⟨h.owed, fun idle n => ?_⟩
  by_cases same : buf = n
  · rw [← same, buffer_admits_self]
    simp
  · rw [buffer_admits_other u e same]
    exact h.closed idle n

theorem target_buffer {s : State} {buf : BufferName} (h : s.target = some buf) :
    (s.buffer buf).state = .filling ∨
      (s.buffer buf).state = .empty ∧ ∀ n, (s.buffer n).state ≠ .filling := by
  unfold State.target at h
  split at h
  · next k => cases h; exact .inl k
  · next a =>
    split at h
    · next k => cases h; exact .inl k
    · next b =>
      have none (n : BufferName) : (s.buffer n).state ≠ .filling := by
        cases n with
        | a => exact a
        | b => exact b
      split at h
      · next k => cases h; exact .inr ⟨k, none⟩
      · split at h
        · next k => cases h; exact .inr ⟨k, none⟩
        · cases h

theorem target_of_filling {s : State} {buf : BufferName} (h : (s.buffer buf).state = .filling)
    (other : buf = .b → (s.buffer .a).state ≠ .filling) : s.target = some buf := by
  unfold State.target
  cases buf with
  | a => rw [if_pos h]
  | b => rw [if_neg (other rfl), if_pos h]

/-- The buffer that took an entry takes the next one. -/
theorem target_admits {s t : State} {buf : BufferName} {e : Entry} (h : s.target = some buf)
    (iu : t.iu.buffers = (s.iu.admits buf e).buffers) : t.target = some buf := by
  have self : (t.buffer buf).state = .filling := by
    rw [State.buffer, iu, buffer_admits_self]
  refine target_of_filling self fun b => ?_
  subst b
  rw [State.buffer, iu, buffer_admits_other s.iu e (by decide)]
  intro a
  have first : s.target = some .a := if_pos a
  rw [first] at h
  cases h

/-- A source's offered gap has been admitted to a buffer that it does not fill. -/
def State.gapIn (s : State) (src : Source) (g : Gap) (buf : BufferName) : State :=
  { s with
    ci := s.ci.set src { s.intake src with offeredGap := none }
    iu := s.iu.admits buf (g.entry src (s.rc.runId.getD 0)) }

theorem admitted_gap {s : State} (src : Source) (g : Gap) {buf : BufferName}
    (room : (s.buffer buf).entries.length + 1 < 63) :
    s.admitted (.gap src) buf (g.entry src (s.rc.runId.getD 0)) = s.gapIn src g buf := by
  have filled : (s.buffer buf).append (g.entry src (s.rc.runId.getD 0)) (Offer.gap src).isRunEnd = _ := append_room _ room
  rw [State.admitted, filled]
  cases src <;> rfl

theorem offer_gap {s : State} {src : Source} {g : Gap} {buf : BufferName} (offered : (s.intake src).offeredGap = some g)
    (target : s.target = some buf) (room : (s.buffer buf).entries.length + 1 < 63) (rests : IndexRests s.iu)
    (ts : List IndexTask) :
    s.does (.offer (.gap src) :: ts) = (s.gapIn src g buf).does (.handNext src :: .testEnding :: ts) := by
  have entry : s.offerEntry (.gap src) = some (g.entry src (s.rc.runId.getD 0)) := by
    rw [State.offerEntry, offered]
    rfl
  rw [does_offer_admitted ts target entry, admitted_gap src g room]
  exact does_progress_rests _ (rests.admits buf _)

theorem does_handNext_skip {s : State} {src : Source} (ts : List IndexTask)
    (h : (s.intake src).intake ≠ .closed ∨ (s.intake src).pendingGap = none) : s.does (.handNext src :: ts) = s.does ts := by
  have step : s.indexTask (.handNext src) = (s, []) := by
    simp only [State.indexTask]
    split
    · next closed => exact handOver_not (.inl (h.resolve_left fun k => k closed))
    · rfl
  rw [does_cons, step]
  rfl

theorem does_handNext_hands {s : State} {src : Source} {g : Gap} (ts : List IndexTask)
    (closed : (s.intake src).intake = .closed) (pending : (s.intake src).pendingGap = some g)
    (offered : (s.intake src).offeredGap = none) :
    s.does (.handNext src :: ts) =
      (s.onIntake src fun i => { i with pendingGap := none, offeredGap := some g }).does (.offer (.gap src) :: ts) := by
  have step : s.indexTask (.handNext src) = s.handOver src := if_pos closed
  rw [does_cons, step, handOver_some pending offered]
  rfl

theorem gapIn_intake (s : State) (src : Source) (g : Gap) (buf : BufferName) :
    (s.gapIn src g buf).intake src = { s.intake src with offeredGap := none } := PerSource.get_set_self _ _ _

theorem gapIn_buffer (s : State) (src : Source) (g : Gap) (buf : BufferName) :
    ((s.gapIn src g buf).buffer buf).entries = (s.buffer buf).entries ++ [g.entry src (s.rc.runId.getD 0)] :=
  congrArg IndexBuffer.entries (buffer_admits_self s.iu buf _)

/-- A gap's admission where no further gap follows it. -/
theorem offer_gap_last {s : State} {src : Source} {g : Gap} {buf : BufferName}
    (offered : (s.intake src).offeredGap = some g) (target : s.target = some buf)
    (room : (s.buffer buf).entries.length + 1 < 63) (rests : IndexRests s.iu)
    (last : (s.intake src).intake ≠ .closed ∨ (s.intake src).pendingGap = none) (ts : List IndexTask) :
    s.does (.offer (.gap src) :: ts) = (s.gapIn src g buf).does (.testEnding :: ts) := by
  rw [offer_gap offered target room rests, does_handNext_skip]
  rw [gapIn_intake]
  exact last

/-! ### The pending gaps at the stop, with room in the buffer that can take them -/

/-- The entry of a run source's pending gap, where it has none offered. -/
def State.handsAtStop (s : State) (src : Source) : Option Entry :=
  if s.rc.sourceSet.get src = true ∧ (s.intake src).offeredGap = none then
    (s.intake src).pendingGap.map fun g => g.entry src (s.rc.runId.getD 0)
  else none

/-- The stop has handed over the gaps of the sources in a list. -/
structure Handed (s : State) (buf : BufferName) (done : List Source) (u : State) : Prop where
  target : u.target = some buf
  rests : IndexRests u.iu
  entries : (u.buffer buf).entries = (s.buffer buf).entries ++ done.filterMap s.handsAtStop
  runId : u.rc.runId = s.rc.runId
  sources : u.rc.sourceSet = s.rc.sourceSet
  left : ∀ src, src ∉ done → (u.intake src).pendingGap = (s.intake src).pendingGap ∧
    (u.intake src).offeredGap = (s.intake src).offeredGap
  gone : ∀ src, src ∈ done → s.rc.sourceSet.get src = true → (s.intake src).offeredGap = none →
    (u.intake src).pendingGap = none ∧ (u.intake src).offeredGap = none

theorem Handed.congr {s : State} {buf : BufferName} {done : List Source} {u v : State} (h : Handed s buf done u)
    (iu : v.iu = u.iu) (runId : v.rc.runId = u.rc.runId) (sources : v.rc.sourceSet = u.rc.sourceSet)
    (gaps : ∀ src, (v.intake src).pendingGap = (u.intake src).pendingGap ∧
      (v.intake src).offeredGap = (u.intake src).offeredGap) : Handed s buf done v where
  target := (target_congr (congrArg IndexUnit.buffers iu)).trans h.target
  rests := iu ▸ h.rests
  entries := by rw [State.buffer, iu]; exact h.entries
  runId := runId.trans h.runId
  sources := sources.trans h.sources
  left src k := by rw [(gaps src).1, (gaps src).2]; exact h.left src k
  gone src k run offered := by rw [(gaps src).1, (gaps src).2]; exact h.gone src k run offered

/-- As long as the run stays STOPPING, its gaps are handed over so. -/
def HandedIf (s : State) (buf : BufferName) (done : List Source) (u : State) : Prop :=
  u.rc.runState ≠ .running ∧ (u.rc.runState = .stopping → Handed s buf done u)

theorem stopping_before {s t : State} (stop : s.rc.runState ≠ .running) (kept : Kept s t)
    (stopping : t.rc.runState = .stopping) : s.rc.runState = .stopping := by
  have moved := kept.run
  rw [stopping] at moved
  revert stop moved
  cases s.rc.runState <;> decide

/-- The test of R33 that leaves the run STOPPING changes nothing. -/
theorem testEnding_stays {s : State} (stopping : (s.does [.testEnding]).rc.runState = .stopping) :
    s.does [.testEnding] = s := by
  by_cases ends : s.rc.runState = .stopping ∧ s.st.slots = [] ∧ s.noGaps = true
  · rw [does_testEnding_ends [] ends.1 ends.2.1 ends.2.2] at stopping
    have moved := does_keeps (P := fun u => RunState.forward .ending u.rc.runState = true)
      (fun u t k => RunState.forward_trans k (shift_indexTask u t).kept.run) [.offer (.runEnd s.rc.endEntry)]
      (s := s.enterEnding.1) rfl
    rw [stopping] at moved
    exact absurd moved (by decide)
  · have step : s.testEnding = (s, []) := if_neg ends
    rw [does_testEnding, step, List.nil_append, does_nil]

theorem within_test (s : State) : Within s (s.does [.testEnding]) := by
  rw [← index_eq_does_one]
  exact within_index _ _ rfl

theorem handedIf_seals (s : State) (buf : BufferName) (done : List Source) : SealKeeps (HandedIf s buf done) where
  seals _ _ _ _ h _ := ⟨h.1, fun k => (h.2 k).congr rfl rfl rfl fun _ => ⟨rfl, rfl⟩⟩
  release u slot h := by
    have kept := (within_release u slot .recycled).kept
    have beside := beside_release u slot .recycled
    exact ⟨forward_of_not_running h.1 kept.run, fun k => (h.2 (stopping_before h.1 kept k)).congr beside.iu kept.runId
      kept.sourceSet fun src => ⟨beside.pendingGap src, beside.offered src⟩⟩
  test u h := by
    have kept := (within_test u).kept
    refine ⟨forward_of_not_running h.1 kept.run, fun k => ?_⟩
    rw [testEnding_stays k]
    exact h.2 (stopping_before h.1 kept k)

theorem handsAtStop_none {s : State} {src : Source} (h : (s.intake src).pendingGap = none ∨ (s.intake src).offeredGap ≠ none) :
    s.handsAtStop src = none := by
  unfold State.handsAtStop
  split
  · next k =>
    obtain h | h := h
    · rw [h]; rfl
    · exact absurd k.2 h
  · rfl

theorem handsAtStop_some {s : State} {src : Source} {g : Gap} (run : s.rc.sourceSet.get src = true)
    (pending : (s.intake src).pendingGap = some g) (offered : (s.intake src).offeredGap = none) :
    s.handsAtStop src = some (g.entry src (s.rc.runId.getD 0)) := by
  rw [State.handsAtStop, if_pos ⟨run, offered⟩, pending]
  rfl

/-- The state after a run source hands its pending gap over and it is admitted. -/
theorem handGap_admits {s : State} {src : Source} {g : Gap} {buf : BufferName}
    (pending : (s.intake src).pendingGap = some g) (offered : (s.intake src).offeredGap = none)
    (target : s.target = some buf) (room : (s.buffer buf).entries.length + 1 < 63) (rests : IndexRests s.iu) :
    s.handGap src =
      ((s.onIntake src fun i => { i with pendingGap := none, offeredGap := some g }).gapIn src g buf).does
        [.testEnding] := by
  rw [handGap_eq, handOver_some pending offered]
  have intake := intake_onIntake_self s src fun i => { i with pendingGap := none, offeredGap := some g }
  exact offer_gap_last (congrArg IntakeSource.offeredGap intake) target room rests
    (.inr (congrArg IntakeSource.pendingGap intake)) []

/-- One more source's gaps have been dealt with. -/
theorem Handed.step {s u v : State} {buf : BufferName} {done : List Source} {src : Source} (h : Handed s buf done u)
    (fresh : src ∉ done) (target : v.target = some buf) (rests : IndexRests v.iu)
    (entries : (v.buffer buf).entries = (u.buffer buf).entries ++ (s.handsAtStop src).toList)
    (runId : v.rc.runId = u.rc.runId) (sources : v.rc.sourceSet = u.rc.sourceSet)
    (others : ∀ x, x ≠ src → v.intake x = u.intake x)
    (own : s.rc.sourceSet.get src = true → (s.intake src).offeredGap = none →
      (v.intake src).pendingGap = none ∧ (v.intake src).offeredGap = none) : Handed s buf (done ++ [src]) v where
  target := target
  rests := rests
  entries := by
    rw [entries, h.entries, List.filterMap_append, List.append_assoc]
    congr 2
  runId := runId.trans h.runId
  sources := sources.trans h.sources
  left x k := by
    rw [List.mem_append, not_or, List.mem_singleton] at k
    rw [others x k.2]
    exact h.left x k.1
  gone x k run offered := by
    by_cases same : x = src
    · subst same
      exact own run offered
    · rw [others x same]
      exact h.gone x ((List.mem_append.mp k).resolve_right fun m => same (List.mem_singleton.mp m)) run offered

theorem handedIf_step {s u : State} {buf : BufferName} {done : List Source} {src : Source} (h : HandedIf s buf done u)
    (fresh : src ∉ done) (room : (s.buffer buf).entries.length + done.length + 1 < 63) :
    HandedIf s buf (done ++ [src]) (State.ifRun State.handGap src u) := by
  have kept := (within_ifRun _ within_handGap src u).kept
  refine ⟨forward_of_not_running h.1 kept.run, fun stopping => ?_⟩
  have handed := h.2 (stopping_before h.1 kept stopping)
  obtain ⟨samePending, sameOffered⟩ := handed.left src fresh
  by_cases run : u.rc.sourceSet.get src = true
  case neg =>
    have off : s.handsAtStop src = none := if_neg fun k => run (by rw [handed.sources]; exact k.1)
    rw [ifRun_of_other (Bool.not_eq_true _ ▸ run)]
    exact handed.step fresh handed.target handed.rests (by rw [off]; exact (List.append_nil _).symm) rfl rfl
      (fun _ _ => rfl) fun k _ => absurd (handed.sources ▸ k) run
  rw [ifRun_of_run run] at stopping ⊢
  by_cases hands : (u.intake src).pendingGap = none ∨ (u.intake src).offeredGap ≠ none
  · have off : s.handsAtStop src = none := handsAtStop_none (by rwa [← samePending, ← sameOffered])
    rw [handGap_not hands]
    refine handed.step fresh handed.target handed.rests (by rw [off]; exact (List.append_nil _).symm) rfl rfl
      (fun _ _ => rfl) fun _ offered => ?_
    rw [← sameOffered] at offered
    exact ⟨hands.resolve_right fun k => k offered, offered⟩
  · rw [not_or, not_not] at hands
    obtain ⟨g, pending⟩ := Option.ne_none_iff_exists'.mp hands.1
    have small : (u.buffer buf).entries.length + 1 < 63 := by
      have bound := List.length_filterMap_le s.handsAtStop done
      rw [handed.entries, List.length_append]
      omega
    have admits := handGap_admits pending hands.2 handed.target small handed.rests
    rw [admits] at stopping ⊢
    rw [testEnding_stays stopping]
    have entry : s.handsAtStop src = some (g.entry src (u.rc.runId.getD 0)) := by
      rw [handed.runId]
      exact handsAtStop_some (by rw [← handed.sources]; exact run) (samePending.symm.trans pending)
        (sameOffered.symm.trans hands.2)
    have own := gapIn_intake (u.onIntake src fun i => { i with pendingGap := none, offeredGap := some g }) src g buf
    rw [intake_onIntake_self] at own
    refine handed.step fresh (target_admits handed.target rfl) (handed.rests.admits buf _) ?_ rfl rfl (fun x other => ?_)
      fun _ _ => by rw [own]; exact ⟨rfl, rfl⟩
    · rw [gapIn_buffer, entry]
      rfl
    · exact (PerSource.get_set_of_ne _ _ other).trans (intake_onIntake_other u _ other)

theorem stopIntake_handed {s : State} {buf : BufferName} (target : s.target = some buf) (rests : IndexRests s.iu) :
    Handed s buf [] s.stopIntake := by
  obtain ⟨st, iu, rc, -⟩ := stopIntake_rest s
  refine ⟨(stopIntake_target s).trans target, by rw [iu]; exact rests, ?_, by rw [rc], by rw [rc], fun src _ => ?_,
    fun src k => absurd k (by simp)⟩
  · rw [State.buffer, iu]
    exact (List.append_nil _).symm
  · rw [stopIntake_intake]
    exact closed_gaps s src

/-- The gaps of the run's sources after the stop, in the order of the sources, with room for them all. -/
theorem enterStopping_handed {s : State} {buf : BufferName} (target : s.target = some buf) (rests : IndexRests s.iu)
    (room : (s.buffer buf).entries.length + 4 < 63) (stopping : s.enterStopping.rc.runState = .stopping) :
    Handed s buf Source.all s.enterStopping := by
  have keeps := handedIf_seals s buf
  have closed : HandedIf s buf [] s.stopIntake := ⟨stopIntake_stop s, fun _ => stopIntake_handed target rests⟩
  have sealed := ((keeps []).sealAll ⟨closed, stopIntake_stop s⟩).1
  have one := handedIf_step (src := .s0) sealed (by decide) (by simp only [List.length_nil]; omega)
  have two := handedIf_step (src := .s1) one (by decide) (by simp only [List.length_append, List.length_singleton, List.length_nil]; omega)
  have three := handedIf_step (src := .s2) two (by decide) (by simp only [List.length_append, List.length_singleton, List.length_nil]; omega)
  have four := handedIf_step (src := .s3) three (by decide) (by simp only [List.length_append, List.length_singleton, List.length_nil]; omega)
  have all := (keeps Source.all).test _ ((keeps Source.all).recycleHeld four)
  rw [enterStopping_eq, index_eq_does_one] at stopping ⊢
  exact all.2 stopping

/-! ### RUN_END is offered (R33, R34, R168) -/

/-- A buffer closed by RUN_END. -/
def IndexUnit.closes (u : IndexUnit) (buf : BufferName) (entries : List Entry) : IndexUnit :=
  { u with buffers := u.buffers.set buf { state := .closed, entries := entries, final := true } }

theorem offer_runEnd {s : State} {e : Entry} {buf : BufferName} (target : s.target = some buf) :
    s.does [.offer (.runEnd e)] = (s.setIu (s.iu.closes buf ((s.buffer buf).entries ++ [e]))).does [.progress] := by
  rw [does_offer_admitted [] target rfl]
  have closed : (s.buffer buf).append e true =
      { state := .closed, entries := (s.buffer buf).entries ++ [e], final := true } := by
    simp [IndexBuffer.append]
  unfold State.admitted
  rw [show (Offer.runEnd e).isRunEnd = true from rfl, closed]
  rfl

theorem runEnd_waits {s : State} {e : Entry} {buf : BufferName} (target : s.target = some buf) (rests : IndexRests s.iu)
    (writing : s.iu.writing.isSome = true) :
    s.does [.offer (.runEnd e)] = s.setIu (s.iu.closes buf ((s.buffer buf).entries ++ [e])) := by
  obtain ⟨w, hw⟩ := Option.isSome_iff_exists.mp writing
  rw [offer_runEnd target, does_progress_owed (w := w) [] (by exact hw) (rests.owed w hw), does_nil]

theorem closedBuffer_closes {s : State} {buf : BufferName} (entries : List Entry)
    (rest : ∀ n, (s.buffer n).state ≠ .closed) :
    (s.setIu (s.iu.closes buf entries)).closedBuffer = some buf := by
  have self : ((s.setIu (s.iu.closes buf entries)).buffer buf).state = .closed :=
    congrArg IndexBuffer.state (PerBuffer.get_set_self _ _ _)
  have other (n : BufferName) (h : buf ≠ n) : ((s.setIu (s.iu.closes buf entries)).buffer n).state ≠ .closed := by
    rw [show (s.setIu (s.iu.closes buf entries)).buffer n = s.buffer n from PerBuffer.get_set_ne _ _ h]
    exact rest n
  cases buf with
  | a => exact closedBuffer_of_one (m := .b) (by decide) self (other .b (by decide))
  | b => exact closedBuffer_of_one (m := .a) (by decide) self (other .a (by decide))

theorem runEnd_writing {s : State} {e : Entry} {buf : BufferName} (target : s.target = some buf) (rests : IndexRests s.iu)
    (idle : s.iu.writing = none) :
    s.does [.offer (.runEnd e)] =
      ((s.setIu (s.iu.closes buf ((s.buffer buf).entries ++ [e]))).becomeWriting buf).does [.progress] := by
  rw [offer_runEnd target, does_progress_closed [] (by exact idle) (closedBuffer_closes _ (rests.closed idle))]

theorem runEnd_writes {s : State} {e : Entry} {buf : BufferName} (target : s.target = some buf) (rests : IndexRests s.iu)
    (idle : s.iu.writing = none) (owed : (s.lane .l0).state.duty = .owed ∨ (s.lane .l1).state.duty = .owed) :
    (s.does [.offer (.runEnd e)]).rc = s.rc ∧ (s.does [.offer (.runEnd e)]).iu =
      { s.iu with
        buffers := s.iu.buffers.set buf { state := .writing, entries := (s.buffer buf).entries ++ [e], final := true }
        writing := some (s.writingOf buf) } := by
  rw [runEnd_writing target rests idle, becomeWriting_owed buf (by exact owed)]
  refine ⟨?_, ?_⟩
  · rw [becomeWriting_eq]
    split
    · rw [setFlag_rc]; rfl
    · rfl
  · rw [becomeWriting_iu, State.toWriting, State.setIu_iu]
    have self : (s.setIu (s.iu.closes buf ((s.buffer buf).entries ++ [e]))).buffer buf =
        { state := .closed, entries := (s.buffer buf).entries ++ [e], final := true } := PerBuffer.get_set_self _ _ _
    rw [self]
    simp only [State.setIu_iu, IndexUnit.closes, PerBuffer.set_set]
    rfl

/-- A final block that no lane is to write is done at once, and the run ends. -/
theorem runEnd_ends {s : State} {e : Entry} {buf : BufferName} (target : s.target = some buf) (rests : IndexRests s.iu)
    (idle : s.iu.writing = none) (spans : s.iu.waitSpans = []) (gaps : ∀ src, (s.intake src).offeredGap = none)
    (runEnd : s.iu.waitRunEnd = none) (l0 : (s.lane .l0).state.duty = .off) (l1 : (s.lane .l1).state.duty = .off) :
    (s.does [.offer (.runEnd e)]).rc = { s.rc with runState := .idle, lastEnd := .indexUnwritten } ∧
    (s.does [.offer (.runEnd e)]).iu =
      { s.iu with
        buffers := s.iu.buffers.set buf { state := .empty, entries := [], final := false }
        blockSeq := s.iu.blockSeq + 1 } ∧
    (s.does [.offer (.runEnd e)]).nu.isPending .runEnded = true ∧
    (s.does [.offer (.runEnd e)]).nu.isPending .indexMissed = true := by
  let t := s.setIu (s.iu.closes buf ((s.buffer buf).entries ++ [e]))
  let w := s.writingOf buf
  have missed : t.becomeWriting buf = (t.toWriting buf).setFlag .indexMissed := by
    rw [becomeWriting_eq]
    exact if_pos (.inl l0)
  have self : t.buffer buf = { state := .closed, entries := (s.buffer buf).entries ++ [e], final := true } :=
    PerBuffer.get_set_self _ _ _
  have iu : ((t.toWriting buf).setFlag .indexMissed).iu = (t.toWriting buf).iu := setFlag_iu _ _
  have writing : ((t.toWriting buf).setFlag .indexMissed).iu.writing = some w := by rw [iu]; rfl
  have off : w.duty.l0 ≠ .owed ∧ w.duty.l1 ≠ .owed :=
    ⟨fun h => Duty.noConfusion (h.symm.trans l0), fun h => Duty.noConfusion (h.symm.trans l1)⟩
  generalize hv : (t.toWriting buf).setFlag .indexMissed = v at missed iu writing
  have final : (v.buffer w.buffer).final = true := by
    rw [State.buffer, iu]
    exact (congrArg IndexBuffer.final (PerBuffer.get_set_self _ _ _)).trans (congrArg IndexBuffer.final self)
  have unwritten : (w.duty.l0 == .written || w.duty.l1 == .written) = false := by
    rw [show w.duty.l0 = .off from l0, show w.duty.l1 = .off from l1]
    rfl
  have done : v.blockDone w = ((v.blockCleared w).setFlag .checkpointDone).endRun false := by
    rw [blockDone_eq, if_pos final, State.blockCounted, unwritten]
    rfl
  have beside := beside_blockDone v w
  have doneIu : (v.blockDone w).iu =
      { s.iu with
        buffers := s.iu.buffers.set buf { state := .empty, entries := [], final := false }
        writing := none, blockSeq := s.iu.blockSeq + 1 } := by
    rw [beside.iu, State.blockCleared, State.setIu_iu, iu]
    simp only [t, State.toWriting, State.setIu_iu, IndexUnit.closes, PerBuffer.set_set, w, State.writingOf]
    rfl
  have doneBuffer (n : BufferName) : ((v.blockDone w).buffer n).state ≠ .closed := by
    rw [State.buffer, doneIu]
    by_cases same : buf = n
    · rw [← same, PerBuffer.get_set_self]
      simp
    · rw [PerBuffer.get_set_ne _ _ same]
      exact rests.closed idle n
  have doneGaps (src : Source) : ((v.blockDone w).intake src).offeredGap = none := by
    rw [beside.offered src, ← hv]
    exact (congrArg (fun c : PerSource IntakeSource => (c.get src).offeredGap) (setFlag_ci _ _)).trans (gaps src)
  have stays : s.does [.offer (.runEnd e)] = v.blockDone w := by
    rw [runEnd_writing target rests idle, missed, does_progress_done [] writing off,
      does_progress_idle _ (by rw [doneIu]) doneBuffer,
      does_refill_none [] (.inr (nextWaiting_none (by rw [doneIu]; exact spans) doneGaps (by rw [doneIu]; exact runEnd))),
      does_nil]
  rw [stays]
  refine ⟨?_, ?_, ?_, ?_⟩
  · rw [done, endRun_rc, setFlag_rc, ← hv]
    exact congrArg (fun r : RunController => { r with runState := .idle, lastEnd := .indexUnwritten }) (setFlag_rc _ _)
  · rw [doneIu, ← idle]
  · rw [done]
    exact setFlag_pending _ _
  · exact (within_blockDone v w writing).kept.flags _ (by rw [← hv]; exact setFlag_pending _ _)

/-- The offer of RUN_END, at the entry to ENDING, to a buffer that can take it. -/
theorem entersEnding {s t : State} {counters : RunCounters} {buf : BufferName} {e : Entry} {entries : List Entry}
    (rc : t.rc = { s.rc with runState := .ending, deadlineTimer := none, counters := counters })
    (iu : t.iu = { s.iu with buffers := t.iu.buffers, timer := none, lock := false })
    (others : ∀ v, t.iu.buffers.set buf v = s.iu.buffers.set buf v) (al : t.al = s.al)
    (target : t.target = some buf) (rests : IndexRests t.iu) (gaps : ∀ src, (t.intake src).offeredGap = none)
    (appended : (t.buffer buf).entries ++ [e] = entries) :
    EntersEnding s (t.does [.offer (.runEnd e)]) counters buf entries where
  waits writing := by
    rw [runEnd_waits target rests (by rw [iu]; exact writing), appended]
    refine ⟨rc, ?_⟩
    rw [State.setIu_iu, IndexUnit.closes, others, iu]
  writes idle owed := by
    have lanes (lane : Lane) : t.lane lane = s.lane lane := by rw [State.lane, al]; rfl
    obtain ⟨sameRc, sameIu⟩ := runEnd_writes (e := e) target rests (by rw [iu]; exact idle)
      (by rw [lanes, lanes]; exact owed)
    refine ⟨sameRc.trans rc, ?_⟩
    rw [sameIu, others, appended, State.writingOf, lanes, lanes, iu]
  ends idle spans runEnd l0 l1 := by
    have lanes (lane : Lane) : t.lane lane = s.lane lane := by rw [State.lane, al]; rfl
    obtain ⟨sameRc, sameIu, ended, missed⟩ := runEnd_ends (e := e) target rests (by rw [iu]; exact idle)
      (by rw [iu]; exact spans) gaps (by rw [iu]; exact runEnd) (by rw [lanes]; exact l0) (by rw [lanes]; exact l1)
    refine ⟨by rw [sameRc, rc], ?_, ended, missed⟩
    rw [sameIu, others, iu]

/-! ### A stop with nothing to seal and no gap held (R33) -/

theorem forSources_id {f : Source → State → State} {s : State} (h : ∀ x, f x s = s) : forSources f s = s := by
  unfold forSources
  rw [h, h, h, h]

theorem ifRun_id {f : State → Source → State} {x : Source} {s : State} (h : f s x = s) : State.ifRun f x s = s := by
  unfold State.ifRun
  split
  · exact h
  · rfl

theorem noGaps_of {s : State} (h : ∀ src, (s.intake src).pendingGap = none ∧ (s.intake src).offeredGap = none) :
    s.noGaps = true := by
  have one (src : Source) : (s.intake src).noGap = true := by
    rw [IntakeSource.noGap, (h src).1, (h src).2]
    rfl
  have all : s.noGaps = ((s.intake .s0).noGap && (s.intake .s1).noGap && (s.intake .s2).noGap && (s.intake .s3).noGap) :=
    rfl
  rw [all, one, one, one, one]
  rfl

/-- The run as RUN_END is offered, at a stop that enters ENDING at once. -/
def State.ending (s : State) : State := s.stopIntake.enterEnding.1

theorem enterStopping_ending {s : State} (free : s.st.slots = [])
    (gaps : ∀ src, (s.intake src).pendingGap = none ∧ (s.intake src).offeredGap = none) :
    s.enterStopping = s.ending.does [.offer (.runEnd (s.runEndEntry s.rc.counters))] := by
  obtain ⟨st, -, rc, -⟩ := stopIntake_rest s
  have slots : s.stopIntake.st.slots = [] := by rw [st]; exact free
  have closed (src : Source) : (s.stopIntake.intake src).pendingGap = none ∧ (s.stopIntake.intake src).offeredGap = none := by
    rw [stopIntake_intake, (closed_gaps s src).1, (closed_gaps s src).2]
    exact gaps src
  have seals (x : Source) : s.stopIntake.sealFilling x = s.stopIntake := by
    refine sealFilling_of_none ?_
    rw [SpanTable.filling, slots]
    rfl
  have held (x : Source) : s.stopIntake.recycleAll (s.stopIntake.st.inState x .held) = s.stopIntake := by
    rw [SpanTable.inState, slots]
    rfl
  rw [enterStopping_eq, forSources_id fun x => ifRun_id (seals x), forSources_id fun x =>
    ifRun_id (handGap_not (.inl (closed x).1)), forSources_id fun x => ifRun_id (held x), index_eq_does_one,
    does_testEnding_ends [] (by rw [rc]) slots (noGaps_of closed)]
  have entry : s.stopIntake.rc.endEntry = s.runEndEntry s.rc.counters := by rw [rc]; rfl
  rw [entry]
  rfl

theorem ending_rest (s : State) :
    s.ending.rc = { s.rc with runState := .ending, deadlineTimer := none } ∧
      s.ending.iu = { s.iu with timer := none, lock := false } ∧ s.ending.al = s.al ∧
      ∀ src, (s.ending.intake src).offeredGap = (s.intake src).offeredGap := by
  obtain ⟨-, iu, rc, -⟩ := stopIntake_rest s
  have out : Outside s s.stopIntake := by
    unfold State.stopIntake forSources
    exact ((outside_closeSource _ _).trans ((outside_closeSource _ _).trans ((outside_closeSource _ _).trans
      (outside_closeSource _ _)))).after rfl rfl rfl rfl rfl
  refine ⟨?_, ?_, ?_, fun src => ?_⟩
  · rw [State.ending, State.enterEnding, State.setIu_rc, State.setRc_rc, rc]
  · rw [State.ending, State.enterEnding, State.setIu_iu, iu]
  · exact out.al
  · have same : s.ending.intake src = s.stopIntake.intake src := rfl
    rw [same, stopIntake_intake]
    exact (closed_gaps s src).2

theorem ending_target (s : State) : s.ending.target = s.target :=
  target_congr (by rw [(ending_rest s).2.1])

theorem IndexRests.congr {u v : IndexUnit} (h : IndexRests u) (buffers : v.buffers = u.buffers)
    (writing : v.writing = u.writing) : IndexRests v :=
  ⟨fun w k => h.owed w (writing ▸ k), fun k n => by rw [buffers]; exact h.closed (writing ▸ k) n⟩

/-- With no buffer that can take it, RUN_END waits. -/
theorem enterStopping_runEnd_waits {s : State} (free : s.st.slots = [])
    (gaps : ∀ src, (s.intake src).pendingGap = none ∧ (s.intake src).offeredGap = none) (full : s.target = none) :
    s.enterStopping.rc = { s.rc with runState := .ending, deadlineTimer := none } ∧
      s.enterStopping.iu =
        { s.iu with waitRunEnd := some (s.runEndEntry s.rc.counters), timer := none, lock := false } := by
  obtain ⟨rc, iu, -, -⟩ := ending_rest s
  rw [enterStopping_ending free gaps, does_offer_waits _ [] (by rw [ending_target]; exact full), does_nil]
  refine ⟨rc, ?_⟩
  rw [State.wait, State.setIu_iu, iu]

theorem enterStopping_entersEnding {s : State} (free : s.st.slots = [])
    (gaps : ∀ src, (s.intake src).pendingGap = none ∧ (s.intake src).offeredGap = none) {buf : BufferName}
    (target : s.target = some buf) (rests : IndexRests s.iu) :
    EntersEnding s s.enterStopping s.rc.counters buf
      ((s.buffer buf).entries ++ [s.runEndEntry s.rc.counters]) := by
  obtain ⟨rc, iu, al, offered⟩ := ending_rest s
  rw [enterStopping_ending free gaps]
  refine entersEnding (by rw [rc]) (by rw [iu]) (fun v => by rw [iu]) al ((ending_target s).trans target)
    (rests.congr (by rw [iu]) (by rw [iu])) (fun src => (offered src).trans (gaps src).2) ?_
  rw [State.buffer, iu]
  rfl

/-! ### STOP RUN (R31, R32) -/

theorem exec_stopRun {s : State} {f : CmdFrame} {rest : List CmdFrame} (received : Receives s 0x11 f rest)
    (length : f.payload.length = 0) (run : s.rc.runState ≠ .idle) :
    exec .stopRun s = .next (stopEffect f.payload (s.answered f rest .ok [])) :=
  congrArg _ (received.ok (c := stopCommand) length (notIdle_ok f.payload run))

/-- What the stop leaves of the spans of a run source. -/
theorem enterStopping_spans {s : State} {src : Source} (run : s.rc.sourceSet.get src = true) (table : TableOk s.st) :
    (∀ slot sp, s.span? slot = some sp → sp.source = src → sp.state = .held → s.enterStopping.span? slot = none) ∧
    (∀ slot sp, s.st.filling src = some (slot, sp) →
      (sp.retention = .history → s.enterStopping.span? slot = none) ∧
      (sp.retention ≠ .history → s.iu.waitSpans = [] →
        s.enterStopping.span? slot = some { sp with state := .queued, summary := (s.se.get src).map Running.finish } ∧
        slot ∈ s.enterStopping.st.queues.get src)) := by
  refine ⟨fun slot sp found source held => enterStopping_held table run found source held, fun slot sp found =>
    ⟨fun history => enterStopping_history table run found history, fun keep waits => ?_⟩⟩
  have stands := enterStopping_queued table run found keep waits
  refine ⟨stands.found.trans ?_, stands.queued⟩
  rw [Span.sealedAs, if_neg keep]

/-- What the stop leaves of the gaps of a run source, with no buffer that can take an entry. -/
theorem enterStopping_full {s : State} {src : Source} (run : s.rc.sourceSet.get src = true) (full : s.target = none)
    (g : Gap) (pending : (s.intake src).pendingGap = some g) :
    (∀ h, (s.intake src).offeredGap = some h →
      (s.enterStopping.intake src).pendingGap = some g ∧ (s.enterStopping.intake src).offeredGap = some h) ∧
    ((s.intake src).offeredGap = none →
      (s.enterStopping.intake src).pendingGap = none ∧ (s.enterStopping.intake src).offeredGap = some g) := by
  have gaps := enterStopping_gaps run full pending
  refine ⟨fun h offered => ?_, fun offered => ?_⟩
  · rw [offered] at gaps
    exact gaps.2
  · rw [offered] at gaps
    exact gaps.2

theorem stopEffect_running {s : State} (p : List Byte) (running : s.rc.runState = .running) :
    stopEffect p s = s.enterStopping.evaluate := by
  rw [stopEffect, running]

theorem stopEffect_armed {s : State} (p : List Byte) (armed : s.rc.runState = .armed) : stopEffect p s = s.stopArmed := by
  rw [stopEffect, armed]

theorem stopEffect_late {s : State} (p : List Byte) (late : s.rc.runState = .stopping ∨ s.rc.runState = .ending) :
    stopEffect p s = s := by
  obtain stopping | ending := late
  · rw [stopEffect, stopping]
  · rw [stopEffect, ending]

theorem runLaw_answered {s : State} {f : CmdFrame} {rest : List CmdFrame} {st : Status} {p : List Byte}
    (law : RunLaw s) : RunLaw (s.answered f rest st p) := { law with }

/-- Settles O27: by run state; the stop of a RUNNING run from what each of its stages keeps. -/
theorem stopRunByRunState : Obligations.StopRunByRunState := by
  intro s f rest received length b
  refine ⟨fun idle => ?_, fun armed => ?_, fun running => ?_, fun late => ?_⟩
  · exact exec_refused (c := stopCommand) rfl received length (notIdle_refused f.payload idle) (by decide)
  · rw [exec_stopRun received length (by rw [armed]; decide), stopEffect_armed _ (by exact armed)]
    rfl
  · have running' : b.rc.runState = .running := running
    have law' (law : RunLaw s) : RunLaw b := runLaw_answered law
    have within := within_enterStopping b running'
    have effect : exec .stopRun s = .next b.enterStopping.evaluate := by
      rw [exec_stopRun received length (by rw [running]; decide), stopEffect_running _ (by exact running)]
    have shut (src : Source) (run : s.rc.sourceSet.get src = true) : Shut src b.enterStopping :=
      enterStopping_shut (s := b) run
    have handed (buf : BufferName) (target : s.target = some buf) (room : (s.buffer buf).entries.length + 4 < 63)
        (rests : IndexRests s.iu) (stopping : b.enterStopping.rc.runState = .stopping) :
        Handed b buf Source.all b.enterStopping := enterStopping_handed (s := b) target rests room stopping
    refine ⟨_, effect, rfl, enterStopping_state, enterStopping_timer b,
      fun law => (enterStopping_timer_stops running' (law' law)).2, fun src run => ⟨(shut src run).1, (shut src run).2.1,
        (shut src run).2.2, fun table => enterStopping_spans (s := b) run table,
        fun full g pending => enterStopping_full (s := b) run full g pending⟩,
      fun buf target room rests stopping => ⟨fun src run offered => ?_, ?_⟩,
      fun free gaps => ⟨fun full => enterStopping_runEnd_waits (s := b) free gaps full, fun buf target rests => ?_⟩,
      within.kept, fun law => within.law 0 (law' law)⟩
    · exact (handed buf target room rests stopping).gone src (Source.mem_all src) run offered
    · exact (handed buf target room rests stopping).entries
    · have ends := enterStopping_entersEnding (s := b) free gaps (buf := buf) target rests
      exact ⟨ends.waits, ends.writes, ends.ends⟩
  · rw [exec_stopRun received length (by obtain k | k := late <;> rw [k] <;> decide), stopEffect_late _ (by exact late)]

end Sys2Proof.Machine

/-! Samples: the steps of a sample, its place at the end of a FILLING span, and the tests that end a span (R48, R50, R52, R53). -/

namespace Sys2Proof.Machine

/-! ### The steps of a sample (R50) -/

theorem takesSample_of {src : Source} {x : Sample} {s : State} {p : State → Prop} (h : p (State.takeSample src s x)) :
    TakesSample src x s p := ⟨_, h, rfl, fun _ => rfl⟩

/-- A sample has its number: it is the newest of its source. -/
def State.numbered (s : State) (src : Source) : State :=
  { s with ci := s.ci.set src { s.intake src with newest := some (s.intake src).nextNumber } }

theorem numbered_intake (s : State) (src : Source) :
    (s.numbered src).intake src = { s.intake src with newest := some (s.intake src).nextNumber } :=
  PerSource.get_set_self _ _ _

theorem numbered_settings (s : State) (src : Source) : (s.numbered src).settings src = s.settings src :=
  (congrArg IntakeSource.settings (numbered_intake s src) :)

/-- The steps of R50 that follow the placing of a sample. -/
def State.testsSample (p : State × Option Nat) (src : Source) (n : Nat) : State :=
  (((p.1.applyTrigger src n p.2).testWindow src n p.2).testLength src p.2).testNumbers src n

theorem takeSample_takes {s : State} {src : Source} (takes : (s.intake src).intake.takes = true) (x : Sample) :
    State.takeSample src s x =
      State.testsSample ((s.numbered src).place src (s.intake src).nextNumber x) src (s.intake src).nextNumber :=
  if_pos takes

/-- No trigger is pending at the sample numbered `n`, and the window does not end at it. -/
structure Quiet (src : Source) (n : Nat) (s : State) : Prop where
  tag : (s.intake src).tagPending = false
  mark : (s.twu.get src).markPending = false
  window : (s.settings src).mode = .triggered → ∀ e, (s.twu.get src).window = some e → n < e

theorem Quiet.congr {src : Source} {n : Nat} {s t : State} (h : Quiet src n s)
    (tag : (t.intake src).tagPending = (s.intake src).tagPending) (settings : t.settings src = s.settings src)
    (twu : t.twu = s.twu) : Quiet src n t := by
  obtain ⟨noTag, mark, window⟩ := h
  refine ⟨tag.trans noTag, by rw [twu]; exact mark, ?_⟩
  rw [settings, twu]
  exact window

theorem Quiet.numbered {src : Source} {n : Nat} {s : State} (h : Quiet src n s) : Quiet src n (s.numbered src) :=
  h.congr (congrArg IntakeSource.tagPending (numbered_intake s src) :) (numbered_settings s src) rfl

theorem Quiet.applyTrigger {src : Source} {n : Nat} {s : State} (h : Quiet src n s) (taken : Option Nat) :
    s.applyTrigger src n taken = s := by
  rw [State.applyTrigger, h.tag, h.mark]
  rfl

theorem testWindow_before {s : State} {src : Source} {n : Nat} (taken : Option Nat)
    (before : (s.settings src).mode = .triggered → ∀ e, (s.twu.get src).window = some e → n < e) :
    s.testWindow src n taken = s := by
  unfold State.testWindow
  split
  · next e mode window => exact if_neg (by have := before mode e window; omega)
  · rfl

theorem Quiet.tests {src : Source} {n : Nat} {p : State × Option Nat} (h : Quiet src n p.1) :
    State.testsSample p src n = (p.1.testLength src p.2).testNumbers src n := by
  rw [State.testsSample, h.applyTrigger, testWindow_before _ h.window]

theorem testLength_dropped (s : State) (src : Source) : s.testLength src none = s := rfl

theorem testLength_short {s : State} {src : Source} {slot : Nat} {sp : Span} (found : s.st.filling src = some (slot, sp))
    (short : sp.count ≠ 2 ^ (s.settings src).spanExp) : s.testLength src (some slot) = s := by
  unfold State.testLength
  rw [found]
  exact if_neg fun k => short k.2

theorem testLength_full {s : State} {src : Source} {slot : Nat} {sp : Span} (found : s.st.filling src = some (slot, sp))
    (full : sp.count = 2 ^ (s.settings src).spanExp) : s.testLength src (some slot) = s.seal src := by
  unfold State.testLength
  rw [found]
  exact if_pos ⟨rfl, full⟩

theorem testNumbers_other {s : State} {src : Source} {n : Nat} (h : n ≠ 2 ^ 48 - 1) : s.testNumbers src n = s := if_neg h

theorem seal_of_none {s : State} {src : Source} (h : s.st.filling src = none) : s.seal src = s := by
  rw [State.seal, h]

theorem Unfilled.filling {s : State} {src : Source} (h : s.Unfilled src) : s.st.filling src = none := by
  rw [SpanTable.filling, List.find?_eq_none]
  intro p mem
  have := h p mem
  simpa using this

/-- The source closes at its last sample number, where it still takes, and hands over its gap (R53, R57). -/
def State.exhaust (s : State) (src : Source) : State :=
  if (s.intake src).intake.takes then (s.closeIntake src).handGap src else s

theorem testNumbers_last (s : State) (src : Source) : s.testNumbers src (2 ^ 48 - 1) = (s.seal src).exhaust src := if_pos rfl

/-- The tests after the seal of a source's span: at the last number the source closes. -/
theorem tests_sealed {s : State} {src : Source} (sealed : s.st.filling src = none) (taken : Option Nat) (n : Nat) :
    (s.testLength src taken).testNumbers src n = if n = 2 ^ 48 - 1 then s.exhaust src else s := by
  have same : s.testLength src taken = s := by
    unfold State.testLength
    rw [sealed]
    cases taken <;> rfl
  rw [same]
  split
  · next last => rw [last, testNumbers_last, seal_of_none sealed]
  · next other => exact testNumbers_other other

/-- The tests after a sample that ends its span: one seal, and at the last number the source closes. -/
theorem tests_ends {s : State} {src : Source} {slot n : Nat} {sp : Span} (sealed : (s.seal src).st.filling src = none)
    (found : s.st.filling src = some (slot, sp)) (ends : sp.count = 2 ^ (s.settings src).spanExp ∨ n = 2 ^ 48 - 1) :
    (s.testLength src (some slot)).testNumbers src n =
      if n = 2 ^ 48 - 1 then (s.seal src).exhaust src else s.seal src := by
  by_cases full : sp.count = 2 ^ (s.settings src).spanExp
  · rw [testLength_full found full]
    exact tests_sealed sealed none n
  · have last := ends.resolve_left full
    rw [testLength_short found full, last, testNumbers_last, if_pos rfl]

/-! ### A sample at the end of the FILLING span (R15, R48, R78, R81) -/

/-- The sample is stored at its place in the page, counted, and taken into the running summary. -/
def State.stored (s : State) (src : Source) (slot : Nat) (sp : Span) (r : Running) (x : Sample) : State :=
  { s with
    mem := (s.mem.write (spoolAddr slot (2 * sp.count)) (x.extractLsb' 0 8)).write
      (spoolAddr slot (2 * sp.count + 1)) (x.extractLsb' 8 8)
    st := { s.st with slots := putSlot s.st.slots slot { sp with count := sp.count + 1 } }
    se := s.se.set src (some (r.take x)) }

/-- The sample is appended: SUMMARY_SATURATED is set as the energy saturates. -/
def State.appended (s : State) (src : Source) (slot : Nat) (sp : Span) (r : Running) (x : Sample) : State :=
  if (r.take x).saturated && !r.saturated then (s.stored src slot sp r x).setFlag .summarySaturated
  else s.stored src slot sp r x

theorem append_eq {s : State} {src : Source} {r : Running} (summary : s.se.get src = some r) (slot : Nat) (sp : Span)
    (x : Sample) : s.append src slot sp x = s.appended src slot sp r x := by
  have taken : ((s.setMem (s.mem.writeSample slot sp.count x)).setSpan slot { sp with count := sp.count + 1 }).se.get src =
      some r := summary
  rw [State.append, State.summaryTake, taken]
  rfl

theorem place_filling {s : State} {src : Source} {slot : Nat} {sp : Span} {r : Running}
    (found : s.st.filling src = some (slot, sp)) (summary : s.se.get src = some r) (n : Nat) (x : Sample) :
    s.place src n x = (s.appended src slot sp r x, some slot) := by
  rw [State.place, found]
  exact congrArg (·, some slot) (append_eq summary slot sp x)

/-- A flag at most is set. -/
theorem appended_or (s : State) (src : Source) (slot : Nat) (sp : Span) (r : Running) (x : Sample) :
    s.appended src slot sp r x = s.stored src slot sp r x ∨
      s.appended src slot sp r x = (s.stored src slot sp r x).setFlag .summarySaturated := by
  unfold State.appended
  split
  · exact .inr rfl
  · exact .inl rfl

/-- What a flag does not change, an appended sample leaves as it is stored. -/
theorem appended_proj {α : Type} (f : State → α) (flag : ∀ u g, f (u.setFlag g) = f u) (s : State) (src : Source) (slot : Nat)
    (sp : Span) (r : Running) (x : Sample) : f (s.appended src slot sp r x) = f (s.stored src slot sp r x) := by
  obtain same | same := appended_or s src slot sp r x
  · rw [same]
  · rw [same, flag]

section
variable (s : State) (src : Source) (slot : Nat) (sp : Span) (r : Running) (x : Sample)

@[simp] theorem appended_st : (s.appended src slot sp r x).st = (s.stored src slot sp r x).st :=
  appended_proj State.st setFlag_st s src slot sp r x

@[simp] theorem appended_ci : (s.appended src slot sp r x).ci = s.ci := appended_proj State.ci setFlag_ci s src slot sp r x

@[simp] theorem appended_twu : (s.appended src slot sp r x).twu = s.twu := appended_proj State.twu setFlag_twu s src slot sp r x

@[simp] theorem appended_rc : (s.appended src slot sp r x).rc = s.rc := appended_proj State.rc setFlag_rc s src slot sp r x

@[simp] theorem appended_iu : (s.appended src slot sp r x).iu = s.iu := appended_proj State.iu setFlag_iu s src slot sp r x

@[simp] theorem appended_al : (s.appended src slot sp r x).al = s.al := appended_proj State.al setFlag_al s src slot sp r x

@[simp] theorem appended_ds : (s.appended src slot sp r x).ds = s.ds := appended_proj State.ds setFlag_ds s src slot sp r x

@[simp] theorem appended_spm : (s.appended src slot sp r x).spm = s.spm := appended_proj State.spm setFlag_spm s src slot sp r x

@[simp] theorem appended_se : (s.appended src slot sp r x).se = s.se.set src (some (r.take x)) :=
  appended_proj State.se setFlag_se s src slot sp r x

@[simp] theorem appended_mem : (s.appended src slot sp r x).mem = (s.stored src slot sp r x).mem :=
  appended_proj State.mem setFlag_mem s src slot sp r x

theorem appended_settings : (s.appended src slot sp r x).settings = s.settings := by
  funext y
  exact congrArg (fun c : PerSource IntakeSource => (c.get y).settings) (appended_ci s src slot sp r x)
end

theorem Quiet.appended {src : Source} {n : Nat} {s : State} (h : Quiet src n s) (slot : Nat) (sp : Span) (r : Running)
    (x : Sample) : Quiet src n (s.appended src slot sp r x) :=
  h.congr (by rw [State.intake, appended_ci]; rfl) (by rw [appended_settings]) (appended_twu ..)

theorem appended_table {s : State} (table : TableOk s.st) {src : Source} {slot : Nat} {sp : Span}
    (found : s.st.filling src = some (slot, sp)) (r : Running) (x : Sample) : TableOk (s.appended src slot sp r x).st := by
  rw [appended_st]
  exact table.put _ (SpanTable.filling_listed found) _

theorem appended_filling {s : State} (table : TableOk s.st) {src : Source} {slot : Nat} {sp : Span}
    (found : s.st.filling src = some (slot, sp)) (r : Running) (x : Sample) :
    (s.appended src slot sp r x).st.filling src = some (slot, { sp with count := sp.count + 1 }) := by
  obtain ⟨_, source, filling, first⟩ := (filling_iff table).mp found
  refine (filling_iff (appended_table table found r x)).mpr ⟨?_, source, filling, fun n y lower hy => ?_⟩
  · rw [State.span?, appended_st]
    exact (findSlot_putSlot _ slot slot _ 0 table.slots).trans (if_pos rfl)
  · rw [State.span?, appended_st] at hy
    exact first n y lower (((findSlot_putSlot _ slot n _ 0 table.slots).trans (if_neg (by omega))).symm.trans hy)

/-- A sample of a source that takes and holds a FILLING span, with no trigger and no window's end at it. -/
theorem takeSample_filling {s : State} {src : Source} {slot : Nat} {sp : Span} {r : Running}
    (takes : (s.intake src).intake.takes = true) (found : s.st.filling src = some (slot, sp))
    (summary : s.se.get src = some r) (quiet : Quiet src (s.intake src).nextNumber s) (x : Sample) :
    State.takeSample src s x =
      (((s.numbered src).appended src slot sp r x).testLength src (some slot)).testNumbers src (s.intake src).nextNumber := by
  rw [takeSample_takes takes, place_filling (s := s.numbered src) found summary]
  exact (quiet.numbered.appended slot sp r x).tests

/-- Settles O32: the steps of R50, none of which applies after the sample is placed. -/
theorem sampleIsAppended : Obligations.SampleIsAppended := by
  intro s src x slot sp r takes found summary tag mark window short last table
  refine takesSample_of ?_
  rw [takeSample_filling takes found summary ⟨tag, mark, window⟩,
    testLength_short (appended_filling (s := s.numbered src) table found r x)
      (by rw [appended_settings, numbered_settings]; exact short), testNumbers_other last]
  rfl

end Sys2Proof.Machine

/-! Samples that no span takes: the pending gap, and the close of a source at its last sample number (R49, R53, R54, R56, R57). -/

namespace Sys2Proof.Machine

/-! ### The gap that a source hands over (R55, R57) -/

theorem PerSource.set_set {α : Type} (v : PerSource α) (src : Source) (x y : α) : (v.set src x).set src y = v.set src y := by
  cases src <;> rfl

theorem handGap_waits {s : State} {src : Source} {g : Gap} (pending : (s.intake src).pendingGap = some g)
    (offered : (s.intake src).offeredGap = none) (full : s.target = none) :
    s.handGap src =
      { s with ci := s.ci.set src { s.intake src with pendingGap := none, offeredGap := some g } } := by
  rw [handGap_eq, handOver_some pending offered]
  dsimp only
  rw [does_offer_waits _ _ (by exact full), does_nil]
  rfl

theorem noOffer_of_none {i : IntakeSource} (h : i.offeredGap = none) :
    ({ i with pendingGap := none, offeredGap := none } : IntakeSource) = { i with pendingGap := none } := by
  cases i
  cases h
  rfl

theorem handGap_admitted {s : State} {src : Source} {g : Gap} {buf : BufferName}
    (pending : (s.intake src).pendingGap = some g) (offered : (s.intake src).offeredGap = none)
    (target : s.target = some buf) (room : (s.buffer buf).entries.length + 1 < 63) (rests : IndexRests s.iu)
    (stays : s.rc.runState ≠ .stopping ∨ s.st.slots ≠ []) :
    s.handGap src =
      { s with
        ci := s.ci.set src { s.intake src with pendingGap := none }
        iu := s.iu.admits buf (g.entry src (s.rc.runId.getD 0)) } := by
  rw [handGap_admits pending offered target room rests, does_testEnding_not [] (by exact stays.imp_right .inl), does_nil,
    ← noOffer_of_none offered]
  cases src <;> rfl

/-! ### A source closes at its last sample number (R53) -/

theorem closeIntake_quiet {s : State} {src : Source} (tag : (s.intake src).tagPending = false)
    (mark : (s.twu.get src).markPending = false) :
    s.closeIntake src = { s with ci := s.ci.set src { s.intake src with intake := .closed } } := by
  have sameTag : ({ s.intake src with intake := .closed, tagPending := false } : IntakeSource) =
      { s.intake src with intake := .closed } := by
    rw [← tag]
  have sameMark : ({ s.twu.get src with markPending := false } : WindowSource) = s.twu.get src := by
    rw [← mark]
  rw [closeIntake_eq, sameTag, sameMark, PerSource.set_get]

/-- A source that takes is closed at its last sample number. -/
theorem exhaust_takes {s : State} {src : Source} (takes : (s.intake src).intake.takes = true) :
    s.exhaust src = (s.closeIntake src).handGap src := if_pos takes

theorem exhaust_shut {s : State} {src : Source} (shut : (s.intake src).intake.takes = false) : s.exhaust src = s :=
  if_neg (by rw [shut]; exact Bool.false_ne_true)

/-- A source closed at its last sample number with no trigger pending. -/
def State.closedAt (s : State) (src : Source) : State :=
  { s with ci := s.ci.set src { s.intake src with intake := .closed } }

theorem closedAt_intake (s : State) (src : Source) :
    (s.closedAt src).intake src = { s.intake src with intake := .closed } := PerSource.get_set_self _ _ _

theorem exhaust_quiet {s : State} {src : Source} (takes : (s.intake src).intake.takes = true)
    (tag : (s.intake src).tagPending = false) (mark : (s.twu.get src).markPending = false) :
    s.exhaust src = (s.closedAt src).handGap src := by
  rw [exhaust_takes takes, closeIntake_quiet tag mark]
  rfl

theorem exhaust_noGap {s : State} {src : Source} (takes : (s.intake src).intake.takes = true)
    (tag : (s.intake src).tagPending = false) (mark : (s.twu.get src).markPending = false)
    (h : (s.intake src).pendingGap = none ∨ (s.intake src).offeredGap ≠ none) : s.exhaust src = s.closedAt src := by
  rw [exhaust_quiet takes tag mark, handGap_not (by rw [closedAt_intake]; exact h)]

/-! ### A dropped sample (R54) -/

/-- A sample of a source has been lost, which leaves its intake as `i`. -/
def State.lostTo (s : State) (src : Source) (i : IntakeSource) : State :=
  { s with
    ci := s.ci.set src i
    rc := { s.rc with counters := { s.rc.counters with
      lost := s.rc.counters.lost.set src (s.rc.counters.lost.get src + 1) } } }

/-- With the first sample of a gap INTAKE_LOSS is set. -/
def State.dropsTo (s : State) (src : Source) (i : IntakeSource) : State :=
  if (s.intake src).pendingGap = none then (s.lostTo src i).setFlag .intakeLoss else s.lostTo src i

theorem dropsTo_proj {α : Type} (f : State → α) (flag : ∀ u g, f (u.setFlag g) = f u) (s : State) (src : Source)
    (i : IntakeSource) : f (s.dropsTo src i) = f (s.lostTo src i) := by
  unfold State.dropsTo
  split
  · exact flag _ _
  · rfl

@[simp] theorem dropsTo_ci (s : State) (src : Source) (i : IntakeSource) : (s.dropsTo src i).ci = s.ci.set src i :=
  dropsTo_proj State.ci setFlag_ci s src i

@[simp] theorem dropsTo_iu (s : State) (src : Source) (i : IntakeSource) : (s.dropsTo src i).iu = s.iu :=
  dropsTo_proj State.iu setFlag_iu s src i

@[simp] theorem dropsTo_st (s : State) (src : Source) (i : IntakeSource) : (s.dropsTo src i).st = s.st :=
  dropsTo_proj State.st setFlag_st s src i

@[simp] theorem dropsTo_twu (s : State) (src : Source) (i : IntakeSource) : (s.dropsTo src i).twu = s.twu :=
  dropsTo_proj State.twu setFlag_twu s src i

@[simp] theorem dropsTo_mem (s : State) (src : Source) (i : IntakeSource) : (s.dropsTo src i).mem = s.mem :=
  dropsTo_proj State.mem setFlag_mem s src i

theorem dropsTo_rc (s : State) (src : Source) (i : IntakeSource) : (s.dropsTo src i).rc = (s.lostTo src i).rc :=
  dropsTo_proj State.rc setFlag_rc s src i

theorem dropsTo_intake (s : State) (src : Source) (i : IntakeSource) : (s.dropsTo src i).intake src = i := by
  rw [State.intake, dropsTo_ci, PerSource.get_set_self]

theorem drop_eq (s : State) (src : Source) (n : Nat) (cause : Byte) :
    s.drop src n cause =
      s.dropsTo src { s.intake src with pendingGap := some (joinGap (s.intake src).pendingGap n cause) } := by
  unfold State.drop State.dropsTo
  exact if_congr Option.isNone_iff_eq_none rfl rfl

/-- The intake of a source whose next sample is dropped. -/
def IntakeSource.dropsNext (i : IntakeSource) (cause : Byte) : IntakeSource :=
  { i with newest := some i.nextNumber, pendingGap := some (joinGap i.pendingGap i.nextNumber cause) }

theorem lostTo_numbered (s : State) (src : Source) (i : IntakeSource) : (s.numbered src).lostTo src i = s.lostTo src i := by
  cases src <;> rfl

theorem drop_numbered (s : State) (src : Source) (cause : Byte) :
    (s.numbered src).drop src (s.intake src).nextNumber cause = s.dropsTo src ((s.intake src).dropsNext cause) := by
  rw [drop_eq, State.dropsTo, State.dropsTo, lostTo_numbered, numbered_intake]
  rfl

/-! ### When a sample is dropped (R48, R49, R56) -/

theorem openSpan_overrun {s : State} {src : Source} (unfilled : s.st.filling src = none)
    (none : s.rc.nextSeq = .exhausted ∨ s.st.lowestFree = none ∧ s.st.oldestHeld src = none) (n : Nat) (ret : Retention) :
    s.openSpan src n ret = (s, .overrun) := by
  rw [State.openSpan, unfilled]
  dsimp only
  cases seq : s.rc.nextSeq with
  | exhausted => rfl
  | number q =>
    rw [seq] at none
    obtain ⟨free, held⟩ := none.resolve_left NextSeq.noConfusion
    rw [free, held]

/-- Why a sample that no span takes is dropped, with the cause of the loss. -/
structure Drops (s : State) (src : Source) (cause : Byte) : Prop where
  unfilled : s.st.filling src = none
  reason : (s.intake src).intake = .refusing ∧ cause = 0x10 ∨
    (s.intake src).intake = .taking ∧ cause = 0x08 ∧
      ((s.intake src).pendingGap.isSome = true ∧ (s.intake src).offeredGap.isSome = true ∨
        s.rc.nextSeq = .exhausted ∨ s.st.lowestFree = none ∧ s.st.oldestHeld src = none)

theorem Drops.takes {s : State} {src : Source} {cause : Byte} (h : Drops s src cause) :
    (s.intake src).intake.takes = true := by
  obtain k | k := h.reason
  · rw [k.1]; rfl
  · rw [k.1]; rfl

theorem Drops.place {s : State} {src : Source} {cause : Byte} (h : Drops s src cause) (n : Nat) (x : Sample) :
    s.place src n x = (s.drop src n cause, none) := by
  rw [State.place, h.unfilled]
  dsimp only
  obtain ⟨refusing, rfl⟩ | ⟨taking, rfl, reason⟩ := h.reason
  · exact if_pos refusing
  · rw [if_neg (by rw [taking]; exact IntakeState.noConfusion)]
    by_cases both : (s.intake src).pendingGap.isSome = true ∧ (s.intake src).offeredGap.isSome = true
    · exact if_pos (by rw [both.1, both.2]; rfl)
    · rw [if_neg (by simpa using both), State.openFor, openSpan_overrun h.unfilled (reason.resolve_left both)]
      rfl

theorem Drops.numbered {s : State} {src : Source} {cause : Byte} (h : Drops s src cause) : Drops (s.numbered src) src cause :=
  ⟨h.unfilled, by rw [numbered_intake]; exact h.reason⟩

/-- The sample is dropped, and at the last sample number the source closes. -/
theorem Drops.takeSample {s : State} {src : Source} {cause : Byte} (h : Drops s src cause)
    (quiet : Quiet src (s.intake src).nextNumber s) (x : Sample) :
    State.takeSample src s x =
      (s.dropsTo src ((s.intake src).dropsNext cause)).testNumbers src (s.intake src).nextNumber := by
  rw [takeSample_takes h.takes, h.numbered.place, drop_numbered]
  refine Quiet.tests (quiet.congr (congrArg IntakeSource.tagPending (dropsTo_intake ..) :) ?_ (dropsTo_twu ..))
  exact (congrArg IntakeSource.settings (dropsTo_intake ..) :)

theorem Drops.exhaust {s : State} {src : Source} {cause : Byte} (h : Drops s src cause)
    (last : (s.intake src).nextNumber = 2 ^ 48 - 1)
    (tag : (s.intake src).tagPending = false) (mark : (s.twu.get src).markPending = false) :
    (s.dropsTo src ((s.intake src).dropsNext cause)).testNumbers src (s.intake src).nextNumber =
      State.handGap { s.dropsTo src ((s.intake src).dropsNext cause) with
        ci := s.ci.set src { (s.intake src).dropsNext cause with intake := .closed } } src := by
  rw [last, testNumbers_last, seal_of_none (by rw [dropsTo_st]; exact h.unfilled), exhaust_quiet
    (by rw [dropsTo_intake]; exact h.takes) (by rw [dropsTo_intake]; exact tag) (by rw [dropsTo_twu]; exact mark),
    State.closedAt, dropsTo_intake, dropsTo_ci, PerSource.set_set]

/-- Settles O35: by the cause of the loss; at the last number by what becomes of the gap handed over. -/
theorem sampleIsDroppedIntoTheGap : Obligations.SampleIsDroppedIntoTheGap := by
  intro s src x cause unfilled tag mark window reason
  have drops : Drops s src cause := ⟨unfilled, reason⟩
  refine takesSample_of ?_
  rw [drops.takeSample ⟨tag, mark, window⟩ x]
  refine ⟨testNumbers_other, fun last running => ?_⟩
  have closed : State.intake { s.dropsTo src ((s.intake src).dropsNext cause) with
      ci := s.ci.set src { (s.intake src).dropsNext cause with intake := .closed } } src =
      { (s.intake src).dropsNext cause with intake := .closed } := PerSource.get_set_self _ _ _
  have lost : (s.dropsTo src ((s.intake src).dropsNext cause)).rc.runState = s.rc.runState ∧
      (s.dropsTo src ((s.intake src).dropsNext cause)).rc.runId = s.rc.runId := by
    rw [dropsTo_rc]
    exact ⟨rfl, rfl⟩
  have iu := dropsTo_iu s src ((s.intake src).dropsNext cause)
  have pending := congrArg IntakeSource.pendingGap closed
  rw [drops.exhaust last tag mark]
  refine ⟨fun offered => ?_, fun offered => ⟨fun full => ?_, fun buf target room rests => ?_⟩⟩
  · exact handGap_not (.inr (by rw [closed]; exact offered))
  · rw [handGap_waits pending (by rw [closed]; exact offered)
      ((target_congr (congrArg IndexUnit.buffers iu)).trans full), closed, PerSource.set_set]
    rfl
  · rw [handGap_admitted pending (by rw [closed]; exact offered) (buf := buf)
      ((target_congr (congrArg IndexUnit.buffers iu)).trans target) (by rw [State.buffer, iu]; exact room)
      (by rw [iu]; exact rests) (.inl (by rw [lost.1, running]; exact RunState.noConfusion)), closed, PerSource.set_set,
      iu, lost.2]
    rfl

end Sys2Proof.Machine

/-! The bytes that a sample writes (R1, R15). -/

namespace Sys2Proof.Machine

/-! ### Opens (R11, R12) -/

/-- Whether a span opens, and where, does not depend on the sample's number. -/
theorem openSpan_answer (s : State) (src : Source) (n m : Nat) (ret : Retention) :
    (s.openSpan src n ret).2 = (s.openSpan src m ret).2 := by
  unfold State.openSpan
  cases s.st.filling src with
  | some p => rfl
  | none =>
    cases s.rc.nextSeq with
    | exhausted => rfl
    | number q =>
      cases s.st.lowestFree with
      | some slot => rfl
      | none => cases s.st.oldestHeld src <;> rfl

theorem outside_openSpan (s : State) (src : Source) (n : Nat) (ret : Retention) :
    Outside s (s.openSpan src n ret).1 := by
  unfold State.openSpan
  split
  · exact .refl s
  · split
    · exact .refl s
    · dsimp only
      split
      · exact (outside_occupancyChanged _ _ _).after rfl rfl rfl rfl rfl
      · split
        · exact ⟨rfl, rfl, rfl, rfl, rfl⟩
        · exact .refl s

/-! ### Where a sample is written (R15, R48, R50) -/

theorem drop_mem (s : State) (src : Source) (n : Nat) (cause : Byte) : (s.drop src n cause).mem = s.mem := by
  rw [drop_eq, dropsTo_mem]

theorem summaryTake_mem (s : State) (src : Source) (x : Sample) : (s.summaryTake src x).mem = s.mem :=
  (within_summaryTake s src x).kept.mem

/-- Memory after a sample has been stored at the place given, if any. -/
def Memory.takes (m : Memory) (x : Sample) : Option (Nat × Nat) → Memory
  | none => m
  | some (slot, k) => m.writeSample slot k x

theorem read_takes {m : Memory} (wf : m.wf = true) (x : Sample) (place : Option (Nat × Nat)) (a : Nat) :
    (m.takes x place).read a =
      match place with
      | none => m.read a
      | some (slot, k) =>
        if a = spoolAddr slot (2 * k + 1) then x.extractLsb' 8 8
        else if a = spoolAddr slot (2 * k) then x.extractLsb' 0 8
        else m.read a := by
  cases place with
  | none => rfl
  | some p => exact Memory.read_writeSample wf p.1 p.2 a x

/-- Where the first sample of a span is stored, by the answer to its open. -/
def OpenAnswer.start : OpenAnswer → Option (Nat × Nat)
  | .opened slot => some (slot, 0)
  | .overrun => none
  | .refused _ => none

/-- A sample that needs an open is written at the start of the page opened, if one is. -/
theorem openFor_mem (s : State) (src : Source) (n : Nat) (x : Sample) :
    (s.openFor src n x).1.mem = s.mem.takes x (s.openSpan src n (s.openRetention src)).2.start := by
  have same := (outside_openSpan s src n (s.openRetention src)).mem
  unfold State.openFor
  split
  · next t slot opened =>
    rw [opened] at same ⊢
    exact (within_handGap _ src).kept.mem.trans (congrArg (·.writeSample slot 0 x) same)
  · next t opened =>
    rw [opened] at same ⊢
    exact (drop_mem t src n overrunBit).trans same
  · next t slot opened =>
    rw [opened] at same ⊢
    exact same

/-- A source that takes writes its sample where `sampleStore` says. -/
theorem place_mem {s : State} {src : Source} (takes : (s.intake src).intake.takes = true) (n : Nat) (x : Sample) :
    (s.place src n x).1.mem = s.mem.takes x (s.sampleStore src) := by
  unfold State.place State.sampleStore
  rw [if_pos takes]
  cases s.st.filling src with
  | some p => exact summaryTake_mem _ src x
  | none =>
    dsimp only
    split
    · exact drop_mem s src n refusedBit
    · split
      · exact drop_mem s src n overrunBit
      · exact (openFor_mem s src n x).trans
          (congrArg (fun answer => s.mem.takes x answer.start) (openSpan_answer s src n (s.intake src).nextNumber _))

theorem within_tests (p : State × Option Nat) (src : Source) (n : Nat) : Within p.1 (State.testsSample p src n) :=
  (within_applyTrigger _ src n _).trans ((within_testWindow _ src n _).trans
    ((within_testLength _ src _).trans (within_testNumbers _ src n)))

theorem takeSample_mem (s : State) (src : Source) (x : Sample) :
    (State.takeSample src s x).mem = s.mem.takes x ((s.numbered src).sampleStore src) := by
  by_cases takes : (s.intake src).intake.takes = true
  · rw [takeSample_takes takes]
    exact (within_tests _ src _).kept.mem.trans (place_mem (by rw [numbered_intake]; exact takes) _ x)
  · rw [State.takeSample, if_neg takes, State.sampleStore, if_neg (by rw [numbered_intake]; exact takes)]
    rfl

/-- Settles O36: the steps that follow the placing of a sample, and those of a packet's end, keep memory. -/
theorem sampleWritesItsOwnBytes : Obligations.SampleWritesItsOwnBytes := by
  intro s src x ok
  refine takesSample_of ⟨(around_takeSample src s x).mem ok, ?_, fun a => ?_⟩
  · exact ((within_age _ src).trans (within_evaluate _)).kept.mem
  · rw [takeSample_mem]
    exact read_takes ok x _ a

end Sys2Proof.Machine

/-! The seal of a span (R10, R16, R52), and what a SHEDDING source then gives up (R94, R95). -/

namespace Sys2Proof.Machine

/-! ### The span given up at a seal (R94) -/

/-- A source that gives a span up at a seal: the run is RUNNING, the source SHEDDING and its shed rule OLDEST. -/
structure Sheds (s : State) (src : Source) : Prop where
  running : s.rc.runState = .running
  shedding : s.spm.pressure.get src = .shedding
  oldest : (s.settings src).shedRule = .oldest

theorem sealPressure_calm {s : State} {src : Source} (h : s.spm.pressure.get src = .calm ∨ (s.settings src).shedRule ≠ .oldest) :
    s.sealPressure src = s := by
  refine if_neg fun ⟨_, shedding, oldest⟩ => ?_
  obtain calm | other := h
  · rw [calm] at shedding
    cases shedding
  · exact other oldest

theorem sealPressure_none {s : State} {src : Source} (held : s.st.oldestHeld src = none)
    (plain : s.st.oldestPlain src = none) : s.sealPressure src = s := by
  rw [State.sealPressure, held, plain]
  exact ite_self s

theorem recycle_of_not_stopping {s : State} (running : s.rc.runState ≠ .stopping) (slot : Nat) :
    s.recycle slot = s.release slot .recycled := by
  have after : (s.release slot .recycled).rc.runState = s.rc.runState := by
    obtain same | same := release_rc s slot .recycled <;> rw [same]
  rw [recycle_eq, does_testEnding_not [] (.inl (by rw [after]; exact running)), does_nil]

theorem Sheds.recycles {s : State} {src : Source} (h : Sheds s src) {k : Nat} {y : Span}
    (held : s.st.oldestHeld src = some (k, y)) : s.sealPressure src = s.release k .recycled := by
  rw [State.sealPressure, if_pos ⟨h.running, h.shedding, h.oldest⟩, held]
  exact recycle_of_not_stopping (by rw [h.running]; exact RunState.noConfusion) k

theorem Sheds.sheds {s : State} {src : Source} (h : Sheds s src) {k : Nat} {y : Span} (held : s.st.oldestHeld src = none)
    (plain : s.st.oldestPlain src = some (k, y)) : s.sealPressure src = (s.shedSpan k .pressure).setFlag .shed := by
  rw [State.sealPressure, if_pos ⟨h.running, h.shedding, h.oldest⟩, held, plain]

/-- A slot has been recycled, and nothing else of the table but occupancy has changed. -/
structure Recycled (s : State) (k : Nat) (t : State) : Prop where
  gone : t.span? k = none
  others : ∀ n, n ≠ k → t.span? n = s.span? n
  occupancy : t.st.occupancy = s.st.occupancy - 1
  rc : t.rc = { s.rc with counters := { s.rc.counters with recycled := s.rc.counters.recycled + 1 } }

theorem recycled_release {s : State} (table : TableOk s.st) {k : Nat} {y : Span} (found : s.span? k = some y) :
    Recycled s k (s.release k .recycled) := by
  have slots (n : Nat) : (s.release k .recycled).span? n = if n = k then none else s.span? n := by
    rw [State.span?, release_st found]
    exact findSlot_dropSlot s.st.slots k n 0 table.slots
  refine ⟨(slots k).trans (if_pos rfl), fun n other => (slots n).trans (if_neg other), ?_, ?_⟩
  · rw [release_st found]
    rfl
  · rw [release_some found, occupancyChanged_rc]
    rfl

theorem Sheds.recycled {s : State} {src : Source} (h : Sheds s src) (table : TableOk s.st) {k : Nat} {y : Span}
    (held : s.st.oldestHeld src = some (k, y)) : Recycled s k (s.sealPressure src) := by
  rw [h.recycles held]
  exact recycled_release table (SpanTable.oldestHeld_found table held).1

/-- The oldest QUEUED PLAIN span of a source is one. -/
theorem oldestPlain_found {t : SpanTable} (table : TableOk t) {src : Source} {k : Nat} {y : Span}
    (h : t.oldestPlain src = some (k, y)) :
    findSlot t.slots k = some y ∧ y.source = src ∧ y.state = .queued ∧ y.retention = .plain := by
  have plain := List.find?_some h
  obtain ⟨mem, source, state⟩ := SpanTable.mem_inState.mp (List.mem_of_find?_eq_some h)
  exact ⟨findSlot_of_mem table.slots mem, source, state, of_decide_eq_true plain⟩

theorem shedSpan_enters {s : State} {k : Nat} {y : Span} (found : s.span? k = some y) (plain : y.retention = .plain)
    (cause : ShedCause) :
    s.shedSpan k cause = (s.enter k { y with state := .shed, shedCause := some cause }).offerSpan k := by
  rw [State.shedSpan, found]
  exact if_neg fun keep => by rw [plain] at keep; exact Retention.noConfusion keep.1

/-- The span shed at a seal, unless its entry has been admitted and the slot released. -/
theorem Sheds.shed {s : State} {src : Source} (h : Sheds s src) (table : TableOk s.st) {k : Nat} {y : Span}
    (held : s.st.oldestHeld src = none) (plain : s.st.oldestPlain src = some (k, y)) :
    (s.sealPressure src).nu.isPending .shed = true ∧
      ∀ v, (s.sealPressure src).span? k = some v → v = { y with state := .shed, shedCause := some .pressure } := by
  obtain ⟨found, _, _, retention⟩ := oldestPlain_found table plain
  rw [h.sheds held plain]
  refine ⟨setFlag_pending _ _, fun v after => ?_⟩
  rw [State.span?, setFlag_st, ← State.span?, shedSpan_enters found retention] at after
  obtain ⟨ts, offers⟩ := offerSpan_does (s.enter k { y with state := .shed, shedCause := some .pressure }) k
  rw [offers] at after
  have before := (thins_does (enter_table table found) ts).kept k v after
  rw [span?_enter_self] at before
  exact (Option.some.inj before).symm

/-! ### The run goes on (R33, R34) -/

/-- The run is RUNNING, and its laws hold. -/
def Runs (more : Nat) (s : State) : Prop := RunLawWith more s ∧ s.rc.runState = .running

theorem Runs.task {more : Nat} {s : State} (t : IndexTask) (h : Runs (t.ends + more) s) :
    Runs (endsOf (s.indexTask t).2 + more) (s.indexTask t).1 := by
  obtain ⟨law, running⟩ := h
  refine ⟨(shift_indexTask s t).law more law, ?_⟩
  cases task_rc s t with
  | counts c same => rw [same]; exact running
  | ending stopping _ =>
    rw [running] at stopping
    cases stopping
  | ends n final _ _ _ =>
    have one := final_le_runEnds s.iu n
    rw [show (s.iu.buffers.get n).final = true from final, Bool.toNat_true] at one
    have ending := law.ends.2 (by omega)
    rw [running] at ending
    cases ending

theorem Runs.does {s : State} {ts : List IndexTask} (h : Runs (endsOf ts) s) : Runs 0 (s.does ts) := by
  refine tasks_induction (P := fun s ts => Runs (endsOf ts) s → Runs 0 (s.does ts))
    (fun s h => by rwa [does_nil]) (fun s t ts ih h => ?_) s ts h
  rw [does_cons]
  refine ih ?_
  rw [endsOf_append]
  rw [endsOf_cons] at h
  exact h.task t

theorem Runs.offerSpan {s : State} (h : Runs 0 s) (slot : Nat) : Runs 0 (s.offerSpan slot) := by
  unfold State.offerSpan
  split
  · rw [index_eq_does_one]
    exact Runs.does h
  · exact h

theorem Runs.sealPressure {s : State} (h : Runs 0 s) (src : Source) : Runs 0 (s.sealPressure src) := by
  refine ⟨(within_sealPressure s src).law 0 h.1, ?_⟩
  unfold State.sealPressure
  split
  · split
    · next k y _ =>
      rw [recycle_of_not_stopping (by rw [h.2]; exact RunState.noConfusion)]
      obtain same | same := release_rc s k .recycled <;> rw [same] <;> exact h.2
    · split
      · next k y plain =>
        obtain ⟨found, source, _, retention⟩ := oldestPlain_found h.1.table plain
        have entered : Within s (s.enter k { y with state := .shed, shedCause := some .pressure }) :=
          within_enter _ _ _ (.of_span? found ⟨rfl, rfl, rfl, rfl, rfl, fun k => by cases k⟩)
        rw [setFlag_rc, shedSpan_enters found retention]
        exact (Runs.offerSpan (s := s.enter k { y with state := .shed, shedCause := some .pressure })
          ⟨entered.law 0 h.1, h.2⟩ k).2
      · exact h.2
  · exact h.2

theorem IntakeKeeps.offerSpan {P : IntakeSource → Prop} (keeps : IntakeKeeps P) {src : Source} {s : State}
    (h : P (s.intake src)) (slot : Nat) : P ((s.offerSpan slot).intake src) := by
  obtain ⟨ts, offers⟩ := offerSpan_does s slot
  rw [offers]
  exact keeps.does h ts

theorem IntakeKeeps.recycle {P : IntakeSource → Prop} (keeps : IntakeKeeps P) {src : Source} {s : State}
    (h : P (s.intake src)) (slot : Nat) : P ((s.recycle slot).intake src) := by
  rw [recycle_eq]
  exact keeps.does (keeps.release h slot _) _

theorem IntakeKeeps.shedSpan {P : IntakeSource → Prop} (keeps : IntakeKeeps P) {src : Source} {s : State}
    (h : P (s.intake src)) (slot : Nat) (cause : ShedCause) : P ((s.shedSpan slot cause).intake src) := by
  unfold State.shedSpan
  split
  · next y _ =>
    split
    · exact h
    · exact keeps.offerSpan (s := s.enter slot { y with state := .shed, shedCause := some cause }) h slot
  · exact h

theorem IntakeKeeps.sealPressure {P : IntakeSource → Prop} (keeps : IntakeKeeps P) {src : Source} {s : State}
    (h : P (s.intake src)) (x : Source) : P ((s.sealPressure x).intake src) := by
  unfold State.sealPressure
  split
  · split
    · exact keeps.recycle h _
    · split
      · exact intake_of_ci (keeps.shedSpan h _ _) (setFlag_ci _ _)
      · exact h
  · exact h

/-- A source that takes and holds no pending gap. -/
def IntakeSource.Clear (i : IntakeSource) : Prop := i.intake.takes = true ∧ i.pendingGap = none

theorem clear_keeps : IntakeKeeps IntakeSource.Clear where
  moved i p q h := by
    obtain ⟨takes, -, gap⟩ := moved_rest i p q
    exact ⟨takes.trans h.1, gap.trans h.2⟩
  idle i h closed := by
    obtain ⟨takes, -⟩ := h
    rw [closed] at takes
    cases takes
  handed _ _ h := ⟨h.1, rfl⟩
  admitted _ h := h

theorem exhaust_clear {s : State} {src : Source} (h : (s.intake src).Clear) :
    (s.exhaust src).st = s.st ∧ (s.exhaust src).rc = s.rc ∧ (s.exhaust src).se = s.se ∧
      (s.exhaust src).intake src = { s.intake src with intake := .closed, tagPending := false } := by
  have closed : (s.closeIntake src).intake src = { s.intake src with intake := .closed, tagPending := false } := by
    rw [closeIntake_eq]
    exact PerSource.get_set_self _ _ _
  rw [exhaust_takes h.1, handGap_not (.inl (by rw [closed]; exact h.2))]
  exact ⟨rfl, rfl, rfl, closed⟩

/-! ### The seal in RUNNING (R10, R52) -/

/-- A FILLING span is sealed in a run that is RUNNING; the span of sequence 2^32 - 1 stops the run. -/
theorem seal_running {s : State} {src : Source} {slot : Nat} {sp : Span} (found : s.st.filling src = some (slot, sp))
    (running : s.rc.runState = .running) :
    s.seal src =
      if sp.seq = BitVec.allOnes 32 ∧ ((s.sealRecord src slot sp).sealPressure src).rc.runState = .running then
        ((s.sealRecord src slot sp).sealPressure src).enterStopping
      else (s.sealRecord src slot sp).sealPressure src := by
  have filled : s.sealFilling src = (s.sealRecord src slot sp).sealPressure src := by
    rw [State.sealFilling, found]
    dsimp only
    rw [sealSpan_eq, if_neg fun k => by rw [running] at k; exact RunState.noConfusion k.2]
  unfold State.seal
  rw [found]
  dsimp only
  rw [filled]

theorem putSlot_putSlot (l : List (Nat × Span)) (k : Nat) (x y : Span) : putSlot (putSlot l k x) k y = putSlot l k y := by
  induction l with
  | nil => simp [putSlot]
  | cons p rest ih =>
    obtain ⟨n, z⟩ := p
    by_cases below : k < n
    · simp [putSlot, below]
    · by_cases same : k = n
      · simp [putSlot, same]
      · simp [putSlot, below, same, ih]

end Sys2Proof.Machine

/-! The sample that ends its span: the seal, the span given up, the close of the source and the stop of the run (R10, R37, R50, R52, R53, R94). -/

namespace Sys2Proof.Machine

/-! ### A sample appended, and its span sealed -/

/-- A sample has been taken by the FILLING span of its source, whose running summary it has entered. -/
structure Appends (s : State) (src : Source) (slot : Nat) (sp : Span) (r : Running) (u : State) : Prop where
  found : s.st.filling src = some (slot, sp)
  st : u.st = { s.st with slots := putSlot s.st.slots slot { sp with count := sp.count + 1 } }
  summary : u.se.get src = some r
  ci : u.ci = (s.numbered src).ci
  rc : u.rc = s.rc
  al : u.al = s.al
  ds : u.ds = s.ds
  iu : u.iu = s.iu
  spm : u.spm = s.spm

theorem appends_appended {s : State} {src : Source} {slot : Nat} {sp : Span} (found : s.st.filling src = some (slot, sp))
    (r : Running) (x : Sample) :
    Appends s src slot sp (r.take x) ((s.numbered src).appended src slot sp r x) where
  found := found
  st := appended_st ..
  summary := by rw [appended_se, PerSource.get_set_self]
  ci := appended_ci ..
  rc := appended_rc ..
  al := appended_al ..
  ds := appended_ds ..
  iu := appended_iu ..
  spm := appended_spm ..

/-- The record of a span that its last sample has sealed. -/
def Span.endedWith (sp : Span) (r : Running) : Span := ({ sp with count := sp.count + 1 } : Span).sealedAs (some r.finish)

/-- The span of a slot has been sealed as `z`, and has left the Summary Engine. -/
structure Sealed (s : State) (src : Source) (slot : Nat) (z : Span) (w : State) : Prop where
  slots : w.st.slots = putSlot s.st.slots slot z
  occupancy : w.st.occupancy = s.st.occupancy
  queued : z.retention ≠ .history → slot ∈ w.st.queues.get src
  summary : w.se.get src = none
  ci : w.ci = (s.numbered src).ci
  rc : w.rc = s.rc
  al : w.al = s.al
  ds : w.ds = s.ds
  iu : w.iu = s.iu
  spm : w.spm = s.spm

theorem sealRecord_queued (s : State) {src : Source} (slot : Nat) {sp : Span} (source : sp.source = src)
    (keep : sp.retention ≠ .history) : slot ∈ (s.sealRecord src slot sp).st.queues.get src := by
  have queued (m : Option Summary) : (sp.sealedAs m).state = .queued := if_neg keep
  unfold State.sealRecord State.enter
  simp only [State.setSt_st]
  rw [PerSource.get_set, if_pos (by rw [sealedAs_source]; exact source.symm), if_pos (queued _)]
  exact mem_queueInsert.mpr (.inl rfl)

namespace Appends
variable {s u : State} {src : Source} {slot : Nat} {sp : Span} {r : Running}

theorem table (h : Appends s src slot sp r u) (table : TableOk s.st) : TableOk u.st := by
  rw [h.st]
  exact table.put _ (SpanTable.filling_listed h.found) _

theorem source (h : Appends s src slot sp r u) : sp.source = src := by
  have := List.find?_some h.found
  simp only [Bool.and_eq_true, decide_eq_true_eq] at this
  exact this.1

theorem filling (h : Appends s src slot sp r u) (table : TableOk s.st) :
    u.st.filling src = some (slot, { sp with count := sp.count + 1 }) := by
  obtain ⟨_, source, filling, first⟩ := (filling_iff table).mp h.found
  refine (filling_iff (h.table table)).mpr ⟨?_, source, filling, fun n y lower hy => ?_⟩
  · rw [State.span?, h.st]
    exact (findSlot_putSlot _ slot slot _ 0 table.slots).trans (if_pos rfl)
  · rw [State.span?, h.st] at hy
    exact first n y lower (((findSlot_putSlot _ slot n _ 0 table.slots).trans (if_neg (by omega))).symm.trans hy)

theorem one (h : Appends s src slot sp r u) (law : SpanLaw s) (table : TableOk s.st) : u.OneFilling := by
  have brim := (law.append table h.found 0).one
  have same : (s.append src slot sp 0).st = u.st := by
    rw [h.st, State.append, State.summaryTake]
    split
    · rfl
    · dsimp only
      split
      · exact setFlag_st _ _
      · rfl
  unfold State.OneFilling at brim ⊢
  rwa [same] at brim

theorem seals (h : Appends s src slot sp r u) :
    Sealed s src slot (sp.endedWith r) (u.sealRecord src slot { sp with count := sp.count + 1 }) where
  slots := by
    have summary : (u.se.get src).map Running.finish = some r.finish := by rw [h.summary]; rfl
    unfold State.sealRecord
    rw [summary]
    refine Eq.trans (b := putSlot u.st.slots slot (sp.endedWith r)) rfl ?_
    rw [h.st]
    exact putSlot_putSlot _ _ _ _
  occupancy := (congrArg SpanTable.occupancy h.st :)
  queued keep := sealRecord_queued u slot h.source keep
  summary := PerSource.get_set_self _ _ _
  ci := h.ci
  rc := h.rc
  al := h.al
  ds := h.ds
  iu := h.iu
  spm := h.spm

end Appends

namespace Sealed
variable {s w : State} {src : Source} {slot : Nat} {z : Span}

theorem intake (h : Sealed s src slot z w) :
    w.intake src = { s.intake src with newest := some (s.intake src).nextNumber } := by
  rw [State.intake, h.ci]
  exact numbered_intake s src

theorem settings (h : Sealed s src slot z w) : w.settings src = s.settings src :=
  (congrArg IntakeSource.settings h.intake :)

theorem found (h : Sealed s src slot z w) (table : TableOk s.st) : findSlot w.st.slots slot = some z := by
  rw [h.slots]
  exact (findSlot_putSlot _ slot slot _ 0 table.slots).trans (if_pos rfl)

theorem others (h : Sealed s src slot z w) (table : TableOk s.st) (n : Nat) (other : n ≠ slot) :
    findSlot w.st.slots n = findSlot s.st.slots n := by
  rw [h.slots]
  exact (findSlot_putSlot _ slot n _ 0 table.slots).trans (if_neg other)

theorem calm (h : Sealed s src slot z w)
    (calm : s.spm.pressure.get src = .calm ∨ (s.settings src).shedRule ≠ .oldest) : w.sealPressure src = w :=
  sealPressure_calm (by rw [h.spm, h.settings]; exact calm)

theorem sheds (h : Sealed s src slot z w) (running : s.rc.runState = .running)
    (shedding : s.spm.pressure.get src = .shedding) (oldest : (s.settings src).shedRule = .oldest) : Sheds w src :=
  ⟨by rw [h.rc]; exact running, by rw [h.spm]; exact shedding, by rw [h.settings]; exact oldest⟩

end Sealed

/-! ### What the end of a span comes to -/

/-- What becomes of the source and the run as a span of the record given ends at sample number `n`, after the span
given up has left the state `g`. -/
structure SpanEnds (s g v : State) (src : Source) (seq : Word32) (n : Nat) : Prop where
  goes : seq ≠ BitVec.allOnes 32 → n ≠ 2 ^ 48 - 1 → v = g
  closes : seq ≠ BitVec.allOnes 32 → n = 2 ^ 48 - 1 → v = g.exhaust src
  stops : seq = BitVec.allOnes 32 → s.rc.sourceSet.get src = true → v = g.enterStopping ∧ (v.intake src).intake.takes = false

theorem spanEnds {s u g : State} {src : Source} {slot n : Nat} {sp : Span} (found : u.st.filling src = some (slot, sp))
    (hg : g = (u.sealRecord src slot sp).sealPressure src) (running : u.rc.runState = .running)
    (goesOn : sp.seq = BitVec.allOnes 32 → g.rc.runState = .running) (sources : u.rc.sourceSet = s.rc.sourceSet) :
    SpanEnds s g (if n = 2 ^ 48 - 1 then (u.seal src).exhaust src else u.seal src) src sp.seq n := by
  have sealing := seal_running found running
  rw [← hg] at sealing
  have within : Within u g := by
    rw [hg]
    exact (within_sealRecord found).trans (within_sealPressure _ src)
  refine ⟨fun seq other => ?_, fun seq last => ?_, fun seq run => ?_⟩
  · rw [if_neg other, sealing, if_neg fun k => seq k.1]
  · rw [if_pos last, sealing, if_neg fun k => seq k.1]
  · have shut : Shut src g.enterStopping := enterStopping_shut (by rw [within.kept.sourceSet, sources]; exact run)
    have stopped : u.seal src = g.enterStopping := by rw [sealing, if_pos (And.intro seq (goesOn seq))]
    rw [stopped, exhaust_shut shut.1, ite_self]
    exact ⟨rfl, shut.1⟩

/-- A sample that ends the FILLING span of its source, with no trigger and no window's end at it. -/
theorem takeSample_ends {s : State} {src : Source} {slot : Nat} {sp : Span} {r : Running}
    (takes : (s.intake src).intake.takes = true) (found : s.st.filling src = some (slot, sp))
    (summary : s.se.get src = some r) (quiet : Quiet src (s.intake src).nextNumber s) (table : TableOk s.st)
    (law : SpanLaw s) (x : Sample)
    (ends : sp.count + 1 = 2 ^ (s.settings src).spanExp ∨ (s.intake src).nextNumber = 2 ^ 48 - 1) :
    State.takeSample src s x =
      if (s.intake src).nextNumber = 2 ^ 48 - 1 then
        (((s.numbered src).appended src slot sp r x).seal src).exhaust src
      else ((s.numbered src).appended src slot sp r x).seal src := by
  have appends := appends_appended found r x
  rw [takeSample_filling takes found summary quiet]
  exact tests_ends (Unfilled.filling (unfilled_seal src (appends.table table) (appends.one law table))) (appends.filling table)
    (by rw [appended_settings, numbered_settings]; exact ends)

/-- What the end of a span gives up, as the statements of R94 say it. -/
theorem Sheds.givesUp {w : State} {src : Source} (h : Sheds w src) (table : TableOk w.st) :
    (∀ k y, w.st.oldestHeld src = some (k, y) → Recycled w k (w.sealPressure src)) ∧
    (∀ k y, w.st.oldestHeld src = none → w.st.oldestPlain src = some (k, y) →
      (w.sealPressure src).nu.isPending .shed = true ∧
        ∀ v, (w.sealPressure src).span? k = some v → v = { y with state := .shed, shedCause := some .pressure }) ∧
    (w.st.oldestHeld src = none → w.st.oldestPlain src = none → w.sealPressure src = w) :=
  ⟨fun _ _ held => h.recycled table held, fun _ _ held plain => h.shed table held plain,
    fun held plain => sealPressure_none held plain⟩

end Sys2Proof.Machine

/-! The seal of a full span, with what is given up for it (O33). -/

namespace Sys2Proof.Machine

/-! ### The oldest span of a source (R18, R94) -/

/-- A list of spans in increasing sequence order. -/
abbrev InSeqOrder (l : List (Nat × Span)) : Prop := l.Pairwise fun p q => p.2.seq ≤ q.2.seq

theorem insertBySeq_inOrder {p : Nat × Span} {l : List (Nat × Span)} (h : InSeqOrder l) : InSeqOrder (insertBySeq p l) := by
  induction l with
  | nil => exact List.pairwise_singleton _ _
  | cons q rest ih =>
    obtain ⟨first, tail⟩ := List.pairwise_cons.mp h
    unfold insertBySeq
    split
    · next lower =>
      refine List.pairwise_cons.mpr ⟨fun x mem => ?_, h⟩
      obtain rfl | mem := List.mem_cons.mp mem
      · exact BitVec.le_of_lt lower
      · exact BitVec.le_trans (BitVec.le_of_lt lower) (first x mem)
    · next notLower =>
      refine List.pairwise_cons.mpr ⟨fun x mem => ?_, ih tail⟩
      obtain rfl | mem := mem_insertBySeq.mp mem
      · exact BitVec.not_lt.mp notLower
      · exact first x mem

theorem foldl_insertBySeq_inOrder (l : List (Nat × Span)) {acc : List (Nat × Span)} (h : InSeqOrder acc) :
    InSeqOrder (l.foldl (fun acc p => insertBySeq p acc) acc) := by
  induction l generalizing acc with
  | nil => exact h
  | cons p rest ih => exact ih (insertBySeq_inOrder h)

theorem bySeq_inOrder (l : List (Nat × Span)) : InSeqOrder (bySeq l) := foldl_insertBySeq_inOrder l .nil

/-- The first span with a property is the one of lowest sequence that has it. -/
theorem InSeqOrder.find?_least {l : List (Nat × Span)} (h : InSeqOrder l) {f : Nat × Span → Bool} {p : Nat × Span}
    (found : l.find? f = some p) : ∀ q ∈ l, f q = true → p.2.seq ≤ q.2.seq := by
  obtain ⟨_, before, after, rfl, none⟩ := List.find?_eq_some_iff_append.mp found
  intro q mem holds
  obtain mem | mem := List.mem_append.mp mem
  · have := none q mem
    rw [holds] at this
    cases this
  · obtain rfl | mem := List.mem_cons.mp mem
    · exact BitVec.le_refl _
    · exact (List.pairwise_cons.mp (List.pairwise_append.mp h).2.1).1 q mem

theorem head?_eq_find? {α : Type} (l : List α) : l.head? = l.find? fun _ => true := by
  cases l <;> rfl

theorem oldestHeld_least {t : SpanTable} {src : Source} {slot : Nat} {sp : Span} (h : t.oldestHeld src = some (slot, sp)) :
    (slot, sp) ∈ t.slots ∧ sp.source = src ∧ sp.state = .held ∧
      ∀ p ∈ t.slots, p.2.source = src → p.2.state = .held → sp.seq ≤ p.2.seq := by
  unfold SpanTable.oldestHeld at h
  obtain ⟨mem, source, state⟩ := SpanTable.mem_inState.mp (List.mem_of_mem_head? h)
  rw [head?_eq_find?] at h
  exact ⟨mem, source, state, fun p mem source state =>
    (bySeq_inOrder _).find?_least h p (SpanTable.mem_inState.mpr ⟨mem, source, state⟩) rfl⟩

theorem oldestHeld_none {t : SpanTable} {src : Source} (h : t.oldestHeld src = none) :
    ∀ p ∈ t.slots, p.2.source = src → p.2.state ≠ .held := fun p mem source state => by
  have listed : p ∈ t.inState src .held := SpanTable.mem_inState.mpr ⟨mem, source, state⟩
  rw [List.head?_eq_none_iff.mp h] at listed
  cases listed

theorem oldestPlain_least {t : SpanTable} {src : Source} {slot : Nat} {sp : Span}
    (h : t.oldestPlain src = some (slot, sp)) :
    (slot, sp) ∈ t.slots ∧ sp.source = src ∧ sp.state = .queued ∧ sp.retention = .plain ∧
      ∀ p ∈ t.slots, p.2.source = src → p.2.state = .queued → p.2.retention = .plain → sp.seq ≤ p.2.seq := by
  obtain ⟨mem, source, state⟩ := SpanTable.mem_inState.mp (List.mem_of_find?_eq_some h)
  have plain := List.find?_some h
  exact ⟨mem, source, state, of_decide_eq_true plain, fun p mem source state plain =>
    (bySeq_inOrder _).find?_least h p (SpanTable.mem_inState.mpr ⟨mem, source, state⟩) (decide_eq_true plain)⟩

theorem oldestPlain_none {t : SpanTable} {src : Source} (h : t.oldestPlain src = none) :
    ∀ p ∈ t.slots, p.2.source = src → p.2.state = .queued → p.2.retention ≠ .plain := fun p mem source state plain =>
  List.find?_eq_none.mp h p (SpanTable.mem_inState.mpr ⟨mem, source, state⟩) (decide_eq_true plain)

/-- The oldest spans depend on the records alone. -/
theorem oldest_congr {t u : SpanTable} (h : t.slots = u.slots) (src : Source) :
    t.oldestHeld src = u.oldestHeld src ∧ t.oldestPlain src = u.oldestPlain src := by
  unfold SpanTable.oldestHeld SpanTable.oldestPlain SpanTable.inState
  rw [h]
  exact ⟨rfl, rfl⟩

/-! ### The seal with nothing given up -/

theorem appended_running {s : State} {src : Source} {slot : Nat} {sp : Span} {r : Running} {u : State}
    (h : Appends s src slot sp r u) (running : s.rc.runState = .running) : u.rc.runState = .running := by
  rw [h.rc]
  exact running

/-- The source closes at its last number, with no gap held: nothing else changes. -/
theorem exhaust_sealed {s w : State} {src : Source} {slot : Nat} {z : Span} (h : Sealed s src slot z w)
    (takes : (s.intake src).intake.takes = true) (tag : (s.intake src).tagPending = false)
    (mark : (w.twu.get src).markPending = false) (gap : (s.intake src).pendingGap = none) :
    w.exhaust src = w.closedAt src :=
  exhaust_noGap (by rw [h.intake]; exact takes) (by rw [h.intake]; exact tag) mark (.inl (by rw [h.intake]; exact gap))

/-- What a seal leaves, in the words of the first part of the statement. -/
theorem Sealed.rest {s w : State} {src : Source} {slot : Nat} {sp : Span} {r : Running}
    (h : Sealed s src slot (sp.endedWith r) w) (table : TableOk s.st) :
    findSlot w.st.slots slot = some (sp.endedWith r) ∧
      (∀ n, n ≠ slot → findSlot w.st.slots n = findSlot s.st.slots n) ∧
      (sp.retention ≠ .history → slot ∈ w.st.queues.get src) ∧ w.st.occupancy = s.st.occupancy ∧
      w.se.get src = none ∧ w.rc = s.rc ∧ w.al = s.al ∧ w.ds = s.ds ∧ w.iu = s.iu :=
  ⟨h.found table, h.others table, h.queued, h.occupancy, h.summary, h.rc, h.al, h.ds, h.iu⟩

theorem numbered_twu (s : State) (src : Source) : (s.numbered src).twu = s.twu := rfl

/-- The laws of a run, and its state, as the sample is appended. -/
theorem runs_appended {s : State} {src : Source} {slot : Nat} {sp : Span} {r : Running}
    (found : s.st.filling src = some (slot, sp)) (summary : s.se.get src = some r) (running : s.rc.runState = .running)
    (law : RunLaw s) (x : Sample) : Runs 0 ((s.numbered src).appended src slot sp r x) := by
  have numbered : RunLaw (s.numbered src) :=
    (around_onIntake s src (fun i => { i with newest := some (s.intake src).nextNumber }) rfl id).law law
  refine ⟨?_, by rw [appended_rc]; exact running⟩
  rw [← append_eq (s := s.numbered src) summary slot sp x]
  exact (around_append (s.numbered src) src slot sp x found).law numbered

/-- Settles O33: the seal is that of `Sealed`, and what follows it that of `SpanEnds`. -/
theorem fullSpanIsSealed : Obligations.FullSpanIsSealed := by
  refine ⟨fun s src x slot sp r takes running found summary tag mark window calm ends table law => ?_,
    fun s src x slot sp r takes running found summary tag mark window shedding oldest ends law spans => ?_,
    fun s src running shedding oldest table => ?_, fun t src => ?_⟩
  · have appends := appends_appended found r x
    have run := appended_running appends running
    have sealed := appends.seals
    have rest := sealed.rest table
    have twu : (((s.numbered src).appended src slot sp r x).twu.get src).markPending = false := by
      rw [appended_twu]; exact mark
    have after := spanEnds (s := s) (n := (s.intake src).nextNumber) (appends.filling table) rfl run
      (fun _ => by rw [sealed.calm calm, sealed.rc]; exact running) (by rw [appends.rc])
    rw [sealed.calm calm] at after
    refine takesSample_of ?_
    rw [takeSample_ends takes found summary ⟨tag, mark, window⟩ table law x ends]
    refine ⟨fun seq other => ?_, fun seq last gap => ?_, fun seq sources => ?_⟩
    · rw [after.goes seq other]
      exact rest
    · rw [after.closes seq last, exhaust_sealed sealed takes tag twu gap]
      refine ⟨rest, ?_⟩
      rw [closedAt_intake, sealed.intake, last]
    · obtain ⟨stopped, shut⟩ := after.stops seq sources
      refine ⟨⟨_, rest, stopped⟩, ?_, ?_, shut⟩
      · rw [stopped]; exact enterStopping_state
      · rw [stopped]
        have timer := enterStopping_timer
          (((s.numbered src).appended src slot sp r x).sealRecord src slot { sp with count := sp.count + 1 })
        rw [sealed.rc] at timer
        exact timer
  · have appends := appends_appended found r x
    have run := runs_appended found summary running law x
    have table := law.table
    have filling := appends.filling table
    have sealed := appends.seals
    have sheds := sealed.sheds running shedding oldest
    have runs : Runs 0 (((s.numbered src).appended src slot sp r x).sealRecord src slot { sp with count := sp.count + 1 }) :=
      ⟨(within_sealRecord filling).law 0 run.1, run.2⟩
    obtain ⟨recycled, shed, nothing⟩ := sheds.givesUp runs.1.table
    have clear (gap : (s.intake src).pendingGap = none) := exhaust_clear (clear_keeps.sealPressure
      (by rw [sealed.intake]; exact ⟨takes, gap⟩) src)
    have same := oldest_congr (u := { s.st with slots := putSlot s.st.slots slot (sp.endedWith (r.take x)) }) sealed.slots src
    have after := spanEnds (s := s) (n := (s.intake src).nextNumber) filling rfl run.2 (fun _ => (runs.sealPressure src).2)
      (by rw [appends.rc])
    refine takesSample_of ?_
    rw [takeSample_ends takes found summary ⟨tag, mark, window⟩ table spans x ends]
    refine ⟨_, _, rfl, sealed.slots, sealed.occupancy, sealed.queued, sealed.summary, sealed.rc, sealed.al, sealed.ds,
      sealed.iu, sealed.spm, fun k h held => ?_, fun k h held plain => ?_, fun held plain => ?_, after.goes,
      fun seq last gap => ?_, after.stops⟩
    · have gone := recycled k h (same.1.trans held)
      refine ⟨gone.gone, fun n other => (gone.others n other).trans (congrArg (findSlot · n) sealed.slots), ?_, ?_⟩
      · rw [gone.occupancy, sealed.occupancy]
      · rw [gone.rc, sealed.rc]
    · exact shed k h (same.1.trans held) (same.2.trans plain)
    · exact nothing (same.1.trans held) (same.2.trans plain)
    · rw [after.closes seq last]
      obtain ⟨st, rc, -, closed⟩ := clear gap
      exact ⟨st, rc, by rw [closed]⟩
  · obtain ⟨recycled, shed, nothing⟩ := Sheds.givesUp ⟨running, shedding, oldest⟩ table
    refine ⟨fun slot sp held => ?_, fun slot sp held plain => ?_, nothing⟩
    · have gone := recycled slot sp held
      exact ⟨gone.gone, gone.others, gone.occupancy, by rw [gone.rc]⟩
    · obtain ⟨flag, record⟩ := shed slot sp held plain
      refine ⟨flag, fun v after => ?_⟩
      rw [record v after]
      exact ⟨rfl, rfl⟩
  · exact ⟨fun _ _ h => oldestHeld_least h, oldestHeld_none, fun _ _ h => oldestPlain_least h, oldestPlain_none⟩

end Sys2Proof.Machine

/-! Samples that open a span (R11 to R14, R48, R60), and the gap handed over at an open (R55). -/

namespace Sys2Proof.Machine

/-! ### Opens (R11 to R14) -/

/-- The run as a span of sequence `q` is issued, and `recycled` slots recycled for it. -/
def State.issuing (s : State) (q : Word32) (recycled : Count64) : RunController :=
  { s.rc with
    nextSeq := if q = BitVec.allOnes 32 then .exhausted else .number (q + 1)
    counters := { s.rc.counters with
      issued := s.rc.counters.issued + 1
      recycled := s.rc.counters.recycled + recycled } }

theorem issuing_zero (s : State) (q : Word32) : (s.issue q).rc = s.issuing q 0 := by
  have none : s.rc.counters.recycled + 0 = s.rc.counters.recycled := BitVec.add_zero _
  rw [State.issuing, none]
  rfl

/-- The slot that an open of a source takes: the lowest FREE one, or that of the oldest HELD span. -/
def SpanTable.OpensAt (t : SpanTable) (src : Source) (slot : Nat) : Prop :=
  t.lowestFree = some slot ∨ t.lowestFree = none ∧ ∃ h, t.oldestHeld src = some (slot, h)

/-- A span of the record given has been opened in a slot. -/
structure Opened (s : State) (src : Source) (slot : Nat) (q : Word32) (z : Span) (t : State) : Prop where
  slots : t.st.slots = putSlot s.st.slots slot z
  occupancy : t.st.occupancy = s.st.occupancy + if s.st.lowestFree = none then 0 else 1
  queues : t.st.queues = s.st.queues
  rc : t.rc = s.issuing q (if s.st.lowestFree = none then 1 else 0)
  intake : ∃ p p', t.intake src = (s.intake src).moved p p'
  twu : t.twu = s.twu
  se : t.se = s.se
  mem : t.mem = s.mem
  al : t.al = s.al
  ds : t.ds = s.ds
  iu : t.iu = s.iu

theorem moved_self (i : IntakeSource) (p : Pressure) : i.moved p p = i := if_pos rfl

theorem Opened.reported {s t : State} {src : Source} {slot : Nat} {q : Word32} {z : Span} (h : Opened s src slot q z t)
    (same : t.intake src = s.intake src) (u v : Nat) : Opened s src slot q z (t.occupancyChanged u v) := by
  have st := occupancyChanged_st u v t
  have only := indexOnly_occupancyChanged t u v
  exact {
    slots := by rw [st]; exact h.slots
    occupancy := by rw [st]; exact h.occupancy
    queues := by rw [st]; exact h.queues
    rc := by rw [occupancyChanged_rc]; exact h.rc
    intake := ⟨_, _, by rw [occupancyChanged_intake, same]⟩
    twu := only.twu.trans h.twu
    se := only.se.trans h.se
    mem := only.mem.trans h.mem
    al := only.al.trans h.al
    ds := only.ds.trans h.ds
    iu := (beside_occupancyChanged u v t).iu.trans h.iu }

theorem opened_free {s : State} {src : Source} {slot : Nat} (free : s.st.lowestFree = some slot) (q : Word32) (z : Span) :
    Opened s src slot q z
      ((s.issue q).setSt { s.st with slots := putSlot s.st.slots slot z, occupancy := s.st.occupancy + 1 }) where
  slots := rfl
  occupancy := by rw [free]; rfl
  queues := rfl
  rc := by rw [free]; exact issuing_zero s q
  intake := ⟨.calm, .calm, (moved_self _ _).symm⟩
  twu := rfl
  se := rfl
  mem := rfl
  al := rfl
  ds := rfl
  iu := rfl

theorem opened_held {s : State} {src : Source} (full : s.st.lowestFree = none) (slot : Nat) (q : Word32) (z : Span) :
    Opened s src slot q z (((s.issue q).onCounters ReleaseCause.recycled.count).setSpan slot z) where
  slots := rfl
  occupancy := by rw [full]; rfl
  queues := rfl
  rc := by rw [full]; rfl
  intake := ⟨.calm, .calm, (moved_self _ _).symm⟩
  twu := rfl
  se := rfl
  mem := rfl
  al := rfl
  ds := rfl
  iu := rfl

theorem openSpan_opens {s : State} {src : Source} {slot : Nat} {q : Word32} (unfilled : s.st.filling src = none)
    (opens : s.st.OpensAt src slot) (seq : s.rc.nextSeq = .number q) (n : Nat) (ret : Retention) :
    ∃ t, s.openSpan src n ret = (t, .opened slot) ∧
      Opened s src slot q (openedSpan (s.rc.runId.getD 0) q src n ret (s.settings src)) t := by
  rw [State.openSpan, unfilled]
  dsimp only
  rw [seq]
  dsimp only
  obtain free | ⟨full, h, held⟩ := opens
  · rw [free]
    exact ⟨_, rfl, (opened_free free q _).reported rfl _ _⟩
  · rw [full, held]
    exact ⟨_, rfl, opened_held full slot q _⟩

/-! ### A sample that opens a span (R48, R60, R77) -/

/-- The record of the span that a source's next sample opens. -/
def State.opensAs (s : State) (src : Source) (q : Word32) : Span :=
  openedSpan (s.rc.runId.getD 0) q src (s.intake src).nextNumber (s.openRetention src) (s.settings src)

/-- A span has been opened by a sample, which stands at the start of its page. -/
structure Begins (s : State) (src : Source) (slot : Nat) (q : Word32) (x : Sample) (u : State) : Prop where
  slots : u.st.slots = putSlot s.st.slots slot (s.opensAs src q)
  occupancy : u.st.occupancy = s.st.occupancy + if s.st.lowestFree = none then 0 else 1
  queues : u.st.queues = s.st.queues
  rc : u.rc = s.issuing q (if s.st.lowestFree = none then 1 else 0)
  intake : ∃ p p', u.intake src =
    ({ s.intake src with newest := some (s.intake src).nextNumber } : IntakeSource).moved p p'
  twu : u.twu = s.twu
  se : u.se = s.se.set src (some (startRunning slot (s.settings src) x))
  mem : u.mem = s.mem.writeSample slot 0 x
  al : u.al = s.al
  ds : u.ds = s.ds
  iu : u.iu = s.iu

theorem moved_others (i : IntakeSource) (p q : Pressure) :
    (i.moved p q).settings = i.settings ∧ (i.moved p q).newest = i.newest ∧ (i.moved p q).offeredGap = i.offeredGap := by
  unfold IntakeSource.moved
  split
  · exact ⟨rfl, rfl, rfl⟩
  · split <;> exact ⟨rfl, rfl, rfl⟩

theorem openRetention_numbered (s : State) (src : Source) : (s.numbered src).openRetention src = s.openRetention src := by
  unfold State.openRetention
  rw [numbered_settings]
  rfl

theorem Opened.begins {s t : State} {src : Source} {slot : Nat} {q : Word32}
    (h : Opened (s.numbered src) src slot q (s.opensAs src q) t) (x : Sample) :
    Begins s src slot q x ((t.setMem (t.mem.writeSample slot 0 x)).summaryStart src slot x) := by
  obtain ⟨p, p', moved⟩ := h.intake
  rw [numbered_intake] at moved
  have settings : t.settings src = s.settings src :=
    (congrArg IntakeSource.settings moved :).trans (moved_others _ p p').1
  exact {
    slots := h.slots
    occupancy := h.occupancy
    queues := h.queues
    rc := h.rc
    intake := ⟨p, p', moved⟩
    twu := h.twu
    se := by
      refine Eq.trans (b := t.se.set src (some (startRunning slot (t.settings src) x))) rfl ?_
      rw [settings, h.se]
      rfl
    mem := congrArg (·.writeSample slot 0 x) h.mem
    al := h.al
    ds := h.ds
    iu := h.iu }

/-- A source that takes, holds no FILLING span and not both gaps, and finds a slot and a sequence number. -/
structure OpensNext (s : State) (src : Source) (slot : Nat) (q : Word32) : Prop where
  taking : (s.intake src).intake = .taking
  unfilled : s.st.filling src = none
  slot : s.st.OpensAt src slot
  seq : s.rc.nextSeq = .number q
  gaps : (s.intake src).pendingGap = none ∨ (s.intake src).offeredGap = none

theorem OpensNext.place {s : State} {src : Source} {slot : Nat} {q : Word32} (h : OpensNext s src slot q) (x : Sample) :
    ∃ u, (s.numbered src).place src (s.intake src).nextNumber x = (u.handGap src, some slot) ∧ Begins s src slot q x u := by
  obtain ⟨t, open_, opened⟩ := openSpan_opens (s := s.numbered src) h.unfilled h.slot h.seq (s.intake src).nextNumber
    ((s.numbered src).openRetention src)
  rw [numbered_settings, openRetention_numbered] at opened
  refine ⟨_, ?_, opened.begins x⟩
  have unfilled : (s.numbered src).st.filling src = none := h.unfilled
  have notBoth : ¬ ((s.intake src).pendingGap.isSome && (s.intake src).offeredGap.isSome) = true := by
    obtain free | free := h.gaps <;> rw [free] <;> simp
  rw [State.place, unfilled, numbered_intake]
  dsimp only
  rw [if_neg (by rw [h.taking]; exact IntakeState.noConfusion), if_neg notBoth, State.openFor, open_]

namespace Begins
variable {s u : State} {src : Source} {slot : Nat} {q : Word32} {x : Sample}

theorem takes (h : Begins s src slot q x u) (takes : (s.intake src).intake.takes = true) :
    (u.intake src).intake.takes = true := by
  obtain ⟨p, p', moved⟩ := h.intake
  rw [moved]
  exact (moved_rest _ p p').1.trans takes

theorem tag (h : Begins s src slot q x u) : (u.intake src).tagPending = (s.intake src).tagPending := by
  obtain ⟨p, p', moved⟩ := h.intake
  rw [moved]
  exact (moved_rest _ p p').2.1

theorem pending (h : Begins s src slot q x u) : (u.intake src).pendingGap = (s.intake src).pendingGap := by
  obtain ⟨p, p', moved⟩ := h.intake
  rw [moved]
  exact (moved_rest _ p p').2.2

theorem settings (h : Begins s src slot q x u) : u.settings src = s.settings src := by
  obtain ⟨p, p', moved⟩ := h.intake
  exact (congrArg IntakeSource.settings moved :).trans (moved_others _ p p').1

theorem newest (h : Begins s src slot q x u) : (u.intake src).newest = some (s.intake src).nextNumber := by
  obtain ⟨p, p', moved⟩ := h.intake
  rw [moved]
  exact (moved_others _ p p').2.1

theorem offered (h : Begins s src slot q x u) : (u.intake src).offeredGap = (s.intake src).offeredGap := by
  obtain ⟨p, p', moved⟩ := h.intake
  rw [moved]
  exact (moved_others _ p p').2.2

theorem quiet (h : Begins s src slot q x u) {n : Nat} (k : Quiet src n s) : Quiet src n u :=
  k.congr h.tag h.settings h.twu

theorem found (h : Begins s src slot q x u) (table : TableOk s.st) :
    findSlot u.st.slots slot = some (s.opensAs src q) := by
  rw [h.slots]
  exact (findSlot_putSlot _ slot slot _ 0 table.slots).trans (if_pos rfl)

theorem others (h : Begins s src slot q x u) (table : TableOk s.st) (n : Nat) (other : n ≠ slot) :
    findSlot u.st.slots n = findSlot s.st.slots n := by
  rw [h.slots]
  exact (findSlot_putSlot _ slot n _ 0 table.slots).trans (if_neg other)

end Begins

theorem opensAt_table {s u : State} {src : Source} {slot : Nat} {q : Word32} {x : Sample} (h : Begins s src slot q x u)
    (table : TableOk s.st) (opens : s.st.OpensAt src slot) : TableOk u.st := by
  obtain free | ⟨full, y, held⟩ := opens
  · refine ⟨?_, ?_⟩
    · rw [h.slots]
      exact (table.open_ _ free).1.slots
    · rw [h.slots, h.occupancy, free]
      exact (table.open_ _ free).1.occupancy
  · have put := table.put (s.opensAs src q) (SpanTable.oldestHeld_listed held) s.st.queues
    refine ⟨?_, ?_⟩
    · rw [h.slots]
      exact put.slots
    · rw [h.slots, h.occupancy, full]
      exact put.occupancy

theorem begins_filling {s u : State} {src : Source} {slot : Nat} {q : Word32} {x : Sample} (h : Begins s src slot q x u)
    (table : TableOk s.st) (next : OpensNext s src slot q) : u.st.filling src = some (slot, s.opensAs src q) := by
  refine (filling_iff (opensAt_table h table next.slot)).mpr ⟨h.found table, rfl, rfl, fun n y lower hy k => ?_⟩
  rw [State.span?, h.others table n (by omega)] at hy
  exact State.Unfilled.of_none next.unfilled (n, y) (mem_of_findSlot hy) k.1 k.2

end Sys2Proof.Machine

/-! The sample that opens a span, its last sample number, and the gaps admitted in turn (O34). -/

namespace Sys2Proof.Machine

/-! ### The lowest FREE slot (R12) -/

theorem firstFree_none {slots : List (Nat × Span)} {fuel k : Nat} (h : firstFree slots fuel k = none) :
    ∀ n, k ≤ n → n < k + fuel → (findSlot slots n).isSome = true := by
  induction fuel generalizing k with
  | zero => exact fun n low high => absurd high (by omega)
  | succ fuel ih =>
    unfold firstFree at h
    split at h
    · cases h
    · next listed =>
      intro n low high
      by_cases same : n = k
      · rw [same]
        exact Option.isSome_iff_ne_none.mpr fun free => listed (by rw [free]; rfl)
      · exact ih h n (by omega) (by omega)

theorem lowestFree_none {t : SpanTable} : t.lowestFree = none ↔ ∀ n, n < 4096 → (findSlot t.slots n).isSome = true := by
  constructor
  · exact fun h n below => firstFree_none h n (Nat.zero_le n) (by rw [Nat.zero_add]; exact below)
  · intro all
    cases h : t.lowestFree with
    | none => rfl
    | some slot =>
      obtain ⟨below, free, -⟩ := SpanTable.lowestFree_some h
      have listed := all slot below
      rw [free] at listed
      cases listed

theorem lowestFree_iff {t : SpanTable} {slot : Nat} :
    t.lowestFree = some slot ↔
      slot < 4096 ∧ findSlot t.slots slot = none ∧ ∀ n, n < slot → (findSlot t.slots n).isSome = true := by
  refine ⟨SpanTable.lowestFree_some, fun ⟨below, free, listed⟩ => ?_⟩
  cases h : t.lowestFree with
  | none =>
    have full := lowestFree_none.mp h slot below
    rw [free] at full
    cases full
  | some m =>
    obtain ⟨_, other, lower⟩ := SpanTable.lowestFree_some h
    obtain less | same | more := Nat.lt_trichotomy m slot
    · have k := listed m less
      rw [other] at k
      cases k
    · rw [same]
    · have k := lower slot more
      rw [free] at k
      cases k

/-! ### What the seal's pressure rule keeps -/

theorem indexOnly_shedSpan (s : State) (slot : Nat) (cause : ShedCause) : IndexOnly s (s.shedSpan slot cause) := by
  unfold State.shedSpan
  split
  · next sp _ =>
    split
    · exact .refl s
    · obtain ⟨ts, offers⟩ := offerSpan_does (s.enter slot { sp with state := .shed, shedCause := some cause }) slot
      rw [offers]
      exact IndexOnly.trans ⟨rfl⟩ (indexOnly_does _ ts)
  · exact .refl s

theorem indexOnly_recycle (s : State) (slot : Nat) : IndexOnly s (s.recycle slot) := by
  rw [recycle_eq]
  exact (indexOnly_release s slot .recycled).trans (indexOnly_does _ _)

theorem indexOnly_sealPressure (s : State) (src : Source) : IndexOnly s (s.sealPressure src) := by
  unfold State.sealPressure
  split
  · split
    · exact indexOnly_recycle s _
    · split
      · exact (indexOnly_shedSpan s _ _).trans (indexOnly_setFlag _ _)
      · exact .refl s
  · exact .refl s

theorem newest_keeps (n : Option Nat) : IntakeKeeps fun i => i.newest = n where
  moved i p q h := (moved_others i p q).2.1.trans h
  idle _ h _ := h
  handed _ _ h := h
  admitted _ h := h

theorem tag_keeps (b : Bool) : IntakeKeeps fun i => i.tagPending = b where
  moved i p q h := (moved_rest i p q).2.1.trans h
  idle _ h _ := h
  handed _ _ h := h
  admitted _ h := h

/-- No gap comes to be pending. -/
theorem noPending_keeps : IntakeKeeps fun i => i.pendingGap = none where
  moved i p q h := (moved_rest i p q).2.2.trans h
  idle _ h _ := h
  handed _ _ _ := rfl
  admitted _ h := h

theorem IntakeKeeps.handGap {P : IntakeSource → Prop} (keeps : IntakeKeeps P) {src : Source} {s : State}
    (h : P (s.intake src)) (x : Source) : P ((s.handGap x).intake src) := by
  rw [handGap_eq]
  exact keeps.does (keeps.handOver h x) _

theorem indexOnly_handGap (s : State) (src : Source) : IndexOnly s (s.handGap src) := by
  rw [handGap_eq]
  exact (indexOnly_handOver s src).trans (indexOnly_does _ _)

/-- A gap handed over leaves the trigger and the window. -/
theorem Quiet.handGap {src : Source} {n : Nat} {s : State} (h : Quiet src n s) : Quiet src n (s.handGap src) :=
  h.congr (by rw [(tag_keeps false).handGap h.tag src, h.tag]) ((within_handGap s src).kept.settings src) (indexOnly_handGap s src).twu

/-- The pending gap is held no more, where none was offered. -/
theorem handGap_noPending {s : State} {src : Source} (offered : (s.intake src).offeredGap = none) :
    ((s.handGap src).intake src).pendingGap = none := by
  cases pending : (s.intake src).pendingGap with
  | none => rw [handGap_not (.inl pending), pending]
  | some g =>
    rw [handGap_eq, handOver_some pending offered]
    exact noPending_keeps.does (by rw [intake_onIntake_self]) _

/-! ### The sample that opens a span -/

/-- The sample that opens a span: the tests of R50 find the span short and no trigger. -/
theorem takeSample_opens {s : State} {src : Source} {slot : Nat} {q : Word32} (next : OpensNext s src slot q)
    (quiet : Quiet src (s.intake src).nextNumber s) (long : 0 < (s.settings src).spanExp) (table : TableOk s.st)
    (x : Sample) :
    ∃ u, Begins s src slot q x u ∧ (s.numbered src).place src (s.intake src).nextNumber x = (u.handGap src, some slot) ∧
      ((u.handGap src).st = u.st →
        State.takeSample src s x = (u.handGap src).testNumbers src (s.intake src).nextNumber) := by
  obtain ⟨u, placed, begins⟩ := next.place x
  refine ⟨u, begins, placed, fun st => ?_⟩
  have settings : (u.handGap src).settings src = s.settings src :=
    ((within_handGap u src).kept.settings src).trans begins.settings
  have short : (s.opensAs src q).count ≠ 2 ^ (s.settings src).spanExp := fun k => by
    have one : 2 ^ (s.settings src).spanExp = 1 := k.symm
    have := Nat.one_lt_two_pow (n := (s.settings src).spanExp) (by omega)
    omega
  rw [takeSample_takes (by rw [next.taking]; rfl), placed, (begins.quiet quiet).handGap.tests,
    testLength_short (by rw [st]; exact begins_filling begins table next) (by rw [settings]; exact short)]

/-- The retention of a new span, by mode and window. -/
theorem openRetention_eq (s : State) (src : Source) :
    s.openRetention src =
      if (s.settings src).mode = .continuous then .plain
      else if (s.twu.get src).window = none then .history else .keep := by
  unfold State.openRetention
  cases (s.settings src).mode with
  | continuous => rfl
  | triggered => cases (s.twu.get src).window <;> rfl

theorem opensAs_eq (s : State) (src : Source) (q : Word32) :
    s.opensAs src q =
      openedSpan (s.rc.runId.getD 0) q src (s.intake src).nextNumber
        (if (s.settings src).mode = .continuous then .plain
          else if (s.twu.get src).window = none then .history else .keep) (s.settings src) := by
  rw [State.opensAs, openRetention_eq]

/-! ### The opening sample at the last sample number (R53) -/

/-- What the seal leaves of a span that its opening sample ends. -/
theorem begins_sealed {s u : State} {src : Source} {slot : Nat} {q : Word32} {x : Sample} (h : Begins s src slot q x u)
    (table : TableOk s.st) :
    findSlot (u.sealRecord src slot (s.opensAs src q)).st.slots slot =
        some ((s.opensAs src q).sealedAs (some (startRunning slot (s.settings src) x).finish)) ∧
      ∀ n, n ≠ slot → findSlot (u.sealRecord src slot (s.opensAs src q)).st.slots n = findSlot s.st.slots n := by
  have summary : u.se.get src = some (startRunning slot (s.settings src) x) := by
    rw [h.se, PerSource.get_set_self]
  refine ⟨?_, fun n other => ?_⟩
  · refine (sealRecord_span_self u src slot _).trans ?_
    rw [summary]
    rfl
  · exact (sealRecord_span_other u src _ other).trans (h.others table n other)

/-- The run goes on as its laws hold when a span is opened. -/
theorem begins_runs {s u : State} {src : Source} {slot : Nat} {q : Word32} {x : Sample} (h : Begins s src slot q x u)
    (placed : (s.numbered src).place src (s.intake src).nextNumber x = (u, some slot))
    (running : s.rc.runState = .running) (law : RunLaw s) : Runs 0 u := by
  have numbered : RunLaw (s.numbered src) :=
    (around_onIntake s src (fun i => { i with newest := some (s.intake src).nextNumber }) rfl id).law law
  have placedLaw := (aroundIf_place (s.numbered src) src (s.intake src).nextNumber x).law
    (congrArg RunState.slotsFree running) numbered
  rw [placed] at placedLaw
  exact ⟨placedLaw, by rw [h.rc]; exact running⟩

/-! ### An offered gap admitted, and the gap that follows it (R55, R57) -/

theorem index_offer_gap {s : State} {src : Source} {g : Gap} {b : BufferName} (offered : (s.intake src).offeredGap = some g)
    (target : s.target = some b) (room : (s.buffer b).entries.length + 1 < 63) (rests : IndexRests s.iu)
    (running : s.rc.runState = .running)
    (last : (s.intake src).intake ≠ .closed ∨ (s.intake src).pendingGap = none) :
    s.index [.offer (.gap src)] = s.gapIn src g b := by
  rw [index_eq_does_one, offer_gap_last offered target room rests last,
    does_testEnding_not [] (.inl (by exact fun k => RunState.noConfusion (running.symm.trans k))), does_nil]

/-- A CLOSED source's pending gap is admitted after the one offered. -/
theorem index_offer_gaps {s : State} {src : Source} {g h : Gap} {b : BufferName}
    (offered : (s.intake src).offeredGap = some g) (target : s.target = some b)
    (room : (s.buffer b).entries.length + 2 < 63) (rests : IndexRests s.iu) (running : s.rc.runState = .running)
    (closed : (s.intake src).intake = .closed) (pending : (s.intake src).pendingGap = some h) :
    s.index [.offer (.gap src)] =
      { s with
        ci := s.ci.set src { s.intake src with pendingGap := none, offeredGap := none }
        iu := (s.iu.admits b (g.entry src (s.rc.runId.getD 0))).admits b (h.entry src (s.rc.runId.getD 0)) } := by
  have first := gapIn_intake s src g b
  have handed := intake_onIntake_self (s.gapIn src g b) src fun i => { i with pendingGap := none, offeredGap := some h }
  have more : (s.buffer b).entries.length + 1 + 1 < 63 := room
  rw [index_eq_does_one, offer_gap offered target (by omega) rests,
    does_handNext_hands _ (by rw [first]; exact closed) (by rw [first]; exact pending) (by rw [first]),
    offer_gap_last (g := h) (buf := b) (by rw [handed]) (target_admits target rfl)
      (by
        refine lt_of_eq_of_lt ?_ more
        exact congrArg (· + 1) ((congrArg List.length (gapIn_buffer s src g b)).trans List.length_append))
      (rests.admits b _) (.inr (by rw [handed])),
    does_testEnding_not _ (.inl (by exact fun k => RunState.noConfusion (running.symm.trans k))),
    does_testEnding_not [] (.inl (by exact fun k => RunState.noConfusion (running.symm.trans k))), does_nil]
  cases src <;> rfl

/-- Settles O34: the open by its answer, and the gap it hands over by the buffer that can take it. -/
theorem sampleOpensASpan : Obligations.SampleOpensASpan := by
  refine ⟨fun s src x slot q taking unfilled opens seq pending tag mark window long table => ?_,
    fun t => ⟨fun slot => lowestFree_iff, lowestFree_none⟩,
    fun s src x slot q g taking unfilled opens seq pending offered tag mark window long last table rests offers => ?_,
    fun s src g b offered target room rests running => ⟨fun last => ?_, fun h closed pending => ?_⟩⟩
  · have next : OpensNext s src slot q := ⟨taking, unfilled, opens, seq, .inl pending⟩
    obtain ⟨u, begins, placed, result⟩ := takeSample_opens next ⟨tag, mark, window⟩ long table x
    have same : u.handGap src = u := handGap_not (.inl (begins.pending.trans pending))
    rw [same] at placed result
    have filling := begins_filling begins table next
    intro opened issued
    have record : opened = s.opensAs src q := (opensAs_eq s src q).symm
    have runs : issued = u.rc := begins.rc.symm
    refine takesSample_of ?_
    rw [result rfl, record, runs]
    refine ⟨fun last running => ?_, fun other => ?_⟩
    · obtain ⟨found, others⟩ := begins_sealed begins table
      have summary : (u.sealRecord src slot (s.opensAs src q)).se.get src = none := PerSource.get_set_self _ _ _
      have clear : ((u.sealRecord src slot (s.opensAs src q)).intake src).Clear :=
        ⟨begins.takes (by rw [taking]; rfl), begins.pending.trans pending⟩
      obtain ⟨st, rc, se, closed⟩ := exhaust_clear (clear_keeps.sealPressure clear src)
      have newest := (newest_keeps _).sealPressure (s := u.sealRecord src slot (s.opensAs src q)) begins.newest src
      have run : u.rc.runState = .running := by rw [begins.rc]; exact running
      have going (law : RunLaw s) : Runs 0 (u.sealRecord src slot (s.opensAs src q)) :=
        ⟨(within_sealRecord filling).law 0 (begins_runs begins placed running law).1, run⟩
      have after := spanEnds (s := s) (n := 2 ^ 48 - 1) filling rfl run
      rw [if_pos rfl] at after
      rw [last, testNumbers_last]
      refine ⟨u.sealRecord src slot (s.opensAs src q), _, rfl, found, others, rfl, summary, begins.iu, begins.al, begins.ds,
        fun calm => sealPressure_calm (.inr (by exact begins.settings ▸ calm)), fun ne => ?_, fun all law => ?_⟩
      · rw [(after (fun k => absurd k ne) (by rw [begins.rc]; rfl)).closes ne rfl]
        refine ⟨st, rc, ?_, by rw [closed], ?_⟩
        · rw [se, (indexOnly_sealPressure _ src).se, summary]
        · rw [closed, ← last]
          exact newest
      · have sources := (law.intake src (by rw [taking]; rfl)).2
        exact (after (fun _ => ((going law).sealPressure src).2) (by rw [begins.rc]; rfl)).stops all sources
    · rw [testNumbers_other other]
      exact ⟨begins.found table, begins.others table, begins.occupancy, begins.queues, rfl, begins.newest,
        by rw [begins.se, PerSource.get_set_self], begins.mem, begins.al, begins.ds⟩
  · have next : OpensNext s src slot q := ⟨taking, unfilled, opens, seq, .inr offered⟩
    obtain ⟨u, begins, -, result⟩ := takeSample_opens next ⟨tag, mark, window⟩ long table x
    have held := begins.pending.trans pending
    have none := begins.offered.trans offered
    have target : u.target = s.target := target_congr (congrArg IndexUnit.buffers begins.iu)
    have listed : u.st.slots ≠ [] := fun nil => by
      have found := begins.found table
      rw [nil] at found
      cases found
    have st : (u.handGap src).st = u.st := by
      by_cases full : s.target = Option.none
      · rw [handGap_waits held none (target.trans full)]
      · exact (handGap_noSpans (by rw [begins.iu]; exact (offers full).1) src).1
    refine takesSample_of ?_
    rw [result st, testNumbers_other last]
    refine ⟨⟨s.opensAs src q, by rw [st]; exact begins.found table, rfl, rfl, rfl, rfl, rfl⟩, handGap_noPending none,
      fun full => ?_, fun b target' room => ?_⟩
    · rw [handGap_waits held none (target.trans full)]
      exact ⟨congrArg IntakeSource.offeredGap (PerSource.get_set_self _ _ _), begins.iu⟩
    · rw [handGap_admitted held none (target.trans target') (by rw [State.buffer, begins.iu]; exact room)
        (by rw [begins.iu]; exact rests) (.inr listed)]
      refine ⟨(congrArg IntakeSource.offeredGap (PerSource.get_set_self _ _ _)).trans none, ?_⟩
      rw [begins.iu, begins.rc]
      rfl
  · exact index_offer_gap offered target (by omega) rests running last
  · exact index_offer_gaps offered target room rests running closed pending

end Sys2Proof.Machine

/-! Triggers: the marks of a span, the history kept, and the window (R4, R61 to R66, R73). -/

namespace Sys2Proof.Machine

/-! ### The marks of a span (R4) -/

theorem mem_insertMark {m k : TriggerMark} {l : List TriggerMark} : k ∈ insertMark m l ↔ k = m ∨ k ∈ l := by
  induction l with
  | nil => simp [insertMark]
  | cons x rest ih =>
    unfold insertMark
    split
    · exact List.mem_cons
    · rw [List.mem_cons, ih, List.mem_cons]
      tauto

theorem insertMark_length (m : TriggerMark) (l : List TriggerMark) : (insertMark m l).length = l.length + 1 := by
  induction l with
  | nil => rfl
  | cons x rest ih =>
    unfold insertMark
    split
    · rfl
    · rw [List.length_cons, ih, List.length_cons]

theorem marksInOrder_iff {l : List TriggerMark} : marksInOrder l = true ↔ l.Pairwise fun m n => m.offset ≤ n.offset := by
  induction l with
  | nil => simp [marksInOrder]
  | cons m rest ih =>
    cases rest with
    | nil => simp [marksInOrder]
    | cons n rest =>
      rw [marksInOrder, Bool.and_eq_true, ih, decide_eq_true_eq]
      constructor
      · rintro ⟨le, order⟩
        refine List.pairwise_cons.mpr ⟨fun k mem => ?_, order⟩
        obtain rfl | mem := List.mem_cons.mp mem
        · exact le
        · exact le.trans ((List.pairwise_cons.mp order).1 k mem)
      · intro h
        obtain ⟨all, order⟩ := List.pairwise_cons.mp h
        exact ⟨all n List.mem_cons_self, order⟩

theorem insertMark_inOrder {m : TriggerMark} {l : List TriggerMark} (h : l.Pairwise fun m n => m.offset ≤ n.offset) :
    (insertMark m l).Pairwise fun m n => m.offset ≤ n.offset := by
  induction l with
  | nil => exact List.pairwise_singleton _ _
  | cons x rest ih =>
    obtain ⟨first, tail⟩ := List.pairwise_cons.mp h
    unfold insertMark
    split
    · next lower =>
      refine List.pairwise_cons.mpr ⟨fun k mem => ?_, h⟩
      obtain rfl | mem := List.mem_cons.mp mem
      · omega
      · have := first k mem
        omega
    · next notLower =>
      refine List.pairwise_cons.mpr ⟨fun k mem => ?_, ih tail⟩
      obtain rfl | mem := mem_insertMark.mp mem
      · omega
      · exact first k mem

theorem addMark_room {sp : Span} (room : sp.marks.length < 8) (m : TriggerMark) :
    sp.addMark m = { sp with marks := insertMark m sp.marks } := if_pos room

theorem addMark_full {sp : Span} (full : 8 ≤ sp.marks.length) (m : TriggerMark) :
    sp.addMark m = { sp with markOverflow := min 65535 (sp.markOverflow + 1) } :=
  if_neg (Nat.not_lt.mpr full)

/-- A mark changes only the marks of a span. -/
theorem addMark_rest (sp : Span) (m : TriggerMark) :
    (sp.addMark m).state = sp.state ∧ (sp.addMark m).source = sp.source ∧ (sp.addMark m).seq = sp.seq ∧
      (sp.addMark m).count = sp.count ∧ (sp.addMark m).first = sp.first := by
  unfold Span.addMark
  split <;> exact ⟨rfl, rfl, rfl, rfl, rfl⟩

/-! ### The history that a trigger keeps (R62) -/

/-- A HELD span of a source that reaches back to sample `x` or beyond is kept. -/
def Span.keptFrom (src : Source) (x : Nat) (h : Span) : Span :=
  if h.source = src ∧ h.state = .held ∧ x ≤ h.first + h.count - 1 then { h with state := .queued, retention := .keep }
  else h

/-- Nothing has changed but the span table. -/
structure TableOnly (s t : State) : Prop where
  same : t = { s with st := t.st }

theorem TableOnly.refl (s : State) : TableOnly s s := ⟨rfl⟩

theorem TableOnly.trans {s t u : State} (h : TableOnly s t) (k : TableOnly t u) : TableOnly s u :=
  ⟨by rw [k.same, h.same]⟩

theorem tableOnly_keepSpan (s : State) (slot : Nat) : TableOnly s (s.keepSpan slot) := by
  unfold State.keepSpan
  split
  · split
    · exact ⟨rfl⟩
    · exact .refl s
  · exact .refl s

theorem tableOnly_keepAll (s : State) (slots : List Nat) : TableOnly s (State.eachSlot State.keepSpan s slots) :=
  eachSlot_keeps (P := TableOnly s) (fun t slot k => k.trans (tableOnly_keepSpan t slot)) slots (.refl s)

/-- What keeping a slot makes of its record. -/
def Span.kept (h : Span) : Span := if h.state = .held then { h with state := .queued, retention := .keep } else h

theorem kept_kept (h : Span) : h.kept.kept = h.kept := by
  by_cases held : h.state = .held
  · rw [Span.kept, Span.kept, if_pos held]
    rfl
  · have same : h.kept = h := if_neg held
    rw [same, same]

theorem keepSpan_self (s : State) (slot : Nat) : (s.keepSpan slot).span? slot = (s.span? slot).map Span.kept := by
  unfold State.keepSpan
  cases found : s.span? slot with
  | none => exact found
  | some sp =>
    dsimp only
    by_cases held : sp.state = .held
    · rw [if_pos held, span?_enter_self, Option.map_some, Span.kept, if_pos held]
    · rw [if_neg held, found, Option.map_some, Span.kept, if_neg held]

theorem keepSpan_other (s : State) {slot k : Nat} (other : k ≠ slot) : (s.keepSpan slot).span? k = s.span? k := by
  unfold State.keepSpan
  split
  · split
    · exact span?_enter_other _ _ other
    · rfl
  · rfl

theorem keepAll_span (slots : List Nat) (s : State) (k : Nat) :
    (State.eachSlot State.keepSpan s slots).span? k =
      if k ∈ slots then (s.span? k).map Span.kept else s.span? k := by
  induction slots generalizing s with
  | nil => rw [if_neg List.not_mem_nil]; rfl
  | cons slot rest ih =>
    refine (ih (s.keepSpan slot)).trans ?_
    by_cases same : k = slot
    · subst same
      rw [keepSpan_self, if_pos List.mem_cons_self, Option.map_map]
      have idem : Span.kept ∘ Span.kept = Span.kept := funext kept_kept
      rw [idem, ite_self]
    · rw [keepSpan_other s same]
      simp only [List.mem_cons, same, false_or]

theorem mem_heldFrom {t : SpanTable} (h : TableOk t) {src : Source} {x k : Nat} :
    k ∈ (t.heldFrom src x).map Prod.fst ↔
      ∃ sp, findSlot t.slots k = some sp ∧ sp.source = src ∧ sp.state = .held ∧ x ≤ sp.last := by
  simp only [SpanTable.heldFrom, List.mem_map, List.mem_filter, SpanTable.mem_inState, decide_eq_true_eq]
  constructor
  · rintro ⟨p, ⟨⟨mem, source, state⟩, reaches⟩, rfl⟩
    exact ⟨p.2, findSlot_of_mem h.slots mem, source, state, reaches⟩
  · rintro ⟨sp, found, source, state, reaches⟩
    exact ⟨(k, sp), ⟨⟨mem_of_findSlot found, source, state⟩, reaches⟩, rfl⟩

/-- The history that reaches back to sample `x` has been kept. -/
def State.keepFrom (s : State) (src : Source) (x : Nat) : State :=
  State.eachSlot State.keepSpan s ((s.st.heldFrom src x).map Prod.fst)

theorem keepFrom_span {s : State} (table : TableOk s.st) (src : Source) (x k : Nat) :
    (s.keepFrom src x).span? k = (s.span? k).map (Span.keptFrom src x) := by
  rw [State.keepFrom, keepAll_span]
  cases found : s.span? k with
  | none => exact ite_self _
  | some h =>
    by_cases reaches : h.source = src ∧ h.state = .held ∧ x ≤ h.first + h.count - 1
    · rw [if_pos ((mem_heldFrom table).mpr ⟨h, found, reaches⟩), Option.map_some, Option.map_some, Span.kept,
        if_pos reaches.2.1, Span.keptFrom, if_pos reaches]
    · rw [if_neg fun mem => ?_, Option.map_some, Span.keptFrom, if_neg reaches]
      obtain ⟨sp, same, reach⟩ := (mem_heldFrom table).mp mem
      cases same.symm.trans found
      exact reaches reach

theorem keepFrom_only (s : State) (src : Source) (x : Nat) : TableOnly s (s.keepFrom src x) := tableOnly_keepAll s _

theorem keepFrom_within (s : State) (src : Source) (x : Nat) : Within s (s.keepFrom src x) :=
  within_eachSlot _ within_keepSpan s _

end Sys2Proof.Machine

/-! A trigger on a sample: the pre-shortfall, the span that took the sample, and the window (R61 to R66, R73). -/

namespace Sys2Proof.Machine

/-! ### The samples of a range that spans hold (R64) -/

/-- What a span adds to the samples held of a range: nothing from a SHED one or another source's. -/
def Span.weighs (src : Source) (lo hi : Nat) (sp : Span) : Nat :=
  if sp.source = src ∧ sp.state ≠ .shed then sp.overlap lo hi else 0

theorem foldl_overlap (src : Source) (lo hi acc : Nat) (l : List (Nat × Span)) :
    (l.filter fun p => decide (p.2.source = src) && decide (p.2.state ≠ .shed)).foldl
      (fun acc p => acc + p.2.overlap lo hi) acc = acc + (l.map fun p => p.2.weighs src lo hi).sum := by
  induction l generalizing acc with
  | nil => rfl
  | cons p rest ih =>
    by_cases counts : p.2.source = src ∧ p.2.state ≠ .shed
    · rw [List.filter_cons_of_pos (by simpa using counts), List.foldl_cons, ih, List.map_cons, List.sum_cons, Span.weighs,
        if_pos counts]
      omega
    · rw [List.filter_cons_of_neg (by simpa using counts), ih, List.map_cons, List.sum_cons, Span.weighs, if_neg counts,
        Nat.zero_add]

theorem heldIn_eq (t : SpanTable) (src : Source) (lo hi : Nat) :
    t.heldIn src lo hi = (t.slots.map fun p => p.2.weighs src lo hi).sum :=
  (foldl_overlap src lo hi 0 t.slots).trans (Nat.zero_add _)

/-- A record replaced by one of the same value leaves the list of values. -/
theorem map_putSlot {α : Type} {f : Span → α} {l : List (Nat × Span)} {low k : Nat} {old v : Span}
    (sorted : slotsFrom low l = true) (found : findSlot l k = some old) (same : f v = f old) :
    ((putSlot l k v).map fun p => f p.2) = l.map fun p => f p.2 := by
  induction l generalizing low with
  | nil => cases found
  | cons p rest ih =>
    obtain ⟨n, x⟩ := p
    have notLower : ¬ k < n := fun lower => by
      have none := findSlot_none_of_lt (l := (n, x) :: rest) (low := n) (k := k)
        (by simp only [slotsFrom, Bool.and_eq_true, decide_eq_true_eq] at sorted ⊢; exact ⟨⟨le_refl n, sorted.1.2⟩, sorted.2⟩)
        lower
      rw [found] at none
      cases none
    have tail : slotsFrom (n + 1) rest = true := by
      simp only [slotsFrom, Bool.and_eq_true] at sorted
      exact sorted.2
    rw [putSlot, if_neg notLower]
    rw [findSlot] at found
    split
    · next eq =>
      rw [if_pos eq] at found
      cases found
      rw [List.map_cons, List.map_cons, same]
    · next ne =>
      rw [if_neg ne] at found
      rw [List.map_cons, List.map_cons, ih tail found]

/-- The table is in order, and holds `held` samples of a range. -/
def Holds (src : Source) (lo hi held : Nat) (s : State) : Prop := TableOk s.st ∧ s.st.heldIn src lo hi = held

theorem Holds.put {src : Source} {lo hi held slot : Nat} {s t : State} {old v : Span} (h : Holds src lo hi held s)
    (found : s.span? slot = some old) (same : v.weighs src lo hi = old.weighs src lo hi) (table : TableOk t.st)
    (slots : t.st.slots = putSlot s.st.slots slot v) : Holds src lo hi held t := by
  refine ⟨table, ?_⟩
  rw [← h.2, heldIn_eq, heldIn_eq, slots, map_putSlot h.1.slots found same]

theorem Holds.keepSpan {src : Source} {lo hi held : Nat} {s : State} (h : Holds src lo hi held s) (slot : Nat) :
    Holds src lo hi held (s.keepSpan slot) := by
  unfold State.keepSpan
  split
  · next sp found =>
    split
    · next state =>
      refine h.put found ?_ (enter_table h.1 found) rfl
      unfold Span.weighs
      rw [state]
      exact if_congr (by simp) rfl rfl
    · exact h
  · exact h

theorem setSpan_table {s : State} (h : TableOk s.st) {slot : Nat} {old : Span} (found : s.span? slot = some old) (v : Span) :
    TableOk (s.setSpan slot v).st := h.put v (by rw [← State.span?_eq, found]; rfl) s.st.queues

theorem setSpan_self (s : State) (slot : Nat) (v : Span) : (s.setSpan slot v).span? slot = some v :=
  findSlot_putSlot_self _ _ _

theorem setSpan_other (s : State) {slot k : Nat} (v : Span) (other : k ≠ slot) : (s.setSpan slot v).span? k = s.span? k :=
  findSlot_putSlot_other _ _ other

theorem onSpan_found {s : State} {slot : Nat} {sp : Span} (found : s.span? slot = some sp) (f : Span → Span) :
    s.onSpan slot f = s.setSpan slot (f sp) := by
  rw [State.onSpan, found]

/-! ### A trigger (R61, R66, R73) -/

/-- The window of a source after a trigger on sample `n`. -/
def State.windowAfter (s : State) (src : Source) (n : Nat) : Option Nat :=
  if (s.settings src).mode = .triggered then
    some (max (n + (s.settings src).postDepth) (((s.twu.get src).window).getD 0))
  else (s.twu.get src).window

/-- What a trigger on sample `n` makes of a span that did not take it. -/
def State.keptBy (s : State) (src : Source) (n : Nat) (h : Span) : Span :=
  if (s.settings src).mode = .triggered then h.keptFrom src (n - (s.settings src).preDepth) else h

/-- What a trigger on sample `n` makes of the span that took it. -/
def State.markedBy (s : State) (src : Source) (n : Nat) (sp : Span) : Span :=
  if (s.settings src).mode = .triggered then
    ({ sp with retention := .keep } : Span).addMark { offset := n - sp.first, shortfall := s.shortfall src n }
  else sp.addMark { offset := n - sp.first, shortfall := 0 }

/-- A tag or MARK pending has been applied to sample `n`, which the slot given took, if any. -/
structure Triggers (s : State) (src : Source) (n : Nat) (taken : Option Nat) (u : State) : Prop where
  intake : u.intake src = { s.intake src with tagPending := false }
  twu : u.twu.get src = { window := s.windowAfter src n, markPending := false }
  same : u = { s with ci := u.ci, twu := u.twu, st := u.st }
  spans : ∀ k, taken ≠ some k → u.span? k = (s.span? k).map (s.keptBy src n)
  marked : ∀ slot sp, taken = some slot → s.span? slot = some sp → sp.state = .filling →
    u.span? slot = some (s.markedBy src n sp)

/-- The pending tag and MARK have been cleared. -/
def State.untagged (s : State) (src : Source) : State :=
  { s with
    ci := s.ci.set src { s.intake src with tagPending := false }
    twu := s.twu.set src { s.twu.get src with markPending := false } }

theorem untagged_intake (s : State) (src : Source) :
    (s.untagged src).intake src = { s.intake src with tagPending := false } := PerSource.get_set_self _ _ _

theorem untagged_settings (s : State) (src : Source) : (s.untagged src).settings src = s.settings src :=
  (congrArg IntakeSource.settings (untagged_intake s src) :)

theorem applyTrigger_windowed {s : State} {src : Source} (mode : (s.settings src).mode = .triggered)
    (pending : (s.intake src).tagPending = true ∨ (s.twu.get src).markPending = true) (n : Nat) (taken : Option Nat) :
    s.applyTrigger src n taken = (s.untagged src).triggerWindowed src n taken := by
  rw [State.applyTrigger, if_pos (by simpa using pending), mode]
  rfl

theorem applyTrigger_plain {s : State} {src : Source} (mode : (s.settings src).mode = .continuous)
    (pending : (s.intake src).tagPending = true ∨ (s.twu.get src).markPending = true) (n : Nat) (taken : Option Nat) :
    s.applyTrigger src n taken = (s.untagged src).triggerPlain n taken := by
  rw [State.applyTrigger, if_pos (by simpa using pending), mode]
  rfl

/-- The window of a TRIGGERED source has opened, or its end has moved. -/
def State.extended (s : State) (src : Source) (n : Nat) : State :=
  s.onWindow src fun w => w.extend (n + (s.settings src).postDepth)

theorem keptFrom_filling {sp : Span} (filling : sp.state = .filling) (src : Source) (x : Nat) : sp.keptFrom src x = sp :=
  if_neg fun k => by rw [filling] at k; exact SpanState.noConfusion k.2.1

theorem keepFrom_holds {s : State} (table : TableOk s.st) (src : Source) (x lo hi : Nat) :
    Holds src lo hi (s.st.heldIn src lo hi) (s.keepFrom src x) :=
  eachSlot_keeps (P := Holds src lo hi (s.st.heldIn src lo hi)) (fun _ slot k => k.keepSpan slot) _ ⟨table, rfl⟩

theorem triggerWindowed_dropped (s : State) (src : Source) (n : Nat) :
    s.triggerWindowed src n none = (s.keepFrom src (n - (s.settings src).preDepth)).extended src n := rfl

/-- The span that took the sample is made KEEP and marked. -/
theorem triggerWindowed_taken {s : State} (table : TableOk s.st) {src : Source} {slot : Nat} {sp : Span}
    (found : s.span? slot = some sp) (filling : sp.state = .filling) (n : Nat) :
    s.triggerWindowed src n (some slot) =
      ((((s.keepFrom src (n - (s.settings src).preDepth)).setSpan slot { sp with retention := .keep }).setSpan slot
        (({ sp with retention := .keep } : Span).addMark
          { offset := n - sp.first, shortfall := s.shortfall src n }))).extended src n := by
  have found' : (s.keepFrom src (n - (s.settings src).preDepth)).span? slot = some sp := by
    rw [keepFrom_span table, found, Option.map_some, keptFrom_filling filling]
  have keeps := (keepFrom_holds table src (n - (s.settings src).preDepth) (n - (s.settings src).preDepth) n)
  have marks := keeps.put (v := { sp with retention := .keep })
    (t := (s.keepFrom src (n - (s.settings src).preDepth)).setSpan slot { sp with retention := .keep }) found' rfl
    (setSpan_table keeps.1 found' _) rfl
  have settings : ((s.keepFrom src (n - (s.settings src).preDepth)).setSpan slot { sp with retention := .keep }).settings src =
      s.settings src := (keepFrom_within s src _).kept.settings src
  have short : ((s.keepFrom src (n - (s.settings src).preDepth)).setSpan slot { sp with retention := .keep }).shortfall src n =
      s.shortfall src n := by
    rw [State.shortfall, settings, State.shortfall, marks.2]
  have whole : s.triggerWindowed src n (some slot) =
      ((((s.keepFrom src (n - (s.settings src).preDepth)).onSpan slot fun sp => { sp with retention := .keep }).markSpan slot n
        (((s.keepFrom src (n - (s.settings src).preDepth)).onSpan slot fun sp => { sp with retention := .keep }).shortfall
          src n))).extended src n := rfl
  rw [whole, onSpan_found found', short, State.markSpan, onSpan_found (setSpan_self _ _ _)]

theorem TableOnly.extended {s t : State} (h : TableOnly s t) (src : Source) (n : Nat) :
    (t.extended src n).ci = s.ci ∧
      (t.extended src n).twu.get src = (s.twu.get src).extend (n + (s.settings src).postDepth) ∧
      t.extended src n = { s with twu := (t.extended src n).twu, st := (t.extended src n).st } := by
  have ci : t.ci = s.ci := by rw [h.same]
  have twu : t.twu = s.twu := by rw [h.same]
  have settings : t.settings src = s.settings src := congrArg (fun c : PerSource IntakeSource => (c.get src).settings) ci
  refine ⟨ci, ?_, ?_⟩
  · refine (PerSource.get_set_self t.twu src _).trans ?_
    rw [twu, settings]
  · rw [State.extended, State.onWindow]
    generalize t.twu.set src _ = w
    rw [h.same]
    rfl

theorem keptBy_windowed {s : State} {src : Source} (mode : (s.settings src).mode = .triggered) (n : Nat) :
    s.keptBy src n = Span.keptFrom src (n - (s.settings src).preDepth) := by
  funext h
  exact if_pos mode

theorem continuous_ne {s : State} {src : Source} (mode : (s.settings src).mode = .continuous) :
    (s.settings src).mode ≠ .triggered := by rw [mode]; exact SourceMode.noConfusion

theorem keptBy_plain {s : State} {src : Source} (mode : (s.settings src).mode = .continuous) (n : Nat) :
    s.keptBy src n = id := by
  funext h
  exact if_neg (continuous_ne mode)

/-- The windowed trigger of a state that has changed in its table only since the trigger was cleared. -/
theorem triggers_windowed {s v : State} {src : Source} {n : Nat} {taken : Option Nat}
    (mode : (s.settings src).mode = .triggered) (only : TableOnly (s.untagged src) v)
    (spans : ∀ k, taken ≠ some k → v.span? k = (s.span? k).map (Span.keptFrom src (n - (s.settings src).preDepth)))
    (marked : ∀ slot sp, taken = some slot → s.span? slot = some sp → sp.state = .filling →
      v.span? slot = some (s.markedBy src n sp)) : Triggers s src n taken (v.extended src n) := by
  obtain ⟨ci, twu, same⟩ := only.extended src n
  refine ⟨?_, ?_, ?_, fun k other => ?_, marked⟩
  · rw [State.intake, ci]
    exact untagged_intake s src
  · rw [twu, untagged_settings, State.windowAfter, if_pos mode]
    refine (congrArg (fun w : WindowSource => w.extend (n + (s.settings src).postDepth))
      (PerSource.get_set_self s.twu src _)).trans rfl
  · rw [same]
    rfl
  · rw [keptBy_windowed mode]
    exact spans k other

/-- The trigger of a CONTINUOUS source changes the table only, where it changes more than the pending trigger. -/
theorem triggers_plain {s v : State} {src : Source} {n : Nat} {taken : Option Nat}
    (mode : (s.settings src).mode = .continuous) (only : TableOnly (s.untagged src) v)
    (spans : ∀ k, taken ≠ some k → v.span? k = s.span? k)
    (marked : ∀ slot sp, taken = some slot → s.span? slot = some sp → sp.state = .filling →
      v.span? slot = some (s.markedBy src n sp)) : Triggers s src n taken v := by
  refine ⟨?_, ?_, ?_, fun k other => ?_, marked⟩
  · rw [only.same]
    exact untagged_intake s src
  · rw [only.same, State.windowAfter, if_neg (continuous_ne mode)]
    exact PerSource.get_set_self _ _ _
  · rw [only.same]
    rfl
  · rw [keptBy_plain mode, Option.map_id]
    exact spans k other

theorem triggers_dropped {s : State} {src : Source} (table : TableOk s.st)
    (pending : (s.intake src).tagPending = true ∨ (s.twu.get src).markPending = true) (n : Nat) :
    Triggers s src n none (s.applyTrigger src n none) := by
  cases mode : (s.settings src).mode with
  | triggered =>
    rw [applyTrigger_windowed mode pending, triggerWindowed_dropped, untagged_settings]
    exact triggers_windowed mode (keepFrom_only _ src _) (fun k _ => keepFrom_span (s := s.untagged src) table src _ k)
      fun _ _ h => by cases h
  | continuous =>
    rw [applyTrigger_plain mode pending]
    exact triggers_plain mode (.refl _) (fun _ _ => rfl) fun _ _ h => by cases h

theorem triggers_taken {s : State} {src : Source} (table : TableOk s.st) {slot : Nat} {sp : Span}
    (found : s.span? slot = some sp) (filling : sp.state = .filling)
    (pending : (s.intake src).tagPending = true ∨ (s.twu.get src).markPending = true) (n : Nat) :
    Triggers s src n (some slot) (s.applyTrigger src n (some slot)) := by
  have same {k : Nat} {x : Span} (taken : some slot = some k) (listed : s.span? k = some x) : k = slot ∧ x = sp := by
    cases taken
    exact ⟨rfl, Option.some.inj (listed.symm.trans found)⟩
  cases mode : (s.settings src).mode with
  | triggered =>
    have short : (s.untagged src).shortfall src n = s.shortfall src n := by
      rw [State.shortfall, untagged_settings]
      rfl
    rw [applyTrigger_windowed mode pending, triggerWindowed_taken (s := s.untagged src) table found filling,
      untagged_settings, short]
    refine triggers_windowed mode ?_ (fun k other => ?_) fun k x taken listed _ => ?_
    · exact ((keepFrom_only _ src _).trans ⟨rfl⟩).trans ⟨rfl⟩
    · have apart : k ≠ slot := fun eq => other (by rw [eq])
      rw [setSpan_other _ _ apart, setSpan_other _ _ apart]
      exact keepFrom_span (s := s.untagged src) table src _ k
    · obtain ⟨rfl, rfl⟩ := same taken listed
      rw [setSpan_self, State.markedBy, if_pos mode]
  | continuous =>
    have mark : (s.untagged src).triggerPlain n (some slot) =
        (s.untagged src).setSpan slot (sp.addMark { offset := n - sp.first, shortfall := 0 }) :=
      onSpan_found (s := s.untagged src) found _
    rw [applyTrigger_plain mode pending, mark]
    refine triggers_plain mode ⟨rfl⟩ (fun k other => ?_) fun k x taken listed _ => ?_
    · exact setSpan_other _ _ fun eq => other (by rw [eq])
    · obtain ⟨rfl, rfl⟩ := same taken listed
      rw [setSpan_self, State.markedBy, if_neg (continuous_ne mode)]

end Sys2Proof.Machine

/-! The pre-shortfall as a count of samples (R64), the window's end (R67), and the ageing of history (R69). -/

namespace Sys2Proof.Machine

/-! ### The pre-shortfall counts samples (R18, R64) -/

theorem countP_or_of_disjoint {α : Type} {p q : α → Bool} (l : List α) (apart : ∀ x, p x = true → q x = false) :
    l.countP (fun x => p x || q x) = l.countP p + l.countP q := by
  induction l with
  | nil => rfl
  | cons x rest ih =>
    rw [List.countP_cons, List.countP_cons, List.countP_cons, ih]
    cases hp : p x with
    | true =>
      simp [apart x hp]
      omega
    | false =>
      cases q x with
      | true => simp [Nat.add_assoc]
      | false => simp

theorem countP_interval (a b n : Nat) : (List.range n).countP (fun m => decide (a ≤ m ∧ m < b)) = min b n - a := by
  induction n with
  | zero => simp
  | succ n ih =>
    rw [List.range_succ, List.countP_append, ih, List.countP_singleton]
    by_cases inside : a ≤ n ∧ n < b
    · rw [if_pos (decide_eq_true inside)]
      omega
    · rw [if_neg (by simpa using inside)]
      omega

/-- Whether a span is one of a source that is not SHED and holds sample `m`. -/
def Span.covers (src : Source) (sp : Span) (m : Nat) : Bool :=
  decide (sp.source = src) && decide (sp.state ≠ .shed) && decide (sp.first ≤ m) && decide (m < sp.first + sp.count)

theorem covers_iff {src : Source} {sp : Span} {m : Nat} :
    sp.covers src m = true ↔ (sp.source = src ∧ sp.state ≠ .shed) ∧ sp.first ≤ m ∧ m < sp.first + sp.count := by
  simp only [Span.covers, Bool.and_eq_true, decide_eq_true_eq, and_assoc]

/-- A span's share of a range is the number of its samples that it covers. -/
theorem countP_covers (src : Source) (lo n : Nat) (sp : Span) :
    (List.range n).countP (fun m => decide (lo ≤ m) && sp.covers src m) = sp.weighs src lo n := by
  unfold Span.weighs
  split
  · next counts =>
    refine Eq.trans (List.countP_congr fun m _ => ?_) ((countP_interval (max sp.first lo) (sp.first + sp.count) n).trans rfl)
    rw [Bool.and_eq_true, decide_eq_true_eq, decide_eq_true_eq, covers_iff]
    constructor
    · rintro ⟨low, -, first, last⟩
      omega
    · rintro ⟨first, last⟩
      exact ⟨by omega, counts, by omega, last⟩
  · next other =>
    refine List.countP_eq_zero.mpr fun m _ covered => ?_
    rw [Bool.and_eq_true, covers_iff] at covered
    exact other covered.2.1

/-- The spans of a source hold disjoint ranges. -/
abbrev Disjoint (src : Source) (l : List (Nat × Span)) : Prop :=
  l.Pairwise fun p q => p.2.source = src → q.2.source = src →
    p.2.first + p.2.count ≤ q.2.first ∨ q.2.first + q.2.count ≤ p.2.first

theorem countP_any (src : Source) (lo n : Nat) {l : List (Nat × Span)} (apart : Disjoint src l) :
    (List.range n).countP (fun m => decide (lo ≤ m) && l.any fun p => p.2.covers src m) =
      (l.map fun p => p.2.weighs src lo n).sum := by
  induction l with
  | nil => simp
  | cons p rest ih =>
    obtain ⟨first, tail⟩ := List.pairwise_cons.mp apart
    rw [List.map_cons, List.sum_cons, ← ih tail, ← countP_covers, ← countP_or_of_disjoint]
    · refine List.countP_congr fun m _ => ?_
      rw [List.any_cons, Bool.and_or_distrib_left]
    · intro m covered
      rw [Bool.and_eq_true, covers_iff] at covered
      obtain ⟨low, counts, lower, upper⟩ := covered
      refine Bool.eq_false_iff.mpr fun other => ?_
      rw [Bool.and_eq_true, List.any_eq_true] at other
      obtain ⟨-, q, mem, also⟩ := other
      obtain ⟨counts', lower', upper'⟩ := covers_iff.mp also
      have := first q mem counts.1 counts'.1
      omega

theorem shortfall_count {s : State} {src : Source} (apart : Disjoint src s.st.slots) (n : Nat) :
    s.shortfall src n = ((List.range n).filter fun m =>
      decide (n - (s.settings src).preDepth ≤ m) && !(s.st.slots.any fun p => p.2.covers src m)).length := by
  have split := countP_or_of_disjoint (List.range n)
    (p := fun m => decide (n - (s.settings src).preDepth ≤ m) && !(s.st.slots.any fun p => p.2.covers src m))
    (q := fun m => decide (n - (s.settings src).preDepth ≤ m) && s.st.slots.any fun p => p.2.covers src m)
    fun m h => by
      rw [Bool.and_eq_true, Bool.not_eq_true'] at h
      rw [h.2, Bool.and_false]
  have whole : (List.range n).countP (fun m =>
      (decide (n - (s.settings src).preDepth ≤ m) && !(s.st.slots.any fun p => p.2.covers src m)) ||
        (decide (n - (s.settings src).preDepth ≤ m) && s.st.slots.any fun p => p.2.covers src m)) =
      n - (n - (s.settings src).preDepth) := by
    refine Eq.trans (List.countP_congr fun m mem => ?_)
      ((countP_interval (n - (s.settings src).preDepth) n n).trans (by rw [Nat.min_self]))
    have below := List.mem_range.mp mem
    rw [← Bool.and_or_distrib_left, Bool.not_or_self, Bool.and_true, decide_eq_true_eq, decide_eq_true_eq]
    exact ⟨fun h => ⟨h, below⟩, And.left⟩
  rw [whole, countP_any src _ n apart, ← heldIn_eq] at split
  rw [← List.countP_eq_length_filter, State.shortfall]
  omega

/-! ### The window's end (R67) -/

theorem testWindow_ends {s : State} {src : Source} {n e : Nat} (mode : (s.settings src).mode = .triggered)
    (window : (s.twu.get src).window = some e) (ends : e ≤ n) (taken : Option Nat) :
    s.testWindow src n taken =
      if taken.isSome then (s.onWindow src fun w => { w with window := none }).seal src
      else s.onWindow src fun w => { w with window := none } := by
  unfold State.testWindow
  rw [mode, window]
  exact if_pos ends

/-! ### The ageing of history (R69) -/

/-- The slots of a list have been recycled in a run that is RUNNING. -/
structure Recycles (s : State) (slots : List Nat) (t : State) : Prop where
  running : t.rc.runState = .running
  table : TableOk t.st
  spans : ∀ k, t.span? k = if k ∈ slots then none else s.span? k
  shorter : t.st.slots.length ≤ s.st.slots.length
  counters : t.rc.counters = { s.rc.counters with
    recycled := s.rc.counters.recycled + BitVec.ofNat 64 (s.st.slots.length - t.st.slots.length) }

theorem recycles_nil {s : State} (running : s.rc.runState = .running) (table : TableOk s.st) : Recycles s [] s := by
  refine ⟨running, table, fun k => (if_neg List.not_mem_nil).symm, le_refl _, ?_⟩
  have none : s.rc.counters.recycled + BitVec.ofNat 64 (s.st.slots.length - s.st.slots.length) = s.rc.counters.recycled := by
    rw [Nat.sub_self]
    exact BitVec.add_zero _
  rw [none]

theorem recycles_one {s : State} (running : s.rc.runState = .running) (table : TableOk s.st) (slot : Nat) :
    Recycles s [slot] (s.recycle slot) := by
  rw [recycle_of_not_stopping (by rw [running]; exact RunState.noConfusion)]
  cases found : s.span? slot with
  | none =>
    rw [release_none found]
    obtain ⟨running, table, -, shorter, counters⟩ := recycles_nil running table
    refine ⟨running, table, fun k => ?_, shorter, counters⟩
    split
    · next mem => rw [List.mem_singleton.mp mem, found]
    · rfl
  | some sp =>
    have released := recycled_release table found
    have length : (s.release slot .recycled).st.slots.length + 1 = s.st.slots.length := by
      rw [release_st found]
      exact (dropSlot_listed table.slots (by rw [← State.span?_eq, found]; rfl)).2
    refine ⟨by rw [released.rc]; exact running, (thins_release table slot .recycled).table, fun k => ?_, by omega, ?_⟩
    · split
      · next mem => rw [List.mem_singleton.mp mem, released.gone]
      · next other => exact released.others k fun same => other (List.mem_singleton.mpr same)
    · rw [released.rc, show s.st.slots.length - (s.release slot .recycled).st.slots.length = 1 by omega]
      rfl

theorem Recycles.trans {s t u : State} {slots more : List Nat} (h : Recycles s slots t) (k : Recycles t more u) :
    Recycles s (slots ++ more) u := by
  refine ⟨k.running, k.table, fun n => ?_, k.shorter.trans h.shorter, ?_⟩
  · rw [k.spans, h.spans]
    by_cases later : n ∈ more
    · rw [if_pos later, if_pos (List.mem_append_right _ later)]
    · rw [if_neg later]
      exact if_congr (by simp [later]) rfl rfl
  · have sum : s.rc.counters.recycled + BitVec.ofNat 64 (s.st.slots.length - t.st.slots.length) +
        BitVec.ofNat 64 (t.st.slots.length - u.st.slots.length) =
        s.rc.counters.recycled + BitVec.ofNat 64 (s.st.slots.length - u.st.slots.length) := by
      rw [BitVec.add_assoc, ← BitVec.ofNat_add]
      congr 2
      have := h.shorter
      have := k.shorter
      omega
    rw [k.counters, h.counters, sum]

theorem recycles_all (slots : List Nat) {s : State} (running : s.rc.runState = .running) (table : TableOk s.st) :
    Recycles s slots (State.eachSlot State.recycle s slots) := by
  induction slots generalizing s with
  | nil => exact recycles_nil running table
  | cons slot rest ih =>
    have one := recycles_one running table slot
    exact one.trans (ih one.running one.table)

theorem mem_heldBefore {t : SpanTable} (h : TableOk t) {src : Source} {x k : Nat} :
    k ∈ (t.heldBefore src x).map Prod.fst ↔
      ∃ sp, findSlot t.slots k = some sp ∧ sp.source = src ∧ sp.state = .held ∧ sp.last < x := by
  simp only [SpanTable.heldBefore, List.mem_map, List.mem_filter, SpanTable.mem_inState, decide_eq_true_eq]
  constructor
  · rintro ⟨p, ⟨⟨mem, source, state⟩, before⟩, rfl⟩
    exact ⟨p.2, findSlot_of_mem h.slots mem, source, state, before⟩
  · rintro ⟨sp, found, source, state, before⟩
    exact ⟨(k, sp), ⟨⟨mem_of_findSlot found, source, state⟩, before⟩, rfl⟩

theorem age_ages {s : State} {src : Source} {newest : Nat} (mode : (s.settings src).mode = .triggered)
    (takes : (s.intake src).intake.takes = true) (last : (s.intake src).newest = some newest)
    (deep : (s.settings src).preDepth ≤ newest) :
    s.age src = s.recycleAll (s.st.heldBefore src (newest - (s.settings src).preDepth)) := by
  unfold State.age
  rw [mode, last]
  exact if_pos (by rw [takes, decide_eq_true deep]; rfl)

theorem age_stays {s : State} {src : Source}
    (h : (s.settings src).mode = .continuous ∨ (s.intake src).intake.takes = false ∨ (s.intake src).newest = none ∨
      ∃ newest, (s.intake src).newest = some newest ∧ newest < (s.settings src).preDepth) : s.age src = s := by
  unfold State.age
  split
  · next newest mode last =>
    refine if_neg fun ages => ?_
    rw [Bool.and_eq_true, decide_eq_true_eq] at ages
    obtain plain | shut | none | ⟨m, same, shallow⟩ := h
    · rw [mode] at plain
      cases plain
    · rw [ages.1] at shut
      cases shut
    · rw [last] at none
      cases none
    · cases last.symm.trans same
      omega
  · rfl

/-- What ageing leaves of a span. -/
theorem age_spans {s : State} {src : Source} {newest : Nat} (running : s.rc.runState = .running) (table : TableOk s.st)
    (mode : (s.settings src).mode = .triggered) (takes : (s.intake src).intake.takes = true)
    (last : (s.intake src).newest = some newest) (deep : (s.settings src).preDepth ≤ newest) :
    (∀ k h, s.span? k = some h → (s.age src).span? k =
      if h.source = src ∧ h.state = .held ∧ h.first + h.count - 1 < newest - (s.settings src).preDepth then none
      else some h) ∧
    (s.age src).st.occupancy = (s.age src).st.slots.length ∧
    (s.age src).rc.counters = { s.rc.counters with
      recycled := s.rc.counters.recycled + BitVec.ofNat 64 (s.st.slots.length - (s.age src).st.slots.length) } := by
  have aged := recycles_all ((s.st.heldBefore src (newest - (s.settings src).preDepth)).map Prod.fst) running table
  rw [age_ages mode takes last deep]
  refine ⟨fun k h found => ?_, aged.table.occupancy, aged.counters⟩
  refine (aged.spans k).trans ?_
  rw [found]
  refine if_congr ((mem_heldBefore table).trans ⟨?_, fun before => ⟨h, found, before⟩⟩) rfl rfl
  rintro ⟨sp, same, before⟩
  cases same.symm.trans found
  exact before

end Sys2Proof.Machine

/-! Triggers and windows over the steps of a sample (O37). -/

namespace Sys2Proof.Machine

/-! ### The trigger and the window are settled (R61, R66, R67) -/

/-- No trigger is pending, and the window is the one given. -/
def Settled (src : Source) (window : Option Nat) (s : State) : Prop :=
  (s.intake src).tagPending = false ∧ s.twu.get src = { window := window, markPending := false }

theorem Settled.of {src : Source} {window : Option Nat} {s t : State} (h : Settled src window s)
    (tag : (t.intake src).tagPending = false) (twu : t.twu = s.twu) : Settled src window t :=
  ⟨tag, by rw [twu]; exact h.2⟩

theorem settled_keeps (src : Source) (window : Option Nat) : StopKeeps (Settled src window) where
  seals _ _ _ _ h _ := h
  release s slot h := h.of ((tag_keeps false).release h.1 slot _) (indexOnly_release s slot _).twu
  hand s x h := h.of ((tag_keeps false).handOver h.1 x) (indexOnly_handOver s x).twu
  does s ts _ h := h.of ((tag_keeps false).does h.1 ts) (indexOnly_does s ts).twu

theorem Settled.enterStopping {src : Source} {window : Option Nat} {s : State} (h : Settled src window s) :
    Settled src window s.enterStopping := by
  refine (settled_keeps src window).enterStopping ⟨?_, ?_⟩
  · rw [stopIntake_intake, State.closed]
    split
    · rfl
    · exact h.1
  · rw [stopIntake_twu, h.2]
    exact ite_self _

theorem Settled.sealPressure {src : Source} {window : Option Nat} {s : State} (h : Settled src window s) (x : Source) :
    Settled src window (s.sealPressure x) :=
  h.of ((tag_keeps false).sealPressure h.1 x) (indexOnly_sealPressure s x).twu

theorem Settled.exhaust {src : Source} {window : Option Nat} {s : State} (h : Settled src window s) :
    Settled src window (s.exhaust src) := by
  have closed : Settled src window (s.closeIntake src) := by
    rw [closeIntake_eq]
    refine ⟨congrArg IntakeSource.tagPending (PerSource.get_set_self _ _ _), (PerSource.get_set_self _ _ _).trans ?_⟩
    rw [h.2]
  unfold State.exhaust
  split
  · exact closed.of ((tag_keeps false).handGap closed.1 src) (indexOnly_handGap _ src).twu
  · exact h

/-- With no pending gap, the close of a source at its last number leaves the table. -/
theorem exhaust_st {s : State} {src : Source} (none : (s.intake src).pendingGap = none) : (s.exhaust src).st = s.st := by
  cases takes : (s.intake src).intake.takes with
  | true => exact (exhaust_clear ⟨takes, none⟩).1
  | false => rw [exhaust_shut takes]

/-! ### A sample whose tests are ready to seal its span -/

/-- The span `z` of a slot is the only FILLING one of its source, in a RUNNING run that keeps its laws, after a trigger
on the sample that it took. -/
structure Ready (w : State) (src : Source) (slot : Nat) (z : Span) (window : Option Nat) (b : State) : Prop where
  law : RunLaw b
  filling : b.st.filling src = some (slot, z)
  only : ∀ k y, b.span? k = some y → y.source = src → y.state = .filling → k = slot
  settled : Settled src window b
  pending : (b.intake src).pendingGap = (w.intake src).pendingGap
  settings : b.settings src = w.settings src
  running : w.rc.runState = .running
  rc : b.rc = w.rc
  se : b.se = w.se
  spm : b.spm = w.spm

/-- A source's only FILLING span leaves that state at its seal. -/
theorem unfilled_of_only {s : State} {src : Source} {slot : Nat} {sp : Span} (table : TableOk s.st)
    (found : s.st.filling src = some (slot, sp)) (running : s.rc.runState = .running)
    (only : ∀ k y, s.span? k = some y → y.source = src → y.state = .filling → k = slot) :
    (s.seal src).st.filling src = none := by
  have sealed : (s.sealRecord src slot sp).Unfilled src := fun ⟨k, y⟩ mem source filling => by
    have listed : (s.sealRecord src slot sp).span? k = some y := findSlot_of_mem (sealRecord_table table found).slots mem
    by_cases same : k = slot
    · rw [same, sealRecord_span_self] at listed
      cases listed
      exact sealedAs_state sp _ filling
    · exact same (only k y ((sealRecord_span_other s src sp same).symm.trans listed) source filling)
  have pressed := sealed.kept (within_sealPressure _ src).kept
  rw [seal_running found running]
  refine Unfilled.filling ?_
  split
  · next stops => exact pressed.kept (within_enterStopping _ stops.2).kept
  · exact pressed

namespace Ready
variable {w b : State} {src : Source} {slot : Nat} {z : Span} {window : Option Nat}

theorem run (h : Ready w src slot z window b) : b.rc.runState = .running := by
  rw [h.rc]
  exact h.running

theorem sealed (h : Ready w src slot z window b) : (b.seal src).st.filling src = none :=
  unfilled_of_only h.law.table h.filling h.run h.only

theorem runs (h : Ready w src slot z window b) : Runs 0 ((b.sealRecord src slot z).sealPressure src) :=
  Runs.sealPressure (s := b.sealRecord src slot z) ⟨(within_sealRecord h.filling).law 0 h.law, h.run⟩ src

theorem ends (h : Ready w src slot z window b) (n : Nat) :
    SpanEnds w ((b.sealRecord src slot z).sealPressure src)
      (if n = 2 ^ 48 - 1 then (b.seal src).exhaust src else b.seal src) src z.seq n :=
  spanEnds h.filling rfl h.run (fun _ => h.runs.2) (by rw [h.rc])

theorem settled_seal (h : Ready w src slot z window b) (n : Nat) :
    Settled src window (if n = 2 ^ 48 - 1 then (b.seal src).exhaust src else b.seal src) := by
  have record : Settled src window (b.sealRecord src slot z) := h.settled
  have sealed : Settled src window (b.seal src) := by
    rw [seal_running h.filling h.run]
    split
    · exact (record.sealPressure src).enterStopping
    · exact record.sealPressure src
  split
  · exact sealed.exhaust
  · exact sealed

/-- The record sealed, where no span is given up and no gap handed over. -/
theorem record (h : Ready w src slot z window b) {n : Nat} (seq : z.seq ≠ BitVec.allOnes 32)
    (calm : w.spm.pressure.get src = .calm ∨ (w.settings src).shedRule ≠ .oldest)
    (noGap : n ≠ 2 ^ 48 - 1 ∨ (w.intake src).pendingGap = none) :
    State.span? (if n = 2 ^ 48 - 1 then (b.seal src).exhaust src else b.seal src) slot =
      some (z.sealedAs ((w.se.get src).map Running.finish)) := by
  have pressure : (b.sealRecord src slot z).sealPressure src = b.sealRecord src slot z :=
    sealPressure_calm (by
      have settings : (b.sealRecord src slot z).settings src = w.settings src := h.settings
      have spm : (b.sealRecord src slot z).spm = w.spm := h.spm
      rw [spm, settings]
      exact calm)
  have after := h.ends n
  rw [pressure] at after
  have found : (b.sealRecord src slot z).span? slot = some (z.sealedAs ((w.se.get src).map Running.finish)) := by
    rw [sealRecord_span_self, h.se]
  by_cases last : n = 2 ^ 48 - 1
  · have none := noGap.resolve_left fun k => k last
    rw [after.closes seq last, State.span?, exhaust_st (s := b.sealRecord src slot z) (h.pending.trans none)]
    exact found
  · rw [after.goes seq last]
    exact found

theorem stops (h : Ready w src slot z window b) {n : Nat} (seq : z.seq = BitVec.allOnes 32)
    (sources : w.rc.sourceSet.get src = true) :
    let v := if n = 2 ^ 48 - 1 then (b.seal src).exhaust src else b.seal src
    (v.intake src).intake.takes = false ∧ v.rc.runState ≠ .running := by
  intro v
  obtain ⟨stopped, shut⟩ := (h.ends n).stops seq sources
  refine ⟨shut, ?_⟩
  have state := enterStopping_state (s := (b.sealRecord src slot z).sealPressure src)
  rw [← stopped] at state
  intro running
  rw [running] at state
  simp at state

end Ready

/-! ### The tests after a trigger (R50, R61, R67) -/

/-- The window of a source has closed. -/
def State.shutWindow (s : State) (src : Source) : State := s.onWindow src fun w => { w with window := none }

/-- Whether the window that a trigger on sample `n` leaves ends at that sample. -/
def State.ClosesAt (w : State) (src : Source) (n : Nat) : Prop :=
  (w.settings src).mode = .triggered ∧
    max (n + (w.settings src).postDepth) (((w.twu.get src).window).getD 0) ≤ n

/-- The window of a source after a trigger on sample `n` and the test of its end. -/
def State.windowTested (w : State) (src : Source) (n : Nat) : Option Nat :=
  if (w.settings src).mode = .triggered then
    if max (n + (w.settings src).postDepth) (((w.twu.get src).window).getD 0) ≤ n then none
    else some (max (n + (w.settings src).postDepth) (((w.twu.get src).window).getD 0))
  else (w.twu.get src).window

theorem windowTested_closes {w : State} {src : Source} {n : Nat} (h : w.ClosesAt src n) : w.windowTested src n = none := by
  rw [State.windowTested, if_pos h.1, if_pos h.2]

theorem windowTested_stays {w : State} {src : Source} {n : Nat} (h : ¬ w.ClosesAt src n) :
    w.windowTested src n = w.windowAfter src n := by
  unfold State.windowTested State.windowAfter
  split
  · next mode => exact if_neg fun ends => h ⟨mode, ends⟩
  · rfl

namespace Triggers
variable {w a : State} {src : Source} {n : Nat} {taken : Option Nat}

theorem settings (h : Triggers w src n taken a) : a.settings src = w.settings src :=
  (congrArg IntakeSource.settings h.intake :)

theorem rc (h : Triggers w src n taken a) : a.rc = w.rc := by rw [h.same]

theorem testWindow_closes (h : Triggers w src n taken a) (closes : w.ClosesAt src n) :
    a.testWindow src n taken = if taken.isSome then (a.shutWindow src).seal src else a.shutWindow src := by
  refine testWindow_ends (by rw [h.settings]; exact closes.1) ?_ closes.2 taken
  rw [h.twu]
  exact if_pos closes.1

theorem testWindow_stays (h : Triggers w src n taken a) (stays : ¬ w.ClosesAt src n) : a.testWindow src n taken = a := by
  refine testWindow_before taken fun mode e window => ?_
  rw [h.settings] at mode
  rw [h.twu] at window
  have windowEnd := (if_pos mode).symm.trans window
  cases windowEnd
  exact Nat.not_le.mp fun ends => stays ⟨mode, ends⟩

end Triggers

theorem keptBy_filling {w : State} {src : Source} {n : Nat} {h : Span} (filling : (w.keptBy src n h).state = .filling) :
    w.keptBy src n h = h := by
  unfold State.keptBy at filling ⊢
  split
  · next mode =>
    rw [if_pos mode] at filling
    unfold Span.keptFrom at filling ⊢
    split
    · next reaches =>
      rw [if_pos reaches] at filling
      cases filling
    · rfl
  · rfl

theorem markedBy_rest (w : State) (src : Source) (n : Nat) (sp : Span) :
    (w.markedBy src n sp).state = sp.state ∧ (w.markedBy src n sp).source = sp.source ∧
      (w.markedBy src n sp).seq = sp.seq ∧ (w.markedBy src n sp).count = sp.count := by
  unfold State.markedBy
  split
  · obtain ⟨state, source, seq, count, -⟩ := addMark_rest { sp with retention := .keep }
      { offset := n - sp.first, shortfall := w.shortfall src n }
    exact ⟨state, source, seq, count⟩
  · obtain ⟨state, source, seq, count, -⟩ := addMark_rest sp { offset := n - sp.first, shortfall := 0 }
    exact ⟨state, source, seq, count⟩

/-- A trigger on a sample that the source's only FILLING span took leaves it ready for the tests. -/
theorem triggers_ready {w : State} {src : Source} {slot n : Nat} {stored : Span}
    (pending : (w.intake src).tagPending = true ∨ (w.twu.get src).markPending = true)
    (found : w.st.filling src = some (slot, stored)) (law : RunLaw w) (running : w.rc.runState = .running)
    (only : ∀ k y, w.span? k = some y → y.source = src → y.state = .filling → k = slot) :
    Triggers w src n (some slot) (w.applyTrigger src n (some slot)) ∧
      Ready w src slot (w.markedBy src n stored) (w.windowAfter src n) (w.applyTrigger src n (some slot)) := by
  obtain ⟨listed, source, state, first⟩ := (filling_iff law.table).mp found
  have triggers := triggers_taken law.table listed state pending n
  have within := within_applyTrigger w src n (some slot)
  have lawAfter := within.law 0 law
  obtain ⟨marked, markedSource, -⟩ := markedBy_rest w src n stored
  have others (k : Nat) (y : Span) (other : k ≠ slot) (here : (w.applyTrigger src n (some slot)).span? k = some y)
      (filling : y.state = .filling) : w.span? k = some y := by
    rw [triggers.spans k fun eq => other (Option.some.inj eq).symm] at here
    obtain ⟨h, before, rfl⟩ := Option.map_eq_some_iff.mp here
    rw [keptBy_filling filling]
    exact before
  refine ⟨triggers, ?_⟩
  exact {
    law := lawAfter
    filling := (filling_iff lawAfter.table).mpr ⟨triggers.marked slot stored rfl listed state, markedSource.trans source,
      marked.trans state, fun k y lower here k' => first k y lower (others k y (by omega) here k'.2) k'⟩
    only := fun k y here src' filling => by
      by_contra other
      exact other (only k y (others k y other here filling) src' filling)
    settled := ⟨by rw [triggers.intake], triggers.twu⟩
    pending := by rw [triggers.intake]
    settings := triggers.settings
    running := running
    rc := triggers.rc
    se := by rw [triggers.same]
    spm := by rw [triggers.same] }

theorem Ready.shutWindow {w b : State} {src : Source} {slot : Nat} {z : Span} {window : Option Nat}
    (h : Ready w src slot z window b) : Ready w src slot z none (b.shutWindow src) where
  law := (within_onWindow b src _).law 0 h.law
  filling := h.filling
  only := h.only
  settled := ⟨h.settled.1, (PerSource.get_set_self _ _ _).trans (by rw [h.settled.2])⟩
  pending := h.pending
  settings := h.settings
  running := h.running
  rc := h.rc
  se := h.se
  spm := h.spm

/-- What ends the span that took the triggering sample `n`. -/
def State.EndsAt (w : State) (src : Source) (n count : Nat) : Prop :=
  w.ClosesAt src n ∨ count = 2 ^ (w.settings src).spanExp ∨ n = 2 ^ 48 - 1

/-- The tests after a trigger: one seal, if the span ends. -/
theorem tests_triggered {w a : State} {src : Source} {slot n : Nat} {z : Span}
    (triggers : Triggers w src n (some slot) a) (ready : Ready w src slot z (w.windowAfter src n) a) :
    (w.EndsAt src n z.count → ∃ b, Ready w src slot z (w.windowTested src n) b ∧
      ((a.testWindow src n (some slot)).testLength src (some slot)).testNumbers src n =
        if n = 2 ^ 48 - 1 then (b.seal src).exhaust src else b.seal src) ∧
    (¬ w.EndsAt src n z.count →
      ((a.testWindow src n (some slot)).testLength src (some slot)).testNumbers src n = a) := by
  by_cases closes : w.ClosesAt src n
  · have shut := ready.shutWindow
    refine ⟨fun _ => ⟨a.shutWindow src, by rw [windowTested_closes closes]; exact shut, ?_⟩, fun k => absurd (.inl closes) k⟩
    rw [triggers.testWindow_closes closes, if_pos Option.isSome_some]
    exact tests_sealed shut.sealed _ n
  · rw [triggers.testWindow_stays closes, windowTested_stays closes]
    refine ⟨fun ends => ⟨a, ready, ?_⟩, fun goes => ?_⟩
    · exact tests_ends ready.sealed ready.filling (by rw [ready.settings]; exact ends.resolve_left closes)
    · rw [testLength_short ready.filling (by rw [ready.settings]; exact fun k => goes (.inr (.inl k))),
        testNumbers_other fun k => goes (.inr (.inr k))]

theorem keptBy_some (w : State) (src : Source) (n : Nat) (h : Span) :
    some (w.keptBy src n h) =
      if (w.settings src).mode = .triggered ∧ h.source = src ∧ h.state = .held ∧
          n - (w.settings src).preDepth ≤ h.first + h.count - 1 then
        some { h with state := .queued, retention := .keep }
      else some h := by
  unfold State.keptBy Span.keptFrom
  by_cases mode : (w.settings src).mode = .triggered
  · simp only [mode, true_and, if_true]
    split <;> rfl
  · rw [if_neg mode, if_neg fun k => mode k.1]

end Sys2Proof.Machine

/-! Triggers and windows, part by part (O37). -/

namespace Sys2Proof.Machine

/-! ### A sample at the window's end, with no trigger (R67) -/

theorem Appends.shutWindow {s u : State} {src : Source} {slot : Nat} {sp : Span} {r : Running}
    (h : Appends s src slot sp r u) : Appends s src slot sp r (u.shutWindow src) :=
  ⟨h.found, h.st, h.summary, h.ci, h.rc, h.al, h.ds, h.iu, h.spm⟩

/-- The sample at which the window ends seals the span that took it. -/
theorem takeSample_closes {s : State} {src : Source} {slot e : Nat} {sp : Span} {r : Running}
    (takes : (s.intake src).intake.takes = true) (found : s.st.filling src = some (slot, sp))
    (summary : s.se.get src = some r) (tag : (s.intake src).tagPending = false)
    (mark : (s.twu.get src).markPending = false) (mode : (s.settings src).mode = .triggered)
    (window : (s.twu.get src).window = some e) (ends : e ≤ (s.intake src).nextNumber) (table : TableOk s.st)
    (law : SpanLaw s) (x : Sample) :
    State.takeSample src s x =
      if (s.intake src).nextNumber = 2 ^ 48 - 1 then
        ((((s.numbered src).appended src slot sp r x).shutWindow src).seal src).exhaust src
      else (((s.numbered src).appended src slot sp r x).shutWindow src).seal src := by
  have appends := (appends_appended found r x).shutWindow
  have settings : ((s.numbered src).appended src slot sp r x).settings src = s.settings src := by
    rw [appended_settings, numbered_settings]
  have idle : ((s.numbered src).appended src slot sp r x).applyTrigger src (s.intake src).nextNumber (some slot) =
      (s.numbered src).appended src slot sp r x := by
    have noTag : (((s.numbered src).appended src slot sp r x).intake src).tagPending = false := by
      rw [State.intake, appended_ci, ← State.intake, numbered_intake]
      exact tag
    rw [State.applyTrigger, noTag, appended_twu, numbered_twu, mark]
    rfl
  rw [takeSample_takes takes, place_filling (s := s.numbered src) found summary, State.testsSample]
  dsimp only
  rw [idle, testWindow_ends (by rw [settings]; exact mode) (by rw [appended_twu]; exact window) ends,
    if_pos Option.isSome_some]
  exact tests_sealed (Unfilled.filling (unfilled_seal src (appends.table table) (appends.one law table))) _ _

theorem shutWindow_window (s : State) (src : Source) : ((s.shutWindow src).twu.get src).window = none :=
  (congrArg WindowSource.window (PerSource.get_set_self s.twu src { s.twu.get src with window := none }) :)

/-! ### A sample with a trigger (R50, R61) -/

/-- What a trigger on sample `n` and the tests after it leave, where the span of a slot took the sample. -/
structure TakenTrigger (w : State) (src : Source) (slot n : Nat) (stored : Span) (v : State) : Prop where
  settled : Settled src (w.windowTested src n) v
  stays : ¬ w.EndsAt src n stored.count → v.span? slot = some (w.markedBy src n stored) ∧ v.rc = w.rc ∧
    ∀ k h, k ≠ slot → w.span? k = some h → v.span? k = some (w.keptBy src n h)
  sealed : w.EndsAt src n stored.count → stored.seq ≠ BitVec.allOnes 32 →
    (w.spm.pressure.get src = .calm ∨ (w.settings src).shedRule ≠ .oldest) →
    (n ≠ 2 ^ 48 - 1 ∨ (w.intake src).pendingGap = none) →
    v.span? slot = some ((w.markedBy src n stored).sealedAs ((w.se.get src).map Running.finish))
  stops : w.EndsAt src n stored.count → stored.seq = BitVec.allOnes 32 → w.rc.sourceSet.get src = true →
    (v.intake src).intake.takes = false ∧ v.rc.runState ≠ .running

theorem trigger_taken {w : State} {src : Source} {slot n : Nat} {stored : Span}
    (pending : (w.intake src).tagPending = true ∨ (w.twu.get src).markPending = true)
    (found : w.st.filling src = some (slot, stored)) (law : RunLaw w) (running : w.rc.runState = .running)
    (only : ∀ k y, w.span? k = some y → y.source = src → y.state = .filling → k = slot) :
    TakenTrigger w src slot n stored (State.testsSample (w, some slot) src n) := by
  obtain ⟨triggers, ready⟩ := triggers_ready (n := n) pending found law running only
  obtain ⟨sealing, going⟩ := tests_triggered triggers ready
  obtain ⟨-, -, seq, count⟩ := markedBy_rest w src n stored
  rw [count] at sealing going
  unfold State.testsSample
  by_cases goes : w.EndsAt src n stored.count
  · obtain ⟨b, sealed, result⟩ := sealing goes
    rw [result]
    exact ⟨sealed.settled_seal n, fun k => absurd goes k, fun _ other calm noGap =>
      sealed.record (by rw [seq]; exact other) calm noGap, fun _ last run => sealed.stops (by rw [seq]; exact last) run⟩
  · have stays : ¬ w.ClosesAt src n := fun k => goes (.inl k)
    obtain ⟨listed, -, state, -⟩ := (filling_iff law.table).mp found
    rw [going goes]
    refine ⟨?_, fun _ => ⟨triggers.marked slot stored rfl listed state, triggers.rc, fun k h other here => ?_⟩,
      fun k => absurd k goes, fun k => absurd k goes⟩
    · rw [windowTested_stays stays]
      exact ready.settled
    · rw [triggers.spans k fun same => other (Option.some.inj same).symm, here, Option.map_some]

/-- What a trigger on a dropped sample `n` and the test of the window's end leave. -/
structure DroppedTrigger (w : State) (src : Source) (n : Nat) (v : State) : Prop where
  intake : v.intake src = { w.intake src with tagPending := false }
  rc : v.rc = w.rc
  twu : v.twu.get src = { window := w.windowTested src n, markPending := false }
  spans : ∀ k h, w.span? k = some h → v.span? k = some (w.keptBy src n h)

theorem trigger_dropped {w : State} {src : Source} {n : Nat}
    (pending : (w.intake src).tagPending = true ∨ (w.twu.get src).markPending = true) (table : TableOk w.st)
    (other : n ≠ 2 ^ 48 - 1) : DroppedTrigger w src n (State.testsSample (w, none) src n) := by
  have triggers := triggers_dropped table pending n
  have tests : State.testsSample (w, none) src n = (w.applyTrigger src n none).testWindow src n none :=
    testNumbers_other other
  have spans (k : Nat) (h : Span) (here : w.span? k = some h) :
      (w.applyTrigger src n none).span? k = some (w.keptBy src n h) := by
    rw [triggers.spans k (Option.some_ne_none k).symm, here, Option.map_some]
  rw [tests]
  by_cases closes : w.ClosesAt src n
  · rw [triggers.testWindow_closes closes, if_neg (by simp)]
    refine ⟨triggers.intake, triggers.rc, ?_, spans⟩
    rw [windowTested_closes closes]
    refine (PerSource.get_set_self _ _ _).trans ?_
    rw [triggers.twu]
  · rw [triggers.testWindow_stays closes]
    refine ⟨triggers.intake, triggers.rc, ?_, spans⟩
    rw [windowTested_stays closes]
    exact triggers.twu

/-- Settles O37: the parts in the order of R50, with what a seal comes to where the sample ends its span. -/
theorem triggerMarksStayInOrder : Obligations.TriggerMarksStayInOrder := by
  refine ⟨fun s src slot n sp mode pending found => ?_, fun sp m order => ⟨fun room => ?_, fun full => ?_⟩,
    fun s src slot n sp mode pending found filling table => ?_, fun s src n pending table => ?_,
    fun s src x slot sp r e takes running found summary tag mark mode window ends law spans => ?_,
    fun s src x takes => takesSample_of (takeSample_takes takes x),
    fun s src n x slot sp r found summary => place_filling found summary n x,
    fun s w src x slot stored takes pending placed found _ law running only => ?_,
    fun s w src x takes pending placed other table => ?_, fun s src n apart => shortfall_count apart n,
    fun s src n e mode window => ⟨fun ends => testWindow_ends mode window ends none,
      fun before taken => testWindow_before taken fun _ e' same => by cases window.symm.trans same; exact before⟩,
    fun s src running table => ⟨fun newest mode takes last deep => age_spans running table mode takes last deep, age_stays⟩⟩
  · rw [applyTrigger_plain mode pending]
    exact onSpan_found (s := s.untagged src) found _
  · rw [addMark_room room]
    exact ⟨marksInOrder_iff.mpr (insertMark_inOrder (marksInOrder_iff.mp order)), insertMark_length m _,
      fun k => mem_insertMark, rfl⟩
  · rw [addMark_full full]
    exact ⟨rfl, rfl⟩
  · have triggers := triggers_taken table found filling pending n
    have marked := triggers.marked slot sp rfl found filling
    rw [State.markedBy, if_pos mode] at marked
    refine ⟨?_, by rw [triggers.intake], marked, fun k h listed source held => ?_, by rw [triggers.same],
      by rw [triggers.same], by rw [triggers.same], by rw [triggers.same]⟩
    · rw [triggers.twu, State.windowAfter, if_pos mode]
    · have other : some slot ≠ some k := fun same => by
        cases same
        cases found.symm.trans listed
        rw [filling] at held
        cases held
      rw [triggers.spans k other, listed, Option.map_some, keptBy_some]
      exact if_congr (by simp only [mode, source, held, true_and]) rfl rfl
  · have triggers := triggers_dropped table pending n
    refine ⟨by rw [triggers.twu], by rw [triggers.intake], fun mode => ⟨?_, ?_⟩, fun mode => ⟨?_, fun k h listed => ?_⟩,
      by rw [triggers.same], by rw [triggers.same], by rw [triggers.same], by rw [triggers.same]⟩
    · rw [triggers.twu, State.windowAfter, if_neg (continuous_ne mode)]
    · rw [applyTrigger_plain mode pending]
      rfl
    · rw [triggers.twu, State.windowAfter, if_pos mode]
    · rw [triggers.spans k (by simp), listed, Option.map_some, keptBy_some]
      exact if_congr (by simp only [mode, true_and]) rfl rfl
  · have appends := (appends_appended found r x).shutWindow
    have run := runs_appended found summary running law x
    have filling := appends.filling law.table
    have sealed := appends.seals
    have runs : Runs 0 ((((s.numbered src).appended src slot sp r x).shutWindow src).sealRecord src slot
        { sp with count := sp.count + 1 }) :=
      ⟨(within_sealRecord filling).law 0 ((within_onWindow _ src _).law 0 run.1), run.2⟩
    have after := spanEnds (s := s) (n := (s.intake src).nextNumber) filling rfl run.2 (fun _ => (runs.sealPressure src).2)
      (by rw [appends.rc])
    have shut : ((State.sealRecord (((s.numbered src).appended src slot sp r x).shutWindow src) src slot
        { sp with count := sp.count + 1 }).twu.get src).window = none := shutWindow_window _ src
    refine takesSample_of ?_
    rw [takeSample_closes takes found summary tag mark mode window ends law.table spans x]
    refine ⟨_, _, rfl, shut, sealed.slots, sealed.rc, sealed.spm,
      sealed.calm, after.goes, fun seq last gap => ?_, fun seq sources => (after.stops seq sources).1⟩
    obtain ⟨st, rc, -, closed⟩ := exhaust_clear (clear_keeps.sealPressure
      (by rw [sealed.intake]; exact ⟨takes, gap⟩) src)
    rw [after.closes seq last]
    exact ⟨st, rc, by rw [closed]⟩
  · refine takesSample_of ?_
    rw [takeSample_takes takes, show (s.numbered src).place src (s.intake src).nextNumber x = (w, some slot) from placed]
    have after := trigger_taken (n := (s.intake src).nextNumber) pending found law running only
    refine ⟨after.settled.1, congrArg WindowSource.markPending after.settled.2,
      congrArg WindowSource.window after.settled.2, fun goes => ?_, after.sealed, after.stops⟩
    obtain ⟨marked, rc, others⟩ := after.stays goes
    exact ⟨marked, rc, fun k h apart here => (others k h apart here).trans (keptBy_some w src _ h)⟩
  · refine takesSample_of ?_
    rw [takeSample_takes takes, show (s.numbered src).place src (s.intake src).nextNumber x = (w, none) from placed]
    have after := trigger_dropped pending table other
    exact ⟨after.intake, after.rc, after.twu, fun k h here => (after.spans k h here).trans (keptBy_some w src _ h)⟩

end Sys2Proof.Machine

/-! The commit of a span, the admission of its entry, and what the end of the run makes of both (R9, R20, R21, R33, R158, R159). -/

namespace Sys2Proof.Machine

/-! ### A landed copy commits the span (R9, R111, R130) -/

theorem queueRemove_eq (slot : Nat) (q : List Nat) : queueRemove slot q = q.filter fun n => decide (n ≠ slot) := by
  unfold queueRemove
  congr 1
  funext n
  by_cases same : n = slot <;> simp [same]

/-- The state with a span replaced that stands in no queue. -/
def State.dequeued (s : State) (slot : Nat) (v : Span) : State :=
  { s with st := { s.st with
    slots := putSlot s.st.slots slot v
    queues := s.st.queues.set v.source ((s.st.queues.get v.source).filter fun n => decide (n ≠ slot)) } }

theorem enter_eq_dequeued (s : State) (slot : Nat) {v : Span} (state : v.state ≠ .queued) :
    s.enter slot v = s.dequeued slot v := by
  rw [State.enter, if_neg state, queueRemove_eq]
  rfl

theorem setSpan_dequeued (s : State) (slot : Nat) (x y : Span) : (s.setSpan slot x).dequeued slot y = s.dequeued slot y := by
  unfold State.dequeued State.setSpan
  rw [State.setSt_st, putSlot_putSlot]
  rfl

/-- A commit request that R9 applies. -/
theorem commit_found {s : State} {slot : Nat} {sp : Span} (found : s.span? slot = some sp)
    (may : sp.mayCommit s.rc.expired = true) : s.commit slot = (s.dequeued slot sp.committed).offerSpan slot := by
  rw [State.commit, found]
  dsimp only
  rw [if_pos may, enter_eq_dequeued s slot (v := sp.committed) (fun k => SpanState.noConfusion k)]

/-- The record of a span whose last copy has landed. -/
def Span.landed (sp : Span) (c : Copy) (degraded : Bool) : Span :=
  { sp with state := .committed, copies := sp.copies ++ [c], repairLane := none, degraded := degraded }

theorem committed_addCopy (sp : Span) (c : Copy) :
    (sp.addCopy c).committed = sp.landed c (decide (sp.laneRule = .mirror) && decide (sp.copies.length = 0)) := by
  have one : decide ((sp.copies ++ [c]).length = 1) = decide (sp.copies.length = 0) := decide_eq_decide.mpr (by simp)
  unfold Span.committed Span.landed
  rw [← one]
  rfl

/-- One copy more commits a span whose rule it satisfies. -/
theorem commit_addCopy {s : State} {slot : Nat} {sp : Span} (c : Copy)
    (may : (sp.addCopy c).mayCommit s.rc.expired = true) :
    (s.setSpan slot (sp.addCopy c)).commit slot =
      (s.dequeued slot (sp.landed c (decide (sp.laneRule = .mirror) && decide (sp.copies.length = 0)))).offerSpan slot := by
  rw [commit_found (setSpan_self s slot _) may, setSpan_dequeued, committed_addCopy]

theorem addCopy_mayCommit {sp : Span} (enough : sp.laneRule ≠ .mirror ∨ sp.copies.length = 1) (c : Copy) (expired : Bool) :
    (sp.addCopy c).mayCommit expired = true := by
  have more : (sp.addCopy c).copies.length = sp.copies.length + 1 := List.length_append
  have rule : (sp.addCopy c).laneRule = sp.laneRule := rfl
  unfold Span.mayCommit
  rw [more, rule]
  cases h : sp.laneRule with
  | l0 | l1 | either => exact decide_eq_true (by omega)
  | mirror =>
    have one := enough.resolve_left fun k => k h
    simp [one]

theorem applySingle_done {s : State} {slot : Nat} {sp : Span} (found : s.span? slot = some sp) (lane : Lane)
    (address : Nat) :
    s.applySingle slot lane .done address =
      if (sp.addCopy { lane := lane, address := address }).degradesAlone then
        ((s.setSpan slot (sp.addCopy { lane := lane, address := address })).commit slot).setFlag .pairDegraded
      else (s.setSpan slot (sp.addCopy { lane := lane, address := address })).commit slot := by
  unfold State.applySingle
  dsimp only
  rw [onSpan_found found, setSpan_self]

/-- A copy that a span's rule asks for no more after. -/
theorem applySingle_commits {s : State} {slot : Nat} {sp : Span} (found : s.span? slot = some sp) (lane : Lane)
    (address : Nat) (enough : sp.laneRule ≠ .mirror ∨ sp.copies.length = 1) :
    s.applySingle slot lane .done address =
      (s.dequeued slot (sp.landed { lane := lane, address := address } false)).offerSpan slot := by
  have two : (decide (sp.laneRule = .mirror) && decide (sp.copies.length = 0)) = false := by
    obtain other | one := enough
    · simp [other]
    · simp [one]
  have alone : (sp.addCopy { lane := lane, address := address }).degradesAlone = false := by
    obtain other | one := enough
    · simp [Span.degradesAlone, Span.addCopy, other]
    · simp [Span.degradesAlone, Span.addCopy, one]
  rw [applySingle_done found, alone, if_neg Bool.noConfusion, commit_addCopy _ (addCopy_mayCommit enough _ _), two]

/-- The first copy of a mirrored span of policy DEGRADE, written singly. -/
theorem applySingle_degrades {s : State} {slot : Nat} {sp : Span} (found : s.span? slot = some sp) (lane : Lane)
    (address : Nat) (mirror : sp.laneRule = .mirror) (bare : sp.copies = []) (degrade : sp.mirrorPolicy = some .degrade) :
    s.applySingle slot lane .done address =
      ((s.dequeued slot (sp.landed { lane := lane, address := address } true)).offerSpan slot).setFlag .pairDegraded := by
  have may : (sp.addCopy { lane := lane, address := address }).mayCommit s.rc.expired = true := by
    simp [Span.mayCommit, Span.addCopy, mirror, bare, degrade]
  have alone : (sp.addCopy { lane := lane, address := address }).degradesAlone = true := by
    simp [Span.degradesAlone, Span.addCopy, mirror, bare, degrade]
  have one : (decide (sp.laneRule = .mirror) && decide (sp.copies.length = 0)) = true := by simp [mirror, bare]
  rw [applySingle_done found, if_pos alone, commit_addCopy _ may, one]

/-! ### The admission of a span's entry (R20, R159) -/

/-- The counters after the entry of a span has been admitted. -/
def Span.offered (sp : Span) (c : RunCounters) : RunCounters :=
  if sp.state = .shed then { c with shed := c.shed + 1 } else { c with indexed := c.indexed + 1 }

/-- A span's entry has been admitted to a buffer, and its slot released. -/
structure SpanAdmitted (s : State) (slot : Nat) (sp : Span) (b : BufferName) (t : State) : Prop where
  gone : t.span? slot = none
  others : ∀ n, n ≠ slot → t.span? n = s.span? n
  occupancy : t.st.occupancy = s.st.occupancy - 1
  rc : t.rc = { s.rc with counters := sp.offered s.rc.counters }
  iu : t.iu = { s.iu with buffers := s.iu.buffers.set b ((s.buffer b).append sp.entry false) }
  offeredGap : ∀ src, (t.intake src).offeredGap = (s.intake src).offeredGap
  pendingGap : ∀ src, (t.intake src).pendingGap = (s.intake src).pendingGap
  al : t.al = s.al
  table : TableOk t.st

/-- What a release leaves, for any cause. -/
theorem spanAdmitted_release {s : State} {slot : Nat} {sp : Span} {b : BufferName} (found : s.span? slot = some sp)
    (table : TableOk s.st) {cause : ReleaseCause} (counts : cause.count s.rc.counters = sp.offered s.rc.counters) :
    SpanAdmitted s slot sp b ((s.setBuffer b ((s.buffer b).append sp.entry false)).release slot cause) := by
  let w := s.setBuffer b ((s.buffer b).append sp.entry false)
  have found' : w.span? slot = some sp := found
  have slots (n : Nat) : (w.release slot cause).span? n = if n = slot then none else s.span? n := by
    rw [State.span?, release_st found']
    exact findSlot_dropSlot s.st.slots slot n 0 table.slots
  have beside := beside_release w slot cause
  refine ⟨(slots slot).trans (if_pos rfl), fun n other => (slots n).trans (if_neg other), ?_, ?_, beside.iu,
    beside.offered, beside.pendingGap, (indexOnly_release w slot cause).al,
    (thins_release (s := w) table slot cause).table⟩
  · rw [release_st found']
    rfl
  · rw [release_some found', occupancyChanged_rc, ← counts]
    rfl

theorem spanAdmitted {s : State} {slot : Nat} {sp : Span} (found : s.span? slot = some sp) (table : TableOk s.st)
    (b : BufferName) : SpanAdmitted s slot sp b (s.admitted (.span slot sp.entry) b sp.entry) := by
  by_cases shed : sp.state = .shed
  · have entry : sp.entry = .gap sp.gapEntry := by rw [Span.entry, shed]
    have released : s.admitted (.span slot sp.entry) b sp.entry =
        (s.setBuffer b ((s.buffer b).append sp.entry false)).release slot .shed := by
      rw [entry]
      rfl
    rw [released]
    exact spanAdmitted_release found table (by rw [Span.offered, if_pos shed]; rfl)
  · have entry : sp.entry = .span sp.spanEntry := by
      unfold Span.entry
      split
      · next k => exact absurd k shed
      · rfl
    have released : s.admitted (.span slot sp.entry) b sp.entry =
        (s.setBuffer b ((s.buffer b).append sp.entry false)).release slot .indexed := by
      rw [entry]
      rfl
    rw [released]
    exact spanAdmitted_release found table (by rw [Span.offered, if_neg shed]; rfl)

/-- The offer of a span's entry to a buffer that can take it. -/
theorem offerSpan_admitted {s : State} {slot : Nat} {sp : Span} {b : BufferName} (found : s.span? slot = some sp)
    (target : s.target = some b) :
    s.offerSpan slot = (s.admitted (.span slot sp.entry) b sp.entry).does [.progress, .testEnding] := by
  rw [State.offerSpan, found]
  dsimp only
  rw [index_eq_does_one, does_offer_admitted [] target rfl]
  rfl

theorem append_full {v : IndexBuffer} (e : Entry) (full : v.entries.length + 1 = 63) :
    v.append e false = { state := .closed, entries := v.entries ++ [e], final := v.final } := by
  simp [IndexBuffer.append, Config.entriesPerBlock]
  omega

theorem SpanAdmitted.room {s t : State} {slot : Nat} {sp : Span} {b : BufferName} (h : SpanAdmitted s slot sp b t)
    (room : (s.buffer b).entries.length + 1 < 63) : t.iu = s.iu.admits b sp.entry := by
  rw [h.iu, append_room _ room]
  rfl

/-- A buffer closed by its 63rd entry. -/
def State.filled (s : State) (b : BufferName) (e : Entry) : IndexBuffer :=
  { state := .closed, entries := (s.buffer b).entries ++ [e], final := (s.buffer b).final }

theorem SpanAdmitted.full {s t : State} {slot : Nat} {sp : Span} {b : BufferName} (h : SpanAdmitted s slot sp b t)
    (full : (s.buffer b).entries.length + 1 = 63) :
    t.iu = { s.iu with buffers := s.iu.buffers.set b (s.filled b sp.entry) } := by
  rw [h.iu, append_full _ full]
  rfl

theorem SpanAdmitted.lane {s t : State} {slot : Nat} {sp : Span} {b : BufferName} (h : SpanAdmitted s slot sp b t)
    (lane : Lane) : t.lane lane = s.lane lane := by
  rw [State.lane, h.al]
  rfl

/-- With room in the buffer, only the test of R33 follows. -/
theorem SpanAdmitted.does_room {s t : State} {slot : Nat} {sp : Span} {b : BufferName} (h : SpanAdmitted s slot sp b t)
    (rests : IndexRests s.iu) (room : (s.buffer b).entries.length + 1 < 63) :
    t.does [.progress, .testEnding] = t.does [.testEnding] :=
  does_progress_rests _ (by rw [h.room room]; exact rests.admits b _)

theorem SpanAdmitted.running {s t : State} {slot : Nat} {sp : Span} {b : BufferName} (h : SpanAdmitted s slot sp b t)
    (running : s.rc.runState = .running) : t.rc.runState ≠ .stopping := by
  rw [h.rc]
  exact fun k => RunState.noConfusion (running.symm.trans k)

/-- While the block being written is owed, a buffer filled by the entry waits. -/
theorem SpanAdmitted.does_waits {s t : State} {slot : Nat} {sp : Span} {b : BufferName} (h : SpanAdmitted s slot sp b t)
    (rests : IndexRests s.iu) (writing : s.iu.writing.isSome = true) :
    t.does [.progress, .testEnding] = t.does [.testEnding] := by
  obtain ⟨w, hw⟩ := Option.isSome_iff_exists.mp writing
  exact does_progress_owed (w := w) _ (by rw [h.iu]; exact hw) (rests.owed w hw)

/-- With no block being written, a buffer filled by the entry becomes WRITING. -/
theorem SpanAdmitted.does_writes {s t : State} {slot : Nat} {sp : Span} {b : BufferName} (h : SpanAdmitted s slot sp b t)
    (rests : IndexRests s.iu) (full : (s.buffer b).entries.length + 1 = 63) (idle : s.iu.writing = none) :
    t.does [.progress, .testEnding] = ((t.becomeWriting b).does [.progress]).does [.testEnding] := by
  have self : (t.buffer b).state = .closed := by
    rw [State.buffer, h.full full, PerBuffer.get_set_self]
    rfl
  have other (n : BufferName) (ne : b ≠ n) : (t.buffer n).state ≠ .closed := by
    rw [State.buffer, h.full full, PerBuffer.get_set_ne _ _ ne]
    exact rests.closed idle n
  have closed : t.closedBuffer = some b := by
    cases b with
    | a => exact closedBuffer_of_one (m := .b) (by decide) self (other .b (by decide))
    | b => exact closedBuffer_of_one (m := .a) (by decide) self (other .a (by decide))
  rw [← does_append]
  exact does_progress_closed _ (by rw [h.iu]; exact idle) closed

/-- The Index Unit with the filled buffer WRITING. -/
def State.filledWriting (s : State) (b : BufferName) (e : Entry) : IndexUnit :=
  { s.iu with
    buffers := s.iu.buffers.set b { s.filled b e with state := .writing }
    writing := some (s.writingOf b) }

theorem SpanAdmitted.writing_iu {s t : State} {slot : Nat} {sp : Span} {b : BufferName} (h : SpanAdmitted s slot sp b t)
    (full : (s.buffer b).entries.length + 1 = 63) : (t.becomeWriting b).iu = s.filledWriting b sp.entry := by
  have self : t.buffer b = s.filled b sp.entry := by
    rw [State.buffer, h.full full]
    exact PerBuffer.get_set_self _ _ _
  rw [becomeWriting_iu, State.toWriting, State.setIu_iu, self, State.writingOf, h.lane, h.lane, h.full full]
  unfold State.filledWriting
  rw [PerBuffer.set_set]
  rfl

end Sys2Proof.Machine

/-! A span's entry admitted: in RUNNING, and in a STOPPING run that it ends (O58). -/

namespace Sys2Proof.Machine

/-! ### In RUNNING -/

theorem BufferName.ne_other (b : BufferName) : b ≠ b.other := by cases b <;> decide

theorem BufferName.eq_other {b n : BufferName} (h : b ≠ n) : n = b.other := by
  cases b <;> cases n
  case a.a | b.b => exact absurd rfl h
  case a.b | b.a => rfl

/-- With no block being written, the other buffer of the one that can take an entry is EMPTY. -/
theorem other_empty {s : State} {b : BufferName} (law : IndexLaw s.iu) (rests : IndexRests s.iu)
    (idle : s.iu.writing = none) (target : s.target = some b) : (s.buffer b.other).state = .empty := by
  cases state : (s.buffer b.other).state with
  | empty => rfl
  | closed => exact absurd state (rests.closed idle b.other)
  | writing =>
    obtain ⟨w, writing, -⟩ := (law.writing b.other).mp state
    rw [idle] at writing
    cases writing
  | filling =>
    obtain self | ⟨-, none⟩ := target_spec target
    · exact absurd (law.oneFilling b b.other self state) b.ne_other
    · exact absurd state (none b.other)

theorem RunLaw.final_running {s : State} (law : RunLaw s) (running : s.rc.runState = .running) (n : BufferName) :
    (s.buffer n).final = false := by
  by_contra final
  have one := final_le_runEnds s.iu n
  rw [show (s.iu.buffers.get n).final = true from eq_true_of_ne_false final, Bool.toNat_true] at one
  have ending := law.ends.2 (by omega)
  rw [running] at ending
  cases ending

/-- A span's entry has been admitted in a run that goes on, by way of the state `t` of the admission. -/
structure GoesOn (t u : State) : Prop where
  st : u.st = t.st
  rc : u.rc = t.rc

theorem becomeWriting_rc (s : State) (b : BufferName) : (s.becomeWriting b).rc = s.rc := by
  rw [becomeWriting_eq]
  split
  · exact setFlag_rc _ _
  · rfl

section Running

variable {s t : State} {slot : Nat} {sp : Span} {b : BufferName}

theorem SpanAdmitted.runs_room (h : SpanAdmitted s slot sp b t) (running : s.rc.runState = .running)
    (rests : IndexRests s.iu) (room : (s.buffer b).entries.length + 1 < 63) : t.does [.progress, .testEnding] = t := by
  rw [h.does_room rests room, does_testEnding_not [] (.inl (h.running running)), does_nil]

theorem SpanAdmitted.runs_waits (h : SpanAdmitted s slot sp b t) (running : s.rc.runState = .running)
    (rests : IndexRests s.iu) (writing : s.iu.writing.isSome = true) : t.does [.progress, .testEnding] = t := by
  rw [h.does_waits rests writing, does_testEnding_not [] (.inl (h.running running)), does_nil]

theorem SpanAdmitted.runs_writes (h : SpanAdmitted s slot sp b t) (running : s.rc.runState = .running)
    (rests : IndexRests s.iu) (full : (s.buffer b).entries.length + 1 = 63) (idle : s.iu.writing = none)
    (owed : (s.lane .l0).state.duty = .owed ∨ (s.lane .l1).state.duty = .owed) :
    t.does [.progress, .testEnding] = t.becomeWriting b := by
  rw [h.does_writes rests full idle, becomeWriting_owed b (by rw [h.lane, h.lane]; exact owed),
    does_testEnding_not [] (.inl (by rw [becomeWriting_rc]; exact h.running running)), does_nil]

/-- Written by no lane, the block is done at once. -/
theorem SpanAdmitted.runs_unwritten (h : SpanAdmitted s slot sp b t) (running : s.rc.runState = .running)
    (law : RunLaw s) (offers : OfferLaw s) (rests : IndexRests s.iu) (target : s.target = some b)
    (full : (s.buffer b).entries.length + 1 = 63) (idle : s.iu.writing = none)
    (l0 : (s.lane .l0).state.duty = .off) (l1 : (s.lane .l1).state.duty = .off) :
    t.does [.progress, .testEnding] =
      ((t.setFlag .indexMissed).setFlag .checkpointDone).setIu (t.iu.clearedBlock b) := by
  obtain ⟨spans, gaps, runEnd⟩ := offers (by rw [target]; exact Option.some_ne_none b)
  have other : (t.buffer b.other).state = .empty := by
    rw [State.buffer, h.iu]
    exact (congrArg IndexBuffer.state (PerBuffer.get_set_ne _ _ b.ne_other)).trans
      (other_empty law.index rests idle target)
  have final : (t.buffer b).final = false := by
    rw [State.buffer, h.full full]
    exact (congrArg IndexBuffer.final (PerBuffer.get_set_self _ _ _)).trans (law.final_running running b)
  have rc : (((t.setFlag .indexMissed).setFlag .checkpointDone).setIu (t.iu.clearedBlock b)).rc = t.rc := by
    rw [State.setIu_rc, setFlag_rc, setFlag_rc]
  rw [h.does_writes rests full idle, becomeWriting_off b.ne_other other (by rw [h.lane]; exact l0)
    (by rw [h.lane]; exact l1) final (by rw [h.iu]; exact spans) (fun src => (h.offeredGap src).trans (gaps src))
    (by rw [h.iu]; exact runEnd), does_testEnding_not [] (.inl (by rw [rc]; exact h.running running)), does_nil]

theorem SpanAdmitted.goesOn (h : SpanAdmitted s slot sp b t) (running : s.rc.runState = .running)
    (law : RunLaw s) (offers : OfferLaw s) (rests : IndexRests s.iu) (target : s.target = some b)
    (room : (s.buffer b).entries.length < 63) : GoesOn t (t.does [.progress, .testEnding]) := by
  by_cases full : (s.buffer b).entries.length + 1 = 63
  case neg => rw [h.runs_room running rests (by omega)]; exact ⟨rfl, rfl⟩
  cases writing : s.iu.writing with
  | some w => rw [h.runs_waits running rests (by rw [writing]; rfl)]; exact ⟨rfl, rfl⟩
  | none =>
    obtain l0 | l0 := (s.lane .l0).state.duty_cases
    · rw [h.runs_writes running rests full writing (.inl l0)]
      exact ⟨becomeWriting_st t b, becomeWriting_rc t b⟩
    obtain l1 | l1 := (s.lane .l1).state.duty_cases
    · rw [h.runs_writes running rests full writing (.inr l1)]
      exact ⟨becomeWriting_st t b, becomeWriting_rc t b⟩
    · rw [h.runs_unwritten running law offers rests target full writing l0 l1]
      refine ⟨?_, ?_⟩
      · rw [State.setIu_st, setFlag_st, setFlag_st]
      · rw [State.setIu_rc, setFlag_rc, setFlag_rc]

end Running

/-! ### In STOPPING (R33, R34) -/

/-- A slot still holds a span, or a source a gap. -/
def State.StillHeld (s : State) (slot : Nat) : Prop :=
  (∃ n, n ≠ slot ∧ (s.span? n).isSome = true) ∨
    ∃ src, (s.intake src).pendingGap.isSome = true ∨ (s.intake src).offeredGap.isSome = true

theorem noGaps_not {s : State} {src : Source}
    (h : (s.intake src).pendingGap.isSome = true ∨ (s.intake src).offeredGap.isSome = true) : s.noGaps = false := by
  have own : (s.intake src).noGap = false := by
    unfold IntakeSource.noGap
    rw [Bool.and_eq_false_iff, Option.isNone_eq_false_iff, Option.isNone_eq_false_iff]
    exact h
  have all : s.noGaps = ((s.intake .s0).noGap && (s.intake .s1).noGap && (s.intake .s2).noGap && (s.intake .s3).noGap) :=
    rfl
  rw [all]
  cases src <;> rw [own] <;> simp

theorem slots_nil {s : State} (table : TableOk s.st) (free : ∀ n, s.span? n = none) : s.st.slots = [] := by
  refine List.eq_nil_iff_forall_not_mem.mpr fun ⟨n, v⟩ listed => ?_
  have found := findSlot_of_mem table.slots listed
  rw [← State.span?_eq, free n] at found
  cases found

theorem does_slots_nil {s : State} (table : TableOk s.st) (free : s.st.slots = []) (ts : List IndexTask) :
    (s.does ts).st.slots = [] := by
  have thins := thins_does table ts
  refine slots_nil thins.table fun n => ?_
  cases found : (s.does ts).span? n with
  | none => rfl
  | some v =>
    have before := thins.kept n v found
    rw [State.span?, free] at before
    cases before

theorem target_none {s : State} (h : ∀ n, (s.buffer n).state ≠ .filling ∧ (s.buffer n).state ≠ .empty) : s.target = none := by
  rw [State.target, if_neg (h .a).1, if_neg (h .b).1, if_neg (h .a).2, if_neg (h .b).2]

theorem target_of_empty {s : State} {n : BufferName} (self : (s.buffer n).state = .empty)
    (other : (s.buffer n.other).state = .writing) : s.target = some n := by
  cases n with
  | a =>
    rw [State.target, if_neg (by rw [self]; decide), if_neg (show ¬ (s.buffer .b).state = _ by rw [show (s.buffer .b).state = _ from other]; decide),
      if_pos self]
  | b =>
    have a : (s.buffer .a).state = .writing := other
    rw [State.target, if_neg (by rw [a]; decide), if_neg (by rw [self]; decide), if_neg (by rw [a]; decide), if_pos self]

section Stopping

variable {s t : State} {slot : Nat} {sp : Span} {b : BufferName}

theorem SpanAdmitted.stays (h : SpanAdmitted s slot sp b t) (held : s.StillHeld slot) :
    t.does [.testEnding] = t := by
  rw [does_testEnding_not [] ?_, does_nil]
  obtain ⟨n, other, found⟩ | ⟨src, gap⟩ := held
  · refine .inr (.inl fun free => ?_)
    rw [← h.others n other, State.span?, free] at found
    cases found
  · exact .inr (.inr (noGaps_not (src := src) (by rw [h.pendingGap, h.offeredGap]; exact gap)))

theorem SpanAdmitted.free (h : SpanAdmitted s slot sp b t) (notHeld : ¬ s.StillHeld slot) : t.st.slots = [] := by
  refine slots_nil h.table fun n => ?_
  by_cases same : n = slot
  · rw [same]
    exact h.gone
  · rw [h.others n same]
    cases found : s.span? n with
    | none => rfl
    | some v => exact absurd (.inl ⟨n, same, by rw [found]; rfl⟩) notHeld

theorem SpanAdmitted.gaps (h : SpanAdmitted s slot sp b t) (notHeld : ¬ s.StillHeld slot) (src : Source) :
    (t.intake src).pendingGap = none ∧ (t.intake src).offeredGap = none := by
  rw [h.pendingGap, h.offeredGap]
  constructor
  · by_contra gap
    exact notHeld (.inr ⟨src, .inl (Option.isSome_iff_ne_none.mpr gap)⟩)
  · by_contra gap
    exact notHeld (.inr ⟨src, .inr (Option.isSome_iff_ne_none.mpr gap)⟩)

/-- The run as RUN_END is offered. -/
theorem does_testEnding_runEnd {v : State} {counters : RunCounters} (stopping : v.rc.runState = .stopping)
    (free : v.st.slots = []) (gaps : ∀ src, (v.intake src).pendingGap = none ∧ (v.intake src).offeredGap = none)
    (rc : v.rc = { s.rc with counters := counters }) :
    v.does [.testEnding] = v.enterEnding.1.does [.offer (.runEnd (s.runEndEntry counters))] := by
  have entry : v.rc.endEntry = s.runEndEntry counters := by rw [rc]; rfl
  rw [does_testEnding_ends [] stopping free (noGaps_of gaps), entry]

theorem SpanAdmitted.stopping (h : SpanAdmitted s slot sp b t) (stopping : s.rc.runState = .stopping) :
    t.rc.runState = .stopping := by rw [h.rc]; exact stopping

/-- The last slot has become FREE, with room left in the buffer. -/
theorem SpanAdmitted.ends_room (h : SpanAdmitted s slot sp b t) (stopping : s.rc.runState = .stopping)
    (notHeld : ¬ s.StillHeld slot) (rests : IndexRests s.iu) (target : s.target = some b)
    (room : (s.buffer b).entries.length + 1 < 63) :
    EntersEnding s (t.does [.progress, .testEnding]) (sp.offered s.rc.counters) b
      ((s.buffer b).entries ++ [sp.entry, s.runEndEntry (sp.offered s.rc.counters)]) := by
  rw [h.does_room rests room, does_testEnding_runEnd (h.stopping stopping) (h.free notHeld) (h.gaps notHeld) h.rc]
  have iu := h.room room
  refine entersEnding (t := t.enterEnding.1) ?_ ?_ (fun v => ?_) h.al ?_ ?_ (fun src => (h.gaps notHeld src).2) ?_
  · rw [State.enterEnding, State.setIu_rc, State.setRc_rc, h.rc]
  · rw [State.enterEnding, State.setIu_iu, h.iu]
  · rw [State.enterEnding, State.setIu_iu, iu]
    exact PerBuffer.set_set _ _ _ _
  · exact target_admits target (congrArg IndexUnit.buffers iu :)
  · exact (iu ▸ rests.admits b sp.entry : IndexRests t.iu).congr rfl rfl
  · have self : (t.enterEnding.1.buffer b).entries = (s.buffer b).entries ++ [sp.entry] := by
      rw [State.buffer, State.enterEnding, State.setIu_iu, iu]
      exact congrArg IndexBuffer.entries (buffer_admits_self s.iu b sp.entry)
    rw [self, List.append_assoc]
    rfl

/-- The last slot has become FREE with a buffer filled and the other one WRITING: RUN_END waits. -/
theorem SpanAdmitted.ends_waits (h : SpanAdmitted s slot sp b t) (stopping : s.rc.runState = .stopping)
    (notHeld : ¬ s.StillHeld slot) (rests : IndexRests s.iu) (full : (s.buffer b).entries.length + 1 = 63)
    (writing : s.iu.writing.isSome = true) (other : (s.buffer b.other).state = .writing) :
    (t.does [.progress, .testEnding]).rc =
        { s.rc with runState := .ending, deadlineTimer := none, counters := sp.offered s.rc.counters } ∧
      (t.does [.progress, .testEnding]).iu =
        { s.iu with
          buffers := s.iu.buffers.set b (s.filled b sp.entry)
          waitRunEnd := some (s.runEndEntry (sp.offered s.rc.counters)), timer := none, lock := false } := by
  have iu := h.full full
  have taken : t.enterEnding.1.target = none := by
    refine target_none fun n => ?_
    have buffer : t.enterEnding.1.buffer n = t.iu.buffers.get n := rfl
    by_cases same : b = n
    · rw [buffer, ← same, iu, PerBuffer.get_set_self]
      exact ⟨BufferState.noConfusion, BufferState.noConfusion⟩
    · rw [buffer, iu, PerBuffer.get_set_ne _ _ same, BufferName.eq_other same]
      exact ⟨fun k => BufferState.noConfusion (other.symm.trans k), fun k => BufferState.noConfusion (other.symm.trans k)⟩
  rw [h.does_waits rests writing, does_testEnding_runEnd (h.stopping stopping) (h.free notHeld) (h.gaps notHeld) h.rc,
    does_offer_waits _ [] taken, does_nil]
  refine ⟨?_, ?_⟩
  · rw [State.wait, State.setIu_rc, State.enterEnding, State.setIu_rc, State.setRc_rc, h.rc]
  · rw [State.wait, State.setIu_iu, State.enterEnding, State.setIu_iu, iu]

/-- The last slot has become FREE with a buffer filled and none being written: it becomes WRITING, and RUN_END closes
the other one. -/
theorem SpanAdmitted.ends_writes (h : SpanAdmitted s slot sp b t) (stopping : s.rc.runState = .stopping)
    (notHeld : ¬ s.StillHeld slot) (rests : IndexRests s.iu) (full : (s.buffer b).entries.length + 1 = 63)
    (idle : s.iu.writing = none) (other : (s.buffer b.other).state = .empty)
    (owed : (s.lane .l0).state.duty = .owed ∨ (s.lane .l1).state.duty = .owed) :
    (t.does [.progress, .testEnding]).rc =
        { s.rc with runState := .ending, deadlineTimer := none, counters := sp.offered s.rc.counters } ∧
      (t.does [.progress, .testEnding]).iu =
        { s.iu with
          buffers := (s.iu.buffers.set b { s.filled b sp.entry with state := .writing }).set b.other
            { state := .closed
              entries := (s.buffer b.other).entries ++ [s.runEndEntry (sp.offered s.rc.counters)]
              final := true }
          writing := some (s.writingOf b), timer := none, lock := false } := by
  let v := t.becomeWriting b
  have iu : v.iu = s.filledWriting b sp.entry := h.writing_iu full
  have rc : v.rc = { s.rc with counters := sp.offered s.rc.counters } := (becomeWriting_rc t b).trans h.rc
  have st : v.st = t.st := becomeWriting_st t b
  have ci : v.ci = t.ci := by
    unfold v
    rw [becomeWriting_eq]
    split
    · exact setFlag_ci _ _
    · rfl
  have gaps (src : Source) : (v.intake src).pendingGap = none ∧ (v.intake src).offeredGap = none := by
    rw [State.intake, ci]
    exact h.gaps notHeld src
  have same : v.enterEnding.1.buffer b.other = s.buffer b.other := by
    rw [State.buffer, State.enterEnding, State.setIu_iu, iu]
    exact PerBuffer.get_set_ne _ _ b.ne_other
  have self : (v.enterEnding.1.buffer b).state = .writing := by
    rw [State.buffer, State.enterEnding, State.setIu_iu, iu]
    exact congrArg IndexBuffer.state (PerBuffer.get_set_self _ _ _)
  have taken : v.enterEnding.1.target = some b.other := by
    refine target_of_empty (by rw [same]; exact other) ?_
    cases b <;> exact self
  have writing : v.enterEnding.1.iu.writing = some (s.writingOf b) := by
    rw [State.enterEnding, State.setIu_iu, iu]
    rfl
  have waits : IndexRests v.enterEnding.1.iu := by
    refine ⟨fun w hw => ?_, fun none => ?_⟩
    · rw [writing] at hw
      cases hw
      exact owed
    · rw [writing] at none
      cases none
  have stays : v.does [.testEnding] = v.enterEnding.1.setIu (v.enterEnding.1.iu.closes b.other
      ((v.enterEnding.1.buffer b.other).entries ++ [s.runEndEntry (sp.offered s.rc.counters)])) := by
    rw [does_testEnding_runEnd (by rw [rc]; exact stopping) (by rw [st]; exact h.free notHeld) gaps rc,
      runEnd_waits taken waits (by rw [writing]; rfl)]
  rw [h.does_writes rests full idle, becomeWriting_owed b (by rw [h.lane, h.lane]; exact owed)]
  change (v.does [.testEnding]).rc = _ ∧ (v.does [.testEnding]).iu = _
  rw [stays, same]
  refine ⟨?_, ?_⟩
  · rw [State.setIu_rc, State.enterEnding, State.setIu_rc, State.setRc_rc, rc]
  · rw [State.setIu_iu, State.enterEnding, State.setIu_iu, iu]
    rfl

end Stopping

/-! ### The entry (R158) -/

theorem entry_committed {sp : Span} {m : Summary} (summary : sp.summary = some m) (state : sp.state = .committed) :
    sp.entry = .span
      { runId := sp.runId, seq := sp.seq, source := sp.source, first := sp.first, count := sp.count,
        retention := sp.retention, markCount := sp.marks.length, firstMark := sp.marks.head?,
        copies := sp.copies, degraded := sp.degraded, range := m.range, rawSum := m.rawSum,
        scaledSum := m.scaledSum, energy := m.energy, saturated := m.saturated } := by
  rw [Span.entry, state, Span.spanEntry, summary]
  rfl

theorem entry_shed {sp : Span} {c : ShedCause} (state : sp.state = .shed) (cause : sp.shedCause = some c) :
    sp.entry = .gap
      { runId := sp.runId, source := sp.source, seq := some sp.seq, first := sp.first, count := sp.count,
        causes := c.bit } := by
  rw [Span.entry, state, Span.gapEntry, cause]
  rfl

/-- Settles O58: the commit by the lane rule; the entry by what its admission leaves, in RUNNING and in STOPPING. -/
theorem landedCopyCommitsTheSpan : Obligations.LandedCopyCommitsTheSpan := by
  refine ⟨fun s lane slot address sp found => ⟨applySingle_commits found lane address,
      applySingle_degrades found lane address⟩,
    fun s slot sp found law offers rests running => ⟨fun full => ?_, fun b target room => ?_⟩,
    fun s slot sp b found table rests stopping target => ?_,
    fun sp m summary => ⟨entry_committed summary, fun c => entry_shed⟩⟩
  · exact offerSpan_waits found full
  · have taken := spanAdmitted found law.table b
    have goes := taken.goesOn running law offers rests target room
    rw [offerSpan_admitted found target]
    refine ⟨?_, fun n other => ?_, ?_, ?_, fun small => ?_, fun full => ⟨fun writing => ?_, fun idle owed => ?_,
      fun idle l0 l1 => ?_⟩⟩
    · rw [State.span?, goes.st]; exact taken.gone
    · rw [State.span?, goes.st]; exact taken.others n other
    · rw [goes.st]; exact taken.occupancy
    · rw [goes.rc]; exact taken.rc
    · rw [taken.runs_room running rests small]; exact taken.room small
    · rw [taken.runs_waits running rests writing]; exact taken.full full
    · rw [taken.runs_writes running rests full idle owed]; exact taken.writing_iu full
    · rw [taken.runs_unwritten running law offers rests target full idle l0 l1]
      refine ⟨?_, ?_, ?_⟩
      · rw [State.setIu_iu, taken.full full, IndexUnit.clearedBlock]
        dsimp only
        rw [PerBuffer.set_set, ← idle]
      · rw [State.setIu_nu, setFlag_isPending, setFlag_pending]
        rfl
      · exact setFlag_pending _ _
  · have taken := spanAdmitted found table b
    rw [offerSpan_admitted found target]
    refine ⟨fun room => ⟨fun held => ?_, fun notHeld => ⟨?_, taken.ends_room stopping notHeld rests target room⟩⟩,
      fun full notHeld => ⟨?_, taken.ends_waits stopping notHeld rests full, taken.ends_writes stopping notHeld rests full⟩⟩
    · rw [taken.does_room rests room, taken.stays held]
      exact ⟨taken.gone, taken.rc, taken.room room⟩
    · exact does_slots_nil taken.table (taken.free notHeld) _
    · exact does_slots_nil taken.table (taken.free notHeld) _

end Sys2Proof.Machine

/-! The end of a lane's job where no FORMING pair names the lane follower, and what a reported write leaves (R101, R109, R146). -/

namespace Sys2Proof.Machine

/-! ### The state a lane takes when its job ends (R146) -/

/-- The claim of a lane that becomes READY: one placed now, unless a pair context exists. -/
def State.claimAfter (s : State) (lane : Lane) : Option Claim :=
  if s.ds.pair = none then s.claimNow (s.lane lane) else s.ds.claim.get lane

theorem formingFollower_of_some {s : State} {c : PairContext} (pair : s.ds.pair = some c) (lane : Lane) :
    s.formingFollower lane = false ↔ ¬ (c.phase = .forming ∧ c.follower = lane) := by
  unfold State.formingFollower
  rw [pair]
  simp

theorem formingFollower_of_active {s : State} {c : PairContext} (pair : s.ds.pair = some c) (active : c.phase = .active)
    (lane : Lane) : s.formingFollower lane = false :=
  (formingFollower_of_some pair lane).mpr fun k => by rw [active] at k; exact PairPhase.noConfusion k.1

theorem formingFollower_congr {s t : State} (pair : t.ds.pair = s.ds.pair) (lane : Lane) :
    t.formingFollower lane = s.formingFollower lane := by
  unfold State.formingFollower
  rw [pair]

theorem checkFollower_of_quiet {s : State} {lane : Lane} (quiet : s.formingFollower lane = false) :
    s.checkFollower lane = s := by
  cases pair : s.ds.pair with
  | none => exact checkFollower_of_none pair
  | some c => exact checkFollower_of_other pair ((formingFollower_of_some pair lane).mp quiet)

theorem setClaim_same (s : State) (lane : Lane) : s.setClaim lane (s.ds.claim.get lane) = s := by cases lane <;> rfl

theorem enterReady_of_quiet {s : State} {lane : Lane} (quiet : s.formingFollower lane = false) :
    s.enterReady lane = (s.onLane lane fun a => { a with state := .ready }).setClaim lane (s.claimAfter lane) := by
  cases pair : s.ds.pair with
  | none => rw [enterReady_of_none pair, State.claimAfter, if_pos pair]
  | some c =>
    rw [enterReady_of_other pair ((formingFollower_of_some pair lane).mp quiet), State.claimAfter,
      if_neg (by rw [pair]; exact Option.some_ne_none c)]
    exact (setClaim_same _ lane).symm

theorem afterJob_none {s : State} {lane : Lane} (quiet : s.formingFollower lane = false)
    (action : (s.lane lane).action = .none) :
    s.afterJob lane =
      (s.onLane lane fun a => { a with state := .ready, action := .none }).setClaim lane (s.claimAfter lane) := by
  unfold State.afterJob
  rw [action]
  dsimp only
  rw [enterReady_of_quiet (by exact quiet), onLane_onLane]
  have claim : (s.onLane lane fun a => { a with action := .none }).claimAfter lane = s.claimAfter lane := by
    unfold State.claimAfter State.claimNow
    rw [State.lane_eq, get_onLane]
    rfl
  rw [claim]
  rfl

/-- The lane that takes PAUSE at the end of its job, before its block is missed. -/
def State.pausedAt (s : State) (lane : Lane) : State :=
  (s.onLane lane fun a => { a with state := .paused, action := .none }).setClaim lane none

theorem afterJob_pauses {s : State} {lane : Lane} (action : (s.lane lane).action = .pause) :
    s.afterJob lane = ((s.pausedAt lane).blockMissed lane).checkFollower lane := by
  unfold State.afterJob
  rw [action]
  cases lane <;> rfl

theorem afterJob_pause {s : State} {lane : Lane} (quiet : s.formingFollower lane = false)
    (action : (s.lane lane).action = .pause) : s.afterJob lane = (s.pausedAt lane).blockMissed lane := by
  rw [afterJob_pauses action]
  refine checkFollower_of_quiet ?_
  rw [formingFollower_congr (s := s) (by rw [(outside_blockMissed _ lane).ds]; rfl)]
  exact quiet

theorem afterJob_park {s : State} {lane : Lane} (action : (s.lane lane).action = .park) :
    s.afterJob lane =
      { s with
        al := s.al.set lane { s.lane lane with
          state := .parking, action := .none, burstTag := (s.lane lane).burstTag + 1,
          timer := some (s.lane lane).settings.responseTime
          wakePending := if s.formingFollower lane then true else (s.lane lane).wakePending }
        ds := { s.ds with claim := s.ds.claim.set lane none }
        wire := s.wire.set lane (s.wire.get lane ++ [.park ((s.lane lane).burstTag + 1)]) } := by
  unfold State.afterJob
  rw [action]
  dsimp only
  rw [enterParking_eq, formingFollower_congr (s := s) rfl]
  cases lane <;> rfl

theorem pausedAt_lane (s : State) (lane : Lane) :
    (s.pausedAt lane).lane lane = { s.lane lane with state := .paused, action := .none } := PerLane.get_set_self _ _ _

theorem afterJob_ends {s : State} {lane : Lane} (quiet : s.formingFollower lane = false) :
    JobEnds s (s.afterJob lane) lane (s.lane lane) (s.claimAfter lane) where
  ready none := by
    rw [afterJob_none quiet none]
    refine ⟨?_, PerLane.get_set_self _ _ _, rfl⟩
    refine (PerLane.get_set_self _ _ _).trans ?_
    rw [← none]
    rfl
  pause pause := by
    have out := outside_blockMissed (s.pausedAt lane) lane
    rw [afterJob_pause quiet pause]
    refine ⟨?_, ?_, blockMissed_owes (by rw [pausedAt_lane]; rfl), out.wire⟩
    · rw [State.lane, out.al]
      exact pausedAt_lane s lane
    · rw [out.ds]
      exact PerLane.get_set_self _ _ _
  park park := by
    rw [afterJob_park park, quiet]
    exact ⟨PerLane.get_set_self _ _ _, PerLane.get_set_self _ _ _, rfl⟩

/-- A lane that owes no block, or does not pause, takes its next state alone. -/
theorem afterJob_alone {s : State} {lane : Lane} (quiet : s.formingFollower lane = false)
    (free : s.owes lane = false ∨ (s.lane lane).action ≠ .pause) : LaneAlone s (s.afterJob lane) lane := by
  cases action : (s.lane lane).action with
  | none =>
    rw [afterJob_none quiet action]
    exact ⟨rfl, PerLane.get_set_other _ _ _, rfl⟩
  | pause =>
    have owes := free.resolve_right fun k => k action
    rw [afterJob_pause quiet action, blockMissed_of_not_owes (by exact owes)]
    exact ⟨rfl, PerLane.get_set_other _ _ _, rfl⟩
  | park =>
    rw [afterJob_park action]
    exact ⟨rfl, PerLane.get_set_other _ _ _, rfl⟩

theorem moves_pausedAt (s : State) (lane : Lane) : Moves lane s (s.pausedAt lane) :=
  (moves_onLane s lane _).trans (moves_setClaim _ lane none)

/-- The lane's next state leaves the other lane, its claim and the pair. -/
theorem moves_afterJob {s : State} {lane : Lane} (quiet : s.formingFollower lane = false) :
    Moves lane s (s.afterJob lane) := by
  cases action : (s.lane lane).action with
  | none =>
    rw [afterJob_none quiet action]
    exact (moves_onLane s lane _).trans (moves_setClaim _ lane _)
  | pause =>
    rw [afterJob_pause quiet action]
    exact (moves_pausedAt s lane).trans ((outside_blockMissed _ lane).moves lane)
  | park =>
    have step : s.afterJob lane = (s.onLane lane fun a => { a with action := .none }).enterParking lane := by
      unfold State.afterJob
      rw [action]
    rw [step]
    exact (moves_onLane s lane _).trans (moves_enterParking _ lane)

theorem Moves.other {lane : Lane} {s t : State} (h : Moves lane s t) : t.lane lane.other = s.lane lane.other :=
  h.al _ (Lane.other_ne lane)

theorem Moves.otherClaim {lane : Lane} {s t : State} (h : Moves lane s t) :
    t.ds.claim.get lane.other = s.ds.claim.get lane.other := h.claim _ (Lane.other_ne lane)

/-- A lane that pauses with a block owed misses it. -/
theorem afterJob_missed {s : State} {lane : Lane} (action : (s.lane lane).action = .pause) (owes : s.owes lane = true) :
    (s.afterJob lane).nu.isPending .indexMissed = true := by
  rw [afterJob_pauses action]
  refine (within_checkFollower _ _).kept.flags _ (blockMissed_flag ?_)
  exact owes

theorem thins_blockMissed {s : State} (table : TableOk s.st) (lane : Lane) : Thins s (s.blockMissed lane) := by
  unfold State.blockMissed
  split
  · next w _ =>
    split
    · rw [index_eq_does_one]
      have same : ((s.setDuty w lane .missed).setFlag .indexMissed).st = s.st := setFlag_st _ _
      exact (Thins.of_st table same).trans (thins_does (same ▸ table) _)
    · exact .refl table
  · exact .refl table

theorem thins_afterJob {s : State} {lane : Lane} (quiet : s.formingFollower lane = false) (table : TableOk s.st) :
    Thins s (s.afterJob lane) := by
  cases action : (s.lane lane).action with
  | none =>
    rw [afterJob_none quiet action]
    exact .of_st table rfl
  | pause =>
    rw [afterJob_pause quiet action]
    exact (Thins.of_st (t := s.pausedAt lane) table rfl).trans (thins_blockMissed (by exact table) lane)
  | park =>
    rw [afterJob_park action]
    exact .of_st table rfl

/-! ### Entry to FAULTED (R151) -/

/-- What a lane brings with it into FAULTED, DOWN or BRINGUP differs from before in the lanes, the links, the scheduler
and the notices alone. -/
structure StandsBy (s u : State) : Prop where
  st : u.st = s.st
  iu : u.iu = s.iu
  rc : u.rc = s.rc
  ci : u.ci = s.ci

theorem StandsBy.refl (s : State) : StandsBy s s := ⟨rfl, rfl, rfl, rfl⟩

theorem StandsBy.trans {s t u : State} (h : StandsBy s t) (k : StandsBy t u) : StandsBy s u :=
  ⟨k.st.trans h.st, k.iu.trans h.iu, k.rc.trans h.rc, k.ci.trans h.ci⟩

theorem LaneAlone.standsBy {s u : State} {lane : Lane} (h : LaneAlone s u lane) : StandsBy s u := by
  constructor <;> rw [h.same]

theorem standsBy_setFlag (s : State) (f : Flag) : StandsBy s (s.setFlag f) :=
  ⟨setFlag_st s f, setFlag_iu s f, setFlag_rc s f, setFlag_ci s f⟩

/-- The lane in FAULTED, before its block is missed. -/
def State.faultedAt (s : State) (lane : Lane) (cause : FaultCause) : State :=
  ((s.setClaim lane none).onLane lane fun a => a.faulted cause).setFlag (laneChangeFlag lane)

theorem enterFaulted_eq (s : State) (lane : Lane) (cause : FaultCause) :
    s.enterFaulted lane cause = (s.faultedAt lane cause).blockMissed lane := by
  unfold State.enterFaulted State.faultedAt
  rw [State.leaveTo, State.setLaneState, onLane_onLane]
  rfl

theorem faultedAt_standsBy (s : State) (lane : Lane) (cause : FaultCause) : StandsBy s (s.faultedAt lane cause) :=
  StandsBy.trans (t := (s.setClaim lane none).onLane lane fun a => a.faulted cause) ⟨rfl, rfl, rfl, rfl⟩
    (standsBy_setFlag _ _)

theorem moves_enterFaulted (s : State) (lane : Lane) (cause : FaultCause) : Moves lane s (s.enterFaulted lane cause) :=
  ((moves_setClaim s lane none).trans (moves_onLane _ lane _)).trans ((enterFaulted_outside s lane cause).moves lane)

theorem faultLane_of_quiet {s : State} {lane : Lane} (quiet : s.formingFollower lane = false) (cause : FaultCause) :
    s.faultLane lane cause = s.enterFaulted lane cause := by
  refine checkFollower_of_quiet ?_
  rw [formingFollower_congr (moves_enterFaulted s lane cause).pair]
  exact quiet

/-- A lane faults. -/
theorem enterFaulted_faults (s : State) (lane : Lane) (cause : FaultCause) :
    Faults s (s.enterFaulted lane cause) lane (s.lane lane) cause := by
  have out := enterFaulted_outside s lane cause
  refine ⟨?_, ?_, enterFaulted_flag s lane cause, out.wire⟩
  · rw [State.lane_eq, out.al, get_onLane]
    rfl
  · rw [out.ds]
    exact PerLane.get_set_self _ _ _

theorem enterFaulted_standsBy {s : State} {lane : Lane} (free : s.owes lane = false) (cause : FaultCause) :
    StandsBy s (s.enterFaulted lane cause) := by
  have stands := faultedAt_standsBy s lane cause
  have owes : (s.faultedAt lane cause).owes lane = false := by
    rw [State.owes, stands.iu]
    exact free
  rw [enterFaulted_eq, blockMissed_of_not_owes owes]
  exact stands

theorem thins_enterFaulted {s : State} (table : TableOk s.st) (lane : Lane) (cause : FaultCause) :
    Thins s (s.enterFaulted lane cause) := by
  have same := (faultedAt_standsBy s lane cause).st
  rw [enterFaulted_eq]
  exact (Thins.of_st table same).trans (thins_blockMissed (same ▸ table) lane)

/-! ### What a reported write keeps (R109 to R113) -/

/-- What changes of the table, flags and the tasks of the Index Unit keep, so does the disposal of a span. -/
structure SpanKeeps (P : State → Prop) : Prop where
  table : ∀ s t, P s → P (s.setSt t)
  flag : ∀ s f, P s → P (s.setFlag f)
  does : ∀ s ts, P s → P (s.does ts)

section SpanKeeps

variable {P : State → Prop} (keeps : SpanKeeps P)
include keeps

theorem SpanKeeps.onSpan {s : State} (h : P s) (slot : Nat) (f : Span → Span) : P (s.onSpan slot f) := by
  unfold State.onSpan
  split
  · exact keeps.table s _ h
  · exact h

theorem SpanKeeps.offerSpan {s : State} (h : P s) (slot : Nat) : P (s.offerSpan slot) := by
  obtain ⟨ts, offers⟩ := offerSpan_does s slot
  rw [offers]
  exact keeps.does s ts h

theorem SpanKeeps.commit {s : State} (h : P s) (slot : Nat) : P (s.commit slot) := by
  unfold State.commit
  split
  · split
    · exact keeps.offerSpan (keeps.table s _ h) slot
    · exact h
  · exact h

theorem SpanKeeps.shedSpan {s : State} (h : P s) (slot : Nat) (cause : ShedCause) : P (s.shedSpan slot cause) := by
  unfold State.shedSpan
  split
  · split
    · exact h
    · exact keeps.offerSpan (keeps.table s _ h) slot
  · exact h

theorem SpanKeeps.requeue {s : State} (h : P s) (slot : Nat) : P (s.requeue slot) := by
  unfold State.requeue
  split
  · split
    · split
      · exact keeps.commit h slot
      · exact keeps.shedSpan h slot _
    · exact keeps.table s _ h
  · exact h

theorem SpanKeeps.failOrRequeue {s : State} (h : P s) (slot : Nat) : P (s.failOrRequeue slot) := by
  unfold State.failOrRequeue
  split
  · split
    · exact keeps.flag _ _ (keeps.shedSpan h slot _)
    · exact keeps.requeue h slot
  · exact h

theorem SpanKeeps.applySingle {s : State} (h : P s) (slot : Nat) (lane : Lane) (o : Outcome) (address : Nat) :
    P (s.applySingle slot lane o address) := by
  cases o with
  | done =>
    have committed := keeps.commit (keeps.onSpan h slot fun sp => sp.addCopy { lane := lane, address := address }) slot
    unfold State.applySingle
    dsimp only
    split
    · split
      · exact keeps.flag _ _ committed
      · exact committed
    · exact committed
  | cancelled => exact keeps.requeue h slot
  | retryExhausted | moduleFault | timeout => exact keeps.failOrRequeue (keeps.onSpan h slot _) slot
  | none => exact h

theorem SpanKeeps.reportOutcome {s : State} (h : P s) (pair : s.ds.pair = none) (lane : Lane) (j : SpanJob) (o : Outcome)
    (address : Nat) : P (s.reportOutcome lane j o address) := by
  simp only [State.reportOutcome, State.reportWrite, pair]
  split
  · exact h
  · exact keeps.applySingle (keeps.table s _ h) _ _ _ _

end SpanKeeps

/-- The lane owes the block being written. -/
def OwesStill (lane : Lane) (s : State) : Prop := s.owes lane = true

theorem OwesStill.task {lane : Lane} {s : State} (h : OwesStill lane s) (t : IndexTask) :
    OwesStill lane (s.indexTask t).1 := by
  have congr {u : State} (writing : u.iu.writing = s.iu.writing) : OwesStill lane u := by
    unfold OwesStill State.owes
    rw [writing]
    exact h
  cases t with
  | offer o => exact congr (takeOffer_writing s o)
  | refill => exact congr (refillOnce_writing s)
  | testEnding => exact congr (testEnding_writing s)
  | handNext src =>
    refine congr ?_
    simp only [State.indexTask]
    split
    · exact handOver_writing s src
    · rfl
  | progress =>
    obtain ⟨w, writing, owed⟩ := (owes_iff s lane).mp h
    have some : w.duty.l0 = .owed ∨ w.duty.l1 = .owed := by
      cases lane
      · exact .inl owed
      · exact .inr owed
    have stays : s.progressOnce = (s, []) := by
      unfold State.progressOnce
      rw [writing]
      exact if_pos some
    simp only [State.indexTask, stays]
    exact h

theorem owesStill_keeps (lane : Lane) : SpanKeeps (OwesStill lane) where
  table _ _ h := h
  flag s f h := by
    unfold OwesStill State.owes
    rw [setFlag_iu]
    exact h
  does s ts h := does_keeps (P := OwesStill lane) (fun _ t k => k.task t) ts h

end Sys2Proof.Machine

/-! A block that its last lane has written or missed, and the waiting offers that then have a buffer (R34, R161 to R163, R168). -/

namespace Sys2Proof.Machine

/-! ### A block done (R162) -/

/-- Whether some lane wrote the block. -/
def Writing.someWritten (w : Writing) : Bool := w.duty.l0 == .written || w.duty.l1 == .written

/-- The counters after a block is done. -/
def State.blockCounters (s : State) (written : Bool) : RunCounters :=
  { s.rc.counters with checkpointsWritten := s.rc.counters.checkpointsWritten + if written = true then 1 else 0 }

theorem blockDone_split (s : State) (w : Writing) :
    s.blockDone w =
      if (s.buffer w.buffer).final then (s.blockCounted w).endRun w.someWritten else s.blockCounted w := rfl

theorem blockCounted_rc (s : State) (w : Writing) :
    (s.blockCounted w).rc = { s.rc with counters := s.blockCounters w.someWritten } := by
  unfold State.blockCounted State.blockCounters
  change State.rc (if w.someWritten = true then _ else _) = _
  by_cases written : w.someWritten = true
  · rw [if_pos written, if_pos written, State.onCounters, State.setRc_rc, setFlag_rc]
    rfl
  · rw [if_neg written, if_neg written, setFlag_rc]
    exact congrArg (fun n => { s.rc with counters := { s.rc.counters with checkpointsWritten := n } })
      (BitVec.add_zero s.rc.counters.checkpointsWritten).symm

theorem blockCounted_flag (s : State) (w : Writing) : (s.blockCounted w).nu.isPending .checkpointDone = true := by
  unfold State.blockCounted
  split
  · exact setFlag_pending _ _
  · exact setFlag_pending _ _

theorem blockCounted_ci (s : State) (w : Writing) : (s.blockCounted w).ci = s.ci := by
  unfold State.blockCounted
  split
  · exact setFlag_ci _ _
  · exact setFlag_ci _ _

/-- A closed intake becomes IDLE. -/
def State.idleIntake (src : Source) (s : State) : State :=
  if (s.intake src).intake = .closed then s.onIntake src fun i => { i with intake := .idle } else s

theorem endRun_eq (s : State) (written : Bool) :
    s.endRun written =
      (forSources State.idleIntake (s.setRc { s.rc with
        runState := .idle, lastEnd := if written then s.rc.provisional else .indexUnwritten })).calmAll.setFlag
          .runEnded := rfl

theorem idleIntake_nu (src : Source) (s : State) : (State.idleIntake src s).nu = s.nu := by
  unfold State.idleIntake
  split <;> rfl

theorem endRun_isPending (s : State) (written : Bool) (f : Flag) :
    (s.endRun written).nu.isPending f = (s.nu.isPending f || decide (f = .runEnded)) := by
  have nu (t : State) : (forSources State.idleIntake t).calmAll.nu = t.nu := by
    rw [State.calmAll, State.setSpm_nu]
    exact forSources_proj State.nu idleIntake_nu t
  rw [endRun_eq, setFlag_isPending, nu]
  rfl

theorem idleIntake_self (src : Source) (s : State) :
    ((State.idleIntake src s).intake src).intake =
      if (s.intake src).intake = .closed then .idle else (s.intake src).intake := by
  unfold State.idleIntake
  split
  · rw [intake_onIntake_self]
  · rfl

theorem idleIntake_other {src x : Source} (other : src ≠ x) (s : State) :
    (State.idleIntake x s).intake src = s.intake src := by
  unfold State.idleIntake
  split
  · exact intake_onIntake_other s _ other
  · rfl

theorem endRun_intake (s : State) (written : Bool) (src : Source) :
    ((s.endRun written).intake src).intake =
      if (s.intake src).intake = .closed then .idle else (s.intake src).intake := by
  have each (t : State) : ((forSources State.idleIntake t).intake src).intake =
      if (t.intake src).intake = .closed then .idle else (t.intake src).intake :=
    forSources_focus (P := fun u => u.intake src = t.intake src)
      (Q := fun u => (u.intake src).intake = if (t.intake src).intake = .closed then .idle else (t.intake src).intake) src
      (fun x other u k => (idleIntake_other other.symm u).trans k)
      (fun u k => by rw [idleIntake_self, k])
      (fun x other u k => by rw [idleIntake_other other.symm]; exact k) rfl
  rw [endRun_eq, State.intake, setFlag_ci, State.calmAll, State.setSpm_ci]
  exact each _

/-- A block that no lane owes has been done. -/
structure BlockEnded (s : State) (w : Writing) (u : State) : Prop where
  done : u.nu.isPending .checkpointDone = true
  goes : (s.buffer w.buffer).final = false → u.rc = { s.rc with counters := s.blockCounters w.someWritten }
  ends : (s.buffer w.buffer).final = true →
    u.rc = { s.rc with
      counters := s.blockCounters w.someWritten, runState := .idle
      lastEnd := if w.someWritten then s.rc.provisional else .indexUnwritten } ∧
    u.nu.isPending .runEnded = true ∧
    ∀ src, (u.intake src).intake = if (s.intake src).intake = .closed then .idle else (s.intake src).intake

theorem blockEnded (s : State) (w : Writing) : BlockEnded s w (s.blockDone w) := by
  refine ⟨?_, fun goes => ?_, fun final => ?_⟩
  · rw [blockDone_split]
    split
    · rw [endRun_isPending, blockCounted_flag, Bool.true_or]
    · exact blockCounted_flag s w
  · rw [blockDone_split, if_neg (by rw [goes]; exact Bool.false_ne_true)]
    exact blockCounted_rc s w
  · rw [blockDone_split, if_pos final]
    refine ⟨?_, ?_, fun src => ?_⟩
    · rw [endRun_rc, blockCounted_rc]
      rfl
    · rw [endRun_isPending]
      exact Bool.or_true _
    · rw [endRun_intake, State.intake, blockCounted_ci]
      rfl

theorem blockDone_iu (s : State) (w : Writing) :
    (s.blockDone w).iu =
      { s.iu with
        buffers := s.iu.buffers.set w.buffer { state := .empty, entries := [], final := false }
        writing := none, blockSeq := s.iu.blockSeq + 1 } := (beside_blockDone s w).iu

theorem blockDone_offered (s : State) (w : Writing) (src : Source) :
    ((s.blockDone w).intake src).offeredGap = (s.intake src).offeredGap := (beside_blockDone s w).offered src

theorem blockDone_self (s : State) (w : Writing) :
    (s.blockDone w).buffer w.buffer = { state := .empty, entries := [], final := false } := by
  rw [State.buffer, blockDone_iu]
  exact PerBuffer.get_set_self _ _ _

theorem blockDone_other (s : State) (w : Writing) : (s.blockDone w).buffer w.buffer.other = s.buffer w.buffer.other := by
  rw [State.buffer, blockDone_iu]
  exact PerBuffer.get_set_ne _ _ w.buffer.ne_other

/-- No lane owes the block. -/
def Writing.Settled (w : Writing) : Prop := w.duty.l0 ≠ .owed ∧ w.duty.l1 ≠ .owed

/-- With no buffer CLOSED and nothing waiting, a block done brings nothing more about. -/
theorem progress_done {s : State} {w : Writing} (writing : s.iu.writing = some w) (settled : w.Settled)
    (other : (s.buffer w.buffer.other).state ≠ .closed) (spans : s.iu.waitSpans = [])
    (gaps : ∀ src, (s.intake src).offeredGap = none) (runEnd : s.iu.waitRunEnd = none) :
    s.does [.progress] = s.blockDone w := by
  have iu := blockDone_iu s w
  have open_ (n : BufferName) : ((s.blockDone w).buffer n).state ≠ .closed := by
    by_cases same : w.buffer = n
    · rw [← same, blockDone_self]
      exact BufferState.noConfusion
    · rw [BufferName.eq_other same, blockDone_other]
      exact other
  rw [does_progress_done [] writing settled, does_progress_idle _ (by rw [iu]) open_,
    does_refill_none [] (.inr (nextWaiting_none (by rw [iu]; exact spans)
      (fun src => (blockDone_offered s w src).trans (gaps src)) (by rw [iu]; exact runEnd))), does_nil]

/-- A block done while the other buffer is CLOSED: that one becomes WRITING, and the waiting offers are looked at. -/
theorem progress_next {s : State} {w : Writing} (writing : s.iu.writing = some w) (settled : w.Settled)
    (other : (s.buffer w.buffer.other).state = .closed)
    (owed : (s.lane .l0).state.duty = .owed ∨ (s.lane .l1).state.duty = .owed) :
    s.does [.progress] = ((s.blockDone w).becomeWriting w.buffer.other).does [.refill] := by
  have iu := blockDone_iu s w
  have al : (s.blockDone w).al = s.al := (outside_blockDone s w).al
  have closed : (s.blockDone w).closedBuffer = some w.buffer.other :=
    closedBuffer_of_one w.buffer.ne_other.symm (by rw [blockDone_other]; exact other)
      (by rw [blockDone_self]; exact BufferState.noConfusion)
  rw [does_progress_done [] writing settled, does_progress_closed _ (by rw [iu]) closed,
    does_progress_owed (w := (s.blockDone w).writingOf w.buffer.other) _ (by rw [becomeWriting_iu]; rfl)]
  rw [State.writingOf, State.lane, State.lane, al]
  exact owed

/-- The Index Unit after a block done with the other buffer WRITING. -/
def State.nextWriting (s : State) (w : Writing) : IndexUnit :=
  { s.iu with
    buffers := (s.iu.buffers.set w.buffer { state := .empty, entries := [], final := false }).set w.buffer.other
      { s.buffer w.buffer.other with state := .writing }
    writing := some
      { buffer := w.buffer.other, seq := s.iu.blockSeq + 1
        duty := ⟨(s.lane .l0).state.duty, (s.lane .l1).state.duty⟩ }
    blockSeq := s.iu.blockSeq + 1 }

theorem nextWriting_iu (s : State) (w : Writing) :
    ((s.blockDone w).becomeWriting w.buffer.other).iu = s.nextWriting w := by
  have al : (s.blockDone w).al = s.al := (outside_blockDone s w).al
  rw [becomeWriting_iu, State.toWriting, State.setIu_iu, blockDone_other, State.writingOf, State.lane, State.lane, al,
    blockDone_iu]
  rfl

theorem becomeWriting_ci (s : State) (n : BufferName) : (s.becomeWriting n).ci = s.ci := by
  rw [becomeWriting_eq]
  split
  · exact setFlag_ci _ _
  · rfl

/-! ### The waiting span entries are admitted (R163) -/

theorem PerBuffer.set_get (v : PerBuffer) (n : BufferName) : v.set n (v.get n) = v := by cases n <;> rfl

theorem PerBuffer.set_comm (v : PerBuffer) {n m : BufferName} (h : n ≠ m) (x y : IndexBuffer) :
    (v.set n x).set m y = (v.set m y).set n x := by
  cases n <;> cases m <;> first | rfl | exact absurd rfl h

theorem handBack_span (s : State) (slot : Nat) (e : Entry) : ∃ cause, s.handBack (.span slot e) = s.release slot cause := by
  cases e <;> exact ⟨_, rfl⟩

theorem release_gone {s : State} (table : TableOk s.st) (slot : Nat) (cause : ReleaseCause) :
    (s.release slot cause).span? slot = none := by
  cases found : s.span? slot with
  | none => rw [release_none found]; exact found
  | some sp =>
    rw [State.span?, release_st found]
    exact (findSlot_dropSlot s.st.slots slot slot 0 table.slots).trans (if_pos rfl)

/-- A RUNNING part whose waiting offers are span entries alone, with a buffer that can take them all. -/
structure Refilling (s : State) (b : BufferName) : Prop where
  running : s.rc.runState = .running
  table : TableOk s.st
  rests : IndexRests s.iu
  gaps : ∀ src, (s.intake src).offeredGap = none
  runEnd : s.iu.waitRunEnd = none
  target : s.target = some b
  room : (s.buffer b).entries.length + s.iu.waitSpans.length < 63

/-- The first waiting entry has been admitted. -/
def State.refilled (s : State) (b : BufferName) (slot : Nat) (e : Entry) : State :=
  (s.unwait (.span slot e)).admitted (.span slot e) b e

theorem refilled_iu {s : State} {b : BufferName} {slot : Nat} {e : Entry}
    (room : (s.buffer b).entries.length + 1 < 63) :
    (s.refilled b slot e).iu = { s.iu.admits b e with waitSpans := s.iu.waitSpans.tail } := by
  rw [State.refilled, State.admitted, handBack_iu]
  exact congrArg (fun v => { s.iu with buffers := s.iu.buffers.set b v, waitSpans := s.iu.waitSpans.tail }) (append_room e room)

theorem Refilling.step {s : State} {b : BufferName} (h : Refilling s b) {slot : Nat} {e : Entry}
    {rest : List (Nat × Entry)} (waits : s.iu.waitSpans = (slot, e) :: rest) :
    s.does [.refill] = (s.refilled b slot e).does [.refill] ∧ Refilling (s.refilled b slot e) b ∧
      (s.refilled b slot e).span? slot = none ∧ (s.refilled b slot e).iu = { s.iu.admits b e with waitSpans := rest } := by
  have length : s.iu.waitSpans.length = rest.length + 1 := by rw [waits]; rfl
  have room := h.room
  have iu : (s.refilled b slot e).iu = { s.iu.admits b e with waitSpans := rest } := by
    rw [refilled_iu (by omega), waits]
    rfl
  obtain ⟨cause, handed⟩ := handBack_span
    ((s.unwait (.span slot e)).setBuffer b (((s.unwait (.span slot e)).buffer b).append e false)) slot e
  have released : s.refilled b slot e = _ := handed
  have table : TableOk s.st := h.table
  have running : (s.refilled b slot e).rc.runState = .running := by
    obtain ⟨counters, same⟩ := handBack_rc ((s.unwait (.span slot e)).setBuffer b
      (((s.unwait (.span slot e)).buffer b).append e false)) (.span slot e)
    exact (congrArg RunController.runState same).trans h.running
  have rests : IndexRests (s.refilled b slot e).iu := by
    rw [iu]
    exact (h.rests.admits b e).congr rfl rfl
  refine ⟨?_, ⟨running, ?_, rests, fun src => ?_, ?_, ?_, ?_⟩, ?_, iu⟩
  · have next : s.refillOnce = (s.unwait (.span slot e), [.offer (.span slot e), .refill]) := by
      unfold State.refillOnce State.nextWaiting
      rw [h.target, waits]
    rw [does_refill, next, List.append_nil, does_offer_admitted (e := e) [.refill]
      (show (s.unwait (.span slot e)).target = some b from h.target) rfl]
    change (s.refilled b slot e).does [.progress, .testEnding, .refill] = _
    rw [does_progress_rests _ rests, does_testEnding_not _ (.inl (by rw [running]; exact RunState.noConfusion))]
  · rw [released]
    exact (thins_release (s := (s.unwait (.span slot e)).setBuffer b
      (((s.unwait (.span slot e)).buffer b).append e false)) table slot cause).table
  · rw [released, (beside_release _ _ _).offered]
    exact h.gaps src
  · rw [iu]
    exact h.runEnd
  · exact target_admits h.target (by rw [iu])
  · rw [State.buffer, iu]
    have self := congrArg (fun v : IndexBuffer => v.entries.length) (buffer_admits_self s.iu b e)
    have grown : ((s.iu.admits b e).buffers.get b).entries.length = (s.buffer b).entries.length + 1 :=
      self.trans List.length_append
    change ((s.iu.admits b e).buffers.get b).entries.length + rest.length < 63
    omega
  · rw [released]
    exact release_gone (by exact table) slot cause

/-- The waiting entries are admitted in slot order, and their slots become FREE. -/
theorem Refilling.does {s : State} {b : BufferName} (h : Refilling s b) :
    (s.does [.refill]).iu =
        { s.iu with
          buffers := s.iu.buffers.set b
            { state := if s.iu.waitSpans = [] then (s.buffer b).state else .filling
              entries := (s.buffer b).entries ++ s.iu.waitSpans.map Prod.snd
              final := (s.buffer b).final }
          waitSpans := [] } ∧
      ∀ p ∈ s.iu.waitSpans, (s.does [.refill]).span? p.1 = none := by
  generalize waits : s.iu.waitSpans = l
  induction l generalizing s with
  | nil =>
    rw [does_refill_none [] (.inr (nextWaiting_none waits h.gaps h.runEnd)), does_nil, if_pos rfl]
    refine ⟨?_, fun p hp => absurd hp List.not_mem_nil⟩
    rw [List.map_nil, List.append_nil]
    have same : s.iu.buffers.set b (s.buffer b) = s.iu.buffers := PerBuffer.set_get _ _
    refine Eq.trans ?_ (congrArg (fun v => { s.iu with buffers := v, waitSpans := [] }) same.symm)
    rw [← waits]
  | cons p rest ih =>
    obtain ⟨slot, e⟩ := p
    obtain ⟨step, next, gone, iu⟩ := h.step waits
    obtain ⟨rest_iu, rest_gone⟩ := ih next (by rw [iu])
    have buffer : (s.refilled b slot e).buffer b =
        { state := .filling, entries := (s.buffer b).entries ++ [e], final := (s.buffer b).final } := by
      rw [State.buffer, iu]
      exact buffer_admits_self s.iu b e
    refine ⟨?_, fun q hq => ?_⟩
    · rw [step, rest_iu, buffer, iu, if_neg (List.cons_ne_nil _ _)]
      simp only [ite_self, IndexUnit.admits, PerBuffer.set_set, List.map_cons, List.append_assoc, List.singleton_append]
    · rw [step]
      obtain rfl | hq := List.mem_cons.mp hq
      · have thins := thins_does next.table [.refill]
        cases found : ((s.refilled b slot e).does [.refill]).span? slot with
        | none => rfl
        | some v =>
          have before := thins.kept slot v found
          rw [gone] at before
          cases before
      · exact rest_gone q hq

/-! ### What a lane reports of its block (R162) -/

theorem blockMissed_of_owed {s : State} {lane : Lane} {w : Writing} (writing : s.iu.writing = some w)
    (owed : w.duty.get lane = .owed) :
    s.blockMissed lane = ((s.setDuty w lane .missed).setFlag .indexMissed).does [.progress] := by
  rw [State.blockMissed, writing]
  dsimp only
  rw [if_pos owed, index_eq_does_one]

/-- The state with a lane's block written at an address. -/
def State.wroteBlock (s : State) (w : Writing) (lane : Lane) (address : Nat) : State :=
  s.setIu { s.iu with
    writing := some { w with duty := w.duty.set lane .written }
    prev := s.iu.prev.set lane (some address) }

theorem blockWritten_of_owed {s : State} {lane : Lane} {w : Writing} (writing : s.iu.writing = some w)
    (owed : w.duty.get lane = .owed) (address : Nat) :
    s.blockWritten lane address = (s.wroteBlock w lane address).does [.progress] := by
  rw [State.blockWritten, writing]
  dsimp only
  rw [if_pos owed, index_eq_does_one]
  rfl

theorem blockWritten_of_not_owes {s : State} {lane : Lane} (free : s.owes lane = false) (address : Nat) :
    s.blockWritten lane address = s := by
  unfold State.owes at free
  unfold State.blockWritten
  split
  · next w hw =>
    rw [hw] at free
    exact if_neg (by simpa using free)
  · rfl

theorem settled_set {w : Writing} {lane : Lane} {d : Duty} (other : w.duty.get lane.other ≠ .owed) (d' : d ≠ .owed) :
    ({ w with duty := w.duty.set lane d } : Writing).Settled := by
  cases lane
  · exact ⟨d', other⟩
  · exact ⟨other, d'⟩

theorem owed_set {w : Writing} {lane : Lane} (d : Duty) (other : w.duty.get lane.other = .owed) :
    (w.duty.set lane d).l0 = .owed ∨ (w.duty.set lane d).l1 = .owed := by
  cases lane
  · exact .inr other
  · exact .inl other

theorem someWritten_missed (w : Writing) (lane : Lane) :
    ({ w with duty := w.duty.set lane .missed } : Writing).someWritten = decide (w.duty.get lane.other = .written) := by
  cases lane
  · exact (Bool.false_or _).trans (beq_eq_decide _ _)
  · exact (Bool.or_false _).trans (beq_eq_decide _ _)

theorem someWritten_written (w : Writing) (lane : Lane) :
    ({ w with duty := w.duty.set lane .written } : Writing).someWritten = true := by
  cases lane
  · rfl
  · exact Bool.or_true _

end Sys2Proof.Machine

/-! The reports of a lane's write, singly and in an ACTIVE pair, and what the lane's job leaves of them (R109, R111, R126, R127). -/

namespace Sys2Proof.Machine

/-! ### A report, and then the lane's next state -/

/-- The state with a lane replaced. -/
def State.withLane (s : State) (lane : Lane) (a : LaneUnit) : State := { s with al := s.al.set lane a }

/-- A lane has ended its job as `a`, and the job has been reported. -/
structure Reported (s : State) (lane : Lane) (a : LaneUnit) (t : State) : Prop where
  al : t.al = s.al.set lane a
  wire : t.wire = s.wire
  now : t.now = s.now

theorem Outside.reported {s t : State} {lane : Lane} {a : LaneUnit} (h : Outside (s.withLane lane a) t) :
    Reported s lane a t := ⟨h.al, h.wire, h.now⟩

theorem JobEnds.congr {s t u : State} {lane : Lane} {a : LaneUnit} {claim : Option Claim} (h : JobEnds t u lane a claim)
    (wire : t.wire = s.wire) : JobEnds s u lane a claim where
  ready k := by rw [← wire]; exact h.ready k
  pause k := by rw [← wire]; exact h.pause k
  park k := by rw [← wire]; exact h.park k

section Reported

variable {s t : State} {lane : Lane} {a : LaneUnit}

theorem Reported.own (h : Reported s lane a t) : t.lane lane = a := by
  rw [State.lane, h.al]
  exact PerLane.get_set_self _ _ _

theorem Reported.other (h : Reported s lane a t) : t.lane lane.other = s.lane lane.other := by
  rw [State.lane, h.al]
  exact PerLane.get_set_other _ _ _

theorem Reported.claimNow (h : Reported s lane a t) (pair : t.ds.pair = none) : t.claimAfter lane = s.claimNow a := by
  rw [State.claimAfter, if_pos pair, State.claimNow, h.own, h.now]
  rfl

theorem claimAfter_of_pair (h : t.ds.pair ≠ none) : t.claimAfter lane = t.ds.claim.get lane := if_neg h

theorem Reported.jobEnds (h : Reported s lane a t) (quiet : t.formingFollower lane = false) {claim : Option Claim}
    (claims : t.claimAfter lane = claim) : JobEnds s (t.afterJob lane) lane a claim := by
  have ends := afterJob_ends quiet
  rw [h.own, claims] at ends
  exact ends.congr h.wire

theorem Reported.after_other (h : Reported s lane a t) (quiet : t.formingFollower lane = false) :
    (t.afterJob lane).lane lane.other = s.lane lane.other := (moves_afterJob quiet).other.trans h.other

/-- A lane that owes no block, or had no PAUSE pending, takes its next state alone. -/
theorem Reported.standsBy (h : Reported s lane a t) (quiet : t.formingFollower lane = false)
    (free : t.owes lane = false ∨ a.action ≠ .pause) : StandsBy t (t.afterJob lane) :=
  (afterJob_alone quiet (by rw [h.own]; exact free)).standsBy

theorem Reported.faults (h : Reported s lane a t) (cause : FaultCause) :
    Faults s (t.enterFaulted lane cause) lane a cause := by
  have faults := enterFaulted_faults t lane cause
  rw [h.own] at faults
  exact ⟨faults.entered, faults.claim, faults.flag, faults.wire.trans h.wire⟩

end Reported

theorem owes_congr {s t : State} (writing : t.iu.writing = s.iu.writing) (lane : Lane) : t.owes lane = s.owes lane := by
  rw [State.owes, State.owes, writing]

theorem StandsBy.owes {s t : State} (h : StandsBy s t) (lane : Lane) : t.owes lane = s.owes lane :=
  owes_congr (by rw [h.iu]) lane

theorem StandsBy.span? {s t : State} (h : StandsBy s t) (slot : Nat) : t.span? slot = s.span? slot := by
  rw [State.span?, State.span?, h.st]

/-! ### The report of a single write (R111 to R113) -/

theorem reportOutcome_single {s : State} {j : SpanJob} {sp : Span} (pair : s.ds.pair = none)
    (requested : s.requested j.slot j.runId j.seq .draining = some sp) (lane : Lane) (o : Outcome) (address : Nat) :
    s.reportOutcome lane j o address =
      (s.setSpan j.slot (sp.noteOutcome o)).applySingle j.slot lane o address := by
  simp only [State.reportOutcome, State.reportWrite, pair, requested]

theorem thins_dequeued {s : State} (table : TableOk s.st) {slot : Nat} {sp v : Span} (found : s.span? slot = some sp)
    (state : v.state ≠ .queued) : TableOk (s.dequeued slot v).st := by
  rw [← enter_eq_dequeued s slot state]
  exact enter_table table found

theorem dequeued_self (s : State) (slot : Nat) (v : Span) : (s.dequeued slot v).span? slot = some v :=
  findSlot_putSlot_self _ _ _

/-- What an offered record still stands for, where its entry has not been admitted. -/
theorem offered_kept {s : State} (table : TableOk s.st) {slot : Nat} {sp v x : Span} (found : s.span? slot = some sp)
    (state : v.state ≠ .queued) {u : State} (thins : Thins ((s.dequeued slot v).offerSpan slot) u)
    (left : u.span? slot = some x) : x = v := by
  obtain ⟨ts, offers⟩ := offerSpan_does (s.dequeued slot v) slot
  rw [offers] at thins
  have before := (thins_does (thins_dequeued table found state) ts).kept slot x (thins.kept slot x left)
  rw [dequeued_self] at before
  exact (Option.some.inj before).symm

theorem offerSpan_table {s : State} (table : TableOk s.st) (slot : Nat) : TableOk (s.offerSpan slot).st := by
  obtain ⟨ts, offers⟩ := offerSpan_does s slot
  rw [offers]
  exact (thins_does table ts).table

/-! ### The close of a pair leaves the lanes (R127) -/

/-- The pair context has gone, with the lanes and the links as they were. -/
structure Closes (s u : State) : Prop where
  al : u.al = s.al
  wire : u.wire = s.wire
  now : u.now = s.now
  pair : u.ds.pair = none

theorem closes_rolesEnded {s t : State} (out : Outside (s.setPair none) t) : Closes s t.rolesEnded := by
  obtain ⟨same, pair⟩ := rolesEnded_same t
  refine ⟨?_, ?_, ?_, ?_⟩
  · rw [same]; exact out.al
  · rw [same]; exact out.wire
  · rw [same]; exact out.now
  · rw [pair, out.ds]; rfl

theorem closes_closePair (s : State) (c : PairContext) : Closes s (s.closePair c) :=
  closes_rolesEnded (outside_closeSpan (s.setPair none) c)

/-! ### The report of a write in an ACTIVE pair (R126) -/

/-- The record of a span after the write of one lane has ended. -/
def Span.afterWrite (sp : Span) (lane : Lane) (o : Outcome) (address : Nat) : Span :=
  if o = .done then (sp.noteOutcome o).addCopy { lane := lane, address := address } else sp.noteOutcome o

/-- The pair context with a lane's outcome recorded. -/
def PairContext.recorded (c : PairContext) (lane : Lane) (o : PairOutcome) : PairContext :=
  { c with outcome := c.outcome.set lane o }

/-- The state with a lane's outcome recorded in the pair, and in the record of its span. -/
def State.recorded (s : State) (c : PairContext) (lane : Lane) (o : PairOutcome) (v : Span) : State :=
  { s with
    st := { s.st with slots := putSlot s.st.slots c.slot v }
    ds := { s.ds with pair := some (c.recorded lane o) } }

/-- The write of a lane in an ACTIVE pair has been reported, the record of its span then being `v`. -/
structure PairReport (s : State) (c : PairContext) (lane : Lane) (o : PairOutcome) (v : Span) (t : State) : Prop where
  late : c.outcome.get lane ≠ .pending → t.ds = s.ds
  waits : c.outcome.get lane = .pending → c.outcome.get lane.other = .pending → t = s.recorded c lane o v
  closes : c.outcome.get lane = .pending → c.outcome.get lane.other ≠ .pending →
    t = (s.recorded c lane o v).closePair (c.recorded lane o)
  al : t.al = s.al
  wire : t.wire = s.wire
  now : t.now = s.now
  quiet : t.formingFollower lane = false

/-- A job that writes the span of an ACTIVE pair. -/
structure WritesPair (s : State) (j : SpanJob) (c : PairContext) (sp : Span) : Prop where
  pair : s.ds.pair = some c
  active : c.phase = .active
  slot : j.slot = c.slot
  runId : j.runId = c.runId
  seq : j.seq = c.seq
  requested : s.requested j.slot j.runId j.seq .draining = some sp

theorem reportOutcome_active {s : State} {j : SpanJob} {c : PairContext} {sp : Span} (h : WritesPair s j c sp)
    (lane : Lane) (o : Outcome) (address : Nat) :
    s.reportOutcome lane j o address = (s.setSpan j.slot (sp.noteOutcome o)).pairOutcome c lane o address := by
  have leads : ¬ (c.phase = .forming ∧ c.leader = lane) := fun k => by
    rw [h.active] at k
    exact PairPhase.noConfusion k.1
  simp only [State.reportOutcome, State.reportWrite, h.pair, h.requested]
  rw [if_neg leads]
  exact if_pos ⟨h.active, h.slot.symm, h.runId.symm, h.seq.symm⟩

theorem landed_setSpan {s : State} {c : PairContext} {sp : Span} (lane : Lane) (o : Outcome) (address : Nat) :
    (if o = .done then
      (s.setSpan c.slot (sp.noteOutcome o)).onSpan c.slot fun x => x.addCopy { lane := lane, address := address }
    else s.setSpan c.slot (sp.noteOutcome o)) = s.setSpan c.slot (sp.afterWrite lane o address) := by
  unfold Span.afterWrite
  by_cases done : o = .done
  · rw [if_pos done, if_pos done, onSpan_found (setSpan_self s c.slot _), State.setSpan, State.setSpan, State.setSpan,
      State.setSt_st, putSlot_putSlot]
    rfl
  · rw [if_neg done, if_neg done]

theorem inPair_ne_pending {o : Outcome} (h : o ≠ .none) : o.inPair ≠ .pending := by
  cases o <;> first | exact absurd rfl h | exact PairOutcome.noConfusion

/-- With a lane's outcome recorded, the pair waits for the other lane's. -/
theorem recorded_pending (c : PairContext) (lane : Lane) {o : PairOutcome} (known : o ≠ .pending) :
    ((c.recorded lane o).outcome.l0 = .pending ∨ (c.recorded lane o).outcome.l1 = .pending) ↔
      c.outcome.get lane.other = .pending := by
  cases lane
  · exact ⟨fun k => k.resolve_left known, .inr⟩
  · exact ⟨fun k => k.resolve_right known, .inl⟩

theorem pairReport {s : State} {j : SpanJob} {c : PairContext} {sp : Span} (h : WritesPair s j c sp) (lane : Lane)
    {o : Outcome} (known : o ≠ .none) (address : Nat) :
    PairReport s c lane o.inPair (sp.afterWrite lane o address) (s.reportOutcome lane j o address) := by
  have landed := landed_setSpan (s := s) (c := c) (sp := sp) lane o address
  have pending := recorded_pending c lane (inPair_ne_pending known)
  rw [reportOutcome_active h, h.slot]
  unfold State.pairOutcome
  by_cases first : c.outcome.get lane = .pending
  case neg =>
    rw [if_neg first]
    exact ⟨fun _ => rfl, fun k => absurd k first, fun k => absurd k first, rfl, rfl, rfl,
      formingFollower_of_active (s := s.setSpan c.slot (sp.noteOutcome o)) h.pair h.active lane⟩
  rw [if_pos first]
  dsimp only
  rw [landed]
  have same : (s.setSpan c.slot (sp.afterWrite lane o address)).setPair (some (c.recorded lane o.inPair)) =
      s.recorded c lane o.inPair (sp.afterWrite lane o address) := rfl
  change PairReport s c lane o.inPair _
    (if (c.recorded lane o.inPair).outcome.l0 = .pending ∨ (c.recorded lane o.inPair).outcome.l1 = .pending then
      (s.setSpan c.slot (sp.afterWrite lane o address)).setPair (some (c.recorded lane o.inPair))
    else ((s.setSpan c.slot (sp.afterWrite lane o address)).setPair (some (c.recorded lane o.inPair))).closePair
      (c.recorded lane o.inPair))
  rw [same]
  by_cases open_ : c.outcome.get lane.other = .pending
  · rw [if_pos (pending.mpr open_)]
    exact ⟨fun k => absurd first k, fun _ _ => rfl, fun _ k => absurd open_ k, rfl, rfl, rfl,
      formingFollower_of_active (c := c.recorded lane o.inPair) rfl h.active lane⟩
  · rw [if_neg fun k => open_ (pending.mp k)]
    have closes := closes_closePair (s.recorded c lane o.inPair (sp.afterWrite lane o address)) (c.recorded lane o.inPair)
    exact ⟨fun k => absurd first k, fun _ k => absurd k open_, fun _ _ => rfl, closes.al, closes.wire, closes.now,
      formingFollower_of_none closes.pair⟩

theorem PairReport.reported {s : State} {c : PairContext} {lane : Lane} {o : PairOutcome} {v : Span} {a : LaneUnit}
    {t : State} (h : PairReport (s.withLane lane a) c lane o v t) : Reported s lane a t := ⟨h.al, h.wire, h.now⟩

end Sys2Proof.Machine

/-! ACK of a header burst and of an index block (O56). -/

namespace Sys2Proof.Machine

/-! ### A block done while the other buffer waits CLOSED, and span entries wait (R161 to R163) -/

/-- The Index Unit after a block done, the other buffer WRITING and the waiting span entries admitted. -/
def State.refilledUnit (s : State) (w : Writing) : IndexUnit :=
  { s.iu with
    buffers := (s.iu.buffers.set w.buffer.other { s.buffer w.buffer.other with state := .writing }).set w.buffer
      { state := if s.iu.waitSpans = [] then .empty else .filling
        entries := s.iu.waitSpans.map Prod.snd, final := false }
    writing := some
      { buffer := w.buffer.other, seq := s.iu.blockSeq + 1
        duty := ⟨(s.lane .l0).state.duty, (s.lane .l1).state.duty⟩ }
    waitSpans := [], blockSeq := s.iu.blockSeq + 1 }

/-- What lets a RUNNING part take in all of its waiting offers once the block being written is done. -/
structure ReadyToRefill (s : State) (w : Writing) : Prop where
  running : s.rc.runState = .running
  goes : (s.buffer w.buffer).final = false
  other : (s.buffer w.buffer.other).state = .closed
  table : TableOk s.st
  gaps : ∀ src, (s.intake src).offeredGap = none
  runEnd : s.iu.waitRunEnd = none
  room : s.iu.waitSpans.length < 63
  owed : (s.lane .l0).state.duty = .owed ∨ (s.lane .l1).state.duty = .owed

theorem ReadyToRefill.refilling {s : State} {w : Writing} (h : ReadyToRefill s w) :
    Refilling ((s.blockDone w).becomeWriting w.buffer.other) w.buffer := by
  have iu := nextWriting_iu s w
  have self : ((s.blockDone w).becomeWriting w.buffer.other).buffer w.buffer =
      { state := .empty, entries := [], final := false } := by
    rw [State.buffer, iu, State.nextWriting]
    exact (PerBuffer.get_set_ne _ _ w.buffer.ne_other.symm).trans (PerBuffer.get_set_self _ _ _)
  have other : (((s.blockDone w).becomeWriting w.buffer.other).buffer w.buffer.other).state = .writing := by
    rw [State.buffer, iu, State.nextWriting]
    exact congrArg IndexBuffer.state (PerBuffer.get_set_self _ _ _)
  refine ⟨?_, ?_, ⟨fun v hv => ?_, fun none => ?_⟩, fun src => ?_, ?_, target_of_empty (by rw [self]) other, ?_⟩
  · rw [becomeWriting_rc, (blockEnded s w).goes h.goes]
    exact h.running
  · rw [becomeWriting_st, blockDone_st]
    exact h.table
  · rw [iu] at hv
    cases hv
    exact h.owed
  · rw [iu] at none
    cases none
  · rw [State.intake, becomeWriting_ci]
    exact (blockDone_offered s w src).trans (h.gaps src)
  · rw [iu]
    exact h.runEnd
  · rw [self, iu, List.length_nil, Nat.zero_add]
    exact h.room

theorem ReadyToRefill.progress {s : State} {w : Writing} (h : ReadyToRefill s w) (writing : s.iu.writing = some w)
    (settled : w.Settled) :
    (s.does [.progress]).iu = s.refilledUnit w ∧ ∀ p ∈ s.iu.waitSpans, (s.does [.progress]).span? p.1 = none := by
  have refills := h.refilling.does
  have iu := nextWriting_iu s w
  have waits : ((s.blockDone w).becomeWriting w.buffer.other).iu.waitSpans = s.iu.waitSpans := by rw [iu]; rfl
  have self : ((s.blockDone w).becomeWriting w.buffer.other).buffer w.buffer =
      { state := .empty, entries := [], final := false } := by
    rw [State.buffer, iu, State.nextWriting]
    exact (PerBuffer.get_set_ne _ _ w.buffer.ne_other.symm).trans (PerBuffer.get_set_self _ _ _)
  rw [progress_next writing settled h.other h.owed]
  rw [waits, self] at refills
  refine ⟨refills.1.trans ?_, refills.2⟩
  rw [iu, State.nextWriting, State.refilledUnit]
  dsimp only
  rw [PerBuffer.set_comm _ w.buffer.ne_other, PerBuffer.set_set]
  rfl

/-! ### The ACK of a header burst, outside a pair (R111, R141) -/

/-- The lane after its span write has ended DONE. -/
def LaneUnit.wroteSpan (a : LaneUnit) : LaneUnit := { a with job := none, timer := none, failures := 0 }

theorem takeAck_header {s : State} {lane : Lane} {j : SpanJob} (job : (s.lane lane).job = some (.span j))
    (header : j.phase = .header) :
    s.takeAck lane =
      ((s.withLane lane (s.lane lane).wroteSpan).reportOutcome lane j .done
        ((s.lane lane).settings.base + j.first)).afterJob lane := by
  rw [takeAck_span job, State.ackSpan, header]
  cases lane <;> rfl

/-- The record of a span whose single write has ended DONE. -/
def Span.landedAlone (sp : Span) (c : Copy) : Span :=
  (sp.noteOutcome .done).landed c (decide (sp.laneRule = .mirror ∧ sp.copies = []))

/-- A span whose rule one copy more satisfies. -/
def Span.Suffices (sp : Span) : Prop :=
  sp.laneRule ≠ .mirror ∨ sp.copies.length = 1 ∨
    (sp.laneRule = .mirror ∧ sp.copies = []) ∧ sp.mirrorPolicy = some .degrade

/-- The single write of a span whose rule it satisfies. -/
structure LandedAlone (s : State) (lane : Lane) (j : SpanJob) (sp : Span) (address : Nat) (t : State) : Prop where
  offered : StandsBy ((s.dequeued j.slot (sp.landedAlone { lane := lane, address := address })).offerSpan j.slot) t
  degraded : sp.laneRule = .mirror ∧ sp.copies = [] → t.nu.isPending .pairDegraded = true

theorem landedAlone {s : State} {lane : Lane} {j : SpanJob} {sp : Span} (pair : s.ds.pair = none)
    (requested : s.requested j.slot j.runId j.seq .draining = some sp) (suffices_ : sp.Suffices) (address : Nat) :
    LandedAlone s lane j sp address (s.reportOutcome lane j .done address) := by
  have found : (s.setSpan j.slot (sp.noteOutcome .done)).span? j.slot = some (sp.noteOutcome .done) := setSpan_self _ _ _
  rw [reportOutcome_single pair requested]
  by_cases alone : sp.laneRule = .mirror ∧ sp.copies = []
  · have degrade : sp.mirrorPolicy = some .degrade := by
      obtain other | one | ⟨-, policy⟩ := suffices_
      · exact absurd alone.1 other
      · rw [alone.2] at one
        cases one
      · exact policy
    rw [applySingle_degrades found lane address alone.1 alone.2 degrade, setSpan_dequeued]
    refine ⟨?_, fun _ => setFlag_pending _ _⟩
    rw [Span.landedAlone, decide_eq_true alone]
    exact standsBy_setFlag _ _
  · have enough : (sp.noteOutcome .done).laneRule ≠ .mirror ∨ (sp.noteOutcome .done).copies.length = 1 := by
      obtain other | one | ⟨k, -⟩ := suffices_
      · exact .inl other
      · exact .inr one
      · exact absurd k alone
    rw [applySingle_commits found lane address enough, setSpan_dequeued]
    refine ⟨?_, fun k => absurd k alone⟩
    rw [Span.landedAlone, decide_eq_false alone]
    exact .refl _

theorem thins_standsBy {s t : State} (table : TableOk s.st) (h : StandsBy s t) : Thins s t := .of_st table h.st

section Single

variable {s : State} {lane : Lane} {j : SpanJob} {sp : Span} {address : Nat} {t : State}

theorem LandedAlone.kept (h : LandedAlone s lane j sp address t) (quiet : t.formingFollower lane = false)
    (requested : s.requested j.slot j.runId j.seq .draining = some sp) (table : TableOk s.st) {v : Span}
    (left : (t.afterJob lane).span? j.slot = some v) : v = sp.landedAlone { lane := lane, address := address } := by
  have found := span?_of_requested requested
  have state : (sp.landedAlone { lane := lane, address := address }).state ≠ .queued := SpanState.noConfusion
  have offered := offerSpan_table (thins_dequeued table found state) j.slot
  have stands := thins_standsBy offered h.offered
  exact offered_kept table found state (stands.trans (thins_afterJob quiet stands.table)) left

/-- With no buffer that can take it, the entry waits. -/
theorem LandedAlone.waits (h : LandedAlone s lane j sp address t) (full : s.target = none) :
    StandsBy ((s.dequeued j.slot (sp.landedAlone { lane := lane, address := address })).wait
      (.span j.slot (sp.landedAlone { lane := lane, address := address }).entry)) t := by
  have offered := h.offered
  rw [offerSpan_waits (dequeued_self _ _ _) (by exact full)] at offered
  exact offered

end Single

/-! ### The ACK of an index block (R145, R162) -/

/-- The lane after it has written an index block. -/
def LaneUnit.wroteIndex (a : LaneUnit) : LaneUnit :=
  { a with
    job := none, timer := none, indexCursor := a.indexCursor - 1,
    dataFull := decide (a.indexCursor - a.dataCursor < 4097 + (a.settings.reserve : Int)),
    indexFull := decide (a.indexCursor - a.dataCursor < 1) }

theorem wroteIndex_eq (a : LaneUnit) :
    LaneUnit.evaluated { a with job := none, timer := none, deadSpace := a.deadSpace + 0, indexCursor := a.indexCursor - 1 } =
      a.wroteIndex := by
  have full : decide (a.indexCursor - 1 - (a.dataCursor : Int) + 1 < ((4097 + a.settings.reserve : Nat) : Int)) =
      decide (a.indexCursor - a.dataCursor < 4097 + (a.settings.reserve : Int)) :=
    decide_eq_decide.mpr (by push_cast; omega)
  have none : decide (a.indexCursor - 1 - (a.dataCursor : Int) + 1 < 1) = decide (a.indexCursor - a.dataCursor < 1) :=
    decide_eq_decide.mpr (by omega)
  unfold LaneUnit.wroteIndex
  rw [← full, ← none]
  rfl

/-- The state with the lane's index cursor moved past the block it wrote. -/
def State.cursorMoved (s : State) (lane : Lane) : State :=
  (s.dropJob lane 0).moveCursors lane fun a => { a with indexCursor := a.indexCursor - 1 }

theorem cursorMoved_outside (s : State) (lane : Lane) :
    Outside (s.withLane lane (s.lane lane).wroteIndex) (s.cursorMoved lane) ∧ StandsBy s (s.cursorMoved lane) := by
  have moved : ((s.dropJob lane 0).onLane lane fun a =>
      ({ a with indexCursor := a.indexCursor - 1 } : LaneUnit).evaluated) =
      s.withLane lane (s.lane lane).wroteIndex := by
    rw [State.dropJob, onLane_onLane]
    exact congrArg (s.withLane lane) (wroteIndex_eq (s.lane lane))
  unfold State.cursorMoved State.moveCursors
  dsimp only
  rw [moved]
  split
  · exact ⟨outside_setFlag _ _, (StandsBy.mk rfl rfl rfl rfl : StandsBy s (s.withLane lane _)).trans (standsBy_setFlag _ _)⟩
  · exact ⟨.refl _, ⟨rfl, rfl, rfl, rfl⟩⟩

theorem takeAck_index {s : State} {lane : Lane} {j : IndexJob} (job : (s.lane lane).job = some (.index j)) :
    s.takeAck lane = ((s.cursorMoved lane).blockWritten lane j.address).afterJob lane := by
  rw [State.takeAck, job]
  rfl

theorem wroteBlock_owes (s : State) (w : Writing) (lane : Lane) (address : Nat) :
    (s.wroteBlock w lane address).owes lane = false := by
  cases lane <;> rfl

theorem lane_states {s t : State} {lane : Lane} {a : LaneUnit} (al : t.al = s.al.set lane a)
    (state : a.state = (s.lane lane).state) (l : Lane) : (t.lane l).state = (s.lane l).state := by
  rw [State.lane, al]
  cases lane <;> cases l <;> first | rfl | exact state

/-- An index block written by a lane, as far as the other lane's duty decides it. -/
structure IndexWritten (s : State) (lane : Lane) (address : Nat) (w : Writing) (t : State) : Prop where
  waits : w.duty.get lane.other = .owed → t.iu = (s.wroteBlock w lane address).iu
  flag : w.duty.get lane.other ≠ .owed → t.nu.isPending .checkpointDone = true
  done : w.duty.get lane.other ≠ .owed → (s.buffer w.buffer.other).state ≠ .closed → s.iu.waitSpans = [] →
    (∀ src, (s.intake src).offeredGap = none) → s.iu.waitRunEnd = none →
    t.iu = { s.iu with
        buffers := s.iu.buffers.set w.buffer { state := .empty, entries := [], final := false }
        writing := none, blockSeq := s.iu.blockSeq + 1, prev := s.iu.prev.set lane (some address) } ∧
      BlockEnded s { w with duty := w.duty.set lane .written } t
  next : w.duty.get lane.other ≠ .owed → ReadyToRefill s w →
    t.iu = { s.refilledUnit w with prev := s.iu.prev.set lane (some address) } ∧
      ∀ p ∈ s.iu.waitSpans, t.span? p.1 = none

theorem BlockEnded.congr {s t : State} {w : Writing} {u : State} (h : BlockEnded t w u) (buffers : t.iu.buffers = s.iu.buffers)
    (rc : t.rc = s.rc) (ci : t.ci = s.ci) : BlockEnded s w u := by
  have same : t.buffer w.buffer = s.buffer w.buffer := by rw [State.buffer, buffers]; rfl
  have counters : t.blockCounters w.someWritten = s.blockCounters w.someWritten := by
    rw [State.blockCounters, rc]
    rfl
  refine ⟨h.done, fun goes => ?_, fun final => ?_⟩
  · rw [h.goes (by rw [same]; exact goes), counters, rc]
  · obtain ⟨ended, flag, intakes⟩ := h.ends (by rw [same]; exact final)
    refine ⟨by rw [ended, counters, rc], flag, fun src => ?_⟩
    rw [intakes src, State.intake, ci]
    rfl

theorem does_flag {s : State} {ts : List IndexTask} (small : costOf ts ≤ 100) (ends : endsOf ts = 0) {f : Flag}
    (set : s.nu.isPending f = true) : (s.does ts).nu.isPending f = true := by
  rw [← index_eq_does small]
  exact (within_index s ts ends).kept.flags f set

theorem progress_flag {s : State} {w : Writing} (writing : s.iu.writing = some w) (settled : w.Settled) :
    (s.does [.progress]).nu.isPending .checkpointDone = true := by
  rw [does_progress_done [] writing settled]
  exact does_flag (by decide) rfl (blockEnded s w).done

theorem indexWritten {s v : State} {lane : Lane} {a : LaneUnit} (al : v.al = s.al.set lane a)
    (state : a.state = (s.lane lane).state) (stands : StandsBy s v) {w : Writing} (writing : s.iu.writing = some w)
    (owed : w.duty.get lane = .owed) (address : Nat) : IndexWritten s lane address w (v.blockWritten lane address) := by
  rw [blockWritten_of_owed (by rw [stands.iu]; exact writing) owed]
  have written : (v.wroteBlock w lane address).iu.writing = some { w with duty := w.duty.set lane .written } := rfl
  have iu : (v.wroteBlock w lane address).iu = (s.wroteBlock w lane address).iu := by
    rw [State.wroteBlock, State.setIu_iu, stands.iu]
    rfl
  have settled (other : w.duty.get lane.other ≠ .owed) :=
    settled_set (w := w) (lane := lane) (d := .written) other Duty.noConfusion
  have buffers (n : BufferName) : (v.wroteBlock w lane address).buffer n = s.buffer n := by
    rw [State.buffer, iu]
    rfl
  have offered (src : Source) : (v.wroteBlock w lane address).intake src = s.intake src := by
    rw [State.intake, State.wroteBlock, State.setIu_ci, stands.ci]
    rfl
  refine ⟨fun other => ?_, fun other => progress_flag written (settled other),
    fun other closed spans gaps runEnd => ?_, fun other ready => ?_⟩
  · rw [does_progress_owed [] written (owed_set _ other), does_nil, iu]
  · rw [progress_done written (settled other) (by rw [buffers]; exact closed) (by rw [iu]; exact spans)
      (fun src => by rw [offered]; exact gaps src) (by rw [iu]; exact runEnd)]
    refine ⟨?_, (blockEnded _ _).congr (by rw [iu]; rfl) stands.rc stands.ci⟩
    rw [blockDone_iu, iu]
    rfl
  · have states := lane_states (t := v.wroteBlock w lane address) al state
    have next : ReadyToRefill (v.wroteBlock w lane address) { w with duty := w.duty.set lane .written } := by
      refine ⟨?_, ?_, ?_, ?_, fun src => ?_, ?_, ?_, ?_⟩
      · exact (congrArg RunController.runState stands.rc).trans ready.running
      · rw [buffers]; exact ready.goes
      · rw [buffers]; exact ready.other
      · exact (stands.st ▸ ready.table : TableOk v.st)
      · rw [offered]; exact ready.gaps src
      · rw [iu]; exact ready.runEnd
      · rw [iu]; exact ready.room
      · rw [states, states]; exact ready.owed
    obtain ⟨refilled, gone⟩ := next.progress written (settled other)
    refine ⟨refilled.trans ?_, fun p hp => gone p (by rw [iu]; exact hp)⟩
    rw [State.refilledUnit, states, states, buffers, iu]
    rfl

end Sys2Proof.Machine

/-! ACK of a lane's last WRITE, part by part (O56). -/

namespace Sys2Proof.Machine

theorem Writes.ack {s : State} {lane : Lane} {tag : Word16} {job : Job} (h : Writes s lane tag job) :
    exec (.ack lane tag) s = .next (s.takeAck lane).evaluate := exec_ack (awaits_of h.state h.outstanding h.tag)

/-! ### A header burst, outside a pair -/

section Single

variable {s : State} {lane : Lane} {j : SpanJob} {t : State}

/-- The header's ACK, outside a pair: the lane's next state, after the report `t`. -/
structure AcksHeader (s : State) (lane : Lane) (j : SpanJob) (t : State) : Prop where
  taken : s.takeAck lane = t.afterJob lane
  report : t = (s.withLane lane (s.lane lane).wroteSpan).reportOutcome lane j .done ((s.lane lane).settings.base + j.first)
  reported : Reported s lane (s.lane lane).wroteSpan t
  pair : t.ds.pair = none
  owes : s.owes lane = true → t.owes lane = true

theorem acksHeader (job : (s.lane lane).job = some (.span j)) (header : j.phase = .header) (pair : s.ds.pair = none) :
    ∃ t, AcksHeader s lane j t := by
  have out := outside_reportOutcome (s.withLane lane (s.lane lane).wroteSpan) lane j .done
    ((s.lane lane).settings.base + j.first) pair
  refine ⟨_, takeAck_header job header, rfl, out.reported, ?_, fun owes => ?_⟩
  · rw [out.ds]
    exact pair
  · exact (owesStill_keeps lane).reportOutcome (s := s.withLane lane (s.lane lane).wroteSpan) owes pair lane j _ _

theorem AcksHeader.quiet (h : AcksHeader s lane j t) : t.formingFollower lane = false := formingFollower_of_none h.pair

theorem AcksHeader.jobEnds (h : AcksHeader s lane j t) :
    JobEnds s (t.afterJob lane) lane (s.lane lane).wroteSpan (s.claimNow (s.lane lane).wroteSpan) :=
  h.reported.jobEnds h.quiet (h.reported.claimNow h.pair)

theorem AcksHeader.missed (h : AcksHeader s lane j t) (action : (s.lane lane).action = .pause) (owes : s.owes lane = true) :
    (t.afterJob lane).nu.isPending .indexMissed = true :=
  afterJob_missed (by rw [h.reported.own]; exact action) (h.owes owes)

/-- The copy a DONE write leaves. -/
def State.copyOf (s : State) (lane : Lane) (j : SpanJob) : Copy :=
  { lane := lane, address := (s.lane lane).settings.base + j.first }

theorem AcksHeader.landed (h : AcksHeader s lane j t) (pair : s.ds.pair = none) {sp : Span}
    (requested : s.requested j.slot j.runId j.seq .draining = some sp) (suffices_ : sp.Suffices) :
    LandedAlone (s.withLane lane (s.lane lane).wroteSpan) lane j sp ((s.lane lane).settings.base + j.first) t := by
  rw [h.report]
  exact landedAlone (s := s.withLane lane (s.lane lane).wroteSpan) pair requested suffices_ _

/-- What the span of a single write becomes when the write has ended DONE. -/
theorem AcksHeader.span (h : AcksHeader s lane j t) (pair : s.ds.pair = none) {sp : Span}
    (requested : s.requested j.slot j.runId j.seq .draining = some sp) (free : s.owes lane = false)
    (suffices_ : sp.Suffices) :
    let landed := sp.landedAlone (s.copyOf lane j)
    let offered := ((s.withLane lane (s.lane lane).wroteSpan).dequeued j.slot landed).offerSpan j.slot
    let u := t.afterJob lane
    (sp.laneRule = .mirror ∧ sp.copies = [] → u.nu.isPending .pairDegraded = true) ∧
    (∀ v, u.span? j.slot = some v → TableOk s.st → v = landed) ∧
    (s.target = none → u.span? j.slot = some landed ∧
      u.iu = { s.iu with waitSpans := insertWaiting j.slot landed.entry s.iu.waitSpans } ∧ u.rc = s.rc) ∧
    (offered.owes lane = false ∨ (s.lane lane).action ≠ .pause →
      u.st = offered.st ∧ u.iu = offered.iu ∧ u.rc = offered.rc ∧ u.ci = offered.ci) := by
  intro landed offered u
  have single := h.landed pair requested suffices_
  refine ⟨fun alone => ?_, fun v left table => single.kept h.quiet requested table left, fun full => ?_, fun k => ?_⟩
  · exact (within_afterJob t lane).kept.flags _ (single.degraded alone)
  · have waits := single.waits full
    have owes : t.owes lane = false := by
      rw [waits.owes]
      exact free
    have stands := waits.trans (h.reported.standsBy h.quiet (.inl owes))
    refine ⟨?_, stands.iu, stands.rc⟩
    rw [stands.span?]
    exact dequeued_self _ _ _
  · have owes : t.owes lane = false ∨ (s.lane lane).wroteSpan.action ≠ .pause := by
      rw [single.offered.owes]
      exact k
    have stands := single.offered.trans (h.reported.standsBy h.quiet owes)
    exact ⟨stands.st, stands.iu, stands.rc, stands.ci⟩

end Single

/-! ### An index block, outside a pair -/

section Index

variable {s : State} {lane : Lane} {j : IndexJob} {t : State}

/-- The ACK of an index block, outside a pair: the lane's next state, after the report `t`. -/
structure AcksIndex (s : State) (lane : Lane) (j : IndexJob) (t : State) : Prop where
  taken : s.takeAck lane = t.afterJob lane
  reported : Reported s lane (s.lane lane).wroteIndex t
  pair : t.ds.pair = none
  written : ∀ w, s.iu.writing = some w → w.duty.get lane = .owed → IndexWritten s lane j.address w t

theorem acksIndex (job : (s.lane lane).job = some (.index j)) (pair : s.ds.pair = none) : ∃ t, AcksIndex s lane j t := by
  obtain ⟨moved, stands⟩ := cursorMoved_outside s lane
  have out := moved.trans (outside_blockWritten (s.cursorMoved lane) lane j.address)
  refine ⟨_, takeAck_index job, out.reported, ?_, fun w writing owed => indexWritten moved.al rfl stands writing owed _⟩
  rw [out.ds]
  exact pair

theorem AcksIndex.quiet (h : AcksIndex s lane j t) : t.formingFollower lane = false := formingFollower_of_none h.pair

theorem AcksIndex.jobEnds (h : AcksIndex s lane j t) :
    JobEnds s (t.afterJob lane) lane (s.lane lane).wroteIndex (s.claimNow (s.lane lane).wroteIndex) :=
  h.reported.jobEnds h.quiet (h.reported.claimNow h.pair)

/-- The block that an index block's ACK leaves. -/
theorem AcksIndex.block (h : AcksIndex s lane j t) (busy : (s.lane lane).state = .busy) {w : Writing}
    (writing : s.iu.writing = some w) (owed : w.duty.get lane = .owed) :
    let u := t.afterJob lane
    let prev := s.iu.prev.set lane (some j.address)
    let other := w.buffer.other
    let counted := { s.rc.counters with checkpointsWritten := s.rc.counters.checkpointsWritten + 1 }
    (w.duty.get lane.other = .owed →
      u.iu = { s.iu with
        writing := some { w with duty := w.duty.set lane .written }, prev := prev }) ∧
    (w.duty.get lane.other ≠ .owed → (∀ src, (s.intake src).offeredGap = none) →
      s.iu.waitRunEnd = none →
      u.nu.isPending .checkpointDone = true ∧
      ((s.buffer other).state ≠ .closed → s.iu.waitSpans = [] →
        u.iu = { s.iu with
          buffers := s.iu.buffers.set w.buffer { state := .empty, entries := [], final := false }
          writing := none, blockSeq := s.iu.blockSeq + 1, prev := prev } ∧
        ((s.buffer w.buffer).final = false → u.rc = { s.rc with counters := counted }) ∧
        ((s.buffer w.buffer).final = true →
          u.rc = { s.rc with
            counters := counted, runState := .idle
            lastEnd := if s.rc.nextSeq = .exhausted then .sequenceExhausted else .complete } ∧
          u.nu.isPending .runEnded = true ∧
          ∀ src, (u.intake src).intake =
            if (s.intake src).intake = .closed then .idle else (s.intake src).intake)) ∧
      ((s.buffer other).state = .closed → (s.buffer w.buffer).final = false →
        s.iu.waitSpans.length < 63 → s.rc.runState = .running → TableOk s.st → (s.lane lane).action ≠ .pause →
        u.iu = { s.iu with
          buffers := (s.iu.buffers.set other { s.buffer other with state := .writing }).set w.buffer
            { state := if s.iu.waitSpans = [] then .empty else .filling
              entries := s.iu.waitSpans.map Prod.snd, final := false }
          writing := some
            { buffer := other, seq := s.iu.blockSeq + 1
              duty := ⟨(s.lane .l0).state.duty, (s.lane .l1).state.duty⟩ }
          waitSpans := [], blockSeq := s.iu.blockSeq + 1, prev := prev } ∧
        ∀ p ∈ s.iu.waitSpans, u.span? p.1 = none)) := by
  intro u prev other counted
  have written := h.written w writing owed
  have flags := (within_afterJob t lane).kept.flags
  refine ⟨fun both => ?_, fun alone gaps runEnd => ⟨flags _ (written.flag alone), fun closed spans => ?_,
    fun closed goes room running table pause => ?_⟩⟩
  · have owes : t.owes lane = false := by
      rw [owes_congr (s := s.wroteBlock w lane j.address) (by rw [written.waits both])]
      exact wroteBlock_owes s w lane j.address
    rw [(h.reported.standsBy h.quiet (.inl owes)).iu, written.waits both]
    rfl
  · obtain ⟨iu, ended⟩ := written.done alone closed spans gaps runEnd
    have owes : t.owes lane = false := owes_of_writing lane (by rw [iu])
    have stands := h.reported.standsBy h.quiet (.inl owes)
    have some := someWritten_written w lane
    refine ⟨stands.iu.trans iu, fun goes => ?_, fun final => ?_⟩
    · rw [stands.rc, ended.goes goes, some]
      rfl
    · obtain ⟨rc, flag, intakes⟩ := ended.ends final
      refine ⟨?_, flags _ flag, fun src => ?_⟩
      · rw [stands.rc, rc, some]
        rfl
      · rw [State.intake, stands.ci]
        exact intakes src
  · have stands := h.reported.standsBy h.quiet (.inr pause)
    have ready : ReadyToRefill s w := by
      refine ⟨running, goes, closed, table, gaps, runEnd, room, ?_⟩
      have own : (s.lane lane).state.duty = .owed := by rw [busy]; rfl
      cases lane
      · exact .inl own
      · exact .inr own
    obtain ⟨iu, gone⟩ := written.next alone ready
    refine ⟨stands.iu.trans iu, fun p hp => ?_⟩
    rw [stands.span?]
    exact gone p hp

end Index

/-! ### In an ACTIVE pair (R126, R127) -/

/-- What the report of a pair's write leaves of the pair and its span, where the lane then takes its next state. -/
theorem PairReport.afterJob {s : State} {lane : Lane} {a : LaneUnit} {c : PairContext} {o : PairOutcome} {v : Span}
    {t : State} (h : PairReport (s.withLane lane a) c lane o v t) (pair : s.ds.pair = some c)
    (free : s.ds.claim.get lane = none) :
    let u := t.afterJob lane
    let closed := ((s.withLane lane a).recorded c lane o v).closePair (c.recorded lane o)
    u.lane lane.other = s.lane lane.other ∧
    (c.outcome.get lane ≠ .pending → u.ds.pair = some c) ∧
    (c.outcome.get lane = .pending → c.outcome.get lane.other = .pending →
      JobEnds s u lane a none ∧ u.ds.pair = some (c.recorded lane o) ∧
      (s.owes lane = false → u.span? c.slot = some v ∧ u.st.queues = s.st.queues)) ∧
    (c.outcome.get lane = .pending → c.outcome.get lane.other ≠ .pending →
      JobEnds s u lane a (s.claimNow a) ∧ u.ds.pair = none ∧
      (closed.owes lane = false ∨ a.action ≠ .pause → u.st = closed.st ∧ u.iu = closed.iu ∧
        u.rc = closed.rc ∧ u.ds.claim.get lane.other = closed.ds.claim.get lane.other)) := by
  intro u closed
  have reported := h.reported
  have moves := moves_afterJob h.quiet
  refine ⟨reported.after_other h.quiet, fun late => ?_, fun first other => ?_, fun first other => ?_⟩
  · rw [moves.pair, h.late late]
    exact pair
  · have waits := h.waits first other
    have paired : t.ds.pair = some (c.recorded lane o) := by rw [waits]; rfl
    refine ⟨reported.jobEnds h.quiet ?_, moves.pair.trans paired, fun owes => ?_⟩
    · rw [claimAfter_of_pair (by rw [paired]; exact Option.some_ne_none _), waits]
      exact free
    · have stands := reported.standsBy h.quiet (.inl (by rw [waits]; exact owes))
      rw [stands.span?, stands.st, waits]
      exact ⟨findSlot_putSlot_self _ _ _, rfl⟩
  · have closes := h.closes first other
    have gone : t.ds.pair = none := by
      rw [closes]
      exact (closes_closePair _ _).pair
    refine ⟨reported.jobEnds h.quiet (reported.claimNow gone), moves.pair.trans gone, fun k => ?_⟩
    have stands := reported.standsBy h.quiet (by rw [closes]; exact k)
    rw [stands.st, stands.iu, stands.rc, moves.otherClaim, closes]
    exact ⟨rfl, rfl, rfl, rfl⟩

theorem ack_writesPair {s : State} {lane : Lane} {j : SpanJob} {c : PairContext} {sp : Span} (h : WritesPair s j c sp)
    (a : LaneUnit) : WritesPair (s.withLane lane a) j c sp := ⟨h.pair, h.active, h.slot, h.runId, h.seq, h.requested⟩

/-- Settles O56: by the kind of the job, and in an ACTIVE pair by the outcomes known. -/
theorem ackEndsTheJob : Obligations.AckEndsTheJob := by
  refine ⟨fun s lane tag job writes header pair => ?_, fun s lane tag j c sp writes header pair active slot runId seq
    requested free => ?_⟩
  · have kept := (within_takeAck s lane).kept
    cases job with
    | span j =>
      obtain ⟨t, acks⟩ := acksHeader writes.job (header j rfl) pair
      rw [acks.taken] at kept
      refine ⟨_, writes.ack.trans (by rw [acks.taken]), acks.jobEnds, acks.reported.after_other acks.quiet, kept,
        fun i same => acks.missed, fun i sp same requested owes => ?_, fun i w other => Job.noConfusion other⟩
      cases same
      exact acks.span pair requested owes
    | index j =>
      obtain ⟨t, acks⟩ := acksIndex writes.job pair
      rw [acks.taken] at kept
      refine ⟨_, writes.ack.trans (by rw [acks.taken]), acks.jobEnds, acks.reported.after_other acks.quiet, kept,
        fun i other => Job.noConfusion other, fun i sp other => Job.noConfusion other, fun i w same writing owed => ?_⟩
      cases same
      exact acks.block writes.state writing owed
  · have job := ack_writesPair (lane := lane) ⟨pair, active, slot, runId, seq, requested⟩ (s.lane lane).wroteSpan
    have report := pairReport job lane (o := .done) Outcome.noConfusion ((s.lane lane).settings.base + j.first)
    rw [show sp.afterWrite lane .done _ = _ from if_pos rfl] at report
    exact ⟨_, writes.ack.trans (by rw [takeAck_header writes.job header]), report.afterJob pair free⟩

end Sys2Proof.Machine

/-! What a pair's close does is read off neither the notices, nor the frames queued, nor the archive links. -/

namespace Sys2Proof.Machine

/-! ### States alike but for the notices, the port and the links -/

/-- The state with another port, other notices and other links. -/
def State.dress (s : State) (clp : LinkPort) (nu : NoticeUnit) (wire : PerLane (List LaneFrame)) : State :=
  { s with clp := clp, nu := nu, wire := wire }

/-- Two states differ in the port, the notices and the archive links alone. -/
def Alike (s t : State) : Prop := ∃ clp nu wire, t = s.dress clp nu wire

theorem Alike.refl (s : State) : Alike s s := ⟨s.clp, s.nu, s.wire, rfl⟩

theorem Alike.symm {s t : State} (h : Alike s t) : Alike t s := by
  obtain ⟨_, _, _, rfl⟩ := h
  exact ⟨s.clp, s.nu, s.wire, rfl⟩

theorem Alike.trans {s t u : State} (h : Alike s t) (k : Alike t u) : Alike s u := by
  obtain ⟨_, _, _, rfl⟩ := h
  obtain ⟨clp, nu, wire, rfl⟩ := k
  exact ⟨clp, nu, wire, rfl⟩

theorem Alike.standsBy {s t : State} (h : Alike s t) : StandsBy s t := by
  obtain ⟨_, _, _, rfl⟩ := h
  exact ⟨rfl, rfl, rfl, rfl⟩

theorem Alike.ds {s t : State} (h : Alike s t) : t.ds = s.ds := by
  obtain ⟨_, _, _, rfl⟩ := h
  rfl

theorem alike_setFlag (s : State) (f : Flag) : Alike s (s.setFlag f) := ⟨_, _, s.wire, setFlag_eq s f⟩

theorem alike_ite {s t u : State} {p : Prop} [Decidable p] (h : Alike s t) (k : Alike s u) : Alike s (if p then t else u) := by
  split
  · exact h
  · exact k

section Dress

variable (s : State) (clp : LinkPort) (nu : NoticeUnit) (wire : PerLane (List LaneFrame))

@[simp] theorem dress_st : (s.dress clp nu wire).st = s.st := rfl
@[simp] theorem dress_rc : (s.dress clp nu wire).rc = s.rc := rfl
@[simp] theorem dress_iu : (s.dress clp nu wire).iu = s.iu := rfl
@[simp] theorem dress_spm : (s.dress clp nu wire).spm = s.spm := rfl
@[simp] theorem dress_ds : (s.dress clp nu wire).ds = s.ds := rfl
@[simp] theorem dress_span? (slot : Nat) : (s.dress clp nu wire).span? slot = s.span? slot := rfl
@[simp] theorem dress_intake (src : Source) : (s.dress clp nu wire).intake src = s.intake src := rfl
@[simp] theorem dress_lane (lane : Lane) : (s.dress clp nu wire).lane lane = s.lane lane := rfl
@[simp] theorem dress_target : (s.dress clp nu wire).target = s.target := rfl
@[simp] theorem dress_buffer (n : BufferName) : (s.dress clp nu wire).buffer n = s.buffer n := rfl
@[simp] theorem dress_closedBuffer : (s.dress clp nu wire).closedBuffer = s.closedBuffer := rfl
@[simp] theorem dress_nextWaiting : (s.dress clp nu wire).nextWaiting = s.nextWaiting := rfl
@[simp] theorem dress_noGaps : (s.dress clp nu wire).noGaps = s.noGaps := rfl
@[simp] theorem dress_offerEntry (o : Offer) : (s.dress clp nu wire).offerEntry o = s.offerEntry o := rfl

end Dress

/-- What an update of the other fields does to a state it does to one alike. -/
theorem alike_of_commutes {f : State → State} (h : ∀ s clp nu wire, f (s.dress clp nu wire) = (f s).dress clp nu wire)
    {s t : State} (k : Alike s t) : Alike (f s) (f t) := by
  obtain ⟨clp, nu, wire, rfl⟩ := k
  exact ⟨clp, nu, wire, h s clp nu wire⟩

/-- A change is blind where states alike are alike after it. -/
def Blind (f : State → State) : Prop := ∀ ⦃s t : State⦄, Alike s t → Alike (f s) (f t)

theorem blind_of_commutes {f : State → State}
    (h : ∀ s clp nu wire, f (s.dress clp nu wire) = (f s).dress clp nu wire) : Blind f := fun _ _ k =>
  alike_of_commutes h k

theorem blind_setFlag (f : Flag) : Blind fun s => s.setFlag f := fun s t h =>
  (alike_setFlag s f).symm.trans (h.trans (alike_setFlag t f))

theorem Blind.comp {f g : State → State} (hg : Blind g) (hf : Blind f) : Blind fun s => g (f s) := fun _ _ h => hg (hf h)

/-! ### The table and the pressure states -/

theorem blind_evalAllPressure (v : Nat) : Blind fun s => s.evalAllPressure v :=
  blind_of_commutes fun s clp nu wire => by
    rw [evalAllPressure_eq, evalAllPressure_eq]
    rfl

theorem blind_occupancyChanged (u v : Nat) : Blind fun s => s.occupancyChanged u v := fun s t h => by
  have flagged (x : State) : Alike x (if x.spm.crosses u v then x.setFlag .spoolLevel else x) :=
    alike_ite (alike_setFlag x _) (.refl x)
  simp only [occupancyChanged_eq]
  exact blind_evalAllPressure v ((flagged s).symm.trans (h.trans (flagged t)))

theorem blind_release (slot : Nat) (cause : ReleaseCause) : Blind fun s => s.release slot cause := fun s t h => by
  cases found : s.span? slot with
  | none =>
    have found' : t.span? slot = none := (h.standsBy.span? slot).trans found
    simp only [release_none found, release_none found']
    exact h
  | some sp =>
    have found' : t.span? slot = some sp := (h.standsBy.span? slot).trans found
    have dropped : Alike ((s.setSt (s.st.without slot sp)).onCounters cause.count)
        ((t.setSt (t.st.without slot sp)).onCounters cause.count) :=
      alike_of_commutes (f := fun s => (s.setSt (s.st.without slot sp)).onCounters cause.count) (fun _ _ _ _ => rfl) h
    rw [h.standsBy.st] at dropped
    simp only [release_some found, release_some found', h.standsBy.st]
    exact blind_occupancyChanged _ _ dropped

/-! ### The tasks of the Index Unit -/

theorem blind_wait (o : Offer) : Blind fun s => s.wait o := blind_of_commutes fun _ _ _ _ => by cases o <;> rfl

theorem blind_unwait (o : Offer) : Blind fun s => s.unwait o := blind_of_commutes fun _ _ _ _ => by cases o <;> rfl

theorem blind_handBack (o : Offer) : Blind fun s => s.handBack o := by
  cases o with
  | span slot e => cases e <;> exact blind_release slot _
  | gap src => exact blind_of_commutes fun _ _ _ _ => rfl
  | runEnd e => exact fun _ _ h => h

theorem blind_idleIntake (src : Source) : Blind (State.idleIntake src) := blind_of_commutes fun s clp nu wire => by
  unfold State.idleIntake
  rw [dress_intake]
  split <;> rfl

theorem blind_endRun (written : Bool) : Blind fun s => s.endRun written := fun s t h => by
  simp only [endRun_eq, forSources]
  refine blind_setFlag _ (alike_of_commutes (f := State.calmAll) (fun _ _ _ _ => rfl) ?_)
  refine blind_idleIntake .s3 (blind_idleIntake .s2 (blind_idleIntake .s1 (blind_idleIntake .s0 ?_)))
  exact alike_of_commutes (f := fun s => s.setRc { s.rc with
    runState := .idle, lastEnd := if written then s.rc.provisional else .indexUnwritten }) (fun _ _ _ _ => rfl) h

theorem blind_blockCounted (w : Writing) : Blind fun s => s.blockCounted w := fun s t h => by
  have cleared : Alike (s.blockCleared w) (t.blockCleared w) :=
    alike_of_commutes (f := fun s => s.blockCleared w) (fun _ _ _ _ => rfl) h
  have flagged := blind_setFlag .checkpointDone cleared
  simp only [State.blockCounted]
  split
  · exact alike_of_commutes (f := fun s => s.onCounters fun c =>
      { c with checkpointsWritten := c.checkpointsWritten + 1 }) (fun _ _ _ _ => rfl) flagged
  · exact flagged

theorem blind_blockDone (w : Writing) : Blind fun s => s.blockDone w := fun s t h => by
  have same : t.buffer w.buffer = s.buffer w.buffer := by rw [State.buffer, h.standsBy.iu]; rfl
  simp only [blockDone_eq, same]
  split
  · exact blind_endRun _ (blind_blockCounted w h)
  · exact blind_blockCounted w h

theorem blind_becomeWriting (n : BufferName) : Blind fun s => s.becomeWriting n := fun s t h => by
  have flagged (x : State) : Alike (x.toWriting n) (x.becomeWriting n) := by
    rw [becomeWriting_eq]
    exact alike_ite (alike_setFlag _ _) (.refl _)
  have same : Alike (s.toWriting n) (t.toWriting n) :=
    alike_of_commutes (f := fun s => s.toWriting n) (fun _ _ _ _ => rfl) h
  exact (flagged s).symm.trans (same.trans (flagged t))

/-- A task's two results on states alike: states alike, and the same tasks to follow. -/
def SameTask (x y : State × List IndexTask) : Prop := Alike x.1 y.1 ∧ y.2 = x.2

theorem sameTask_takeOffer (o : Offer) {s t : State} (h : Alike s t) : SameTask (s.takeOffer o) (t.takeOffer o) := by
  obtain ⟨clp, nu, wire, rfl⟩ := h
  unfold State.takeOffer
  simp only [dress_target, dress_offerEntry, dress_buffer]
  have alike : Alike s (s.dress clp nu wire) := ⟨clp, nu, wire, rfl⟩
  cases s.target with
  | none => exact ⟨blind_wait o alike, rfl⟩
  | some buf =>
    cases s.offerEntry o with
    | none => exact ⟨alike, rfl⟩
    | some e =>
      exact ⟨blind_handBack o (alike_of_commutes
        (f := fun x => x.setBuffer buf ((s.buffer buf).append e o.isRunEnd)) (fun _ _ _ _ => rfl) alike), rfl⟩

theorem sameTask_progress {s t : State} (h : Alike s t) : SameTask s.progressOnce t.progressOnce := by
  obtain ⟨clp, nu, wire, rfl⟩ := h
  have alike : Alike s (s.dress clp nu wire) := ⟨clp, nu, wire, rfl⟩
  unfold State.progressOnce
  simp only [dress_iu, dress_closedBuffer]
  cases s.iu.writing with
  | some w =>
    dsimp only
    by_cases owed : w.duty.l0 = .owed ∨ w.duty.l1 = .owed
    · simp only [if_pos owed]
      exact ⟨alike, rfl⟩
    · simp only [if_neg owed]
      exact ⟨blind_blockDone w alike, rfl⟩
  | none =>
    cases s.closedBuffer with
    | some n => exact ⟨blind_becomeWriting n alike, rfl⟩
    | none => exact ⟨alike, rfl⟩

theorem sameTask_refill {s t : State} (h : Alike s t) : SameTask s.refillOnce t.refillOnce := by
  obtain ⟨clp, nu, wire, rfl⟩ := h
  have alike : Alike s (s.dress clp nu wire) := ⟨clp, nu, wire, rfl⟩
  unfold State.refillOnce
  simp only [dress_target, dress_nextWaiting]
  cases s.target with
  | none => exact ⟨alike, rfl⟩
  | some n =>
    cases s.nextWaiting with
    | none => exact ⟨alike, rfl⟩
    | some o => exact ⟨blind_unwait o alike, rfl⟩

theorem sameTask_handOver (src : Source) {s t : State} (h : Alike s t) : SameTask (s.handOver src) (t.handOver src) := by
  obtain ⟨clp, nu, wire, rfl⟩ := h
  have alike : Alike s (s.dress clp nu wire) := ⟨clp, nu, wire, rfl⟩
  unfold State.handOver
  simp only [dress_intake]
  cases (s.intake src).pendingGap with
  | none => exact ⟨alike, rfl⟩
  | some g =>
    cases (s.intake src).offeredGap with
    | some k => exact ⟨alike, rfl⟩
    | none =>
      exact ⟨alike_of_commutes
        (f := fun s => s.onIntake src fun i => { i with pendingGap := none, offeredGap := some g }) (fun _ _ _ _ => rfl) alike, rfl⟩

theorem sameTask_testEnding {s t : State} (h : Alike s t) : SameTask s.testEnding t.testEnding := by
  obtain ⟨clp, nu, wire, rfl⟩ := h
  have alike : Alike s (s.dress clp nu wire) := ⟨clp, nu, wire, rfl⟩
  by_cases ends : s.rc.runState = .stopping ∧ s.st.slots = [] ∧ s.noGaps = true
  · rw [show s.testEnding = s.enterEnding from if_pos ends,
      show (s.dress clp nu wire).testEnding = (s.dress clp nu wire).enterEnding from if_pos ends]
    exact ⟨alike_of_commutes (f := fun s => s.enterEnding.1) (fun _ _ _ _ => rfl) alike, rfl⟩
  · rw [show s.testEnding = (s, []) from if_neg ends,
      show (s.dress clp nu wire).testEnding = (s.dress clp nu wire, []) from if_neg ends]
    exact ⟨alike, rfl⟩

theorem sameTask (k : IndexTask) {s t : State} (h : Alike s t) : SameTask (s.indexTask k) (t.indexTask k) := by
  cases k with
  | offer o => exact sameTask_takeOffer o h
  | progress => exact sameTask_progress h
  | refill => exact sameTask_refill h
  | testEnding => exact sameTask_testEnding h
  | handNext src =>
    have same : t.intake src = s.intake src := by rw [State.intake, h.standsBy.ci]; rfl
    simp only [State.indexTask, same]
    split
    · exact sameTask_handOver src h
    · exact ⟨h, rfl⟩

theorem blind_runTasks (fuel : Nat) (ts : List IndexTask) : Blind (State.runTasks fuel ts) := by
  induction fuel generalizing ts with
  | zero => exact fun _ _ h => h
  | succ fuel ih =>
    cases ts with
    | nil => exact fun _ _ h => h
    | cons k ts =>
      intro s t h
      obtain ⟨alike, tasks⟩ := sameTask k h
      rw [State.runTasks, State.runTasks, tasks]
      exact ih _ alike

theorem blind_offerSpan (slot : Nat) : Blind fun s => s.offerSpan slot := fun s t h => by
  simp only [State.offerSpan, h.standsBy.span?]
  cases s.span? slot with
  | none => exact h
  | some sp =>
    simp only [State.index, State.taskFuel, h.standsBy.iu]
    exact blind_runTasks _ _ h

/-! ### The disposal of a span -/

theorem blind_enter (slot : Nat) (v : Span) : Blind fun s => s.enter slot v := blind_of_commutes fun _ _ _ _ => rfl

theorem blind_setSpan (slot : Nat) (v : Span) : Blind fun s => s.setSpan slot v := blind_of_commutes fun _ _ _ _ => rfl

theorem blind_onSpan (slot : Nat) (f : Span → Span) : Blind fun s => s.onSpan slot f := fun s t h => by
  simp only [State.onSpan, h.standsBy.span?]
  cases s.span? slot with
  | none => exact h
  | some sp => exact blind_setSpan slot _ h

theorem blind_commit (slot : Nat) : Blind fun s => s.commit slot := fun s t h => by
  simp only [State.commit, h.standsBy.span?, h.standsBy.rc]
  cases s.span? slot with
  | none => exact h
  | some sp =>
    dsimp only
    split
    · exact blind_offerSpan slot (blind_enter slot _ h)
    · exact h

theorem blind_shedSpan (slot : Nat) (cause : ShedCause) : Blind fun s => s.shedSpan slot cause := fun s t h => by
  simp only [State.shedSpan, h.standsBy.span?]
  cases s.span? slot with
  | none => exact h
  | some sp =>
    dsimp only
    split
    · exact h
    · exact blind_offerSpan slot (blind_enter slot _ h)

theorem blind_requeue (slot : Nat) : Blind fun s => s.requeue slot := fun s t h => by
  simp only [State.requeue, h.standsBy.span?, h.standsBy.rc]
  cases s.span? slot with
  | none => exact h
  | some sp =>
    dsimp only
    split
    · split
      · exact blind_commit slot h
      · exact blind_shedSpan slot _ h
    · exact blind_enter slot _ h

theorem blind_failOrRequeue (slot : Nat) : Blind fun s => s.failOrRequeue slot := fun s t h => by
  have spm : t.spm = s.spm := by
    obtain ⟨_, _, _, rfl⟩ := h
    rfl
  simp only [State.failOrRequeue, h.standsBy.span?, spm]
  cases s.span? slot with
  | none => exact h
  | some sp =>
    dsimp only
    split
    · exact blind_setFlag _ (blind_shedSpan slot _ h)
    · exact blind_requeue slot h

/-! ### The close of a pair (R127) -/

theorem blind_closePartial (c : PairContext) (failed : Bool) : Blind fun s => s.closePartial c failed := fun s t h => by
  have tried : Alike (if failed then s.onSpan c.slot Span.countAttempt else s)
      (if failed then t.onSpan c.slot Span.countAttempt else t) := by
    cases failed
    · exact h
    · exact blind_onSpan _ _ h
  simp only [State.closePartial]
  generalize (if failed then s.onSpan c.slot Span.countAttempt else s) = x at tried
  generalize (if failed then t.onSpan c.slot Span.countAttempt else t) = y at tried
  simp only [tried.standsBy.span?]
  cases x.span? c.slot with
  | none => exact tried
  | some sp =>
    dsimp only
    by_cases degrades : failed = true ∧ sp.mirrorPolicy = some .degrade
    · simp only [if_pos degrades, tried.standsBy.rc]
      split
      · exact blind_commit _ tried
      · exact blind_setFlag _ (blind_commit _ tried)
    · simp only [if_neg degrades]
      split
      · exact blind_failOrRequeue _ (blind_setSpan _ _ tried)
      · exact blind_requeue _ (blind_setSpan _ _ tried)

theorem blind_closeBare (c : PairContext) (failed : Bool) : Blind fun s => s.closeBare c failed := fun s t h => by
  simp only [State.closeBare]
  cases failed with
  | true => exact blind_failOrRequeue _ (blind_onSpan _ _ h)
  | false => exact blind_requeue _ h

theorem blind_closeSpan (c : PairContext) : Blind fun s => s.closeSpan c := fun s t h => by
  simp only [State.closeSpan]
  split
  · exact blind_commit _ h
  · split
    · exact blind_closePartial c _ h
    · exact blind_closeBare c _ h

theorem blind_roleEnded (lane : Lane) : Blind fun s => s.roleEnded lane := blind_of_commutes fun s clp nu wire => by
  by_cases claims : ((s.lane lane).state.claims && (s.ds.claim.get lane).isNone) = true
  case neg =>
    rw [show s.roleEnded lane = s from if_neg claims,
      show (s.dress clp nu wire).roleEnded lane = s.dress clp nu wire from if_neg claims]
  rw [show s.roleEnded lane = s.placeClaim lane from if_pos claims,
    show (s.dress clp nu wire).roleEnded lane = (s.dress clp nu wire).placeClaim lane from if_pos claims]
  by_cases role : s.hasRole = true
  · rw [show s.placeClaim lane = s from if_pos role,
      show (s.dress clp nu wire).placeClaim lane = s.dress clp nu wire from if_pos role]
  · rw [State.placeClaim, State.placeClaim, if_neg role, if_neg (by exact role)]
    rfl

theorem blind_closePair (c : PairContext) : Blind fun s => s.closePair c := fun s t h => by
  have gone : Alike (s.setPair none) (t.setPair none) :=
    alike_of_commutes (f := fun s => s.setPair none) (fun _ _ _ _ => rfl) h
  exact blind_roleEnded .l1 (blind_roleEnded .l0 (blind_closeSpan c gone))

end Sys2Proof.Machine

/-! The follower of a FORMING pair that is lost to it: the leader's write ends unstarted, or goes on singly (R120 to R122). -/

namespace Sys2Proof.Machine

/-! ### A span returns to its queue (R16, R36) -/

theorem requeue_live {s : State} {slot : Nat} {sp : Span} (found : s.span? slot = some sp) (live : s.rc.expired = false) :
    s.requeue slot = s.enter slot { sp with state := .queued } := by
  rw [State.requeue, found]
  exact if_neg (by rw [live]; exact Bool.false_ne_true)

theorem requeue_absent {s : State} {slot : Nat} (none : s.span? slot = none) : s.requeue slot = s := by
  rw [State.requeue, none]

theorem requeue_expired {s : State} {slot : Nat} {sp : Span} (found : s.span? slot = some sp) (expired : s.rc.expired = true) :
    s.requeue slot = (s.enter slot sp.disposed).offerSpan slot := by
  rw [State.requeue, found]
  dsimp only
  rw [if_pos expired]
  by_cases one : sp.laneRule = .mirror ∧ sp.copies.length = 1
  · have committed : sp.committed = sp.disposed := by
      rw [Span.disposed, if_pos one, Span.committed, one.1, one.2]
      rfl
    have may : sp.mayCommit s.rc.expired = true := by
      rw [Span.mayCommit, one.1, one.2, expired]
      simp
    rw [if_pos one, State.commit, found]
    dsimp only
    rw [if_pos may, committed]
  · have shed : sp.disposed = { sp with state := .shed, shedCause := some .stopDeadline } := if_neg one
    rw [if_neg one, State.shedSpan, found, shed]
    exact if_neg fun k => ShedCause.noConfusion k.2

theorem requeue_live_only {s : State} (live : s.rc.expired = false) (slot : Nat) :
    s.requeue slot = { s with st := (s.requeue slot).st } := by
  cases found : s.span? slot with
  | none => rw [requeue_absent found]
  | some sp => rw [requeue_live found live]; rfl

theorem requeue_setPair {s : State} (live : s.rc.expired = false) (slot : Nat) (p : Option PairContext) :
    (s.setPair p).requeue slot = (s.requeue slot).setPair p := by
  cases found : s.span? slot with
  | none => rw [requeue_absent found, requeue_absent (by exact found)]
  | some sp => rw [requeue_live found live, requeue_live (by exact found) (by exact live)]; rfl

/-- A span that has returned to its queue stands in it, QUEUED. -/
theorem requeue_queued {s : State} {slot : Nat} {sp : Span} (found : s.span? slot = some sp) (live : s.rc.expired = false) :
    (s.requeue slot).span? slot = some { sp with state := .queued } ∧
      slot ∈ (s.requeue slot).st.queues.get sp.source ∧ ∀ n, n ≠ slot → (s.requeue slot).span? n = s.span? n := by
  rw [requeue_live found live]
  refine ⟨span?_enter_self _ _ _, ?_, fun n other => span?_enter_other _ _ other⟩
  have queue : (s.enter slot { sp with state := .queued }).st.queues.get sp.source =
      queueInsert (putSlot s.st.slots slot { sp with state := .queued }) slot sp.seq
        (queueRemove slot (s.st.queues.get sp.source)) := PerSource.get_set_self _ _ _
  rw [queue]
  exact mem_queueInsert.mpr (.inl rfl)

/-- A move of another span leaves a slot's place in the queues. -/
theorem queue_enter_other {s : State} {slot n : Nat} (v : Span) (other : n ≠ slot) {src : Source}
    (listed : n ∈ s.st.queues.get src) : n ∈ (s.enter slot v).st.queues.get src := by
  have kept : n ∈ queueRemove slot (s.st.queues.get src) := mem_queueRemove.mpr ⟨listed, other⟩
  by_cases own : v.source = src
  · subst own
    have queue : (s.enter slot v).st.queues.get v.source =
        if v.state = .queued then queueInsert (putSlot s.st.slots slot v) slot v.seq
          (queueRemove slot (s.st.queues.get v.source)) else queueRemove slot (s.st.queues.get v.source) :=
      PerSource.get_set_self _ _ _
    rw [queue]
    split
    · exact mem_queueInsert.mpr (.inr kept)
    · exact kept
  · have queue : (s.enter slot v).st.queues.get src = s.st.queues.get src := PerSource.get_set_of_ne _ _ (Ne.symm own)
    rw [queue]
    exact listed

theorem requeue_others {s : State} {slot n : Nat} (live : s.rc.expired = false) (other : n ≠ slot) :
    (s.requeue slot).span? n = s.span? n ∧
      ∀ src, n ∈ s.st.queues.get src → n ∈ (s.requeue slot).st.queues.get src := by
  cases found : s.span? slot with
  | none => rw [requeue_absent found]; exact ⟨rfl, fun _ h => h⟩
  | some sp =>
    rw [requeue_live found live]
    exact ⟨span?_enter_other _ _ other, fun _ h => queue_enter_other _ other h⟩

/-! ### The start of a job, once more (R140) -/

/-- A lane has started a job on a span. -/
structure StartsJob (a : LaneUnit) (slot : Nat) (runId : Word16) (seq : Word32) (sp : Span) (b : LaneUnit) : Prop where
  state : b.state = .busy
  action : b.action = a.action
  cursor : b.dataCursor = a.dataCursor + 1 + (sp.count + 2047) / 2048
  deadSpace : b.deadSpace = a.deadSpace
  job : ∃ j, b.job = some (.span j) ∧ j.slot = slot ∧ j.runId = runId ∧ j.seq = seq ∧ j.started = true ∧
    j.first = a.dataCursor ∧ j.record = some sp

theorem startsJob {s : State} {slot : Nat} {sp : Span} (found : s.span? slot = some sp) (lane : Lane) (r : Word16)
    (q : Word32) : StartsJob (s.lane lane) slot r q sp ((s.startSpanJob lane slot r q).lane lane) := by
  have own : (s.startSpanJob lane slot r q).lane lane = _ := get_startSpanJob s lane slot r q
  have blocks : (s.startedJob lane slot r q).reserved = 1 + (sp.count + 2047) / 2048 := by
    simp only [State.startedJob, found]
    rfl
  rw [own]
  refine ⟨rfl, rfl, ?_, rfl, s.startedJob lane slot r q, rfl, rfl, rfl, rfl, rfl, rfl, found⟩
  rw [Nat.add_assoc]
  exact congrArg _ blocks

theorem startSpanJob_standsBy (s : State) (lane : Lane) (slot : Nat) (r : Word16) (q : Word32) :
    StandsBy s (s.startSpanJob lane slot r q) := by
  constructor <;> rw [startSpanJob_same]

theorem sendBurst_wire (s : State) (lane : Lane) (j : SpanJob) :
    ∃ f, (s.sendBurst lane j).wire = s.wire.set lane (s.wire.get lane ++ [f]) := ⟨_, rfl⟩

theorem startSpanJob_wire (s : State) (lane : Lane) (slot : Nat) (r : Word16) (q : Word32) :
    ∃ f, (s.startSpanJob lane slot r q).wire = s.wire.set lane (s.wire.get lane ++ [f]) := by
  have moved (f : LaneUnit → LaneUnit) : ((s.moveCursors lane f).setClaim lane none).wire = s.wire := by
    unfold State.moveCursors
    dsimp only
    split
    · exact (outside_setFlag _ _).wire
    · rfl
  rw [startSpanJob_eq]
  obtain ⟨f, wire⟩ := sendBurst_wire ((s.moveCursors lane fun a =>
    { a with
      state := .busy, job := some (.span (s.startedJob lane slot r q))
      dataCursor := (s.al.get lane).dataCursor + (s.startedJob lane slot r q).reserved }).setClaim lane none) lane
    (s.startedJob lane slot r q)
  exact ⟨f, by rw [wire, moved]⟩

theorem startSpanJob_wire_other (s : State) (lane : Lane) (slot : Nat) (r : Word16) (q : Word32) :
    (s.startSpanJob lane slot r q).wire.get lane.other = s.wire.get lane.other := by
  obtain ⟨f, wire⟩ := startSpanJob_wire s lane slot r q
  rw [wire]
  exact PerLane.get_set_other _ _ _

/-! ### A role that has ended (R101) -/

/-- The claim of a lane whose role has ended. -/
def State.roleClaim (s : State) (lane : Lane) : Option Claim :=
  if ((s.lane lane).state = .ready ∨ (s.lane lane).state = .parked) ∧ s.ds.claim.get lane = none then
    s.claimNow (s.lane lane)
  else s.ds.claim.get lane

theorem claims_iff (st : LaneState) : st.claims = true ↔ st = .ready ∨ st = .parked := by
  cases st <;> simp [LaneState.claims]

theorem roleEnded_claim {s : State} {lane : Lane} (pair : s.ds.pair = none) :
    (s.roleEnded lane).ds.claim.get lane = s.roleClaim lane := by
  unfold State.roleEnded State.roleClaim
  rw [placeClaim_of_none pair]
  by_cases places : ((s.lane lane).state = .ready ∨ (s.lane lane).state = .parked) ∧ s.ds.claim.get lane = none
  · rw [if_pos places, if_pos (by rw [Bool.and_eq_true, claims_iff, Option.isNone_iff_eq_none]; exact places)]
    exact PerLane.get_set_self _ _ _
  · rw [if_neg places, if_neg (by rw [Bool.and_eq_true, claims_iff, Option.isNone_iff_eq_none]; exact places)]

theorem moves_roleEnded (s : State) (lane : Lane) : Moves lane s (s.roleEnded lane) := by
  unfold State.roleEnded
  split
  · exact moves_placeClaim s lane
  · exact ⟨fun _ _ => rfl, fun _ _ => rfl, rfl⟩

theorem roleEnded_standsBy (s : State) (lane : Lane) : StandsBy s (s.roleEnded lane) := by
  have same := (roleEnded_same s lane).1
  constructor <;> rw [same]

theorem JobEnds.roleEnded {s u : State} {lane x : Lane} {a : LaneUnit} {claim : Option Claim} (h : JobEnds s u lane a claim)
    (other : lane ≠ x) : JobEnds s (u.roleEnded x) lane a claim := by
  have moves := moves_roleEnded u x
  have same := (roleEnded_same u x).1
  have own : (u.roleEnded x).lane lane = u.lane lane := moves.al _ other
  have claims := moves.claim _ other
  have wire : (u.roleEnded x).wire = u.wire := by rw [same]
  have owes : (u.roleEnded x).owes lane = u.owes lane := (roleEnded_standsBy u x).owes lane
  constructor
  · rw [own, claims, wire]; exact h.ready
  · rw [own, claims, wire, owes]; exact h.pause
  · rw [own, claims, wire]; exact h.park

/-! ### The leader's write ends unstarted (R121) -/

theorem nextLaneState_eq_afterJob {s : State} {lane : Lane} (pair : s.ds.pair = none) :
    s.nextLaneState lane = s.afterJob lane := by
  cases action : (s.lane lane).action with
  | none =>
    rw [nextLaneState_none pair action, afterJob_none (formingFollower_of_none pair) action, State.claimAfter, if_pos pair]
  | pause => rw [nextLaneState_pause action, afterJob_pause (formingFollower_of_none pair) action, State.pausedAt]
  | park => rw [nextLaneState_park pair action, afterJob_park action, formingFollower_of_none pair]; rfl

/-- The state with the pair dissolved and the leader's job gone. -/
def State.unstarted (s : State) (c : PairContext) : State := (s.dissolve c).setJob c.leader none

/-- What the dissolution leaves of the lanes and the scheduler. -/
structure Unstarted (s : State) (c : PairContext) (y : State) : Prop where
  al : y.al = s.al.set c.leader { s.lane c.leader with job := none }
  ds : y.ds = { s.ds with pair := none }
  wire : y.wire = s.wire
  now : y.now = s.now
  stands : s.rc.expired = false → StandsBy (s.requeue c.slot) y

theorem unstarted (s : State) (c : PairContext) : Unstarted s c (s.unstarted c) := by
  have out := outside_requeue (s.setPair none) c.slot
  refine ⟨?_, out.ds, out.wire, out.now, fun live => ?_⟩
  · rw [State.unstarted, State.setJob, State.onLane_eq, State.setAl_al, State.dissolve, out.al]
    rfl
  · rw [State.unstarted, State.dissolve, requeue_setPair live]
    exact ⟨rfl, rfl, rfl, rfl⟩

theorem PairContext.leader_ne (c : PairContext) : c.leader ≠ c.follower := (Lane.other_ne c.leader).symm

section Unstarted

variable {s : State} {c : PairContext} {y : State}

theorem Unstarted.leader (h : Unstarted s c y) : y.lane c.leader = { s.lane c.leader with job := none } := by
  rw [State.lane, h.al]
  exact PerLane.get_set_self _ _ _

theorem Unstarted.follower (h : Unstarted s c y) : y.lane c.follower = s.lane c.follower := by
  rw [State.lane, h.al]
  exact PerLane.get_set_other _ _ _

theorem Unstarted.pair (h : Unstarted s c y) : y.ds.pair = none := by rw [h.ds]

theorem Unstarted.quiet (h : Unstarted s c y) (lane : Lane) : y.formingFollower lane = false :=
  formingFollower_of_none h.pair

theorem Unstarted.owes (h : Unstarted s c y) (live : s.rc.expired = false) (lane : Lane) : y.owes lane = s.owes lane := by
  rw [(h.stands live).owes, requeue_live_only live c.slot]
  rfl

end Unstarted

/-- A follower has been lost to a pair that was forming. -/
structure Lost (s : State) (c : PairContext) (u : State) : Prop where
  pair : u.ds.pair = none
  follower : u.lane c.follower = s.lane c.follower
  wire : u.wire.get c.follower = s.wire.get c.follower
  claim : u.ds.claim.get c.follower = s.roleClaim c.follower

/-- The leader's write has ended unstarted, its span gone back to its queue. -/
structure Returns (s : State) (c : PairContext) (u : State) : Prop where
  ends : JobEnds s u c.leader { s.lane c.leader with job := none } (s.claimNow (s.lane c.leader))
  stands : s.rc.expired = false → (s.lane c.leader).action ≠ .pause ∨ s.owes c.leader = false →
    StandsBy (s.requeue c.slot) u
  missed : s.rc.expired = false → (s.lane c.leader).action = .pause → s.owes c.leader = true →
    ∃ w, StandsBy (s.requeue c.slot) w ∧ u.st = (w.blockMissed c.leader).st ∧ u.nu.isPending .indexMissed = true

/-- The leader's write goes on singly. -/
structure Singly (s : State) (c : PairContext) (u : State) : Prop where
  stands : StandsBy s u
  starts : ∀ sp, s.span? c.slot = some sp →
    StartsJob (s.lane c.leader) c.slot c.runId c.seq sp (u.lane c.leader)

theorem roleClaim_congr {s t : State} {lane : Lane} (own : t.lane lane = s.lane lane) (claim : t.ds.claim.get lane = s.ds.claim.get lane)
    (now : t.now = s.now) : t.roleClaim lane = s.roleClaim lane := by
  unfold State.roleClaim State.claimNow
  rw [own, claim, now]

/-- The end of the follower's role leaves the rest. -/
theorem Lost.of_roleEnded {s : State} {c : PairContext} {t : State} (pair : t.ds.pair = none)
    (follower : t.lane c.follower = s.lane c.follower) (wire : t.wire.get c.follower = s.wire.get c.follower)
    (claim : t.ds.claim.get c.follower = s.ds.claim.get c.follower) (now : t.now = s.now) :
    Lost s c (t.roleEnded c.follower) := by
  have same := (roleEnded_same t c.follower).1
  refine ⟨(moves_roleEnded t c.follower).pair.trans pair, ?_, ?_, ?_⟩
  · rw [same]; exact follower
  · rw [same]; exact wire
  · rw [roleEnded_claim pair, roleClaim_congr follower claim now]

theorem JobEnds.wire_other {s u : State} {lane : Lane} {a : LaneUnit} {claim : Option Claim} (h : JobEnds s u lane a claim) :
    u.wire.get lane.other = s.wire.get lane.other := by
  cases action : a.action with
  | none => rw [(h.ready action).2.2]
  | pause => rw [(h.pause action).2.2.2]
  | park =>
    rw [(h.park action).2.2]
    exact PerLane.get_set_other _ _ _

theorem afterJob_now {s : State} {lane : Lane} (quiet : s.formingFollower lane = false) : (s.afterJob lane).now = s.now := by
  cases action : (s.lane lane).action with
  | none => rw [afterJob_none quiet action]; rfl
  | pause => rw [afterJob_pause quiet action]; exact (outside_blockMissed _ lane).now
  | park => rw [afterJob_park action]

/-- The leader's pair write ends with nothing reserved. -/
theorem endUnstarted_spec (s : State) (c : PairContext) :
    Lost s c ((s.endUnstarted c).roleEnded c.follower) ∧ Returns s c ((s.endUnstarted c).roleEnded c.follower) := by
  have left := unstarted s c
  have step : s.endUnstarted c = (s.unstarted c).afterJob c.leader := nextLaneState_eq_afterJob left.pair
  have quiet := left.quiet c.leader
  have moves := moves_afterJob quiet
  have ends : JobEnds s ((s.unstarted c).afterJob c.leader) c.leader { s.lane c.leader with job := none }
      (s.claimNow (s.lane c.leader)) := by
    have job := afterJob_ends quiet
    have claim : (s.unstarted c).claimAfter c.leader = s.claimNow (s.lane c.leader) := by
      rw [State.claimAfter, if_pos left.pair, State.claimNow, left.leader, left.now]
      rfl
    rw [left.leader, claim] at job
    exact job.congr left.wire
  rw [step]
  refine ⟨.of_roleEnded (moves.pair.trans left.pair) (moves.other.trans left.follower) ends.wire_other
    (moves.otherClaim.trans (by rw [left.ds]; rfl)) ((afterJob_now quiet).trans left.now), ends.roleEnded c.leader_ne,
    fun live free => ?_, fun live action owes => ?_⟩
  · have alone := afterJob_alone quiet (by rw [left.leader, left.owes live]; exact free.symm)
    exact (left.stands live).trans (alone.standsBy.trans (roleEnded_standsBy _ _))
  · have pauses : ((s.unstarted c).lane c.leader).action = .pause := by rw [left.leader]; exact action
    refine ⟨(s.unstarted c).pausedAt c.leader, (left.stands live).trans ⟨rfl, rfl, rfl, rfl⟩, ?_, ?_⟩
    · rw [(roleEnded_standsBy _ _).st, afterJob_pause quiet pauses]
    · have owes' : (s.unstarted c).owes c.leader = true := by rw [left.owes live]; exact owes
      exact (within_roleEnded _ _).kept.flags _ (afterJob_missed pauses owes')

/-- The leader writes the span singly. -/
theorem startSingly_spec (s : State) (c : PairContext) :
    Lost s c ((s.startSingly c).roleEnded c.follower) ∧ Singly s c ((s.startSingly c).roleEnded c.follower) := by
  have moves := moves_startSpanJob (s.setPair none) c.leader c.slot c.runId c.seq
  have now : (s.startSingly c).now = s.now := by
    rw [State.startSingly, startSpanJob_same]
    rfl
  refine ⟨.of_roleEnded moves.pair moves.other (startSpanJob_wire_other _ _ _ _ _) moves.otherClaim now, ?_, fun sp found => ?_⟩
  · exact (StandsBy.mk rfl rfl rfl rfl : StandsBy s (s.setPair none)).trans
      ((startSpanJob_standsBy _ _ _ _ _).trans (roleEnded_standsBy _ _))
  · have own : ((s.startSingly c).roleEnded c.follower).lane c.leader = (s.startSingly c).lane c.leader :=
      (moves_roleEnded _ _).al _ c.leader_ne
    rw [own]
    exact startsJob (s := s.setPair none) found c.leader c.runId c.seq

/-! ### The follower is lost (R120 to R122) -/

theorem setChoices_lost {s : State} {c : PairContext} {n : Nat} {u : State} (h : Lost (s.setChoices n) c u) : Lost s c u :=
  ⟨h.pair, h.follower, h.wire, h.claim⟩

theorem requeue_setChoices {s : State} (live : s.rc.expired = false) (n slot : Nat) :
    (s.setChoices n).requeue slot = (s.requeue slot).setChoices n := by
  cases found : s.span? slot with
  | none => rw [requeue_absent found, requeue_absent (by exact found)]
  | some sp => rw [requeue_live found live, requeue_live (by exact found) (by exact live)]; rfl

theorem setChoices_returns {s : State} {c : PairContext} {n : Nat} {u : State} (h : Returns (s.setChoices n) c u) :
    Returns s c u := by
  have same (live : s.rc.expired = false) : StandsBy (s.requeue c.slot) ((s.setChoices n).requeue c.slot) := by
    rw [requeue_setChoices live]
    exact ⟨rfl, rfl, rfl, rfl⟩
  refine ⟨h.ends.congr rfl, fun live free => (same live).trans (h.stands live free), fun live action owes => ?_⟩
  obtain ⟨w, stands, st, flag⟩ := h.missed live action owes
  exact ⟨w, (same live).trans stands, st, flag⟩

theorem setChoices_singly {s : State} {c : PairContext} {n : Nat} {u : State} (h : Singly (s.setChoices n) c u) :
    Singly s c u := ⟨⟨h.stands.st, h.stands.iu, h.stands.rc, h.stands.ci⟩, h.starts⟩

/-- What becomes of a pair whose follower is lost, by the policy of its span. -/
structure FollowerLost (s : State) (c : PairContext) (u : State) : Prop where
  lost : Lost s c u
  strict : s.pairPolicy c = .strict → Returns s c u
  degrade : s.pairPolicy c = .degrade →
    ((s.lane c.leader).action = .none → Singly s c u) ∧ (Singly s c u ∨ (s.lane c.leader).action ≠ .none ∧ Returns s c u)

theorem followerLost_spec (s : State) (c : PairContext) : FollowerLost s c (s.followerLost c) := by
  unfold State.followerLost
  dsimp only
  cases policy : s.pairPolicy c with
  | strict =>
    obtain ⟨lost, returns⟩ := endUnstarted_spec s c
    exact ⟨lost, fun _ => returns, fun k => by rw [policy] at k; cases k⟩
  | degrade =>
    have other (k : s.pairPolicy c = .strict) : Returns s c ((s.convert c).roleEnded c.follower) := by
      rw [policy] at k
      cases k
    unfold State.convert at other ⊢
    by_cases none : (s.lane c.leader).action = .none
    · rw [if_pos none] at other ⊢
      obtain ⟨lost, singly⟩ := startSingly_spec s c
      exact ⟨lost, other, fun _ => ⟨fun _ => singly, .inl singly⟩⟩
    · rw [if_neg none] at other ⊢
      dsimp only at other ⊢
      by_cases ends : Config.conversionEndsJob s.choices = true
      · rw [if_pos ends] at other ⊢
        obtain ⟨lost, returns⟩ := endUnstarted_spec (s.setChoices (s.choices + 1)) c
        exact ⟨setChoices_lost lost, other, fun _ => ⟨fun k => absurd k none, .inr ⟨none, setChoices_returns returns⟩⟩⟩
      · rw [if_neg ends] at other ⊢
        obtain ⟨lost, singly⟩ := startSingly_spec (s.setChoices (s.choices + 1)) c
        exact ⟨setChoices_lost lost, other, fun _ => ⟨fun k => absurd k none, .inl (setChoices_singly singly)⟩⟩

theorem FollowerLost.returns_or_singly {s : State} {c : PairContext} {u : State} (h : FollowerLost s c u) :
    Returns s c u ∨ Singly s c u := by
  cases policy : s.pairPolicy c with
  | strict => exact .inl (h.strict policy)
  | degrade => exact ((h.degrade policy).2.imp_right fun k => k.2).symm

/-- With no PAUSE pending on the leader, before the stop deadline, only the pair's own span moves. -/
theorem FollowerLost.stands {s : State} {c : PairContext} {u : State} (h : FollowerLost s c u) (live : s.rc.expired = false)
    (action : (s.lane c.leader).action ≠ .pause) : StandsBy (s.requeue c.slot) u ∨ StandsBy s u := by
  obtain returns | singly := h.returns_or_singly
  · exact .inl (returns.stands live (.inl action))
  · exact .inr singly.stands

end Sys2Proof.Machine

/-! A block missed, a job cancelled, and a lane that leaves its duty (R144, R145, R152, R153, R161, R162). -/

namespace Sys2Proof.Machine

/-! ### A block missed by a lane (R162) -/

/-- The state with a lane's block missed. -/
def State.missedBlock (s : State) (w : Writing) (lane : Lane) : State := (s.setDuty w lane .missed).setFlag .indexMissed

theorem missedBlock_iu (s : State) (w : Writing) (lane : Lane) :
    (s.missedBlock w lane).iu = { s.iu with writing := some { w with duty := w.duty.set lane .missed } } :=
  setFlag_iu _ _

theorem missedBlock_al (s : State) (w : Writing) (lane : Lane) : (s.missedBlock w lane).al = s.al := setFlag_al _ _

theorem missedBlock_rest (s : State) (w : Writing) (lane : Lane) :
    (s.missedBlock w lane).st = s.st ∧ (s.missedBlock w lane).rc = s.rc ∧ (s.missedBlock w lane).ci = s.ci :=
  ⟨setFlag_st _ _, setFlag_rc _ _, setFlag_ci _ _⟩

/-- The counters and the end of the run after a block that one lane missed, by whether the other one wrote it. -/
structure MissedEnds (s : State) (w : Writing) (lane : Lane) (u : State) : Prop where
  goes : (s.buffer w.buffer).final = false →
    u.rc = { s.rc with counters := { s.rc.counters with
      checkpointsWritten := s.rc.counters.checkpointsWritten + if w.duty.get lane.other = .written then 1 else 0 } }
  ends : (s.buffer w.buffer).final = true →
    u.rc = { s.rc with
      counters := { s.rc.counters with
        checkpointsWritten := s.rc.counters.checkpointsWritten + if w.duty.get lane.other = .written then 1 else 0 }
      runState := .idle
      lastEnd := if ¬ w.duty.get lane.other = .written then .indexUnwritten
        else if s.rc.nextSeq = .exhausted then .sequenceExhausted else .complete } ∧
    u.nu.isPending .runEnded = true

theorem BlockEnded.missed {s : State} {w : Writing} {lane : Lane} {u : State}
    (h : BlockEnded s { w with duty := w.duty.set lane .missed } u) : MissedEnds s w lane u := by
  have counters : s.blockCounters ({ w with duty := w.duty.set lane .missed } : Writing).someWritten =
      { s.rc.counters with
        checkpointsWritten := s.rc.counters.checkpointsWritten + if w.duty.get lane.other = .written then 1 else 0 } := by
    rw [someWritten_missed, State.blockCounters]
    simp only [decide_eq_true_eq]
  have cause : (if ({ w with duty := w.duty.set lane .missed } : Writing).someWritten then s.rc.provisional else
      EndCause.indexUnwritten) = if ¬ w.duty.get lane.other = .written then .indexUnwritten
        else if s.rc.nextSeq = .exhausted then .sequenceExhausted else .complete := by
    rw [someWritten_missed]
    by_cases written : w.duty.get lane.other = .written
    · rw [if_pos (decide_eq_true written), if_neg (not_not.mpr written)]
      rfl
    · rw [if_neg (by simpa using written), if_pos written]
  refine ⟨fun goes => ?_, fun final => ?_⟩
  · rw [h.goes goes, counters]
  · obtain ⟨rc, flag, -⟩ := h.ends final
    exact ⟨by rw [rc, counters, cause], flag⟩

theorem MissedEnds.congr {s : State} {w : Writing} {lane : Lane} {t u : State} (h : MissedEnds s w lane t) (rc : u.rc = t.rc)
    (flags : ∀ f, t.nu.isPending f = true → u.nu.isPending f = true) : MissedEnds s w lane u := by
  refine ⟨fun goes => rc.trans (h.goes goes), fun final => ?_⟩
  obtain ⟨same, flag⟩ := h.ends final
  exact ⟨rc.trans same, flags _ flag⟩

/-- Nothing waits for a buffer. -/
structure NothingWaits (s : State) : Prop where
  spans : s.iu.waitSpans = []
  gaps : ∀ src, (s.intake src).offeredGap = none
  runEnd : s.iu.waitRunEnd = none

/-- A block missed by a lane, as far as the other lane's duty decides it. -/
structure IndexMissed (s : State) (lane : Lane) (w : Writing) (t : State) : Prop where
  missed : t.nu.isPending .indexMissed = true
  waits : w.duty.get lane.other = .owed →
    t.iu = { s.iu with writing := some { w with duty := w.duty.set lane .missed } }
  flag : w.duty.get lane.other ≠ .owed → t.nu.isPending .checkpointDone = true
  done : w.duty.get lane.other ≠ .owed → (s.buffer w.buffer.other).state ≠ .closed → NothingWaits s →
    t.iu = { s.iu with
        buffers := s.iu.buffers.set w.buffer { state := .empty, entries := [], final := false }
        writing := none, blockSeq := s.iu.blockSeq + 1 } ∧
      MissedEnds s w lane t
  next : w.duty.get lane.other ≠ .owed → (s.buffer w.buffer.other).state = .closed → NothingWaits s →
    ((s.lane .l0).state.duty = .owed ∨ (s.lane .l1).state.duty = .owed) →
    t.iu = s.nextWriting w ∧ MissedEnds s w lane t

theorem indexMissed {s v : State} {lane : Lane} (states : ∀ l, (v.lane l).state = (s.lane l).state) (stands : StandsBy s v)
    {w : Writing} (writing : s.iu.writing = some w) (owed : w.duty.get lane = .owed) :
    IndexMissed s lane w (v.blockMissed lane) := by
  rw [blockMissed_of_owed (by rw [stands.iu]; exact writing) owed]
  change IndexMissed s lane w ((v.missedBlock w lane).does [.progress])
  have iu : (v.missedBlock w lane).iu = { s.iu with writing := some { w with duty := w.duty.set lane .missed } } := by
    rw [missedBlock_iu, stands.iu]
  obtain ⟨-, rc, ci⟩ := missedBlock_rest v w lane
  have rc' : (v.missedBlock w lane).rc = s.rc := rc.trans stands.rc
  have ci' : (v.missedBlock w lane).ci = s.ci := ci.trans stands.ci
  have missing : (v.missedBlock w lane).iu.writing = some { w with duty := w.duty.set lane .missed } := by rw [iu]
  have settled (other : w.duty.get lane.other ≠ .owed) :=
    settled_set (w := w) (lane := lane) (d := .missed) other Duty.noConfusion
  have buffers (n : BufferName) : (v.missedBlock w lane).buffer n = s.buffer n := by
    rw [State.buffer, iu]
    rfl
  have lanes (l : Lane) : ((v.missedBlock w lane).lane l).state = (s.lane l).state := by
    rw [State.lane, missedBlock_al]
    exact states l
  have ended := (blockEnded (v.missedBlock w lane) { w with duty := w.duty.set lane .missed }).congr (s := s)
    (by rw [iu]) rc' ci'
  refine ⟨does_flag (by decide) rfl (setFlag_pending _ _), fun other => ?_,
    fun other => progress_flag missing (settled other), fun other closed nothing => ?_, fun other closed nothing some => ?_⟩
  · rw [does_progress_owed [] missing (owed_set _ other), does_nil, iu]
  · rw [progress_done missing (settled other) (by rw [buffers]; exact closed) (by rw [iu]; exact nothing.spans)
      (fun src => by rw [State.intake, ci']; exact nothing.gaps src) (by rw [iu]; exact nothing.runEnd)]
    refine ⟨?_, ended.missed⟩
    rw [blockDone_iu, iu]
  · have next := nextWriting_iu (v.missedBlock w lane) { w with duty := w.duty.set lane .missed }
    have none : (((v.missedBlock w lane).blockDone { w with duty := w.duty.set lane .missed }).becomeWriting
        w.buffer.other).nextWaiting = none := by
      refine nextWaiting_none ?_ (fun src => ?_) ?_
      · rw [next, State.nextWriting, iu]; exact nothing.spans
      · rw [State.intake, becomeWriting_ci]
        refine (blockDone_offered _ _ src).trans ?_
        rw [State.intake, ci']
        exact nothing.gaps src
      · rw [next, State.nextWriting, iu]; exact nothing.runEnd
    rw [progress_next missing (settled other) (by rw [buffers]; exact closed) (by rw [lanes, lanes]; exact some),
      does_refill_none [] (.inr none), does_nil]
    refine ⟨?_, ?_⟩
    · rw [next, State.nextWriting, State.nextWriting, lanes, lanes, buffers, iu]
    · refine ended.missed.congr (becomeWriting_rc _ _) fun f set => ?_
      rw [becomeWriting_eq]
      split
      · exact (within_setFlag _ _).kept.flags _ set
      · exact set

/-! ### A job cancelled (R144) -/

/-- The reports of a write's end leave the lanes and the links. -/
theorem reportOutcome_still (s : State) (lane : Lane) (j : SpanJob) (o : Outcome) (address : Nat) :
    (s.reportOutcome lane j o address).al = s.al ∧ (s.reportOutcome lane j o address).wire = s.wire := by
  have single (x : State) : (x.applySingle j.slot lane o address).al = x.al ∧
      (x.applySingle j.slot lane o address).wire = x.wire :=
    ⟨(outside_applySingle x j.slot lane o address).al, (outside_applySingle x j.slot lane o address).wire⟩
  have pair (x : State) (c : PairContext) : (x.pairOutcome c lane o address).al = x.al ∧
      (x.pairOutcome c lane o address).wire = x.wire := by
    have copied : Outside x (if o = .done then
        x.onSpan c.slot fun sp => sp.addCopy { lane := lane, address := address } else x) := by
      split
      · exact outside_onSpan _ _ _
      · exact .refl x
    unfold State.pairOutcome
    split
    · dsimp only
      split
      · exact ⟨copied.al, copied.wire⟩
      · have closes := closes_closePair ((if o = .done then
          x.onSpan c.slot fun sp => sp.addCopy { lane := lane, address := address } else x).setPair
            (some { c with outcome := c.outcome.set lane o.inPair })) { c with outcome := c.outcome.set lane o.inPair }
        exact ⟨closes.al.trans copied.al, closes.wire.trans copied.wire⟩
    · exact ⟨rfl, rfl⟩
  have write : (s.reportWrite lane j o address).al = s.al ∧ (s.reportWrite lane j o address).wire = s.wire := by
    unfold State.reportWrite
    split
    · exact ⟨rfl, rfl⟩
    · next sp _ =>
      dsimp only
      split
      · split
        · exact pair (s.setSpan j.slot (sp.noteOutcome o)) _
        · exact single (s.setSpan j.slot (sp.noteOutcome o))
      · exact single (s.setSpan j.slot (sp.noteOutcome o))
  unfold State.reportOutcome
  split
  · next c _ =>
    split
    · have noted := outside_onSpan s c.slot fun sp => sp.noteOutcome o
      have closes := closes_rolesEnded (outside_requeue ((s.onSpan c.slot fun sp => sp.noteOutcome o).setPair none) c.slot)
      exact ⟨closes.al.trans noted.al, closes.wire.trans noted.wire⟩
    · exact write
  · exact write

/-- The blocks a lane's job has reserved. -/
def LaneUnit.reservedBlocks (a : LaneUnit) : Nat :=
  match a.job with
  | some (.span j) => j.reserved
  | _ => 0

/-- The CANCEL that a lane's job is given up with. -/
def LaneUnit.cancels (a : LaneUnit) : List LaneFrame :=
  if a.job.isSome && a.timer.isSome then [.cancel a.burstTag] else []

/-- The lane without its job. -/
def LaneUnit.dropped (a : LaneUnit) (dead : Nat) : LaneUnit :=
  { a with job := none, timer := none, deadSpace := a.deadSpace + dead }

/-- The state with a lane's job given up, before it is reported. -/
def State.givesUp (s : State) (lane : Lane) (dead : Nat) : State := (s.sendCancel lane).dropJob lane dead

theorem givesUp_eq (s : State) (lane : Lane) (dead : Nat) :
    s.givesUp lane dead =
      { s.withLane lane ((s.lane lane).dropped dead) with wire := (s.givesUp lane dead).wire } := by
  unfold State.givesUp State.sendCancel
  split <;> rfl

theorem givesUp_wire {s : State} {lane : Lane} {job : Job} (has : (s.lane lane).job = some job) (dead : Nat) :
    (s.givesUp lane dead).wire.get lane = s.wire.get lane ++ (s.lane lane).cancels := by
  unfold State.givesUp State.sendCancel LaneUnit.cancels
  rw [has]
  simp only [Option.isSome_some, Bool.true_and]
  split
  · exact PerLane.get_set_self _ _ _
  · exact (List.append_nil _).symm

theorem givesUp_alike (s : State) (lane : Lane) (dead : Nat) :
    Alike (s.withLane lane ((s.lane lane).dropped dead)) (s.givesUp lane dead) :=
  ⟨s.clp, s.nu, (s.givesUp lane dead).wire, givesUp_eq s lane dead⟩

theorem cancelJob_span {s : State} {lane : Lane} {j : SpanJob} (job : (s.lane lane).job = some (.span j)) :
    s.cancelJob lane = (s.givesUp lane j.reserved).reportOutcome lane j .cancelled 0 := by
  rw [State.cancelJob, job]
  rfl

theorem cancelJob_index {s : State} {lane : Lane} {j : IndexJob} (job : (s.lane lane).job = some (.index j)) :
    s.cancelJob lane = (s.givesUp lane 0).blockMissed lane := by
  rw [State.cancelJob, job]
  rfl

theorem cancelJob_none {s : State} {lane : Lane} (job : (s.lane lane).job = none) : s.cancelJob lane = s := by
  rw [State.cancelJob, job]

/-- What is left of a lane whose job is cancelled. -/
structure Cancels (s : State) (lane : Lane) (t : State) : Prop where
  own : (t.lane lane).cleared = ((s.lane lane).dropped (s.lane lane).reservedBlocks).cleared
  other : t.lane lane.other = s.lane lane.other
  wire : t.wire.get lane = s.wire.get lane ++ (s.lane lane).cancels

theorem Cancels.of_givesUp {s : State} {lane : Lane} {job : Job} (has : (s.lane lane).job = some job) {t : State}
    (al : t.al = (s.givesUp lane (s.lane lane).reservedBlocks).al)
    (wire : t.wire = (s.givesUp lane (s.lane lane).reservedBlocks).wire) : Cancels s lane t := by
  have unit : t.al = s.al.set lane ((s.lane lane).dropped (s.lane lane).reservedBlocks) := by
    rw [al, givesUp_eq]
    rfl
  refine ⟨?_, ?_, ?_⟩
  · rw [State.lane, unit, PerLane.get_set_self]
  · rw [State.lane, unit]
    exact PerLane.get_set_other _ _ _
  · rw [wire, givesUp_wire has]

theorem cancels (s : State) (lane : Lane) : Cancels s lane (s.cancelJob lane) := by
  cases job : (s.lane lane).job with
  | none =>
    rw [cancelJob_none job]
    refine ⟨?_, rfl, ?_⟩
    · unfold LaneUnit.dropped LaneUnit.reservedBlocks LaneUnit.cleared
      rw [job]
      rfl
    · rw [LaneUnit.cancels, job]
      exact (List.append_nil _).symm
  | some k =>
    cases k with
    | span j =>
      have dead : (s.lane lane).reservedBlocks = j.reserved := by rw [LaneUnit.reservedBlocks, job]
      obtain ⟨al, wire⟩ := reportOutcome_still (s.givesUp lane j.reserved) lane j .cancelled 0
      rw [cancelJob_span job]
      exact .of_givesUp job (by rw [dead]; exact al) (by rw [dead]; exact wire)
    | index j =>
      have dead : (s.lane lane).reservedBlocks = 0 := by rw [LaneUnit.reservedBlocks, job]
      have out := outside_blockMissed (s.givesUp lane 0) lane
      rw [cancelJob_index job]
      exact .of_givesUp job (by rw [dead]; exact out.al) (by rw [dead]; exact out.wire)

/-! ### A lane that leaves its duty (R136, R152, R153) -/

/-- A lane has left its duty by LANE RESET or LANE OFFLINE, its block not yet missed. -/
structure LeavesDuty (t v : State) (lane : Lane) : Prop where
  stands : StandsBy t v
  moves : Moves lane t v
  off : (v.lane lane).state.duty = .off
  silent : (v.lane lane).state.claims = false
  noClaim : v.ds.claim.get lane = none
  flags : ∀ f, t.nu.isPending f = true → v.nu.isPending f = true

/-- The state LANE RESET leaves, its block not yet missed. -/
def State.resets (s : State) (lane : Lane) : State :=
  ((s.cancelJob lane).onLane lane fun a => { a.cleared with failures := 0 }).bringsUp lane

/-- The state LANE OFFLINE leaves, its block not yet missed. -/
def State.goesDown (s : State) (lane : Lane) : State :=
  (((s.cancelJob lane).onLane lane LaneUnit.cleared).leaveTo lane .down).setFlag (laneChangeFlag lane)

theorem laneReset_eq (lane : Lane) (s : State) :
    State.laneReset lane s = (((s.resets lane).blockMissed lane).checkFollower lane).evaluate := by
  unfold State.laneReset State.resets
  dsimp only
  rw [enterBringup_eq]

theorem laneOffline_eq {lane : Lane} {s : State} (up : (s.lane lane).state ≠ .down) :
    State.laneOffline lane s = (((s.goesDown lane).blockMissed lane).checkFollower lane).evaluate := if_neg up

theorem leavesDuty_resets (s : State) (lane : Lane) : LeavesDuty (s.cancelJob lane) (s.resets lane) lane where
  stands := ⟨rfl, rfl, rfl, rfl⟩
  moves := (moves_onLane _ lane _).trans
    ⟨fun m other => by cases lane <;> cases m <;> first | rfl | exact absurd rfl other,
      fun m other => by cases lane <;> cases m <;> first | rfl | exact absurd rfl other, rfl⟩
  off := by rw [State.resets, State.bringsUp, State.lane, PerLane.get_set_self]; rfl
  silent := by rw [State.resets, State.bringsUp, State.lane, PerLane.get_set_self]; rfl
  noClaim := PerLane.get_set_self _ _ _
  flags _ h := h

theorem goesDown_unit (s : State) (lane : Lane) :
    (s.goesDown lane).lane lane = { ((s.cancelJob lane).lane lane).cleared with state := .down } := by
  rw [State.goesDown, State.lane_eq, setFlag_al, get_leaveTo, get_onLane]
  rfl

theorem leavesDuty_goesDown (s : State) (lane : Lane) : LeavesDuty (s.cancelJob lane) (s.goesDown lane) lane where
  stands := (StandsBy.mk rfl rfl rfl rfl : StandsBy (s.cancelJob lane)
    (((s.cancelJob lane).onLane lane LaneUnit.cleared).leaveTo lane .down)).trans (standsBy_setFlag _ _)
  moves := ((moves_onLane _ lane _).trans (moves_leaveTo _ lane _)).trans ((outside_setFlag _ _).moves lane)
  off := by rw [goesDown_unit]; rfl
  silent := by rw [goesDown_unit]; rfl
  noClaim := by rw [State.goesDown, setFlag_ds]; exact claim_leaveTo _ _ _
  flags f h := (within_setFlag _ _).kept.flags f h

/-- The check of a FORMING pair leaves a lane that does not claim. -/
structure OwnKept (lane : Lane) (z u : State) : Prop where
  own : u.lane lane = z.lane lane
  wire : u.wire.get lane = z.wire.get lane
  claim : u.ds.claim.get lane = z.ds.claim.get lane
  mem : u.mem = z.mem
  flags : ∀ f, z.nu.isPending f = true → u.nu.isPending f = true

theorem roleClaim_silent {s : State} {lane : Lane} (silent : (s.lane lane).state.claims = false) :
    s.roleClaim lane = s.ds.claim.get lane := by
  refine if_neg fun places => ?_
  rw [(claims_iff _).mpr places.1] at silent
  exact Bool.noConfusion silent

theorem checkFollower_own {z : State} {lane : Lane} (silent : (z.lane lane).state.claims = false) :
    OwnKept lane z (z.checkFollower lane) := by
  have kept := (within_checkFollower z lane).kept
  have forming : (z.checkFollower lane).lane lane = z.lane lane ∧
      (z.checkFollower lane).wire.get lane = z.wire.get lane ∧
      (z.checkFollower lane).ds.claim.get lane = z.ds.claim.get lane := by
    unfold State.checkFollower
    split
    · next c _ =>
      split
      · next named =>
        obtain ⟨-, own, wire, claim⟩ := (followerLost_spec z c).lost
        rw [named.2] at own wire claim
        exact ⟨own, wire, claim.trans (roleClaim_silent silent)⟩
      · exact ⟨rfl, rfl, rfl⟩
    · exact ⟨rfl, rfl, rfl⟩
  exact ⟨forming.1, forming.2.1, forming.2.2, kept.mem, kept.flags⟩

theorem LeavesDuty.own {t v : State} {lane : Lane} (h : LeavesDuty t v lane) :
    OwnKept lane v ((v.blockMissed lane).checkFollower lane) := by
  have out := outside_blockMissed v lane
  have same : (v.blockMissed lane).lane lane = v.lane lane := by rw [State.lane, out.al]; rfl
  have check := checkFollower_own (z := v.blockMissed lane) (by rw [same]; exact h.silent)
  exact ⟨check.own.trans same, check.wire.trans (by rw [out.wire]), check.claim.trans (by rw [out.ds]),
    check.mem.trans out.mem, fun f set => check.flags f ((within_blockMissed v lane).kept.flags f set)⟩

end Sys2Proof.Machine

/-! LANE RESET and LANE OFFLINE: what their effect is on the lane, on its job's span, on its pair and on its block (R144, R145, R152, R153). -/

namespace Sys2Proof.Machine

/-- The block of a lane that leaves its duty is missed, and a pair that named it follower loses it. -/
def State.offDuty (s : State) (lane : Lane) : State := (s.blockMissed lane).checkFollower lane

/-- A command on a lane up takes it off its duty. -/
def TakesOffDuty (row : Instr) (s b : State) (lane : Lane) : Prop :=
  ∃ v, LeavesDuty (b.cancelJob lane) v lane ∧ exec row s = .next (v.offDuty lane).evaluate

section Rows

variable {s : State} {f : CmdFrame} {rest : List CmdFrame} {lane : Lane}

theorem exec_laneReset (received : Receives s 0x41 f rest) (payload : f.payload = [BitVec.ofNat 8 lane.num])
    (up : (s.lane lane).state ≠ .down) :
    exec .laneReset s = .next (((s.answered f rest .ok []).resets lane).offDuty lane).evaluate := by
  rw [exec_laneTaken (c := laneResetCommand) (allowed := fun st => st != .down) rfl received payload rfl rfl rfl rfl
    (by simpa using up), laneReset_eq]
  rfl

theorem exec_laneOffline (received : Receives s 0x42 f rest) (payload : f.payload = [BitVec.ofNat 8 lane.num]) :
    exec .laneOffline s = .next (State.laneOffline lane (s.answered f rest .ok [])) :=
  exec_laneTaken (c := laneOfflineCommand) (allowed := fun _ => true) rfl received payload rfl rfl rfl rfl rfl

theorem exec_laneOffline_up (received : Receives s 0x42 f rest) (payload : f.payload = [BitVec.ofNat 8 lane.num])
    (up : (s.lane lane).state ≠ .down) :
    exec .laneOffline s = .next (((s.answered f rest .ok []).goesDown lane).offDuty lane).evaluate := by
  rw [exec_laneOffline received payload, laneOffline_eq (by exact up)]
  rfl

theorem takesOffDuty {row : Instr} (payload : f.payload = [BitVec.ofNat 8 lane.num]) (up : (s.lane lane).state ≠ .down)
    (h : row = .laneReset ∧ Receives s 0x41 f rest ∨ row = .laneOffline ∧ Receives s 0x42 f rest) :
    TakesOffDuty row s (s.answered f rest .ok []) lane := by
  obtain ⟨rfl, received⟩ | ⟨rfl, received⟩ := h
  · exact ⟨_, leavesDuty_resets _ _, exec_laneReset received payload up⟩
  · exact ⟨_, leavesDuty_goesDown _ _, exec_laneOffline_up received payload up⟩

end Rows

/-! ### The lane itself -/

/-- A lane that LANE RESET brings up. -/
def LaneUnit.resetUp (a : LaneUnit) : LaneUnit := ({ a.cleared with failures := 0 } : LaneUnit).broughtUp

theorem resets_bringsUp (s : State) (lane : Lane) :
    (s.resets lane).lane lane = ((s.cancelJob lane).lane lane).resetUp ∧
      (s.resets lane).wire.get lane =
        (s.cancelJob lane).wire.get lane ++ [.hello (((s.cancelJob lane).lane lane).burstTag + 1)] := by
  have own : ((s.cancelJob lane).onLane lane fun a => { a.cleared with failures := 0 }).lane lane =
      { ((s.cancelJob lane).lane lane).cleared with failures := 0 } := get_onLane _ _ _
  unfold State.resets State.bringsUp
  rw [own]
  exact ⟨PerLane.get_set_self _ _ _, PerLane.get_set_self _ _ _⟩

theorem resetUp_congr {a b : LaneUnit} (h : a.cleared = b.cleared) : a.resetUp = b.resetUp := by
  unfold LaneUnit.resetUp
  rw [h]

theorem resets_unit (s : State) (lane : Lane) :
    (s.resets lane).lane lane = ((s.lane lane).dropped (s.lane lane).reservedBlocks).resetUp :=
  (resets_bringsUp s lane).1.trans (resetUp_congr (cancels s lane).own)

theorem resets_wire (s : State) (lane : Lane) :
    (s.resets lane).wire.get lane =
      s.wire.get lane ++ (s.lane lane).cancels ++ [.hello ((s.lane lane).burstTag + 1)] := by
  have tag : ((s.cancelJob lane).lane lane).burstTag = (s.lane lane).burstTag :=
    (congrArg LaneUnit.burstTag (cancels s lane).own :)
  rw [(resets_bringsUp s lane).2, (cancels s lane).wire, tag]

theorem goesDown_own (s : State) (lane : Lane) :
    (s.goesDown lane).lane lane = { ((s.lane lane).dropped (s.lane lane).reservedBlocks).cleared with state := .down } := by
  rw [goesDown_unit, (cancels s lane).own]

theorem goesDown_wire (s : State) (lane : Lane) :
    (s.goesDown lane).wire.get lane = s.wire.get lane ++ (s.lane lane).cancels := by
  rw [State.goesDown, (outside_setFlag _ _).wire]
  exact (cancels s lane).wire

theorem cancelJob_mem (s : State) (lane : Lane) : (s.cancelJob lane).mem = s.mem := (within_cancelJob s lane).kept.mem

/-! ### A lane off its duty, and a pair that does not name it -/

section OffDuty

variable {t v : State} {lane : Lane}

theorem LeavesDuty.not_forming (h : LeavesDuty t v lane) (quiet : t.formingFollower lane = false) :
    v.offDuty lane = v.blockMissed lane := by
  have same : (v.blockMissed lane).ds.pair = t.ds.pair := by
    rw [(outside_blockMissed v lane).ds]
    exact h.moves.pair
  exact checkFollower_of_quiet ((formingFollower_congr same lane).trans quiet)

theorem LeavesDuty.alone (h : LeavesDuty t v lane) (quiet : t.formingFollower lane = false) (owes : t.owes lane = false) :
    v.offDuty lane = v := by
  rw [h.not_forming quiet, blockMissed_of_not_owes ((h.stands.owes lane).trans owes)]

/-- With no PAUSE pending on the leader, before the stop deadline, only the span of a FORMING pair moves. -/
theorem LeavesDuty.stands_or_requeues (h : LeavesDuty t v lane) (owes : t.owes lane = false)
    (free : t.ds.pair = none ∨ t.rc.expired = false ∧ (t.lane lane.other).action ≠ .pause) :
    StandsBy t (v.offDuty lane) ∨
      ∃ c, t.ds.pair = some c ∧ t.rc.expired = false ∧ StandsBy (v.requeue c.slot) (v.offDuty lane) := by
  have missed : v.blockMissed lane = v := blockMissed_of_not_owes ((h.stands.owes lane).trans owes)
  by_cases quiet : t.formingFollower lane = false
  · rw [h.alone quiet owes]
    exact .inl h.stands
  · cases pair : t.ds.pair with
    | none => exact absurd (formingFollower_of_none pair) quiet
    | some c =>
      have named : c.phase = .forming ∧ c.follower = lane :=
        not_not.mp fun other => quiet ((formingFollower_of_some pair lane).mpr other)
      have leader : c.leader = lane.other := by rw [← named.2, PairContext.follower, Lane.other_other]
      obtain ⟨live, action⟩ := free.resolve_left (by rw [pair]; exact Option.some_ne_none c)
      have off : v.offDuty lane = v.followerLost c := by
        rw [State.offDuty, missed, State.checkFollower, h.moves.pair.trans pair]
        exact if_pos named
      rw [off]
      obtain requeued | stands := (followerLost_spec v c).stands (by rw [h.stands.rc]; exact live)
        (by rw [leader, h.moves.other]; exact action)
      · exact .inr ⟨c, rfl, live, requeued⟩
      · exact .inl (h.stands.trans stands)

/-! ### The span of a cancelled single write (R16, R144) -/

/-- The span goes back to its queue. -/
theorem LeavesDuty.span_queued {y : State} {slot : Nat} {sp : Span} (h : LeavesDuty (y.requeue slot) v lane)
    (found : y.span? slot = some sp) (owes : y.owes lane = false) (live : y.rc.expired = false)
    (free : y.ds.pair = none ∨ (y.lane lane.other).action ≠ .pause) (apart : ∀ c, y.ds.pair = some c → c.slot ≠ slot) :
    (v.offDuty lane).span? slot = some { sp with state := .queued } ∧
      slot ∈ (v.offDuty lane).st.queues.get sp.source := by
  obtain ⟨queued, listed, -⟩ := requeue_queued found live
  have only := requeue_live_only live slot
  obtain stands | ⟨c, pair, -, stands⟩ := h.stands_or_requeues (by rw [only]; exact owes)
    (by rw [only]; exact free.imp_right fun action => ⟨live, action⟩)
  · exact ⟨(stands.span? slot).trans queued, by rw [stands.st]; exact listed⟩
  · rw [only] at pair
    obtain ⟨same, kept⟩ := requeue_others (s := v) (slot := c.slot) (n := slot)
      (by rw [h.stands.rc, only]; exact live) (apart c pair).symm
    refine ⟨(stands.span? slot).trans (same.trans ((h.stands.span? slot).trans queued)), ?_⟩
    rw [stands.st]
    exact kept _ (by rw [h.stands.st]; exact listed)

/-- The span is disposed of by the copies it holds. -/
theorem LeavesDuty.span_disposed {y : State} {slot : Nat} {sp x : Span} (h : LeavesDuty (y.requeue slot) v lane)
    (table : TableOk y.st) (found : y.span? slot = some sp) (expired : y.rc.expired = true) (pair : y.ds.pair = none)
    (left : (v.offDuty lane).span? slot = some x) : x = sp.disposed := by
  have state := disposed_state sp
  have offered := requeue_expired found expired
  rw [enter_eq_dequeued _ _ (by exact state)] at offered
  have tabled : TableOk (y.requeue slot).st := by
    rw [offered]
    exact offerSpan_table (thins_dequeued table found state) slot
  have thins : Thins (y.requeue slot) (v.blockMissed lane) :=
    (Thins.of_st tabled h.stands.st).trans (thins_blockMissed (by rw [h.stands.st]; exact tabled) lane)
  rw [h.not_forming (formingFollower_of_none (by rw [(outside_requeue y slot).ds]; exact pair))] at left
  rw [offered] at thins
  exact offered_kept table found state thins left

/-- The other lane, its claim and the pair context stay. -/
theorem LeavesDuty.rest (h : LeavesDuty t v lane) (quiet : t.formingFollower lane = false) : Moves lane t (v.offDuty lane) := by
  rw [h.not_forming quiet]
  exact h.moves.trans ((outside_blockMissed v lane).moves lane)

theorem LeavesDuty.offFlags (h : LeavesDuty t v lane) {f : Flag} (set : t.nu.isPending f = true) :
    (v.offDuty lane).nu.isPending f = true := h.own.flags f (h.flags f set)

end OffDuty

/-! ### The block of a cancelled index job (R145, R162) -/

/-- A block missed by one lane while the other one owes it waits for that one. -/
theorem blockMissed_of_both {s : State} {lane : Lane} {w : Writing} (writing : s.iu.writing = some w)
    (owed : w.duty.get lane = .owed) (other : w.duty.get lane.other = .owed) :
    s.blockMissed lane = s.missedBlock w lane := by
  have missing : (s.missedBlock w lane).iu.writing = some { w with duty := w.duty.set lane .missed } := by
    rw [missedBlock_iu]
  rw [blockMissed_of_owed writing owed]
  exact (does_progress_owed [] missing (owed_set _ other)).trans (does_nil _)

theorem givesUp_standsBy (s : State) (lane : Lane) (dead : Nat) : StandsBy s (s.givesUp lane dead) :=
  (StandsBy.mk rfl rfl rfl rfl : StandsBy s (s.withLane lane _)).trans (givesUp_alike s lane dead).standsBy

theorem givesUp_unit (s : State) (lane : Lane) (dead : Nat) : (s.givesUp lane dead).al = s.al.set lane ((s.lane lane).dropped dead) := by
  rw [givesUp_eq]
  rfl

theorem givesUp_other (s : State) (lane : Lane) (dead : Nat) : (s.givesUp lane dead).lane lane.other = s.lane lane.other := by
  rw [State.lane, givesUp_unit]
  exact PerLane.get_set_other _ _ _

theorem givesUp_state (s : State) (lane : Lane) (dead : Nat) (l : Lane) :
    ((s.givesUp lane dead).lane l).state = (s.lane l).state := by
  rw [State.lane, givesUp_unit]
  by_cases own : l = lane
  · subst own
    rw [PerLane.get_set_self]
    rfl
  · rw [Lane.ne_iff_other.mp own, PerLane.get_set_other]
    rfl

section IndexJob

variable {b v : State} {lane : Lane} {j : IndexJob} {w : Writing}

theorem LeavesDuty.block_waits (h : LeavesDuty (b.cancelJob lane) v lane) (job : (b.lane lane).job = some (.index j))
    (writing : b.iu.writing = some w) (owed : w.duty.get lane = .owed) (other : w.duty.get lane.other = .owed)
    (free : b.ds.pair = none ∨ b.rc.expired = false ∧ (b.lane lane.other).action ≠ .pause) :
    (v.offDuty lane).iu = { b.iu with writing := some { w with duty := w.duty.set lane .missed } } ∧
      (v.offDuty lane).nu.isPending .indexMissed = true := by
  have up := givesUp_standsBy b lane 0
  have missed : b.cancelJob lane = (b.givesUp lane 0).missedBlock w lane :=
    (cancelJob_index job).trans (blockMissed_of_both (by rw [up.iu]; exact writing) owed other)
  rw [missed] at h
  have iu : ((b.givesUp lane 0).missedBlock w lane).iu =
      { b.iu with writing := some { w with duty := w.duty.set lane .missed } } := by rw [missedBlock_iu, up.iu]
  have rc : ((b.givesUp lane 0).missedBlock w lane).rc = b.rc := (missedBlock_rest _ _ _).2.1.trans up.rc
  have pair : ((b.givesUp lane 0).missedBlock w lane).ds.pair = b.ds.pair := by
    rw [State.missedBlock, setFlag_ds]
    exact congrArg DrainScheduler.pair (givesUp_alike b lane 0).ds
  have action : (((b.givesUp lane 0).missedBlock w lane).lane lane.other).action = (b.lane lane.other).action := by
    rw [State.lane, missedBlock_al]
    exact congrArg LaneUnit.action (givesUp_other b lane 0)
  have owes : ((b.givesUp lane 0).missedBlock w lane).owes lane = false := by
    rw [State.owes, iu]
    simp [PerLane.get_set_self]
  refine ⟨?_, h.offFlags (setFlag_pending _ _)⟩
  obtain stands | ⟨c, -, live, stands⟩ := h.stands_or_requeues owes (by rw [pair, rc, action]; exact free)
  · exact stands.iu.trans iu
  · rw [stands.iu, requeue_live_only (by rw [h.stands.rc]; exact live)]
    exact h.stands.iu.trans iu

theorem cancelJob_indexMissed (job : (b.lane lane).job = some (.index j)) (writing : b.iu.writing = some w)
    (owed : w.duty.get lane = .owed) : IndexMissed b lane w (b.cancelJob lane) := by
  rw [cancelJob_index job]
  exact indexMissed (givesUp_state b lane 0) (givesUp_standsBy b lane 0) writing owed

theorem cancelJob_index_quiet (job : (b.lane lane).job = some (.index j)) (pair : b.ds.pair = none) :
    (b.cancelJob lane).formingFollower lane = false := by
  refine formingFollower_of_none ?_
  rw [cancelJob_index job, (outside_blockMissed _ lane).ds, (givesUp_alike b lane 0).ds]
  exact pair

/-- The block is done where the other lane does not owe it, and no further one follows. -/
theorem LeavesDuty.block_done (h : LeavesDuty (b.cancelJob lane) v lane) (job : (b.lane lane).job = some (.index j))
    (writing : b.iu.writing = some w) (owed : w.duty.get lane = .owed) (other : w.duty.get lane.other ≠ .owed)
    (pair : b.ds.pair = none) (nothing : NothingWaits b) (closed : (b.buffer w.buffer.other).state ≠ .closed) :
    (v.offDuty lane).iu =
        { b.iu with
          buffers := b.iu.buffers.set w.buffer { state := .empty, entries := [], final := false }
          writing := none, blockSeq := b.iu.blockSeq + 1 } ∧
      MissedEnds b w lane (v.offDuty lane) := by
  obtain ⟨iu, ends⟩ := (cancelJob_indexMissed job writing owed).done other closed nothing
  have owes : (b.cancelJob lane).owes lane = false := by rw [State.owes, iu]
  rw [h.alone (cancelJob_index_quiet job pair) owes]
  exact ⟨h.stands.iu.trans iu, ends.congr h.stands.rc h.flags⟩

/-- The block is done, and the lane misses the next one too, which the other lane owes. -/
theorem LeavesDuty.block_next (h : LeavesDuty (b.cancelJob lane) v lane) (job : (b.lane lane).job = some (.index j))
    (writing : b.iu.writing = some w) (owed : w.duty.get lane = .owed) (other : w.duty.get lane.other ≠ .owed)
    (pair : b.ds.pair = none) (nothing : NothingWaits b) (closed : (b.buffer w.buffer.other).state = .closed)
    (own : (b.lane lane).state.duty = .owed) (helps : (b.lane lane.other).state.duty = .owed) :
    (v.offDuty lane).iu =
        { b.iu with
          buffers := (b.iu.buffers.set w.buffer { state := .empty, entries := [], final := false }).set w.buffer.other
            { b.buffer w.buffer.other with state := .writing }
          writing := some
            { buffer := w.buffer.other, seq := b.iu.blockSeq + 1
              duty := (⟨.owed, .owed⟩ : PerLane Duty).set lane .missed }
          blockSeq := b.iu.blockSeq + 1 } ∧
      ((b.buffer w.buffer).final = false → (v.offDuty lane).rc = { b.rc with counters := { b.rc.counters with
        checkpointsWritten := b.rc.counters.checkpointsWritten + if w.duty.get lane.other = .written then 1 else 0 } }) := by
  have both : (b.lane .l0).state.duty = .owed ∧ (b.lane .l1).state.duty = .owed := by
    cases lane
    · exact ⟨own, helps⟩
    · exact ⟨helps, own⟩
  obtain ⟨iu, ends⟩ := (cancelJob_indexMissed job writing owed).next other closed nothing (.inl both.1)
  have next : v.iu.writing = some
      { buffer := w.buffer.other, seq := b.iu.blockSeq + 1, duty := (⟨.owed, .owed⟩ : PerLane Duty) } := by
    rw [h.stands.iu, iu, State.nextWriting, both.1, both.2]
  have missed := blockMissed_of_both (lane := lane) next (by cases lane <;> rfl) (by cases lane <;> rfl)
  rw [h.not_forming (cancelJob_index_quiet job pair), missed]
  refine ⟨?_, fun goes => ?_⟩
  · rw [missedBlock_iu, h.stands.iu, iu]
    rfl
  · rw [(missedBlock_rest _ _ _).2.1, h.stands.rc]
    exact ends.goes goes

end IndexJob

/-! ### A span write cancelled singly (R112, R144) -/

theorem reportOutcome_forming {s : State} {j : SpanJob} {sp : Span} {lane : Lane}
    (apart : ∀ c, s.ds.pair = some c → c.phase = .forming ∧ c.leader ≠ lane)
    (requested : s.requested j.slot j.runId j.seq .draining = some sp) (o : Outcome) (address : Nat) :
    s.reportOutcome lane j o address =
      (s.setSpan j.slot (sp.noteOutcome o)).applySingle j.slot lane o address := by
  cases pair : s.ds.pair with
  | none => exact reportOutcome_single pair requested lane o address
  | some c =>
    obtain ⟨forming, leader⟩ := apart c pair
    have write : s.reportOutcome lane j o address = s.reportWrite lane j o address := by
      rw [State.reportOutcome, pair]
      exact if_neg fun k => leader k.2
    rw [write, State.reportWrite, requested, pair]
    exact if_neg fun k => by rw [forming] at k; exact PairPhase.noConfusion k.1

/-- The state with a lane's span write given up as CANCELLED, before its span is disposed of. -/
def State.cancelled (s : State) (lane : Lane) (j : SpanJob) (sp : Span) : State :=
  (s.givesUp lane j.reserved).setSpan j.slot (sp.noteOutcome .cancelled)

theorem givesUp_requested {s : State} {lane : Lane} {dead slot : Nat} {r : Word16} {q : Word32} {st : SpanState} :
    (s.givesUp lane dead).requested slot r q st = s.requested slot r q st := by
  unfold State.requested
  rw [(givesUp_standsBy s lane dead).span?]

theorem cancelJob_requeues {s : State} {lane : Lane} {j : SpanJob} {sp : Span}
    (job : (s.lane lane).job = some (.span j)) (requested : s.requested j.slot j.runId j.seq .draining = some sp)
    (apart : ∀ c, s.ds.pair = some c → c.phase = .forming ∧ c.leader ≠ lane) :
    s.cancelJob lane = (s.cancelled lane j sp).requeue j.slot := by
  rw [cancelJob_span job, reportOutcome_forming (by rw [(givesUp_alike s lane _).ds]; exact apart)
    (givesUp_requested.trans requested)]
  rfl

/-! ### A span write cancelled in an ACTIVE pair (R126, R127) -/

theorem blind_recorded (c : PairContext) (lane : Lane) (o : PairOutcome) (v : Span) :
    Blind fun s => s.recorded c lane o v := blind_of_commutes fun _ _ _ _ => rfl

theorem blind_withLane (lane : Lane) (a : LaneUnit) : Blind fun s => s.withLane lane a := blind_of_commutes fun _ _ _ _ => rfl

/-- The state with a lane's write given up and recorded in its pair. -/
def State.pairCancelled (s : State) (c : PairContext) (lane : Lane) (j : SpanJob) (sp : Span) : State :=
  (s.withLane lane ((s.lane lane).dropped j.reserved)).recorded c lane .cancelled (sp.noteOutcome .cancelled)

/-- A span write in an ACTIVE pair has been cancelled, as far as its pair and its span go. -/
structure PairCancelled (s b : State) (c : PairContext) (lane : Lane) (j : SpanJob) (sp : Span) (u : State) : Prop where
  late : c.outcome.get lane ≠ .pending → u.ds.pair = some c
  waits : c.outcome.get lane = .pending → c.outcome.get lane.other = .pending →
    u.ds.pair = some (c.recorded lane .cancelled) ∧ u.lane lane.other = b.lane lane.other ∧
      (s.owes lane = false → u.span? c.slot = some (sp.noteOutcome .cancelled) ∧ u.st.queues = s.st.queues)
  closes : c.outcome.get lane = .pending → c.outcome.get lane.other ≠ .pending →
    u.ds.pair = none ∧ u.lane lane.other = b.lane lane.other ∧
      (((s.pairCancelled c lane j sp).closePair (c.recorded lane .cancelled)).owes lane = false →
        StandsBy ((s.pairCancelled c lane j sp).closePair (c.recorded lane .cancelled)) u ∧
        u.ds.claim.get lane.other =
          ((s.pairCancelled c lane j sp).closePair (c.recorded lane .cancelled)).ds.claim.get lane.other)

theorem givesUp_writesPair {s : State} {lane : Lane} {j : SpanJob} {c : PairContext} {sp : Span} (h : WritesPair s j c sp) (dead : Nat) :
    WritesPair (s.givesUp lane dead) j c sp where
  pair := by rw [(givesUp_alike s lane dead).ds]; exact h.pair
  active := h.active
  slot := h.slot
  runId := h.runId
  seq := h.seq
  requested := givesUp_requested.trans h.requested

theorem LeavesDuty.pairCancelled {s b v : State} {lane : Lane} {j : SpanJob} {c : PairContext} {sp : Span}
    (h : LeavesDuty (b.cancelJob lane) v lane) (job : (b.lane lane).job = some (.span j)) (writes : WritesPair b j c sp)
    (same : Alike s b) : PairCancelled s b c lane j sp (v.offDuty lane) := by
  have up := givesUp_standsBy b lane j.reserved
  have report := pairReport (givesUp_writesPair (lane := lane) writes j.reserved) lane (o := .cancelled) Outcome.noConfusion 0
  rw [← cancelJob_span job] at report
  have alike : Alike (s.pairCancelled c lane j sp)
      ((b.givesUp lane j.reserved).recorded c lane .cancelled (sp.noteOutcome .cancelled)) := by
    have own : b.lane lane = s.lane lane := by
      obtain ⟨_, _, _, rfl⟩ := same
      rfl
    have dropped := blind_withLane lane ((s.lane lane).dropped j.reserved) same
    rw [← own] at dropped
    refine blind_recorded _ _ _ _ (Alike.trans ?_ (givesUp_alike b lane j.reserved))
    rw [← own]
    exact dropped
  have rest := h.rest report.quiet
  have other : (v.offDuty lane).lane lane.other = b.lane lane.other := by
    rw [rest.other, State.lane, report.al]
    exact givesUp_other b lane j.reserved
  refine ⟨fun late => ?_, fun first open_ => ⟨?_, other, fun owes => ?_⟩, fun first second => ⟨?_, other, fun owes => ?_⟩⟩
  · rw [rest.pair, report.late late, (givesUp_alike b lane _).ds]
    exact writes.pair
  · rw [rest.pair, report.waits first open_]
    rfl
  · have stands := h.stands
    rw [report.waits first open_] at stands
    have left := h.alone report.quiet (by
      rw [report.waits first open_]
      exact ((up.owes lane).trans (same.standsBy.owes lane)).trans owes)
    rw [left, stands.span?, stands.st]
    exact ⟨findSlot_putSlot_self _ _ _, (congrArg SpanTable.queues (up.st.trans same.standsBy.st) :)⟩
  · rw [rest.pair, report.closes first second]
    exact (closes_closePair _ _).pair
  · have closed : Alike ((s.pairCancelled c lane j sp).closePair (c.recorded lane .cancelled))
        (((b.givesUp lane j.reserved).recorded c lane .cancelled (sp.noteOutcome .cancelled)).closePair
          (c.recorded lane .cancelled)) := blind_closePair _ alike
    have closes := report.closes first second
    have left := h.alone report.quiet (by
      rw [closes]
      exact (closed.standsBy.owes lane).trans owes)
    have stands := h.stands
    have claim := h.moves.otherClaim
    rw [closes] at stands claim
    rw [left]
    exact ⟨closed.standsBy.trans stands, claim.trans (congrArg (fun ds : DrainScheduler => ds.claim.get lane.other) closed.ds)⟩

end Sys2Proof.Machine

/-! LANE RESET and LANE OFFLINE settled. -/

namespace Sys2Proof.Machine

theorem Alike.answered (s : State) (f : CmdFrame) (rest : List CmdFrame) (st : Status) (payload : List Byte) :
    Alike s (s.answered f rest st payload) := ⟨_, s.nu, s.wire, rfl⟩

section Cancelled

variable {s : State} {lane : Lane} {j : SpanJob} {sp : Span}

theorem cancelled_found (s : State) (lane : Lane) (j : SpanJob) (sp : Span) :
    (s.cancelled lane j sp).span? j.slot = some (sp.noteOutcome .cancelled) := setSpan_self _ _ _

theorem cancelled_standing (s : State) (lane : Lane) (j : SpanJob) (sp : Span) :
    (s.cancelled lane j sp).rc = s.rc ∧ (s.cancelled lane j sp).ds = s.ds ∧
      (s.cancelled lane j sp).lane lane.other = s.lane lane.other ∧ (s.cancelled lane j sp).owes lane = s.owes lane :=
  ⟨(givesUp_standsBy s lane j.reserved).rc, (givesUp_alike s lane j.reserved).ds, givesUp_other s lane j.reserved,
    (givesUp_standsBy s lane j.reserved).owes lane⟩

theorem cancelled_table (table : TableOk s.st) (requested : s.requested j.slot j.runId j.seq .draining = some sp) :
    TableOk (s.cancelled lane j sp).st := by
  have up := givesUp_standsBy s lane j.reserved
  refine setSpan_table (by rw [up.st]; exact table) (old := sp) ?_ _
  rw [up.span?]
  exact span?_of_requested requested

end Cancelled

/-- Settles O46: LANE RESET and LANE OFFLINE cancel the job, and the lane leaves its duty. -/
theorem laneResetAndOfflineEndTheJob : Obligations.LaneResetAndOfflineEndTheJob := by
  intro s f rest lane payload a dead cancels
  let b := s.answered f rest .ok []
  have alike : Alike s b := .answered s f rest .ok []
  refine ⟨fun received up => ?_, fun received up => ?_, fun received down => ?_, fun row received up => ?_⟩
  · have off := (leavesDuty_resets b lane).own
    refine ⟨(b.resets lane).offDuty lane, exec_laneReset received payload up, off.own.trans (resets_unit b lane),
      off.wire.trans (resets_wire b lane), off.claim.trans (leavesDuty_resets b lane).noClaim, off.mem.trans ?_⟩
    exact cancelJob_mem b lane
  · have off := (leavesDuty_goesDown b lane).own
    refine ⟨(b.goesDown lane).offDuty lane, exec_laneOffline_up received payload up, off.own.trans (goesDown_own b lane),
      off.wire.trans (goesDown_wire b lane), off.claim.trans (leavesDuty_goesDown b lane).noClaim,
      off.flags _ (setFlag_pending _ _), off.mem.trans ?_⟩
    rw [State.goesDown, (outside_setFlag _ _).mem]
    exact cancelJob_mem b lane
  · rw [exec_laneOffline received payload]
    exact congrArg _ (if_pos down)
  · obtain ⟨v, left, run⟩ := takesOffDuty payload up received
    refine ⟨?_, ?_,
      fun j w job writing owed other free => ⟨_, run, left.block_waits (b := b) job writing owed other free⟩, ?_⟩
    · intro j sp job requested owes ended forming free
      have apart : ∀ c, s.ds.pair = some c → c.phase = .forming ∧ c.leader ≠ lane ∧ c.slot ≠ j.slot := by
        intro c pair
        obtain none | ⟨k, named, phase, follower, other, -⟩ := free
        · rw [none] at pair
          cases pair
        · obtain rfl := Option.some.inj (pair.symm.trans named)
          exact ⟨phase, follower ▸ c.leader_ne, other⟩
      obtain ⟨rc, ds, other, owed⟩ := cancelled_standing b lane j sp
      rw [cancelJob_requeues (s := b) job requested fun c pair => ⟨(apart c pair).1, (apart c pair).2.1⟩] at left
      have found := cancelled_found b lane j sp
      refine ⟨_, run, fun live => ?_, fun pair expired table x standing => ?_⟩
      · refine left.span_queued found (owed.trans owes) (by rw [rc]; exact live) ?_ fun c pair => ?_
        · rw [ds, other]
          exact free.imp_right fun ⟨_, _, _, _, _, action⟩ => action
        · rw [ds] at pair
          exact (apart c pair).2.2
      · exact left.span_disposed (cancelled_table (s := b) table requested) found (by rw [rc]; exact expired)
          (by rw [ds]; exact pair) standing
    · intro j c sp job pair active slot runId seq requested noted recorded closed
      have cancelled := left.pairCancelled job ⟨pair, active, slot, runId, seq, requested⟩ alike
      have same : closed = (s.pairCancelled c lane j sp).closePair (c.recorded lane .cancelled) := by
        have reserved : dead = j.reserved := by
          show a.reservedBlocks = j.reserved
          rw [LaneUnit.reservedBlocks, job]
        show State.closePair _ recorded = _
        rw [reserved]
        rfl
      refine ⟨_, run, cancelled.late, cancelled.waits, fun first second => ?_⟩
      obtain ⟨gone, other, closes⟩ := cancelled.closes first second
      rw [← same] at closes
      refine ⟨gone, other, fun owes => ?_⟩
      obtain ⟨stands, claim⟩ := closes owes
      exact ⟨stands.st, stands.iu, stands.rc, claim⟩
    · intro j w job writing owed other pair gaps runEnd spans buffer written counters
      refine ⟨_, run, ?_, ?_, fun open_ => ?_, fun next busy helps goes => ?_⟩
      · exact left.offFlags (cancelJob_indexMissed (b := b) job writing owed).missed
      · exact left.offFlags ((cancelJob_indexMissed (b := b) job writing owed).flag other)
      · obtain ⟨iu, ends⟩ := left.block_done (b := b) job writing owed other pair ⟨spans, gaps, runEnd⟩ open_
        exact ⟨iu, ends.goes, ends.ends⟩
      · obtain ⟨iu, rc⟩ := left.block_next (b := b) job writing owed other pair ⟨spans, gaps, runEnd⟩ next
          (by rw [show (b.lane lane).state = .busy from busy]; rfl) helps
        exact ⟨rc goes, iu⟩

end Sys2Proof.Machine

/-! A WRITE that fails: the lane's next state after the report, and the rows that fail it (R142, R143, R145, R151). -/

namespace Sys2Proof.Machine

/-! ### With no span's entry waiting, a missed block leaves the table -/

/-- The span table stands, no span's entry waits, and the stop deadline has expired or not as before. -/
structure TableStands (s t : State) : Prop where
  st : t.st = s.st
  spans : t.iu.waitSpans = []
  expired : t.rc.expired = s.rc.expired

theorem TableStands.trans {s t u : State} (h : TableStands s t) (k : TableStands t u) : TableStands s u :=
  ⟨k.st.trans h.st, k.spans, k.expired.trans h.expired⟩

theorem TableStands.span? {s t : State} (h : TableStands s t) (slot : Nat) : t.span? slot = s.span? slot := by
  rw [State.span?, h.st]
  rfl

theorem StandsBy.tableStands {s t : State} (h : StandsBy s t) (spans : s.iu.waitSpans = []) : TableStands s t :=
  ⟨h.st, (congrArg IndexUnit.waitSpans h.iu).trans spans, congrArg RunController.expired h.rc⟩

theorem blockMissed_tableStands {s : State} (spans : s.iu.waitSpans = []) (lane : Lane) : TableStands s (s.blockMissed lane) := by
  have missed : (s.blockMissed lane).st = s.st ∧ (s.blockMissed lane).iu.waitSpans = [] := by
    unfold State.blockMissed
    split
    · next w _ =>
      split
      · have stands := standsBy_setFlag (s.setDuty w lane .missed) .indexMissed
        have waits : ((s.setDuty w lane .missed).setFlag .indexMissed).iu.waitSpans = [] := by
          rw [stands.iu]
          exact spans
        obtain ⟨st, left⟩ := does_noSpans (ts := [.progress]) (by simp [NoSpans]) waits
        rw [index_eq_does_one]
        exact ⟨st.trans stands.st, left⟩
      · exact ⟨rfl, spans⟩
    · exact ⟨rfl, spans⟩
  exact ⟨missed.1, missed.2, (within_blockMissed s lane).kept.expired⟩

/-! ### The lane's next state after a failed WRITE (R143, R145) -/

/-- A lane whose span write has failed. -/
def LaneUnit.failedSpan (a : LaneUnit) (dead : Nat) : LaneUnit :=
  { a with job := none, timer := none, deadSpace := a.deadSpace + dead, failures := a.failures + 1 }

/-- The state a lane takes after the failure of its span write has been reported. -/
def State.nextOfFailed (t : State) (lane : Lane) (o : Outcome) : State :=
  if o = .timeout then t.faultLane lane .timeout
  else if Config.failureLimit ≤ (t.lane lane).failures then t.faultLane lane .repeatedFailure
  else t.afterJob lane

/-- The state a lane takes after its index block has been missed. -/
def State.nextOfMissed (t : State) (lane : Lane) (o : Outcome) : State :=
  if o = .timeout then t.faultLane lane .timeout else t.afterJob lane

theorem jobFailed_eq (s : State) (lane : Lane) (j : SpanJob) (o : Outcome) :
    s.jobFailed lane j o =
      ((s.withLane lane ((s.lane lane).failedSpan j.reserved)).reportOutcome lane j o 0).nextOfFailed lane o := by
  have dropped : (s.dropJob lane j.reserved).onLane lane (fun a => { a with failures := a.failures + 1 }) =
      s.withLane lane ((s.lane lane).failedSpan j.reserved) := by
    rw [State.dropJob, onLane_onLane]
    rfl
  unfold State.jobFailed
  rw [dropped]
  rfl

/-- A lane takes its next state, where no FORMING pair names it follower. -/
structure NextState (t u : State) (lane : Lane) : Prop where
  moves : Moves lane t u
  stands : t.owes lane = false → StandsBy t u
  thins : TableOk t.st → Thins t u
  flags : ∀ f, t.nu.isPending f = true → u.nu.isPending f = true

section NextState

variable {t : State} {lane : Lane}

theorem nextState_faultLane (quiet : t.formingFollower lane = false) (cause : FaultCause) :
    NextState t (t.faultLane lane cause) lane := by
  have flags := (within_faultLane t lane cause).kept.flags
  rw [faultLane_of_quiet quiet] at flags ⊢
  exact ⟨moves_enterFaulted t lane cause, fun free => enterFaulted_standsBy free cause,
    fun table => thins_enterFaulted table lane cause, flags⟩

theorem nextState_afterJob (quiet : t.formingFollower lane = false) : NextState t (t.afterJob lane) lane :=
  ⟨moves_afterJob quiet, fun free => (afterJob_alone quiet (.inl free)).standsBy, fun table => thins_afterJob quiet table,
    (within_afterJob t lane).kept.flags⟩

theorem nextOfMissed_timeout {o : Outcome} (h : o = .timeout) : t.nextOfMissed lane o = t.faultLane lane .timeout := if_pos h

theorem nextOfMissed_other {o : Outcome} (h : o ≠ .timeout) : t.nextOfMissed lane o = t.afterJob lane := if_neg h

theorem nextState_nextOfMissed (quiet : t.formingFollower lane = false) (o : Outcome) :
    NextState t (t.nextOfMissed lane o) lane := by
  unfold State.nextOfMissed
  split
  · exact nextState_faultLane quiet _
  · exact nextState_afterJob quiet

theorem nextState_nextOfFailed (quiet : t.formingFollower lane = false) (o : Outcome) :
    NextState t (t.nextOfFailed lane o) lane := by
  unfold State.nextOfFailed
  split
  · exact nextState_faultLane quiet _
  · split
    · exact nextState_faultLane quiet _
    · exact nextState_afterJob quiet

end NextState

/-- The lane that a failed span write leaves. -/
structure FailedLane (s u : State) (lane : Lane) (a : LaneUnit) (o : Outcome) (claim : Option Claim) : Prop where
  timeout : o = .timeout → Faults s u lane a .timeout
  repeated : o ≠ .timeout → 3 ≤ a.failures → Faults s u lane a .repeatedFailure
  lives : o ≠ .timeout ∧ a.failures < 3 → JobEnds s u lane a claim

theorem Reported.failedLane {s t : State} {lane : Lane} {a : LaneUnit} (h : Reported s lane a t)
    (quiet : t.formingFollower lane = false) (o : Outcome) :
    FailedLane s (t.nextOfFailed lane o) lane a o (t.claimAfter lane) := by
  have failures : Config.failureLimit ≤ (t.lane lane).failures ↔ 3 ≤ a.failures := by rw [h.own]; rfl
  unfold State.nextOfFailed
  refine ⟨fun timeout => ?_, fun other many => ?_, fun ⟨other, few⟩ => ?_⟩
  · rw [if_pos timeout, faultLane_of_quiet quiet]
    exact h.faults .timeout
  · rw [if_neg other, if_pos (failures.mpr many), faultLane_of_quiet quiet]
    exact h.faults .repeatedFailure
  · rw [if_neg other, if_neg fun many => absurd (failures.mp many) (by omega)]
    exact h.jobEnds quiet rfl

/-! ### The rows that fail a WRITE (R142, R145) -/

theorem exec_moduleFault {s : State} {lane : Lane} {tag : Word16} (awaits : s.awaits lane .busy tag = true) :
    exec (.moduleFault lane tag) s = .next (s.takeFault lane).evaluate := by
  change Host.Outcome.next (s.onFault lane tag) = _
  rw [State.onFault, if_pos awaits]

theorem exec_writeTimeout {s : State} {lane : Lane} (timer : (s.lane lane).timer.isSome = true)
    (busy : (s.lane lane).state = .busy) : exec (.responseTimeout lane) s = .next (s.writeTimeout lane).evaluate := by
  change Host.Outcome.next (if (s.lane lane).timer.isSome then
    if (s.lane lane).state = .busy then (s.writeTimeout lane).evaluate
    else if (s.lane lane).state = .parking then (s.faultLane lane .timeout).evaluate
    else s
  else s) = _
  rw [if_pos timer, if_pos busy]

section Rows

variable {s : State} {lane : Lane} {tag : Word16} {row : Instr} {o : Outcome}

/-- The outcome of a WRITE that failed. -/
structure FailedOutcome (o : Outcome) : Prop where
  failed : o.inPair = .failed
  notDone : o ≠ .done
  known : o ≠ .none
  counts : ∀ (s : State) slot lane address,
    s.applySingle slot lane o address = (s.onSpan slot Span.countAttempt).failOrRequeue slot

theorem failedOutcome {n : Nat} (h : s.WriteFails lane tag n row o) : FailedOutcome o := by
  obtain ⟨-, rfl, -⟩ | ⟨-, rfl⟩ | ⟨-, rfl⟩ := h
  all_goals exact ⟨rfl, Outcome.noConfusion, Outcome.noConfusion, fun _ _ _ _ => rfl⟩

theorem Writes.failsSpan {j : SpanJob} (h : Writes s lane tag (.span j)) (fails : s.WriteFails lane tag j.retries row o) :
    exec row s = .next (s.jobFailed lane j o).evaluate := by
  have awaits := awaits_of h.state h.outstanding h.tag
  obtain ⟨rfl, rfl, limit⟩ | ⟨rfl, rfl⟩ | ⟨rfl, rfl⟩ := fails
  · rw [exec_retry awaits, State.takeRetry, h.job]
    exact congrArg (fun u : State => Host.Outcome.next u.evaluate) (if_neg (Nat.not_lt.mpr limit))
  · rw [exec_moduleFault awaits, State.takeFault, h.job]
  · rw [exec_writeTimeout h.outstanding h.state, State.writeTimeout, h.job]

theorem Writes.failsIndex {j : IndexJob} (h : Writes s lane tag (.index j)) (fails : s.WriteFails lane tag j.retries row o) :
    exec row s = .next ((s.indexFailed lane).nextOfMissed lane o).evaluate := by
  have awaits := awaits_of h.state h.outstanding h.tag
  obtain ⟨rfl, rfl, limit⟩ | ⟨rfl, rfl⟩ | ⟨rfl, rfl⟩ := fails
  · rw [exec_retry awaits, State.takeRetry, h.job]
    exact congrArg (fun u : State => Host.Outcome.next u.evaluate) (if_neg (Nat.not_lt.mpr limit))
  · rw [exec_moduleFault awaits, State.takeFault, h.job]
    rfl
  · rw [exec_writeTimeout h.outstanding h.state, State.writeTimeout, h.job]
    rfl

end Rows

end Sys2Proof.Machine

/-! A span write that fails, singly and in an ACTIVE pair (R98, R113, R126, R127, R143). -/

namespace Sys2Proof.Machine

/-! ### A counted failure, and the return after the stop deadline (R16, R36, R98, R113) -/

/-- The record of a span shed at the attempt limit. -/
def Span.failed (sp : Span) : Span := { sp with state := .shed, shedCause := some .archiveFailure }

section Disposal

variable {y : State} {slot : Nat} {sp : Span} (found : y.span? slot = some sp)
include found

theorem failOrRequeue_over (limit : y.spm.limit ≤ sp.attempts) :
    y.failOrRequeue slot = ((y.dequeued slot sp.failed).offerSpan slot).setFlag .spanFailed := by
  have sheds : y.shedSpan slot .archiveFailure = (y.enter slot sp.failed).offerSpan slot := by
    rw [State.shedSpan, found]
    exact if_neg fun k => ShedCause.noConfusion k.2
  rw [State.failOrRequeue, found]
  refine (if_pos limit).trans ?_
  rw [sheds, enter_eq_dequeued _ _ SpanState.noConfusion]

theorem failOrRequeue_under (under : sp.attempts < y.spm.limit) : y.failOrRequeue slot = y.requeue slot := by
  rw [State.failOrRequeue, found]
  exact if_neg (Nat.not_le.mpr under)

theorem failOrRequeue_table (table : TableOk y.st) (limit : y.spm.limit ≤ sp.attempts) : TableOk (y.failOrRequeue slot).st := by
  rw [failOrRequeue_over found limit, setFlag_st]
  exact offerSpan_table (thins_dequeued table found SpanState.noConfusion) slot

/-- A span at the attempt limit is left SHED, unless its entry was admitted. -/
theorem failOrRequeue_kept (table : TableOk y.st) (limit : y.spm.limit ≤ sp.attempts) {u : State}
    (thins : Thins (y.failOrRequeue slot) u) {x : Span} (left : u.span? slot = some x) : x = sp.failed := by
  have offered := offerSpan_table (thins_dequeued table found (v := sp.failed) SpanState.noConfusion) slot
  rw [failOrRequeue_over found limit] at thins
  exact offered_kept table found SpanState.noConfusion ((Thins.of_st offered (setFlag_st _ _)).trans thins) left

theorem requeue_table (table : TableOk y.st) : TableOk (y.requeue slot).st := by
  cases expired : y.rc.expired with
  | false =>
    rw [requeue_live found expired]
    exact enter_table table found
  | true =>
    rw [requeue_expired found expired]
    exact offerSpan_table (enter_table table found) slot

/-- A span that returns after the stop deadline is left disposed of by its copies, unless its entry was admitted. -/
theorem requeue_kept (table : TableOk y.st) (expired : y.rc.expired = true) {u : State}
    (thins : Thins (y.requeue slot) u) {x : Span} (left : u.span? slot = some x) : x = sp.disposed := by
  rw [requeue_expired found expired, enter_eq_dequeued _ _ (disposed_state sp)] at thins
  exact offered_kept table found (disposed_state sp) thins left

end Disposal

/-! ### A failed single write (R113, R143) -/

/-- The record of a span after a failed write. -/
def Span.tried (sp : Span) (o : Outcome) : Span := (sp.noteOutcome o).countAttempt

/-- The state with a lane's failed write recorded in its span. -/
def State.tries (s : State) (lane : Lane) (j : SpanJob) (sp : Span) (o : Outcome) : State :=
  (s.withLane lane ((s.lane lane).failedSpan j.reserved)).setSpan j.slot (sp.tried o)

section Single

variable {s : State} {lane : Lane} {j : SpanJob} {o : Outcome} {t : State}

/-- A failed write outside a pair, reported as `t`. -/
structure FailsSpan (s : State) (lane : Lane) (j : SpanJob) (o : Outcome) (t : State) : Prop where
  next : s.jobFailed lane j o = t.nextOfFailed lane o
  reported : Reported s lane ((s.lane lane).failedSpan j.reserved) t
  pair : t.ds.pair = none
  span : ∀ sp, s.requested j.slot j.runId j.seq .draining = some sp → t = (s.tries lane j sp o).failOrRequeue j.slot

theorem failsSpan (pair : s.ds.pair = none) (failed : FailedOutcome o) : ∃ t, FailsSpan s lane j o t := by
  have out := outside_reportOutcome (s.withLane lane ((s.lane lane).failedSpan j.reserved)) lane j o 0 pair
  refine ⟨_, jobFailed_eq s lane j o, out.reported, ?_, fun sp requested => ?_⟩
  · rw [out.ds]
    exact pair
  · rw [reportOutcome_single (s := s.withLane lane _) pair requested, failed.counts, onSpan_found (setSpan_self _ _ _),
      State.setSpan, State.setSpan, State.setSt_st, putSlot_putSlot]
    rfl

theorem tries_found (s : State) (lane : Lane) (j : SpanJob) (sp : Span) (o : Outcome) :
    (s.tries lane j sp o).span? j.slot = some (sp.tried o) := setSpan_self _ _ _

theorem tries_table (table : TableOk s.st) {sp : Span} (requested : s.requested j.slot j.runId j.seq .draining = some sp) :
    TableOk (s.tries lane j sp o).st :=
  setSpan_table (s := s.withLane lane _) table (old := sp) (span?_of_requested requested) _

variable (h : FailsSpan s lane j o t)
include h

theorem FailsSpan.quiet : t.formingFollower lane = false := formingFollower_of_none h.pair

theorem FailsSpan.nextState : NextState t (t.nextOfFailed lane o) lane := nextState_nextOfFailed h.quiet o

theorem FailsSpan.failedLane : FailedLane s (t.nextOfFailed lane o) lane ((s.lane lane).failedSpan j.reserved) o
    (s.claimNow ((s.lane lane).failedSpan j.reserved)) := by
  have left := h.reported.failedLane h.quiet o
  rw [h.reported.claimNow h.pair] at left
  exact left

/-- The span of a failed single write, by its attempts and the stop deadline. -/
theorem FailsSpan.left {sp : Span} (requested : s.requested j.slot j.runId j.seq .draining = some sp)
    (owes : s.owes lane = false) :
    (s.spm.limit ≤ sp.attempts + 1 → (t.nextOfFailed lane o).nu.isPending .spanFailed = true ∧
      (TableOk s.st → ∀ v, (t.nextOfFailed lane o).span? j.slot = some v → v = (sp.tried o).failed)) ∧
    (sp.attempts + 1 < s.spm.limit → s.rc.expired = false →
      (t.nextOfFailed lane o).span? j.slot = some { sp.tried o with state := .queued } ∧
        j.slot ∈ (t.nextOfFailed lane o).st.queues.get sp.source) ∧
    (sp.attempts + 1 < s.spm.limit → s.rc.expired = true → TableOk s.st →
      ∀ v, (t.nextOfFailed lane o).span? j.slot = some v → v = (sp.tried o).disposed) := by
  have next := h.nextState
  have report := h.span sp requested
  have found := tries_found s lane j sp o
  rw [report] at next ⊢
  refine ⟨fun limit => ⟨next.flags _ ?_, fun table v standing => ?_⟩, fun under live => ?_, fun under expired table v standing => ?_⟩
  · rw [failOrRequeue_over found limit]
    exact setFlag_pending _ _
  · have tabled := tries_table (o := o) (lane := lane) table requested
    exact failOrRequeue_kept found tabled limit (next.thins (failOrRequeue_table found tabled limit)) standing
  · rw [failOrRequeue_under found under] at next ⊢
    obtain ⟨queued, listed, -⟩ := requeue_queued found live
    have stands := next.stands (by rw [requeue_live_only (by exact live)]; exact owes)
    exact ⟨(stands.span? _).trans queued, by rw [stands.st]; exact listed⟩
  · rw [failOrRequeue_under found under] at next standing
    have tabled := tries_table (o := o) (lane := lane) table requested
    exact requeue_kept found tabled expired (next.thins (requeue_table found tabled)) standing

end Single

/-! ### A failed write in an ACTIVE pair (R126, R127) -/

theorem PairReport.nextOfFailed {s : State} {lane : Lane} {a : LaneUnit} {c : PairContext} {v : Span} {t : State}
    (h : PairReport (s.withLane lane a) c lane .failed v t) (o : Outcome) (pair : s.ds.pair = some c)
    (free : s.ds.claim.get lane = none) :
    let u := t.nextOfFailed lane o
    let closed := ((s.withLane lane a).recorded c lane .failed v).closePair (c.recorded lane .failed)
    let lives := o ≠ .timeout ∧ a.failures < 3
    (o = .timeout → Faults s u lane a .timeout) ∧
    (o ≠ .timeout → 3 ≤ a.failures → Faults s u lane a .repeatedFailure) ∧
    u.lane lane.other = s.lane lane.other ∧
    (c.outcome.get lane ≠ .pending → u.ds.pair = some c) ∧
    (c.outcome.get lane = .pending → c.outcome.get lane.other = .pending →
      (lives → JobEnds s u lane a none) ∧ u.ds.pair = some (c.recorded lane .failed) ∧
      (s.owes lane = false → u.span? c.slot = some v ∧ u.st.queues = s.st.queues)) ∧
    (c.outcome.get lane = .pending → c.outcome.get lane.other ≠ .pending →
      (lives → JobEnds s u lane a (s.claimNow a)) ∧ u.ds.pair = none ∧
      (closed.owes lane = false → u.st = closed.st ∧ u.iu = closed.iu ∧ u.rc = closed.rc ∧
        u.ds.claim.get lane.other = closed.ds.claim.get lane.other)) := by
  intro u closed lives
  have reported := h.reported
  have left := reported.failedLane h.quiet o
  have next : NextState t u lane := nextState_nextOfFailed h.quiet o
  refine ⟨left.timeout, left.repeated, next.moves.other.trans reported.other, fun late => ?_, fun first other => ?_,
    fun first other => ?_⟩
  · rw [next.moves.pair, h.late late]
    exact pair
  · have waits := h.waits first other
    have paired : t.ds.pair = some (c.recorded lane .failed) := by rw [waits]; rfl
    refine ⟨fun live => ?_, next.moves.pair.trans paired, fun owes => ?_⟩
    · have ends := left.lives live
      rw [claimAfter_of_pair (by rw [paired]; exact Option.some_ne_none _), show t.ds.claim.get lane = none by
        rw [waits]; exact free] at ends
      exact ends
    · have stands := next.stands (by rw [waits]; exact owes)
      rw [stands.span?, stands.st, waits]
      exact ⟨findSlot_putSlot_self _ _ _, rfl⟩
  · have closes := h.closes first other
    have gone : t.ds.pair = none := by
      rw [closes]
      exact (closes_closePair _ _).pair
    refine ⟨fun live => ?_, next.moves.pair.trans gone, fun owes => ?_⟩
    · have ends := left.lives live
      rw [reported.claimNow gone] at ends
      exact ends
    · have stands := next.stands (by rw [closes]; exact owes)
      rw [stands.st, stands.iu, stands.rc, next.moves.otherClaim, closes]
      exact ⟨rfl, rfl, rfl, rfl⟩

end Sys2Proof.Machine

/-! An index job that fails: outside a pair, and as the follower of a FORMING pair (R119 to R122, R145, R162). -/

namespace Sys2Proof.Machine

/-- A lane whose index job has failed. -/
def LaneUnit.failedIndex (a : LaneUnit) : LaneUnit := { a with job := none, timer := none }

/-- The state with a lane's index job dropped, before its block is missed. -/
def State.dropsIndex (s : State) (lane : Lane) : State := (s.dropJob lane 0).setFlag .indexMissed

theorem dropsIndex_outside (s : State) (lane : Lane) :
    Outside (s.withLane lane (s.lane lane).failedIndex) (s.indexFailed lane) :=
  (outside_setFlag (s.dropJob lane 0) _).trans (outside_blockMissed _ lane)

theorem dropsIndex_standsBy (s : State) (lane : Lane) : StandsBy s (s.dropsIndex lane) :=
  (StandsBy.mk rfl rfl rfl rfl : StandsBy s (s.dropJob lane 0)).trans (standsBy_setFlag _ _)

theorem dropsIndex_state (s : State) (lane : Lane) (l : Lane) : ((s.dropsIndex lane).lane l).state = (s.lane l).state := by
  have al : (s.dropsIndex lane).al = (s.dropJob lane 0).al := setFlag_al _ _
  rw [State.lane, al]
  cases lane <;> cases l <;> rfl

section Fails

variable {s : State} {lane : Lane}

theorem indexFailed_reported (s : State) (lane : Lane) :
    Reported s lane (s.lane lane).failedIndex (s.indexFailed lane) := (dropsIndex_outside s lane).reported

theorem indexFailed_flag (s : State) (lane : Lane) : (s.indexFailed lane).nu.isPending .indexMissed = true :=
  (within_blockMissed (s.dropsIndex lane) lane).kept.flags _ (setFlag_pending _ _)

theorem indexFailed_ds (s : State) (lane : Lane) : (s.indexFailed lane).ds = s.ds := (dropsIndex_outside s lane).ds

theorem indexFailed_missed {w : Writing} (writing : s.iu.writing = some w) (owed : w.duty.get lane = .owed) :
    IndexMissed s lane w (s.indexFailed lane) :=
  indexMissed (dropsIndex_state s lane) (dropsIndex_standsBy s lane) writing owed

/-- Before the lane takes its next state, its block is missed, and is done where the other lane does not owe it. -/
theorem NextState.block {u : State} {w : Writing} (h : NextState (s.indexFailed lane) u lane)
    (writing : s.iu.writing = some w) (owed : w.duty.get lane = .owed) :
    (w.duty.get lane.other = .owed →
      u.iu = { s.iu with writing := some { w with duty := w.duty.set lane .missed } }) ∧
    (w.duty.get lane.other ≠ .owed → NothingWaits s → (s.buffer w.buffer.other).state ≠ .closed →
      u.nu.isPending .checkpointDone = true ∧
      u.iu = { s.iu with
        buffers := s.iu.buffers.set w.buffer { state := .empty, entries := [], final := false }
        writing := none, blockSeq := s.iu.blockSeq + 1 } ∧
      MissedEnds s w lane u) := by
  have missed := indexFailed_missed writing owed
  refine ⟨fun other => ?_, fun other nothing closed => ?_⟩
  · have iu := missed.waits other
    have free : (s.indexFailed lane).owes lane = false := by
      rw [State.owes, iu]
      simp [PerLane.get_set_self]
    exact (h.stands free).iu.trans iu
  · obtain ⟨iu, ends⟩ := missed.done other closed nothing
    have stands := h.stands (owes_of_writing lane (by rw [iu]))
    exact ⟨h.flags _ (missed.flag other), stands.iu.trans iu, ends.congr stands.rc h.flags⟩

end Fails

end Sys2Proof.Machine

/-! A FORMING pair whose follower becomes READY, parks, or is lost (R117 to R122, R140). -/

namespace Sys2Proof.Machine

/-! ### The join (R119, R140) -/

theorem PairContext.lane_cases (c : PairContext) (l : Lane) : l = c.follower ∨ l = c.leader := by
  by_cases leader : l = c.leader
  · exact .inr leader
  · exact .inl (Lane.ne_iff_other.mp leader)

/-- A lane writes the span of its pair, from its cursor. -/
def LaneUnit.WritesPairFrom (b : LaneUnit) (c : PairContext) (first : Nat) : Prop :=
  b.state = .busy ∧ ∃ k, b.job = some (.span k) ∧ k.slot = c.slot ∧ k.runId = c.runId ∧ k.seq = c.seq ∧
    k.started = true ∧ k.first = first

theorem startSpanJob_writes (s : State) (lane : Lane) (c : PairContext) :
    ((s.startSpanJob lane c.slot c.runId c.seq).lane lane).WritesPairFrom c (s.lane lane).dataCursor := by
  have own : (s.startSpanJob lane c.slot c.runId c.seq).lane lane = _ := get_startSpanJob s lane c.slot c.runId c.seq
  rw [own]
  exact ⟨rfl, s.startedJob lane c.slot c.runId c.seq, rfl, rfl, rfl, rfl, rfl, rfl⟩

/-- A pair has joined. -/
structure Joins (x : State) (c : PairContext) (u : State) : Prop where
  pair : u.ds.pair = some { c with phase := .active }
  writes : ∀ l, (u.lane l).WritesPairFrom c (x.lane l).dataCursor
  starts : ∀ sp, x.span? c.slot = some sp → ∀ l, StartsJob (x.lane l) c.slot c.runId c.seq sp (u.lane l)
  claim : ∀ l, u.ds.claim.get l = none
  stands : StandsBy x u
  wire : ∃ f, u.wire.get c.follower = x.wire.get c.follower ++ [f]

theorem joins (x : State) (c : PairContext) : Joins x c (x.join c) := by
  let y := x.setPair (some { c with phase := .active })
  let z := y.startSpanJob c.follower c.slot c.runId c.seq
  have first : Moves c.follower y z := moves_startSpanJob y c.follower c.slot c.runId c.seq
  have second : Moves c.leader z (x.join c) := moves_startSpanJob z c.leader c.slot c.runId c.seq
  have stands : StandsBy x z := StandsBy.trans (t := y) ⟨rfl, rfl, rfl, rfl⟩ (startSpanJob_standsBy y _ _ _ _)
  have follower : (x.join c).lane c.follower = z.lane c.follower := second.other
  have leader : z.lane c.leader = x.lane c.leader := first.al _ c.leader_ne
  refine ⟨second.pair.trans first.pair, fun l => ?_, fun sp found l => ?_, fun l => ?_,
    stands.trans (startSpanJob_standsBy z _ _ _ _), ?_⟩
  · obtain rfl | rfl := c.lane_cases l
    · rw [follower]
      exact startSpanJob_writes y c.follower c
    · rw [← leader]
      exact startSpanJob_writes z c.leader c
  · obtain rfl | rfl := c.lane_cases l
    · rw [follower]
      exact startsJob (s := y) found c.follower c.runId c.seq
    · rw [← leader]
      exact startsJob (s := z) ((stands.span? c.slot).trans found) c.leader c.runId c.seq
  · obtain rfl | rfl := c.lane_cases l
    · exact second.otherClaim.trans (claim_startSpanJob y c.follower c.slot c.runId c.seq)
    · exact claim_startSpanJob z c.leader c.slot c.runId c.seq
  · obtain ⟨f, wire⟩ := startSpanJob_wire y c.follower c.slot c.runId c.seq
    refine ⟨f, ?_⟩
    have kept : (x.join c).wire.get c.follower = z.wire.get c.follower := startSpanJob_wire_other z c.leader c.slot c.runId c.seq
    rw [kept]
    change (y.startSpanJob c.follower c.slot c.runId c.seq).wire.get c.follower = _
    rw [wire, PerLane.get_set_self]
    rfl

/-! ### The leader of a pair that loses its follower (R121, R122) -/

theorem pairPolicy_of_found {s : State} {c : PairContext} {sp : Span} (found : s.span? c.slot = some sp) {p : MirrorPolicy}
    (policy : sp.mirrorPolicy = some p) : s.pairPolicy c = p := by
  rw [State.pairPolicy, found]
  exact congrArg (fun o : Option MirrorPolicy => o.getD .strict) policy

section Leader

variable {z u : State} {c : PairContext}

/-- The state that the leader takes with its write ended unstarted. -/
theorem Returns.leader (h : Returns z c u) :
    (u.lane c.leader).job = none ∧
      ((z.lane c.leader).action = .none → (u.lane c.leader).state = .ready) ∧
      ((z.lane c.leader).action = .pause → (u.lane c.leader).state = .paused) ∧
      ((z.lane c.leader).action = .park → (u.lane c.leader).state = .parking) := by
  refine ⟨?_, fun none => ?_, fun pause => ?_, fun park => ?_⟩
  · cases action : (z.lane c.leader).action with
    | none => rw [(h.ends.ready action).1]
    | pause => rw [(h.ends.pause action).1]
    | park => rw [(h.ends.park action).1]
  · rw [(h.ends.ready none).1]
  · rw [(h.ends.pause pause).1]
  · rw [(h.ends.park park).1]

/-- The span is back in its queue, where no span's entry waited. -/
theorem Returns.span (h : Returns z c u) {sp : Span} (found : z.span? c.slot = some sp) (spans : z.iu.waitSpans = [])
    (live : z.rc.expired = false) : u.span? c.slot = some { sp with state := .queued } := by
  obtain ⟨queued, -, -⟩ := requeue_queued found live
  by_cases free : (z.lane c.leader).action ≠ .pause ∨ z.owes c.leader = false
  · exact ((h.stands live free).span? c.slot).trans queued
  · obtain ⟨pause, owes⟩ := not_or.mp free
    obtain ⟨w, stands, st, -⟩ := h.missed live (not_not.mp pause) (by simpa using owes)
    have waits : w.iu.waitSpans = [] := by
      rw [stands.iu, requeue_live_only live]
      exact spans
    have same : u.span? c.slot = w.span? c.slot := by
      rw [State.span?, st, (blockMissed_tableStands waits c.leader).st]
      rfl
    exact same.trans ((stands.span? c.slot).trans queued)

end Leader

end Sys2Proof.Machine

/-! A WRITE that fails, settled (O59). -/

namespace Sys2Proof.Machine

section Gone

variable {s z u : State} {c : PairContext} {sp : Span}

/-- The follower of a FORMING pair has taken a state of its own, the pair not yet dealt with. -/
structure FollowerGone (s : State) (c : PairContext) (z : State) : Prop where
  moves : Moves c.follower s z
  stands : s.iu.waitSpans = [] → TableStands s z

theorem FollowerGone.leader_eq (h : FollowerGone s c z) : z.lane c.leader = s.lane c.leader := h.moves.al _ c.leader_ne

/-- The leader's write has ended unstarted. -/
def LeaderReturns (s : State) (c : PairContext) (sp : Span) (u : State) : Prop :=
  (u.lane c.leader).job = none ∧
    (s.rc.expired = false → u.span? c.slot = some { sp with state := .queued }) ∧
    ((s.lane c.leader).action = .none → (u.lane c.leader).state = .ready) ∧
    ((s.lane c.leader).action = .pause → (u.lane c.leader).state = .paused) ∧
    ((s.lane c.leader).action = .park → (u.lane c.leader).state = .parking)

/-- The leader writes the span singly. -/
def LeaderWrites (s : State) (c : PairContext) (sp : Span) (u : State) : Prop :=
  u.span? c.slot = some sp ∧ (u.lane c.leader).state = .busy ∧
    (u.lane c.leader).action = (s.lane c.leader).action ∧
    ∃ k, (u.lane c.leader).job = some (.span k) ∧ k.slot = c.slot ∧ k.started = true ∧
      k.first = (s.lane c.leader).dataCursor ∧ k.record = some sp

theorem FollowerGone.returns (h : FollowerGone s c z) (returns : Returns z c u) (found : s.span? c.slot = some sp)
    (spans : s.iu.waitSpans = []) : LeaderReturns s c sp u := by
  have stands := h.stands spans
  obtain ⟨job, none, pause, park⟩ := returns.leader
  rw [h.leader_eq] at none pause park
  exact ⟨job, fun live => returns.span ((stands.span? c.slot).trans found) stands.spans (stands.expired.trans live),
    none, pause, park⟩

theorem FollowerGone.writes (h : FollowerGone s c z) (singly : Singly z c u) (found : s.span? c.slot = some sp)
    (spans : s.iu.waitSpans = []) : LeaderWrites s c sp u := by
  have standing : z.span? c.slot = some sp := ((h.stands spans).span? c.slot).trans found
  have starts := singly.starts sp standing
  rw [h.leader_eq] at starts
  obtain ⟨k, job, slot, -, -, started, first, record⟩ := starts.job
  exact ⟨(singly.stands.span? c.slot).trans standing, starts.state, starts.action, k, job, slot, started, first, record⟩

/-- What becomes of the leader, by the policy of the span. -/
theorem FollowerGone.leader (h : FollowerGone s c z) (lost : FollowerLost z c u) (found : s.span? c.slot = some sp)
    (spans : s.iu.waitSpans = []) :
    (sp.mirrorPolicy = some .strict → LeaderReturns s c sp u) ∧
    (sp.mirrorPolicy = some .degrade →
      ((s.lane c.leader).action = .none → LeaderWrites s c sp u) ∧
      (LeaderWrites s c sp u ∨ (s.lane c.leader).action ≠ .none ∧ LeaderReturns s c sp u)) := by
  have standing : z.span? c.slot = some sp := ((h.stands spans).span? c.slot).trans found
  refine ⟨fun strict => h.returns (lost.strict (pairPolicy_of_found standing strict)) found spans, fun degrade => ?_⟩
  obtain ⟨none, either⟩ := lost.degrade (pairPolicy_of_found standing degrade)
  rw [h.leader_eq] at none either
  exact ⟨fun action => h.writes (none action) found spans,
    either.imp (fun singly => h.writes singly found spans) fun ⟨action, returns⟩ => ⟨action, h.returns returns found spans⟩⟩

end Gone

/-! ### The follower after its index job has failed -/

section Follower

variable {s : State} {c : PairContext}

theorem indexFailed_gone (s : State) (c : PairContext) : FollowerGone s c (s.indexFailed c.follower) where
  moves := (moves_onLane s c.follower fun _ => (s.lane c.follower).failedIndex).trans
    ((dropsIndex_outside s c.follower).moves c.follower)
  stands spans := by
    have dropped := (dropsIndex_standsBy s c.follower).tableStands spans
    exact dropped.trans (blockMissed_tableStands dropped.spans c.follower)

theorem checkFollower_forming {z : State} (pair : z.ds.pair = some c) (forming : c.phase = .forming) :
    z.checkFollower c.follower = z.followerLost c := by
  rw [State.checkFollower, pair]
  exact if_pos ⟨forming, rfl⟩

theorem FollowerGone.faults (h : FollowerGone s c z) (cause : FaultCause) : FollowerGone s c (z.enterFaulted c.follower cause) where
  moves := h.moves.trans (moves_enterFaulted z c.follower cause)
  stands spans := by
    have stands := h.stands spans
    have faulted := (faultedAt_standsBy z c.follower cause).tableStands stands.spans
    rw [enterFaulted_eq]
    exact stands.trans (faulted.trans (blockMissed_tableStands faulted.spans c.follower))

theorem FollowerGone.pauses (h : FollowerGone s c z) : FollowerGone s c ((z.pausedAt c.follower).blockMissed c.follower) where
  moves := h.moves.trans ((moves_pausedAt z c.follower).trans ((outside_blockMissed _ c.follower).moves c.follower))
  stands spans := by
    have stands := h.stands spans
    have paused : TableStands z (z.pausedAt c.follower) := ⟨rfl, stands.spans, rfl⟩
    exact stands.trans (paused.trans (blockMissed_tableStands paused.spans c.follower))

/-- The lane in READY, with no action pending. -/
def State.readyAt (s : State) (lane : Lane) : State := s.onLane lane fun a => { a with state := .ready, action := .none }

theorem FollowerGone.ready (h : FollowerGone s c z) : FollowerGone s c (z.readyAt c.follower) where
  moves := h.moves.trans (moves_onLane z c.follower _)
  stands spans := ⟨(h.stands spans).st, (h.stands spans).spans, (h.stands spans).expired⟩

theorem readyAt_lane (s : State) (lane : Lane) :
    (s.readyAt lane).lane lane = { s.lane lane with state := .ready, action := .none } := get_onLane _ _ _

/-- A follower whose job ends with no action pending becomes READY, and joins or is lost. -/
theorem afterJob_forming {t : State} (pair : t.ds.pair = some c) (forming : c.phase = .forming)
    (action : (t.lane c.follower).action = .none) :
    t.afterJob c.follower =
      if (t.lane c.follower).dataFull then (t.readyAt c.follower).followerLost c else (t.readyAt c.follower).join c := by
  have ready : (t.onLane c.follower fun a => { a with action := .none }).setLaneState c.follower .ready =
      t.readyAt c.follower := by
    rw [State.setLaneState, onLane_onLane]
    rfl
  have full : ((t.onLane c.follower fun a => { a with action := .none }).lane c.follower).dataFull =
      (t.lane c.follower).dataFull := by
    rw [State.lane_eq, get_onLane]
    rfl
  unfold State.afterJob
  rw [action]
  dsimp only
  unfold State.enterReady
  rw [show (t.onLane c.follower fun a => { a with action := .none }).ds.pair = some c from pair]
  dsimp only
  rw [if_pos ⟨forming, rfl⟩, ready, full]

end Follower

end Sys2Proof.Machine

/-! A WRITE that fails, settled part by part. -/

namespace Sys2Proof.Machine

theorem Kept.of_jobFailed (s : State) (lane : Lane) (j : SpanJob) (o : Outcome) : Kept s (s.jobFailed lane j o) :=
  (within_jobFailed s lane j o).kept

theorem writesPair_withLane {s : State} {lane : Lane} {j : SpanJob} {c : PairContext} {sp : Span} (h : WritesPair s j c sp)
    (a : LaneUnit) : WritesPair (s.withLane lane a) j c sp := ⟨h.pair, h.active, h.slot, h.runId, h.seq, h.requested⟩

theorem within_nextOfMissed (t : State) (lane : Lane) (o : Outcome) : Within t (t.nextOfMissed lane o) := by
  unfold State.nextOfMissed
  split
  · exact within_faultLane t lane _
  · exact within_afterJob t lane

section Index

variable {s : State} {lane : Lane} {o : Outcome}

/-- The lane that a failed index job leaves, outside a pair. -/
theorem indexFailed_next (pair : s.ds.pair = none) (o : Outcome) :
    NextState (s.indexFailed lane) ((s.indexFailed lane).nextOfMissed lane o) lane ∧
      (o = .timeout → Faults s ((s.indexFailed lane).nextOfMissed lane o) lane (s.lane lane).failedIndex .timeout) ∧
      (o ≠ .timeout → JobEnds s ((s.indexFailed lane).nextOfMissed lane o) lane (s.lane lane).failedIndex
        (s.claimNow (s.lane lane).failedIndex)) := by
  have gone : (s.indexFailed lane).ds.pair = none := by
    rw [indexFailed_ds]
    exact pair
  have quiet := formingFollower_of_none gone (lane := lane)
  have reported := indexFailed_reported s lane
  refine ⟨nextState_nextOfMissed quiet o, fun timeout => ?_, fun other => ?_⟩
  · rw [nextOfMissed_timeout timeout, faultLane_of_quiet quiet]
    exact reported.faults .timeout
  · rw [nextOfMissed_other other]
    exact reported.jobEnds quiet (reported.claimNow gone)

end Index

section Follower

variable {s : State} {c : PairContext} {o : Outcome}

/-- The follower is lost to the pair, and left as `v`. -/
def LostAs (s : State) (c : PairContext) (u : State) (v : LaneUnit) : Prop :=
  ∃ z, FollowerGone s c z ∧ FollowerLost z c u ∧ z.lane c.follower = v

theorem LostAs.own {u : State} {v : LaneUnit} (h : LostAs s c u v) : u.lane c.follower = v := by
  obtain ⟨z, -, follower, own⟩ := h
  exact follower.lost.follower.trans own

theorem LostAs.pair {u : State} {v : LaneUnit} (h : LostAs s c u v) : u.ds.pair = none := by
  obtain ⟨z, -, follower, -⟩ := h
  exact follower.lost.pair

/-- The follower's index job has failed: it joins the pair, parks with its wake pending, or is lost to it. -/
structure FollowerFails (s : State) (c : PairContext) (o : Outcome) (u : State) : Prop where
  joins : o ≠ .timeout → (s.lane c.follower).action = .none → (s.lane c.follower).dataFull = false →
    u.ds.pair = some { c with phase := .active } ∧ ∀ l, (u.lane l).WritesPairFrom c (s.lane l).dataCursor
  parks : o ≠ .timeout → (s.lane c.follower).action = .park →
    u.ds.pair = some c ∧
    u.lane c.follower =
      { (s.lane c.follower).failedIndex with
        state := .parking, action := .none, wakePending := true, burstTag := (s.lane c.follower).burstTag + 1,
        timer := some (s.lane c.follower).settings.responseTime } ∧
    u.wire = s.wire.set c.follower (s.wire.get c.follower ++ [.park ((s.lane c.follower).burstTag + 1)])
  faults : o = .timeout → LostAs s c u { (s.lane c.follower).failedIndex with
    state := .faulted, fault := .timeout, action := .none, wakePending := false }
  pauses : o ≠ .timeout → (s.lane c.follower).action = .pause →
    LostAs s c u { (s.lane c.follower).failedIndex with state := .paused, action := .none }
  full : o ≠ .timeout → (s.lane c.follower).action = .none → (s.lane c.follower).dataFull = true →
    LostAs s c u { (s.lane c.follower).failedIndex with state := .ready } ∧
      (s.ds.claim.get c.follower = none → u.ds.claim.get c.follower = s.claimNow (s.lane c.follower).failedIndex)

theorem followerFails (pair : s.ds.pair = some c) (forming : c.phase = .forming) (o : Outcome) :
    FollowerFails s c o ((s.indexFailed c.follower).nextOfMissed c.follower o) := by
  have reported := indexFailed_reported s c.follower
  have gone := indexFailed_gone s c
  have paired : (s.indexFailed c.follower).ds.pair = some c := gone.moves.pair.trans pair
  have own : (s.indexFailed c.follower).lane c.follower = (s.lane c.follower).failedIndex := reported.own
  have action : ((s.indexFailed c.follower).lane c.follower).action = (s.lane c.follower).action :=
    (congrArg LaneUnit.action own :)
  have dataFull : ((s.indexFailed c.follower).lane c.follower).dataFull = (s.lane c.follower).dataFull :=
    (congrArg LaneUnit.dataFull own :)
  refine ⟨fun other none room => ?_, fun other park => ?_, fun timeout => ?_, fun other pause => ?_, fun other none full => ?_⟩
  · rw [nextOfMissed_other other, afterJob_forming paired forming (action.trans none), dataFull, room]
    have join := joins ((s.indexFailed c.follower).readyAt c.follower) c
    have cursor (l : Lane) : (((s.indexFailed c.follower).readyAt c.follower).lane l).dataCursor = (s.lane l).dataCursor := by
      obtain rfl | rfl := c.lane_cases l
      · rw [readyAt_lane, own]
        rfl
      · rw [gone.ready.leader_eq]
    refine ⟨join.pair, fun l => ?_⟩
    have writes := join.writes l
    rw [cursor] at writes
    exact writes
  · have quiet : (s.indexFailed c.follower).formingFollower c.follower = true := by
      rw [State.formingFollower, paired]
      simp [forming]
    rw [nextOfMissed_other other, afterJob_park (action.trans park), quiet, own, reported.wire]
    exact ⟨paired, PerLane.get_set_self _ _ _, rfl⟩
  · have faulted := gone.faults .timeout
    refine ⟨_, faulted, ?_, ?_⟩
    · rw [nextOfMissed_timeout timeout, State.faultLane, checkFollower_forming (faulted.moves.pair.trans pair) forming]
      exact followerLost_spec _ c
    · rw [(enterFaulted_faults _ _ _).entered, own]
      rfl
  · have paused := gone.pauses
    refine ⟨_, paused, ?_, ?_⟩
    · rw [nextOfMissed_other other, afterJob_pauses (action.trans pause),
        checkFollower_forming (paused.moves.pair.trans pair) forming]
      exact followerLost_spec _ c
    · rw [State.lane, (outside_blockMissed _ _).al]
      exact (pausedAt_lane _ _).trans (by rw [own])
  · have follower : FollowerLost ((s.indexFailed c.follower).readyAt c.follower) c
        ((s.indexFailed c.follower).nextOfMissed c.follower o) := by
      rw [nextOfMissed_other other, afterJob_forming paired forming (action.trans none), dataFull, full]
      exact followerLost_spec _ c
    have ready : ((s.indexFailed c.follower).readyAt c.follower).lane c.follower =
        { (s.lane c.follower).failedIndex with state := .ready } := by
      rw [readyAt_lane, own, LaneUnit.failedIndex, ← none]
    refine ⟨⟨_, gone.ready, follower, ready⟩, fun free => follower.lost.claim.trans ?_⟩
    have unclaimed : ((s.indexFailed c.follower).readyAt c.follower).ds.claim.get c.follower = Option.none :=
      (congrArg (fun ds : DrainScheduler => ds.claim.get c.follower) (indexFailed_ds s c.follower)).trans free
    have now : ((s.indexFailed c.follower).readyAt c.follower).now = s.now := reported.now
    unfold State.roleClaim State.claimNow
    rw [ready, now]
    exact if_pos ⟨.inl rfl, unclaimed⟩

/-- What becomes of the leader of a pair that is lost. -/
theorem FollowerFails.lost {u : State} (h : FollowerFails s c o u)
    (lost : o = .timeout ∨ (s.lane c.follower).action = .pause ∨
      (s.lane c.follower).action = .none ∧ (s.lane c.follower).dataFull = true) : ∃ v, LostAs s c u v := by
  by_cases timeout : o = .timeout
  · exact ⟨_, h.faults timeout⟩
  · obtain pause | ⟨none, full⟩ := lost.resolve_left timeout
    · exact ⟨_, h.pauses timeout pause⟩
    · exact ⟨_, (h.full timeout none full).1⟩

end Follower

/-- Settles O59: by the lane's job, and for an index job by what the lane is to the pair. -/
theorem failedWriteLeavesDeadSpace : Obligations.FailedWriteLeavesDeadSpace := by
  refine ⟨?_, ?_, ?_⟩
  · intro s lane tag j row o writes fails a ended lives
    have run := writes.failsSpan fails
    have failed := failedOutcome fails
    refine ⟨fun pair => ?_, ?_⟩
    · obtain ⟨t, ends⟩ := failsSpan (j := j) (lane := lane) pair failed
      have kept := Kept.of_jobFailed s lane j o
      rw [ends.next] at run kept
      have own := ends.failedLane
      exact ⟨_, run, own.timeout, own.repeated, own.lives, ends.nextState.moves.other.trans ends.reported.other, kept,
        fun sp requested owes => ends.left requested owes⟩
    · intro c sp pair active slot runId seq requested free noted recorded closed
      have report := pairReport (writesPair_withLane (lane := lane) ⟨pair, active, slot, runId, seq, requested⟩
        ((s.lane lane).failedSpan j.reserved)) lane failed.known 0
      rw [failed.failed, show sp.afterWrite lane o 0 = noted from if_neg failed.notDone] at report
      rw [jobFailed_eq] at run
      exact ⟨_, run, report.nextOfFailed o pair free⟩
  · intro s lane tag j row o writes fails pair ended
    have run := writes.failsIndex fails
    obtain ⟨next, faults, ends⟩ := indexFailed_next (lane := lane) pair o
    have kept := ((within_indexFailed s lane).trans (within_nextOfMissed _ lane o)).kept
    refine ⟨_, run, next.flags _ (indexFailed_flag s lane), faults, ends,
      next.moves.other.trans (indexFailed_reported s lane).other, kept, fun w writing owed => ?_⟩
    obtain ⟨waits, done⟩ := next.block writing owed
    refine ⟨waits, fun other gaps runEnd spans open_ => ?_⟩
    obtain ⟨flag, iu, missed⟩ := done other ⟨spans, gaps, runEnd⟩ open_
    exact ⟨flag, iu, missed.goes, missed.ends⟩
  · intro s lane tag j row o c sp writes fails pair forming named found a ended joins lost
    subst named
    have run := writes.failsIndex fails
    have fate := followerFails pair forming o
    have flag := (within_nextOfMissed (s.indexFailed c.follower) c.follower o).kept.flags _ (indexFailed_flag s c.follower)
    refine ⟨_, run, flag, fun joined => fate.joins joined.1 joined.2.1 joined.2.2, fate.parks, fun gone => ?_⟩
    obtain ⟨v, as⟩ := fate.lost gone
    refine ⟨as.pair, fun timeout => (fate.faults timeout).own, fun other pause => (fate.pauses other pause).own,
      fun other none => ?_, fun spans => ?_⟩
    · have full : (s.lane c.follower).dataFull = true := by
        obtain timeout | pause | ⟨-, full⟩ := gone
        · exact absurd timeout other
        · rw [none] at pause
          exact PendingAction.noConfusion pause
        · exact full
      obtain ⟨ready, claim⟩ := fate.full other none full
      exact ⟨ready.own, claim⟩
    · obtain ⟨z, left, follower, -⟩ := as
      exact left.leader follower found spans

end Sys2Proof.Machine

/-! The close of a pair by its two outcomes, and the claims of the lanes whose roles end (R101, R127 to R130). -/

namespace Sys2Proof.Machine

/-! ### Both roles end (R101) -/

theorem rolesEnded_claim {s : State} (pair : s.ds.pair = none) (l : Lane) : s.rolesEnded.ds.claim.get l = s.roleClaim l := by
  have first := moves_roleEnded s .l0
  have second := moves_roleEnded (s.roleEnded .l0) .l1
  change ((s.roleEnded .l0).roleEnded .l1).ds.claim.get l = _
  cases l with
  | l0 => rw [second.claim .l0 Lane.noConfusion, roleEnded_claim pair]
  | l1 =>
    have now : (s.roleEnded .l0).now = s.now := by rw [(roleEnded_same s .l0).1]
    rw [roleEnded_claim (first.pair.trans pair), roleClaim_congr (first.al .l1 Lane.noConfusion)
      (first.claim .l1 Lane.noConfusion) now]

theorem rolesEnded_standsBy (s : State) : StandsBy s s.rolesEnded := by
  have same := (rolesEnded_same s).1
  constructor <;> rw [same]

theorem rolesEnded_thins {s : State} (table : TableOk s.st) : Thins s s.rolesEnded := .of_st table (rolesEnded_standsBy s).st

/-! ### The disposal of the span by the two outcomes (R127) -/

section Outcomes

variable {s : State} {c : PairContext}

theorem closeSpan_both (done : c.outcome = ⟨.done, .done⟩) : s.closeSpan c = s.commit c.slot := by
  unfold State.closeSpan
  rw [done]
  rfl

theorem closeSpan_partial {lane : Lane} (done : c.outcome.get lane = .done) {o : PairOutcome}
    (other : c.outcome.get lane.other = o) (partial_ : o ≠ .done) :
    s.closeSpan c = s.closePartial c (o == .failed) ∧ c.lacking = lane.other := by
  unfold State.closeSpan PairContext.lacking
  cases lane
  · have l0 : c.outcome.l0 = .done := done
    have l1 : c.outcome.l1 = o := other
    rw [l0, l1]
    cases o <;> first | exact ⟨rfl, rfl⟩ | exact absurd rfl partial_
  · have l1 : c.outcome.l1 = .done := done
    have l0 : c.outcome.l0 = o := other
    rw [l0, l1]
    cases o <;> first | exact ⟨rfl, rfl⟩ | exact absurd rfl partial_

/-- With neither lane DONE, an attempt is counted where one has FAILED. -/
theorem closeSpan_bare (bare : ∀ lane, c.outcome.get lane = .failed ∨ c.outcome.get lane = .cancelled) :
    ((∃ lane, c.outcome.get lane = .failed) → s.closeSpan c = (s.onSpan c.slot Span.countAttempt).failOrRequeue c.slot) ∧
    ((∀ lane, c.outcome.get lane = .cancelled) → s.closeSpan c = s.requeue c.slot) := by
  have b0 : c.outcome.l0 = .failed ∨ c.outcome.l0 = .cancelled := bare .l0
  have b1 : c.outcome.l1 = .failed ∨ c.outcome.l1 = .cancelled := bare .l1
  unfold State.closeSpan
  refine ⟨fun ⟨lane, failed⟩ => ?_, fun cancelled => ?_⟩
  · cases lane
    · have l0 : c.outcome.l0 = .failed := failed
      rw [l0]
      obtain l1 | l1 := b1 <;> rw [l1] <;> rfl
    · have l1 : c.outcome.l1 = .failed := failed
      rw [l1]
      obtain l0 | l0 := b0 <;> rw [l0] <;> rfl
  · have l0 : c.outcome.l0 = .cancelled := cancelled .l0
    have l1 : c.outcome.l1 = .cancelled := cancelled .l1
    rw [l0, l1]
    rfl

end Outcomes

/-! ### What a disposal leaves of the span -/

section Span

variable {s : State} {slot : Nat} {sp : Span} (found : s.span? slot = some sp)
include found

theorem onSpan_table (table : TableOk s.st) (f : Span → Span) : TableOk (s.onSpan slot f).st := by
  rw [onSpan_found found]
  exact setSpan_table table found _

theorem onSpan_self (f : Span → Span) : (s.onSpan slot f).span? slot = some (f sp) := by
  rw [onSpan_found found]
  exact setSpan_self _ _ _

/-- A committed span is left COMMITTED, unless its entry was admitted. -/
theorem commit_kept (table : TableOk s.st) (may : sp.mayCommit s.rc.expired = true) {u : State}
    (thins : Thins (s.commit slot) u) {x : Span} (left : u.span? slot = some x) : x = sp.committed := by
  rw [commit_found found may] at thins
  exact offered_kept table found SpanState.noConfusion thins left

theorem commit_table (table : TableOk s.st) (may : sp.mayCommit s.rc.expired = true) : TableOk (s.commit slot).st := by
  rw [commit_found found may]
  exact offerSpan_table (thins_dequeued table found SpanState.noConfusion) slot

/-- A span whose attempt has been counted, after the roles have ended: back in its queue, or shed at the limit. -/
theorem failOrRequeue_ended (table : TableOk s.st) (live : s.rc.expired = false) :
    (sp.attempts < s.spm.limit → (s.failOrRequeue slot).rolesEnded.span? slot = some { sp with state := .queued }) ∧
    (s.spm.limit ≤ sp.attempts → (s.failOrRequeue slot).rolesEnded.nu.isPending .spanFailed = true ∧
      ∀ v, (s.failOrRequeue slot).rolesEnded.span? slot = some v → v = sp.failed) := by
  refine ⟨fun under => ?_, fun limit => ⟨?_, fun v left => ?_⟩⟩
  · rw [(rolesEnded_standsBy _).span?, failOrRequeue_under found under]
    exact (requeue_queued found live).1
  · refine (within_rolesEnded _).kept.flags _ ?_
    rw [failOrRequeue_over found limit]
    exact setFlag_pending _ _
  · exact failOrRequeue_kept found table limit (rolesEnded_thins (failOrRequeue_table found table limit)) left

theorem requeue_ended (live : s.rc.expired = false) :
    (s.requeue slot).rolesEnded.span? slot = some { sp with state := .queued } := by
  rw [(rolesEnded_standsBy _).span?]
  exact (requeue_queued found live).1

end Span

/-! ### A pair that closes with one lane DONE (R127, R128, R130) -/

section Partial

variable {s : State} {c : PairContext} {sp : Span} (found : s.span? c.slot = some sp)
include found

theorem closePartial_cancelled :
    s.closePartial c false = (s.setSpan c.slot { sp with repairLane := some c.lacking }).requeue c.slot := by
  unfold State.closePartial
  dsimp only
  rw [if_neg Bool.false_ne_true, found]
  dsimp only
  rw [if_neg fun k => Bool.noConfusion k.1]
  exact if_neg Bool.false_ne_true

theorem closePartial_strict (strict : sp.mirrorPolicy = some .strict) :
    s.closePartial c true =
      (s.setSpan c.slot { sp.countAttempt with repairLane := some c.lacking }).failOrRequeue c.slot := by
  have policy : ¬ (true = true ∧ sp.countAttempt.mirrorPolicy = some MirrorPolicy.degrade) := fun k => by
    have degrade : sp.mirrorPolicy = some .degrade := k.2
    rw [strict] at degrade
    cases degrade
  unfold State.closePartial
  dsimp only
  rw [if_pos rfl, onSpan_self found, onSpan_found found]
  dsimp only
  rw [if_neg policy, if_pos rfl, State.setSpan, State.setSpan, State.setSt_st, putSlot_putSlot]
  rfl

theorem closePartial_degrade (degrade : sp.mirrorPolicy = some .degrade) (live : s.rc.expired = false) :
    s.closePartial c true = ((s.setSpan c.slot sp.countAttempt).commit c.slot).setFlag .pairDegraded := by
  unfold State.closePartial
  dsimp only
  rw [if_pos rfl, onSpan_self found, onSpan_found found]
  dsimp only
  rw [if_pos ⟨rfl, degrade⟩]
  exact if_neg (by rw [show (s.setSpan c.slot sp.countAttempt).rc.expired = false from live]; exact Bool.false_ne_true)

end Partial

end Sys2Proof.Machine

/-! A pair that closes, by its outcomes, and what the leader's LANE RESET leaves of a FORMING pair (R101, R123, R127 to R130). -/

namespace Sys2Proof.Machine

theorem closePair_lane (s : State) (c : PairContext) (l : Lane) : (s.closePair c).lane l = s.lane l := by
  rw [State.lane, (closes_closePair s c).al]
  rfl

theorem closePair_claim (s : State) (c : PairContext) (l : Lane) : (s.closePair c).ds.claim.get l = s.roleClaim l := by
  have out := outside_closeSpan (s.setPair none) c
  have same : ((s.setPair none).closeSpan c).roleClaim l = s.roleClaim l := by
    refine roleClaim_congr ?_ ?_ out.now
    · rw [State.lane, out.al]
      rfl
    · rw [out.ds]
      rfl
  exact (rolesEnded_claim (by rw [out.ds]; rfl) l).trans same

theorem committed_alone {sp : Span} (mirror : sp.laneRule = .mirror) (one : sp.copies.length = 1) :
    sp.committed = { sp with state := .committed, repairLane := none, degraded := true } := by
  have alone : (decide (sp.laneRule = .mirror) && decide (sp.copies.length = 1)) = true := by
    rw [mirror, one]
    rfl
  rw [Span.committed, alone]

/-- A repair span, which a lane owes its second copy. -/
def Span.owedBy (sp : Span) (lane : Lane) : Span := { sp with repairLane := some lane }

section Close

variable {s : State} {c : PairContext} {sp : Span} (found : s.span? c.slot = some sp) (live : s.rc.expired = false)
  (table : TableOk s.st)
include found live table

omit live in
/-- Two copies commit the span. -/
theorem closePair_both (mirror : sp.laneRule = .mirror) (done : c.outcome = ⟨.done, .done⟩) (two : sp.copies.length = 2)
    {v : Span} (left : (s.closePair c).span? c.slot = some v) :
    v = { sp with state := .committed, repairLane := none, degraded := false } := by
  have may : sp.mayCommit s.rc.expired = true := by
    rw [Span.mayCommit, mirror, two]
    simp
  have closes : s.closePair c = ((s.setPair none).commit c.slot).rolesEnded :=
    congrArg State.rolesEnded (closeSpan_both (s := s.setPair none) done)
  rw [closes] at left
  have kept := commit_kept (s := s.setPair none) found table may
    (rolesEnded_thins (commit_table (s := s.setPair none) found table may)) left
  rw [kept, Span.committed, mirror, two]
  rfl

/-- One copy, and the other write FAILED, under DEGRADE: the span is committed degraded. -/
theorem closePair_degrade (mirror : sp.laneRule = .mirror) (policy : sp.mirrorPolicy = some .degrade) {lane : Lane}
    (done : c.outcome.get lane = .done) (one : sp.copies.length = 1) (other : c.outcome.get lane.other = .failed) :
    (s.closePair c).nu.isPending .pairDegraded = true ∧
      ∀ v, (s.closePair c).span? c.slot = some v →
        v = { sp.countAttempt with state := .committed, repairLane := none, degraded := true } := by
  obtain ⟨closes, -⟩ := closeSpan_partial (s := s.setPair none) done other PairOutcome.noConfusion
  have step : s.closePair c =
      ((((s.setPair none).setSpan c.slot sp.countAttempt).commit c.slot).setFlag .pairDegraded).rolesEnded :=
    congrArg State.rolesEnded (closes.trans (closePartial_degrade (s := s.setPair none) found policy live))
  have standing := setSpan_self (s.setPair none) c.slot sp.countAttempt
  have tabled := setSpan_table (s := s.setPair none) table found sp.countAttempt
  have may : sp.countAttempt.mayCommit ((s.setPair none).setSpan c.slot sp.countAttempt).rc.expired = true := by
    have rule : sp.countAttempt.laneRule = .mirror := mirror
    have count : sp.countAttempt.copies.length = 1 := one
    have degrade : sp.countAttempt.mirrorPolicy = some .degrade := policy
    rw [Span.mayCommit, rule, count, degrade]
    simp
  rw [step]
  refine ⟨(within_rolesEnded _).kept.flags _ (setFlag_pending _ _), fun v left => ?_⟩
  have committed := commit_table standing tabled may
  have thins : Thins (((s.setPair none).setSpan c.slot sp.countAttempt).commit c.slot)
      ((((s.setPair none).setSpan c.slot sp.countAttempt).commit c.slot).setFlag .pairDegraded).rolesEnded :=
    .of_st committed ((rolesEnded_standsBy _).st.trans (setFlag_st _ _))
  have kept := commit_kept standing tabled may thins left
  exact kept.trans (committed_alone (sp := sp.countAttempt) mirror one)

/-- One copy, and the other write FAILED, under STRICT: a repair span, or one shed at the attempt limit. -/
theorem closePair_strict (policy : sp.mirrorPolicy = some .strict) {lane : Lane}
    (done : c.outcome.get lane = .done) (other : c.outcome.get lane.other = .failed) :
    (sp.attempts + 1 < s.spm.limit → (s.closePair c).span? c.slot =
      some { sp.countAttempt.owedBy lane.other with state := .queued }) ∧
    (s.spm.limit ≤ sp.attempts + 1 → (s.closePair c).nu.isPending .spanFailed = true ∧
      ∀ v, (s.closePair c).span? c.slot = some v →
        v = (sp.countAttempt.owedBy lane.other).failed) := by
  obtain ⟨closes, lacking⟩ := closeSpan_partial (s := s.setPair none) done other PairOutcome.noConfusion
  have step : s.closePair c = (((s.setPair none).setSpan c.slot
      (sp.countAttempt.owedBy lane.other)).failOrRequeue c.slot).rolesEnded := by
    rw [← lacking]
    exact congrArg State.rolesEnded (closes.trans (closePartial_strict (s := s.setPair none) found policy))
  rw [step]
  exact failOrRequeue_ended (setSpan_self (s.setPair none) c.slot (sp.countAttempt.owedBy lane.other))
    (setSpan_table (s := s.setPair none) table found _) live

omit table in
/-- One copy, and the other write CANCELLED: a repair span. -/
theorem closePair_cancelled {lane : Lane} (done : c.outcome.get lane = .done) (other : c.outcome.get lane.other = .cancelled) :
    (s.closePair c).span? c.slot = some { sp with state := .queued, repairLane := some lane.other } := by
  obtain ⟨closes, lacking⟩ := closeSpan_partial (s := s.setPair none) done other PairOutcome.noConfusion
  have step : s.closePair c =
      (((s.setPair none).setSpan c.slot { sp with repairLane := some lane.other }).requeue c.slot).rolesEnded := by
    rw [← lacking]
    exact congrArg State.rolesEnded (closes.trans (closePartial_cancelled (s := s.setPair none) found))
  rw [step]
  exact requeue_ended (setSpan_self (s.setPair none) c.slot { sp with repairLane := some lane.other }) live

/-- No lane DONE: the span returns, with an attempt counted where a lane FAILED. -/
theorem closePair_bare (bare : ∀ lane, c.outcome.get lane = .failed ∨ c.outcome.get lane = .cancelled) :
    ((∃ lane, c.outcome.get lane = .failed) →
      (sp.attempts + 1 < s.spm.limit → (s.closePair c).span? c.slot = some { sp.countAttempt with state := .queued }) ∧
      (s.spm.limit ≤ sp.attempts + 1 → (s.closePair c).nu.isPending .spanFailed = true ∧
        ∀ v, (s.closePair c).span? c.slot = some v → v = sp.countAttempt.failed)) ∧
    ((∀ lane, c.outcome.get lane = .cancelled) →
      (s.closePair c).span? c.slot = some { sp with state := .queued }) := by
  obtain ⟨fails, returns⟩ := closeSpan_bare (s := s.setPair none) bare
  refine ⟨fun failed => ?_, fun cancelled => ?_⟩
  · have step : s.closePair c = (((s.setPair none).setSpan c.slot sp.countAttempt).failOrRequeue c.slot).rolesEnded := by
      refine congrArg State.rolesEnded ((fails failed).trans ?_)
      rw [onSpan_found (s := s.setPair none) found]
    rw [step]
    exact failOrRequeue_ended (setSpan_self (s.setPair none) c.slot sp.countAttempt)
      (setSpan_table (s := s.setPair none) table found _) live
  · have step : s.closePair c = ((s.setPair none).requeue c.slot).rolesEnded :=
      congrArg State.rolesEnded (returns cancelled)
    rw [step]
    exact requeue_ended (s := s.setPair none) found live

end Close

/-! ### LANE RESET of the leader of a FORMING pair (R123, R152) -/

/-- The leader of a FORMING pair has given up its job, and the pair is dissolved. -/
structure Dissolved (s : State) (c : PairContext) (sp : Span) (t : State) : Prop where
  pair : t.ds.pair = none
  span : t.span? c.slot = some { sp with state := .queued, lastOutcome := .cancelled }
  listed : c.slot ∈ t.st.queues.get sp.source
  follower : t.lane c.follower = s.lane c.follower
  claim : t.ds.claim.get c.follower = s.roleClaim c.follower
  owes : t.owes c.leader = s.owes c.leader

theorem cancelJob_dissolves {s : State} {c : PairContext} {j : SpanJob} {sp : Span} (pair : s.ds.pair = some c)
    (forming : c.phase = .forming) (job : (s.lane c.leader).job = some (.span j)) (found : s.span? c.slot = some sp)
    (live : s.rc.expired = false) : Dissolved s c sp (s.cancelJob c.leader) := by
  have up := givesUp_standsBy s c.leader j.reserved
  have alike := givesUp_alike s c.leader j.reserved
  have noted : ((s.givesUp c.leader j.reserved).onSpan c.slot fun x => x.noteOutcome .cancelled) =
      (s.givesUp c.leader j.reserved).setSpan c.slot (sp.noteOutcome .cancelled) :=
    onSpan_found ((up.span? c.slot).trans found) _
  have step : s.cancelJob c.leader = ((((s.givesUp c.leader j.reserved).setSpan c.slot
      (sp.noteOutcome .cancelled)).setPair none).requeue c.slot).rolesEnded := by
    have paired : (s.givesUp c.leader j.reserved).ds.pair = some c := (congrArg DrainScheduler.pair alike.ds).trans pair
    rw [cancelJob_span job, State.reportOutcome, paired, ← noted]
    exact if_pos ⟨forming, rfl⟩
  generalize hx : ((s.givesUp c.leader j.reserved).setSpan c.slot (sp.noteOutcome .cancelled)).setPair none = x at step
  have standing : x.span? c.slot = some (sp.noteOutcome .cancelled) := by
    rw [← hx]
    exact setSpan_self _ _ _
  have alive : x.rc.expired = false := by
    rw [← hx]
    exact (congrArg RunController.expired up.rc).trans live
  have gone : x.ds.pair = none := by rw [← hx]; rfl
  have iu : x.iu = s.iu := by
    rw [← hx]
    exact up.iu
  have only := requeue_live_only alive c.slot
  obtain ⟨queued, listed, -⟩ := requeue_queued standing alive
  have stands := rolesEnded_standsBy (x.requeue c.slot)
  have follower : x.lane c.follower = s.lane c.follower := by
    rw [← hx]
    exact givesUp_other s c.leader j.reserved
  have claims : x.ds.claim.get c.follower = s.ds.claim.get c.follower := by
    rw [← hx]
    exact (congrArg (fun ds : DrainScheduler => ds.claim.get c.follower) alike.ds :)
  have now : x.now = s.now := by
    rw [← hx]
    exact (congrArg State.now (givesUp_eq s c.leader j.reserved) :)
  rw [step]
  refine ⟨?_, (stands.span? _).trans queued, by rw [stands.st]; exact listed, ?_, ?_, ?_⟩
  · rw [(rolesEnded_same _).2, only]
    exact gone
  · rw [(rolesEnded_same _).1, only]
    exact follower
  · rw [rolesEnded_claim (by rw [only]; exact gone), only]
    exact roleClaim_congr follower claims now
  · rw [stands.owes, only]
    exact owes_congr (congrArg IndexUnit.writing iu) _

end Sys2Proof.Machine

/-! The formation of a pair, by the state of the lane named follower (R116 to R119). -/

namespace Sys2Proof.Machine

/-- The context of a pair that a lane forms on a span. -/
def State.pairOf (s : State) (lane : Lane) (slot : Nat) (sp : Span) : PairContext where
  slot := slot
  runId := sp.runId
  seq := sp.seq
  leader := lane
  mode := (s.settings sp.source).pairMode
  phase := .forming
  outcome := ⟨.pending, .pending⟩

/-- The state with a pair formed, before the request reaches the follower. -/
def State.pairFormed (s : State) (lane : Lane) (slot : Nat) (sp : Span) : State :=
  (((s.enter slot { sp with state := .draining }).setPair (some (s.pairOf lane slot sp))).leaveTo lane .busy).setJob lane
    (some (.span (waitingJob slot sp.runId sp.seq)))

/-- The state with a pair formed, as the follower takes the request. -/
def State.pairAsked (s : State) (lane : Lane) (slot : Nat) (sp : Span) : State :=
  (s.pairFormed lane slot sp).setClaim lane.other none

section Forms

variable (s : State) (lane : Lane) (slot : Nat) (sp : Span)

theorem formPair_eq : s.formPair lane slot sp = (s.pairFormed lane slot sp).pairRequest (s.pairOf lane slot sp) := rfl

/-- The lane that leads a pair not yet joined. -/
def LaneUnit.leads (a : LaneUnit) (slot : Nat) (sp : Span) : LaneUnit :=
  { a with state := .busy, job := some (.span (waitingJob slot sp.runId sp.seq)) }

theorem pairFormed_eq : s.pairFormed lane slot sp =
    { s with
      st := (s.enter slot { sp with state := .draining }).st
      al := s.al.set lane ((s.lane lane).leads slot sp)
      ds := { claim := s.ds.claim.set lane none, pair := some (s.pairOf lane slot sp) } } := by
  unfold State.pairFormed State.leaveTo State.setLaneState State.setJob
  rw [onLane_onLane]
  rfl

theorem pairFormed_al : (s.pairFormed lane slot sp).al = s.al.set lane ((s.lane lane).leads slot sp) := by
  rw [pairFormed_eq]

theorem pairAsked_al : (s.pairAsked lane slot sp).al = s.al.set lane ((s.lane lane).leads slot sp) := pairFormed_al s lane slot sp

theorem pairAsked_other : (s.pairAsked lane slot sp).lane lane.other = s.lane lane.other := by
  rw [State.lane, pairAsked_al]
  exact PerLane.get_set_other _ _ _

theorem pairAsked_own : (s.pairAsked lane slot sp).lane lane = (s.lane lane).leads slot sp := by
  rw [State.lane, pairAsked_al]
  exact PerLane.get_set_self _ _ _

theorem pairAsked_ds : (s.pairAsked lane slot sp).ds =
    { claim := (s.ds.claim.set lane none).set lane.other none, pair := some (s.pairOf lane slot sp) } := by
  rw [State.pairAsked, pairFormed_eq]
  rfl

theorem pairAsked_st : (s.pairAsked lane slot sp).st = (s.enter slot { sp with state := .draining }).st := by
  rw [State.pairAsked, pairFormed_eq]
  rfl

theorem pairAsked_wire : (s.pairAsked lane slot sp).wire = s.wire := by
  rw [State.pairAsked, pairFormed_eq]
  rfl

theorem pairAsked_claim (l : Lane) : (s.pairAsked lane slot sp).ds.claim.get l = none := by
  rw [pairAsked_ds]
  cases lane <;> cases l <;> rfl

theorem pairFormed_unit : (s.pairFormed lane slot sp).lane lane.other = s.lane lane.other := by
  rw [State.lane, pairFormed_al]
  exact PerLane.get_set_other _ _ _

theorem pairFormed_state : ((s.pairFormed lane slot sp).lane (s.pairOf lane slot sp).follower).state = (s.lane lane.other).state :=
  congrArg LaneUnit.state (pairFormed_unit s lane slot sp)

/-- The request, by the state of the lane named follower. -/
theorem formPair_by : s.formPair lane slot sp =
    match (s.lane lane.other).state with
    | .ready => (s.pairAsked lane slot sp).join (s.pairOf lane slot sp)
    | .busy =>
      if (s.lane lane.other).writesSpan ∧ (s.pairOf lane slot sp).mode = .cancel then
        ((s.pairAsked lane slot sp).cancelJob lane.other).afterJob lane.other
      else s.pairAsked lane slot sp
    | .parking => (s.pairAsked lane slot sp).onLane lane.other fun a => { a with wakePending := true }
    | .parked => (s.pairAsked lane slot sp).enterWaking lane.other
    | .waking => s.pairAsked lane slot sp
    | .down => s.pairAsked lane slot sp
    | .bringup => s.pairAsked lane slot sp
    | .paused => s.pairAsked lane slot sp
    | .faulted => s.pairAsked lane slot sp := by
  have unit : (s.pairFormed lane slot sp).lane (s.pairOf lane slot sp).follower = s.lane lane.other :=
    pairFormed_unit s lane slot sp
  rw [formPair_eq, State.pairRequest, unit] <;> rfl

theorem pairAsked_span : (s.pairAsked lane slot sp).span? slot = some { sp with state := .draining } := by
  rw [State.span?, pairAsked_st]
  exact span?_enter_self s slot _

theorem pairAsked_unlisted : slot ∉ (s.pairAsked lane slot sp).st.queues.get sp.source := by
  have queue : (s.pairAsked lane slot sp).st.queues.get sp.source = queueRemove slot (s.st.queues.get sp.source) := by
    rw [pairAsked_st]
    exact PerSource.get_set_self _ _ _
  rw [queue]
  exact fun k => (mem_queueRemove.mp k).2 rfl

end Forms

/-- The head is DRAINING and in no queue, and no lane claims. -/
structure Taken (slot : Nat) (sp : Span) (u : State) : Prop where
  span : u.span? slot = some { sp with state := .draining }
  unlisted : slot ∉ u.st.queues.get sp.source
  claim : ∀ l, u.ds.claim.get l = none

/-- The pair is FORMING, its leader waiting. -/
structure Forms (s : State) (lane : Lane) (slot : Nat) (sp : Span) (u : State) : Prop where
  taken : Taken slot sp u
  pair : u.ds.pair = some (s.pairOf lane slot sp)
  own : u.lane lane = (s.lane lane).leads slot sp
  wire : u.wire.get lane = s.wire.get lane

/-- The pair is ACTIVE, and both lanes write. -/
structure Joined (s : State) (lane : Lane) (slot : Nat) (sp : Span) (u : State) : Prop where
  taken : Taken slot sp u
  pair : u.ds.pair = some { s.pairOf lane slot sp with phase := .active }
  writes : ∀ l, (u.lane l).state = .busy ∧
    (u.lane l).dataCursor = (s.lane l).dataCursor + 1 + (sp.count + 2047) / 2048 ∧
    ∃ j, (u.lane l).job = some (.span j) ∧ j.slot = slot ∧ j.started = true ∧
      j.first = (s.lane l).dataCursor ∧ j.record = some { sp with state := .draining }

section Forms

variable {s : State} {lane : Lane} {slot : Nat} {sp : Span}

theorem pairAsked_forms : Forms s lane slot sp (s.pairAsked lane slot sp) :=
  ⟨⟨pairAsked_span s lane slot sp, pairAsked_unlisted s lane slot sp, pairAsked_claim s lane slot sp⟩,
    by rw [pairAsked_ds], pairAsked_own s lane slot sp, by rw [pairAsked_wire]⟩

/-- The follower alone has moved. -/
theorem Forms.of_moves {t u : State} (h : Forms s lane slot sp t) (moves : Moves lane.other t u) (stands : StandsBy t u)
    (claim : u.ds.claim.get lane.other = none) (wire : u.wire.get lane = t.wire.get lane) : Forms s lane slot sp u where
  taken := by
    refine ⟨(stands.span? slot).trans h.taken.span, by rw [stands.st]; exact h.taken.unlisted, fun l => ?_⟩
    by_cases own : l = lane.other
    · rw [own]
      exact claim
    · exact (moves.claim l own).trans (h.taken.claim l)
  pair := moves.pair.trans h.pair
  own := (moves.al lane (Lane.other_ne lane).symm).trans h.own
  wire := wire.trans h.wire

/-- A join that finds the head DRAINING and the cursors as they were. -/
theorem joined_of_joins {x u : State} (h : Joins x (s.pairOf lane slot sp) u)
    (span : x.span? slot = some { sp with state := .draining }) (unlisted : slot ∉ x.st.queues.get sp.source)
    (cursor : ∀ l, (x.lane l).dataCursor = (s.lane l).dataCursor) : Joined s lane slot sp u where
  taken := ⟨(h.stands.span? slot).trans span, by rw [h.stands.st]; exact unlisted, h.claim⟩
  pair := h.pair
  writes l := by
    have starts := h.starts _ span l
    obtain ⟨j, job, same, -, -, started, first, record⟩ := starts.job
    have moved := starts.cursor
    rw [cursor] at moved first
    exact ⟨starts.state, moved, j, job, same, started, first, record⟩

theorem pairAsked_cursor (l : Lane) : ((s.pairAsked lane slot sp).lane l).dataCursor = (s.lane l).dataCursor := by
  by_cases own : l = lane
  · rw [own, pairAsked_own]
    rfl
  · rw [Lane.ne_iff_other.mp own, pairAsked_other]

/-! ### The request, by the follower's state (R117, R118) -/

theorem formPair_ready (state : (s.lane lane.other).state = .ready) : Joined s lane slot sp (s.formPair lane slot sp) := by
  rw [formPair_by, state]
  exact joined_of_joins (joins _ _) (pairAsked_span s lane slot sp) (pairAsked_unlisted s lane slot sp) pairAsked_cursor

theorem formPair_parking (state : (s.lane lane.other).state = .parking) :
    Forms s lane slot sp (s.formPair lane slot sp) ∧
      (s.formPair lane slot sp).lane lane.other = { s.lane lane.other with wakePending := true } ∧
      (s.formPair lane slot sp).wire = s.wire := by
  have wire := pairAsked_wire s lane slot sp
  rw [formPair_by, state]
  generalize pairAsked : s.pairAsked lane slot sp = y at wire
  have forms : Forms s lane slot sp y := pairAsked ▸ pairAsked_forms
  have other : y.lane lane.other = s.lane lane.other := pairAsked ▸ pairAsked_other s lane slot sp
  refine ⟨forms.of_moves (moves_onLane _ _ _) ⟨rfl, rfl, rfl, rfl⟩ (forms.taken.claim _) rfl, ?_, wire⟩
  rw [← other]
  exact get_onLane _ _ _

theorem formPair_parked (state : (s.lane lane.other).state = .parked) :
    Forms s lane slot sp (s.formPair lane slot sp) ∧
      (s.formPair lane slot sp).lane lane.other =
        { s.lane lane.other with
          state := .waking, wakePending := false, burstTag := (s.lane lane.other).burstTag + 1,
          timer := some (s.lane lane.other).settings.wakeTime } ∧
      (s.formPair lane slot sp).wire.get lane.other =
        s.wire.get lane.other ++ [.wake ((s.lane lane.other).burstTag + 1)] := by
  have wire := pairAsked_wire s lane slot sp
  rw [formPair_by, state]
  generalize pairAsked : s.pairAsked lane slot sp = y at wire
  have forms : Forms s lane slot sp y := pairAsked ▸ pairAsked_forms
  have other : y.lane lane.other = s.lane lane.other := pairAsked ▸ pairAsked_other s lane slot sp
  have moves : Moves lane.other y (y.enterWaking lane.other) := moves_enterWaking _ _
  dsimp only
  rw [enterWaking_eq] at moves ⊢
  refine ⟨forms.of_moves moves ⟨rfl, rfl, rfl, rfl⟩ (PerLane.get_set_self _ _ _) ?_, ?_, ?_⟩
  · have apart := PerLane.get_set_other y.wire lane.other (y.wire.get lane.other ++ [.wake ((y.lane lane.other).burstTag + 1)])
    rw [Lane.other_other] at apart
    exact apart
  · rw [← other]
    exact PerLane.get_set_self _ _ _
  · rw [← other, ← wire]
    exact PerLane.get_set_self _ _ _

theorem formPair_goesOn (state : (s.lane lane.other).state = .waking ∨ ((s.lane lane.other).state = .busy ∧
    ((s.pairOf lane slot sp).mode = .wait ∨ ∀ j, (s.lane lane.other).job ≠ some (.span j)))) :
    Forms s lane slot sp (s.formPair lane slot sp) ∧
      (s.formPair lane slot sp).lane lane.other = s.lane lane.other ∧ (s.formPair lane slot sp).wire = s.wire := by
  have step : s.formPair lane slot sp = s.pairAsked lane slot sp := by
    rw [formPair_by]
    obtain waking | ⟨busy, other⟩ := state
    · rw [waking]
    · rw [busy]
      refine if_neg fun k => ?_
      obtain ⟨writes, cancel⟩ := k
      obtain wait | none := other
      · rw [wait] at cancel
        exact PairMode.noConfusion cancel
      · rw [LaneUnit.writesSpan] at writes
        split at writes
        · next j job => exact none j job
        · exact Bool.false_ne_true writes
        · exact Bool.false_ne_true writes
  rw [step]
  exact ⟨pairAsked_forms, pairAsked_other s lane slot sp, pairAsked_wire s lane slot sp⟩

end Forms

end Sys2Proof.Machine

/-! The formation of a pair whose follower's single write is cancelled, and the loss of a follower that does not wake (R117, R118, R121, R122). -/

namespace Sys2Proof.Machine

/-! ### Mode CANCEL (R118) -/

theorem requeue_unlisted {s : State} {slot n : Nat} (live : s.rc.expired = false) (other : n ≠ slot) {src : Source}
    (unlisted : n ∉ s.st.queues.get src) : n ∉ (s.requeue slot).st.queues.get src := by
  cases found : s.span? slot with
  | none => rw [requeue_absent found]; exact unlisted
  | some sp =>
    rw [requeue_live found live]
    by_cases own : sp.source = src
    · subst own
      have queue : (s.enter slot { sp with state := .queued }).st.queues.get sp.source =
          queueInsert (putSlot s.st.slots slot { sp with state := .queued }) slot sp.seq
            (queueRemove slot (s.st.queues.get sp.source)) := PerSource.get_set_self _ _ _
      rw [queue]
      intro k
      obtain same | listed := mem_queueInsert.mp k
      · exact other same
      · exact unlisted (mem_queueRemove.mp listed).1
    · have queue : (s.enter slot { sp with state := .queued }).st.queues.get src = s.st.queues.get src :=
        PerSource.get_set_of_ne _ _ (Ne.symm own)
      rw [queue]
      exact unlisted

/-- A follower's single write has been cancelled for the pair that a lane forms, and the follower is READY. -/
structure Freed (s : State) (lane : Lane) (slot : Nat) (sp : Span) (j : SpanJob) (v : Span) (x : State) : Prop where
  step : s.formPair lane slot sp = x.join (s.pairOf lane slot sp)
  span : x.span? slot = some { sp with state := .draining }
  unlisted : slot ∉ x.st.queues.get sp.source
  cursor : ∀ l, (x.lane l).dataCursor = (s.lane l).dataCursor
  returned : x.span? j.slot = some { v with state := .queued, lastOutcome := .cancelled }
  deadSpace : (x.lane lane.other).deadSpace = (s.lane lane.other).deadSpace + j.reserved
  wire : x.wire.get lane.other = s.wire.get lane.other ++ (s.lane lane.other).cancels

section Cancel

variable {s : State} {lane : Lane} {slot : Nat} {sp v : Span} {j : SpanJob}

theorem formPair_cancels (busy : (s.lane lane.other).state = .busy) (mode : (s.pairOf lane slot sp).mode = .cancel)
    (job : (s.lane lane.other).job = some (.span j)) :
    s.formPair lane slot sp = ((s.pairAsked lane slot sp).cancelJob lane.other).afterJob lane.other := by
  have writes : (s.lane lane.other).writesSpan = true := by rw [LaneUnit.writesSpan, job]
  rw [formPair_by, busy]
  exact if_pos ⟨writes, mode⟩

theorem freed (busy : (s.lane lane.other).state = .busy) (mode : (s.pairOf lane slot sp).mode = .cancel)
    (job : (s.lane lane.other).job = some (.span j)) (action : (s.lane lane.other).action = .none)
    (room : (s.lane lane.other).dataFull = false) (apart : j.slot ≠ slot)
    (requested : s.requested j.slot j.runId j.seq .draining = some v) (live : s.rc.expired = false) :
    ∃ x, Freed s lane slot sp j v x := by
  have step := formPair_cancels (s := s) busy mode job
  have forms : Forms s lane slot sp (s.pairAsked lane slot sp) := pairAsked_forms
  have other := pairAsked_other s lane slot sp
  have cursor := pairAsked_cursor (s := s) (lane := lane) (slot := slot) (sp := sp)
  have wire := pairAsked_wire s lane slot sp
  have alive : (s.pairAsked lane slot sp).rc.expired = false := by
    rw [State.pairAsked, pairFormed_eq]
    exact live
  have asked : (s.pairAsked lane slot sp).requested j.slot j.runId j.seq .draining = some v := by
    rw [State.requested, State.span?, pairAsked_st]
    rw [State.requested] at requested
    have same : findSlot (s.enter slot { sp with state := .draining }).st.slots j.slot = s.span? j.slot :=
      span?_enter_other s _ apart
    rw [same]
    exact requested
  generalize s.pairAsked lane slot sp = y at step forms other cursor wire alive asked
  have has : (y.lane lane.other).job = some (.span j) := by rw [other]; exact job
  have cancelled : y.cancelJob lane.other = (y.cancelled lane.other j v).requeue j.slot :=
    cancelJob_requeues has asked fun c pair => by
      obtain rfl := Option.some.inj (forms.pair.symm.trans pair)
      exact ⟨rfl, (Lane.other_ne lane).symm⟩
  obtain ⟨rc, ds, -, -⟩ := cancelled_standing y lane.other j v
  have going : (y.cancelled lane.other j v).rc.expired = false := by rw [rc]; exact alive
  have only := requeue_live_only going j.slot
  have al : (y.cancelJob lane.other).al = y.al.set lane.other ((s.lane lane.other).dropped j.reserved) := by
    rw [cancelled, only, ← other]
    exact givesUp_unit y lane.other j.reserved
  have own : (y.cancelJob lane.other).lane lane.other = (s.lane lane.other).dropped j.reserved := by
    rw [State.lane, al, PerLane.get_set_self]
  have leader : (y.cancelJob lane.other).lane lane = y.lane lane := by
    rw [State.lane, al]
    have kept := PerLane.get_set_other y.al lane.other ((s.lane lane.other).dropped j.reserved)
    rw [Lane.other_other] at kept
    exact kept
  have paired : (y.cancelJob lane.other).ds.pair = some (s.pairOf lane slot sp) := by
    rw [cancelled, only]
    exact (congrArg DrainScheduler.pair ds).trans forms.pair
  have joined := afterJob_forming (c := s.pairOf lane slot sp) paired rfl (congrArg LaneUnit.action own |>.trans action)
  obtain ⟨kept, -⟩ := requeue_others going apart.symm
  obtain ⟨queued, -, -⟩ := requeue_queued (cancelled_found y lane.other j v) going
  refine ⟨(y.cancelJob lane.other).readyAt lane.other, ?_, ?_, ?_, fun l => ?_, ?_, ?_, ?_⟩
  · rw [step]
    refine joined.trans (if_neg ?_)
    rw [show ((y.cancelJob lane.other).lane (s.pairOf lane slot sp).follower).dataFull = false from
      (congrArg LaneUnit.dataFull own).trans room]
    exact Bool.false_ne_true
  · change (y.cancelJob lane.other).span? slot = _
    rw [cancelled, kept]
    exact (setSpan_other _ _ apart.symm).trans (((givesUp_standsBy y _ _).span? slot).trans forms.taken.span)
  · change slot ∉ (y.cancelJob lane.other).st.queues.get sp.source
    rw [cancelled]
    refine requeue_unlisted going apart.symm ?_
    have queues : (y.cancelled lane.other j v).st.queues = y.st.queues :=
      (congrArg SpanTable.queues (givesUp_standsBy y lane.other j.reserved).st :)
    rw [queues]
    exact forms.taken.unlisted
  · refine Eq.trans ?_ (cursor l)
    by_cases named : l = lane.other
    · rw [named, readyAt_lane, own, other]
      rfl
    · have same : l = lane := by
        rw [Lane.ne_iff_other.mp named, Lane.other_other]
      rw [same]
      have moved : ((y.cancelJob lane.other).readyAt lane.other).lane lane = (y.cancelJob lane.other).lane lane :=
        (moves_onLane _ lane.other _).al lane (Lane.other_ne lane).symm
      rw [moved, leader]
  · change (y.cancelJob lane.other).span? j.slot = _
    rw [cancelled]
    exact queued
  · rw [readyAt_lane, own]
    rfl
  · refine (cancels y lane.other).wire.trans ?_
    rw [wire, other]

end Cancel

end Sys2Proof.Machine

/-! The pair protocol settled: the join at AWAKE, the follower that does not wake, and the other parts by name. -/

namespace Sys2Proof.Machine

/-! ### The follower becomes READY after AWAKE (R117, R119) -/

/-- The state with a lane awake and READY. -/
def State.awakened (s : State) (lane : Lane) : State :=
  ((s.onLane lane fun a => { a with timer := none }).setFlag (laneChangeFlag lane)).setLaneState lane .ready

theorem awakened_lane (s : State) (lane : Lane) :
    (s.awakened lane).lane lane = { s.lane lane with state := .ready, timer := none } := by
  rw [State.awakened, State.setLaneState, State.lane_eq, get_onLane, setFlag_al, get_onLane]
  rfl

theorem moves_awakened (s : State) (lane : Lane) : Moves lane s (s.awakened lane) := by
  unfold State.awakened State.setLaneState
  exact ((moves_onLane s lane _).trans ((outside_setFlag _ _).moves lane)).trans (moves_onLane _ lane _)

theorem awakened_standsBy (s : State) (lane : Lane) : StandsBy s (s.awakened lane) :=
  (StandsBy.mk rfl rfl rfl rfl : StandsBy s (s.onLane lane fun a => { a with timer := none })).trans
    ((standsBy_setFlag _ _).trans ⟨rfl, rfl, rfl, rfl⟩)

theorem awakened_cursor (s : State) (lane l : Lane) : ((s.awakened lane).lane l).dataCursor = (s.lane l).dataCursor := by
  by_cases own : l = lane
  · rw [own, awakened_lane]
  · rw [State.lane, (moves_awakened s lane).al l own]
    rfl

theorem takeAwake_joins {s : State} {c : PairContext} (pair : s.ds.pair = some c) (forming : c.phase = .forming)
    (room : (s.lane c.follower).dataFull = false) : s.takeAwake c.follower = (s.awakened c.follower).join c := by
  have paired : ((s.onLane c.follower fun a => { a with timer := none }).setFlag (laneChangeFlag c.follower)).ds.pair =
      some c := by
    rw [setFlag_ds]
    exact pair
  have full : (((s.onLane c.follower fun a => { a with timer := none }).setFlag
      (laneChangeFlag c.follower)).lane c.follower).dataFull = false := by
    rw [State.lane_eq, setFlag_al, get_onLane]
    exact room
  unfold State.takeAwake State.enterReady
  dsimp only
  rw [paired]
  dsimp only
  rw [if_pos ⟨forming, rfl⟩, full]
  exact if_neg Bool.false_ne_true

/-! ### A follower that does not wake (R120 to R122) -/

section Wake

variable {s : State} {c : PairContext}

theorem exec_wakeTimeout (pair : s.ds.pair = some c) (forming : c.phase = .forming)
    (waking : (s.lane c.follower).state = .waking) (timer : (s.lane c.follower).timer.isSome = true) :
    exec (.wakeTimeout c.follower) s = .next ((s.enterFaulted c.follower .wakeTimeout).followerLost c).evaluate := by
  have run := (exec_expired (row := .wakeTimeout c.follower) (st := .waking) (cause := .wakeTimeout) (by simp) timer).1 waking
  rw [run, State.faultLane, checkFollower_forming ((moves_enterFaulted s c.follower .wakeTimeout).pair.trans pair) forming]

/-- The follower has faulted, and owed no block. -/
structure FollowerFaulted (s : State) (c : PairContext) (z : State) : Prop where
  stands : StandsBy s z
  leader : z.lane c.leader = s.lane c.leader
  wire : z.wire = s.wire
  now : z.now = s.now

theorem followerFaulted (free : s.owes c.follower = false) : FollowerFaulted s c (s.enterFaulted c.follower .wakeTimeout) :=
  ⟨enterFaulted_standsBy free _, (moves_enterFaulted s c.follower _).al _ c.leader_ne,
    (enterFaulted_faults s c.follower _).wire, (enterFaulted_outside s c.follower _).now⟩

variable {z u : State} {sp : Span}

/-- The span is back in its queue; a leader that pauses misses a block it owes. -/
theorem FollowerFaulted.span (h : FollowerFaulted s c z) (returns : Returns z c u) (found : s.span? c.slot = some sp)
    (live : s.rc.expired = false) :
    ∃ w : State, w.span? c.slot = some { sp with state := .queued } ∧
      c.slot ∈ w.st.queues.get sp.source ∧ (∀ n, n ≠ c.slot → w.span? n = s.span? n) ∧ w.iu = s.iu ∧
      ((s.lane c.leader).action ≠ .pause ∨ s.owes c.leader = false → u.st = w.st) ∧
      ((s.lane c.leader).action = .pause → s.owes c.leader = true → u.st = (w.blockMissed c.leader).st ∧
        u.nu.isPending .indexMissed = true) := by
  have alive : z.rc.expired = false := by rw [h.stands.rc]; exact live
  obtain ⟨queued, listed, others⟩ := requeue_queued ((h.stands.span? c.slot).trans found) alive
  have iu : (z.requeue c.slot).iu = s.iu := by
    rw [requeue_live_only alive]
    exact h.stands.iu
  have rest (n : Nat) (other : n ≠ c.slot) : (z.requeue c.slot).span? n = s.span? n :=
    (others n other).trans (h.stands.span? n)
  by_cases free : (s.lane c.leader).action ≠ .pause ∨ s.owes c.leader = false
  · have stands := returns.stands alive (by rw [h.leader, h.stands.owes]; exact free)
    refine ⟨z.requeue c.slot, queued, listed, rest, iu, fun _ => stands.st, fun pause owes => ?_⟩
    obtain other | free := free
    · exact absurd pause other
    · rw [owes] at free
      exact Bool.noConfusion free
  · obtain ⟨pause, owes⟩ := not_or.mp free
    obtain ⟨w, stands, st, flag⟩ := returns.missed alive (by rw [h.leader]; exact not_not.mp pause)
      (by rw [h.stands.owes]; simpa using owes)
    exact ⟨w, (stands.span? _).trans queued, by rw [stands.st]; exact listed,
      fun n other => (stands.span? n).trans (rest n other), stands.iu.trans iu, fun k => absurd k free,
      fun _ _ => ⟨st, flag⟩⟩

/-- The leader takes its next state. -/
theorem FollowerFaulted.ends (h : FollowerFaulted s c z) (returns : Returns z c u) :
    JobEnds s u c.leader { s.lane c.leader with job := none } (s.claimNow (s.lane c.leader)) := by
  have ends := returns.ends
  rw [h.leader, State.claimNow, h.now] at ends
  exact ends.congr h.wire

theorem FollowerFaulted.singly (h : FollowerFaulted s c z) (singly : Singly z c u) (found : s.span? c.slot = some sp) :
    u.st = s.st ∧ StartsJob (s.lane c.leader) c.slot c.runId c.seq sp (u.lane c.leader) := by
  have starts := singly.starts sp ((h.stands.span? c.slot).trans found)
  rw [h.leader] at starts
  exact ⟨singly.stands.st.trans h.stands.st, starts⟩

/-- The leader's write has ended unstarted: its span is back, and the leader takes its next state. -/
def LeaderBack (s : State) (c : PairContext) (sp : Span) (u : State) : Prop :=
  let a := s.lane c.leader
  (s.rc.expired = false →
    ∃ w : State, w.span? c.slot = some { sp with state := .queued } ∧
      c.slot ∈ w.st.queues.get sp.source ∧ (∀ n, n ≠ c.slot → w.span? n = s.span? n) ∧ w.iu = s.iu ∧
      (a.action ≠ .pause ∨ s.owes c.leader = false → u.st = w.st) ∧
      (a.action = .pause → s.owes c.leader = true → u.st = (w.blockMissed c.leader).st ∧
        u.nu.isPending .indexMissed = true)) ∧
  (a.action = .none → u.lane c.leader = { a with state := .ready, job := none } ∧
    u.ds.claim.get c.leader = s.claimNow a) ∧
  (a.action = .pause → u.ds.claim.get c.leader = none ∧
    u.lane c.leader = { a with state := .paused, job := none, action := .none }) ∧
  (a.action = .park → u.ds.claim.get c.leader = none ∧
    u.wire.get c.leader = s.wire.get c.leader ++ [.park (a.burstTag + 1)] ∧
    u.lane c.leader =
      { a with
        state := .parking, job := none, action := .none, burstTag := a.burstTag + 1,
        timer := some a.settings.responseTime })

/-- The leader writes the span singly, and the table stands. -/
def LeaderSingly (s : State) (c : PairContext) (sp : Span) (u : State) : Prop :=
  u.st = s.st ∧ (u.lane c.leader).state = .busy ∧ (u.lane c.leader).action = (s.lane c.leader).action ∧
    (u.lane c.leader).dataCursor = (s.lane c.leader).dataCursor + 1 + (sp.count + 2047) / 2048 ∧
    ∃ j, (u.lane c.leader).job = some (.span j) ∧ j.slot = c.slot ∧ j.runId = c.runId ∧
      j.seq = c.seq ∧ j.started = true ∧ j.first = (s.lane c.leader).dataCursor ∧ j.record = some sp

theorem FollowerFaulted.back (h : FollowerFaulted s c z) (returns : Returns z c u) (found : s.span? c.slot = some sp) :
    LeaderBack s c sp u := by
  have ends := h.ends returns
  refine ⟨fun live => h.span returns found live, fun none => ?_, fun pause => ?_, fun park => ?_⟩
  · obtain ⟨own, claim, -⟩ := ends.ready none
    exact ⟨own, claim⟩
  · obtain ⟨own, claim, -⟩ := ends.pause pause
    exact ⟨claim, own⟩
  · obtain ⟨own, claim, wire⟩ := ends.park park
    exact ⟨claim, by rw [wire]; exact PerLane.get_set_self _ _ _, own⟩

theorem FollowerFaulted.alone (h : FollowerFaulted s c z) (singly : Singly z c u) (found : s.span? c.slot = some sp) :
    LeaderSingly s c sp u := by
  obtain ⟨st, starts⟩ := h.singly singly found
  exact ⟨st, starts.state, starts.action, starts.cursor, starts.job⟩

/-- What becomes of the leader, by the policy of the span. -/
theorem FollowerFaulted.leader_by (h : FollowerFaulted s c z) (lost : FollowerLost z c u) (found : s.span? c.slot = some sp) :
    (sp.mirrorPolicy = some .strict → LeaderBack s c sp u) ∧
    (sp.mirrorPolicy = some .degrade →
      ((s.lane c.leader).action = .none → LeaderSingly s c sp u) ∧
      (LeaderSingly s c sp u ∨ (s.lane c.leader).action ≠ .none ∧ LeaderBack s c sp u)) := by
  have standing := (h.stands.span? c.slot).trans found
  refine ⟨fun strict => h.back (lost.strict (pairPolicy_of_found standing strict)) found, fun degrade => ?_⟩
  obtain ⟨none, either⟩ := lost.degrade (pairPolicy_of_found standing degrade)
  rw [h.leader] at none either
  exact ⟨fun action => h.alone (none action) found,
    either.imp (fun singly => h.alone singly found) fun ⟨action, returns⟩ => ⟨action, h.back returns found⟩⟩

end Wake

/-! ### The follower freed for the pair (R118) -/

/-- The follower joins after its single write has been cancelled. -/
theorem Freed.joins {s x : State} {lane : Lane} {slot : Nat} {sp v : Span} {j : SpanJob} (h : Freed s lane slot sp j v x)
    (job : (s.lane lane.other).job = some (.span j)) :
    Joined s lane slot sp (s.formPair lane slot sp) ∧
      (s.formPair lane slot sp).span? j.slot = some { v with state := .queued, lastOutcome := .cancelled } ∧
      ((s.formPair lane slot sp).lane lane.other).deadSpace = (s.lane lane.other).deadSpace + j.reserved ∧
      ((s.lane lane.other).timer.isSome = true →
        s.wire.get lane.other ++ [.cancel (s.lane lane.other).burstTag] <+: (s.formPair lane slot sp).wire.get lane.other) := by
  have join := Machine.joins x (s.pairOf lane slot sp)
  rw [← h.step] at join
  have starts := join.starts _ h.span lane.other
  refine ⟨joined_of_joins join h.span h.unlisted h.cursor, (join.stands.span? _).trans h.returned,
    starts.deadSpace.trans h.deadSpace, fun timer => ?_⟩
  obtain ⟨f, wire⟩ := join.wire
  have cancel : (s.lane lane.other).cancels = [.cancel (s.lane lane.other).burstTag] := by
    rw [LaneUnit.cancels, job, if_pos (by rw [timer]; rfl)]
  have sent : x.wire.get lane.other = s.wire.get lane.other ++ [.cancel (s.lane lane.other).burstTag] := by
    rw [h.wire, cancel]
  exact ⟨[f], by rw [← sent]; exact wire.symm⟩

/-- Settles O57: formation, join, loss, reset and close, each by its case. -/
theorem followerJoinsThePair : Obligations.FollowerJoinsThePair := by
  refine ⟨?_, ?_, ?_, ?_, ?_⟩
  · intro s c tag sp pair forming waking timer current room found
    have run : exec (.awake c.follower tag) s = .next ((s.awakened c.follower).join c).evaluate := by
      rw [exec_awake, onAwake_of_awaits waking timer current, takeAwake_joins pair forming room]
    have stands := awakened_standsBy s c.follower
    have join := joins (s.awakened c.follower) c
    have within := within_join (s.awakened c.follower) c
    refine ⟨_, run, join.pair, fun l => ?_, within.kept.flags _ ?_, within.kept.mem.trans ?_, join.stands.st.trans stands.st,
      join.stands.rc.trans stands.rc⟩
    · have starts := join.starts sp ((stands.span? c.slot).trans found) l
      obtain ⟨j, job, slot, runId, seq, started, first, record⟩ := starts.job
      have cursor := starts.cursor
      rw [awakened_cursor] at cursor first
      exact ⟨starts.state, join.claim l, cursor, j, job, slot, runId, seq, started, first, record⟩
    · exact setFlag_pending _ _
    · exact (outside_setFlag _ _).mem
  · intro s lane slot sp found a b c waiting u taken joined forms
    have ofJoined (h : Joined s lane slot sp u) : joined :=
      ⟨⟨h.taken.span, h.taken.unlisted, h.taken.claim⟩, h.pair, h.writes⟩
    have ofForms (h : Forms s lane slot sp u) : forms :=
      ⟨⟨h.taken.span, h.taken.unlisted, h.taken.claim⟩, h.pair, h.own, h.wire⟩
    refine ⟨fun ready => ofJoined (formPair_ready ready), fun parking => ?_, fun parked => ?_, fun goes => ?_, ?_⟩
    · obtain ⟨formed, rest⟩ := formPair_parking (slot := slot) (sp := sp) parking
      exact ⟨ofForms formed, rest⟩
    · obtain ⟨formed, rest⟩ := formPair_parked (slot := slot) (sp := sp) parked
      exact ⟨ofForms formed, rest⟩
    · obtain ⟨formed, rest⟩ := formPair_goesOn (slot := slot) (sp := sp) goes
      exact ⟨ofForms formed, rest⟩
    · intro j v busy mode job action room apart requested live
      obtain ⟨x, free⟩ := freed busy mode job action room apart requested live
      obtain ⟨both, rest⟩ := free.joins job
      exact ⟨ofJoined both, rest⟩
  · intro s c sp pair forming found waking timer free a
    have gone := followerFaulted (c := c) free
    have lost := followerLost_spec (s.enterFaulted c.follower .wakeTimeout) c
    have faults := enterFaulted_faults s c.follower .wakeTimeout
    have silent : ((s.enterFaulted c.follower .wakeTimeout).lane c.follower).state.claims = false := by
      rw [faults.entered]
      rfl
    exact ⟨_, exec_wakeTimeout pair forming waking timer, lost.lost.pair, lost.lost.follower.trans faults.entered,
      lost.lost.claim.trans ((roleClaim_silent silent).trans faults.claim), gone.leader_by lost found⟩
  · intro s f rest c j sp payload received pair forming busy job found free live
    have dissolved := cancelJob_dissolves (s := s.answered f rest .ok []) pair forming job found live
    have left := leavesDuty_resets (s.answered f rest .ok []) c.leader
    have alone := left.alone (formingFollower_of_none dissolved.pair) (dissolved.owes.trans free)
    have run := exec_laneReset received payload (by rw [busy]; exact LaneState.noConfusion)
    rw [alone] at run
    refine ⟨_, run, left.moves.pair.trans dissolved.pair, (left.stands.span? _).trans dissolved.span,
      by rw [left.stands.st]; exact dissolved.listed, ?_, left.moves.other.trans dissolved.follower, fun claims none => ?_⟩
    · rw [resets_unit]
      rfl
    · exact left.moves.otherClaim.trans (dissolved.claim.trans (if_pos ⟨claims, none⟩))
  · intro s c sp policy found mirror has live table u tried lost
    have ofFailed {v : Span} (copies : v.copies = sp.copies) (attempts : v.attempts = sp.attempts + 1)
        (h : u.nu.isPending .spanFailed = true ∧ ∀ x, u.span? c.slot = some x → x = v.failed) : lost := by
      refine ⟨h.1, fun x left => ?_⟩
      rw [h.2 x left]
      exact ⟨rfl, rfl, attempts, copies⟩
    refine ⟨(closes_closePair s c).pair, fun l => ⟨closePair_lane s c l, closePair_claim s c l⟩,
      fun both two v left => closePair_both found table mirror both two left, fun lane done one => ⟨?_, ?_, ?_⟩, fun bare => ?_⟩
    · intro failed degrade
      exact closePair_degrade found live table mirror (degrade ▸ has) done one failed
    · intro failed strict
      obtain ⟨repairs, sheds⟩ := closePair_strict found live table (strict ▸ has) done failed
      exact ⟨repairs, fun limit => ofFailed (v := sp.countAttempt.owedBy lane.other) rfl rfl (sheds limit)⟩
    · exact fun cancelled => closePair_cancelled found live done cancelled
    · obtain ⟨fails, returns⟩ := closePair_bare found live table bare
      refine ⟨fun failed => ?_, returns⟩
      obtain ⟨requeues, sheds⟩ := fails failed
      exact ⟨requeues, fun limit => ofFailed (v := sp.countAttempt) rfl rfl (sheds limit)⟩

end Sys2Proof.Machine
